-- ==== Sys2Proof/Word.lean ====
section
/-!
DEFINITION. The word types of the machine and the plainest arithmetic on them (spec/00_scope.md: 32-bit lanes,
little-endian bytes, 128-bit quanta).
-/

namespace Sys2Proof

/-- A lane register, a uniform register or a slot word (spec/06 R129, spec/07 R172, R178). -/
abbrev Word := BitVec 32

/-- One byte of any memory (spec/00_scope.md R6). -/
abbrev Byte := BitVec 8

/-- Bits `[lo + len - 1 : lo]` of a word, as a number. -/
def fieldNat {w : Nat} (x : BitVec w) (lo len : Nat) : Nat := (x.extractLsb' lo len).toNat

/-- Bit `i` of a number. -/
def natBit (n i : Nat) : Bool := n.testBit i

/-- `n` truncated to a 32-bit word. -/
def wordOf (n : Nat) : Word := BitVec.ofNat 32 n

/-- The `k` low bytes of `n`, lowest first: the byte order of every wide access. -/
def leBytes : Nat → Nat → List Byte
  | 0, _ => []
  | k + 1, n => BitVec.ofNat 8 n :: leBytes k (n / 256)

/-- The number whose bytes, lowest first, are given. -/
def leNat : List Byte → Nat
  | [] => 0
  | b :: bs => b.toNat + 256 * leNat bs

/-- The numbers `0, 1, …, n - 1`, ascending. -/
def upTo (n : Nat) : List Nat := List.range n

/-- `n` rounded up to a multiple of `m`. -/
def roundUp (n m : Nat) : Nat := if m = 0 then n else (n + m - 1) / m * m

end Sys2Proof
end

