-- ==== Sys2Proof/Machine/Flags.lean ====
section
/-!
DEFINITION. Number formats, rounding and exception flags (spec/09): unpacking (R196, R197), the one rounding procedure
(R202) with overflow by format (R206), exact sums and products, minimum and maximum (R205), correctly rounded special
functions (spec/10 R226), QN4 (R200, R201) and the block-scale choice (R207). Every flag the specification gives is here.
-/

namespace Sys2Proof.Machine

/-- Exception flags (Table 9-4). -/
abbrev FFlags := BitVec 5
def flagNV : FFlags := 16
def flagDZ : FFlags := 8
def flagOF : FFlags := 4
def flagUF : FFlags := 2
def flagNX : FFlags := 1

/-- What a format does at its maximum exponent code (Table 9-1). -/
inductive Top where
  | ieee | e4m3 | e2m1
deriving DecidableEq, Repr

/-- A floating-point format: exponent width, fraction width, bias. -/
structure Fmt where
  ew   : Nat
  fw   : Nat
  bias : Nat
  top  : Top
deriving DecidableEq, Repr

def fp32 : Fmt := ⟨8, 23, 127, .ieee⟩
def fp36 : Fmt := ⟨8, 27, 127, .ieee⟩
def bf16 : Fmt := ⟨8, 7, 127, .ieee⟩
def fp16 : Fmt := ⟨5, 10, 15, .ieee⟩
def e5m2 : Fmt := ⟨5, 2, 15, .ieee⟩
def e4m3 : Fmt := ⟨4, 3, 7, .e4m3⟩
def e2m1 : Fmt := ⟨2, 1, 1, .e2m1⟩

/-- A value: a NaN (signalling or not), an infinity, or (−1)^neg × m × 2^e. -/
inductive Fp where
  | nan (sig : Bool)
  | inf (neg : Bool)
  | fin (neg : Bool) (m : Nat) (e : Int)
deriving DecidableEq, Repr

/-- Code of the sign bit. -/
def Fmt.signBit (f : Fmt) : Nat := 2 ^ (f.ew + f.fw)

/-- Code of infinity, and the first code past the largest finite one. -/
def Fmt.infCode (f : Fmt) : Nat :=
  match f.top with | .ieee => (2 ^ f.ew - 1) * 2 ^ f.fw | .e4m3 => 0x7F | .e2m1 => 8

/-- Largest finite code (Table 9-1). -/
def Fmt.maxCode (f : Fmt) : Nat := f.infCode - 1

/-- Canonical NaN (Table 9-2); E2M1 has none and takes +6 (Table 9-5). -/
def Fmt.nanCode (f : Fmt) : Nat :=
  match f.top with | .ieee => f.infCode + 2 ^ (f.fw - 1) | .e4m3 => 0x7F | .e2m1 => 7

/-- The value of a code (R196, R197). -/
def unpack (f : Fmt) (code : Nat) : Fp :=
  let neg := code.testBit (f.ew + f.fw)
  let mag := code % f.signBit
  let e := mag / 2 ^ f.fw
  let frac := mag % 2 ^ f.fw
  if mag > f.infCode && f.top == .ieee then .nan (!mag.testBit (f.fw - 1) && f.fw != 2)
  else if mag = f.infCode && f.top == .ieee then .inf neg
  else if mag = 0x7F && f.top == .e4m3 then .nan false
  else if e = 0 then .fin neg frac (1 - (f.bias : Int) - f.fw)
  else .fin neg (2 ^ f.fw + frac) ((e : Int) - f.bias - f.fw)

/-- Rounding modes (Table 8-2): 0 nearest even, 1 toward zero, 2 down, 3 up. -/
def roundsUp (mode : Nat) (neg : Bool) (odd : Bool) (rem half : Nat) (sticky : Bool) : Bool :=
  match mode with
  | 0 => decide (half < rem) || (rem == half && (sticky || odd))
  | 1 => false
  | 2 => neg && (rem != 0 || sticky)
  | _ => !neg && (rem != 0 || sticky)

/-- Overflow (R202, R206): the code and flags for a magnitude past the largest finite one. -/
def overflowCode (f : Fmt) (mode : Nat) (sat : Bool) (neg : Bool) : Nat × FFlags :=
  let s := if neg then f.signBit else 0
  let toMax := match mode with | 0 => false | 1 => true | 2 => !neg | _ => neg
  match f.top with
  | .ieee => if sat || toMax then (s + f.maxCode, flagOF ||| flagNX) else (s + f.infCode, flagOF ||| flagNX)
  | .e4m3 => if sat then (s + f.maxCode, flagOF ||| flagNX) else (f.nanCode, flagOF ||| flagNX)
  | .e2m1 => (s + f.maxCode, flagOF ||| flagNX)

/-- Round (−1)^neg × (m + δ) × 2^e once, where 0 < δ < 1 if `sticky` and δ = 0 otherwise (R202). -/
def roundFmt (f : Fmt) (mode : Nat) (sat neg : Bool) (m : Nat) (e : Int) (sticky : Bool) : Nat × FFlags :=
  let s := if neg then f.signBit else 0
  if m = 0 then (s, 0)
  else
    let l : Int := (Nat.log2 m : Int) + e
    let low : Int := 1 - (f.bias : Int)
    let qe : Int := (if l < low then low else l) - f.fw
    let base := (qe + f.fw + f.bias - 1).toNat * 2 ^ f.fw
    if qe ≤ e then
      let code := base + m * 2 ^ (e - qe).toNat
      if f.maxCode < code then overflowCode f mode sat neg
      else (s + code, if sticky then flagNX else 0)
    else
      let sh := (qe - e).toNat
      let n := m >>> sh
      let rem := m % 2 ^ sh
      let inexact := rem != 0 || sticky
      let n' := if roundsUp mode neg (n % 2 == 1) rem (2 ^ (sh - 1)) sticky then n + 1 else n
      let code := base + n'
      if f.maxCode < code then overflowCode f mode sat neg
      else (s + code, (if inexact then flagNX else 0) ||| (if inexact && decide (code < 2 ^ f.fw) then flagUF else 0))

/-- A value's code in a format: NaNs canonical, infinities kept (or as Table 9-5 gives), finite values rounded. -/
def packFp (f : Fmt) (mode : Nat) (sat : Bool) (v : Fp) : Nat × FFlags :=
  match v with
  | .nan _ => (f.nanCode, 0)
  | .inf neg => ((if neg then f.signBit else 0) + f.infCode, 0)
  | .fin neg m e => roundFmt f mode sat neg m e false

def isNan (v : Fp) : Bool := match v with | .nan _ => true | _ => false
def isSig (v : Fp) : Bool := match v with | .nan s => s | _ => false
def isInf (v : Fp) : Bool := match v with | .inf _ => true | _ => false
def isZero (v : Fp) : Bool := match v with | .fin _ 0 _ => true | _ => false
def isFinite (v : Fp) : Bool := match v with | .fin .. => true | _ => false
def negOf (v : Fp) : Bool := match v with | .nan _ => false | .inf n => n | .fin n _ _ => n
def negFp (v : Fp) : Fp := match v with | .nan s => .nan s | .inf n => .inf (!n) | .fin n m e => .fin (!n) m e

/-! ### Exact dyadic numbers -/

/-- The number num × 2^exp. -/
structure Dy where
  num : Int
  exp : Int
deriving DecidableEq, Repr

def Dy.zero : Dy := ⟨0, 0⟩
def dyOf (v : Fp) : Dy := match v with | .fin n m e => ⟨if n then -(m : Int) else m, e⟩ | _ => Dy.zero

/-- Numerator of a dyadic at exponent `k`, at most its own. -/
def alignTo (x : Dy) (k : Int) : Int := x.num * 2 ^ (x.exp - k).toNat

def dyAdd (x y : Dy) : Dy :=
  let k := if x.exp < y.exp then x.exp else y.exp
  ⟨alignTo x k + alignTo y k, k⟩

def dyMul (x y : Dy) : Dy := ⟨x.num * y.num, x.exp + y.exp⟩
def dyNeg (x : Dy) : Dy := ⟨-x.num, x.exp⟩

/-- x ≤ y. -/
def dyLe (x y : Dy) : Bool :=
  let k := if x.exp < y.exp then x.exp else y.exp
  decide (alignTo x k ≤ alignTo y k)

def dyFp (x : Dy) : Fp := .fin (decide (x.num < 0)) x.num.natAbs x.exp

/-! ### Sums and products (R223) -/

/-- The exact sum as a value; `down` selects the sign of an exact zero of x + (−x). NaN stands for an invalid sum. -/
def addFp (x y : Fp) (down : Bool) : Fp :=
  match x, y with
  | .nan _, _ => .nan false
  | _, .nan _ => .nan false
  | .inf a, .inf b => if a = b then .inf a else .nan true
  | .inf a, _ => .inf a
  | _, .inf b => .inf b
  | .fin na ma ea, .fin nb mb eb =>
    if ma = 0 && mb = 0 then .fin (if na = nb then na else down) 0 0
    else if ma = 0 then .fin nb mb eb
    else if mb = 0 then .fin na ma ea
    else
      let d := dyAdd (dyOf (.fin na ma ea)) (dyOf (.fin nb mb eb))
      if d.num = 0 then .fin down 0 0 else dyFp d

/-- The exact product. `nan true` stands for 0 × ∞. -/
def mulFp (x y : Fp) : Fp :=
  match x, y with
  | .nan _, _ => .nan false
  | _, .nan _ => .nan false
  | .inf a, .inf b => .inf (a != b)
  | .inf a, .fin b m _ => if m = 0 then .nan true else .inf (a != b)
  | .fin a m _, .inf b => if m = 0 then .nan true else .inf (a != b)
  | .fin a m e, .fin b n g => .fin (a != b) (m * n) (e + g)

/-- NV of an operation: a signalling operand, or an invalid operation on non-NaN operands. -/
def nvIf (b : Bool) : FFlags := if b then flagNV else 0

/-- a + b in a format. -/
def fpAdd (f : Fmt) (mode : Nat) (a b : Nat) : Nat × FFlags :=
  let x := unpack f a
  let y := unpack f b
  let v := addFp x y (mode == 2)
  let r := packFp f mode false v
  (r.1, r.2 ||| nvIf (isSig x || isSig y || (!isNan x && !isNan y && isNan v)))

/-- a × b in a format. -/
def fpMul (f : Fmt) (mode : Nat) (a b : Nat) : Nat × FFlags :=
  let x := unpack f a
  let y := unpack f b
  let v := mulFp x y
  let r := packFp f mode false v
  (r.1, r.2 ||| nvIf (isSig x || isSig y || (!isNan x && !isNan y && isNan v)))

/-- d + a × b in a format, rounded once; 0 × ∞ is invalid even when the addend is a quiet NaN. -/
def fpFma (f : Fmt) (mode : Nat) (neg : Bool) (d a b : Nat) : Nat × FFlags :=
  let x := unpack f a
  let y := unpack f b
  let z := unpack f d
  let p := if neg then negFp (mulFp x y) else mulFp x y
  let v := addFp z p (mode == 2)
  let r := packFp f mode false v
  let badMul := !isNan x && !isNan y && isNan p
  let badAdd := !isNan x && !isNan y && !isNan p && !isNan z && isNan v
  (r.1, r.2 ||| nvIf (isSig x || isSig y || isSig z || badMul || badAdd))

/-- Change the sign bit of a code. -/
def flipSign (f : Fmt) (on : Bool) (a : Nat) : Nat :=
  if on then (if a.testBit (f.ew + f.fw) then a - f.signBit else a + f.signBit) else a

/-! ### Minimum, maximum and comparison (R205, R236) -/

/-- An order-preserving number of a code that is no NaN; −0 is less than +0. -/
def orderKey (f : Fmt) (a : Nat) : Int :=
  if a.testBit (f.ew + f.fw) then -1 - ((a % f.signBit : Nat) : Int) else ((a % f.signBit : Nat) : Int)

/-- minimumNumber, or maximumNumber when `mx`. -/
def fpMinMax (f : Fmt) (mx : Bool) (a b : Nat) : Nat × FFlags :=
  let x := unpack f a
  let y := unpack f b
  let nv := nvIf (isSig x || isSig y)
  if isNan x && isNan y then (f.nanCode, nv)
  else if isNan x then (b, nv)
  else if isNan y then (a, nv)
  else
    let less := decide (orderKey f a < orderKey f b)
    ((if mx then (if less then b else a) else (if decide (orderKey f b < orderKey f a) then b else a)), nv)

/-- A number that orders values with −0 = +0. -/
def numericKey (f : Fmt) (a : Nat) : Int :=
  if a.testBit (f.ew + f.fw) then -((a % f.signBit : Nat) : Int) else ((a % f.signBit : Nat) : Int)

/-- fcmp conditions 0 eq, 1 lt, 2 le, 3 un, and NV for a signalling operand (R236). -/
def fpCompare (cond a b : Nat) : Bool × FFlags :=
  let x := unpack fp32 a
  let y := unpack fp32 b
  let nv := nvIf (isSig x || isSig y)
  let un := isNan x || isNan y
  let ka := numericKey fp32 a
  let kb := numericKey fp32 b
  match cond with
  | 0 => (!un && decide (ka = kb), nv)
  | 1 => (!un && decide (ka < kb), nv)
  | 2 => (!un && decide (ka ≤ kb), nv)
  | _ => (un, nv)

/-- fclamp (R224). -/
def fpClamp (x a b : Nat) : Nat × FFlags :=
  let lo := fpMinMax fp32 false a b
  let hi := fpMinMax fp32 true a b
  let r := fpMinMax fp32 false (fpMinMax fp32 true x lo.1).1 hi.1
  (r.1, nvIf (isSig (unpack fp32 x) || isSig (unpack fp32 a) || isSig (unpack fp32 b)))

/-- fclass (Table 10-3). -/
def fpClass (a : Nat) : Nat :=
  match unpack fp32 a with
  | .nan s => if s then 2 ^ 8 else 2 ^ 9
  | .inf n => if n then 1 else 2 ^ 7
  | .fin n m _ =>
    if m = 0 then (if n then 2 ^ 3 else 2 ^ 4)
    else if a % 2 ^ 31 < 2 ^ 23 then (if n then 2 ^ 2 else 2 ^ 5)
    else (if n then 2 else 2 ^ 6)

/-! ### Integers and FP32 (R225, R228) -/

/-- A magnitude m × 2^e rounded to an integer, and whether it was inexact. -/
def roundInt (mode : Nat) (neg : Bool) (m : Nat) (e : Int) : Nat × Bool :=
  if 0 ≤ e then (m * 2 ^ e.toNat, false)
  else
    let sh := (-e).toNat
    let n := m >>> sh
    let rem := m % 2 ^ sh
    (if roundsUp mode neg (n % 2 == 1) rem (2 ^ (sh - 1)) false then n + 1 else n, rem != 0)

/-- frnd (R225): NX is not set. -/
def fpRound (mode a : Nat) : Nat × FFlags :=
  match unpack fp32 a with
  | .nan s => (fp32.nanCode, nvIf s)
  | .inf _ => (a, 0)
  | .fin neg m e => ((roundFmt fp32 0 false neg (roundInt mode neg m e).1 0 false).1, 0)

/-- cvtf2i (R228). -/
def fpToInt (signed : Bool) (mode a : Nat) : Nat × FFlags :=
  let lo : Int := if signed then -(2 ^ 31 : Int) else 0
  let hi : Int := if signed then 2 ^ 31 - 1 else 2 ^ 32 - 1
  let code := fun (i : Int) => (i % (2 ^ 32 : Int)).toNat
  match unpack fp32 a with
  | .nan _ => (0, flagNV)
  | .inf neg => (code (if neg then lo else hi), flagNV)
  | .fin neg m e =>
    let r := roundInt mode neg m e
    let i : Int := if neg then -(r.1 : Int) else r.1
    if i < lo then (code lo, flagNV) else if hi < i then (code hi, flagNV)
    else (code i, if r.2 then flagNX else 0)

/-- cvti2f (R228). -/
def intToFp (signed : Bool) (mode a : Nat) : Nat × FFlags :=
  if signed && a.testBit 31 then roundFmt fp32 mode false true (2 ^ 32 - a) 0 false
  else roundFmt fp32 mode false false a 0 false

/-! ### Conversions between formats (Table 9-5) -/

/-- An exact widening to FP32; a NaN becomes the canonical NaN with no flag (R206). -/
def widen (f : Fmt) (a : Nat) : Nat := (packFp fp32 0 false (unpack f a)).1

/-- FP32 to a narrower format: Table 9-5, rows 1 to 4. -/
def narrowVal (f : Fmt) (sat : Bool) (v : Fp) : Nat × FFlags :=
  let s := if negOf v then f.signBit else 0
  match f.top with
  | .ieee =>
    match v with
    | .nan sg => (f.nanCode, nvIf sg)
    | .inf _ => if sat then (s + f.maxCode, flagNV) else (s + f.infCode, 0)
    | .fin n m e => roundFmt f 0 sat n m e false
  | .e4m3 =>
    match v with
    | .nan _ => (f.nanCode, flagNV)
    | .inf _ => if sat then (s + f.maxCode, flagNV) else (f.nanCode, flagNV)
    | .fin n m e => roundFmt f 0 sat n m e false
  | .e2m1 =>
    match v with
    | .nan _ => (f.nanCode, flagNV)
    | .inf _ => (s + f.maxCode, flagNV)
    | .fin n m e => roundFmt f 0 sat n m e false

def narrow (f : Fmt) (sat : Bool) (a : Nat) : Nat × FFlags := narrowVal f sat (unpack fp32 a)

/-! ### Special functions (R226): each result is formed to far more bits than FP32 holds, then rounded once -/

/-- Bits of the fixed-point fractions below. -/
def specBits : Nat := 320
/-- ln 2 × 2^320, rounded down. -/
def ln2Fixed : Nat := 0xb17217f7d1cf79abc9e3b39803f2f6af40f343267298b62d8a0d175b8baafa2be7b876206debac98
/-- π × 2^320, rounded down. -/
def piFixed : Nat := 0x3243f6a8885a308d313198a2e03707344a4093822299f31d0082efa98ec4e6c89452821e638d01377

/-- Integer square root by bits, highest first; `r` is the root found so far. -/
def sqrtBits (m : Nat) : Nat → Nat → Nat
  | 0, r => r
  | n + 1, r => let t := r + 2 ^ n
                sqrtBits m n (if t * t ≤ m then t else r)

/-- floor(√m). -/
def isqrt (m : Nat) : Nat := sqrtBits m (Nat.log2 m / 2 + 1) 0

/-- a / b (Table 10-4). -/
def fpDiv (a b : Nat) : Nat × FFlags :=
  let x := unpack fp32 a
  let y := unpack fp32 b
  match x, y with
  | .nan s, _ => (fp32.nanCode, nvIf (s || isSig y))
  | _, .nan s => (fp32.nanCode, nvIf s)
  | .inf _, .inf _ => (fp32.nanCode, flagNV)
  | .inf n, .fin k _ _ => ((if n != k then fp32.signBit else 0) + fp32.infCode, 0)
  | .fin n _ _, .inf k => ((if n != k then fp32.signBit else 0), 0)
  | .fin n m e, .fin k q g =>
    let s := if n != k then fp32.signBit else 0
    if m = 0 && q = 0 then (fp32.nanCode, flagNV)
    else if q = 0 then (s + fp32.infCode, flagDZ)
    else if m = 0 then (s, 0)
    else
      let num := m * 2 ^ 64
      roundFmt fp32 0 false (n != k) (num / q) (e - g - 64) (num % q != 0)

/-- Square root (Table 10-4). -/
def fpSqrt (a : Nat) : Nat × FFlags :=
  match unpack fp32 a with
  | .nan s => (fp32.nanCode, nvIf s)
  | .inf n => if n then (fp32.nanCode, flagNV) else (a, 0)
  | .fin n m e =>
    if m = 0 then (a, 0)
    else if n then (fp32.nanCode, flagNV)
    else
      let m' := if e % 2 = 0 then m * 2 ^ 80 else m * 2 ^ 81
      let e' := if e % 2 = 0 then e - 80 else e - 81
      let r := isqrt m'
      roundFmt fp32 0 false false r (e' / 2) (r * r != m')

/-- Reciprocal (Table 10-4): 1 / a with the specials of fdiv of 1.0. -/
def fpRcp (a : Nat) : Nat × FFlags := fpDiv 0x3F800000 a

/-- Reciprocal square root (Table 10-4): √(2^2t / m) × 2^(−t − e/2) with e even. -/
def fpRsq (a : Nat) : Nat × FFlags :=
  match unpack fp32 a with
  | .nan s => (fp32.nanCode, nvIf s)
  | .inf n => if n then (fp32.nanCode, flagNV) else (0, 0)
  | .fin n m e =>
    if m = 0 then ((if n then fp32.signBit else 0) + fp32.infCode, flagDZ)
    else if n then (fp32.nanCode, flagNV)
    else
      let m' := if e % 2 = 0 then m else 2 * m
      let e' := if e % 2 = 0 then e else e - 1
      let r := isqrt (2 ^ 120 / m')
      roundFmt fp32 0 false false r (-60 - e' / 2) (r * r * m' != 2 ^ 120)

/-- Σ x^k / k! from a term on, in fixed point. -/
def expSeries (x : Nat) : Nat → Nat → Nat → Nat
  | 0, _, acc => acc
  | n + 1, term, acc =>
    let k := 81 - (n + 1)
    let t := term * x / 2 ^ specBits / k
    expSeries x n t (acc + t)

/-- 2^a (Table 10-4). -/
def fpExp2 (a : Nat) : Nat × FFlags :=
  match unpack fp32 a with
  | .nan s => (fp32.nanCode, nvIf s)
  | .inf n => if n then (0, 0) else (a, 0)
  | .fin n m e =>
    if m = 0 then (0x3F800000, 0)
    else if 10 ≤ (Nat.log2 m : Int) + e then
      (if n then roundFmt fp32 0 false false 1 (-1000) true else roundFmt fp32 0 false false 1 1000 true)
    else
      let d := dyOf (.fin n m e)
      if 0 ≤ e then roundFmt fp32 0 false false 1 (d.num * 2 ^ e.toNat) false
      else
        let den : Int := 2 ^ (-e).toNat
        let whole := d.num / den
        let frac := (d.num % den).toNat
        if frac = 0 then roundFmt fp32 0 false false 1 whole false
        else
          let x := frac * ln2Fixed / 2 ^ (-e).toNat
          roundFmt fp32 0 false false (expSeries x 80 (2 ^ specBits) (2 ^ specBits)) (whole - specBits) true

/-- Σ z^(2k+1) / (2k+1) from a power on, in fixed point; `zz` is z². -/
def atanhSeries (zz : Nat) : Nat → Nat → Nat → Nat
  | 0, _, acc => acc
  | n + 1, pow, acc => atanhSeries zz n (pow * zz / 2 ^ specBits) (acc + pow / (2 * (110 - (n + 1)) + 1))

/-- log2 a (Table 10-4). -/
def fpLog2 (a : Nat) : Nat × FFlags :=
  match unpack fp32 a with
  | .nan s => (fp32.nanCode, nvIf s)
  | .inf n => if n then (fp32.nanCode, flagNV) else (a, 0)
  | .fin n m e =>
    if m = 0 then (fp32.signBit + fp32.infCode, flagDZ)
    else if n then (fp32.nanCode, flagNV)
    else
      let l := Nat.log2 m
      let ex : Int := (l : Int) + e
      if m = 2 ^ l then
        (if ex = 0 then (0, 0) else roundFmt fp32 0 false (decide (ex < 0)) ex.natAbs 0 false)
      else
        let z := (m - 2 ^ l) * 2 ^ specBits / (m + 2 ^ l)
        let ln := 2 * atanhSeries (z * z / 2 ^ specBits) 110 z 0
        let frac := ln * 2 ^ specBits / ln2Fixed
        let v : Int := ex * 2 ^ specBits + frac
        roundFmt fp32 0 false (decide (v < 0)) v.natAbs (-(specBits : Int)) true

/-- sin x by its series, in fixed point, for 0 ≤ x ≤ π/2: the terms alternate. -/
def sinSeries (xx : Nat) : Nat → Nat → Int → Int
  | 0, _, acc => acc
  | n + 1, term, acc =>
    let k := 50 - (n + 1)
    let t := term * xx / 2 ^ specBits / ((2 * k + 2) * (2 * k + 3))
    sinSeries xx n t (if k % 2 = 0 then acc - t else acc + t)

/-- sin(π × num / 2^k) for 0 ≤ num / 2^k ≤ 1/2, in fixed point. -/
def sinPiFixed (num k : Nat) : Nat :=
  let x := num * piFixed / 2 ^ k
  (sinSeries (x * x / 2 ^ specBits) 50 x x).toNat

/-- Round sin(π × num / 2^k), 0 ≤ num / 2^k ≤ 1/2, with a sign: exact at 0 and at 1/2 only. -/
def sinPiRound (neg : Bool) (num k : Nat) : Nat × FFlags :=
  if num = 0 then (0, 0)
  else if 2 * num = 2 ^ k then roundFmt fp32 0 false neg 1 0 false
  else roundFmt fp32 0 false neg (sinPiFixed num k) (-(specBits : Int)) true

/-- sin(π a) (Table 10-4). -/
def fpSinPi (a : Nat) : Nat × FFlags :=
  match unpack fp32 a with
  | .nan s => (fp32.nanCode, nvIf s)
  | .inf _ => (fp32.nanCode, flagNV)
  | .fin n m e =>
    let z := if n then fp32.signBit else 0
    if m = 0 || 0 ≤ e then (z, 0)
    else
      let k := (-e).toNat
      let r := m % 2 ^ (k + 1)
      if r % 2 ^ k = 0 then (z, 0)
      else
        let neg := n != decide (2 ^ k < r)
        let h := r % 2 ^ k
        sinPiRound neg (if 2 * h ≤ 2 ^ k then h else 2 ^ k - h) k

/-- cos(π a) (Table 10-4). -/
def fpCosPi (a : Nat) : Nat × FFlags :=
  match unpack fp32 a with
  | .nan s => (fp32.nanCode, nvIf s)
  | .inf _ => (fp32.nanCode, flagNV)
  | .fin _ m e =>
    if m = 0 then (0x3F800000, 0)
    else if 0 ≤ e then
      (if m * 2 ^ e.toNat % 2 = 0 then (0x3F800000, 0) else (0xBF800000, 0))
    else
      let k := (-e).toNat
      let r0 := m % 2 ^ (k + 1)
      let r := if 2 ^ k < r0 then 2 ^ (k + 1) - r0 else r0
      if 2 * r ≤ 2 ^ k then sinPiRound false (2 ^ k - 2 * r) (k + 1) else sinPiRound true (2 * r - 2 ^ k) (k + 1)

/-! ### QN4 and block scales (R200, R201, R207) -/

/-- LEVEL (Table 9-3). -/
def qnLevel (i : Nat) : Nat := [11, 33, 55, 80, 107, 139, 181, 256].getD i 256

/-- Twice the upper decision bounds (Table 9-3). -/
def qnBounds : List Nat := [44, 88, 135, 187, 246, 320, 437]

/-- QN4 code of an element against a positive block scale (R201). -/
def qnEncode (v : Fp) (bs : Dy) : Nat × FFlags :=
  match v with
  | .nan _ => (7, flagNV)
  | .inf n => ((if n then 8 else 0) + 7, flagNV)
  | .fin n m e =>
    let lhs : Dy := ⟨512 * (m : Int), e⟩
    let i := (upTo 7).find? (fun i => dyLe lhs (dyMul ⟨(qnBounds.getD i 0 : Nat), 0⟩ bs))
    ((if n then 8 else 0) + i.getD 7, 0)

/-- Value of a QN4 code under a block scale (R200). -/
def qnDecode (code : Nat) (bs : Dy) : Dy :=
  let l : Dy := ⟨(qnLevel (code % 8) : Nat), -8⟩
  let v := dyMul l bs
  if code.testBit 3 then dyNeg v else v

/-- Block kinds: 0 E4M3, 1 E2M1, 2 QN4 (Table 8-2). -/
def blockFmt (kind : Nat) : Fmt := if kind = 0 then e4m3 else e2m1

/-- floor(log2) of a positive dyadic. -/
def dyLog2 (x : Dy) : Int := (Nat.log2 x.num.natAbs : Int) + x.exp

def sumDy (l : List Dy) : Dy := l.foldl dyAdd Dy.zero

/-- Scale an exact value by 2^k. -/
def scaleFp (v : Fp) (k : Int) : Fp := match v with | .fin n m e => .fin n m (e + k) | w => w

/-- Squared error of one element under an E8M0 scale 2^c; none when it encodes as a NaN. -/
def e8Error (kind : Nat) (sat : Bool) (c : Int) (v : Fp) : Option Dy :=
  let code := (narrowVal (blockFmt kind) sat (scaleFp v (-c))).1
  match unpack (blockFmt kind) code with
  | .fin n m e =>
    let d := dyAdd (dyOf v) (dyNeg (dyOf (.fin n m (e + c))))
    some (dyMul d d)
  | _ => none

/-- Error of a block under an E8M0 scale; none for an infinite error. -/
def e8BlockError (kind : Nat) (sat : Bool) (xs : List Fp) (c : Int) : Option Dy :=
  xs.foldl (fun acc v =>
    match acc, e8Error kind sat c v with
    | some a, some b => some (dyAdd a b)
    | _, _ => none) (some Dy.zero)

/-- Error of a block under a QN4 code. -/
def qnBlockError (ss : Dy) (xs : List Fp) (c : Nat) : Dy :=
  let bs := dyMul ss ⟨c, -8⟩
  xs.foldl (fun acc v =>
    let d := dyAdd (dyOf v) (dyNeg (qnDecode (qnEncode v bs).1 bs))
    dyAdd acc (dyMul d d)) Dy.zero

/-- Keep the candidate of least error; on equal error the later, larger one. None stands for an infinite error. -/
def leastError {α : Type} (err : α → Option Dy) : List α → α → α
  | [], best => best
  | c :: cs, best =>
    let better := match err c, err best with
      | some a, some b => dyLe a b
      | some _, none => true
      | none, some _ => false
      | none, none => true
    leastError err cs (if better then c else best)

/-- Largest magnitude among finite values; 0 for none. -/
def amaxOf (xs : List Fp) : Dy :=
  xs.foldl (fun a v => let m : Dy := ⟨(dyOf v).num.natAbs, (dyOf v).exp⟩; if dyLe a m then m else a) Dy.zero

def clampInt (x lo hi : Int) : Int := if x < lo then lo else if hi < x then hi else x

/-- ceil(p / q) of dyadics, q positive. -/
def dyCeilDiv (p q : Dy) : Int :=
  let k := if p.exp < q.exp then p.exp else q.exp
  let a := alignTo p k
  let b := alignTo q k
  0 - (0 - a) / b

/-- ChooseScale for E4M3 and E2M1: the E8M0 code (R207). -/
def chooseE8 (kind : Nat) (sat : Bool) (xs : List Fp) : Nat :=
  let fs := xs.filter isFinite
  let amax := amaxOf fs
  if amax.num = 0 then 0
  else
    let e0 := dyLog2 amax - (if kind = 0 then 8 else 2)
    let cs := [e0 - 1, e0, e0 + 1].map (fun c => clampInt c (-127) 127)
    let c := leastError (e8BlockError kind sat fs) (cs.drop 1) (cs.headD 0)
    (c + 127).toNat

/-- ChooseScale for QN4: the code8 (R207), for a superscale that is finite and positive; otherwise 0 with NV. -/
def chooseQn (ss : Fp) (xs : List Fp) : Nat × FFlags :=
  match ss with
  | .fin false m e =>
    if m = 0 then (0, flagNV)
    else
      let fs := xs.filter isFinite
      let amax := amaxOf fs
      if amax.num = 0 then (0, 0)
      else
        let c0 := clampInt (dyCeilDiv (dyMul ⟨256, 0⟩ amax) ⟨m, e⟩) 1 255
        let cs := [c0 - 1, c0, c0 + 1].map (fun c => (clampInt c 1 255).toNat)
        (leastError (fun c => some (qnBlockError ⟨m, e⟩ fs c)) (cs.drop 1) (cs.headD 1), 0)
  | _ => (0, flagNV)

/-- Value of an E8M0 code as a power of two; none for NaN (R199). -/
def e8Exp (code : Nat) : Option Int := if code = 0xFF then none else some ((code : Int) - 127)

/-! ### The reduction tree and prefix (R208) -/

/-- One round of the tree: neighbours combine. -/
def pairUp {α : Type} (op : α → α → α) : List α → List α
  | x :: y :: r => op x y :: pairUp op r
  | l => l

/-- Reduce 32 values by the fixed tree. -/
def reduceTree {α : Type} (op : α → α → α) (d : α) (l : List α) : α :=
  ((List.range 5).foldl (fun l _ => pairUp op l) l).headD d

/-- Inclusive prefix of 32 values by the fixed steps. -/
def scanSteps {α : Type} (op : α → α → α) (d : α) (l : List α) : List α :=
  (List.range 5).foldl (fun u s =>
    (List.range 32).map (fun i => if 2 ^ s ≤ i then op (u.getD (i - 2 ^ s) d) (u.getD i d) else u.getD i d)) l

end Sys2Proof.Machine
end

