-- ==== Sys2Proof/Syntax.lean ====
section
/-!
DEFINITION. The instruction type: one constructor per row of spec/opcode_table.json.
The first two hundred are Isavin slot words (spec/08 R190 to R195) and hold exactly the fields of their encoding;
the control field, the literal and the PC of a slot belong to its course and stand in the issue latch of the state.
The rest have no encoding: each is a step that an agent other than an issuing group takes; they have no
fields: which unit acts and what reaches it from outside stands in the event latch of the state (Event).
-/

namespace Sys2Proof

/-- What reaches an agent at a step that has no encoding: which unit acts and the data of the event. Each such step reads
the fields its meaning names; the others are 0. -/
structure Event where
  die   : Nat := 0
  core  : Nat := 0
  /-- A group slot, slice, channel, stream, queue lane or another unit, as the step's meaning says. -/
  unit  : Nat := 0
  obj   : Nat := 0
  off   : Nat := 0
  len   : Nat := 0
  value : Nat := 0
  extra : Nat := 0
  flag  : Bool := false
  bytes : List Byte := []
  /-- Further numbers, as the step's meaning says. -/
  aux   : List Nat := []
deriving DecidableEq, Repr

/-- One constructor per row of spec/opcode_table.json. -/
inductive Instr where
  /-- NOP (R179). -/
  | nop
  /-- ADD (R217). -/
  | add (d : BitVec 7) (a : BitVec 7) (b : BitVec 7)
  /-- SUB (R217). -/
  | sub (d : BitVec 7) (a : BitVec 7) (b : BitVec 7)
  /-- ADDI (R217). -/
  | addi (d : BitVec 7) (a : BitVec 7) (i : BitVec 7)
  /-- MUL (R217). -/
  | mul (d : BitVec 7) (a : BitVec 7) (b : BitVec 7)
  /-- MULHI (R217). -/
  | mulhi (s : BitVec 1) (d : BitVec 7) (a : BitVec 7) (b : BitVec 7)
  /-- MAD (R217). -/
  | mad (d : BitVec 7) (a : BitVec 7) (b : BitVec 7)
  /-- MIN (R217). -/
  | min (s : BitVec 1) (d : BitVec 7) (a : BitVec 7) (b : BitVec 7)
  /-- MAX (R217). -/
  | max (s : BitVec 1) (d : BitVec 7) (a : BitVec 7) (b : BitVec 7)
  /-- ABS (R217). -/
  | abs (d : BitVec 7) (a : BitVec 7)
  /-- ABSDIFF (R217). -/
  | absdiff (s : BitVec 1) (d : BitVec 7) (a : BitVec 7) (b : BitVec 7)
  /-- AND (R218). -/
  | and (d : BitVec 7) (a : BitVec 7) (b : BitVec 7)
  /-- OR (R218). -/
  | or (d : BitVec 7) (a : BitVec 7) (b : BitVec 7)
  /-- XOR (R218). -/
  | xor (d : BitVec 7) (a : BitVec 7) (b : BitVec 7)
  /-- ANDN (R218). -/
  | andn (d : BitVec 7) (a : BitVec 7) (b : BitVec 7)
  /-- SHL (R218). -/
  | shl (d : BitVec 7) (a : BitVec 7) (b : BitVec 7)
  /-- SHR (R218). -/
  | shr (d : BitVec 7) (a : BitVec 7) (b : BitVec 7)
  /-- SAR (R218). -/
  | sar (d : BitVec 7) (a : BitVec 7) (b : BitVec 7)
  /-- ROL (R218). -/
  | rol (d : BitVec 7) (a : BitVec 7) (b : BitVec 7)
  /-- SHI (R218). -/
  | shi (f : BitVec 2) (d : BitVec 7) (a : BitVec 7) (i : BitVec 7)
  /-- CLZ (R219). -/
  | clz (d : BitVec 7) (a : BitVec 7)
  /-- POPC (R219). -/
  | popc (d : BitVec 7) (a : BitVec 7)
  /-- BREV (R219). -/
  | brev (d : BitVec 7) (a : BitVec 7)
  /-- BFX (R220). -/
  | bfx (s : BitVec 1) (d : BitVec 7) (a : BitVec 7) (b : BitVec 7)
  /-- BFI (R220). -/
  | bfi (d : BitVec 7) (a : BitVec 7) (b : BitVec 7)
  /-- SEL (R221). -/
  | sel (p : BitVec 3) (d : BitVec 7) (a : BitVec 7) (b : BitVec 7)
  /-- LEA (R221). -/
  | lea (s : BitVec 3) (d : BitVec 7) (a : BitVec 7) (b : BitVec 7)
  /-- ADD64 (R222). -/
  | add64 (d : BitVec 7) (a : BitVec 7) (b : BitVec 7)
  /-- SUB64 (R222). -/
  | sub64 (d : BitVec 7) (a : BitVec 7) (b : BitVec 7)
  /-- SH64 (R222). -/
  | sh64 (f : BitVec 3) (d : BitVec 7) (a : BitVec 7) (b : BitVec 7)
  /-- MOV (R221). -/
  | mov (d : BitVec 7) (b : BitVec 7)
  /-- MOVI (R221). -/
  | movi (d : BitVec 7) (i : BitVec 14)
  /-- FADD (R223). -/
  | fadd (n : BitVec 1) (r : BitVec 2) (d : BitVec 7) (a : BitVec 7) (b : BitVec 7)
  /-- FMUL (R223). -/
  | fmul (n : BitVec 1) (r : BitVec 2) (d : BitVec 7) (a : BitVec 7) (b : BitVec 7)
  /-- FMA (R223). -/
  | fma (n : BitVec 1) (r : BitVec 2) (d : BitVec 7) (a : BitVec 7) (b : BitVec 7)
  /-- FMIN (R224). -/
  | fmin (d : BitVec 7) (a : BitVec 7) (b : BitVec 7)
  /-- FMAX (R224). -/
  | fmax (d : BitVec 7) (a : BitVec 7) (b : BitVec 7)
  /-- FSGN (R224). -/
  | fsgn (f : BitVec 3) (d : BitVec 7) (a : BitVec 7) (b : BitVec 7)
  /-- FRND (R225). -/
  | frnd (r : BitVec 2) (d : BitVec 7) (a : BitVec 7)
  /-- FCLASS (R225). -/
  | fclass (d : BitVec 7) (a : BitVec 7)
  /-- FDIV (R226). -/
  | fdiv (d : BitVec 7) (a : BitVec 7) (b : BitVec 7)
  /-- FSQRT (R226). -/
  | fsqrt (d : BitVec 7) (a : BitVec 7)
  /-- FRCP (R226). -/
  | frcp (d : BitVec 7) (a : BitVec 7)
  /-- FRSQ (R226). -/
  | frsq (d : BitVec 7) (a : BitVec 7)
  /-- FEX2 (R226). -/
  | fex2 (d : BitVec 7) (a : BitVec 7)
  /-- FLG2 (R226). -/
  | flg2 (d : BitVec 7) (a : BitVec 7)
  /-- FSINPI (R226). -/
  | fsinpi (d : BitVec 7) (a : BitVec 7)
  /-- FCOSPI (R226). -/
  | fcospi (d : BitVec 7) (a : BitVec 7)
  /-- HADD2 (R227). -/
  | hadd2 (t : BitVec 1) (d : BitVec 7) (a : BitVec 7) (b : BitVec 7)
  /-- HMUL2 (R227). -/
  | hmul2 (t : BitVec 1) (d : BitVec 7) (a : BitVec 7) (b : BitVec 7)
  /-- HFMA2 (R227). -/
  | hfma2 (t : BitVec 1) (d : BitVec 7) (a : BitVec 7) (b : BitVec 7)
  /-- HMIN2 (R227). -/
  | hmin2 (t : BitVec 1) (d : BitVec 7) (a : BitVec 7) (b : BitVec 7)
  /-- HMAX2 (R227). -/
  | hmax2 (t : BitVec 1) (d : BitVec 7) (a : BitVec 7) (b : BitVec 7)
  /-- CVTI2F (R228). -/
  | cvti2f (r : BitVec 2) (s : BitVec 1) (d : BitVec 7) (a : BitVec 7)
  /-- CVTF2I (R228). -/
  | cvtf2i (r : BitVec 2) (s : BitVec 1) (d : BitVec 7) (a : BitVec 7)
  /-- CVTPK16 (R229). -/
  | cvtpk16 (t : BitVec 1) (d : BitVec 7) (a : BitVec 7) (b : BitVec 7)
  /-- CVTUP16 (R229). -/
  | cvtup16 (h : BitVec 1) (t : BitVec 1) (d : BitVec 7) (a : BitVec 7)
  /-- CVTPK8 (R230). -/
  | cvtpk8 (s : BitVec 1) (f : BitVec 2) (d : BitVec 7) (a : BitVec 7) (b : BitVec 7)
  /-- CVTUP8 (R230). -/
  | cvtup8 (f : BitVec 2) (d : BitVec 7) (a : BitVec 7)
  /-- QSCAL (R232). -/
  | qscal (f : BitVec 2) (d : BitVec 7) (a : BitVec 7) (b : BitVec 7)
  /-- QENC (R233). -/
  | qenc (s : BitVec 1) (f : BitVec 2) (d : BitVec 7) (a : BitVec 7) (b : BitVec 7)
  /-- QDEC (R234). -/
  | qdec (f : BitVec 2) (d : BitVec 7) (a : BitVec 7) (b : BitVec 7)
  /-- FCLAMP (R224). -/
  | fclamp (d : BitVec 7) (a : BitVec 7) (b : BitVec 7)
  /-- ICMP (R236). -/
  | icmp (c : BitVec 3) (t : BitVec 3) (f : BitVec 3) (a : BitVec 7) (b : BitVec 7)
  /-- ICMPI (R236). -/
  | icmpi (c : BitVec 3) (t : BitVec 3) (f : BitVec 3) (a : BitVec 7) (i : BitVec 7)
  /-- FCMP (R236). -/
  | fcmp (c : BitVec 3) (t : BitVec 3) (f : BitVec 3) (a : BitVec 7) (b : BitVec 7)
  /-- PLOG (R237). -/
  | plog (o : BitVec 2) (t : BitVec 3) (f : BitVec 3) (a : BitVec 3) (b : BitVec 3)
  /-- VOTE (R238). -/
  | vote (o : BitVec 2) (t : BitVec 3) (f : BitVec 3) (a : BitVec 3)
  /-- BALLOT (R238). -/
  | ballot (d : BitVec 7) (a : BitVec 3)
  /-- PTOI (R237). -/
  | ptoi (d : BitVec 7) (a : BitVec 3)
  /-- ITOP (R237). -/
  | itop (t : BitVec 3) (f : BitVec 3) (a : BitVec 7)
  /-- MATCH (R238). -/
  | matchAny (d : BitVec 7) (a : BitVec 7)
  /-- PERM (R239). -/
  | perm (d : BitVec 7) (a : BitVec 7) (b : BitVec 7)
  /-- SETLP (R256). -/
  | setlp (f : BitVec 2) (i : BitVec 8)
  /-- REDUX (R240). -/
  | redux (o : BitVec 3) (d : BitVec 7) (a : BitVec 7)
  /-- VGET (R241). -/
  | vget (d : BitVec 5) (a : BitVec 7) (b : BitVec 7)
  /-- VBCAST (R241). -/
  | vbcast (d : BitVec 7) (a : BitVec 5)
  /-- RDS (R256). -/
  | rds (d : BitVec 7) (i : BitVec 8)
  /-- WBASE (R256). -/
  | wbase (i : BitVec 14)
  /-- DCW (R257). -/
  | dcw (i : BitVec 13)
  /-- SCAN (R240). -/
  | scan (o : BitVec 3) (d : BitVec 7) (a : BitVec 7)
  /-- BR (R246). -/
  | br (h : BitVec 2) (o : BitVec 19) (s : BitVec 2)
  /-- BRX (R248). -/
  | brx (h : BitVec 2) (a : BitVec 7)
  /-- CALL (R249). -/
  | call (o : BitVec 19) (s : BitVec 2)
  /-- RET (R249). -/
  | ret
  /-- JOIN (R247). -/
  | join
  /-- REGANG (R132). -/
  | regang
  /-- EXIT (R251). -/
  | exit
  /-- YIELD (R252). -/
  | yield
  /-- REGION (R252). -/
  | region
  /-- TRIGGER (R252). -/
  | trigger
  /-- USIG (R254). -/
  | usig (d : BitVec 5) (a : BitVec 5) (b : BitVec 5)
  /-- UHND (R253). -/
  | uhnd (b : BitVec 7)
  /-- URET (R255). -/
  | uret
  /-- LD (R269). -/
  | ld (c : BitVec 3) (d : BitVec 5) (a : BitVec 5) (k : BitVec 4) (w : BitVec 3)
  /-- LD_ACQ (R193). -/
  | ldAcq (c : BitVec 3) (o : BitVec 2) (d : BitVec 5) (p : BitVec 2) (a : BitVec 5) (k : BitVec 4) (w : BitVec 3)
  /-- ST (R269). -/
  | st (c : BitVec 3) (d : BitVec 5) (a : BitVec 5) (k : BitVec 4) (w : BitVec 3)
  /-- ST_REL (R193). -/
  | stRel (c : BitVec 3) (o : BitVec 2) (d : BitVec 5) (p : BitVec 2) (a : BitVec 5) (k : BitVec 4) (w : BitVec 3)
  /-- LDK (R271). -/
  | ldk (c : BitVec 3) (d : BitVec 4) (a : BitVec 5) (k : BitVec 4)
  /-- STK (R271). -/
  | stk (c : BitVec 3) (d : BitVec 4) (a : BitVec 5) (k : BitVec 4)
  /-- CNARROW (R272). -/
  | cnarrow (d : BitVec 4) (a : BitVec 4) (b : BitVec 5)
  /-- CRIGHTS (R272). -/
  | crights (d : BitVec 4) (a : BitVec 4) (b : BitVec 5)
  /-- CGET (R273). -/
  | cget (f : BitVec 3) (d : BitVec 7) (a : BitVec 4)
  /-- CTEST (R273). -/
  | ctest (t : BitVec 3) (f : BitVec 3) (a : BitVec 4) (b : BitVec 7)
  /-- ATOM (R274). -/
  | atom (o : BitVec 3) (d : BitVec 5) (a : BitVec 5) (k : BitVec 4) (s : BitVec 3)
  /-- ATOMB (R274). -/
  | atomb (o : BitVec 3) (d : BitVec 5) (a : BitVec 5) (k : BitVec 4) (s : BitVec 3)
  /-- ARED (R276). -/
  | ared (o : BitVec 3) (d : BitVec 5) (a : BitVec 5) (k : BitVec 4) (w : BitVec 3)
  /-- FATOM (R274). -/
  | fatom (o : BitVec 3) (d : BitVec 5) (a : BitVec 5) (k : BitVec 4) (s : BitVec 3)
  /-- FRED (R277). -/
  | fred (o : BitVec 3) (d : BitVec 5) (a : BitVec 5) (k : BitVec 4)
  /-- FENCE (R279). -/
  | fence (f : BitVec 3) (s : BitVec 3)
  /-- PREF (R280). -/
  | pref (a : BitVec 5) (k : BitVec 4) (w : BitVec 3)
  /-- ZFILL (R281). -/
  | zfill (c : BitVec 3) (a : BitVec 5) (k : BitVec 4)
  /-- PIN (R282). -/
  | pin (t : BitVec 3) (f : BitVec 3) (a : BitVec 7) (l : BitVec 1) (k : BitVec 4)
  /-- UNPIN (R283). -/
  | unpin (c : BitVec 3) (a : BitVec 5) (k : BitVec 4)
  /-- CCTL (R284). -/
  | cctl (o : BitVec 3) (a : BitVec 5) (k : BitVec 4) (s : BitVec 3)
  /-- LDS (R269). -/
  | lds (c : BitVec 3) (d : BitVec 5) (a : BitVec 5) (w : BitVec 3)
  /-- STS (R269). -/
  | sts (c : BitVec 3) (d : BitVec 5) (a : BitVec 5) (w : BitVec 3)
  /-- STDEF (R285). -/
  | stdef (e : BitVec 3) (a : BitVec 5)
  /-- STBIND (R286). -/
  | stbind (e : BitVec 3) (o : BitVec 1) (q : BitVec 2)
  /-- STPOS (R287). -/
  | stpos (e : BitVec 3) (d : BitVec 7) (r : BitVec 1)
  /-- COPY (R288). -/
  | copy (h : BitVec 3) (c : BitVec 3) (a : BitVec 5)
  /-- RDWP (R289). -/
  | rdwp (h : BitVec 3) (d : BitVec 7)
  /-- BFENCE (R290). -/
  | bfence (d : BitVec 5)
  /-- BWAIT (R290). -/
  | bwait (a : BitVec 5)
  /-- SHADOW (R291). -/
  | shadow (t : BitVec 3) (f : BitVec 3) (a : BitVec 4)
  /-- PUBLISH (R292). -/
  | publish (k : BitVec 4)
  /-- BAR_INIT (R259). -/
  | barInit (a : BitVec 5) (b : BitVec 5)
  /-- BAR_REG (R259). -/
  | barReg (a : BitVec 5)
  /-- BAR_ARR (R259). -/
  | barArr (d : BitVec 5) (a : BitVec 5)
  /-- BAR_WAIT (R259). -/
  | barWait (a : BitVec 5) (b : BitVec 5)
  /-- BAR_AW (R259). -/
  | barAw (a : BitVec 5)
  /-- BAR_DROP (R259). -/
  | barDrop (a : BitVec 5)
  /-- SQPUT (R260). -/
  | sqput (q : BitVec 2) (a : BitVec 7)
  /-- SQGET (R260). -/
  | sqget (q : BitVec 2) (d : BitVec 7)
  /-- SQPEEK (R260). -/
  | sqpeek (q : BitVec 2) (d : BitVec 7)
  /-- MSEND (R262). -/
  | msend (c : BitVec 1) (a : BitVec 5)
  /-- MPOST (R263). -/
  | mpost (d : BitVec 5) (a : BitVec 5)
  /-- MTEST (R264). -/
  | mtest (t : BitVec 3) (f : BitVec 3) (a : BitVec 7)
  /-- MCANCEL (R264). -/
  | mcancel (a : BitVec 5)
  /-- SPBAR (R265). -/
  | spbar (g : BitVec 6) (b : BitVec 2)
  /-- TNEXT (R334). -/
  | tnext (p : BitVec 3) (d : BitVec 5)
  /-- TDONE (R335). -/
  | tdone (d : BitVec 5) (a : BitVec 5)
  /-- TRD (R336). -/
  | trd (d : BitVec 5) (i : BitVec 14)
  /-- TWR (R336). -/
  | twr (d : BitVec 5) (i : BitVec 14)
  /-- TCOMMIT (R336). -/
  | tcommit
  /-- THAND (R337). -/
  | thand (a : BitVec 5)
  /-- TMAP (R338). -/
  | tmap (d : BitVec 5) (a : BitVec 5)
  /-- MMA (R300). -/
  | mma (d : BitVec 5) (a : BitVec 5) (b : BitVec 5)
  /-- MMAS (R303). -/
  | mmas (d : BitVec 5) (a : BitVec 5) (b : BitVec 5)
  /-- ACLR (R304). -/
  | aclr (s : BitVec 1)
  /-- ACPY (R308). -/
  | acpy (f : BitVec 3) (d : BitVec 5) (a : BitVec 5)
  /-- SCLD (R305). -/
  | scld (a : BitVec 5)
  /-- WBLD (R307). -/
  | wbld (m : BitVec 1) (a : BitVec 5)
  /-- MSTAT (R309). -/
  | mstat (d : BitVec 5) (a : BitVec 5)
  /-- ZGEN (R321). -/
  | zgen (d : BitVec 3) (a : BitVec 7) (k : BitVec 2) (c : BitVec 4)
  /-- ZAND (R322). -/
  | zand (d : BitVec 3) (a : BitVec 3) (b : BitVec 3)
  /-- ZANDC (R322). -/
  | zandc (d : BitVec 3) (a : BitVec 3) (b : BitVec 3)
  /-- ZOR (R322). -/
  | zor (d : BitVec 3) (a : BitVec 3) (b : BitVec 3)
  /-- ZORC (R322). -/
  | zorc (d : BitVec 3) (a : BitVec 3) (b : BitVec 3)
  /-- ZMUX (R322). -/
  | zmux (d : BitVec 3) (a : BitVec 3) (b : BitVec 3)
  /-- ZNOT (R322). -/
  | znot (d : BitVec 3) (a : BitVec 3)
  /-- ZXORC (R322). -/
  | zxorc (d : BitVec 3) (a : BitVec 3) (b : BitVec 3)
  /-- ZCNT (R323). -/
  | zcnt (f : BitVec 1) (d : BitVec 7) (a : BitVec 3)
  /-- ZSUM (R323). -/
  | zsum (n : BitVec 3) (d : BitVec 7) (a : BitVec 3)
  /-- ZREGEN (R324). -/
  | zregen (d : BitVec 3) (a : BitVec 3) (c : BitVec 4)
  /-- ZSEED (R325). -/
  | zseed (a : BitVec 5)
  /-- ZCLASS (R323). -/
  | zclass (d : BitVec 7) (a : BitVec 3)
  /-- SADD (R242). -/
  | sadd (d : BitVec 5) (a : BitVec 5) (b : BitVec 5)
  /-- SSUB (R242). -/
  | ssub (d : BitVec 5) (a : BitVec 5) (b : BitVec 5)
  /-- SMUL (R242). -/
  | smul (d : BitVec 5) (a : BitVec 5) (b : BitVec 5)
  /-- SAND (R242). -/
  | sand (d : BitVec 5) (a : BitVec 5) (b : BitVec 5)
  /-- SOR (R242). -/
  | sor (d : BitVec 5) (a : BitVec 5) (b : BitVec 5)
  /-- SXOR (R242). -/
  | sxor (d : BitVec 5) (a : BitVec 5) (b : BitVec 5)
  /-- SSHL (R242). -/
  | sshl (d : BitVec 5) (a : BitVec 5) (b : BitVec 5)
  /-- SSHR (R242). -/
  | sshr (r : BitVec 1) (d : BitVec 5) (a : BitVec 5) (b : BitVec 5)
  /-- SADDI (R242). -/
  | saddi (d : BitVec 5) (a : BitVec 5) (i : BitVec 7)
  /-- SMOVI (R242). -/
  | smovi (d : BitVec 5) (i : BitVec 14)
  /-- SMOV (R242). -/
  | smov (d : BitVec 5) (b : BitVec 5)
  /-- SCMP (R242). -/
  | scmp (c : BitVec 3) (d : BitVec 5) (a : BitVec 5) (b : BitVec 5)
  /-- SSEL (R242). -/
  | ssel (d : BitVec 5) (a : BitVec 5) (b : BitVec 5)
  /-- SMINMAX (R242). -/
  | sminmax (f : BitVec 2) (d : BitVec 5) (a : BitVec 5) (b : BitVec 5)
  /-- SLD (R243). -/
  | sld (c : BitVec 3) (d : BitVec 5) (a : BitVec 5) (k : BitVec 4) (w : BitVec 3)
  /-- SST (R243). -/
  | sst (c : BitVec 3) (d : BitVec 5) (a : BitVec 5) (k : BitVec 4) (w : BitVec 3)
  /-- SYSCALL (R350). -/
  | syscall (i : BitVec 14)
  /-- TRAP (R350). -/
  | trap (i : BitVec 14)
  /-- RFE (R362). -/
  | rfe
  /-- SVTAKE (R351). -/
  | svtake (d : BitVec 5) (a : BitVec 5)
  /-- SVPOST (R352). -/
  | svpost (a : BitVec 7) (b : BitVec 7)
  /-- CSRR (R360). -/
  | csrr (d : BitVec 7) (i : BitVec 12)
  /-- CSRW (R360). -/
  | csrw (d : BitVec 7) (i : BitVec 12)
  /-- EXTINV (R361). -/
  | extinv (a : BitVec 5)
  /-- WFI (R362). -/
  | wfi
  /-- QPUT (R363). -/
  | qput (c : BitVec 3) (d : BitVec 7) (a : BitVec 7) (k : BitVec 4)
  /-- GSAVE (R356). -/
  | gsave (c : BitVec 3) (d : BitVec 7) (a : BitVec 7) (k : BitVec 4) (t : BitVec 1)
  /-- GREST (R357). -/
  | grest (c : BitVec 3) (d : BitVec 7) (a : BitVec 7) (k : BitVec 4) (t : BitVec 1)
  /-- HLT (R362). -/
  | hlt (i : BitVec 14)
  /-- BRK (R371). -/
  | brk (i : BitVec 14)
  /-- MARK (R371). -/
  | mark (i : BitVec 14)
  /-- CNRD (R371). -/
  | cnrd (d : BitVec 7) (a : BitVec 7)
  /-- WCOORD (R371). -/
  | wcoord (d : BitVec 5)
  /-- POWER_CYCLE (R2). -/
  | powerCycle
  /-- MANAGEMENT_RESET (R400). -/
  | managementReset
  /-- BOOT_IMAGE_CHECK (R398). -/
  | bootImageCheck
  /-- BOOT_SELF_TEST (R398). -/
  | bootSelfTest
  /-- BOOT_FIRMWARE_LOAD (R398). -/
  | bootFirmwareLoad
  /-- BOOT_KERNEL_LOAD (R398). -/
  | bootKernelLoad
  /-- BOOT_PARTITION_START (R398). -/
  | bootPartitionStart
  /-- FREEZE_ASSERT (R379). -/
  | freezeAssert
  /-- FREEZE_RELEASE (R379). -/
  | freezeRelease
  /-- STATUS_QUERY (R400). -/
  | statusQuery
  /-- ATTESTATION_REQUEST (R403). -/
  | attestationRequest
  /-- PARTITION_CREATE (R401). -/
  | partitionCreate
  /-- PARTITION_DESTROY (R401). -/
  | partitionDestroy
  /-- SLICE_LOAD_REQUEST (R64). -/
  | sliceLoadRequest
  /-- GUEST_SLICE_REQUEST (R66). -/
  | guestSliceRequest
  /-- SLICE_STORE (R64). -/
  | sliceStore
  /-- L1_INVALIDATE (R64). -/
  | l1Invalidate
  /-- STORE_ACK (R64). -/
  | storeAck
  /-- LINE_REPLY (R64). -/
  | lineReply
  /-- PORT_WRITE_BACK (R60). -/
  | portWriteBack
  /-- PORT_EXTENT_MISS (R35). -/
  | portExtentMiss
  /-- WALK_COMPLETE (R35). -/
  | walkComplete
  /-- PAGE_FAULT_RESPONSE (R38). -/
  | pageFaultResponse
  /-- SHOOTDOWN_RECEIVE (R36). -/
  | shootdownReceive
  /-- SHOOTDOWN_ACK (R36). -/
  | shootdownAck
  /-- GUEST_EPOCH_STEP_DONE (R67). -/
  | guestEpochStepDone
  /-- ATOMIC_UNIT_REQUEST (R77). -/
  | atomicUnitRequest
  /-- ATOMIC_GRANT_LAPSE (R77). -/
  | atomicGrantLapse
  /-- FLIT_HOP (R75). -/
  | flitHop
  /-- INJECTION_YIELD (R75). -/
  | injectionYield
  /-- CIRCUIT_SETUP (R76). -/
  | circuitSetup
  /-- CIRCUIT_RELEASE (R76). -/
  | circuitRelease
  /-- CIRCUIT_IDLE_TIMEOUT (R76). -/
  | circuitIdleTimeout
  /-- DIE_LINK_CRC_RETRY (R80). -/
  | dieLinkCrcRetry
  /-- REQUEST_RETRY_TIMEOUT (R404). -/
  | requestRetryTimeout
  /-- HBM_ROW_IDLE_CLOSE (R81). -/
  | hbmRowIdleClose
  /-- HBM_REFRESH (R81). -/
  | hbmRefresh
  /-- PATROL_SCRUB (R405). -/
  | patrolScrub
  /-- BACK_INVALIDATE_SNOOP (R45). -/
  | backInvalidateSnoop
  /-- CXL_PORT_DOWN (R45). -/
  | cxlPortDown
  /-- EXTERNAL_WRITE_ARRIVAL (R47). -/
  | externalWriteArrival
  /-- EXTERNAL_WRITE_APPLY (R47). -/
  | externalWriteApply
  /-- REMOTE_ACCESS_REQUEST (R24). -/
  | remoteAccessRequest
  /-- DOORBELL_WRITE (R395). -/
  | doorbellWrite
  /-- STRCFG_ENABLE (R46). -/
  | strcfgEnable
  /-- STRCFG_RESUME (R49). -/
  | strcfgResume
  /-- COPY_START (R96). -/
  | copyStart
  /-- COPY_WRITE_ACK (R97). -/
  | copyWriteAck
  /-- COPY_COMPLETE (R98). -/
  | copyComplete
  /-- COPY_PAGE_FAULT_HOLD (R102). -/
  | copyPageFaultHold
  /-- CHSTAT_ABORT (R101). -/
  | chstatAbort
  /-- CHSTAT_RESUME (R102). -/
  | chstatResume
  /-- DRIVE_COMPLETION (R101). -/
  | driveCompletion
  /-- STORAGE_TIMEOUT (R101). -/
  | storageTimeout
  /-- POOLSPLIT_WRITE (R51). -/
  | poolsplitWrite
  /-- TEAM_ADMISSION (R145). -/
  | teamAdmission
  /-- GROUP_INSTANTIATE (R141). -/
  | groupInstantiate
  /-- GROUP_RETIRE (R142). -/
  | groupRetire
  /-- CREDIT_EVICTION (R146). -/
  | creditEviction
  /-- CREDIT_READMIT (R146). -/
  | creditReadmit
  /-- BUNDLE_PLACEMENT (R392). -/
  | bundlePlacement
  /-- LATER_WAVE_ADMISSION (R392). -/
  | laterWaveAdmission
  /-- PLACEMENT_BLOCK_TIMEOUT (R392). -/
  | placementBlockTimeout
  /-- REGION_COMMIT (R151). -/
  | regionCommit
  /-- MATRIX_OP_COMPLETE (R298). -/
  | matrixOpComplete
  /-- WBLD_PAGE_FAULT_HOLD (R311). -/
  | wbldPageFaultHold
  /-- MSEQ_ABORT (R311). -/
  | mseqAbort
  /-- MSEQ_RESUME (R311). -/
  | mseqResume
  /-- GROUP_END (R251). -/
  | groupEnd
  /-- CANDIDATE_AGING (R156). -/
  | candidateAging
  /-- TRAP_TAKE (R342). -/
  | trapTake
  /-- CORE_STOP (R345). -/
  | coreStop
  /-- USER_INTERRUPT_DELIVERY (R255). -/
  | userInterruptDelivery
  /-- MESSAGE_ARRIVAL (R263). -/
  | messageArrival
  /-- SL_TIMER (R348). -/
  | slTimer
  /-- SL_DEVICE_INTERRUPT (R348). -/
  | slDeviceInterrupt
  /-- SL_INTERRUPT_TAKE (R347). -/
  | slInterruptTake
  /-- SLTCMP_WRITE (R348). -/
  | sltcmpWrite
  /-- REGISTER_WRITE (R360). -/
  | registerWrite
  /-- FIRMWARE_STEP (R389). -/
  | firmwareStep
  /-- NOP_PACKET (R388). -/
  | nopPacket
  /-- PAD_PACKET (R384). -/
  | padPacket
  /-- LAUNCH_PACKET (R390). -/
  | launchPacket
  /-- COPY_PACKET (R388). -/
  | copyPacket
  /-- SIGNAL_PACKET (R388). -/
  | signalPacket
  /-- WAIT_PACKET (R388). -/
  | waitPacket
  /-- WAIT_SATISFIED (R388). -/
  | waitSatisfied
  /-- PUBLISH_PACKET (R388). -/
  | publishPacket
  /-- ABORT_PACKET (R388). -/
  | abortPacket
  /-- TIMESTAMP_PACKET (R388). -/
  | timestampPacket
  /-- WATCHDOG_TIMEOUT (R396). -/
  | watchdogTimeout
  /-- FALLBACK_TURN (R396). -/
  | fallbackTurn
  /-- FIRMWARE_REBOOT_DONE (R396). -/
  | firmwareRebootDone
  /-- TRIGGER_SIGNAL (R393). -/
  | triggerSignal
  /-- BUNDLE_RETIRE (R393). -/
  | bundleRetire
  /-- BUNDLE_ABORT (R144). -/
  | bundleAbort
  /-- FRED_LOG_APPLY (R278). -/
  | fredLogApply
  /-- FREDCTL_ABORT (R278). -/
  | fredctlAbort
  /-- FREDCTL_RESUME (R278). -/
  | fredctlResume
  /-- DEBUG_STOP (R368). -/
  | debugStop
  /-- DBGCTL_HALT (R366). -/
  | dbgctlHalt
  /-- DBGCMD_RESUME (R369). -/
  | dbgcmdResume
  /-- DBGCMD_RUN_TO_LIMIT (R369). -/
  | dbgcmdRunToLimit
  /-- DBGCMD_END_LAUNCH (R366). -/
  | dbgcmdEndLaunch
  /-- TRSIZE_WRITE (R366). -/
  | trsizeWrite
  /-- TRTAIL_WRITE (R374). -/
  | trtailWrite
  /-- PC_SAMPLE (R374). -/
  | pcSample
  /-- ORDER_GATE_TIMEOUT (R377). -/
  | orderGateTimeout
  /-- STALL_CLOCK (R372). -/
  | stallClock
  /-- YIELD_TIMEOUT (R252). -/
  | yieldTimeout
  /-- DEVICE_DMA_READ (R406). -/
  | deviceDmaRead
  /-- EXTERNAL_LINK_DOWN (R379). -/
  | externalLinkDown
  /-- SCAN_CHAIN_SHIFT (R379). -/
  | scanChainShift
deriving DecidableEq, Repr

end Sys2Proof
end

