-- ==== Sys2Proof/WellFormed.lean ====
section
/-!
DEFINITION. Well-formed instructions: what the specification requires of an instruction's own fields, whatever the state. A word
that breaks one of these rules is refused by the decoder (spec/08 R190) or takes the trap that its rule names when it issues.
-/

namespace Sys2Proof

/-- Why a slot word names no instruction (spec/08 R190, R195, spec/16 Table 16-3). -/
inductive DecodeError where
  /-- Opcode 0x00 with another field set (R179, R195). -/
  | opcodeZero
  /-- An opcode that is never assigned, 0xFF (R195). -/
  | neverAssigned
  /-- An opcode that Table 8-1 does not assign. -/
  | unassigned
  /-- A reserved value of fn. -/
  | reservedFn
  /-- A bit that must be 0, or a fixed bit, has another value. -/
  | illegalEncoding
  /-- A reserved scope code beside a field that must be 0 (R109, Table 7-11). -/
  | reservedScope
deriving DecidableEq, Repr

/-- The constructor stands for a slot word: the first two hundred do, the others are steps without an encoding. -/
def Instr.hasWord (i : Instr) : Bool := decide (i.ctorIdx < 200)

/-- The order field of an ordered access is not that of a plain access (R193). -/
def Instr.orderOk : Instr → Bool
  | .ldAcq _ o _ p _ _ _ | .stRel _ o _ p _ _ _ => (o ++ p) != 0#4
  | _ => true

/-- Two predicates of the P format may be equal only when both are p0 (R178). -/
def Instr.predsOk : Instr → Bool
  | .icmp _ t f _ _ | .icmpi _ t f _ _ | .fcmp _ t f _ _ | .plog _ t f _ _ | .vote _ t f _ | .itop t f _ | .ctest t f _ _
  | .pin t f _ _ _ | .shadow t f _ | .mtest t f _ => t != f || t == 0
  | _ => true

/-- fn holds no reserved value that is left to the instruction (spec/10 to spec/15). -/
def Instr.fnOk : Instr → Bool
  | .icmp c .. | .icmpi c .. | .scmp c .. | .acpy c .. => decide (c.toNat ≤ 5)
  | .fcmp c .. | .fence c _ => decide (c.toNat ≤ 3)
  | .plog o .. => o != 3
  | .sh64 f .. | .fsgn f .. | .fred f .. | .cctl f .. => decide (f.toNat ≤ 2)
  | .cvtpk8 _ f .. | .cvtup8 f .. | .qscal f .. | .qdec f .. => f != 3
  | .qenc s f .. => f != 3 && !(f == 2 && s == 1)
  | .setlp f _ => f != 0
  | .cget f .. => f != 7
  | .tnext p _ => p != 0
  | .zsum n .. => n != 7
  | _ => true

/-- A capability destination is not k0 or k1 (R16). -/
def Instr.capOk : Instr → Bool
  | .ldk _ d _ _ | .cnarrow d _ _ | .crights d _ _ => decide (2 ≤ d.toNat)
  | _ => true

/-- The scope is not a reserved one (R109, R193). -/
def Instr.scopeOk : Instr → Bool
  | .ldAcq _ o _ p _ _ _ | .stRel _ o _ p _ _ _ => decide ((o ++ p).toNat ≤ 6)
  | .atom _ _ _ _ s | .atomb _ _ _ _ s | .fatom _ _ _ _ s | .fence _ s | .cctl _ _ _ s => decide (s.toNat ≤ 5)
  | _ => true

/-- The width code is one the access has (R269, R275, R286). -/
def Instr.widthOk : Instr → Bool
  | .ld _ _ _ _ w | .st _ _ _ _ w | .lds _ _ _ w | .sts _ _ _ w => decide (w.toNat ≤ 4)
  | .ldAcq _ _ _ _ _ _ w | .stRel _ _ _ _ _ _ w | .sld _ _ _ _ w | .sst _ _ _ _ w => decide (w.toNat ≤ 3)
  | .ared _ _ _ _ w => w == 2 || w == 3
  | .pref _ _ w => decide (w.toNat ≤ 1)
  | _ => true

/-- An instruction with a word, all of whose fields have values that the specification defines. -/
def Instr.wf (i : Instr) : Bool := i.hasWord && i.orderOk && i.predsOk && i.fnOk && i.capOk && i.scopeOk && i.widthOk

end Sys2Proof
end

