-- ==== Sys2Proof/Decode.lean ====
section
/-!
DEFINITION. The decoder and, after it, the encoder, both written from the encoding tables of spec/08 (Table 8-1) and
the formats of spec/07 R178. The decoder is total: a word that names no instruction is refused by name.
-/

namespace Sys2Proof

/-- Bits `[lo + len - 1 : lo]` of a slot word or of one of its fields. -/
abbrev bits {n : Nat} (x : BitVec n) (lo len : Nat) : BitVec len := x.extractLsb' lo len

/-- A slot word from its five fields: op [31:24], fn [23:21], d [20:14], a [13:7], b [6:0] (R178). -/
def slotWord (op : BitVec 8) (fn : BitVec 3) (d a b : BitVec 7) : Word := op ++ fn ++ d ++ a ++ b

/-- Opcodes 0x00 to 0x0F (Table 8-1); `lo` is the low half of the opcode. -/
def decodeRow0 (lo : Nat) (fn : BitVec 3) (d a b : BitVec 7) : Except DecodeError Instr :=
  match lo with
  | 0 => if fn = 0#3 ∧ d = 0#7 ∧ a = 0#7 ∧ b = 0#7 then .ok .nop else .error .opcodeZero
  | 1 => if ¬ (fn = 0#3) then .error .reservedFn else .ok (.add d a b)
  | 2 => if ¬ (fn = 0#3) then .error .reservedFn else .ok (.sub d a b)
  | 3 => if ¬ (fn = 0#3) then .error .reservedFn else .ok (.addi d a b)
  | 4 => if ¬ (fn = 0#3) then .error .reservedFn else .ok (.mul d a b)
  | 5 => if ¬ ((bits fn 1 2) = 0#2) then .error .reservedFn else .ok (.mulhi (bits fn 0 1) d a b)
  | 6 => if ¬ (fn = 0#3) then .error .reservedFn else .ok (.mad d a b)
  | 7 => if ¬ ((bits fn 1 2) = 0#2) then .error .reservedFn else .ok (.min (bits fn 0 1) d a b)
  | 8 => if ¬ ((bits fn 1 2) = 0#2) then .error .reservedFn else .ok (.max (bits fn 0 1) d a b)
  | 9 => if ¬ (fn = 0#3) then .error .reservedFn else if ¬ (b = 0#7) then .error .illegalEncoding else .ok (.abs d a)
  | 10 => if ¬ ((bits fn 1 2) = 0#2) then .error .reservedFn else .ok (.absdiff (bits fn 0 1) d a b)
  | 11 => if ¬ (fn = 0#3) then .error .reservedFn else .ok (.and d a b)
  | 12 => if ¬ (fn = 0#3) then .error .reservedFn else .ok (.or d a b)
  | 13 => if ¬ (fn = 0#3) then .error .reservedFn else .ok (.xor d a b)
  | 14 => if ¬ (fn = 0#3) then .error .reservedFn else .ok (.andn d a b)
  | 15 => if ¬ (fn = 0#3) then .error .reservedFn else .ok (.shl d a b)
  | _ => .error .unassigned

/-- Opcodes 0x10 to 0x1F (Table 8-1); `lo` is the low half of the opcode. -/
def decodeRow1 (lo : Nat) (fn : BitVec 3) (d a b : BitVec 7) : Except DecodeError Instr :=
  match lo with
  | 0 => if ¬ (fn = 0#3) then .error .reservedFn else .ok (.shr d a b)
  | 1 => if ¬ (fn = 0#3) then .error .reservedFn else .ok (.sar d a b)
  | 2 => if ¬ (fn = 0#3) then .error .reservedFn else .ok (.rol d a b)
  | 3 => if ¬ ((bits fn 2 1) = 0#1) then .error .reservedFn else .ok (.shi (bits fn 0 2) d a b)
  | 4 => if ¬ (fn = 0#3) then .error .reservedFn else if ¬ (b = 0#7) then .error .illegalEncoding else .ok (.clz d a)
  | 5 => if ¬ (fn = 0#3) then .error .reservedFn else if ¬ (b = 0#7) then .error .illegalEncoding else .ok (.popc d a)
  | 6 => if ¬ (fn = 0#3) then .error .reservedFn else if ¬ (b = 0#7) then .error .illegalEncoding else .ok (.brev d a)
  | 7 => if ¬ ((bits fn 1 2) = 0#2) then .error .reservedFn else .ok (.bfx (bits fn 0 1) d a b)
  | 8 => if ¬ (fn = 0#3) then .error .reservedFn else .ok (.bfi d a b)
  | 9 => .ok (.sel fn d a b)
  | 10 => .ok (.lea fn d a b)
  | 11 => if ¬ (fn = 0#3) then .error .reservedFn else .ok (.add64 d a b)
  | 12 => if ¬ (fn = 0#3) then .error .reservedFn else .ok (.sub64 d a b)
  | 13 => .ok (.sh64 fn d a b)
  | 14 => if ¬ (fn = 0#3) then .error .reservedFn else if ¬ (a = 0#7) then .error .illegalEncoding else .ok (.mov d b)
  | 15 => if ¬ (fn = 0#3) then .error .reservedFn else .ok (.movi d (a ++ b))
  | _ => .error .unassigned

/-- Opcodes 0x20 to 0x2F (Table 8-1); `lo` is the low half of the opcode. -/
def decodeRow2 (lo : Nat) (fn : BitVec 3) (d a b : BitVec 7) : Except DecodeError Instr :=
  match lo with
  | 0 => .ok (.fadd (bits fn 2 1) (bits fn 0 2) d a b)
  | 1 => .ok (.fmul (bits fn 2 1) (bits fn 0 2) d a b)
  | 2 => .ok (.fma (bits fn 2 1) (bits fn 0 2) d a b)
  | 3 => if ¬ (fn = 0#3) then .error .reservedFn else .ok (.fmin d a b)
  | 4 => if ¬ (fn = 0#3) then .error .reservedFn else .ok (.fmax d a b)
  | 5 => .ok (.fsgn fn d a b)
  | 6 => if ¬ ((bits fn 2 1) = 0#1) then .error .reservedFn else if ¬ (b = 0#7) then .error .illegalEncoding else .ok (.frnd (bits fn 0 2) d a)
  | 7 => if ¬ (fn = 0#3) then .error .reservedFn else if ¬ (b = 0#7) then .error .illegalEncoding else .ok (.fclass d a)
  | 8 => if ¬ (fn = 0#3) then .error .reservedFn else .ok (.fdiv d a b)
  | 9 => if ¬ (fn = 0#3) then .error .reservedFn else if ¬ (b = 0#7) then .error .illegalEncoding else .ok (.fsqrt d a)
  | 10 => if ¬ (fn = 0#3) then .error .reservedFn else if ¬ (b = 0#7) then .error .illegalEncoding else .ok (.frcp d a)
  | 11 => if ¬ (fn = 0#3) then .error .reservedFn else if ¬ (b = 0#7) then .error .illegalEncoding else .ok (.frsq d a)
  | 12 => if ¬ (fn = 0#3) then .error .reservedFn else if ¬ (b = 0#7) then .error .illegalEncoding else .ok (.fex2 d a)
  | 13 => if ¬ (fn = 0#3) then .error .reservedFn else if ¬ (b = 0#7) then .error .illegalEncoding else .ok (.flg2 d a)
  | 14 => if ¬ (fn = 0#3) then .error .reservedFn else if ¬ (b = 0#7) then .error .illegalEncoding else .ok (.fsinpi d a)
  | 15 => if ¬ (fn = 0#3) then .error .reservedFn else if ¬ (b = 0#7) then .error .illegalEncoding else .ok (.fcospi d a)
  | _ => .error .unassigned

/-- Opcodes 0x30 to 0x3F (Table 8-1); `lo` is the low half of the opcode. -/
def decodeRow3 (lo : Nat) (fn : BitVec 3) (d a b : BitVec 7) : Except DecodeError Instr :=
  match lo with
  | 0 => if ¬ ((bits fn 1 2) = 0#2) then .error .reservedFn else .ok (.hadd2 (bits fn 0 1) d a b)
  | 1 => if ¬ ((bits fn 1 2) = 0#2) then .error .reservedFn else .ok (.hmul2 (bits fn 0 1) d a b)
  | 2 => if ¬ ((bits fn 1 2) = 0#2) then .error .reservedFn else .ok (.hfma2 (bits fn 0 1) d a b)
  | 3 => if ¬ ((bits fn 1 2) = 0#2) then .error .reservedFn else .ok (.hmin2 (bits fn 0 1) d a b)
  | 4 => if ¬ ((bits fn 1 2) = 0#2) then .error .reservedFn else .ok (.hmax2 (bits fn 0 1) d a b)
  | 5 => if ¬ (b = 0#7) then .error .illegalEncoding else .ok (.cvti2f (bits fn 1 2) (bits fn 0 1) d a)
  | 6 => if ¬ (b = 0#7) then .error .illegalEncoding else .ok (.cvtf2i (bits fn 1 2) (bits fn 0 1) d a)
  | 7 => if ¬ ((bits fn 1 2) = 0#2) then .error .reservedFn else .ok (.cvtpk16 (bits fn 0 1) d a b)
  | 8 => if ¬ ((bits fn 2 1) = 0#1) then .error .reservedFn else if ¬ (b = 0#7) then .error .illegalEncoding else .ok (.cvtup16 (bits fn 1 1) (bits fn 0 1) d a)
  | 9 => .ok (.cvtpk8 (bits fn 2 1) (bits fn 0 2) d a b)
  | 10 => if ¬ ((bits fn 2 1) = 0#1) then .error .reservedFn else if ¬ (b = 0#7) then .error .illegalEncoding else .ok (.cvtup8 (bits fn 0 2) d a)
  | 11 => if ¬ ((bits fn 2 1) = 0#1) then .error .reservedFn else .ok (.qscal (bits fn 0 2) d a b)
  | 12 => .ok (.qenc (bits fn 2 1) (bits fn 0 2) d a b)
  | 13 => if ¬ ((bits fn 2 1) = 0#1) then .error .reservedFn else .ok (.qdec (bits fn 0 2) d a b)
  | 14 => if ¬ (fn = 0#3) then .error .reservedFn else .ok (.fclamp d a b)
  | _ => .error .unassigned

/-- Opcodes 0x40 to 0x4F (Table 8-1); `lo` is the low half of the opcode. -/
def decodeRow4 (lo : Nat) (fn : BitVec 3) (d a b : BitVec 7) : Except DecodeError Instr :=
  match lo with
  | 0 => if ¬ ((bits d 6 1) = 0#1) then .error .illegalEncoding else .ok (.icmp fn (bits d 3 3) (bits d 0 3) a b)
  | 1 => if ¬ ((bits d 6 1) = 0#1) then .error .illegalEncoding else .ok (.icmpi fn (bits d 3 3) (bits d 0 3) a b)
  | 2 => if ¬ ((bits d 6 1) = 0#1) then .error .illegalEncoding else .ok (.fcmp fn (bits d 3 3) (bits d 0 3) a b)
  | 3 => if ¬ ((bits fn 2 1) = 0#1) then .error .reservedFn else if ¬ ((bits d 6 1) = 0#1) then .error .illegalEncoding else if ¬ ((bits a 3 4) = 0#4) then .error .illegalEncoding else if ¬ ((bits b 3 4) = 0#4) then .error .illegalEncoding else .ok (.plog (bits fn 0 2) (bits d 3 3) (bits d 0 3) (bits a 0 3) (bits b 0 3))
  | 4 => if ¬ ((bits fn 2 1) = 0#1) then .error .reservedFn else if ¬ ((bits d 6 1) = 0#1) then .error .illegalEncoding else if ¬ ((bits a 3 4) = 0#4) then .error .illegalEncoding else if ¬ (b = 0#7) then .error .illegalEncoding else .ok (.vote (bits fn 0 2) (bits d 3 3) (bits d 0 3) (bits a 0 3))
  | 5 => if ¬ (fn = 0#3) then .error .reservedFn else if ¬ ((bits a 3 4) = 0#4) then .error .illegalEncoding else if ¬ (b = 0#7) then .error .illegalEncoding else .ok (.ballot d (bits a 0 3))
  | 6 => if ¬ (fn = 0#3) then .error .reservedFn else if ¬ ((bits a 3 4) = 0#4) then .error .illegalEncoding else if ¬ (b = 0#7) then .error .illegalEncoding else .ok (.ptoi d (bits a 0 3))
  | 7 => if ¬ (fn = 0#3) then .error .reservedFn else if ¬ ((bits d 6 1) = 0#1) then .error .illegalEncoding else if ¬ (b = 0#7) then .error .illegalEncoding else .ok (.itop (bits d 3 3) (bits d 0 3) a)
  | 8 => if ¬ (fn = 0#3) then .error .reservedFn else if ¬ (b = 0#7) then .error .illegalEncoding else .ok (.matchAny d a)
  | _ => .error .unassigned

/-- Opcodes 0x50 to 0x5F (Table 8-1); `lo` is the low half of the opcode. -/
def decodeRow5 (lo : Nat) (fn : BitVec 3) (d a b : BitVec 7) : Except DecodeError Instr :=
  match lo with
  | 0 => if ¬ (fn = 0#3) then .error .reservedFn else .ok (.perm d a b)
  | 1 => if ¬ ((bits fn 2 1) = 0#1) then .error .reservedFn else if ¬ (d = 0#7) then .error .illegalEncoding else if ¬ ((bits a 1 6) = 0#6) then .error .illegalEncoding else .ok (.setlp (bits fn 0 2) ((bits a 0 1) ++ b))
  | 2 => if ¬ (b = 0#7) then .error .illegalEncoding else .ok (.redux fn d a)
  | 3 => if ¬ (fn = 0#3) then .error .reservedFn else if ¬ ((bits d 5 2) = 0#2) then .error .illegalEncoding else .ok (.vget (bits d 0 5) a b)
  | 4 => if ¬ (fn = 0#3) then .error .reservedFn else if ¬ ((bits a 5 2) = 0#2) then .error .illegalEncoding else if ¬ (b = 0#7) then .error .illegalEncoding else .ok (.vbcast d (bits a 0 5))
  | 5 => if ¬ (fn = 0#3) then .error .reservedFn else if ¬ ((bits a 1 6) = 0#6) then .error .illegalEncoding else .ok (.rds d ((bits a 0 1) ++ b))
  | 6 => if ¬ (fn = 0#3) then .error .reservedFn else if ¬ (d = 0#7) then .error .illegalEncoding else .ok (.wbase (a ++ b))
  | 7 => if ¬ (fn = 0#3) then .error .reservedFn else if ¬ (d = 0#7) then .error .illegalEncoding else if ¬ ((bits b 0 1) = 0#1) then .error .illegalEncoding else .ok (.dcw (a ++ (bits b 1 6)))
  | 8 => if ¬ (b = 0#7) then .error .illegalEncoding else .ok (.scan fn d a)
  | _ => .error .unassigned

/-- Opcodes 0x60 to 0x6F (Table 8-1); `lo` is the low half of the opcode. A call whose hint is not 0b00 is an illegal encoding, as one with the
wrong link bit is (DEDUCED, entry 53). -/
def decodeRow6 (lo : Nat) (fn : BitVec 3) (d a b : BitVec 7) : Except DecodeError Instr :=
  match lo with
  | 0 => if ¬ ((bits fn 0 1) = 0#1) then .error .illegalEncoding else .ok (.br (bits fn 1 2) (d ++ a ++ (bits b 2 5)) (bits b 0 2))
  | 1 => if ¬ ((bits fn 2 1) = 0#1) then .error .reservedFn else if ¬ (d = 0#7) then .error .illegalEncoding else if ¬ (b = 0#7) then .error .illegalEncoding else .ok (.brx (bits fn 0 2) a)
  | 2 => if ¬ (fn = 1#3) then .error .illegalEncoding else .ok (.call (d ++ a ++ (bits b 2 5)) (bits b 0 2))
  | 3 => if ¬ (fn = 0#3) then .error .reservedFn else if ¬ (d = 0#7) then .error .illegalEncoding else if ¬ (a = 0#7) then .error .illegalEncoding else if ¬ (b = 0#7) then .error .illegalEncoding else .ok .ret
  | 4 => if ¬ (fn = 0#3) then .error .reservedFn else if ¬ (d = 0#7) then .error .illegalEncoding else if ¬ (a = 0#7) then .error .illegalEncoding else if ¬ (b = 0#7) then .error .illegalEncoding else .ok .join
  | 5 => if ¬ (fn = 0#3) then .error .reservedFn else if ¬ (d = 0#7) then .error .illegalEncoding else if ¬ (a = 0#7) then .error .illegalEncoding else if ¬ (b = 0#7) then .error .illegalEncoding else .ok .regang
  | 6 => if ¬ (fn = 0#3) then .error .reservedFn else if ¬ (d = 0#7) then .error .illegalEncoding else if ¬ (a = 0#7) then .error .illegalEncoding else if ¬ (b = 0#7) then .error .illegalEncoding else .ok .exit
  | 7 => if ¬ (fn = 0#3) then .error .reservedFn else if ¬ (d = 0#7) then .error .illegalEncoding else if ¬ (a = 0#7) then .error .illegalEncoding else if ¬ (b = 0#7) then .error .illegalEncoding else .ok .yield
  | 8 => if ¬ (fn = 0#3) then .error .reservedFn else if ¬ (d = 0#7) then .error .illegalEncoding else if ¬ (a = 0#7) then .error .illegalEncoding else if ¬ (b = 0#7) then .error .illegalEncoding else .ok .region
  | 9 => if ¬ (fn = 0#3) then .error .reservedFn else if ¬ (d = 0#7) then .error .illegalEncoding else if ¬ (a = 0#7) then .error .illegalEncoding else if ¬ (b = 0#7) then .error .illegalEncoding else .ok .trigger
  | 10 => if ¬ (fn = 0#3) then .error .reservedFn else if ¬ ((bits d 5 2) = 0#2) then .error .illegalEncoding else if ¬ ((bits a 5 2) = 0#2) then .error .illegalEncoding else if ¬ ((bits b 5 2) = 0#2) then .error .illegalEncoding else .ok (.usig (bits d 0 5) (bits a 0 5) (bits b 0 5))
  | 11 => if ¬ (fn = 0#3) then .error .reservedFn else if ¬ (d = 0#7) then .error .illegalEncoding else if ¬ (a = 0#7) then .error .illegalEncoding else .ok (.uhnd b)
  | 12 => if ¬ (fn = 0#3) then .error .reservedFn else if ¬ (d = 0#7) then .error .illegalEncoding else if ¬ (a = 0#7) then .error .illegalEncoding else if ¬ (b = 0#7) then .error .illegalEncoding else .ok .uret
  | _ => .error .unassigned

/-- Opcodes 0x70 to 0x7F (Table 8-1); `lo` is the low half of the opcode. -/
def decodeRow7 (lo : Nat) (fn : BitVec 3) (d a b : BitVec 7) : Except DecodeError Instr :=
  match lo with
  | 0 => if bits d 5 2 = 0#2 ∧ bits a 5 2 = 0#2 then .ok (.ld fn (bits d 0 5) (bits a 0 5) (bits b 3 4) (bits b 0 3)) else .ok (.ldAcq fn (bits d 5 2) (bits d 0 5) (bits a 5 2) (bits a 0 5) (bits b 3 4) (bits b 0 3))
  | 1 => if bits d 5 2 = 0#2 ∧ bits a 5 2 = 0#2 then .ok (.st fn (bits d 0 5) (bits a 0 5) (bits b 3 4) (bits b 0 3)) else .ok (.stRel fn (bits d 5 2) (bits d 0 5) (bits a 5 2) (bits a 0 5) (bits b 3 4) (bits b 0 3))
  | 2 => if ¬ ((bits d 4 3) = 0#3) then .error .illegalEncoding else if ¬ ((bits a 5 2) = 0#2) then .error .illegalEncoding else if ¬ ((bits b 0 3) = 4#3) then .error .illegalEncoding else .ok (.ldk fn (bits d 0 4) (bits a 0 5) (bits b 3 4))
  | 3 => if ¬ ((bits d 4 3) = 0#3) then .error .illegalEncoding else if ¬ ((bits a 5 2) = 0#2) then .error .illegalEncoding else if ¬ ((bits b 0 3) = 4#3) then .error .illegalEncoding else .ok (.stk fn (bits d 0 4) (bits a 0 5) (bits b 3 4))
  | 4 => if ¬ (fn = 0#3) then .error .reservedFn else if ¬ ((bits d 4 3) = 0#3) then .error .illegalEncoding else if ¬ ((bits a 4 3) = 0#3) then .error .illegalEncoding else if ¬ ((bits b 5 2) = 0#2) then .error .illegalEncoding else .ok (.cnarrow (bits d 0 4) (bits a 0 4) (bits b 0 5))
  | 5 => if ¬ (fn = 0#3) then .error .reservedFn else if ¬ ((bits d 4 3) = 0#3) then .error .illegalEncoding else if ¬ ((bits a 4 3) = 0#3) then .error .illegalEncoding else if ¬ ((bits b 5 2) = 0#2) then .error .illegalEncoding else .ok (.crights (bits d 0 4) (bits a 0 4) (bits b 0 5))
  | 6 => if ¬ ((bits a 4 3) = 0#3) then .error .illegalEncoding else if ¬ (b = 0#7) then .error .illegalEncoding else .ok (.cget fn d (bits a 0 4))
  | 7 => if ¬ (fn = 0#3) then .error .reservedFn else if ¬ ((bits d 6 1) = 0#1) then .error .illegalEncoding else if ¬ ((bits a 4 3) = 0#3) then .error .illegalEncoding else .ok (.ctest (bits d 3 3) (bits d 0 3) (bits a 0 4) b)
  | 8 => if ¬ ((bits d 5 2) = 0#2) then .error .illegalEncoding else if ¬ ((bits a 5 2) = 0#2) then .error .illegalEncoding else .ok (.atom fn (bits d 0 5) (bits a 0 5) (bits b 3 4) (bits b 0 3))
  | 9 => if ¬ ((bits d 5 2) = 0#2) then .error .illegalEncoding else if ¬ ((bits a 5 2) = 0#2) then .error .illegalEncoding else .ok (.atomb fn (bits d 0 5) (bits a 0 5) (bits b 3 4) (bits b 0 3))
  | 10 => if ¬ ((bits d 5 2) = 0#2) then .error .illegalEncoding else if ¬ ((bits a 5 2) = 0#2) then .error .illegalEncoding else .ok (.ared fn (bits d 0 5) (bits a 0 5) (bits b 3 4) (bits b 0 3))
  | 11 => if ¬ ((bits d 5 2) = 0#2) then .error .illegalEncoding else if ¬ ((bits a 5 2) = 0#2) then .error .illegalEncoding else .ok (.fatom fn (bits d 0 5) (bits a 0 5) (bits b 3 4) (bits b 0 3))
  | 12 => if ¬ ((bits d 5 2) = 0#2) then .error .illegalEncoding else if ¬ ((bits a 5 2) = 0#2) then .error .illegalEncoding else if ¬ ((bits b 0 3) = 2#3) then .error .illegalEncoding else .ok (.fred fn (bits d 0 5) (bits a 0 5) (bits b 3 4))
  | 13 => if ¬ (d = 0#7) then .error .illegalEncoding else if ¬ (a = 0#7) then .error .illegalEncoding else if ¬ ((bits b 3 4) = 0#4) then .error .illegalEncoding else .ok (.fence fn (bits b 0 3))
  | 14 => if ¬ (fn = 0#3) then .error .reservedFn else if ¬ (d = 0#7) then .error .illegalEncoding else if ¬ ((bits a 5 2) = 0#2) then .error .illegalEncoding else .ok (.pref (bits a 0 5) (bits b 3 4) (bits b 0 3))
  | 15 => if ¬ (d = 0#7) then .error .illegalEncoding else if ¬ ((bits a 5 2) = 0#2) then .error .illegalEncoding else if ¬ ((bits b 0 3) = 0#3) then .error .illegalEncoding else .ok (.zfill fn (bits a 0 5) (bits b 3 4))
  | _ => .error .unassigned

/-- Opcodes 0x80 to 0x8F (Table 8-1); `lo` is the low half of the opcode. -/
def decodeRow8 (lo : Nat) (fn : BitVec 3) (d a b : BitVec 7) : Except DecodeError Instr :=
  match lo with
  | 0 => if ¬ (fn = 0#3) then .error .reservedFn else if ¬ ((bits d 6 1) = 0#1) then .error .illegalEncoding else if ¬ ((bits b 5 2) = 0#2) then .error .illegalEncoding else .ok (.pin (bits d 3 3) (bits d 0 3) a (bits b 4 1) (bits b 0 4))
  | 1 => if ¬ (d = 0#7) then .error .illegalEncoding else if ¬ ((bits a 5 2) = 0#2) then .error .illegalEncoding else if ¬ ((bits b 0 3) = 0#3) then .error .illegalEncoding else .ok (.unpin fn (bits a 0 5) (bits b 3 4))
  | 2 => if ¬ (d = 0#7) then .error .illegalEncoding else if ¬ ((bits a 5 2) = 0#2) then .error .illegalEncoding else .ok (.cctl fn (bits a 0 5) (bits b 3 4) (bits b 0 3))
  | 3 => if ¬ ((bits d 5 2) = 0#2) then .error .illegalEncoding else if ¬ ((bits a 5 2) = 0#2) then .error .illegalEncoding else if ¬ ((bits b 3 4) = 0#4) then .error .illegalEncoding else .ok (.lds fn (bits d 0 5) (bits a 0 5) (bits b 0 3))
  | 4 => if ¬ ((bits d 5 2) = 0#2) then .error .illegalEncoding else if ¬ ((bits a 5 2) = 0#2) then .error .illegalEncoding else if ¬ ((bits b 3 4) = 0#4) then .error .illegalEncoding else .ok (.sts fn (bits d 0 5) (bits a 0 5) (bits b 0 3))
  | 5 => if ¬ (d = 0#7) then .error .illegalEncoding else if ¬ ((bits a 5 2) = 0#2) then .error .illegalEncoding else if ¬ (b = 0#7) then .error .illegalEncoding else .ok (.stdef fn (bits a 0 5))
  | 6 => if ¬ (d = 0#7) then .error .illegalEncoding else if ¬ (a = 0#7) then .error .illegalEncoding else if ¬ ((bits b 3 4) = 0#4) then .error .illegalEncoding else .ok (.stbind fn (bits b 2 1) (bits b 0 2))
  | 7 => if ¬ (a = 0#7) then .error .illegalEncoding else if ¬ ((bits b 1 6) = 0#6) then .error .illegalEncoding else .ok (.stpos fn d (bits b 0 1))
  | 8 => if ¬ ((bits d 3 4) = 0#4) then .error .illegalEncoding else if ¬ ((bits a 5 2) = 0#2) then .error .illegalEncoding else if ¬ (b = 0#7) then .error .illegalEncoding else .ok (.copy fn (bits d 0 3) (bits a 0 5))
  | 9 => if ¬ (a = 0#7) then .error .illegalEncoding else if ¬ (b = 0#7) then .error .illegalEncoding else .ok (.rdwp fn d)
  | 10 => if ¬ (fn = 0#3) then .error .reservedFn else if ¬ ((bits d 5 2) = 0#2) then .error .illegalEncoding else if ¬ (a = 0#7) then .error .illegalEncoding else if ¬ (b = 0#7) then .error .illegalEncoding else .ok (.bfence (bits d 0 5))
  | 11 => if ¬ (fn = 0#3) then .error .reservedFn else if ¬ (d = 0#7) then .error .illegalEncoding else if ¬ ((bits a 5 2) = 0#2) then .error .illegalEncoding else if ¬ (b = 0#7) then .error .illegalEncoding else .ok (.bwait (bits a 0 5))
  | 12 => if ¬ (fn = 0#3) then .error .reservedFn else if ¬ ((bits d 6 1) = 0#1) then .error .illegalEncoding else if ¬ ((bits a 4 3) = 0#3) then .error .illegalEncoding else if ¬ (b = 0#7) then .error .illegalEncoding else .ok (.shadow (bits d 3 3) (bits d 0 3) (bits a 0 4))
  | 13 => if ¬ (fn = 0#3) then .error .reservedFn else if ¬ (d = 0#7) then .error .illegalEncoding else if ¬ (a = 0#7) then .error .illegalEncoding else if ¬ ((bits b 0 3) = 0#3) then .error .illegalEncoding else .ok (.publish (bits b 3 4))
  | _ => .error .unassigned

/-- Opcodes 0x90 to 0x9F (Table 8-1); `lo` is the low half of the opcode. -/
def decodeRow9 (lo : Nat) (fn : BitVec 3) (d a b : BitVec 7) : Except DecodeError Instr :=
  match lo with
  | 0 => if ¬ (fn = 0#3) then .error .reservedFn else if ¬ (d = 0#7) then .error .illegalEncoding else if ¬ ((bits a 5 2) = 0#2) then .error .illegalEncoding else if ¬ ((bits b 5 2) = 0#2) then .error .illegalEncoding else .ok (.barInit (bits a 0 5) (bits b 0 5))
  | 1 => if ¬ (fn = 0#3) then .error .reservedFn else if ¬ (d = 0#7) then .error .illegalEncoding else if ¬ ((bits a 5 2) = 0#2) then .error .illegalEncoding else if ¬ (b = 0#7) then .error .illegalEncoding else .ok (.barReg (bits a 0 5))
  | 2 => if ¬ (fn = 0#3) then .error .reservedFn else if ¬ ((bits d 5 2) = 0#2) then .error .illegalEncoding else if ¬ ((bits a 5 2) = 0#2) then .error .illegalEncoding else if ¬ (b = 0#7) then .error .illegalEncoding else .ok (.barArr (bits d 0 5) (bits a 0 5))
  | 3 => if ¬ (fn = 0#3) then .error .reservedFn else if ¬ (d = 0#7) then .error .illegalEncoding else if ¬ ((bits a 5 2) = 0#2) then .error .illegalEncoding else if ¬ ((bits b 5 2) = 0#2) then .error .illegalEncoding else .ok (.barWait (bits a 0 5) (bits b 0 5))
  | 4 => if ¬ (fn = 0#3) then .error .reservedFn else if ¬ (d = 0#7) then .error .illegalEncoding else if ¬ ((bits a 5 2) = 0#2) then .error .illegalEncoding else if ¬ (b = 0#7) then .error .illegalEncoding else .ok (.barAw (bits a 0 5))
  | 5 => if ¬ (fn = 0#3) then .error .reservedFn else if ¬ (d = 0#7) then .error .illegalEncoding else if ¬ ((bits a 5 2) = 0#2) then .error .illegalEncoding else if ¬ (b = 0#7) then .error .illegalEncoding else .ok (.barDrop (bits a 0 5))
  | 6 => if ¬ ((bits fn 2 1) = 0#1) then .error .reservedFn else if ¬ (d = 0#7) then .error .illegalEncoding else if ¬ (b = 0#7) then .error .illegalEncoding else .ok (.sqput (bits fn 0 2) a)
  | 7 => if ¬ ((bits fn 2 1) = 0#1) then .error .reservedFn else if ¬ (a = 0#7) then .error .illegalEncoding else if ¬ (b = 0#7) then .error .illegalEncoding else .ok (.sqget (bits fn 0 2) d)
  | 8 => if ¬ ((bits fn 2 1) = 0#1) then .error .reservedFn else if ¬ (a = 0#7) then .error .illegalEncoding else if ¬ (b = 0#7) then .error .illegalEncoding else .ok (.sqpeek (bits fn 0 2) d)
  | 9 => if ¬ ((bits fn 1 2) = 0#2) then .error .reservedFn else if ¬ (d = 0#7) then .error .illegalEncoding else if ¬ ((bits a 5 2) = 0#2) then .error .illegalEncoding else if ¬ (b = 0#7) then .error .illegalEncoding else .ok (.msend (bits fn 0 1) (bits a 0 5))
  | 10 => if ¬ (fn = 0#3) then .error .reservedFn else if ¬ ((bits d 5 2) = 0#2) then .error .illegalEncoding else if ¬ ((bits a 5 2) = 0#2) then .error .illegalEncoding else if ¬ (b = 0#7) then .error .illegalEncoding else .ok (.mpost (bits d 0 5) (bits a 0 5))
  | 11 => if ¬ (fn = 0#3) then .error .reservedFn else if ¬ ((bits d 6 1) = 0#1) then .error .illegalEncoding else if ¬ (b = 0#7) then .error .illegalEncoding else .ok (.mtest (bits d 3 3) (bits d 0 3) a)
  | 12 => if ¬ (fn = 0#3) then .error .reservedFn else if ¬ (d = 0#7) then .error .illegalEncoding else if ¬ ((bits a 5 2) = 0#2) then .error .illegalEncoding else if ¬ (b = 0#7) then .error .illegalEncoding else .ok (.mcancel (bits a 0 5))
  | 13 => if ¬ (fn = 0#3) then .error .reservedFn else if ¬ (d = 0#7) then .error .illegalEncoding else if ¬ ((bits a 3 4) = 0#4) then .error .illegalEncoding else if ¬ ((bits b 2 2) = 0#2) then .error .illegalEncoding else .ok (.spbar ((bits a 0 3) ++ (bits b 4 3)) (bits b 0 2))
  | _ => .error .unassigned

/-- Opcodes 0xA0 to 0xAF (Table 8-1); `lo` is the low half of the opcode. -/
def decodeRowA (lo : Nat) (fn : BitVec 3) (d a b : BitVec 7) : Except DecodeError Instr :=
  match lo with
  | 0 => if ¬ ((bits d 5 2) = 0#2) then .error .illegalEncoding else if ¬ (a = 0#7) then .error .illegalEncoding else if ¬ (b = 0#7) then .error .illegalEncoding else .ok (.tnext fn (bits d 0 5))
  | 1 => if ¬ (fn = 0#3) then .error .reservedFn else if ¬ ((bits d 5 2) = 0#2) then .error .illegalEncoding else if ¬ ((bits a 5 2) = 0#2) then .error .illegalEncoding else if ¬ (b = 0#7) then .error .illegalEncoding else .ok (.tdone (bits d 0 5) (bits a 0 5))
  | 2 => if ¬ (fn = 0#3) then .error .reservedFn else if ¬ ((bits d 5 2) = 0#2) then .error .illegalEncoding else .ok (.trd (bits d 0 5) (a ++ b))
  | 3 => if ¬ (fn = 0#3) then .error .reservedFn else if ¬ ((bits d 5 2) = 0#2) then .error .illegalEncoding else .ok (.twr (bits d 0 5) (a ++ b))
  | 4 => if ¬ (fn = 0#3) then .error .reservedFn else if ¬ (d = 0#7) then .error .illegalEncoding else if ¬ (a = 0#7) then .error .illegalEncoding else if ¬ (b = 0#7) then .error .illegalEncoding else .ok .tcommit
  | 5 => if ¬ (fn = 0#3) then .error .reservedFn else if ¬ (d = 0#7) then .error .illegalEncoding else if ¬ ((bits a 5 2) = 0#2) then .error .illegalEncoding else if ¬ (b = 0#7) then .error .illegalEncoding else .ok (.thand (bits a 0 5))
  | 6 => if ¬ (fn = 0#3) then .error .reservedFn else if ¬ ((bits d 5 2) = 0#2) then .error .illegalEncoding else if ¬ ((bits a 5 2) = 0#2) then .error .illegalEncoding else if ¬ (b = 0#7) then .error .illegalEncoding else .ok (.tmap (bits d 0 5) (bits a 0 5))
  | _ => .error .unassigned

/-- Opcodes 0xB0 to 0xBF (Table 8-1); `lo` is the low half of the opcode. -/
def decodeRowB (lo : Nat) (fn : BitVec 3) (d a b : BitVec 7) : Except DecodeError Instr :=
  match lo with
  | 0 => if ¬ (fn = 0#3) then .error .reservedFn else if ¬ ((bits d 5 2) = 0#2) then .error .illegalEncoding else if ¬ ((bits a 5 2) = 0#2) then .error .illegalEncoding else if ¬ ((bits b 5 2) = 0#2) then .error .illegalEncoding else .ok (.mma (bits d 0 5) (bits a 0 5) (bits b 0 5))
  | 1 => if ¬ (fn = 0#3) then .error .reservedFn else if ¬ ((bits d 5 2) = 0#2) then .error .illegalEncoding else if ¬ ((bits a 5 2) = 0#2) then .error .illegalEncoding else if ¬ ((bits b 5 2) = 0#2) then .error .illegalEncoding else .ok (.mmas (bits d 0 5) (bits a 0 5) (bits b 0 5))
  | 2 => if ¬ ((bits fn 1 2) = 0#2) then .error .reservedFn else if ¬ (d = 0#7) then .error .illegalEncoding else if ¬ (a = 0#7) then .error .illegalEncoding else if ¬ (b = 0#7) then .error .illegalEncoding else .ok (.aclr (bits fn 0 1))
  | 3 => if ¬ ((bits d 5 2) = 0#2) then .error .illegalEncoding else if ¬ ((bits a 5 2) = 0#2) then .error .illegalEncoding else if ¬ (b = 0#7) then .error .illegalEncoding else .ok (.acpy fn (bits d 0 5) (bits a 0 5))
  | 4 => if ¬ (fn = 0#3) then .error .reservedFn else if ¬ (d = 0#7) then .error .illegalEncoding else if ¬ ((bits a 5 2) = 0#2) then .error .illegalEncoding else if ¬ (b = 0#7) then .error .illegalEncoding else .ok (.scld (bits a 0 5))
  | 5 => if ¬ ((bits fn 1 2) = 0#2) then .error .reservedFn else if ¬ (d = 0#7) then .error .illegalEncoding else if ¬ ((bits a 5 2) = 0#2) then .error .illegalEncoding else if ¬ (b = 0#7) then .error .illegalEncoding else .ok (.wbld (bits fn 0 1) (bits a 0 5))
  | 6 => if ¬ (fn = 0#3) then .error .reservedFn else if ¬ ((bits d 5 2) = 0#2) then .error .illegalEncoding else if ¬ ((bits a 5 2) = 0#2) then .error .illegalEncoding else if ¬ (b = 0#7) then .error .illegalEncoding else .ok (.mstat (bits d 0 5) (bits a 0 5))
  | _ => .error .unassigned

/-- Opcodes 0xC0 to 0xCF (Table 8-1); `lo` is the low half of the opcode. -/
def decodeRowC (lo : Nat) (fn : BitVec 3) (d a b : BitVec 7) : Except DecodeError Instr :=
  match lo with
  | 0 => if ¬ (fn = 0#3) then .error .reservedFn else if ¬ ((bits d 3 4) = 0#4) then .error .illegalEncoding else if ¬ ((bits b 6 1) = 0#1) then .error .illegalEncoding else .ok (.zgen (bits d 0 3) a (bits b 4 2) (bits b 0 4))
  | 1 => if ¬ (fn = 0#3) then .error .reservedFn else if ¬ ((bits d 3 4) = 0#4) then .error .illegalEncoding else if ¬ ((bits a 3 4) = 0#4) then .error .illegalEncoding else if ¬ ((bits b 3 4) = 0#4) then .error .illegalEncoding else .ok (.zand (bits d 0 3) (bits a 0 3) (bits b 0 3))
  | 2 => if ¬ (fn = 0#3) then .error .reservedFn else if ¬ ((bits d 3 4) = 0#4) then .error .illegalEncoding else if ¬ ((bits a 3 4) = 0#4) then .error .illegalEncoding else if ¬ ((bits b 3 4) = 0#4) then .error .illegalEncoding else .ok (.zandc (bits d 0 3) (bits a 0 3) (bits b 0 3))
  | 3 => if ¬ (fn = 0#3) then .error .reservedFn else if ¬ ((bits d 3 4) = 0#4) then .error .illegalEncoding else if ¬ ((bits a 3 4) = 0#4) then .error .illegalEncoding else if ¬ ((bits b 3 4) = 0#4) then .error .illegalEncoding else .ok (.zor (bits d 0 3) (bits a 0 3) (bits b 0 3))
  | 4 => if ¬ (fn = 0#3) then .error .reservedFn else if ¬ ((bits d 3 4) = 0#4) then .error .illegalEncoding else if ¬ ((bits a 3 4) = 0#4) then .error .illegalEncoding else if ¬ ((bits b 3 4) = 0#4) then .error .illegalEncoding else .ok (.zorc (bits d 0 3) (bits a 0 3) (bits b 0 3))
  | 5 => if ¬ (fn = 0#3) then .error .reservedFn else if ¬ ((bits d 3 4) = 0#4) then .error .illegalEncoding else if ¬ ((bits a 3 4) = 0#4) then .error .illegalEncoding else if ¬ ((bits b 3 4) = 0#4) then .error .illegalEncoding else .ok (.zmux (bits d 0 3) (bits a 0 3) (bits b 0 3))
  | 6 => if ¬ (fn = 0#3) then .error .reservedFn else if ¬ ((bits d 3 4) = 0#4) then .error .illegalEncoding else if ¬ ((bits a 3 4) = 0#4) then .error .illegalEncoding else if ¬ (b = 0#7) then .error .illegalEncoding else .ok (.znot (bits d 0 3) (bits a 0 3))
  | 7 => if ¬ (fn = 0#3) then .error .reservedFn else if ¬ ((bits d 3 4) = 0#4) then .error .illegalEncoding else if ¬ ((bits a 3 4) = 0#4) then .error .illegalEncoding else if ¬ ((bits b 3 4) = 0#4) then .error .illegalEncoding else .ok (.zxorc (bits d 0 3) (bits a 0 3) (bits b 0 3))
  | 8 => if ¬ ((bits fn 1 2) = 0#2) then .error .reservedFn else if ¬ ((bits a 3 4) = 0#4) then .error .illegalEncoding else if ¬ (b = 0#7) then .error .illegalEncoding else .ok (.zcnt (bits fn 0 1) d (bits a 0 3))
  | 9 => if ¬ ((bits a 3 4) = 0#4) then .error .illegalEncoding else if ¬ (b = 0#7) then .error .illegalEncoding else .ok (.zsum fn d (bits a 0 3))
  | 10 => if ¬ (fn = 0#3) then .error .reservedFn else if ¬ ((bits d 3 4) = 0#4) then .error .illegalEncoding else if ¬ ((bits a 3 4) = 0#4) then .error .illegalEncoding else if ¬ ((bits b 4 3) = 0#3) then .error .illegalEncoding else .ok (.zregen (bits d 0 3) (bits a 0 3) (bits b 0 4))
  | 11 => if ¬ (fn = 0#3) then .error .reservedFn else if ¬ (d = 0#7) then .error .illegalEncoding else if ¬ ((bits a 5 2) = 0#2) then .error .illegalEncoding else if ¬ (b = 0#7) then .error .illegalEncoding else .ok (.zseed (bits a 0 5))
  | 12 => if ¬ (fn = 0#3) then .error .reservedFn else if ¬ ((bits a 3 4) = 0#4) then .error .illegalEncoding else if ¬ (b = 0#7) then .error .illegalEncoding else .ok (.zclass d (bits a 0 3))
  | _ => .error .unassigned

/-- Opcodes 0xD0 to 0xDF (Table 8-1); `lo` is the low half of the opcode. -/
def decodeRowD (lo : Nat) (fn : BitVec 3) (d a b : BitVec 7) : Except DecodeError Instr :=
  match lo with
  | 0 => if ¬ (fn = 0#3) then .error .reservedFn else if ¬ ((bits d 5 2) = 0#2) then .error .illegalEncoding else if ¬ ((bits a 5 2) = 0#2) then .error .illegalEncoding else if ¬ ((bits b 5 2) = 0#2) then .error .illegalEncoding else .ok (.sadd (bits d 0 5) (bits a 0 5) (bits b 0 5))
  | 1 => if ¬ (fn = 0#3) then .error .reservedFn else if ¬ ((bits d 5 2) = 0#2) then .error .illegalEncoding else if ¬ ((bits a 5 2) = 0#2) then .error .illegalEncoding else if ¬ ((bits b 5 2) = 0#2) then .error .illegalEncoding else .ok (.ssub (bits d 0 5) (bits a 0 5) (bits b 0 5))
  | 2 => if ¬ (fn = 0#3) then .error .reservedFn else if ¬ ((bits d 5 2) = 0#2) then .error .illegalEncoding else if ¬ ((bits a 5 2) = 0#2) then .error .illegalEncoding else if ¬ ((bits b 5 2) = 0#2) then .error .illegalEncoding else .ok (.smul (bits d 0 5) (bits a 0 5) (bits b 0 5))
  | 3 => if ¬ (fn = 0#3) then .error .reservedFn else if ¬ ((bits d 5 2) = 0#2) then .error .illegalEncoding else if ¬ ((bits a 5 2) = 0#2) then .error .illegalEncoding else if ¬ ((bits b 5 2) = 0#2) then .error .illegalEncoding else .ok (.sand (bits d 0 5) (bits a 0 5) (bits b 0 5))
  | 4 => if ¬ (fn = 0#3) then .error .reservedFn else if ¬ ((bits d 5 2) = 0#2) then .error .illegalEncoding else if ¬ ((bits a 5 2) = 0#2) then .error .illegalEncoding else if ¬ ((bits b 5 2) = 0#2) then .error .illegalEncoding else .ok (.sor (bits d 0 5) (bits a 0 5) (bits b 0 5))
  | 5 => if ¬ (fn = 0#3) then .error .reservedFn else if ¬ ((bits d 5 2) = 0#2) then .error .illegalEncoding else if ¬ ((bits a 5 2) = 0#2) then .error .illegalEncoding else if ¬ ((bits b 5 2) = 0#2) then .error .illegalEncoding else .ok (.sxor (bits d 0 5) (bits a 0 5) (bits b 0 5))
  | 6 => if ¬ (fn = 0#3) then .error .reservedFn else if ¬ ((bits d 5 2) = 0#2) then .error .illegalEncoding else if ¬ ((bits a 5 2) = 0#2) then .error .illegalEncoding else if ¬ ((bits b 5 2) = 0#2) then .error .illegalEncoding else .ok (.sshl (bits d 0 5) (bits a 0 5) (bits b 0 5))
  | 7 => if ¬ ((bits fn 1 2) = 0#2) then .error .reservedFn else if ¬ ((bits d 5 2) = 0#2) then .error .illegalEncoding else if ¬ ((bits a 5 2) = 0#2) then .error .illegalEncoding else if ¬ ((bits b 5 2) = 0#2) then .error .illegalEncoding else .ok (.sshr (bits fn 0 1) (bits d 0 5) (bits a 0 5) (bits b 0 5))
  | 8 => if ¬ (fn = 0#3) then .error .reservedFn else if ¬ ((bits d 5 2) = 0#2) then .error .illegalEncoding else if ¬ ((bits a 5 2) = 0#2) then .error .illegalEncoding else .ok (.saddi (bits d 0 5) (bits a 0 5) b)
  | 9 => if ¬ (fn = 0#3) then .error .reservedFn else if ¬ ((bits d 5 2) = 0#2) then .error .illegalEncoding else .ok (.smovi (bits d 0 5) (a ++ b))
  | 10 => if ¬ (fn = 0#3) then .error .reservedFn else if ¬ ((bits d 5 2) = 0#2) then .error .illegalEncoding else if ¬ (a = 0#7) then .error .illegalEncoding else if ¬ ((bits b 5 2) = 0#2) then .error .illegalEncoding else .ok (.smov (bits d 0 5) (bits b 0 5))
  | 11 => if ¬ ((bits d 5 2) = 0#2) then .error .illegalEncoding else if ¬ ((bits a 5 2) = 0#2) then .error .illegalEncoding else if ¬ ((bits b 5 2) = 0#2) then .error .illegalEncoding else .ok (.scmp fn (bits d 0 5) (bits a 0 5) (bits b 0 5))
  | 12 => if ¬ (fn = 0#3) then .error .reservedFn else if ¬ ((bits d 5 2) = 0#2) then .error .illegalEncoding else if ¬ ((bits a 5 2) = 0#2) then .error .illegalEncoding else if ¬ ((bits b 5 2) = 0#2) then .error .illegalEncoding else .ok (.ssel (bits d 0 5) (bits a 0 5) (bits b 0 5))
  | 13 => if ¬ ((bits fn 2 1) = 0#1) then .error .reservedFn else if ¬ ((bits d 5 2) = 0#2) then .error .illegalEncoding else if ¬ ((bits a 5 2) = 0#2) then .error .illegalEncoding else if ¬ ((bits b 5 2) = 0#2) then .error .illegalEncoding else .ok (.sminmax (bits fn 0 2) (bits d 0 5) (bits a 0 5) (bits b 0 5))
  | 14 => if ¬ ((bits d 5 2) = 0#2) then .error .illegalEncoding else if ¬ ((bits a 5 2) = 0#2) then .error .illegalEncoding else .ok (.sld fn (bits d 0 5) (bits a 0 5) (bits b 3 4) (bits b 0 3))
  | 15 => if ¬ ((bits d 5 2) = 0#2) then .error .illegalEncoding else if ¬ ((bits a 5 2) = 0#2) then .error .illegalEncoding else .ok (.sst fn (bits d 0 5) (bits a 0 5) (bits b 3 4) (bits b 0 3))
  | _ => .error .unassigned

/-- Opcodes 0xE0 to 0xEF (Table 8-1); `lo` is the low half of the opcode. -/
def decodeRowE (lo : Nat) (fn : BitVec 3) (d a b : BitVec 7) : Except DecodeError Instr :=
  match lo with
  | 0 => if ¬ (fn = 0#3) then .error .reservedFn else if ¬ (d = 0#7) then .error .illegalEncoding else .ok (.syscall (a ++ b))
  | 1 => if ¬ (fn = 0#3) then .error .reservedFn else if ¬ (d = 0#7) then .error .illegalEncoding else .ok (.trap (a ++ b))
  | 2 => if ¬ (fn = 0#3) then .error .reservedFn else if ¬ (d = 0#7) then .error .illegalEncoding else if ¬ (a = 0#7) then .error .illegalEncoding else if ¬ (b = 0#7) then .error .illegalEncoding else .ok .rfe
  | 3 => if ¬ (fn = 0#3) then .error .reservedFn else if ¬ ((bits d 5 2) = 0#2) then .error .illegalEncoding else if ¬ ((bits a 5 2) = 0#2) then .error .illegalEncoding else if ¬ (b = 0#7) then .error .illegalEncoding else .ok (.svtake (bits d 0 5) (bits a 0 5))
  | 4 => if ¬ (fn = 0#3) then .error .reservedFn else if ¬ (d = 0#7) then .error .illegalEncoding else .ok (.svpost a b)
  | 5 => if ¬ (fn = 0#3) then .error .reservedFn else if ¬ ((bits a 5 2) = 0#2) then .error .illegalEncoding else .ok (.csrr d ((bits a 0 5) ++ b))
  | 6 => if ¬ (fn = 0#3) then .error .reservedFn else if ¬ ((bits a 5 2) = 0#2) then .error .illegalEncoding else .ok (.csrw d ((bits a 0 5) ++ b))
  | 7 => if ¬ (fn = 0#3) then .error .reservedFn else if ¬ (d = 0#7) then .error .illegalEncoding else if ¬ ((bits a 5 2) = 0#2) then .error .illegalEncoding else if ¬ (b = 0#7) then .error .illegalEncoding else .ok (.extinv (bits a 0 5))
  | 8 => if ¬ (fn = 0#3) then .error .reservedFn else if ¬ (d = 0#7) then .error .illegalEncoding else if ¬ (a = 0#7) then .error .illegalEncoding else if ¬ (b = 0#7) then .error .illegalEncoding else .ok .wfi
  | 9 => if ¬ ((bits b 0 3) = 0#3) then .error .illegalEncoding else .ok (.qput fn d a (bits b 3 4))
  | 10 => if ¬ ((bits b 1 2) = 0#2) then .error .illegalEncoding else .ok (.gsave fn d a (bits b 3 4) (bits b 0 1))
  | 11 => if ¬ ((bits b 1 2) = 0#2) then .error .illegalEncoding else .ok (.grest fn d a (bits b 3 4) (bits b 0 1))
  | 12 => if ¬ (fn = 0#3) then .error .reservedFn else if ¬ (d = 0#7) then .error .illegalEncoding else .ok (.hlt (a ++ b))
  | _ => .error .unassigned

/-- Opcodes 0xF0 to 0xFF (Table 8-1); `lo` is the low half of the opcode. -/
def decodeRowF (lo : Nat) (fn : BitVec 3) (d a b : BitVec 7) : Except DecodeError Instr :=
  match lo with
  | 0 => if ¬ (fn = 0#3) then .error .reservedFn else if ¬ (d = 0#7) then .error .illegalEncoding else .ok (.brk (a ++ b))
  | 1 => if ¬ (fn = 0#3) then .error .reservedFn else if ¬ (d = 0#7) then .error .illegalEncoding else .ok (.mark (a ++ b))
  | 2 => if ¬ (fn = 0#3) then .error .reservedFn else if ¬ (b = 0#7) then .error .illegalEncoding else .ok (.cnrd d a)
  | 3 => if ¬ (fn = 0#3) then .error .reservedFn else if ¬ ((bits d 5 2) = 0#2) then .error .illegalEncoding else if ¬ (a = 0#7) then .error .illegalEncoding else if ¬ (b = 0#7) then .error .illegalEncoding else .ok (.wcoord (bits d 0 5))
  | 15 => .error .neverAssigned
  | _ => .error .unassigned

/-- Decode one slot word given by its fields (spec/08 R190 to R195). -/
def decodeFields (op : BitVec 8) (fn : BitVec 3) (d a b : BitVec 7) : Except DecodeError Instr :=
  let lo := (bits op 0 4).toNat
  match (bits op 4 4).toNat with
  | 0 => decodeRow0 lo fn d a b
  | 1 => decodeRow1 lo fn d a b
  | 2 => decodeRow2 lo fn d a b
  | 3 => decodeRow3 lo fn d a b
  | 4 => decodeRow4 lo fn d a b
  | 5 => decodeRow5 lo fn d a b
  | 6 => decodeRow6 lo fn d a b
  | 7 => decodeRow7 lo fn d a b
  | 8 => decodeRow8 lo fn d a b
  | 9 => decodeRow9 lo fn d a b
  | 10 => decodeRowA lo fn d a b
  | 11 => decodeRowB lo fn d a b
  | 12 => decodeRowC lo fn d a b
  | 13 => decodeRowD lo fn d a b
  | 14 => decodeRowE lo fn d a b
  | _ => decodeRowF lo fn d a b

/-- A value of fn that Table 8-2 does not assign, of the opcodes whose fn field an instruction carries (R190): it is reported
before a bad field (Table 7-11). -/
def fnUnassigned (op : BitVec 8) (fn : BitVec 3) : Bool :=
  match op.toNat with
  | 0x40 | 0x41 | 0x79 | 0xB3 | 0xDB => decide (5 < fn.toNat)
  | 0x42 | 0x7B | 0x7D => decide (3 < fn.toNat)
  | 0x44 | 0x3A => decide (fn.toNat = 3)
  | 0x7C | 0x82 => decide (2 < fn.toNat)
  | 0x76 | 0xC9 => decide (fn.toNat = 7)
  | 0x51 | 0xA0 => decide (fn.toNat = 0)
  | _ => false

/-- A reserved scope code of an opcode whose b field carries a scope (R109). -/
def scopeUnassigned (op : BitVec 8) (sc : BitVec 3) : Bool :=
  match op.toNat with
  | 0x78 | 0x79 | 0x7B | 0x7D | 0x82 => decide (5 < sc.toNat)
  | _ => false

/-- Decode one slot word: the first row of Table 7-11 that applies is reported. -/
def decode (w : Word) : Except DecodeError Instr :=
  match decodeFields (bits w 24 8) (bits w 21 3) (bits w 14 7) (bits w 7 7) (bits w 0 7) with
  | .error .illegalEncoding =>
    .error (if fnUnassigned (bits w 24 8) (bits w 21 3) then .reservedFn
      else if scopeUnassigned (bits w 24 8) (bits w 0 3) then .reservedScope else .illegalEncoding)
  | r => r

/-- The instruction the decoder reads from a table row's word: the slot word alone is encoded, so `nbits` is 32. -/
def decodeTableWord (_nbits w : Nat) : Option Instr :=
  match decode (BitVec.ofNat 32 w) with
  | .ok i => some i
  | .error _ => none

/-- The slot word of an instruction, from Table 8-1 and the formats of R178; none for a step without an encoding. -/
def encode : Instr → Option Word
  | .nop => some (slotWord 0x00#8 0#3 0#7 0#7 0#7)
  | .add d a b => some (slotWord 0x01#8 0#3 d a b)
  | .sub d a b => some (slotWord 0x02#8 0#3 d a b)
  | .addi d a i => some (slotWord 0x03#8 0#3 d a i)
  | .mul d a b => some (slotWord 0x04#8 0#3 d a b)
  | .mulhi s d a b => some (slotWord 0x05#8 (0#2 ++ s) d a b)
  | .mad d a b => some (slotWord 0x06#8 0#3 d a b)
  | .min s d a b => some (slotWord 0x07#8 (0#2 ++ s) d a b)
  | .max s d a b => some (slotWord 0x08#8 (0#2 ++ s) d a b)
  | .abs d a => some (slotWord 0x09#8 0#3 d a 0#7)
  | .absdiff s d a b => some (slotWord 0x0A#8 (0#2 ++ s) d a b)
  | .and d a b => some (slotWord 0x0B#8 0#3 d a b)
  | .or d a b => some (slotWord 0x0C#8 0#3 d a b)
  | .xor d a b => some (slotWord 0x0D#8 0#3 d a b)
  | .andn d a b => some (slotWord 0x0E#8 0#3 d a b)
  | .shl d a b => some (slotWord 0x0F#8 0#3 d a b)
  | .shr d a b => some (slotWord 0x10#8 0#3 d a b)
  | .sar d a b => some (slotWord 0x11#8 0#3 d a b)
  | .rol d a b => some (slotWord 0x12#8 0#3 d a b)
  | .shi f d a i => some (slotWord 0x13#8 (0#1 ++ f) d a i)
  | .clz d a => some (slotWord 0x14#8 0#3 d a 0#7)
  | .popc d a => some (slotWord 0x15#8 0#3 d a 0#7)
  | .brev d a => some (slotWord 0x16#8 0#3 d a 0#7)
  | .bfx s d a b => some (slotWord 0x17#8 (0#2 ++ s) d a b)
  | .bfi d a b => some (slotWord 0x18#8 0#3 d a b)
  | .sel p d a b => some (slotWord 0x19#8 p d a b)
  | .lea s d a b => some (slotWord 0x1A#8 s d a b)
  | .add64 d a b => some (slotWord 0x1B#8 0#3 d a b)
  | .sub64 d a b => some (slotWord 0x1C#8 0#3 d a b)
  | .sh64 f d a b => some (slotWord 0x1D#8 f d a b)
  | .mov d b => some (slotWord 0x1E#8 0#3 d 0#7 b)
  | .movi d i => some (slotWord 0x1F#8 0#3 d (bits i 7 7) (bits i 0 7))
  | .fadd n r d a b => some (slotWord 0x20#8 (n ++ r) d a b)
  | .fmul n r d a b => some (slotWord 0x21#8 (n ++ r) d a b)
  | .fma n r d a b => some (slotWord 0x22#8 (n ++ r) d a b)
  | .fmin d a b => some (slotWord 0x23#8 0#3 d a b)
  | .fmax d a b => some (slotWord 0x24#8 0#3 d a b)
  | .fsgn f d a b => some (slotWord 0x25#8 f d a b)
  | .frnd r d a => some (slotWord 0x26#8 (0#1 ++ r) d a 0#7)
  | .fclass d a => some (slotWord 0x27#8 0#3 d a 0#7)
  | .fdiv d a b => some (slotWord 0x28#8 0#3 d a b)
  | .fsqrt d a => some (slotWord 0x29#8 0#3 d a 0#7)
  | .frcp d a => some (slotWord 0x2A#8 0#3 d a 0#7)
  | .frsq d a => some (slotWord 0x2B#8 0#3 d a 0#7)
  | .fex2 d a => some (slotWord 0x2C#8 0#3 d a 0#7)
  | .flg2 d a => some (slotWord 0x2D#8 0#3 d a 0#7)
  | .fsinpi d a => some (slotWord 0x2E#8 0#3 d a 0#7)
  | .fcospi d a => some (slotWord 0x2F#8 0#3 d a 0#7)
  | .hadd2 t d a b => some (slotWord 0x30#8 (0#2 ++ t) d a b)
  | .hmul2 t d a b => some (slotWord 0x31#8 (0#2 ++ t) d a b)
  | .hfma2 t d a b => some (slotWord 0x32#8 (0#2 ++ t) d a b)
  | .hmin2 t d a b => some (slotWord 0x33#8 (0#2 ++ t) d a b)
  | .hmax2 t d a b => some (slotWord 0x34#8 (0#2 ++ t) d a b)
  | .cvti2f r s d a => some (slotWord 0x35#8 (r ++ s) d a 0#7)
  | .cvtf2i r s d a => some (slotWord 0x36#8 (r ++ s) d a 0#7)
  | .cvtpk16 t d a b => some (slotWord 0x37#8 (0#2 ++ t) d a b)
  | .cvtup16 h t d a => some (slotWord 0x38#8 (0#1 ++ h ++ t) d a 0#7)
  | .cvtpk8 s f d a b => some (slotWord 0x39#8 (s ++ f) d a b)
  | .cvtup8 f d a => some (slotWord 0x3A#8 (0#1 ++ f) d a 0#7)
  | .qscal f d a b => some (slotWord 0x3B#8 (0#1 ++ f) d a b)
  | .qenc s f d a b => some (slotWord 0x3C#8 (s ++ f) d a b)
  | .qdec f d a b => some (slotWord 0x3D#8 (0#1 ++ f) d a b)
  | .fclamp d a b => some (slotWord 0x3E#8 0#3 d a b)
  | .icmp c t f a b => some (slotWord 0x40#8 c (0#1 ++ t ++ f) a b)
  | .icmpi c t f a i => some (slotWord 0x41#8 c (0#1 ++ t ++ f) a i)
  | .fcmp c t f a b => some (slotWord 0x42#8 c (0#1 ++ t ++ f) a b)
  | .plog o t f a b => some (slotWord 0x43#8 (0#1 ++ o) (0#1 ++ t ++ f) (0#4 ++ a) (0#4 ++ b))
  | .vote o t f a => some (slotWord 0x44#8 (0#1 ++ o) (0#1 ++ t ++ f) (0#4 ++ a) 0#7)
  | .ballot d a => some (slotWord 0x45#8 0#3 d (0#4 ++ a) 0#7)
  | .ptoi d a => some (slotWord 0x46#8 0#3 d (0#4 ++ a) 0#7)
  | .itop t f a => some (slotWord 0x47#8 0#3 (0#1 ++ t ++ f) a 0#7)
  | .matchAny d a => some (slotWord 0x48#8 0#3 d a 0#7)
  | .perm d a b => some (slotWord 0x50#8 0#3 d a b)
  | .setlp f i => some (slotWord 0x51#8 (0#1 ++ f) 0#7 (0#6 ++ (bits i 7 1)) (bits i 0 7))
  | .redux o d a => some (slotWord 0x52#8 o d a 0#7)
  | .vget d a b => some (slotWord 0x53#8 0#3 (0#2 ++ d) a b)
  | .vbcast d a => some (slotWord 0x54#8 0#3 d (0#2 ++ a) 0#7)
  | .rds d i => some (slotWord 0x55#8 0#3 d (0#6 ++ (bits i 7 1)) (bits i 0 7))
  | .wbase i => some (slotWord 0x56#8 0#3 0#7 (bits i 7 7) (bits i 0 7))
  | .dcw i => some (slotWord 0x57#8 0#3 0#7 (bits i 6 7) ((bits i 0 6) ++ 0#1))
  | .scan o d a => some (slotWord 0x58#8 o d a 0#7)
  | .br h o s => some (slotWord 0x60#8 (h ++ 0#1) (bits o 12 7) (bits o 5 7) ((bits o 0 5) ++ s))
  | .brx h a => some (slotWord 0x61#8 (0#1 ++ h) 0#7 a 0#7)
  | .call o s => some (slotWord 0x62#8 1#3 (bits o 12 7) (bits o 5 7) ((bits o 0 5) ++ s))
  | .ret => some (slotWord 0x63#8 0#3 0#7 0#7 0#7)
  | .join => some (slotWord 0x64#8 0#3 0#7 0#7 0#7)
  | .regang => some (slotWord 0x65#8 0#3 0#7 0#7 0#7)
  | .exit => some (slotWord 0x66#8 0#3 0#7 0#7 0#7)
  | .yield => some (slotWord 0x67#8 0#3 0#7 0#7 0#7)
  | .region => some (slotWord 0x68#8 0#3 0#7 0#7 0#7)
  | .trigger => some (slotWord 0x69#8 0#3 0#7 0#7 0#7)
  | .usig d a b => some (slotWord 0x6A#8 0#3 (0#2 ++ d) (0#2 ++ a) (0#2 ++ b))
  | .uhnd b => some (slotWord 0x6B#8 0#3 0#7 0#7 b)
  | .uret => some (slotWord 0x6C#8 0#3 0#7 0#7 0#7)
  | .ld c d a k w => some (slotWord 0x70#8 c (0#2 ++ d) (0#2 ++ a) (k ++ w))
  | .ldAcq c o d p a k w => some (slotWord 0x70#8 c (o ++ d) (p ++ a) (k ++ w))
  | .st c d a k w => some (slotWord 0x71#8 c (0#2 ++ d) (0#2 ++ a) (k ++ w))
  | .stRel c o d p a k w => some (slotWord 0x71#8 c (o ++ d) (p ++ a) (k ++ w))
  | .ldk c d a k => some (slotWord 0x72#8 c (0#3 ++ d) (0#2 ++ a) (k ++ 4#3))
  | .stk c d a k => some (slotWord 0x73#8 c (0#3 ++ d) (0#2 ++ a) (k ++ 4#3))
  | .cnarrow d a b => some (slotWord 0x74#8 0#3 (0#3 ++ d) (0#3 ++ a) (0#2 ++ b))
  | .crights d a b => some (slotWord 0x75#8 0#3 (0#3 ++ d) (0#3 ++ a) (0#2 ++ b))
  | .cget f d a => some (slotWord 0x76#8 f d (0#3 ++ a) 0#7)
  | .ctest t f a b => some (slotWord 0x77#8 0#3 (0#1 ++ t ++ f) (0#3 ++ a) b)
  | .atom o d a k s => some (slotWord 0x78#8 o (0#2 ++ d) (0#2 ++ a) (k ++ s))
  | .atomb o d a k s => some (slotWord 0x79#8 o (0#2 ++ d) (0#2 ++ a) (k ++ s))
  | .ared o d a k w => some (slotWord 0x7A#8 o (0#2 ++ d) (0#2 ++ a) (k ++ w))
  | .fatom o d a k s => some (slotWord 0x7B#8 o (0#2 ++ d) (0#2 ++ a) (k ++ s))
  | .fred o d a k => some (slotWord 0x7C#8 o (0#2 ++ d) (0#2 ++ a) (k ++ 2#3))
  | .fence f s => some (slotWord 0x7D#8 f 0#7 0#7 (0#4 ++ s))
  | .pref a k w => some (slotWord 0x7E#8 0#3 0#7 (0#2 ++ a) (k ++ w))
  | .zfill c a k => some (slotWord 0x7F#8 c 0#7 (0#2 ++ a) (k ++ 0#3))
  | .pin t f a l k => some (slotWord 0x80#8 0#3 (0#1 ++ t ++ f) a (0#2 ++ l ++ k))
  | .unpin c a k => some (slotWord 0x81#8 c 0#7 (0#2 ++ a) (k ++ 0#3))
  | .cctl o a k s => some (slotWord 0x82#8 o 0#7 (0#2 ++ a) (k ++ s))
  | .lds c d a w => some (slotWord 0x83#8 c (0#2 ++ d) (0#2 ++ a) (0#4 ++ w))
  | .sts c d a w => some (slotWord 0x84#8 c (0#2 ++ d) (0#2 ++ a) (0#4 ++ w))
  | .stdef e a => some (slotWord 0x85#8 e 0#7 (0#2 ++ a) 0#7)
  | .stbind e o q => some (slotWord 0x86#8 e 0#7 0#7 (0#4 ++ o ++ q))
  | .stpos e d r => some (slotWord 0x87#8 e d 0#7 (0#6 ++ r))
  | .copy h c a => some (slotWord 0x88#8 h (0#4 ++ c) (0#2 ++ a) 0#7)
  | .rdwp h d => some (slotWord 0x89#8 h d 0#7 0#7)
  | .bfence d => some (slotWord 0x8A#8 0#3 (0#2 ++ d) 0#7 0#7)
  | .bwait a => some (slotWord 0x8B#8 0#3 0#7 (0#2 ++ a) 0#7)
  | .shadow t f a => some (slotWord 0x8C#8 0#3 (0#1 ++ t ++ f) (0#3 ++ a) 0#7)
  | .publish k => some (slotWord 0x8D#8 0#3 0#7 0#7 (k ++ 0#3))
  | .barInit a b => some (slotWord 0x90#8 0#3 0#7 (0#2 ++ a) (0#2 ++ b))
  | .barReg a => some (slotWord 0x91#8 0#3 0#7 (0#2 ++ a) 0#7)
  | .barArr d a => some (slotWord 0x92#8 0#3 (0#2 ++ d) (0#2 ++ a) 0#7)
  | .barWait a b => some (slotWord 0x93#8 0#3 0#7 (0#2 ++ a) (0#2 ++ b))
  | .barAw a => some (slotWord 0x94#8 0#3 0#7 (0#2 ++ a) 0#7)
  | .barDrop a => some (slotWord 0x95#8 0#3 0#7 (0#2 ++ a) 0#7)
  | .sqput q a => some (slotWord 0x96#8 (0#1 ++ q) 0#7 a 0#7)
  | .sqget q d => some (slotWord 0x97#8 (0#1 ++ q) d 0#7 0#7)
  | .sqpeek q d => some (slotWord 0x98#8 (0#1 ++ q) d 0#7 0#7)
  | .msend c a => some (slotWord 0x99#8 (0#2 ++ c) 0#7 (0#2 ++ a) 0#7)
  | .mpost d a => some (slotWord 0x9A#8 0#3 (0#2 ++ d) (0#2 ++ a) 0#7)
  | .mtest t f a => some (slotWord 0x9B#8 0#3 (0#1 ++ t ++ f) a 0#7)
  | .mcancel a => some (slotWord 0x9C#8 0#3 0#7 (0#2 ++ a) 0#7)
  | .spbar g b => some (slotWord 0x9D#8 0#3 0#7 (0#4 ++ (bits g 3 3)) ((bits g 0 3) ++ 0#2 ++ b))
  | .tnext p d => some (slotWord 0xA0#8 p (0#2 ++ d) 0#7 0#7)
  | .tdone d a => some (slotWord 0xA1#8 0#3 (0#2 ++ d) (0#2 ++ a) 0#7)
  | .trd d i => some (slotWord 0xA2#8 0#3 (0#2 ++ d) (bits i 7 7) (bits i 0 7))
  | .twr d i => some (slotWord 0xA3#8 0#3 (0#2 ++ d) (bits i 7 7) (bits i 0 7))
  | .tcommit => some (slotWord 0xA4#8 0#3 0#7 0#7 0#7)
  | .thand a => some (slotWord 0xA5#8 0#3 0#7 (0#2 ++ a) 0#7)
  | .tmap d a => some (slotWord 0xA6#8 0#3 (0#2 ++ d) (0#2 ++ a) 0#7)
  | .mma d a b => some (slotWord 0xB0#8 0#3 (0#2 ++ d) (0#2 ++ a) (0#2 ++ b))
  | .mmas d a b => some (slotWord 0xB1#8 0#3 (0#2 ++ d) (0#2 ++ a) (0#2 ++ b))
  | .aclr s => some (slotWord 0xB2#8 (0#2 ++ s) 0#7 0#7 0#7)
  | .acpy f d a => some (slotWord 0xB3#8 f (0#2 ++ d) (0#2 ++ a) 0#7)
  | .scld a => some (slotWord 0xB4#8 0#3 0#7 (0#2 ++ a) 0#7)
  | .wbld m a => some (slotWord 0xB5#8 (0#2 ++ m) 0#7 (0#2 ++ a) 0#7)
  | .mstat d a => some (slotWord 0xB6#8 0#3 (0#2 ++ d) (0#2 ++ a) 0#7)
  | .zgen d a k c => some (slotWord 0xC0#8 0#3 (0#4 ++ d) a (0#1 ++ k ++ c))
  | .zand d a b => some (slotWord 0xC1#8 0#3 (0#4 ++ d) (0#4 ++ a) (0#4 ++ b))
  | .zandc d a b => some (slotWord 0xC2#8 0#3 (0#4 ++ d) (0#4 ++ a) (0#4 ++ b))
  | .zor d a b => some (slotWord 0xC3#8 0#3 (0#4 ++ d) (0#4 ++ a) (0#4 ++ b))
  | .zorc d a b => some (slotWord 0xC4#8 0#3 (0#4 ++ d) (0#4 ++ a) (0#4 ++ b))
  | .zmux d a b => some (slotWord 0xC5#8 0#3 (0#4 ++ d) (0#4 ++ a) (0#4 ++ b))
  | .znot d a => some (slotWord 0xC6#8 0#3 (0#4 ++ d) (0#4 ++ a) 0#7)
  | .zxorc d a b => some (slotWord 0xC7#8 0#3 (0#4 ++ d) (0#4 ++ a) (0#4 ++ b))
  | .zcnt f d a => some (slotWord 0xC8#8 (0#2 ++ f) d (0#4 ++ a) 0#7)
  | .zsum n d a => some (slotWord 0xC9#8 n d (0#4 ++ a) 0#7)
  | .zregen d a c => some (slotWord 0xCA#8 0#3 (0#4 ++ d) (0#4 ++ a) (0#3 ++ c))
  | .zseed a => some (slotWord 0xCB#8 0#3 0#7 (0#2 ++ a) 0#7)
  | .zclass d a => some (slotWord 0xCC#8 0#3 d (0#4 ++ a) 0#7)
  | .sadd d a b => some (slotWord 0xD0#8 0#3 (0#2 ++ d) (0#2 ++ a) (0#2 ++ b))
  | .ssub d a b => some (slotWord 0xD1#8 0#3 (0#2 ++ d) (0#2 ++ a) (0#2 ++ b))
  | .smul d a b => some (slotWord 0xD2#8 0#3 (0#2 ++ d) (0#2 ++ a) (0#2 ++ b))
  | .sand d a b => some (slotWord 0xD3#8 0#3 (0#2 ++ d) (0#2 ++ a) (0#2 ++ b))
  | .sor d a b => some (slotWord 0xD4#8 0#3 (0#2 ++ d) (0#2 ++ a) (0#2 ++ b))
  | .sxor d a b => some (slotWord 0xD5#8 0#3 (0#2 ++ d) (0#2 ++ a) (0#2 ++ b))
  | .sshl d a b => some (slotWord 0xD6#8 0#3 (0#2 ++ d) (0#2 ++ a) (0#2 ++ b))
  | .sshr r d a b => some (slotWord 0xD7#8 (0#2 ++ r) (0#2 ++ d) (0#2 ++ a) (0#2 ++ b))
  | .saddi d a i => some (slotWord 0xD8#8 0#3 (0#2 ++ d) (0#2 ++ a) i)
  | .smovi d i => some (slotWord 0xD9#8 0#3 (0#2 ++ d) (bits i 7 7) (bits i 0 7))
  | .smov d b => some (slotWord 0xDA#8 0#3 (0#2 ++ d) 0#7 (0#2 ++ b))
  | .scmp c d a b => some (slotWord 0xDB#8 c (0#2 ++ d) (0#2 ++ a) (0#2 ++ b))
  | .ssel d a b => some (slotWord 0xDC#8 0#3 (0#2 ++ d) (0#2 ++ a) (0#2 ++ b))
  | .sminmax f d a b => some (slotWord 0xDD#8 (0#1 ++ f) (0#2 ++ d) (0#2 ++ a) (0#2 ++ b))
  | .sld c d a k w => some (slotWord 0xDE#8 c (0#2 ++ d) (0#2 ++ a) (k ++ w))
  | .sst c d a k w => some (slotWord 0xDF#8 c (0#2 ++ d) (0#2 ++ a) (k ++ w))
  | .syscall i => some (slotWord 0xE0#8 0#3 0#7 (bits i 7 7) (bits i 0 7))
  | .trap i => some (slotWord 0xE1#8 0#3 0#7 (bits i 7 7) (bits i 0 7))
  | .rfe => some (slotWord 0xE2#8 0#3 0#7 0#7 0#7)
  | .svtake d a => some (slotWord 0xE3#8 0#3 (0#2 ++ d) (0#2 ++ a) 0#7)
  | .svpost a b => some (slotWord 0xE4#8 0#3 0#7 a b)
  | .csrr d i => some (slotWord 0xE5#8 0#3 d (0#2 ++ (bits i 7 5)) (bits i 0 7))
  | .csrw d i => some (slotWord 0xE6#8 0#3 d (0#2 ++ (bits i 7 5)) (bits i 0 7))
  | .extinv a => some (slotWord 0xE7#8 0#3 0#7 (0#2 ++ a) 0#7)
  | .wfi => some (slotWord 0xE8#8 0#3 0#7 0#7 0#7)
  | .qput c d a k => some (slotWord 0xE9#8 c d a (k ++ 0#3))
  | .gsave c d a k t => some (slotWord 0xEA#8 c d a (k ++ 0#2 ++ t))
  | .grest c d a k t => some (slotWord 0xEB#8 c d a (k ++ 0#2 ++ t))
  | .hlt i => some (slotWord 0xEC#8 0#3 0#7 (bits i 7 7) (bits i 0 7))
  | .brk i => some (slotWord 0xF0#8 0#3 0#7 (bits i 7 7) (bits i 0 7))
  | .mark i => some (slotWord 0xF1#8 0#3 0#7 (bits i 7 7) (bits i 0 7))
  | .cnrd d a => some (slotWord 0xF2#8 0#3 d a 0#7)
  | .wcoord d => some (slotWord 0xF3#8 0#3 (0#2 ++ d) 0#7 0#7)
  | .powerCycle => none
  | .managementReset => none
  | .bootImageCheck => none
  | .bootSelfTest => none
  | .bootFirmwareLoad => none
  | .bootKernelLoad => none
  | .bootPartitionStart => none
  | .freezeAssert => none
  | .freezeRelease => none
  | .statusQuery => none
  | .attestationRequest => none
  | .partitionCreate => none
  | .partitionDestroy => none
  | .sliceLoadRequest => none
  | .guestSliceRequest => none
  | .sliceStore => none
  | .l1Invalidate => none
  | .storeAck => none
  | .lineReply => none
  | .portWriteBack => none
  | .portExtentMiss => none
  | .walkComplete => none
  | .pageFaultResponse => none
  | .shootdownReceive => none
  | .shootdownAck => none
  | .guestEpochStepDone => none
  | .atomicUnitRequest => none
  | .atomicGrantLapse => none
  | .flitHop => none
  | .injectionYield => none
  | .circuitSetup => none
  | .circuitRelease => none
  | .circuitIdleTimeout => none
  | .dieLinkCrcRetry => none
  | .requestRetryTimeout => none
  | .hbmRowIdleClose => none
  | .hbmRefresh => none
  | .patrolScrub => none
  | .backInvalidateSnoop => none
  | .cxlPortDown => none
  | .externalWriteArrival => none
  | .externalWriteApply => none
  | .remoteAccessRequest => none
  | .doorbellWrite => none
  | .strcfgEnable => none
  | .strcfgResume => none
  | .copyStart => none
  | .copyWriteAck => none
  | .copyComplete => none
  | .copyPageFaultHold => none
  | .chstatAbort => none
  | .chstatResume => none
  | .driveCompletion => none
  | .storageTimeout => none
  | .poolsplitWrite => none
  | .teamAdmission => none
  | .groupInstantiate => none
  | .groupRetire => none
  | .creditEviction => none
  | .creditReadmit => none
  | .bundlePlacement => none
  | .laterWaveAdmission => none
  | .placementBlockTimeout => none
  | .regionCommit => none
  | .matrixOpComplete => none
  | .wbldPageFaultHold => none
  | .mseqAbort => none
  | .mseqResume => none
  | .groupEnd => none
  | .candidateAging => none
  | .trapTake => none
  | .coreStop => none
  | .userInterruptDelivery => none
  | .messageArrival => none
  | .slTimer => none
  | .slDeviceInterrupt => none
  | .slInterruptTake => none
  | .sltcmpWrite => none
  | .registerWrite => none
  | .firmwareStep => none
  | .nopPacket => none
  | .padPacket => none
  | .launchPacket => none
  | .copyPacket => none
  | .signalPacket => none
  | .waitPacket => none
  | .waitSatisfied => none
  | .publishPacket => none
  | .abortPacket => none
  | .timestampPacket => none
  | .watchdogTimeout => none
  | .fallbackTurn => none
  | .firmwareRebootDone => none
  | .triggerSignal => none
  | .bundleRetire => none
  | .bundleAbort => none
  | .fredLogApply => none
  | .fredctlAbort => none
  | .fredctlResume => none
  | .debugStop => none
  | .dbgctlHalt => none
  | .dbgcmdResume => none
  | .dbgcmdRunToLimit => none
  | .dbgcmdEndLaunch => none
  | .trsizeWrite => none
  | .trtailWrite => none
  | .pcSample => none
  | .orderGateTimeout => none
  | .stallClock => none
  | .yieldTimeout => none
  | .deviceDmaRead => none
  | .externalLinkDown => none
  | .scanChainShift => none

end Sys2Proof
end

