-- ==== Sys2Proof/Config.lean ====
section
/-!
DEFINITION. The constants the specification fixes for the B320 and the free values it leaves open.
A free value is an opaque constant with no body: nothing can evaluate it, and a statement about it holds for every value.
-/

namespace Sys2Proof.Config

/-- Dies of the module (spec/00_scope.md). -/
def dies : Nat := 8
/-- Cores of one die (R4). -/
def coresPerDie : Nat := 40
/-- Group slots of a core (R134). -/
def groupSlots : Nat := 64
/-- The slot number under which a core's supervisor lane keeps its lane state (R347); it is no group slot. -/
def laneSlot : Nat := 64
/-- Held stores of the region store buffer (R151). -/
def storeBuffer : Nat := 16
/-- The scratchpad as an object id in store hashes and records (R378). -/
def scratchObj : Nat := 0xFFFFFFFF
/-- Clocks of an epoch step (R67). -/
def epochClocks : Nat := 20
/-- Width of a module physical address (R9). -/
def physBits : Nat := 41

/-- A free 32-bit value: the specification states no value; the argument is the state's counter of free values. -/
opaque freeWord : Nat → BitVec 32
/-- Bank and row of an HBM line of a die (R81: which lines share a bank depends on frame addresses that programs do not see). -/
opaque bankRow : Nat → Nat × Nat
/-- What a line encrypted under one key reads as under another (R402 gives no value): writing key, reading key, whether it is a pool
line, its address, the bytes written and the place of the byte. -/
opaque otherKey : Nat → Nat → Bool → Nat → List (BitVec 8) → Nat → BitVec 8
/-- A free byte string of an attestation signature (R403): the keys are never readable. -/
opaque freeSignature : Nat → List (BitVec 8) → Nat

end Sys2Proof.Config
end

