-- ==== Sys2Proof/Machine/State.lean ====
section
/-!
DEFINITION. The state of the machine, as plain data: every piece of state the specification gives the module, its dies,
cores, teams and groups, and the state right after reset. INVENTORY.md lists each piece with the rule that names it.
-/

namespace Sys2Proof.Machine

/-- Why the machine stops with a fault: nothing raises one. Every address that an instruction can form either is checked, with
the trap that the specification names, or exists: module physical addresses have 41 bits (R9). -/
inductive Fault where
deriving DecidableEq, Repr

/-- Why an instruction has no meaning. -/
inductive Refusal where
  /-- Raised by the dispatch for an instruction that has no meaning yet. Safe. -/
  | notModelled (mnemonic : String)
deriving DecidableEq, Repr

/-- A map from numbers to data, as a list with strictly rising keys; an absent key reads as the reader's default. -/
abbrev FMap (α : Type) := List (Nat × α)

/-- A byte memory in canonical form: rising addresses, no entry equal to what an unlisted address reads as. -/
abbrev Memory := List Host.Cell

/-- A capability (Table 1-1). -/
structure Cap where
  tag    : Bool
  obj    : BitVec 32
  base   : BitVec 44
  len    : BitVec 44
  rights : BitVec 8
deriving DecidableEq, Repr

/-- The null capability (R10). -/
def Cap.null : Cap := ⟨false, 0, 0, 0, 0⟩

/-- A physical quad register: four lanes of 32 bits (R164). -/
structure QReg where
  l0 : Word
  l1 : Word
  l2 : Word
  l3 : Word
deriving DecidableEq, Repr

/-- A fixed-latency result not yet ready (R181, R182). `key` names the register; `old` is what it held before; `astr` says that
a slot of the address stream issued it (R173). -/
structure Pending where
  key     : Nat
  readyAt : Nat
  old     : Option QReg
  astr    : Bool
deriving DecidableEq, Repr

/-- A fixed-latency result of a capability register not yet ready (R181, R272). -/
structure CapPending where
  key     : Nat
  readyAt : Nat
  old     : Cap
  astr    : Bool
deriving DecidableEq, Repr

/-- An entry of a quad's reconvergence stack (R247). -/
structure StackEntry where
  pending : Bool
  pc      : Word
  mask    : BitVec 4
deriving DecidableEq, Repr

/-- What a candidate is parked on; a parked candidate does not issue until its condition ends. -/
inductive Park where
  | none
  /-- A trap record awaits svpost (R342). -/
  | trap (handle : Nat)
  /-- A trap whose record waits for a free record (R346): the sixteen words of the record. -/
  | trapQueue (record : List Word)
  /-- Syscall or software trap records await svpost (R350). -/
  | syscall (handles : List Nat)
  /-- svtake with an empty queue (R351); the class mask. -/
  | svtake (classes : Nat)
  /-- wfi in a kernel group or in the lane (R362). -/
  | wfi
  /-- bar.wait or bar.aw (R259): barrier offset, the phase waited out, the instruction's PC, and whether it arrived first. -/
  | barrier (offset phase : Nat) (pc : Word) (arrived : Bool)
  /-- spbar (R265): span barrier, the phase waited out, and the instruction's PC. -/
  | span (barrier phase : Nat) (pc : Word)
  /-- sqget on an empty queue (R140). -/
  | queueEmpty (queue : Nat)
  /-- sqput on a full queue (R260). -/
  | queueFull (queue : Nat)
  /-- bfence or bwait on a batch (R290). -/
  | batch (number : Nat)
  /-- bfence with eight closed batches outstanding (R290). -/
  | batches
  /-- A copy naming a busy channel (R288). -/
  | channel (n : Nat)
  /-- A matrix operation and a full sequencer queue (R294). -/
  | sequencer
  /-- The special-function unit is busy (R216). -/
  | special
  /-- The reed datapath of the group's pipe is busy (R326). -/
  | reed
  /-- A request parked on a migrating page: the object and the offset (R40). -/
  | migrating (obj off : Nat)
  /-- Held at the order gate of a slice under replay (R377), since a clock, with the gate's place then. -/
  | orderGate (since slice chunks run : Nat)
  /-- An instruction that would start a third region (R151). -/
  | resource
  /-- dcw (R257), or a counter at 63 (R172): mask over the counters and the limit. -/
  | counter (mask limit : Nat)
  /-- Accesses of another scratchpad instruction wait to enter the bank queues (R55), until a clock. -/
  | bank (until_ : Nat)
  /-- A fixed-latency result of the other stream (R173), ready at a clock. -/
  | result (until_ : Nat)
  /-- A lane register that a variable-latency instruction has yet to write (R173): its key in `Regs.late`. -/
  | register (key : Nat)
  /-- extinv, until every receiver of the core's shoot-downs has acknowledged (R361). -/
  | shootdown
  /-- Waits for records or an admission, tried again 64 clocks after `since`; the stall reason. -/
  | retry (since reason : Nat)
  /-- gsave waits until these group slots, or this whole team, can be saved (R356); tried again 64 clocks after `since`. -/
  | saving (since : Nat) (team : Option Nat) (slots : List Nat)
  /-- grest waits until a saved member team of a launch can come back (R136, R357); tried again 64 clocks after `since`. -/
  | restoring (since launch member : Nat)
  /-- A credit group that finds no free physical register (R146), since a clock. -/
  | noRegister (since : Nat)
deriving DecidableEq, Repr

/-- The state of one quad (R129, R130). -/
structure Quad where
  pc         : Word
  mask       : BitVec 4
  stack      : List StackEntry
  member     : Bool
  exited     : Bool
  waiting    : Bool
  park       : Park
  /-- First clock at which the quad's next slot of the compute stream may issue (R180). -/
  stallUntil : Nat
  /-- The same of the address stream (R153, R180). -/
  stallAddr  : Nat
  lastIssue  : Nat
  /-- Clock until which a yield holds the quad (R252); 0 for none. -/
  yieldUntil : Nat
  aged       : Bool
deriving DecidableEq, Repr

/-- A stream's position in one quad (R170). -/
structure StreamPos where
  j0 : Nat
  j1 : Nat
  j2 : Nat
deriving DecidableEq, Repr

/-- One write of a region: the lane, the object (or the scratchpad), offset, width in bytes, kind (R378) and bytes; of a
reduction (kind 4) `op` is its operation: 0 to 7 ared, 16 to 18 fred, 32 to 34 fred into the team's log, and the bytes are
the operand. `gen` is the generation of the object at its descriptor lookup (R106). -/
structure Write where
  lane  : Nat
  obj   : Nat
  off   : Nat
  width : Nat
  kind  : Nat
  op    : Nat
  bytes : List Byte
  gen   : Bool
deriving DecidableEq, Repr

/-- A writing instruction of an uncommitted region (R151, R378): its writes in ascending lane order, where it stands. -/
structure StoreOp where
  writes  : List Write
  /-- Performed already: drained early (R122), or an atomic. -/
  drained : Bool
  pc      : Word
  slots   : Nat
  /-- Dependence counter that it counts on until it is acknowledged (R172); 0 for none. -/
  counter : Nat
  /-- How many of its writes have performed, where its commit waits at an order gate (R377). -/
  done    : Nat
deriving DecidableEq, Repr

/-- A matrix operation as it was checked and queued (R294): 0 mma, 1 mmas, 2 aclr, 3 acpy, 4 scld, 5 wbld; its operand words
as read at issue, the capability of a wbld, the issuing core, group (128 + its id when it is saved) and team, its batch, and the
bytes of a wbld already moved. -/
structure EngineOp where
  kind  : Nat
  words : List Word
  cap   : Cap
  core  : Nat
  group : Nat
  team  : Nat
  batch : Nat
  done  : Nat
  /-- Its place among the operations that its group has handed over (R310). -/
  order : Nat
deriving DecidableEq, Repr

/-- An effect of an instruction that takes place when its region commits. -/
inductive Deferred where
  /-- A queued copy of a channel (R96). -/
  | copy (channel : Nat)
  /-- svpost of a handle with a value (R352). -/
  | svpost (handle : Nat) (value : Word)
  /-- csrw of a control register (R360). -/
  | csrw (number : Nat) (value : Word)
  /-- mcancel of a handle (R264). -/
  | mcancel (handle : Nat)
  /-- unpin of one line (R283). -/
  | unpin (obj line : Nat)
  /-- qput: the packet's words with their capability quanta, the queue object, and the status register's name (R363). -/
  | qput (queue : Nat) (packet : List Byte) (tags : List Nat) (dest : Nat) (lanes : Nat)
  /-- mark (R371). -/
  | mark (value : Nat)
  /-- mstat clears status bits of the team, as the word of s[a] says (R309). -/
  | mstatClear (word : Word) (seen : List Word) (failed : Bool)
  /-- trigger (R252). -/
  | trigger
  /-- thand of a claim slot of the team, or of all of them (R337). -/
  | thand (slot : Nat) (every : Bool)
  /-- tcommit of the four staged registers, for a launch (R336). -/
  | tcommit (launch : Nat) (regs : List Word)
  /-- A matrix operation handed to the sequencer at commit (R294). -/
  | engine (op : EngineOp)
deriving DecidableEq, Repr

/-- A deferred effect with the place of its instruction: PC and retired slots of its region before it; and the dependence
counter that it counts on until it takes place (R172). -/
structure Queued where
  effect  : Deferred
  pc      : Word
  slots   : Nat
  counter : Nat
deriving DecidableEq, Repr

/-- What a region abort restores (R150). -/
structure Snapshot where
  caps      : FMap Cap
  mapped    : List Nat
  wb        : Nat
  lps       : FMap (BitVec 8)
  positions : FMap StreamPos
  kstat     : BitVec 2
  /-- Pending clears of the earlier uncommitted region (R175). -/
  clears    : BitVec 10
  retired   : Word
  zclass    : FMap (BitVec 16)
  zseed     : Word
  staging   : FMap Word
  stagingOn : Bool
  quads     : FMap Quad
  /-- Slots and store instructions of the region up to here: 0, but where it has committed so far in front of an sqget that waits
  (R142). -/
  slots     : Nat
  stores    : Nat
  late      : FMap (Nat × Nat)
deriving DecidableEq, Repr

/-- An uncommitted region (R149 to R151). -/
structure Region where
  serial   : Word
  snap     : Snapshot
  stores   : List StoreOp
  deferred : List Queued
  /-- Registers unmapped by last-read bits in this region, with their content, oldest first; a name may come twice (R166). -/
  freed    : List (Nat × QReg)
  /-- Status bits read in this region, to be cleared at its commit unless they are raised again (R175): [4:0] FPFLAGS, [6:5]
  KSTAT, [8:7] CPSTAT, [9] REGSTAT. -/
  clears   : BitVec 10
  /-- Slots retired since the region's start (R365). -/
  slots    : Nat
  ended    : Bool
deriving DecidableEq, Repr

/-- The register families of a group (R163 to R172). -/
structure Regs where
  /-- Mapped lane registers: key 8 × name + quad. An absent key is an unmapped name (R164). -/
  lanes   : FMap QReg
  pend    : List Pending
  kpend   : List CapPending
  /-- p1 to p7, one bit per lane (R172); p0 has no storage. -/
  preds   : FMap Word
  /-- s0 to s31. -/
  unif    : FMap Word
  /-- k1 to k15; k0 has no storage (R10). -/
  caps    : FMap Cap
  lps     : FMap (BitVec 8)
  wb      : Nat
  /-- dc1 to dc7. -/
  dcs     : FMap Nat
  /-- Stream table: key 8 × entry + word (R170). -/
  streams : FMap Word
  /-- Stream-table entries that stdef has written. -/
  defined : BitVec 8
  /-- Binding of q0 to q3: an absent key is unbound. -/
  binds   : FMap Nat
  /-- Positions: key 8 × quad + entry. -/
  pos     : FMap StreamPos
  /-- Reed registers: key 32 × register + lane, L bits each (R313). -/
  reeds   : FMap Nat
  /-- Class masks of z0 to z7 (R319). -/
  zclass  : FMap (BitVec 16)
  zseed   : Word
  glid    : Word
  /-- Poisoned lane registers: 4 × key of `lanes` + lane of the quad; poisoned reed registers: 8192 + 32 × register + lane (R71, R327). -/
  bad     : List Nat
  /-- Lanes of names that a qput has yet to write: key 32 × name + lane; the qput by its region's serial and its place there (R165,
  R173, R363). -/
  late    : FMap (Nat × Nat)
deriving DecidableEq, Repr

/-- The special registers of a group (R174, R175). -/
structure Specials where
  fpflags  : BitVec 5
  kstat    : BitVec 2
  cpstat   : BitVec 2
  regstat  : Bool
  clockHi  : Word
  retired  : Word
  serial   : Word
deriving DecidableEq, Repr

/-- User-interrupt state (R253). -/
structure UserInt where
  handler   : Word
  payload   : Option Word
  inHandler : Bool
  resume    : Word
  masks     : FMap (BitVec 4)
  s30       : Word
  /-- Barrier and span arrivals that have performed and whose waits were abandoned, by an interrupt or a save: the waiting
  instruction, executed again, only waits (R255, R266). -/
  waits     : List Park
deriving DecidableEq, Repr

/-- Batch counters of a group (R290, R310). -/
structure Batches where
  opened  : Nat
  /-- Outstanding engine operations of each batch. -/
  live    : FMap Nat
  /-- Failure code of each failed batch, not yet reported. -/
  failed  : FMap Nat
  /-- Place in hand-over order of the operation that such a failure is of (R310). -/
  failedAt : FMap Nat
  /-- Operations handed over. -/
  handed  : Nat
deriving DecidableEq, Repr

/-- Truss staging copy (R336). -/
structure Staging where
  regs  : FMap Word
  valid : Bool
deriving DecidableEq, Repr

/-- Counters and debug state of a group (R369, R372, R373, R378). -/
structure Stats where
  stalls    : FMap Nat
  issued    : Nat
  resident  : Nat
  start     : Nat
  saves     : Nat
  committed : Nat
  total     : Nat
  hash      : BitVec 64
  stopped   : Bool
  stopCode  : Nat
  stopAll   : Bool
  stopS     : Word
  stopN     : Nat
  stopNum   : Nat
  limit     : Option Nat
  /-- Clock since which the commit of the first region waits at an order gate (R377). -/
  gate      : Option Nat
  /-- The next slot issues past a breakpoint it stopped at (R369). -/
  skipBreak : Bool
  /-- A slot of the group has issued in this clock. -/
  issuedNow : Bool
  /-- The stall reason charged in the clock before; 0 where the group issued (R374). -/
  charged   : Nat
deriving DecidableEq, Repr

/-- Registers that an instruction reads and writes, by number (`usesOf`). -/
structure Uses where
  reads  : List Nat
  writes : List Nat
deriving DecidableEq, Repr

/-- A slot of the address stream that has issued ahead of the compute stream (R153): its PC, the PC after it, and of a load what it has
read. -/
structure Ahead where
  pc    : Word
  next  : Word
  load  : Bool
  spots : List Write
deriving DecidableEq, Repr

/-- How far the address stream of a group is ahead: the slots that have issued, and the first clock at which the next is tried. -/
structure RunAhead where
  slots : List Ahead
  after : Nat
deriving DecidableEq, Repr

/-- A group in its slot (R134); the slot `Config.laneSlot` holds the core's supervisor lane (R347). -/
structure Group where
  resident : Bool
  /-- Supervisor mode (R157). -/
  super    : Bool
  role     : Nat
  nquad    : Nat
  pipe     : Nat
  credit   : Bool
  launch   : Nat
  team     : Nat
  wg       : Word
  trigger  : Bool
  quads    : FMap Quad
  regs     : Regs
  spec     : Specials
  regions  : List Region
  user     : UserInt
  batch    : Batches
  staging  : Staging
  stats    : Stats
  /-- Lanes of an instruction held at an order gate whose operations have been applied (R377): its PC and what each returned. -/
  gated    : FMap (Nat × List Byte)
  ahead    : RunAhead
deriving DecidableEq, Repr

/-- A barrier's tracking entry (R258). -/
structure Barrier where
  offset   : Nat
  phase    : Nat
  members  : List Nat
  arrived  : List Nat
deriving DecidableEq, Repr

/-- A stage queue (R139, R260). -/
structure StageQueue where
  depth   : Nat
  offset  : Nat
  put     : Nat
  removed : Nat
deriving DecidableEq, Repr

/-- A span barrier (R265). -/
structure SpanBarrier where
  g        : Nat
  phase    : Nat
  arrivals : FMap Nat
deriving DecidableEq, Repr

/-- A claim slot in use (R333): origin grain, four extents, mask of the grains granted, epoch; revoked by a hand-back. -/
structure Claim where
  origin  : Nat
  extents : List Nat
  mask    : Nat
  epoch   : Word
  revoked : Bool
deriving DecidableEq, Repr

/-- One entry of a team's ordered-reduction log (R277): reserved at issue by a group, in the region of a serial, and filled at
that region's commit. -/
structure FredEntry where
  obj    : Nat
  off    : Nat
  op     : Nat
  value  : Word
  filled : Bool
  slot   : Nat
  serial : Word
deriving DecidableEq, Repr

/-- A resident team (R135). -/
structure Team where
  launch    : Nat
  tl        : Nat
  gx        : Nat
  gy        : Nat
  gz        : Nat
  spanRow   : Nat
  spanCol   : Nat
  /-- Core of the span leader. -/
  leader    : Nat
  scratch   : Nat
  size      : Nat
  regReserve : Nat
  barriers  : List Barrier
  queues    : FMap StageQueue
  spans     : FMap SpanBarrier
  claims    : FMap Claim
  ordinal   : Nat
  cursor    : Nat
  lastEpoch : Word
  acc0      : Bool
  acc1      : Bool
  weights   : Bool
  wbHigh    : Nat
  ops       : List EngineOp
  status    : FMap Word
  fredlog   : List FredEntry
deriving DecidableEq, Repr

/-- A soft error that waits in an engine memory for its reader (R87, R91, R305): `kind` 0 an ECC group of the accumulators
(64 × row + column / 4), 1 a word of 8 bytes of the weight buffer, 2 an entry of scale memory; `hard` when it cannot be
corrected. -/
structure Upset where
  kind : Nat
  loc  : Nat
  hard : Bool
deriving DecidableEq, Repr

/-- A copy channel (R93 to R102). -/
structure Channel where
  desc   : List Word
  src    : Cap
  dst    : Cap
  group  : Nat
  team   : Nat
  batch  : Nat
  /-- 0 idle, 1 queued awaiting commit, 2 running, 3 held on a page fault (Table 4-4). -/
  state  : Nat
  fault  : Bool
  nvst   : Nat
  wp     : Nat
  /-- The group that issued it, as its stores name it (R98); zeros when that group has ended. -/
  owner  : Nat × Nat × Nat
  /-- Bytes delivered: for a storage read, of the contiguous prefix (R97). -/
  got    : Nat
  /-- Data read and not yet written, and how many of their pieces are written: where a held copy goes on (R102). -/
  buf    : List Byte
  pieces : Nat
deriving DecidableEq, Repr

/-- What the object descriptor cache keeps of an entry (R29). -/
structure Desc where
  id      : Nat
  kind    : Nat
  spread  : Bool
  die     : Nat
  pg4m    : Bool
  gen     : Bool
  shopen  : Bool
  xe      : Bool
  length  : Nat
  tenant  : Nat
  pqc     : Nat
  mapgen  : Nat
deriving DecidableEq, Repr

/-- A step that is to occur before the next slot issues, with what reaches it. -/
structure Due where
  instr : Instr
  event : Event
deriving DecidableEq, Repr

/-- A request that a core has given to the loops and that is unanswered (R404): how often it was sent again, since when it waits, whether its
line is of the pool, who asks (0 a group, 1 a channel, 2 the sequencer) and its number, the line and lane, and the step that sends it
again. -/
structure Asked where
  tries : Nat
  since : Nat
  pool  : Bool
  src   : Nat
  unit  : Nat
  obj   : Nat
  off   : Nat
  lane  : Nat
  again : Due
deriving DecidableEq, Repr

/-- A line of a cache slice (R61). `part` is the partition whose object it is; `pqc` is the quota class of its pin; `bad` says that
its data are poisoned by an uncorrectable error (R71). -/
structure Line where
  part    : Nat
  pqc     : Nat
  obj     : Nat
  index   : Nat
  gen     : Bool
  guest   : Bool
  epoch   : Nat
  zero    : Bool
  dirty   : Bool
  pinned  : Bool
  pool    : Bool
  tags    : BitVec 8
  /-- Quanta whose set tag a store cleared while the line was here, with the launch, team and group that stored (KDROP, R19). -/
  drops   : FMap (Nat × Nat × Nat)
  sharers : List Nat
  bad     : Bool
  data    : List Byte
deriving DecidableEq, Repr

/-- A line of a core's L1 (R59, R61); `dirty` is never set (R64). A pinned line that a store of another core has invalidated keeps
its way and its pin (R70) and is not `valid`; `team` is the team that pinned it; `bad` is an uncorrectable error (R71). -/
structure L1Line where
  obj    : Nat
  index  : Nat
  gen    : Bool
  guest  : Bool
  epoch  : Nat
  zero   : Bool
  dirty  : Bool
  pinned : Bool
  team   : Nat
  valid  : Bool
  tags   : BitVec 8
  bad    : Bool
  data   : List Byte
deriving DecidableEq, Repr

/-- An extent-cache entry (R34). -/
structure Extent where
  part   : Nat
  obj    : Nat
  shadow : Bool
  page   : Nat
  pg4m   : Bool
  entry  : BitVec 64
  /-- Physical address of the page entry, for the compare-and-set of R33. -/
  source : Nat
deriving DecidableEq, Repr

/-- A walk in flight (R35): partition, object, page, the MAPGEN read first, stale mark, and the requests that wait for it. -/
structure Walk where
  part   : Nat
  obj    : Nat
  off    : Nat
  shadow : Bool
  mapgen : Nat
  stale  : Bool
  asking : List Event
deriving DecidableEq, Repr

/-- A request parked on a migrating page of an object (R40): the step by which it walks again; none for a request of an instruction
or a fetch, whose candidate waits and issues again: its core, its group slot and the offset. -/
structure Parked where
  part : Nat
  obj  : Nat
  step : Option Due
  core : Nat
  slot : Nat
  off  : Nat
deriving DecidableEq, Repr

/-- An atomic-unit request (R77): its core, group and request tag (R404), its partition, its place in the order of arrival at its
slice, the requests merged into it: core, group, tag (R78), and whether its launch runs in record or replay mode, where it may not
merge (R375). -/
structure AtomicReq where
  core  : Nat
  group : Nat
  tag   : Nat
  part  : Nat
  order : Nat
  obj   : Nat
  off   : Nat
  width : Nat
  op    : Nat
  value : Nat
  taken : List (Nat × Nat × Nat)
  logged : Bool
deriving DecidableEq, Repr

/-- What a slice keeps of a launch's replay log (R376, R377): the group of the run, its count, the chunks written or
consumed, and the overflow flag. -/
structure RunLog where
  wg       : Nat
  run      : Nat
  chunks   : Nat
  overflow : Bool
deriving DecidableEq, Repr

/-- A cache slice with its port and atomic unit. -/
structure Slice where
  /-- Lines, least recently used first. -/
  lines    : List Line
  extents  : List Extent
  walks    : List Walk
  /-- Misses that wait for a free walker (R35). -/
  missed   : List Event
  /-- Requests parked at the port, at most 32, and those that wait at the slice beyond them (R40). -/
  parked   : List Parked
  waiting  : List Parked
  queue    : List AtomicReq
  /-- Requests that have reached the atomic unit. -/
  arrivals : Nat
  reserved : List Nat
  /-- Entries granted to cores that have not come back, each until a clock. -/
  granted  : List (Nat × Nat)
  lastCore : Nat
  /-- Replay logs by launch. -/
  logs     : FMap RunLog
  /-- Opener of a shadow whose entry is homed here: object, core, group, serial (R291). -/
  openers  : FMap (Nat × Nat × Nat)
deriving DecidableEq, Repr

/-- A flit on or beside a spar loop (R74, R75, R79), with the fields of its header. -/
structure Flit where
  id       : Nat
  /-- Packet type: 0 data, 1 reduction, 2 line read request, 3 its reply, 4 store. -/
  kind     : Nat
  tenant   : Nat
  /-- Group context: partition, core and slot of its group. -/
  part     : Nat
  core     : Nat
  group    : Nat
  obj      : Nat
  off      : Nat
  size     : Nat
  op       : Nat
  /-- Per-port ordinal of a stream's write, one up (R47); 0 for none. -/
  ordinal  : Nat
  /-- Phase bit of its circuit (R76). -/
  phase    : Nat
  payload  : List Byte
  /-- Its loop: 2 × pair + 1 for L−. -/
  loop     : Nat
  position : Nat
  /-- Position of the stop at which it leaves the loop. -/
  target   : Nat
  /-- Die and stop of its source and of its destination. -/
  srcDie   : Nat
  src      : Nat
  destDie  : Nat
  dest     : Nat
  /-- On the loop, or waiting to inject since a clock. -/
  onLoop   : Bool
  since    : Nat
  /-- It uses a circuit (R76). -/
  circuit  : Option Nat
  /-- The reduction that it carries (R78). -/
  red      : Option AtomicReq
  /-- Request tag (R404), 0 for none; what a reply says of its line, or who asks: 0 a group, 1 a channel, 2 a sequencer, its number, the lane. -/
  tag      : Nat
  info     : List Nat
deriving DecidableEq, Repr

/-- A reserved circuit (R76). -/
structure Circuit where
  id     : Nat
  loop   : Nat
  phase  : Nat
  stops  : List Nat
  count  : Nat
  idle   : Nat
deriving DecidableEq, Repr

/-- A merge entry of a loop stop (R78): the merged reduction, whose value is the combined one, and the flit that carries it on, if it
is not at its home slice. -/
structure MergeEntry where
  stop : Nat
  req  : AtomicReq
  via  : Option Flit
deriving DecidableEq, Repr

/-- One firmware-core lane (R382, R389). -/
structure FwLane where
  qid     : Word
  cfg     : BitVec 5
  journal : Word
  /-- Held by a WAIT or a PUBLISH (R389). -/
  waiting : Bool
  /-- Its COPY packet runs on the firmware copy engine (R388). -/
  copying : Bool
  /-- Where HEAD goes when the step ends, its packet finished (R389). -/
  next    : Option Nat
deriving DecidableEq, Repr

/-- A debug-stop record held by the trace and debug stop (R368). -/
structure StopRecord where
  core  : Nat
  group : Nat
  words : List Word
deriving DecidableEq, Repr

/-- Trace and debug registers of a die (Table 17-1) and its breakpoints (Table 17-2). -/
structure Debug where
  ctl    : Word
  cmd    : Word
  tgt    : Word
  trbase : Word
  trsize : Word
  trhead : Word
  trlost : Word
  trtail : Word
  /-- Breakpoint words: key 8 × entry + word. -/
  bps    : FMap Word
  stops  : List StopRecord
  sample : FMap Nat
deriving DecidableEq, Repr

/-- One compute die. -/
structure Die where
  epoch     : Nat
  slices    : FMap Slice
  lanes     : FMap FwLane
  booting   : Bool
  fallback  : Bool
  heartbeat : Nat
  fredState : Nat
  fredLeft  : Nat
  fredLid   : Nat
  serial    : Nat
  splitErrs : Nat
  coreStops : List (Nat × Nat × Nat × Nat)
  dbg       : Debug
  flits     : List Flit
  circuits  : List Circuit
  merges    : List MergeEntry
  yields    : List Nat
  /-- Ejection buffers: key 32 × loop + position (R75). -/
  ejects    : FMap (List Flit)
  /-- Clock of the last use of a link, and of the last ejection, at a position of a loop, same key (R72, R75). -/
  linkUse   : FMap Nat
  ejectUse  : FMap Nat
  /-- Clock of the last flit that entered a loop at a position, same key (R76, R80). -/
  enterUse  : FMap Nat
  /-- Open row of each bank, with the clock of its last access (R81). -/
  rows      : FMap (Nat × Nat)
  /-- Reverse-map entries that the hub has cached, least recently used first: partition, frame, entry (R45). -/
  reverse   : List (Nat × Nat × Nat)
  linkDrop  : FMap Nat
  linkCrc   : FMap Nat
  /-- Machine checks that the firmware core has received of slices with an error in a tag or a sharer vector: slice, object, line
  (R71). -/
  checks    : List (Nat × Nat × Nat)
deriving DecidableEq, Repr

/-- A posted receive (R263). -/
structure Receive where
  team    : Nat
  group   : Nat
  cap     : Nat
  anySrc  : Bool
  src     : Nat
  tag     : Word
  tmask   : Word
  buf     : Nat
  order   : Nat
  /-- Complete, and from which core. -/
  done    : Option Nat
deriving DecidableEq, Repr

/-- State of one record of the supervisor queue (R346). -/
inductive RecState where
  | free
  | pending
  /-- Taken by a group slot (or the lane, slot 64), in the region of that serial. -/
  | taken (slot : Nat) (serial : Word)
deriving DecidableEq, Repr

/-- What the hardware keeps beside a record's bytes: its state, its place in the order (the clock in which it was written, within the
clock the group id, R364), its owner and class. -/
structure RecMeta where
  state : RecState
  order : Nat
  cls   : Nat
  src   : Nat
  unit  : Nat
  slot  : Nat
  lane  : Nat
  dest  : Bool
deriving DecidableEq, Repr

/-- A record of a source that is no group, waiting for a free record of the queue (R346): its words and what goes beside. -/
structure HeldRecord where
  words : List Word
  data  : RecMeta
deriving DecidableEq, Repr

/-- Supervisor-lane registers (Table 16-5). -/
structure LaneRegs where
  ie     : Bool
  epc    : Word
  vec    : Word
  cause  : BitVec 7
  ien    : BitVec 7
  cmpLo  : Word
  cmpHi  : Word
deriving DecidableEq, Repr

/-- One core. -/
structure Core where
  running   : Bool
  /-- The core has stopped (R345): lane PC, class, code. -/
  stopped   : Option (Word × Nat × Nat)
  part      : Nat
  poolsplit : Word
  sbcheck   : BitVec 2
  groups    : FMap Group
  teams     : FMap Team
  scratch   : Memory
  acc       : FMap (BitVec 36)
  weights   : Memory
  scales    : FMap Word
  upsets    : List Upset
  reserve   : Memory
  records   : FMap RecMeta
  recOrder  : Nat
  lane      : LaneRegs
  channels  : FMap Channel
  mseqHeld  : Bool
  mseqGroup : Nat
  l1        : List L1Line
  /-- Instruction-cache lines, least recently used first: key 2^37 × object + line index (R1, R65). -/
  icache    : List (Nat × List Byte)
  descs     : List Desc
  receives  : FMap Receive
  rxOrder   : Nat
  /-- Tag-match overflow entries in use: entry to arrival order (their bytes lie in the reserve). -/
  overflow  : FMap Nat
  arrivals  : Nat
  /-- Messages refused for want of overflow entries, to be sent again, in arrival order (R262, R263). -/
  refused   : List Event
  /-- Records that wait for a free record (R346). -/
  heldRecs  : List HeldRecord
  /-- Outcomes of applied requests by request tag, kept until the source acknowledges (R404). -/
  outcomes  : FMap Nat
  /-- Reductions on the loops that have had no answer, by request tag: how often each was sent again, and the request (R83). -/
  asked     : FMap Asked
  /-- Clock at which each scratchpad bank's queue is empty, and from which the memory unit takes the next access (R54, R55). -/
  banks     : FMap Nat
  bankHold  : Nat
  /-- Scratchpad words of 8 bytes whose data are poisoned (R71). -/
  badWords  : List Nat
  /-- Acknowledgements of shoot-downs that the core awaits (R36). -/
  shoot     : Nat
  /-- Clock from which the special-function unit is free (R216). -/
  sfuFree   : Nat
  /-- Clock from which each gang pipe's reed datapath is free (R326). -/
  reedFree  : FMap Nat
deriving DecidableEq, Repr

/-- Registers of a partition (Table 1-7, Tables 2-6, 3-4 and 3-5). -/
structure Partition where
  exist    : Bool
  cores    : List Nat
  ranges   : List (Nat × Nat)
  tenants  : List Nat
  otbase   : Word
  otlen    : Word
  zbbase   : Word
  prmbase  : Word
  prmlen   : Word
  pinquota : FMap Word
  pinuse   : FMap Word
  /-- Its ports, by the numbers of links (R401). -/
  ports    : List Nat
deriving DecidableEq, Repr

/-- A role of a launch (Table 6-1). -/
structure Role where
  entry : Word
  quads : Nat
  max   : Nat
  min   : Nat
  peak  : Nat
  inq   : Option Nat
  outq  : Option Nat
deriving DecidableEq, Repr

/-- A signal field (R387): its capability, offset and value. -/
structure Signal where
  cap   : Cap
  off   : Nat
  value : Word
deriving DecidableEq, Repr

/-- A truss declaration and its live registers (R328, R330). -/
structure Truss where
  ndims    : Nat
  extents  : List Nat
  grains   : List Nat
  coverage : Cap
  ord      : Word
  tile     : Word
  walk     : Word
  place    : Word
  epoch    : Word
  cfail    : Bool
deriving DecidableEq, Repr

/-- A group of a launch that is saved in memory (R146, R356): its coordinates, with its team among those of the launch, what its
team keeps of it, whether the hardware brings it back (a credit eviction), and whether its whole team is saved. -/
structure Away where
  tl      : Nat
  g       : Nat
  member  : Nat
  core    : Nat
  team    : Nat
  role    : Nat
  pipe    : Nat
  trigger : Bool
  batch   : Batches
  credit  : Bool
  whole   : Bool
deriving DecidableEq, Repr

/-- An accepted launch (R390). -/
structure Launch where
  bundle    : Nat
  index     : Nat
  lane      : Nat
  die       : Nat
  part      : Nat
  code      : Cap
  roles     : FMap Role
  gridX     : Nat
  gridY     : Nat
  gridZ     : Nat
  dieMask   : Nat
  spCols    : Nat
  spRows    : Nat
  split     : Word
  scratch   : Nat
  receives  : Nat
  barriers  : Nat
  queues    : FMap (Nat × Nat)
  nz        : Nat
  reedLen   : Nat
  matrix    : Nat
  truss     : Option Truss
  tuner     : Option Nat
  args      : FMap Cap
  words     : List Word
  record    : Option Cap
  flags     : Word
  fredlog   : Nat
  replay    : Option Cap
  hasharea  : Option (Cap × Nat)
  save      : Option (Cap × Nat)
  depends   : List Signal
  trigger   : Option Signal
  done      : Option Signal
  /-- Reason that a hlt reported (R362). -/
  reason    : Nat
  /-- Groups saved in memory. -/
  away      : List Away
  /-- Teams admitted so far, and teams whose every group has ended. -/
  admitted  : Nat
  finished  : Nat
  triggered : Nat
  trigSent  : Bool
  status    : Nat
  /-- Ordered-reduction logs of finished teams: TL to entries (R278). -/
  logs      : FMap (List FredEntry)
  /-- Ordered-reduction logs of saved teams. -/
  savedLogs : FMap (List FredEntry)
  /-- The queue object that it came from (R440). -/
  queue     : Nat
deriving DecidableEq, Repr

/-- A bundle in a die's placement pool or placed (R391, R392). -/
structure Bundle where
  die      : Nat
  lane     : Nat
  launches : List Nat
  age      : Nat
  /-- Clock since which the bundle has been satisfied and unplaceable. -/
  since    : Option Nat
  placed   : Bool
  blocking : Bool
  retired  : Bool
  aborted  : Bool
  status   : Nat
  /-- The reason that a hlt of a launch reported (R362). -/
  reason   : Nat
deriving DecidableEq, Repr

/-- How far a piece of an external write is (R47, R49): on its way to its port, acknowledged, parked there at a migrating page, or
back at the hub after a fault, to be sent again. -/
inductive SentState where
  | sent
  | applied
  | parked
  | failed
deriving DecidableEq, Repr

/-- A piece, within one line, of a write that a hub has released: its number, object, offset and bytes, its home port (16 × die +
slice; from 128 on the hub of a die, for a doorbell) and ordinal there (R47). -/
structure Sent where
  number  : Nat
  obj     : Nat
  off     : Nat
  bytes   : List Byte
  port    : Nat
  ordinal : Nat
  state   : SentState
deriving DecidableEq, Repr

/-- An external stream (R46, R47). -/
structure Stream where
  cfg      : Word
  wmark    : Word
  expected : Word
  /-- Writes buffered in the reorder window: sequence number, object, offset, bytes. -/
  buffered : List (Nat × Nat × Nat × List Byte)
  /-- Pieces of the writes released to the ports and not yet covered by WMARK, in the order of release. -/
  released : List Sent
  /-- Next ordinal of each port. -/
  ordinals : FMap Nat
deriving DecidableEq, Repr

/-- A hub window entry (R406). -/
structure Window where
  part   : Nat
  obj    : Nat
  base   : Nat
  length : Nat
  stream : Nat
deriving DecidableEq, Repr

/-- Fuses of the module (R398, R403): the rollback counter, the debug locks, the digest of the public key. -/
structure Fuses where
  rollback : Nat
  lock     : Nat
  key      : Nat
deriving DecidableEq, Repr

/-- A partition of the firmware configuration (R398, R401): what PARTITION_CREATE takes, the entries of the kernel image's objects, and the
kernel's packets: queue object, bytes, and the quanta that hold the capabilities minted for them. -/
structure Plan where
  unit    : Nat
  cores   : List Nat
  ranges  : List (Nat × Nat)
  tenant  : Nat
  ports   : List Nat
  otbase  : Word
  otlen   : Word
  entries : List (Nat × List Byte)
  packets : List (Nat × List Byte × List Nat)
deriving DecidableEq, Repr

/-- Boot status and management state (R398 to R403). -/
structure Boot where
  stage    : Nat
  slot     : Nat
  code     : Nat
  unit     : Nat
  ready    : Bool
  safe     : Bool
  version  : Nat
  measures : FMap Nat
  keys     : List Nat
  answer   : Word
  report   : List Byte
  /-- The units that a self-test or a stage found failing: unit, stage, code (R400). -/
  failing  : List (Nat × Nat × Nat)
  fuses    : Fuses
  plans    : List Plan
  /-- D0's storage port is a host's endpoint, by the configuration of the firmware (R406). -/
  host     : Bool
deriving DecidableEq, Repr

/-- The slot being issued: its core, slot, the issuing quads, PC, control field and literal (R176, R177). -/
structure Issue where
  core    : Nat
  slot    : Nat
  quads   : List Nat
  pc      : Word
  nextPc  : Word
  ctl     : BitVec 10
  litCtl  : Bool
  lmap    : Nat
  literal : Option Nat
deriving DecidableEq, Repr

/-- The machine. -/
structure State where
  clock      : Nat
  frozen     : Bool
  scanned    : Bool
  boot       : Boot
  hbm        : Memory
  /-- Numbers of the 16-byte quanta of HBM whose tag is set, rising. -/
  tags       : List Nat
  pool       : Memory
  /-- Poisoned HBM lines (physical line numbers), rising. -/
  poison     : List Nat
  /-- Poisoned pool lines (line numbers of the pool), rising (R71, R45). -/
  poolPoison : List Nat
  /-- The key under which a line was written, if a tenant's (R402); at 2 × HBM line number, or 2 × pool line number + 1. -/
  lineKeys   : FMap Nat
  partitions : FMap Partition
  cores      : FMap Core
  dies       : FMap Die
  launches   : FMap Launch
  bundles    : FMap Bundle
  streams    : FMap Stream
  windows    : List Window
  /-- External links that are down. -/
  linksDown  : List Nat
  /-- MODEL'S OWN: steps that occur before the next slot issues, oldest first. -/
  due        : List Due
  /-- MODEL'S OWN: where the choice of the next core and pipe goes on. -/
  turn       : Nat
  /-- MODEL'S OWN: how many free values have been drawn. -/
  free       : Nat
  /-- MODEL'S OWN: the issue latch. -/
  cur        : Issue
  /-- MODEL'S OWN: the event latch. -/
  ev         : Event
deriving DecidableEq, Repr

def QReg.zero : QReg := ⟨0, 0, 0, 0⟩

def Quad.fresh (pc : Word) : Quad :=
  ⟨pc, 0xF, [], true, false, false, .none, 0, 0, 0, 0, false⟩

def Snapshot.empty : Snapshot := ⟨[], [], 0, [], [], 0, 0, 0, [], 0, [], false, [], 0, 0, []⟩

def Regs.fresh : Regs := ⟨[], [], [], [], [], [], [], 0, [], [], 0, [], [], [], [], 0, 0, [], []⟩

def Specials.fresh : Specials := ⟨0, 0, 0, false, 0, 0, 0⟩

def UserInt.fresh : UserInt := ⟨0xFFFFFFFF, none, false, 0, [], 0, []⟩

def Batches.fresh : Batches := ⟨1, [], [], [], 0⟩

def Stats.fresh (clock : Nat) : Stats := ⟨[], 0, 0, clock, 0, 0, 0, 0, false, 0, false, 0, 0, 0, none, none, false, false, 0⟩

/-- A group slot that holds no group. -/
def Group.vacant : Group :=
  ⟨false, false, 0, 1, 0, false, 0, 0, 0, false, [], Regs.fresh, Specials.fresh, [], UserInt.fresh, Batches.fresh,
    ⟨[], false⟩, Stats.fresh 0, [], ⟨[], 0⟩⟩

def Team.empty : Team :=
  ⟨0, 0, 0, 0, 0, 0, 0, 0, 0, 0, 0, [], [], [], [], 0, 0, 0, false, false, false, 0, [], [], []⟩

def Channel.idle : Channel := ⟨[], Cap.null, Cap.null, 0, 0, 0, 0, false, 0, 0, (0, 0, 0), 0, [], 0⟩

/-- A slice with nothing in it. Before the first grant of its atomic unit the last core granted counts as core 0 (R77 states no
first one: DESIGN CHOICE, entry 59). -/
def Slice.empty : Slice := ⟨[], [], [], [], [], [], [], 0, [], [], 0, [], []⟩

def FwLane.unmapped : FwLane := ⟨0, 0, 0xFFFFFFFF, false, false, none⟩

def Debug.reset : Debug := ⟨0, 0, 0, 0, 0, 0, 0, 0, [], [], []⟩

/-- A die right after reset. -/
def Die.reset : Die :=
  ⟨0, [], [], false, false, 0, 0, 0, 0, 0, 0, [], Debug.reset, [], [], [], [], [], [], [], [], [], [], [], [], []⟩

/-- Table 16-5 reset values. -/
def LaneRegs.reset : LaneRegs := ⟨false, 0, 0, 0, 0, 0xFFFFFFFF, 0xFFFFFFFF⟩

def RecMeta.free : RecMeta := ⟨.free, 0, 0, 0, 0, 0, 0, false⟩

/-- A core right after reset: held, empty, POOLSPLIT 0x3448 (Table 3-1). -/
def Core.reset : Core :=
  ⟨false, none, 0, 0x3448, 0, [], [], [], [], [], [], [], [], [], 0, LaneRegs.reset, [], false, 0, [], [], [], [], 0, [], 0, [], [], [], [], [], 0, [], 0, 0, []⟩

/-- A partition that does not exist (R401), its registers at their reset values. -/
def Partition.reset : Partition := ⟨false, [], [], [], 0, 0, 0, 0, 0, [], [], []⟩

/-- A stream right after reset (Tables 2-8 and 2-9). -/
def Stream.reset : Stream := ⟨0, 0xFFFFFFFF, 0, [], [], []⟩

def Launch.empty : Launch :=
  ⟨0, 0, 0, 0, 0, Cap.null, [], 1, 1, 1, 0, 1, 1, 0x3448, 0, 0, 0, [], 0, 128, 0, none, none, [], [], none, 0, 0, none, none,
    none, [], none, none, 0, [], 0, 0, 0, false, 0, [], [], 0⟩

def Bundle.empty : Bundle := ⟨0, 0, [], 0, none, false, false, false, false, 0, 0⟩

/-- Boot right after power-on: stage 0x1, slot 0xF (R399). -/
def Boot.reset : Boot := ⟨1, 0xF, 0, 0, false, false, 0, [], [], 0, [], [], ⟨0, 0, 0⟩, [], false⟩

def Issue.none : Issue := ⟨0, 0, [], 0, 0, 0, false, 0, Option.none⟩

/-- The machine right after reset. -/
def State.reset : State :=
  ⟨0, false, false, Boot.reset, [], [], [], [], [], [], [], [], [], [], [], [], [], [], [], 0, 0, Issue.none, {}⟩

end Sys2Proof.Machine
end

