-- ==== Sys2Proof/Machine/Ops.lean ====
section
/-!
DEFINITION. The named operations over maps, memories, groups and regions, and taking an exception: the abort of regions
(spec/06 R152), the trap record (spec/16 R342 to R346) and the parking of the group, as one shared operation.
-/

namespace Sys2Proof.Machine

/-! ### Maps -/

/-- The datum under a key, or the given default. -/
def lookup {α : Type} (m : FMap α) (k : Nat) (d : α) : α :=
  match m with
  | [] => d
  | (j, v) :: r => if j = k then v else lookup r k d

/-- Whether a key is listed. -/
def hasKey {α : Type} (m : FMap α) (k : Nat) : Bool := m.any (fun e => e.1 == k)

/-- The datum under a key, if listed. -/
def find? {α : Type} (m : FMap α) (k : Nat) : Option α :=
  match m with
  | [] => none
  | (j, v) :: r => if j = k then some v else find? r k

/-- The map with `v` under `k`, keys rising. -/
def insertKey {α : Type} (m : FMap α) (k : Nat) (v : α) : FMap α :=
  match m with
  | [] => [(k, v)]
  | (j, w) :: r => if k < j then (k, v) :: (j, w) :: r else if j = k then (k, v) :: r else (j, w) :: insertKey r k v

/-- The map without a key. -/
def eraseKey {α : Type} (m : FMap α) (k : Nat) : FMap α :=
  match m with
  | [] => []
  | (j, w) :: r => if j = k then r else (j, w) :: eraseKey r k

/-- The lowest number below `n` that is no key. -/
def lowestFree {α : Type} (m : FMap α) (n : Nat) : Option Nat := (upTo n).find? (fun k => !hasKey m k)

/-! ### Memories -/

/-- What a byte that nothing has written reads as (DESIGN CHOICE, entry 1). -/
def unlistedByte : Byte := 0

/-- Read one byte. -/
def memRead (m : Memory) (a : Nat) : Byte := lookup m a unlistedByte

/-- Write one byte, keeping the canonical form. -/
def memWrite (m : Memory) (a : Nat) (b : Byte) : Memory :=
  if b = unlistedByte then eraseKey m a else insertKey m a b

/-- The canonical form: addresses strictly rising, no entry equal to what an unlisted address reads as. -/
def Memory.wf (m : Memory) : Bool :=
  match m with
  | [] => true
  | (_, b) :: [] => b != unlistedByte
  | (a, b) :: (a', b') :: r => b != unlistedByte && decide (a < a') && Memory.wf ((a', b') :: r)

/-- Read `n` bytes from `a`, lowest first. -/
def memBytes (m : Memory) (a : Nat) : Nat → List Byte
  | 0 => []
  | n + 1 => memRead m a :: memBytes m (a + 1) n

/-- Write bytes from `a`, lowest first. -/
def memPut (m : Memory) (a : Nat) : List Byte → Memory
  | [] => m
  | b :: bs => memPut (memWrite m a b) (a + 1) bs

/-- A little-endian number of `n` bytes at `a`. -/
def memNat (m : Memory) (a n : Nat) : Nat := leNat (memBytes m a n)

/-- Remove every entry of `[a, a + n)`: those bytes read as unlisted. -/
def memClear (m : Memory) (a n : Nat) : Memory := m.filter (fun c => !(decide (a ≤ c.1) && decide (c.1 < a + n)))

/-- A rising list of numbers with one more. -/
def insertNat (l : List Nat) (n : Nat) : List Nat :=
  match l with
  | [] => [n]
  | m :: r => if n < m then n :: m :: r else if n = m then m :: r else m :: insertNat r n

/-! ### Accessors -/

def getCore (s : State) (c : Nat) : Core := lookup s.cores c Core.reset
def setCore (s : State) (c : Nat) (k : Core) : State := { s with cores := insertKey s.cores c k }
def getDie (s : State) (d : Nat) : Die := lookup s.dies d Die.reset
def setDie (s : State) (d : Nat) (k : Die) : State := { s with dies := insertKey s.dies d k }
def getPart (s : State) (p : Nat) : Partition := lookup s.partitions p Partition.reset
def setPart (s : State) (p : Nat) (k : Partition) : State := { s with partitions := insertKey s.partitions p k }
def getGroup (s : State) (c g : Nat) : Group := lookup (getCore s c).groups g Group.vacant
def setGroup (s : State) (c g : Nat) (k : Group) : State :=
  let q := getCore s c
  setCore s c { q with groups := insertKey q.groups g k }
def getTeam (s : State) (c t : Nat) : Team := lookup (getCore s c).teams t Team.empty
def setTeam (s : State) (c t : Nat) (k : Team) : State :=
  let q := getCore s c
  setCore s c { q with teams := insertKey q.teams t k }
def getLaunch (s : State) (l : Nat) : Launch := lookup s.launches l Launch.empty
def setLaunch (s : State) (l : Nat) (k : Launch) : State := { s with launches := insertKey s.launches l k }
def getBundle (s : State) (l : Nat) : Bundle := lookup s.bundles l Bundle.empty
def setBundle (s : State) (l : Nat) (k : Bundle) : State := { s with bundles := insertKey s.bundles l k }
def getStream (s : State) (i : Nat) : Stream := lookup s.streams i Stream.reset
def setStream (s : State) (i : Nat) (k : Stream) : State := { s with streams := insertKey s.streams i k }
def getSlice (s : State) (d z : Nat) : Slice := lookup (getDie s d).slices z Slice.empty
def setSlice (s : State) (d z : Nat) (k : Slice) : State :=
  let q := getDie s d
  setDie s d { q with slices := insertKey q.slices z k }
def getChannel (s : State) (c n : Nat) : Channel := lookup (getCore s c).channels n Channel.idle
def setChannel (s : State) (c n : Nat) (k : Channel) : State :=
  let q := getCore s c
  setCore s c { q with channels := insertKey q.channels n k }
def getQuad (g : Group) (q : Nat) : Quad := lookup g.quads q (Quad.fresh 0)
def setQuad (g : Group) (q : Nat) (k : Quad) : Group := { g with quads := insertKey g.quads q k }

/-- The group (or supervisor lane) whose slot is being issued. -/
def curGroup (s : State) : Group := getGroup s s.cur.core s.cur.slot
/-- Replace the issuing group. -/
def setCur (s : State) (g : Group) : State := setGroup s s.cur.core s.cur.slot g
def curTeam (s : State) : Team := getTeam s s.cur.core (curGroup s).team
def setCurTeam (s : State) (t : Team) : State := setTeam s s.cur.core (curGroup s).team t
def curLaunch (s : State) : Launch := getLaunch s (curGroup s).launch
/-- The issuing slot is the supervisor lane's. -/
def isLane (s : State) : Bool := s.cur.slot == Config.laneSlot
/-- Supervisor mode: a supervisor group or the supervisor lane (R157, R158). -/
def isSuper (s : State) : Bool := isLane s || (curGroup s).super
/-- Die of a global core id. -/
def dieOf (c : Nat) : Nat := c / Config.coresPerDie
def curDie (s : State) : Nat := dieOf s.cur.core
/-- Append steps that are to occur before the next slot issues. -/
def pushDue (s : State) (l : List Due) : State := { s with due := s.due ++ l }
/-- Draw a free value. -/
def drawFree (s : State) : Word × State := (Config.freeWord s.free, { s with free := s.free + 1 })

/-! ### Control field of the issuing slot (Table 7-7) -/

def ctlStall (s : State) : Nat := fieldNat s.cur.ctl 0 3
def ctlLastA (s : State) : Bool := s.cur.ctl.getLsbD 3
def ctlLastB (s : State) : Bool := s.cur.ctl.getLsbD 4
def ctlAstr (s : State) : Bool := s.cur.ctl.getLsbD 5
def ctlGpred (s : State) : Nat := fieldNat s.cur.ctl 6 3
def ctlGneg (s : State) : Bool := s.cur.ctl.getLsbD 9

/-! ### Capabilities as words -/

/-- Decoded length: a LEN field of 0 encodes 2^44 (R8). -/
def capLen (c : Cap) : Nat := if c.len = 0#44 then 2 ^ 44 else c.len.toNat

/-- The 128 bits of a capability (Table 1-1). -/
def capBits (c : Cap) : BitVec 128 := c.obj ++ c.base ++ c.len ++ c.rights

/-- A capability from its 128 bits and tag; a clear tag gives the null capability (R18). -/
def capOf (tag : Bool) (b : BitVec 128) : Cap :=
  if tag then ⟨true, b.extractLsb' 96 32, b.extractLsb' 52 44, b.extractLsb' 8 44, b.extractLsb' 0 8⟩ else Cap.null

def capBytes (c : Cap) : List Byte := leBytes 16 (capBits c).toNat

/-- Read a capability register: k0 is the null capability (R10). -/
def readCap (g : Group) (k : Nat) : Cap := if k = 0 then Cap.null else lookup g.regs.caps k Cap.null

/-- What a capability register held before its results that are not ready at `clock`; the list is newest first (R181, R182). -/
def pendingCap (pend : List CapPending) (k clock : Nat) (now : Cap) : Cap :=
  match pend with
  | [] => now
  | e :: r =>
    if e.key = k then (if e.readyAt ≤ clock then now else pendingCap r k clock e.old) else pendingCap r k clock now

/-- A capability register as an issue at `clock` reads it. -/
def capAt (g : Group) (clock k : Nat) : Cap := if k = 0 then Cap.null else pendingCap g.regs.kpend k clock (readCap g k)

/-- Write a capability register with a result of latency `lat`, 0 for an interlocked one (R173); k0 has no storage. -/
def writeCapLat (g : Group) (clock lat : Nat) (astr : Bool) (k : Nat) (c : Cap) : Group :=
  if k = 0 then g
  else { g with regs := { g.regs with
    caps := insertKey g.regs.caps k c
    kpend := (if lat = 0 then [] else [⟨k, clock + lat, readCap g k, astr⟩])
      ++ g.regs.kpend.filter (fun e => !(e.key == k && lat == 0) && decide (clock < e.readyAt)) } }

/-- Write a capability register with an interlocked result. -/
def writeCap (g : Group) (k : Nat) (c : Cap) : Group := writeCapLat g 0 0 false k c

/-! ### Regions: start and abort (R149 to R152) -/

/-- The barrier and span arrivals that the quads of a group wait after. -/
def arrivedWaits (g : Group) : List Park :=
  (g.quads.filterMap (fun q => match q.2.park with
    | .barrier o n pc true => some (Park.barrier o n pc true)
    | .span b n pc => some (Park.span b n pc)
    | _ => none)).eraseDups

/-- The PC at which a quad goes on when its wait is abandoned: that of the waiting instruction (R255, R266). -/
def waitingPc (q : Quad) : Word :=
  match q.park with
  | .barrier _ _ pc true | .span _ _ pc => pc
  | _ => q.pc

/-- Status bits that some uncommitted region has read, to be cleared at its commit (R175). -/
def pendingClears (g : Group) : BitVec 10 := g.regions.foldl (fun m r => m ||| r.clears) 0

/-- Status bits raised: no read before this clears them any more (R175). -/
def keepRaised (g : Group) (m : BitVec 10) : Group :=
  { g with regions := g.regions.map (fun r => { r with clears := r.clears &&& ~~~m }) }

/-- Status bits cleared, as `pendingClears` numbers them. -/
def clearBits (g : Group) (m : BitVec 10) : Group :=
  let sp := g.spec
  { g with spec := { sp with
    fpflags := sp.fpflags &&& ~~~(m.extractLsb' 0 5), kstat := sp.kstat &&& ~~~(m.extractLsb' 5 2),
    cpstat := sp.cpstat &&& ~~~(m.extractLsb' 7 2), regstat := sp.regstat && !m.getLsbD 9 } }

/-- A dependence counter one up, at issue (R172); counter 0 names none. -/
def countUp (g : Group) (n : Nat) : Group :=
  if n = 0 then g else { g with regs := { g.regs with dcs := insertKey g.regs.dcs n (lookup g.regs.dcs n 0 + 1) } }

/-- A dependence counter one down, when its operation has completed (R172). -/
def countDown (g : Group) (n : Nat) : Group :=
  if n = 0 then g else { g with regs := { g.regs with dcs := insertKey g.regs.dcs n (lookup g.regs.dcs n 0 - 1) } }

/-- The counters of the operations that a region still holds. -/
def heldCounters (r : Region) : List Nat :=
  (r.stores.filter (fun st => !st.drained)).map (·.counter) ++ r.deferred.map (·.counter)

/-- The snapshot of a group at a region's start (R150). -/
def takeSnapshot (g : Group) : Snapshot :=
  { caps := g.regs.caps, mapped := g.regs.lanes.map (·.1), wb := g.regs.wb, lps := g.regs.lps, positions := g.regs.pos,
    kstat := g.spec.kstat, clears := pendingClears g, retired := g.spec.retired, zclass := g.regs.zclass,
    zseed := g.regs.zseed, staging := g.staging.regs, stagingOn := g.staging.valid, quads := g.quads,
    slots := 0, stores := 0, late := g.regs.late }

/-- A region that starts now. -/
def startRegion (g : Group) (serial : Word) : Region := ⟨serial, takeSnapshot g, [], [], [], 0, 0, false⟩

/-- The current region: the last uncommitted one. -/
def curRegion (g : Group) : Region := g.regions.getLast?.getD (startRegion g g.spec.serial)

/-- Replace the current region. -/
def setCurRegion (g : Group) (r : Region) : Group := { g with regions := g.regions.dropLast ++ [r] }

/-- Queue an effect for the commit of the current region, counted on a dependence counter until then (R172). -/
def deferOn (s : State) (ctr : Nat) (e : Deferred) : State :=
  let g := curGroup s
  let r := curRegion g
  setCur s (countUp (setCurRegion g { r with deferred := r.deferred ++ [⟨e, s.cur.pc, r.slots, ctr⟩] }) ctr)

/-- Queue an effect for the commit of the current region. -/
def defer (s : State) (e : Deferred) : State := deferOn s 0 e

/-- A queued effect is a matrix operation of a team. -/
def isEngine (team : Nat) (q : Queued) : Bool := match q.effect with | .engine op => op.team == team | _ => false

/-- Operations in a team's matrix queue: those handed over and those that uncommitted regions hold (R294). -/
def queuedOps (s : State) (c team : Nat) : Nat :=
  (getTeam s c team).ops.length
    + ((getCore s c).groups.flatMap (fun e => e.2.regions.flatMap (·.deferred))).countP (isEngine team)

/-- The waits that outlast their region, because what they wait for was done before it: a barrier or span arrival, a
system call. -/
def keptPark (p : Park) : Park :=
  match p with
  | .barrier .. | .span .. | .syscall _ => p
  | _ => .none

/-- The quad as the snapshot has it: PC, membership, mask, stack and the wait at a regang return; waits of the region end (R150,
R162). -/
def restoreQuad (snap : FMap Quad) (e : Nat × Quad) : Nat × Quad :=
  let q := lookup snap e.1 e.2
  (e.1, { e.2 with pc := q.pc, mask := q.mask, stack := q.stack, member := q.member, exited := q.exited,
                   waiting := q.waiting, park := keptPark q.park })

/-- Names mapped at the region's start return with their content: that of the register a last-read bit freed first, else that of the
register still mapped; names mapped since then are unmapped (R150, R166, R189). -/
def restoreMap (lanes : FMap QReg) (mapped : List Nat) (freed : FMap QReg) : FMap QReg :=
  mapped.map (fun k => (k, (find? freed k).getD (lookup lanes k QReg.zero)))

/-- Registers freed by last-read bits in some regions, the earliest content first. -/
def freedOf (rs : List Region) : FMap QReg := rs.foldr (fun r m => r.freed ++ m) []

/-- The regions that stay when later ones abort: their pending clears of KSTAT, which the abort restores, are those of the
snapshot; a bit of another register that was raised since stays raised (R150, R175, R204). -/
def keptRegions (rs : List Region) (sn : Snapshot) : List Region :=
  rs.map (fun r => { r with clears := (r.clears &&& ~~~0x060#10) ||| (sn.clears &&& 0x060#10) })

/-- Restore a group to the start of a region, dropping that region's and every later region's held effects; the operations
that they counted have ended (R189). -/
def abortGroup (g : Group) (from_ : Nat) : Group :=
  match g.regions.drop from_ with
  | [] => g
  | r :: rest =>
    let sn := r.snap
    let lost := (r :: rest).foldl (fun n x => n + (x.slots - x.snap.slots)) 0
    let g := ((r :: rest).flatMap heldCounters).foldl countDown g
    { g with
      quads := g.quads.map (restoreQuad sn.quads)
      regs := { g.regs with
        caps := sn.caps, lanes := restoreMap g.regs.lanes sn.mapped (freedOf (r :: rest)), pend := [], kpend := [], wb := sn.wb,
        lps := sn.lps, pos := sn.positions, zclass := sn.zclass, zseed := sn.zseed, late := sn.late }
      spec := { g.spec with kstat := sn.kstat, retired := sn.retired, serial := r.serial }
      staging := ⟨sn.staging, sn.stagingOn⟩, gated := [], ahead := ⟨[], 0⟩
      regions := keptRegions (g.regions.take from_) sn ++ [⟨r.serial, sn, r.stores.take sn.stores, [], [], 0, sn.slots, false⟩]
      stats := { g.stats with total := g.stats.total - lost } }

/-- The channels that aborted regions had queued (R96). -/
def cancelledCopies (rs : List Region) : List Nat :=
  rs.flatMap (fun r => r.deferred.filterMap (fun e => match e.effect with | .copy c => some c | _ => none))

/-- The batches of the matrix operations that aborted regions had queued (R294). -/
def cancelledOps (rs : List Region) : List Nat :=
  rs.flatMap (fun r => r.deferred.filterMap (fun e => match e.effect with | .engine o => some o.batch | _ => none))

/-- One operation fewer outstanding in a batch. -/
def batchDone (b : Batches) (n : Nat) : Batches :=
  { b with live := if lookup b.live n 0 ≤ 1 then eraseKey b.live n else insertKey b.live n (lookup b.live n 0 - 1) }

/-- Batch `k` is `n` or an earlier one, modulo 2^32 (R290, R47). -/
def batchUpTo (n k : Nat) : Bool := decide ((n + 2 ^ 32 - k) % 2 ^ 32 < 2 ^ 31)

/-- Batch `n` and every earlier one of the group have completed. -/
def batchesDone (b : Batches) (n : Nat) : Bool := b.live.all (fun e => e.1 == b.opened || !batchUpTo n e.1)

/-- One operation more in the open batch. -/
def batchJoin (b : Batches) : Batches := { b with live := insertKey b.live b.opened (lookup b.live b.opened 0 + 1) }

/-- Free the channel of a cancelled copy and take the copy out of its batch. -/
def cancelCopy (c slot : Nat) (s : State) (n : Nat) : State :=
  let ch := getChannel s c n
  let s := setChannel s c n { Channel.idle with nvst := ch.nvst }
  let g := getGroup s c slot
  setGroup s c slot { g with batch := batchDone g.batch ch.batch }

/-- Whether some kernel group of the core waits in svtake (R347, QIDLE). -/
def svtakeWaits (k : Core) : Bool :=
  k.groups.any (fun g => g.1 != Config.laneSlot && g.2.resident && g.2.quads.any (fun q => match q.2.park with | .svtake _ => true | _ => false))

/-- QIDLE is set while a record is pending and no kernel group waits in svtake (Table 16-5). -/
def noteIdle (k : Core) : Core :=
  if k.records.any (fun e => e.2.state == .pending) && !svtakeWaits k then
    { k with lane := { k.lane with cause := k.lane.cause ||| 0b1000000 } }
  else k

/-- Records taken in aborted regions return to pending at their places in the order (R351). -/
def untake (k : Core) (slot : Nat) (serials : List Word) : Core :=
  { k with records := k.records.map (fun e =>
      match e.2.state with
      | .taken t r => if t == slot && serials.contains r then (e.1, { e.2 with state := .pending }) else e
      | _ => e) }

/-- The reservations of a group's aborted regions in its team's reduction log are free again (R277). -/
def freeLog (s : State) (c team slot : Nat) (serials : List Word) : State :=
  let t := getTeam s c team
  if t.fredlog.any (fun e => !e.filled && e.slot == slot) then
    setTeam s c team { t with fredlog := t.fredlog.filter (fun e => e.filled || e.slot != slot || !serials.contains e.serial) }
  else s

/-- Abort the regions of a group from index `from_` on (R152). -/
def abortRegions (s : State) (c slot from_ : Nat) : State :=
  let g := getGroup s c slot
  let rs := g.regions.drop from_
  let s := freeLog (setGroup s c slot (abortGroup g from_)) c g.team slot (rs.map (·.serial))
  let s := (cancelledCopies rs).foldl (cancelCopy c slot) s
  let g := getGroup s c slot
  let s := setGroup s c slot { g with batch := (cancelledOps rs).foldl batchDone g.batch }
  setCore s c (noteIdle (untake (getCore s c) slot (rs.map (·.serial))))

/-! ### Predicates and active lanes (R172, R176) -/

/-- Keys of pending results beside the lane registers. -/
def predKey (p : Nat) : Nat := 4096 + p
def unifKey (u : Nat) : Nat := 8192 + u

/-- What a name held before its results that are not ready at `clock`; the list is newest first. -/
def pendingValue (pend : List Pending) (key clock : Nat) (now : Option QReg) : Option QReg :=
  match pend with
  | [] => now
  | e :: r =>
    if e.key = key then (if e.readyAt ≤ clock then now else pendingValue r key clock e.old)
    else pendingValue r key clock now

/-- A predicate or uniform register as pending results keep it. -/
def wordReg (w : Word) : QReg := ⟨w, 0, 0, 0⟩

/-- A predicate: p0 reads 1 in every lane (R172). -/
def readPred (g : Group) (clock p : Nat) : Word :=
  if p = 0 then 0xFFFFFFFF
  else ((pendingValue g.regs.pend (predKey p) clock (some (wordReg (lookup g.regs.preds p 0)))).getD QReg.zero).l0

/-- The lane masks of the issuing quads, as a mask over the 32 lanes. -/
def quadMask (s : State) : Word :=
  s.cur.quads.foldl (fun m q => m ||| (BitVec.ofNat 32 ((getQuad (curGroup s) q).mask.toNat * 2 ^ (4 * q)))) 0

/-- The guard, read as it is or negated (R176). -/
def guardMask (s : State) : Word :=
  let p := readPred (curGroup s) s.clock (ctlGpred s)
  if ctlGneg s then ~~~p else p

/-- The active lanes: guard true and enabled in the quad's mask (R176). -/
def activeMask (s : State) : Word := guardMask s &&& quadMask s

/-- The active lanes, ascending. -/
def activeLanes (s : State) : List Nat := (upTo 32).filter (fun i => (activeMask s).getLsbD i)

/-- The lowest active lane. -/
def firstLane (s : State) : Option Nat := (activeLanes s).head?

/-! ### Trap records (R343 to R346) -/

/-- What an instruction reports when it traps. -/
structure Trap where
  cls    : Nat
  code   : Nat
  lane   : Nat := 0
  obj    : Nat := 0
  off    : Nat := 0
  shadow : Bool := false
  kind   : Nat := 0
  rights : Nat := 0
  number : Nat := 0
  detail : List Word := []
  /-- The trap lies at an earlier instruction of the group: its PC, its count in its region, and the region's index. -/
  place  : Option (Word × Nat × Nat) := none
deriving DecidableEq, Repr

/-- Why an instruction does not complete: it traps, or it waits at its PC; after its line requests have answered, in the state
that they leave (R38). -/
inductive Abort where
  | trap (t : Trap)
  | hold (p : Park)
  | lateTrap (s : State) (t : Trap)
  | lateHold (s : State) (p : Park)
deriving DecidableEq, Repr

abbrev Res (α : Type) := Except Abort α

/-- An illegal-instruction or illegal-encoding trap (class 0x3). -/
def illegal {α : Type} (code : Nat) : Res α := .error (.trap { cls := 3, code := code })

def trapNow {α : Type} (cls code : Nat) : Res α := .error (.trap { cls := cls, code := code })

/-- Where a record comes from: SRC and UNIT (Table 16-2). -/
structure Origin where
  src  : Nat
  unit : Nat
  slot : Nat
  team : Nat
  sup  : Bool
  serial : Word
  count  : Nat
  pc     : Word
  code   : Word
deriving DecidableEq, Repr

/-- A record that no group owns: every group field is 0 (R345). -/
def Origin.nonGroup (src unit : Nat) : Origin := ⟨src, unit, 0, 0, false, 0, 0, 0, 0⟩

/-- A trap with its syndrome: R343 states no value for that of a machine check, so it is a free one (entry 5). -/
def syndrome (s : State) (t : Trap) : Trap × State :=
  if t.cls = 1 then ({ t with detail := [(drawFree s).1] }, (drawFree s).2) else (t, s)

/-- The sixteen words of a record (Table 16-2), HANDLE aside. -/
def recordWords (o : Origin) (t : Trap) (dest : Bool) : List Word :=
  [ wordOf (t.cls * 2 ^ 28 + o.src * 2 ^ 24 + t.code * 2 ^ 16 + (if dest then 512 else 0)),
    wordOf (o.unit * 2 ^ 24 + o.team * 2 ^ 16 + (if o.sup then 2 ^ 13 else 0) + t.lane * 2 ^ 8 + o.slot),
    o.serial, wordOf o.count, o.pc, o.code, wordOf t.obj, wordOf t.off,
    wordOf ((if t.shadow then 2 ^ 23 else 0) + t.kind * 2 ^ 20 + t.rights * 2 ^ 12 + t.off / 2 ^ 32),
    wordOf t.number ] ++ (upTo 6).map (fun i => t.detail.getD i 0)

def wordsBytes (ws : List Word) : List Byte := ws.flatMap (fun w => leBytes 4 w.toNat)

/-- The record of a handle. -/
def getRec (k : Core) (h : Nat) : RecMeta := lookup k.records h RecMeta.free

/-- Whether a record of the queue is free. -/
def recFree (k : Core) (h : Nat) : Bool := (getRec k h).state == .free

/-- The lowest free record of `[lo, hi)`. -/
def freeRecord (k : Core) (lo hi : Nat) : Option Nat := (upTo hi).find? (fun h => decide (lo ≤ h) && recFree k h)

/-- When a record is written: the clock, and in it the group id (R364); 127 for a source that is no group. -/
def recordTime (s : State) (slot : Nat) : Nat := s.clock * 128 + slot

/-- Write a record into the supervisor queue at a free handle, pending, and set the lane's cause bits. Records are in order by their
time, those of one time as they were written. -/
def writeRecord (time : Nat) (k : Core) (h : Nat) (words : List Word) (m : RecMeta) : Core :=
  let w0 := words.headD 0 ||| wordOf h
  let cause := k.lane.cause ||| (if m.dest then 0b0000010 else 0)
    ||| (if svtakeWaits k then 0 else 0b1000000)
  { k with
    reserve := memPut k.reserve (64 * h) (wordsBytes (w0 :: words.tail))
    records := insertKey k.records h { m with state := .pending, order := time * 2 ^ 64 + k.recOrder }
    recOrder := k.recOrder + 1
    lane := { k.lane with cause := cause } }

/-- Region `i` of a group's uncommitted regions. -/
def nthRegion (g : Group) (i : Nat) : Region := g.regions.getD i (startRegion g g.spec.serial)

/-- The group's place in its records: region `i`, `count` slots in, at `pc`. -/
def groupOrigin (s : State) (c slot i : Nat) (pc : Word) (count : Nat) : Origin :=
  let g := getGroup s c slot
  ⟨0, 0, slot, g.team, g.super, (nthRegion g i).serial, count, pc, (readCap g 1).obj⟩

/-- The core stops (R345): its running mark goes, the firmware core of the die learns PC, class and code, and the
report is due as a step of the firmware core. -/
def stopCore (s : State) (c : Nat) (pc : Word) (cls code : Nat) : State :=
  let k := getCore s c
  let s := setCore s c { k with stopped := some (pc, cls, code) }
  let d := getDie s (dieOf c)
  let s := setDie s (dieOf c) { d with coreStops := d.coreStops ++ [(c, pc.toNat, cls, code)] }
  pushDue s [⟨.coreStop, { core := c }⟩]

/-- Park every quad of a group. -/
def parkGroup (g : Group) (p : Park) : Group :=
  { g with quads := g.quads.map (fun e => (e.1, { e.2 with park := p })) }

/-- The same of the quads that do not wait for records of their own (R350). -/
def parkOthers (g : Group) (p : Park) : Group :=
  { g with quads := g.quads.map (fun e => match e.2.park with
      | .syscall (_ :: _) => e
      | _ => (e.1, { e.2 with park := p })) }

/-- Whether a debug stop parks the group: its launch is debug-enabled and the die's DBGEN is 1 (R366, R368). -/
def debugEnabled (s : State) (c slot : Nat) : Bool :=
  (getLaunch s (getGroup s c slot).launch).flags.getLsbD 9 && (getDie s (dieOf c)).dbg.ctl.getLsbD 0

/-- A record's place: machine checks and non-group sources use 480 to 511, other group traps 0 to 479 (R346). -/
def recordRange (cls src : Nat) : Nat × Nat := if cls = 1 || src ≠ 0 then (480, 512) else (0, 480)

/-- Take a trap of class 0x1 or 0x3 to 0xB of a group (R342): regions from `from_` on abort, counters drain, the record is
written and the group parks. A machine check that finds no record stops the core; another trap waits for one. -/
def takeGroupTrap (s : State) (c slot from_ : Nat) (o : Origin) (t : Trap) : State :=
  let dest := t.cls == 1 || (o.sup && t.cls == 7)
  let told := syndrome s t
  let words := recordWords o told.1 dest
  let s := abortRegions told.2 c slot from_
  let k := getCore s c
  let rng := recordRange t.cls 0
  match freeRecord k rng.1 rng.2 with
  | some h =>
    let k := writeRecord (recordTime s slot) k h words ⟨.pending, 0, t.cls, 0, 0, slot, t.lane, dest⟩
    let s := setCore s c k
    setGroup s c slot (parkGroup (getGroup s c slot) (.trap h))
  | none =>
    if t.cls == 1 then stopCore s c o.pc t.cls t.code
    else setGroup s c slot (parkGroup (getGroup s c slot) (.trapQueue words))

/-- The group executes a region again up to a debug stop: its retire limit is not that of CMD 0x2, and no entry stops it on the way
(R369). -/
def catchingUp (g : Group) : Bool := g.stats.limit.isSome && (g.stats.stopped || g.stats.stopCode != 5)

/-- Begin a precise debug stop after `count` slots of region `from_` (R369): that region and every later one abort, and
the region executes again under the retire limit `count`; the group parks when it reaches it. -/
def beginStop (s : State) (c slot from_ count code number : Nat) : State :=
  let s := abortRegions s c slot from_
  let g := getGroup s c slot
  setGroup s c slot { g with stats := { g.stats with
    limit := some count, stopCode := code, stopNum := number, skipBreak := false } }

/-- The steps that a class 0x2 trap of a group is: a debug stop after `count` slots of region `i` (R368), or the time-out at an
order gate (R377). -/
def debugSteps (c slot i last count : Nat) (t : Trap) : List Due :=
  let off := if i < last then 1 else 0
  if t.code = 8 then [⟨.orderGateTimeout, { core := c, unit := slot, extra := count, off := off }⟩]
  else [⟨.debugStop, { core := c, unit := slot, value := t.code, extra := if t.code = 1 then count + 1 else count, obj := t.number, off := off }⟩]

/-- A trap of the instruction as a whole, of class 0x3, 0x4 or 0xB, is that of its lowest active lane (R342). -/
def lowestLane (s : State) (t : Trap) : Trap :=
  if (t.cls == 3 || t.cls == 4 || t.cls == 0xB) && t.lane == 0 then { t with lane := (firstLane s).getD 0 } else t

/-- Take an exception raised by the slot being issued: the supervisor lane stops its core (R345); a debug stop is due; a
group takes its trap, from the region that holds the instruction on. -/
def takeTrap (s : State) (t : Trap) : State :=
  if isLane s then stopCore s s.cur.core s.cur.pc t.cls t.code
  else
    let g := curGroup s
    let last := g.regions.length - 1
    let (pc, count, i) := t.place.getD (s.cur.pc, (curRegion g).slots, last)
    if t.cls == 2 then pushDue s (debugSteps s.cur.core s.cur.slot i last count t)
    else takeGroupTrap s s.cur.core s.cur.slot i (groupOrigin s s.cur.core s.cur.slot i pc count) (lowestLane s t)

/-! ### Retiring a slot (R130, R175, R180, R365) -/

/-- The quad after its slot issued: next PC, the stall count in force for the slot's stream, the issue clock noted. -/
def advanceQuad (clock stall : Nat) (astr : Bool) (pc : Word) (q : Quad) : Quad :=
  let t := clock + Nat.max 1 stall
  { q with pc := pc, stallUntil := if astr then q.stallUntil else t, stallAddr := if astr then t else q.stallAddr,
           lastIssue := clock, yieldUntil := 0, aged := false, park := .none }

/-- One slot more, in the region, in RETIRED and in the counters. -/
def countSlot (g : Group) : Group :=
  let r := curRegion g
  let g := setCurRegion g { r with slots := r.slots + 1 }
  { g with spec := { g.spec with retired := g.spec.retired + 1 }
           stats := { g.stats with issued := g.stats.issued + 1, total := g.stats.total + 1, issuedNow := true } }

/-- Retire the slot: every issuing quad goes on at the next slot. -/
def retire (s : State) : State :=
  let g := s.cur.quads.foldl (fun g q => setQuad g q (advanceQuad s.clock (ctlStall s) (ctlAstr s) s.cur.nextPc (getQuad g q))) (curGroup s)
  setCur s (countSlot g)

/-- The member quads of a group's gang that have not exited, ascending. -/
def gangOf (g : Group) : List Nat :=
  (g.quads.filter (fun e => e.2.member && !e.2.exited)).map (·.1)

/-- Parted: some quad that has not exited is no member of the gang (R130). -/
def isParted (g : Group) : Bool := g.quads.any (fun e => !e.2.member && !e.2.exited)

/-- Parting: members whose PC differs from the lowest member's leave the gang (R130). -/
def part (g : Group) : Group :=
  match gangOf g with
  | [] => g
  | q0 :: _ =>
    let pc := (getQuad g q0).pc
    { g with quads := g.quads.map (fun e =>
        if e.2.member && !e.2.exited && e.2.pc != pc then (e.1, { e.2 with member := false }) else e) }

/-- Retire a control instruction: each issuing quad goes to its own PC, then the gang parts. -/
def retireFlow (s : State) (pcs : FMap Word) : State :=
  let g := s.cur.quads.foldl
    (fun g q => setQuad g q (advanceQuad s.clock (ctlStall s) false (lookup pcs q s.cur.nextPc) (getQuad g q))) (curGroup s)
  setCur s (countSlot (part g))

end Sys2Proof.Machine
end

