-- ==== Sys2Proof/Machine/Path.lean ====
section
/-!
DEFINITION. The path of an access from a core to memory: homes (spec/01 R26), object entries and the descriptor cache
(R23, R24, R29, R30), page maps, extents and walks (spec/02 R31 to R35), zero lines (R42), slices and L1s
(spec/03 R59 to R71), guest lines and epochs (R66, R67), and the shoot-down (R36).
-/

namespace Sys2Proof.Machine

/-- Why an access through memory fails: a capability or page fault code, a migrating page, or poison (machine-check code). -/
inductive MemErr where
  | cap (code : Nat)
  | page (code : Nat)
  | migrating (obj off : Nat)
  | poison (code : Nat)
deriving DecidableEq, Repr

/-! ### Homes (R26) -/

/-- XOR of the `k`-bit digits of `x`, at most `n` of them. -/
def foldBits (k : Nat) : Nat → Nat → Nat
  | 0, _ => 0
  | n + 1, x => (x % 2 ^ k) ^^^ foldBits k n (x / 2 ^ k)

def fold3 (x : Nat) : Nat := foldBits 3 15 x
def fold4 (x : Nat) : Nat := foldBits 4 11 x

/-- Home die of an object offset; object 1 is the identity window (R30). -/
def homeDie (e : Desc) (off : Nat) : Nat :=
  if e.id = 1 then off / 2 ^ 38 % 8 else if e.spread then fold3 (off / 2 ^ 16) ^^^ (e.id % 8) else e.die

/-- Home slice of an object offset. -/
def homeSlice (id off : Nat) : Nat := fold4 (off / 128) ^^^ fold4 id

/-- L2 set (R60). -/
def setL2 (id off : Nat) : Nat := 1024 * (off / 2 ^ 11 % 3) + ((off / 2 ^ 11 % 1024) ^^^ (id % 1024))

/-! ### The system window: coherent reads and writes of tables (R30) -/

/-- The line of object 1 that covers a physical address, if its home slice holds it. -/
def windowLine (s : State) (a : Nat) : Option Line :=
  (getSlice s (a / 2 ^ 38 % 8) (homeSlice 1 a)).lines.find? (fun l => l.obj == 1 && l.index == a / 128 && !l.guest)

/-- One byte of a table, at its home: the slice's line if present, else HBM. -/
def tableByte (s : State) (a : Nat) : Byte :=
  let a := a % 2 ^ 41
  match windowLine s a with
  | some l => if l.zero then 0 else l.data.getD (a % 128) 0
  | none => memRead s.hbm a

/-- A little-endian number of a table. -/
def tableNat (s : State) (a n : Nat) : Nat := leNat ((upTo n).map (fun i => tableByte s (a + i)))

/-- Bytes of a line with some replaced from `i` on. -/
def putBytes (old : List Byte) (i : Nat) (new : List Byte) : List Byte :=
  old.take i ++ new ++ old.drop (i + new.length)

/-- A line's bytes; a zero line reads as zeros (R62). -/
def lineBytes (l : Line) : List Byte := if l.zero then List.replicate 128 0 else l.data

/-- Rewrite the lines of a slice that satisfy a test. -/
def mapLines (z : Slice) (p : Line → Bool) (f : Line → Line) : Slice :=
  { z with lines := z.lines.map (fun l => if p l then f l else l) }

/-- A tag number leaves or enters the HBM tag set. -/
def setTag (tags : List Nat) (q : Nat) (on : Bool) : List Nat := if on then insertNat tags q else tags.filter (· != q)

/-- An access to HBM opens its row in the bank, which had another row open or none (R81). -/
def touchRow (s : State) (a : Nat) : State :=
  let d := getDie s (a / 2 ^ 38 % 8)
  let r := Config.bankRow (a / 128)
  setDie s (a / 2 ^ 38 % 8) { d with rows := insertKey d.rows r.1 (r.2, s.clock) }

/-- Write bytes of a table at its home, for the hardware: A and D bits, bitmaps, object entries, the trace ring. No tag changes:
Table R17 lists every change of a tag, and these writes are none of them. -/
def tablePut (s : State) (a : Nat) (bs : List Byte) : State :=
  let a := a % 2 ^ 41
  match windowLine s a with
  | some l =>
    let z := getSlice s (a / 2 ^ 38 % 8) (homeSlice 1 a)
    setSlice s (a / 2 ^ 38 % 8) (homeSlice 1 a) (mapLines z (fun m => m.obj == 1 && m.index == l.index && !m.guest)
      (fun m => { m with zero := false, dirty := true, data := putBytes (lineBytes m) (a % 128) bs }))
  | none => { touchRow s a with hbm := memPut s.hbm a bs }

/-- Whether an offset of object 1 lies in the partition's HBM ranges (R30). -/
def inRanges (s : State) (p off : Nat) : Bool :=
  (getPart s p).ranges.any (fun r => decide (r.1 ≤ off) && decide (off < r.1 + r.2))

/-- A table access of the hardware through object 1 is allowed as any other: it lies in the partition's HBM ranges (R30). -/
def tableOk (s : State) (p a : Nat) : Bool := inRanges s p (a % 2 ^ 41)

/-! ### Object entries (R9, R23, R24, R29) -/

/-- Physical address of the entry of an object. -/
def entryAddr (s : State) (p id : Nat) : Nat := (getPart s p).otbase.toNat % 2 ^ 29 * 4096 + 64 * id

/-- The descriptor of an object, read from its entry; none when the entry is invalid (R24) or outside the partition's HBM ranges
(R30). Of entry 1 only V and KIND are read: a capability minted for object 1 has the whole of 2^44 bytes (DESIGN CHOICE, entry
58). -/
def readEntry (s : State) (p id : Nat) : Option Desc :=
  if id = 0 || decide ((getPart s p).otlen.toNat ≤ id) || !tableOk s p (entryAddr s p id) then none else
  let a := entryAddr s p id
  let w := tableNat s a 8
  let m := tableNat s (a + 8) 8
  let kind := w / 2 ^ 60 % 8
  let v := w.testBit 63 && decide (kind ≤ 4)
  if id = 1 then
    if v && kind == 0 then some ⟨1, 0, false, 0, false, false, false, false, 2 ^ 44, 0, 0, 0⟩ else none
  else if !v || (w.testBit 59 && w.testBit 55) then none
  else
    some ⟨id, kind, w.testBit 59, w / 2 ^ 56 % 8, w.testBit 55, w.testBit 54, w.testBit 53, w.testBit 52,
      (if w % 2 ^ 44 = 0 then 2 ^ 44 else w % 2 ^ 44), m / 2 ^ 32 % 2 ^ 16, w / 2 ^ 47 % 16, m / 2 ^ 48⟩

/-! ### Page maps (R31, R32) -/

/-- What a walk finds: a page entry with its place and page size, a page fault, or a refusal of the access (a capability fault). -/
inductive WalkResult where
  | entry (value source : Nat) (pg4m : Bool)
  | fault (code : Nat)
  | refused (code : Nat)
deriving DecidableEq, Repr

/-- Page index of an offset. -/
def pageOf (pg4m : Bool) (off : Nat) : Nat := off / 2 ^ (if pg4m then 22 else 16)

/-- The page entry of an object offset in its front or shadow map: steps of R35 up to the entry. No entry beyond the last page
below LENGTH is read (R31), and no table byte outside the partition's ranges (R30). -/
def walkMap (s : State) (p id : Nat) (shadow : Bool) (off : Nat) : WalkResult :=
  let a := entryAddr s p id
  if !tableOk s p a then .refused 0x0B
  else
    let w := tableNat s a 8
    let pg4m := w.testBit 55
    let last := (if w % 2 ^ 44 = 0 then 2 ^ 44 else w % 2 ^ 44) - 1
    let root := tableNat s (a + (if shadow then 0x18 else 0x10)) 8 % 2 ^ 41 / 4096 * 4096
    if pageOf pg4m last < pageOf pg4m off then .refused 0x0B
    else if pg4m then
      let pa := root + 8 * (off / 2 ^ 22)
      if tableOk s p pa then .entry (tableNat s pa 8) pa true else .refused 0x0B
    else
      let qa := root + 8 * (off / 2 ^ 30)
      let l1 := tableNat s qa 8
      if !tableOk s p qa then .refused 0x0B
      else if !l1.testBit 63 then .fault 0x02
      else
        let pa := l1 % 2 ^ 41 / 4096 * 4096 + 8 * (off / 2 ^ 16 % 2 ^ 14)
        if tableOk s p pa then .entry (tableNat s pa 8) pa false else .refused 0x0B

/-- The table addresses that a walk reads, in their order; beyond the last page below LENGTH none but the object's entry (R31). -/
def walkAddrs (s : State) (p id : Nat) (shadow : Bool) (off : Nat) : List Nat :=
  let a := entryAddr s p id
  let w := tableNat s a 8
  let root := tableNat s (a + (if shadow then 0x18 else 0x10)) 8 % 2 ^ 41 / 4096 * 4096
  if pageOf (w.testBit 55) ((if w % 2 ^ 44 = 0 then 2 ^ 44 else w % 2 ^ 44) - 1) < pageOf (w.testBit 55) off then [a]
  else if w.testBit 55 then [a, root + 8 * (off / 2 ^ 22)]
  else
    let l1 := tableNat s (root + 8 * (off / 2 ^ 30)) 8
    [a, root + 8 * (off / 2 ^ 30)] ++ (if l1.testBit 63 then [l1 % 2 ^ 41 / 4096 * 4096 + 8 * (off / 2 ^ 16 % 2 ^ 14)] else [])

/-- LOC of a page entry: 0 local, 1 pool, 2 absent, 3 migrating; V = 0 is absent (Table 2-2). -/
def entryLoc (e : Nat) : Nat := if e.testBit 63 then e / 2 ^ 61 % 4 else 2

/-- The page fault of a frame number out of range: a pool frame at or beyond PRMLEN, a local frame beyond the die's HBM (R32). -/
def frameFault (s : State) (p : Nat) (pg4m : Bool) (pe : Nat) : Option Nat :=
  if entryLoc pe = 1 then (if (getPart s p).prmlen.toNat % 2 ^ 28 ≤ pe % 2 ^ 28 then some 0x04 else none)
  else if (if pg4m then 2 ^ 16 else 2 ^ 22) ≤ pe % 2 ^ 28 then some 0x05 else none

/-- The number under which a line's key is kept (R402). -/
def keySlot (pool : Bool) (a : Nat) : Nat := 2 * (a / 128) + if pool then 1 else 0

/-- The key of a tenant's data, drawn when its partition was created (R402): of every TENANT value, 0 among them. Key 0 is that of a
request that carries no object entry's tenant: one through object 1. -/
def tenantKey (p tenant : Nat) : Nat := p * 2 ^ 16 + tenant + 1

/-- The 128 bytes of a memory line as a request with a key reads them (R402). A request through object 1 reads what was written, and
what it writes reads the same under every key (DESIGN CHOICE, entry 38). -/
def portBytes (s : State) (pool : Bool) (a key : Nat) : List Byte :=
  let bytes := memBytes (if pool then s.pool else s.hbm) (a / 128 * 128) 128
  let k := lookup s.lineKeys (keySlot pool a) key
  if key = 0 || k = key then bytes else (upTo 128).map (Config.otherKey k key pool (a / 128) bytes)

/-- Where a line lives: partition, HBM or pool address of the line, its bitmap byte and bit (none without a bitmap), page entry, and
the key of the request's object (R402). -/
structure Frame where
  part   : Nat
  pool   : Bool
  addr   : Nat
  bitmap : Option (Nat × Nat)
  entry  : Nat
  source : Nat
  key    : Nat
deriving DecidableEq, Repr

/-- The frame of the line of `off` under a page entry (R32, R42). -/
def frameOf (s : State) (p id : Nat) (pg4m : Bool) (entry source off : Nat) : Frame :=
  let shift := if pg4m then 22 else 16
  let inPage := off % 2 ^ shift / 128 * 128
  let num := entry % 2 ^ 28
  let pool := entryLoc entry == 1
  let base := if pool then num * 2 ^ 16 else entry / 2 ^ 58 % 8 * 2 ^ 38 + num * 2 ^ shift
  let zbi := entry / 2 ^ 32 % 2 ^ 24
  let bm := (getPart s p).zbbase.toNat % 2 ^ 29 * 4096 + 64 * zbi
  { part := p, pool := pool, addr := base + inPage, entry := entry, source := source
    key := tenantKey p ((readEntry s p id).elim 0 (·.tenant))
    bitmap := if zbi = 0 then none else some (bm + inPage / 128 / 8, inPage / 128 % 8) }

/-- Extent set (R34). -/
def extentSet (page id : Nat) : Nat := (page % 512) ^^^ (id % 512)

/-- Set flags of a page entry by compare-and-set (R33): bit 56 A, bit 57 D. On a mismatch nothing is updated. -/
def setEntryBit (s : State) (entry source bit : Nat) : Option (Nat × State) :=
  if entry.testBit bit then some (entry, s)
  else if tableNat s source 8 = entry then
    let e := entry + 2 ^ bit
    some (e, tablePut s source (leBytes 8 e))
  else none

/-- Fill an extent entry: 512 sets of 8 ways, least recently used first (R34). -/
def fillExtent (z : Slice) (x : Extent) : Slice :=
  let same := z.extents.filter (fun y => extentSet y.page y.obj == extentSet x.page x.obj)
  let rest := if same.length ≥ 8 then z.extents.erase (same.headD x) else z.extents
  { z with extents := rest ++ [x] }

/-- The frame of an object's line at a port: extent lookup, else the walk's entry, which fills an extent and sets A (R34, R35). -/
def portFrame (s : State) (d z p id : Nat) (shadow : Bool) (off : Nat) : Except MemErr (Frame × State) :=
  let sl := getSlice s d z
  match sl.extents.find? (fun x => x.part == p && x.obj == id && x.shadow == shadow && x.page == pageOf x.pg4m off) with
  | some x =>
    .ok (frameOf s p id x.pg4m x.entry.toNat x.source off, setSlice s d z { sl with extents := sl.extents.filter (· != x) ++ [x] })
  | none =>
    match walkMap s p id shadow off with
    | .refused c => .error (.cap c)
    | .fault c => .error (.page c)
    | .entry pe src pg4m =>
      if entryLoc pe = 2 then .error (.page 0x01)
      else if entryLoc pe = 3 then
        if (tableNat s (entryAddr s p id) 8).testBit 51 then .error (.migrating id off) else .error (.page 0x03)
      else match frameFault s p pg4m pe with
        | some c => .error (.page c)
        | none =>
          match setEntryBit s pe src 56 with
          | none => .ok (frameOf s p id pg4m pe src off, s)
          | some (pe', s) =>
            let sl := getSlice s d z
            .ok (frameOf s p id pg4m pe' src off,
              setSlice s d z (fillExtent sl ⟨p, id, shadow, pageOf pg4m off, pg4m, BitVec.ofNat 64 pe', src⟩))

/-! ### Frames: reading and writing lines (R17, R42) -/

/-- The bitmap bit of a line. -/
def bitmapBit (s : State) (f : Frame) : Bool :=
  match f.bitmap with
  | none => false
  | some (a, i) => (tableByte s a).getLsbD i

/-- The port may update the bitmap byte of a line: through object 1, within the partition's HBM ranges (R30). -/
def bitmapOk (s : State) (f : Frame) : Bool :=
  match f.bitmap with
  | none => false
  | some (a, _) => tableOk s f.part a

/-- Set or clear the bitmap bit of a line; a bit that stands so already is not written (Table 2-5). -/
def setBitmap (s : State) (f : Frame) (on : Bool) : State :=
  match f.bitmap with
  | none => s
  | some (a, i) =>
    let b := tableByte s a
    if !tableOk s f.part a || b.getLsbD i == on then s
    else tablePut s a [if on then b ||| BitVec.ofNat 8 (2 ^ i) else b &&& ~~~ (BitVec.ofNat 8 (2 ^ i))]

/-- A line's bytes and tags from its frame; a set bitmap bit reads as zeros (Table 2-5). -/
def readFrame (s : State) (f : Frame) : List Byte × BitVec 8 × Bool :=
  if bitmapBit s f then (List.replicate 128 0, 0, true)
  else if f.pool then (portBytes s true f.addr f.key, 0, false)
  else (portBytes s false f.addr f.key,
        (upTo 8).foldl (fun t i => if s.tags.contains (f.addr / 16 + i) then t ||| BitVec.ofNat 8 (2 ^ i) else t) 0, false)

/-- The keys of lines after a line was written under a key (R402). -/
def noteKey (s : State) (pool : Bool) (a key : Nat) : FMap Nat :=
  if key = 0 then eraseKey s.lineKeys (keySlot pool a) else insertKey s.lineKeys (keySlot pool a) key

/-- Line numbers that stand as poisoned, after a line was written with bad data or with good. -/
def markPoison (l : List Nat) (n : Nat) (bad : Bool) : List Nat := if bad then insertNat l n else l.filter (· != n)

/-- Write a whole line to its frame, encrypted under its key (R402): zero-flagged lines set their bitmap bit where there is one that
the port may write (Table 2-5, R30); a line whose data are bad goes to its home poisoned, another ends its poison (R71, R405). -/
def writeFrame (s : State) (f : Frame) (bytes : List Byte) (tags : BitVec 8) (zero bad : Bool) : State :=
  if zero && !bad && bitmapOk s f then setBitmap s f true
  else if f.pool then
    setBitmap { s with
      pool := memPut s.pool f.addr bytes
      lineKeys := noteKey s true f.addr f.key
      poolPoison := markPoison s.poolPoison (f.addr / 128) bad } f false
  else
    let s := touchRow s f.addr
    let s := { s with
      hbm := memPut s.hbm f.addr bytes
      lineKeys := noteKey s false f.addr f.key
      tags := (upTo 8).foldl (fun t i => setTag t (f.addr / 16 + i) (tags.getLsbD i)) s.tags
      poison := markPoison s.poison (f.addr / 128) bad }
    setBitmap s f false

/-- Mark a page dirty when its port accepts a write or a write-back (R33): compare-and-set against the entry that the port cached;
the extent entry follows, or is dropped on a mismatch. -/
def markDirty (s : State) (d z : Nat) (f : Frame) : State :=
  if f.source = 0 && f.entry = 0 then s
  else
    let same := fun (x : Extent) => x.source == f.source && x.entry.toNat == f.entry
    match setEntryBit s f.entry f.source 57 with
    | some (e', s) =>
      let sl := getSlice s d z
      setSlice s d z { sl with extents := sl.extents.map (fun x => if same x then { x with entry := BitVec.ofNat 64 e' } else x) }
    | none =>
      let sl := getSlice s d z
      setSlice s d z { sl with extents := sl.extents.filter (fun x => !same x) }

/-! ### L1 copies (R59, R61, R64, R70) -/

/-- An L1 line is that line of an object. -/
def isL1 (obj idx : Nat) (m : L1Line) : Bool := m.obj == obj && m.index == idx

/-- Drop the L1 copies of a line held by some cores, with their pins. -/
def dropL1 (s : State) (sharers : List Nat) (obj idx : Nat) : State :=
  sharers.foldl (fun s c =>
    let k := getCore s c
    setCore s c { k with l1 := k.l1.filter (fun l => !isL1 obj idx l) }) s

/-- A store or an atomic invalidates the L1 copies of a line held by some cores; a pin outlasts it (R70). -/
def invalL1 (s : State) (sharers : List Nat) (obj idx : Nat) : State :=
  sharers.foldl (fun s c =>
    let k := getCore s c
    setCore s c { k with l1 := (k.l1.filter (fun l => !isL1 obj idx l || l.pinned)).map (fun l =>
      if isL1 obj idx l then { l with valid := false, data := [] } else l) }) s

/-- Take a core out of the sharers of a line at the slice of its die that holds it, home or guest. -/
def dropSharer (s : State) (c obj idx : Nat) : State :=
  let z := homeSlice obj (128 * idx)
  setSlice s (dieOf c) z (mapLines (getSlice s (dieOf c) z) (fun l => l.obj == obj && l.index == idx)
    (fun l => { l with sharers := l.sharers.filter (· != c) }))

/-- L1 set of a line (R59). -/
def setL1 (k : Core) (obj idx : Nat) : Nat := (idx ^^^ obj) % (Nat.max 1 (fieldNat k.poolsplit 5 5) * 64)

/-- Put a line into a core's L1, as the most recently used of its set: 8 data ways and 4 zero ways a set (R59, R62). A copy that
makes room is no sharer any more. Lines of object 1 are never held in an L1 (Table 3-6). -/
def fillL1 (s : State) (c : Nat) (l : Line) : State :=
  if l.obj = 1 then s
  else
    let k := getCore s c
    let old := k.l1.find? (isL1 l.obj l.index)
    let rest := k.l1.filter (fun m => !isL1 l.obj l.index m)
    let same := rest.filter (fun m => setL1 k m.obj m.index == setL1 k l.obj l.index && m.zero == l.zero)
    let victim := if same.length ≥ (if l.zero then 4 else 8) then same.find? (fun m => !m.pinned) else none
    let new : L1Line := ⟨l.obj, l.index, l.gen, l.guest, l.epoch, l.zero, false, (old.map (·.pinned)).getD false,
      (old.map (·.team)).getD 0, true, if l.zero then 0 else l.tags, false, if l.zero then [] else l.data⟩
    match victim with
    | none => setCore s c { k with l1 := rest ++ [new] }
    | some v => dropSharer (setCore s c { k with l1 := rest.erase v ++ [new] }) c v.obj v.index

/-- Look a line up in a core's L1 (R61, R67, R71): another generation is invalidated and loses its pin; a guest copy of an older
epoch and a copy with an uncorrectable error are invalidated; each misses. A hit is the most recently used line of its set. -/
def probeL1 (s : State) (c : Nat) (e : Desc) (idx : Nat) : Option L1Line × State :=
  let k := getCore s c
  match k.l1.find? (isL1 e.id idx) with
  | none => (none, s)
  | some m =>
    if m.gen != e.gen then (none, dropSharer (dropL1 s [c] e.id idx) c e.id idx)
    else if !m.valid then (none, s)
    else if m.bad || (m.guest && m.epoch != (getDie s (dieOf c)).epoch) then (none, dropSharer (invalL1 s [c] e.id idx) c e.id idx)
    else (some m, setCore s c { k with l1 := k.l1.filter (fun x => !isL1 e.id idx x) ++ [m] })

/-! ### Slices (R60 to R66) -/

/-- A pin ends: its 128 bytes return to the quota (R70). -/
def returnQuota (s : State) (l : Line) : State :=
  if l.pinned then
    let q := getPart s l.part
    setPart s l.part { q with pinuse := insertKey q.pinuse l.pqc (lookup q.pinuse l.pqc 0 - 128) }
  else s

/-- The frame of a line at its home port when it is written back: a migrating page's old frame (R40), else as any request's. -/
def homeFrame (s : State) (d z : Nat) (l : Line) : Option (Frame × State) :=
  let off := l.index * 128
  if l.obj = 1 then some (⟨l.part, false, off % 2 ^ 41, none, 0, 0, 0⟩, s)
  else match portFrame s d z l.part l.obj false off with
    | .ok r => some r
    | .error _ =>
      match walkMap s l.part l.obj false off with
      | .entry pe src pg4m =>
        if entryLoc pe = 3 && (frameFault s l.part pg4m pe).isNone then some (frameOf s l.part l.obj pg4m pe src off, s) else none
      | _ => none

/-- A write of a pool line behind a CXL port that is down does not reach the device: its line there is left poisoned (R45; entry
72). -/
def losePool (s : State) (f : Frame) : State := { s with poolPoison := insertNat s.poolPoison (f.addr / 128) }

/-- Write a dirty data line back to its frame, whose page becomes dirty as the port accepts it (R33). A line whose page is gone has
nowhere to go and is dropped. The reads of its walk leave no line (entry 60). -/
def writeHome (s : State) (d z : Nat) (l : Line) : State :=
  if !l.dirty then s
  else match homeFrame s d z l with
    | none => s
    | some (f, s) =>
      if f.pool && s.linksDown.contains (2 * d + l.index % 2) then losePool s f
      else markDirty (writeFrame s f (lineBytes l) l.tags l.zero l.bad) d z f

/-- The cores of a die that have a line pinned in their L1. -/
def pinners (s : State) (d obj idx : Nat) : List Nat :=
  (s.cores.filter (fun e => dieOf e.1 == d && e.2.l1.any (fun m => isL1 obj idx m && m.pinned))).map (·.1)

/-- Remove a line from its slice: its L1 sharers go, with their pins for a line at its home, and its own pin's bytes return. -/
def removeLine (s : State) (d z : Nat) (l : Line) : State :=
  let s := returnQuota (if l.guest then invalL1 s l.sharers l.obj l.index
    else dropL1 s (l.sharers ++ (if l.pinned then pinners s d l.obj l.index else [])) l.obj l.index) l
  let sl := getSlice s d z
  setSlice s d z { sl with lines := sl.lines.filter (fun m => !(m.part == l.part && m.obj == l.obj && m.index == l.index && m.guest == l.guest)) }

/-- Two lines compete for the ways of one kind, data or zero, of an L2 set. -/
def sameWays (l m : Line) : Bool := setL2 m.obj (m.index * 128) == setL2 l.obj (l.index * 128) && m.zero == l.zero

/-- A zero-flagged line of a table that the hardware is about to write moves to a data way, which is allocated as for a demand miss: a
data line may be evicted for it, and no table line of that one's write-back is zero-flagged, since it holds a valid entry or a set bit
(R62). -/
def unzeroTable (s : State) (a : Nat) : State :=
  let a := a % 2 ^ 41
  match windowLine s a with
  | none => s
  | some l =>
    if !l.zero then s
    else
      let d := a / 2 ^ 38 % 8
      let z := homeSlice 1 a
      let new : Line := { l with zero := false, data := lineBytes l }
      let others := (getSlice s d z).lines.filter (· != l)
      let same := others.filter (sameWays new)
      let s := setSlice s d z { getSlice s d z with lines := others }
      let s := if same.length < 16 then s
        else match same.find? (fun m => !m.pinned) with
          | some v => writeHome (removeLine s d z v) d z v
          | none => s
      setSlice s d z { getSlice s d z with lines := (getSlice s d z).lines ++ [new] }

/-- The hardware writes bytes of a table: a zero-flagged line of it takes a data way first (R62). -/
def tableWrite (s : State) (a : Nat) (bs : List Byte) : State := tablePut (unzeroTable s a) a bs

/-- Write a dirty line back; the bit of a zero line may go to a zero-flagged line of its bitmap, which takes a data way. -/
def writeBack (s : State) (d z : Nat) (l : Line) : State :=
  if l.dirty && l.zero then
    match homeFrame s d z l with
    | some (f, s) => writeHome (match f.bitmap with | some (a, _) => if bitmapOk s f then unzeroTable s a else s | none => s) d z l
    | none => s
  else writeHome s d z l

/-- Evict a line: write it back if dirty, then remove it. -/
def evictLine (s : State) (d z : Nat) (l : Line) : State := writeBack (removeLine s d z l) d z l

/-- Make room for a line and insert it as the most recently used: 16 data ways and 8 zero ways a set (R60, R62), 32,768
pool lines a slice (R44). A pinned line makes no room (R68). -/
def insertLine (s : State) (d z : Nat) (l : Line) : State :=
  let sl := getSlice s d z
  let same := sl.lines.filter (sameWays l)
  let s := if same.length ≥ (if l.zero then 8 else 16) then
      match same.find? (fun m => !m.pinned) with
      | some v => evictLine s d z v
      | none => s
    else s
  let pools := (getSlice s d z).lines.filter (·.pool)
  let s := if l.pool && decide (pools.length ≥ 32768) then
      match pools.find? (fun m => !m.pinned) with
      | some v => evictLine s d z v
      | none => s
    else s
  let sl := getSlice s d z
  setSlice s d z { sl with lines := sl.lines ++ [l] }

/-- Replace the line of a slice that has the same name. -/
def updateLine (s : State) (d z : Nat) (l : Line) : State :=
  setSlice s d z (mapLines (getSlice s d z)
    (fun m => m.part == l.part && m.obj == l.obj && m.index == l.index && m.guest == l.guest) (fun _ => l))

/-- A line takes new content; a zero line that is one no more moves to a data way, allocated as for a demand miss (R62). -/
def putLine (s : State) (d z : Nat) (old new : Line) : State :=
  if old.zero && !new.zero then insertLine (removeLine s d z { old with sharers := [], pinned := false }) d z new
  else updateLine s d z new

/-! ### Demand misses (R29, R30, R35) -/

/-- A table line is read at its home slice, as an ordinary coherent access: refused outside the partition's ranges, filled on a
miss (R30). -/
def touchTable (s : State) (p a : Nat) : Except MemErr State :=
  let a := a % 2 ^ 41
  let d := a / 2 ^ 38 % 8
  let z := homeSlice 1 a
  if !inRanges s p a then .error (.cap 0x0B)
  else match windowLine s a with
    | some l =>
      let sl := getSlice s d z
      .ok (setSlice s d z { sl with lines := sl.lines.filter (· != l) ++ [l] })
    | none =>
      if s.poison.contains (a / 128) then .error (.poison 0x01)
      else
        let r := readFrame s ⟨p, false, a / 128 * 128, none, 0, 0, 0⟩
        .ok (insertLine (touchRow s a) d z ⟨p, 0, 1, a / 128, false, false, 0, false, false, false, false, r.2.1, [], [], false, r.1⟩)

/-- Table lines are read one after another. -/
def touchTables (s : State) (p : Nat) : List Nat → Except MemErr State
  | [] => .ok s
  | a :: r => match touchTable s p a with
    | .error x => .error x
    | .ok s => touchTables s p r

/-- The descriptor through a core's descriptor cache of 256 entries, least recently used first (R29). -/
def descOf (s : State) (c id : Nat) : Except MemErr (Desc × State) :=
  let k := getCore s c
  match k.descs.find? (fun e => e.id == id) with
  | some e => .ok (e, setCore s c { k with descs := k.descs.filter (fun x => x.id != id) ++ [e] })
  | none =>
    if id = 0 || decide ((getPart s k.part).otlen.toNat ≤ id) then .error (.cap 0x09)
    else match touchTable s k.part (entryAddr s k.part id) with
      | .error x => .error x
      | .ok s =>
        match readEntry s k.part id with
        | none => .error (.cap 0x09)
        | some e =>
          let k := getCore s c
          .ok (e, setCore s c { k with descs := (if k.descs.length ≥ 256 then k.descs.drop 1 else k.descs) ++ [e] })

/-- An extent of a port maps the page of an offset. -/
def extentHit (s : State) (d z p id : Nat) (shadow : Bool) (off : Nat) : Bool :=
  (getSlice s d z).extents.any (fun x => x.part == p && x.obj == id && x.shadow == shadow && x.page == pageOf x.pg4m off)

/-- Translate a line at its home port (R34, R35); object 1 is the identity window, within the partition's ranges (R30). -/
def translate (s : State) (d z p : Nat) (e : Desc) (shadow : Bool) (off : Nat) : Except MemErr (Frame × State) :=
  if e.id = 1 then
    if inRanges s p off then .ok (⟨p, false, off % 2 ^ 41 / 128 * 128, none, 0, 0, 0⟩, s) else .error (.cap 0x0B)
  else if extentHit s d z p e.id shadow off then portFrame s d z p e.id shadow off
  else match touchTables s p (walkAddrs s p e.id shadow off) with
    | .error x => .error x
    | .ok s => portFrame s d z p e.id shadow off

/-- Look a line up in a slice: another generation, a guest line of an older epoch, or a guest line with an uncorrectable error is
invalidated and misses (R61, R67, R71). -/
def probe (s : State) (d z p : Nat) (e : Desc) (idx : Nat) : Option Line × State :=
  match (getSlice s d z).lines.find? (fun l => l.part == p && l.obj == e.id && l.index == idx) with
  | none => (none, s)
  | some l =>
    if l.gen != e.gen || (l.guest && (l.bad || l.epoch != (getDie s d).epoch)) then (none, removeLine s d z l)
    else
      let sl := getSlice s d z
      (some l, setSlice s d z { sl with lines := sl.lines.filter (· != l) ++ [l] })

/-- The CXL port by which a pool line's request leaves: of the IO0 hub of its home die, by line index bit 0 (R43). -/
def poolPort (e : Desc) (off : Nat) : Nat := 2 * homeDie e off + off / 128 % 2

/-- A bitmap access goes through object 1 as any table read (R30, R42). -/
def touchBitmap (s : State) (p : Nat) (f : Frame) : Except MemErr State :=
  match f.bitmap with
  | none => .ok s
  | some (a, _) => touchTable s p a

/-- The line of a frame stands as poisoned in its memory (R71, R45). -/
def frameBad (s : State) (f : Frame) : Bool := (if f.pool then s.poolPoison else s.poison).contains (f.addr / 128)

/-- The line of an offset at its home slice, filled on a miss. A set bitmap bit answers without a read of memory (Table 2-5); data
that are poisoned in memory, behind a port that is down, or in the slice are not consumed (R45, R71). -/
def homeLine (s : State) (p : Nat) (e : Desc) (off : Nat) : Except MemErr (Line × State) :=
  let d := homeDie e off
  let z := homeSlice e.id off
  if e.length ≤ off then .error (.cap 0x0B)
  else
    match probe s d z p e (off / 128) with
    | (some l, s) => if l.bad then .error (.poison 0x01) else .ok (l, s)
    | (none, s) =>
      match translate s d z p e false off with
      | .error err => .error err
      | .ok (f, s) =>
        match touchBitmap s p f with
        | .error err => .error err
        | .ok s =>
          if !bitmapBit s f && frameBad s f then .error (.poison 0x01)
          else if !bitmapBit s f && f.pool && s.linksDown.contains (poolPort e off) then .error (.poison 0x03)
          else
            let (bytes, tags, zero) := readFrame s f
            let s := if zero || f.pool then s else touchRow s f.addr
            let l : Line := ⟨p, 0, e.id, off / 128, e.gen, false, 0, zero, false, false, f.pool, tags, [], [], false, if zero then [] else bytes⟩
            .ok (l, insertLine s d z l)

/-! ### A core's reads (R64 to R67) -/

/-- The line of an offset at the slice that serves a die: the home slice on that die, or through the die's own slice of the same
number, which keeps a guest line (R66); pool lines stay at their home (R44). No core becomes a sharer. -/
def sliceLine (s : State) (d p : Nat) (e : Desc) (off : Nat) : Except MemErr (Line × State) :=
  let z := homeSlice e.id off
  if homeDie e off = d then homeLine s p e off
  else if e.length ≤ off then .error (.cap 0x0B)
  else
    match probe s d z p e (off / 128) with
    | (some l, s) => .ok (l, s)
    | (none, s) =>
      match homeLine s p e off with
      | .error err => .error err
      | .ok (l, s) =>
        if l.pool then .ok (l, s)
        else
          let g := { l with guest := true, epoch := (getDie s d).epoch, dirty := false, pinned := false, sharers := [] }
          .ok (g, insertLine s d z g)

/-- The line that a core's L1 copy stands for; what stores have cleared of its tags is known at its slice (R19). -/
def lineOfL1 (s : State) (c p : Nat) (m : L1Line) : Line :=
  let at_ := (getSlice s (dieOf c) (homeSlice m.obj (128 * m.index))).lines.find? (fun l => l.part == p && l.obj == m.obj && l.index == m.index)
  ⟨p, 0, m.obj, m.index, m.gen, m.guest, m.epoch, m.zero, false, false, false, m.tags, (at_.map (·.drops)).getD [], [], false, m.data⟩

/-- A core reads the line of an offset: from its L1, or at a slice, which notes it as a sharer and fills its L1 (R64). -/
def readLine (s : State) (c : Nat) (e : Desc) (off : Nat) : Except MemErr (Line × State) :=
  let p := (getCore s c).part
  if e.length ≤ off then .error (.cap 0x0B)
  else
    match probeL1 s c e (off / 128) with
    | (some m, s) => .ok (lineOfL1 s c p m, s)
    | (none, s) =>
      match sliceLine s (dieOf c) p e off with
      | .error err => .error err
      | .ok (l, s) =>
        if (l.pool && homeDie e off != dieOf c) || e.id == 1 then .ok (l, s)
        else
          let l' := { l with sharers := insertNat l.sharers c }
          .ok (l', fillL1 (updateLine s (dieOf c) (homeSlice e.id off) l') c l')

/-! ### Writes at the home slice (R62, R64, R66) -/

/-- A team among those of its launch: its index, and its place in a span (R136). -/
def teamKey (t : Team) : Nat := 64 * t.tl + 8 * t.spanRow + t.spanCol

/-- The name that a store of a slot of a core leaves: of its group the launch, one up, the team and the group; of the supervisor
lane the core, one up. -/
def storerOf (s : State) (c slot : Nat) : Nat × Nat × Nat :=
  if slot = Config.laneSlot then (0, c + 1, 0)
  else let g := getGroup s c slot; (g.launch + 1, teamKey (getTeam s c g.team), g.wg.toNat)

/-- The name that a store of the slot being issued leaves; zeros where no core stores. -/
def storer (s : State) (c : Option Nat) : Nat × Nat × Nat := if c.isNone then (0, 0, 0) else storerOf s s.cur.core s.cur.slot

/-- Bytes written into a line from position `i`: the tags of the touched quanta clear, or all of them take `tag` for a
tagged stk (R17); a zero line leaves its zero way unless the whole line is written with zeros (R62). `by_` is the storing
group, kept with a quantum whose set tag the bytes clear (R19). -/
def writeInto (l : Line) (by_ : Nat × Nat × Nat) (i : Nat) (bs : List Byte) (tag : Bool) : Line :=
  let touched := fun q => decide (i / 16 ≤ q) && decide (q ≤ (i + bs.length - 1) / 16)
  let tags := (upTo 8).foldl (fun t q => if touched q then (if tag then t ||| BitVec.ofNat 8 (2 ^ q) else t &&& ~~~ (BitVec.ofNat 8 (2 ^ q))) else t) l.tags
  let drops := (upTo 8).foldl (fun m q =>
    if tags.getLsbD q then eraseKey m q else if l.tags.getLsbD q then insertKey m q by_ else m) l.drops
  if bs.length == 128 && bs.all (· == 0) then
    { l with zero := l.zero, tags := tags, drops := drops, data := if l.zero then [] else bs }
  else { l with zero := false, tags := tags, drops := drops, data := putBytes (lineBytes l) i bs }

/-- The storing core's L1 copy of a line takes the bytes, once the store is acknowledged (R64). -/
def ackL1 (s : State) (c p : Nat) (e : Desc) (off : Nat) (bs : List Byte) (tag : Bool) : State :=
  match (getCore s c).l1.find? (isL1 e.id (off / 128)) with
  | none => s
  | some m =>
    if !m.valid || m.gen != e.gen then s
    else fillL1 s c (writeInto (lineOfL1 s c p m) (0, 0, 0) (off % 128) bs tag)

/-- A store within one line at its home slice, and into the storing die's guest copy if it holds one (R64, R66): every other
sharer's L1 copy goes. `c` is the storing core, `none` for a hub or an operation at the slice; `by_` names the storing group. A line
that a write covers whole is not read first, so that its poison ends. -/
def storeLineBy (by_ : Nat × Nat × Nat) (s : State) (p : Nat) (c : Option Nat) (e : Desc) (off : Nat) (bs : List Byte)
    (tag : Bool) : Except MemErr State :=
  let d := homeDie e off
  let z := homeSlice e.id off
  let put := fun (s : State) (d : Nat) (l : Line) (dirty : Bool) =>
    let s := invalL1 s (l.sharers.filter (fun k => some k != c)) l.obj l.index
    putLine s d z l { writeInto l by_ (off % 128) bs tag with
      dirty := dirty, sharers := l.sharers.filter (fun k => some k == c), bad := l.bad && bs.length != 128 }
  let home : Except MemErr (Line × State) := match (getSlice s d z).lines.find? (fun l => l.part == p && l.obj == e.id && l.index == off / 128 && l.gen == e.gen && l.bad) with
    | some l => if bs.length = 128 && decide (off < e.length) then .ok (l, s) else homeLine s p e off
    | none => homeLine s p e off
  match home with
  | .error err => .error err
  | .ok (l, s) =>
    let s := put s d l true
    match c with
    | none => .ok s
    | some k =>
      if dieOf k = d then .ok s
      else match probe s (dieOf k) z p e (off / 128) with
        | (none, s) => .ok s
        | (some g, s) => .ok (put s (dieOf k) g false)

/-- A store within one line, to its acknowledgement (R64). -/
def writeLineBy (by_ : Nat × Nat × Nat) (s : State) (p : Nat) (c : Option Nat) (e : Desc) (off : Nat) (bs : List Byte)
    (tag : Bool) : Except MemErr State :=
  match storeLineBy by_ s p c e off bs tag, c with
  | .error err, _ => .error err
  | .ok s, none => .ok s
  | .ok s, some k => .ok (ackL1 s k p e off bs tag)

/-- Write bytes of one line for a core, or for a hub. -/
def writeLine (s : State) (p : Nat) (c : Option Nat) (e : Desc) (off : Nat) (bs : List Byte) (tag : Bool) :
    Except MemErr State := writeLineBy (storer s c) s p c e off bs tag

/-- Drop the issuing die's guest copy of a line, as an eviction does (R113): an atomic or reduction acts at the home. -/
def dropGuest (s : State) (c p : Nat) (e : Desc) (off : Nat) : State :=
  let d := dieOf c
  if homeDie e off = d then s
  else match probe s d (homeSlice e.id off) p e (off / 128) with
    | (none, s) => s
    | (some l, s) => removeLine s d (homeSlice e.id off) l

/-- A zfill of the line of an offset (R281, R62): a dirty zero line at the home without reading memory; a pinned line keeps
its data way and takes zeros. The issuing die's guest copy and the core's L1 copy take the zeros too. -/
def zeroLine (by_ : Nat × Nat × Nat) (s : State) (p c : Nat) (e : Desc) (off : Nat) : Except MemErr State :=
  let d := homeDie e off
  let z := homeSlice e.id off
  let zeros := List.replicate 128 (0 : Byte)
  let zeroed := fun (l : Line) => { writeInto l by_ 0 zeros false with sharers := l.sharers.filter (· == c), bad := false }
  let inval := fun (s : State) (l : Line) => invalL1 s (l.sharers.filter (· != c)) l.obj l.index
  let guest := if dieOf c = d then s else
    match probe s (dieOf c) z p e (off / 128) with
    | (none, s) => s
    | (some g, s) => updateLine (inval s g) (dieOf c) z (zeroed g)
  match probe guest d z p e (off / 128) with
  | (some l, s) =>
    let s := inval s l
    let s := if l.pinned then updateLine s d z { zeroed l with dirty := true }
      else insertLine (removeLine s d z { l with sharers := [] }) d z { zeroed l with zero := true, dirty := true, data := [] }
    .ok (ackL1 s c p e off zeros false)
  | (none, s) =>
    if e.length ≤ off then .error (.cap 0x0B)
    else
      match translate s d z p e false off with
      | .error x => .error x
      | .ok (f, s) =>
        .ok (ackL1 (insertLine s d z ⟨p, 0, e.id, off / 128, e.gen, false, 0, true, true, false, f.pool, 0, [], [], false, []⟩)
          c p e off zeros false)

/-- One indivisible read-modify-write of `n` bytes at the home slice for a core, in the name of a group (R64, R77, R274): the old
bytes, all L1 sharers gone. -/
def modifyLineBy (by_ : Nat × Nat × Nat) (s : State) (c p : Nat) (e : Desc) (off n : Nat) (f : List Byte → List Byte) :
    Except MemErr (List Byte × State) :=
  match homeLine (dropGuest s c p e off) p e off with
  | .error err => .error err
  | .ok (l, s) =>
    let old := ((lineBytes l).drop (off % 128)).take n
    match writeLineBy by_ s p none e off (f old) false with
    | .error err => .error err
    | .ok s => .ok (old, s)

/-- One indivisible read-modify-write by the slot being issued. -/
def modifyLine (s : State) (c p : Nat) (e : Desc) (off n : Nat) (f : List Byte → List Byte) : Except MemErr (List Byte × State) :=
  modifyLineBy (storer s (some c)) s c p e off n f

/-- Split `[off, off + n)` at line boundaries: offsets and lengths, at most `fuel` pieces. -/
def linePieces : Nat → Nat → Nat → List (Nat × Nat)
  | 0, _, _ => []
  | fuel + 1, off, n =>
    if n = 0 then []
    else
      let here := Nat.min n (128 - off % 128)
      (off, here) :: linePieces fuel (off + here) (n - here)

/-- Bytes of an object at their home slices: what a copy channel, an engine or a hub reads (R98, R114). -/
def readHome (s : State) (p : Nat) (e : Desc) (off n : Nat) : Except MemErr (List Byte × State) :=
  (linePieces (n / 128 + 2) off n).foldl (fun acc pc =>
    match acc with
    | .error x => .error x
    | .ok (bs, s) =>
      match homeLine s p e pc.1 with
      | .error x => .error x
      | .ok (l, s) => .ok (bs ++ ((lineBytes l).drop (pc.1 % 128)).take pc.2, s)) (.ok ([], s))

/-- Write bytes of an object in the name of a group, line by line in ascending order. -/
def writeObjectBy (by_ : Nat × Nat × Nat) (s : State) (p : Nat) (c : Option Nat) (e : Desc) (off : Nat) (bs : List Byte) (tag : Bool) :
    Except MemErr State :=
  (linePieces (bs.length / 128 + 2) off bs.length).foldl (fun acc pc =>
    match acc with
    | .error x => .error x
    | .ok s => writeLineBy by_ s p c e pc.1 ((bs.drop (pc.1 - off)).take pc.2) tag) (.ok s)

/-- Write bytes of an object, line by line in ascending order. -/
def writeObject (s : State) (p : Nat) (c : Option Nat) (e : Desc) (off : Nat) (bs : List Byte) (tag : Bool) :
    Except MemErr State := writeObjectBy (storer s c) s p c e off bs tag

/-- Write bytes through the shadow map: translated at the home port, written to memory, never allocated (R104); a request behind a
CXL port that is down ends with poison (R45). -/
def writeShadow (s : State) (p : Nat) (e : Desc) (off : Nat) (bs : List Byte) (tag : Bool) : Except MemErr State :=
  (linePieces (bs.length / 128 + 2) off bs.length).foldl (fun acc pc =>
    match acc with
    | .error x => .error x
    | .ok s =>
      if e.length ≤ pc.1 then .error (.cap 0x0B)
      else
        match translate s (homeDie e pc.1) (homeSlice e.id pc.1) p e true pc.1 with
        | .error x => .error x
        | .ok (f, s) =>
          match touchBitmap s p f with
          | .error x => .error x
          | .ok s =>
            if f.pool && s.linksDown.contains (poolPort e pc.1) then .error (.poison 0x03)
            else
            let (old, tags, _) := readFrame s f
            let l : Line := ⟨p, 0, e.id, pc.1 / 128, e.gen, false, 0, false, true, false, f.pool, tags, [], [], false, old⟩
            let l := writeInto l (0, 0, 0) (pc.1 % 128) ((bs.drop (pc.1 - off)).take pc.2) tag
            let bad := pc.2 != 128 && !bitmapBit s f && frameBad s f
            .ok (markDirty (writeFrame s f (lineBytes l) l.tags false bad) (homeDie e pc.1) (homeSlice e.id pc.1) f)) (.ok s)

/-- Bytes within one line of an object as its shadow map has them. -/
def readShadow (s : State) (p : Nat) (e : Desc) (off n : Nat) : Except MemErr (List Byte × State) :=
  match translate s (homeDie e off) (homeSlice e.id off) p e true off with
  | .error x => .error x
  | .ok (f, s) =>
    match touchBitmap s p f with
    | .error x => .error x
    | .ok s =>
      if !bitmapBit s f && frameBad s f then .error (.poison 0x01)
      else if !bitmapBit s f && f.pool && s.linksDown.contains (poolPort e off) then .error (.poison 0x03)
      else
        let s := if bitmapBit s f || f.pool then s else touchRow s f.addr
        .ok (((readFrame s f).1.drop (off % 128)).take n, s)

/-- A store is translated before its region commits (R38): its line is held by the home slice, or its page translates. -/
def pretranslate (s : State) (p : Nat) (e : Desc) (off : Nat) : Except MemErr State :=
  if e.length ≤ off then .error (.cap 0x0B)
  else
    match probe s (homeDie e off) (homeSlice e.id off) p e (off / 128) with
    | (some _, s) => .ok s
    | (none, s) =>
      match translate s (homeDie e off) (homeSlice e.id off) p e false off with
      | .error x => .error x
      | .ok (_, s) => .ok s

/-! ### Epoch steps and shoot-down (R36, R67) -/

/-- One guest-epoch step of a die; on the wrap every guest line of the die is invalidated (R67). -/
def epochStep (s : State) (d : Nat) : State :=
  let k := getDie s d
  if k.epoch = 255 then
    let k := { k with epoch := 0, slices := k.slices.map (fun z => (z.1, { z.2 with lines := z.2.lines.filter (fun l => !l.guest) })) }
    let s := setDie s d k
    { s with cores := s.cores.map (fun e => if dieOf e.1 == d then (e.1, { e.2 with l1 := e.2.l1.filter (fun l => !l.guest) }) else e) }
  else setDie s d { k with epoch := k.epoch + 1 }

/-- Dies of a partition: those of its cores and of its HBM ranges. -/
def partDies (s : State) (p : Nat) : List Nat :=
  let q := getPart s p
  (upTo Config.dies).filter (fun d => q.cores.any (fun c => dieOf c == d) || q.ranges.any (fun r => r.1 / 2 ^ 38 == d))

/-- A request parks at its home port on a migrating page, or waits at the slice beyond 32 of them, until an extinv of its object
arrives (R40). One that is parked already stays. -/
def parkRequest (s : State) (e : Desc) (off : Nat) (r : Parked) : State :=
  let d := homeDie e off
  let z := getSlice s d (homeSlice e.id off)
  if (z.parked ++ z.waiting).contains r then s
  else setSlice s d (homeSlice e.id off)
    (if z.parked.length < 32 then { z with parked := z.parked ++ [r] } else { z with waiting := z.waiting ++ [r] })

/-- A request that goes on with a step parks at its home port. -/
def parkAt (s : State) (p : Nat) (e : Desc) (off : Nat) (step : Due) : State := parkRequest s e off ⟨p, e.id, some step, 0, 0, off⟩

/-- A request of an instruction or a fetch of a group slot parks at its home port. -/
def parkIssue (s : State) (c slot obj off : Nat) : State :=
  let p := (getCore s c).part
  match readEntry s p obj with
  | none => s
  | some e => parkRequest s e off ⟨p, obj, none, c, slot, off⟩

/-- A request of a group slot for an object is parked at a port, or waits there. -/
def issueParked (s : State) (c slot obj off : Nat) : Bool :=
  s.dies.any (fun d => d.2.slices.any (fun z => (z.2.parked ++ z.2.waiting).any (fun r =>
    r.step.isNone && r.core == c && r.slot == slot && r.obj == obj && r.off == off)))

/-- A parked request is of an object, 0 standing for every one, in a partition. -/
def parkedOn (p id : Nat) (r : Parked) : Bool := r.part == p && (id == 0 || r.obj == id)

/-- One slice takes the invalidation of object `id` (0 for every object): extents go, walks turn stale, parked requests
are released, and those that wait at the slice come to the port (R36, R40). -/
def shootSlice (p id : Nat) (z : Slice) : Slice :=
  { z with
    extents := z.extents.filter (fun x => !(x.part == p && (id == 0 || x.obj == id)))
    walks := z.walks.map (fun w => if w.part == p && (id == 0 || w.obj == id) then { w with stale := true } else w)
    parked := z.parked.filter (fun r => !parkedOn p id r)
    waiting := if z.parked.any (parkedOn p id) then [] else z.waiting.filter (fun r => !parkedOn p id r) }

/-- The hub of a die takes the invalidation: its cached reverse-map entries of the object go (R45; entry 65). -/
def shootHub (p id : Nat) (k : Die) : Die := { k with reverse := k.reverse.filter (fun r => !(r.1 == p && (id == 0 || r.2.2 / 2 ^ 32 == id))) }

/-- The steps of the requests that an invalidation lets go from a slice, in order. -/
def released (p id : Nat) (z : Slice) : List Due :=
  ((z.parked.filter (parkedOn p id)) ++ (if z.parked.any (parkedOn p id) then z.waiting else z.waiting.filter (parkedOn p id))).filterMap (·.step)

/-- One core takes the invalidation: descriptor and instruction-cache entries go. -/
def shootCore (id : Nat) (k : Core) : Core :=
  { k with
    descs := k.descs.filter (fun e => !(id == 0 || e.id == id))
    icache := k.icache.filter (fun e => !(id == 0 || e.1 / 2 ^ 37 == id)) }

/-- Lines of an object whose entry has become invalid lose their pins at an extinv, in slices and in L1s (R70). -/
def unpinInvalid (s : State) (p id : Nat) : State :=
  let dead := fun (obj : Nat) => (id == 0 || obj == id) && (readEntry s p obj).isNone
  let u := s.dies.foldl (fun s e => e.2.slices.foldl (fun s z => z.2.lines.foldl (fun s l =>
    if l.pinned && l.part == p && dead l.obj then updateLine (returnQuota s l) e.1 z.1 { l with pinned := false } else s) s) s) s
  { u with cores := u.cores.map (fun e => if e.2.part == p then
      (e.1, { e.2 with l1 := (e.2.l1.map (fun m => if m.pinned && dead m.obj then { m with pinned := false } else m)).filter (fun m => m.valid || m.pinned) })
    else e) }

/-- The receivers of a shoot-down of an object over a partition, as steps: every die's epoch step, then every slice's port and
every core that the invalidation reaches; `c` is the issuing core. A receiver that holds nothing is not listed. -/
def shootSteps (s : State) (c p id : Nat) : List Due × List Due :=
  ((partDies s p).map (fun d => ⟨.guestEpochStepDone, { die := d }⟩),
   s.dies.flatMap (fun e => e.2.slices.map (fun z => ⟨.shootdownReceive, { core := c, die := e.1, unit := z.1, obj := id, value := p }⟩))
     ++ (s.cores.filter (fun e => e.2.part == p)).map (fun e =>
          ⟨.shootdownReceive, { core := c, unit := e.1, obj := id, value := p, flag := true }⟩))

/-- The shoot-down of an object over a partition, complete: every receiver has dropped its entries and acknowledged, and
every die has taken its epoch step (R36). -/
def shootDown (s : State) (p id : Nat) : State :=
  let s := unpinInvalid s p id
  let go := s.dies.flatMap (fun e => e.2.slices.flatMap (fun z => released p id z.2))
  let s := { s with
    dies := s.dies.map (fun e => (e.1, shootHub p id { e.2 with slices := e.2.slices.map (fun z => (z.1, shootSlice p id z.2)) }))
    cores := s.cores.map (fun e => if e.2.part == p then (e.1, shootCore id e.2) else e) }
  pushDue ((partDies s p).foldl epochStep s) go

/-- Whether a request of the group can go on: the trap or the wait that a failed access becomes. -/
def memAbort (err : MemErr) (lane obj off kind : Nat) : Abort :=
  match err with
  | .cap c => .trap { cls := 5, code := c, lane := lane, obj := obj, off := off, kind := kind }
  | .page c => .trap { cls := 7, code := c, lane := lane, obj := obj, off := off, kind := kind }
  | .migrating o a => .hold (.migrating o a)
  | .poison c => .trap { cls := 1, code := c, lane := lane, obj := obj, off := off, kind := kind }

/-- Lift a memory result into an instruction's. -/
def liftMem {α : Type} (lane obj off kind : Nat) (r : Except MemErr α) : Res α :=
  match r with
  | .ok a => .ok a
  | .error e => .error (memAbort e lane obj off kind)

end Sys2Proof.Machine
end

