-- ==== Sys2Proof/Machine/Operands.lean ====
section
/-!
DEFINITION. Operand forms: the static checks of a slot (spec/07 Table 7-11), guards and active lanes (R176), lane registers
with renaming, last-read bits and fixed-latency results (R163 to R166, R181, R182), lane patterns (R168, R169), stream
registers (R170, R171), literals (R177), predicates, uniform and capability registers (R172).
-/

namespace Sys2Proof.Machine

/-! ### What stops an instruction -/

/-- The issuing quads wait at their PC; a credit group that finds no register is to be evicted (R146), and a request that meets a
migrating page parks at its port (R40). -/
def holdIssue (s : State) (p : Park) : State :=
  let g := curGroup s
  let t := setCur s (s.cur.quads.foldl (fun g q => setQuad g q { getQuad g q with park := p }) g)
  match p with
  | .noRegister _ => pushDue t [⟨.creditEviction, { core := s.cur.core, unit := s.cur.slot }⟩]
  | .migrating obj off => parkIssue t s.cur.core s.cur.slot obj off
  | _ => t

/-- The state after what stopped an instruction. -/
def stopFor (s : State) (a : Abort) : State :=
  match a with
  | .trap t => takeTrap s t
  | .hold p => holdIssue s p
  | .lateTrap u t => takeTrap u t
  | .lateHold u p => holdIssue u p

/-- The outcome of an instruction's own effect: retire it, or take what stopped it. -/
def finish (s : State) (r : Res State) : Host.Outcome State Fault Refusal :=
  match r with
  | .ok t => .next (retire t)
  | .error a => .next (stopFor s a)

/-! ### Lanes and static facts -/

/-- Values of the 32 lanes of a group, lane 0 first. -/
abbrev Lanes := List Word

def laneVal (v : Lanes) (i : Nat) : Word := v.getD i 0

/-- What the static checks of an instruction need to know (Table 8-1, Table 11-1). -/
structure OpInfo where
  /-- Literal width the instruction takes in place of b: 0, 32 or 64. -/
  lit   : Nat := 0
  /-- The address-stream marker is allowed (R153). -/
  astr  : Bool := false
  /-- Only the guard p0 is allowed (R245). -/
  p0    : Bool := false
  /-- Supervisor mode only (Table 16-6). -/
  sup   : Bool := false
  /-- Not executable in the supervisor lane (R347). -/
  noLane : Bool := false
  /-- Lane-register fields a and b, where the instruction reads them as sources. -/
  srcA  : Option (BitVec 7) := none
  srcB  : Option (BitVec 7) := none
  /-- Lane-register field d, where the instruction reads it with a pattern (csrw, gsave). -/
  srcD  : Option (BitVec 7) := none
  /-- Lane-register destination field. -/
  dst   : Option (BitVec 7) := none
  /-- The b field is not zero: with a literal this is malformed (R177). -/
  bUsed : Bool := false
  /-- A reserved fn value (code 0x02). -/
  fnBad : Bool := false
  /-- P format: equal true and false predicates other than p0. -/
  pBad  : Bool := false
  /-- A reserved width or another malformed field (code 0x10). -/
  encBad : Bool := false
  /-- A reserved scope (code 0x05). -/
  scopeBad : Bool := false
  /-- k0 or k1 as destination capability register (R16). -/
  kBad  : Bool := false
  /-- An operand of several names that would pass the last name, or a stream register where several names are meant (R211, R267). -/
  rangeBad : Bool := false

/-- Register code of an operand field (R167). -/
def codeOf (f : BitVec 7) : Nat := fieldNat f 0 5
/-- Pattern select of an operand field (R167). -/
def patOf (f : BitVec 7) : Nat := fieldNat f 5 2
/-- The field names a stream register q0 to q3. -/
def isStream (f : BitVec 7) : Bool := decide (12 ≤ codeOf f) && decide (codeOf f ≤ 15)
/-- The field names a home or window register. -/
def isNamed (f : Option (BitVec 7)) : Bool := match f with | none => false | some f => !isStream f

/-- Architectural name of a register code: h0 to h11 are 0 to 11, wN is 12 + WB + N (R163). -/
def nameOf (g : Group) (f : BitVec 7) : Nat :=
  if codeOf f < 12 then codeOf f else 12 + g.regs.wb + (codeOf f - 16)

/-! ### Fixed-latency results (R181, R182) -/

/-- Whether the newest result of a name is not ready at `clock`. -/
def pendingStall (pend : List Pending) (key clock : Nat) : Bool :=
  match pend.find? (fun e => e.key == key) with
  | none => false
  | some e => decide (clock < e.readyAt)

/-- Note a result of latency `lat` issued at `clock` by a slot of a stream; a list whose results are all ready is emptied. -/
def addPending (pend : List Pending) (key clock lat : Nat) (astr : Bool) (old : Option QReg) : List Pending :=
  ⟨key, clock + lat, old, astr⟩ :: (if pend.all (fun e => decide (e.readyAt ≤ clock)) then [] else pend)

/-- An interlocked result, or an unmapping, supersedes the earlier results of its name (R165, R166). -/
def dropPending (pend : List Pending) (key : Nat) : List Pending := pend.filter (fun e => e.key != key)

/-- The clock until which a read by a slot of one stream waits for a result of the other (R173); 0 for none. -/
def pendingWait (pend : List Pending) (key clock : Nat) (astr : Bool) : Nat :=
  match pend.find? (fun e => e.key == key) with
  | none => 0
  | some e => if clock < e.readyAt && e.astr != astr then e.readyAt else 0

/-- Checking flags in force for a group (R183): bit 0 STALLCHK, bit 1 DEADCHK. -/
def stallChk (s : State) (c slot : Nat) : Bool :=
  (getLaunch s (getGroup s c slot).launch).flags.getLsbD 7 || (getCore s c).sbcheck.getLsbD 0
def deadChk (s : State) (c slot : Nat) : Bool :=
  (getLaunch s (getGroup s c slot).launch).flags.getLsbD 8 || (getCore s c).sbcheck.getLsbD 1

/-! ### Lanes of the issuing candidate -/

def qget (q : QReg) (i : Nat) : Word := if i = 0 then q.l0 else if i = 1 then q.l1 else if i = 2 then q.l2 else q.l3
def qset (q : QReg) (i : Nat) (w : Word) : QReg :=
  if i = 0 then { q with l0 := w } else if i = 1 then { q with l1 := w } else if i = 2 then { q with l2 := w } else { q with l3 := w }

/-- A uniform register, read at issue. -/
def readUnif (g : Group) (clock u : Nat) : Word :=
  ((pendingValue g.regs.pend (unifKey u) clock (some (wordReg (lookup g.regs.unif u 0)))).getD QReg.zero).l0

/-- Quads with an active lane, ascending. -/
def activeQuads (s : State) : List Nat := s.cur.quads.filter (fun q => (activeLanes s).any (fun i => i / 4 == q))

/-! ### Lane patterns (R168, R169) -/

/-- Source lane of lane `i` under pattern register `lp`. -/
def patLane (lp : BitVec 8) (i : Nat) : Nat :=
  let n := fieldNat lp 0 5
  match fieldNat lp 5 3 with
  | 0 => (i + n) % 32
  | 1 => n
  | 2 => i ^^^ n
  | _ => i ^^^ (2 ^ n - 1)

/-- Source lane of lane `i` for an operand field. -/
def fieldLane (g : Group) (f : BitVec 7) (i : Nat) : Nat :=
  if patOf f = 0 then i else patLane (lookup g.regs.lps (patOf f) 0) i

/-- A pattern of the field reaches a lane of another quad. -/
def crosses (s : State) (f : BitVec 7) : Bool :=
  (activeLanes s).any (fun i => fieldLane (curGroup s) f i / 4 != i / 4)

/-! ### Static checks (Table 7-11) -/

/-- The first row of Table 7-11 that the slot meets, as the code of a class-0x3 trap. -/
def slotFault (s : State) (o : OpInfo) : Option Nat :=
  let lit := s.cur.literal.isSome
  let broadcast := fun (f : BitVec 7) => patOf f != 0 && fieldNat (lookup (curGroup s).regs.lps (patOf f) 0) 5 3 == 1
  if o.fnBad then some 0x02
  else if s.cur.litCtl then some 0x10
  else if lit && (o.lit == 0 || o.bUsed || (s.cur.lmap == 3 && o.lit != 64)) then some 0x10
  else if ctlAstr s && !o.astr then some 0x10
  else if (match o.dst with | some f => broadcast f | none => false) then some 0x10
  else if o.pBad then some 0x10
  else if ctlLastA s && !isNamed o.srcA then some 0x10
  else if ctlLastB s && (lit || !isNamed o.srcB) then some 0x10
  else if o.scopeBad then some 0x05
  else if o.encBad then some 0x10
  else if o.kBad then some 0x10
  else if o.rangeBad then some 0x10
  else if o.p0 && (ctlGpred s != 0 || ctlGneg s) then some 0x10
  else if o.sup && !isSuper s then some 0x03
  else if o.noLane && isLane s then some 0x06
  else none

/-- The clock until which a slot waits for its guard, a result of the other stream (R173); 0 for none. -/
def guardWait (s : State) : Nat := pendingWait (curGroup s).regs.pend (predKey (ctlGpred s)) s.clock (ctlAstr s)

/-- The checks that precede an instruction's own: Table 7-11, a wait for the guard, then patterns across quads while parted (R169). -/
def checkSlot (s : State) (o : OpInfo) : Res Unit :=
  match slotFault s o with
  | some c => illegal c
  | none =>
    if guardWait s ≠ 0 then .error (.hold (.result (guardWait s)))
    else if isParted (curGroup s) &&
        ((o.srcA.toList ++ (if s.cur.literal.isSome then [] else o.srcB.toList) ++ o.srcD.toList ++ o.dst.toList).any (crosses s))
    then trapNow 4 0x06
    else .ok ()

/-! ### Reading lane registers -/

/-- A name's quad register as an issue at `clock` reads it; none when unmapped. -/
def readName (g : Group) (clock name quad : Nat) : Option QReg :=
  pendingValue g.regs.pend (8 * name + quad) clock (find? g.regs.lanes (8 * name + quad))

/-- The values of a name in every lane; an unmapped name, a lane beyond the group and an exited quad read 0. -/
def nameLanes (g : Group) (clock name : Nat) : Lanes :=
  (upTo 32).map (fun i =>
    if g.nquad ≤ i / 4 || (getQuad g (i / 4)).exited then 0
    else qget ((readName g clock name (i / 4)).getD QReg.zero) (i % 4))

/-- Apply a field's pattern: lane `i` takes lane f(i). -/
def permute (g : Group) (f : BitVec 7) (v : Lanes) : Lanes :=
  if patOf f = 0 then v else (upTo 32).map (fun i => laneVal v (fieldLane g f i))

/-- A source operand: a register field (with a name offset, for pairs), the same read in some lanes of the group whatever the lanes
active, a literal word, a predicate (1 or 0 in each lane), a uniform register, or a capability register, which gives no lane values. -/
inductive Src where
  | cap (k : Nat)
  | reg (f : BitVec 7) (k : Nat)
  | lanes (f : BitVec 7) (is : List Nat)
  | lit (w : Word)
  | pred (p : Nat)
  | unif (u : Nat)
deriving DecidableEq, Repr

/-- Source b, or the literal in its place; `k` is the word of a pair: a 32-bit literal is sign-extended (R177). -/
def srcB (s : State) (b : BitVec 7) (k : Nat) : Src :=
  match s.cur.literal with
  | none => .reg b k
  | some v =>
    if k = 0 then .lit (wordOf v)
    else if s.cur.lmap = 3 then .lit (wordOf (v / 2 ^ 32))
    else .lit (if (wordOf v).msb then 0xFFFFFFFF else 0)

/-- Values that the stream registers of the slot supplied, by code. -/
abbrev StreamVals := FMap Lanes

/-- The values of a source. -/
def srcLanes (s : State) (sv : StreamVals) (x : Src) : Lanes :=
  match x with
  | .cap _ => List.replicate 32 0
  | .lit w => List.replicate 32 w
  | .pred p => (upTo 32).map (fun i => if (readPred (curGroup s) s.clock p).getLsbD i then 1 else 0)
  | .unif u => List.replicate 32 (readUnif (curGroup s) s.clock u)
  | .reg f k =>
    let g := curGroup s
    permute g f (if isStream f then lookup sv (codeOf f) [] else nameLanes g s.clock (nameOf g f + k))
  | .lanes f _ => permute (curGroup s) f (if isStream f then lookup sv (codeOf f) [] else nameLanes (curGroup s) s.clock (nameOf (curGroup s) f))

/-- The quads whose registers a field reads for some lanes: those of their source lanes. -/
def quadsOf (s : State) (f : BitVec 7) (is : List Nat) : List Nat :=
  let g := curGroup s
  (upTo 8).filter (fun q => decide (q < g.nquad) && !(getQuad g q).exited && is.any (fun i => fieldLane g f i / 4 == q))

/-- The quads whose registers a field reads: those of the source lanes of the active lanes. -/
def readQuads (s : State) (f : BitVec 7) : List Nat := quadsOf s f (activeLanes s)

/-- A source names a result that is not ready (R182). -/
def srcStalls (s : State) (x : Src) : Bool :=
  match x with
  | .lanes f is =>
    let g := curGroup s
    !isStream f && (quadsOf s f is).any (fun q => pendingStall g.regs.pend (8 * nameOf g f + q) s.clock)
  | .cap k => (curGroup s).regs.kpend.any (fun e => e.key == k && decide (s.clock < e.readyAt))
  | .lit _ => false
  | .pred p => pendingStall (curGroup s).regs.pend (predKey p) s.clock
  | .unif u => pendingStall (curGroup s).regs.pend (unifKey u) s.clock
  | .reg f k =>
    let g := curGroup s
    !isStream f && (readQuads s f).any (fun q => pendingStall g.regs.pend (8 * (nameOf g f + k) + q) s.clock)

/-- The clock until which a source waits for a result of the other stream (R173); 0 for none. -/
def srcWait (s : State) (x : Src) : Nat :=
  let g := curGroup s
  match x with
  | .lanes f is =>
    if isStream f then 0
    else (quadsOf s f is).foldl (fun m q => Nat.max m (pendingWait g.regs.pend (8 * nameOf g f + q) s.clock (ctlAstr s))) 0
  | .lit _ => 0
  | .cap k => (g.regs.kpend.filter (fun e => e.key == k && decide (s.clock < e.readyAt) && e.astr != ctlAstr s)).foldl
      (fun m e => Nat.max m e.readyAt) 0
  | .pred p => pendingWait g.regs.pend (predKey p) s.clock (ctlAstr s)
  | .unif u => pendingWait g.regs.pend (unifKey u) s.clock (ctlAstr s)
  | .reg f k =>
    if isStream f then 0
    else (readQuads s f).foldl (fun m q => Nat.max m (pendingWait g.regs.pend (8 * (nameOf g f + k) + q) s.clock (ctlAstr s))) 0

/-- A source reads an unmapped name (R166). -/
def srcDead (s : State) (x : Src) : Bool :=
  match x with
  | .cap _ | .lit _ | .pred _ | .unif _ => false
  | .lanes f is =>
    let g := curGroup s
    !isStream f && (quadsOf s f is).any (fun q => (readName g s.clock (nameOf g f) q).isNone)
  | .reg f k =>
    let g := curGroup s
    !isStream f && (readQuads s f).any (fun q => (readName g s.clock (nameOf g f + k) q).isNone)

/-- The last name: 251, or of the supervisor lane v47 (R163, R347). -/
def lastName (s : State) : Nat := if isLane s then 59 else 251

/-- A source runs past the last name. -/
def srcRange (s : State) (x : Src) : Bool :=
  match x with
  | .cap _ | .lit _ | .pred _ | .unif _ | .lanes .. => false
  | .reg f k => decide (k ≠ 0) && (isStream f || decide (lastName s < nameOf (curGroup s) f + k))

/-- The guard predicate is a result that is not ready. -/
def guardStalls (s : State) : Bool := pendingStall (curGroup s).regs.pend (predKey (ctlGpred s)) s.clock

/-- The sources and the guard wait for results of the other stream (R173): the clock until which they do. -/
def crossWait (s : State) (srcs : List Src) : Nat :=
  srcs.foldl (fun m x => Nat.max m (srcWait s x)) (guardWait s)

/-- The lowest active lane for which a source reads poisoned register data (R71). -/
def srcBad (s : State) (x : Src) : Option Nat :=
  match x with
  | .reg f k =>
    let g := curGroup s
    if isStream f || g.regs.bad.isEmpty then none
    else (activeLanes s).find? (fun i =>
      let j := fieldLane g f i
      g.regs.bad.contains (4 * (8 * (nameOf g f + k) + j / 4) + j % 4))
  | .lanes f is =>
    let g := curGroup s
    if isStream f then none
    else if is.any (fun i =>
      let j := fieldLane g f i
      g.regs.bad.contains (4 * (8 * nameOf g f + j / 4) + j % 4)) then some ((firstLane s).getD 0)
    else none
  | _ => none

def streamWord (g : Group) (e w : Nat) : Nat := (lookup g.regs.streams (8 * e + w) 0).toNat

/-- The stream register that a source names. -/
def streamCode (x : Src) : Option Nat :=
  match x with
  | .reg f 0 => if isStream f then some (codeOf f) else none
  | .lanes f _ => if isStream f then some (codeOf f) else none
  | _ => none

/-- The capability registers through which a slot's stream registers reach their objects, as sources of it (R170, R182). -/
def streamCaps (g : Group) (codes : List Nat) : List Src :=
  codes.filterMap (fun c => (find? g.regs.binds (c - 12)).bind (fun e =>
    if (streamWord g e 0).testBit 27 then none else some (.cap (streamWord g e 0 / 2 ^ 28))))

/-- Sources with the capability registers that their streams use. -/
def withCaps (s : State) (srcs : List Src) : List Src := srcs ++ streamCaps (curGroup s) (srcs.filterMap streamCode)

/-- A lane that a source reads of a name that a qput has yet to write (R173, R363). -/
def srcLate (s : State) (x : Src) : Option Nat :=
  let g := curGroup s
  let find := fun (name : Nat) (f : BitVec 7) (is : List Nat) =>
    if isStream f || g.regs.late.isEmpty then none
    else (is.map (fun i => 32 * name + fieldLane g f i)).find? (hasKey g.regs.late)
  match x with
  | .reg f k => find (nameOf g f + k) f (activeLanes s)
  | .lanes f is => find (nameOf g f) f is
  | _ => none

/-- A slot waits for results of the other stream and for registers that a variable-latency instruction has yet to write (R173), and
takes a machine check for poisoned register data (R71). -/
def checkWait (s : State) (srcs : List Src) : Res Unit :=
  match srcs.findSome? (srcLate s) with
  | some key => .error (.hold (.register key))
  | none =>
  if crossWait s (withCaps s srcs) ≠ 0 then .error (.hold (.result (crossWait s (withCaps s srcs))))
  else if srcs.any (fun x => (srcBad s x).isSome) then
    .error (.trap { cls := 1, code := 0x01, lane := (srcs.filterMap (srcBad s)).foldl Nat.min 31 })
  else .ok ()

/-- The checks of class 0xB (R182, R166): STALLCHK over the sources, the guard and other keys; DEADCHK over the sources. -/
def checkUnder (s : State) (srcs : List Src) (keys : List Nat) : Res Unit :=
  if stallChk s s.cur.core s.cur.slot &&
      (guardStalls s || (withCaps s srcs).any (srcStalls s) || keys.any (fun k => pendingStall (curGroup s).regs.pend k s.clock))
  then trapNow 0xB 0x01
  else if deadChk s s.cur.core s.cur.slot && srcs.any (srcDead s) then trapNow 0xB 0x02
  else .ok ()

/-- The slot's sources are ready: it neither waits nor traps for them. -/
def checkReady (s : State) (srcs : List Src) (keys : List Nat) : Res Unit :=
  match checkWait s srcs with
  | .error e => .error e
  | .ok () => checkUnder s srcs keys

/-- A check of class 0xB, the class of lowest priority (R341, R342): what else stops the slot is reported before it, but for a request
that a migrating page parks, whose slot has issued. -/
def after {α : Type} (c : Res Unit) (r : Res α) : Res α :=
  match r, c with
  | .ok x, .ok () => .ok x
  | .ok _, .error e => .error e
  | .error (.hold (.migrating ..)), .error e => .error e
  | .error (.lateHold _ (.migrating ..)), .error e => .error e
  | .error a, _ => .error a

/-- ZREAD for sources that read an unmapped name (R166, R173). -/
def noteDead (s : State) (srcs : List Src) : State :=
  if srcs.any (srcDead s) then
    let g := curGroup s
    setCur s (keepRaised { g with spec := { g.spec with regstat := true } } 0x200)
  else s

/-! ### Stream registers (R170, R171) -/

/-- Signed value of a 32-bit number. -/
def signed32 (n : Nat) : Int := if n < 2 ^ 31 then n else (n : Int) - 2 ^ 32

/-- The position of a stream is past its end. -/
def streamEnd (g : Group) (e : Nat) (p : StreamPos) : Bool :=
  let ndim := streamWord g e 0 / 2 ^ 20 % 4
  (ndim == 1 && p.j0 == streamWord g e 3 % 2 ^ 16) || (ndim == 2 && p.j1 == streamWord g e 3 / 2 ^ 16)
    || (ndim == 3 && p.j2 == streamWord g e 4 % 2 ^ 16)

/-- The next position (R171). -/
def streamNext (g : Group) (e : Nat) (p : StreamPos) : StreamPos :=
  let ndim := streamWord g e 0 / 2 ^ 20 % 4
  let p := { p with j0 := p.j0 + 1 }
  let p := if p.j0 == streamWord g e 3 % 2 ^ 16 && decide (1 < ndim) then ⟨0, p.j1 + 1, p.j2⟩ else p
  if p.j1 == streamWord g e 3 / 2 ^ 16 && decide (2 < ndim) then ⟨p.j0, 0, p.j2 + 1⟩ else p

/-- Offset of lane `i` at a position, modulo 2^32 (R171). Strides at or above NDIM are ignored: their index is 0. -/
def streamOff (g : Group) (e i : Nat) (p : StreamPos) : Nat :=
  let ndim := streamWord g e 0 / 2 ^ 20 % 4
  let term := fun (j w : Nat) => (j : Int) * signed32 (streamWord g e w)
  let v := (streamWord g e 1 : Int) + (i : Int) * signed32 (streamWord g e 2) + term p.j0 5
    + (if 1 < ndim then term p.j1 6 else 0) + (if 2 < ndim then term p.j2 7 else 0)
  (v % (2 ^ 32 : Int)).toNat

/-- Bytes of one element. -/
def streamSize (g : Group) (e : Nat) : Nat := 2 ^ (streamWord g e 0 / 2 ^ 25 % 4)

/-- Extend a narrow element to a word (SEXT). -/
def extendElem (sext : Bool) (size n : Nat) : Word :=
  if size = 1 then (if sext then (BitVec.ofNat 8 n).signExtend 32 else wordOf n)
  else if size = 2 then (if sext then (BitVec.ofNat 16 n).signExtend 32 else wordOf n)
  else wordOf n

/-! ### Checks of memory accesses (R20, R56) and forwarding of held stores (R114) -/

/-- The check of one lane's access through a capability, in the order of R20; the record's rights are those needed minus
those present. -/
def checkAccess (s : State) (c : Cap) (lane off size need kind : Nat) (align : Bool) : Res Unit :=
  let bad := fun (code : Nat) => (.error (.trap
    { cls := 5, code := code, lane := lane, obj := c.obj.toNat, off := (c.base.toNat + off) % 2 ^ 44, kind := kind,
      rights := need - (c.rights.toNat &&& need) }) : Res Unit)
  if !c.tag then bad 0x01
  else if c.rights.getLsbD 7 && !isSuper s then bad 0x03
  else if c.rights.toNat &&& need ≠ need then bad 0x02
  else if capLen c < off + size then bad 0x04
  else if align && decide ((c.base.toNat + off) % (Nat.min size 16) ≠ 0) then bad 0x05
  else .ok ()

/-- The check of one lane's scratchpad access (R56, Table 3-3); a lane that is out of size and misaligned reports the first of the table's
rows (DESIGN CHOICE, entry 73). -/
def checkScratch (s : State) (lane off width : Nat) : Res Unit :=
  let bad := fun (code : Nat) => (.error (.trap { cls := 6, code := code, lane := lane, obj := off }) : Res Unit)
  if (if isLane s then 65536 else (curTeam s).size) < off + width then bad 0x01
  else if off % (Nat.min width 16) ≠ 0 then bad 0x02
  else .ok ()

/-- Fold a step that may stop over a list. -/
def foldRes {α σ : Type} (f : σ → α → Res σ) : σ → List α → Res σ
  | a, [] => .ok a
  | a, x :: xs => match f a x with | .error e => .error e | .ok b => foldRes f b xs

/-- Rank of what stopped a lane: a wait for an answer first, then the class of the trap, then its lane (R38, R342). -/
def abortRank (a : Abort) : Nat :=
  match a with
  | .trap t | .lateTrap _ t => 64 * t.cls + t.lane
  | .hold _ | .lateHold _ _ => 0

/-- What an instruction reports of the checks that failed: the highest class, then the lowest lane (R342). -/
def worstAbort : List Abort → Option Abort
  | [] => none
  | a :: r => match worstAbort r with
    | none => some a
    | some b => if abortRank b < abortRank a then some b else some a

/-- The state in which a request that failed has left things: one that meets a migrating page is parked at its port (R40). -/
def afterAbort (s : State) (a : Abort) : State :=
  match a with
  | .trap _ => s
  | .hold (.migrating obj off) => parkIssue s s.cur.core s.cur.slot obj off
  | .hold _ => s
  | .lateTrap t _ | .lateHold t _ => t

/-- Every request of an instruction is made and answered; then the worst failure, if any, stops it in the state that the
requests left (R38). -/
def gather {α β : Type} (f : State → β → Res (α × State)) (s : State) (xs : List β) : Res (List (β × α) × State) :=
  let r := xs.foldl (fun (acc : List (β × α) × List Abort × State) x =>
    match f acc.2.2 x with
    | .ok (v, t) => (acc.1 ++ [(x, v)], acc.2.1, t)
    | .error a => (acc.1, acc.2.1 ++ [a], afterAbort acc.2.2 a)) ([], [], s)
  match worstAbort r.2.1 with
  | none => .ok (r.1, r.2.2)
  | some (.trap t) | some (.lateTrap _ t) => .error (.lateTrap r.2.2 t)
  | some (.hold p) | some (.lateHold _ p) => .error (.lateHold r.2.2 p)

/-- Operation of an integer reduction on two numbers of `w` bits (R276): add, and, or, xor, min.i, max.i, min.n, max.n. -/
def aredOp (w op old v : Nat) : Nat :=
  let sg := fun (x : Nat) => if x < 2 ^ (w - 1) then (x : Int) else (x : Int) - 2 ^ w
  match op with
  | 0 => (old + v) % 2 ^ w
  | 1 => old &&& v
  | 2 => old ||| v
  | 3 => old ^^^ v
  | 4 => if sg v < sg old then v else old
  | 5 => if sg old < sg v then v else old
  | 6 => if v < old then v else old
  | _ => if old < v then v else old

/-- Operation of an FP32 atomic or reduction: add to nearest even, minimumNumber, maximumNumber, exchange (Table 12-2). -/
def fatomOp (op old v : Nat) : Nat :=
  match op with
  | 0 => (fpAdd fp32 0 old v).1
  | 1 => (fpMinMax fp32 false old v).1
  | 2 => (fpMinMax fp32 true old v).1
  | _ => v

/-- The value a reduction leaves: `op` as Write has it, 0 to 7 ared, 16 to 18 fred. -/
def reduceOp (w : Write) (old : Nat) : Nat :=
  if w.op < 8 then aredOp (8 * w.width) w.op old (leNat w.bytes) else fatomOp (w.op % 16) old (leNat w.bytes)

/-- The write is an entry for the team's reduction log, no write of memory (R277). -/
def isLogEntry (w : Write) : Bool := w.kind == 4 && decide (32 ≤ w.op)

/-- The writes that the group holds, oldest first. -/
def heldWrites (g : Group) : List Write :=
  g.regions.flatMap (fun r => r.stores.flatMap (fun st => if st.drained then [] else st.writes.filter (fun w => !isLogEntry w)))

/-- Bytes from offset `base` on after one held write, of which those that overlap count; a held reduction is no store of the buffer
and gives no value before its home has applied it (R114, R115; entry 10). -/
def overlayOne (base : Nat) (bs : List Byte) (w : Write) : List Byte :=
  if w.kind = 4 then bs
  else (upTo bs.length).map (fun i =>
    if w.off ≤ base + i && base + i < w.off + w.bytes.length then w.bytes.getD (base + i - w.off) 0 else bs.getD i 0)

/-- Bytes as the group reads them: its own held writes on top, in program order (R114, R115). -/
def overlay (g : Group) (obj base : Nat) (bs : List Byte) : List Byte :=
  ((heldWrites g).filter (fun w => w.obj == obj && decide (w.off < base + bs.length) && decide (base < w.off + w.bytes.length))).foldl
    (overlayOne base) bs

/-- Read bytes of the team's scratchpad (or, in the lane, of the supervisor reserve), held stores included (R58). -/
def readScratch (s : State) (off n : Nat) : List Byte :=
  let k := getCore s s.cur.core
  overlay (curGroup s) Config.scratchObj off (if isLane s then memBytes k.reserve off n else memBytes k.scratch ((curTeam s).scratch + off) n)

/-- A bank word that a range of a core's scratchpad touches holds poisoned data (R71). -/
def spoiled (k : Core) (a n : Nat) : Bool := k.badWords.any (fun w => decide (a < 8 * w + 8) && decide (8 * w < a + n))

/-- A word of the team's scratchpad that the bytes touch holds poisoned data (R71). -/
def scratchBad (s : State) (off n : Nat) : Bool :=
  !isLane s && spoiled (getCore s s.cur.core) ((curTeam s).scratch + off) n

/-- The machine check of poisoned scratchpad bytes that an instruction of the group consumes, for its lowest active lane. -/
def spoiledTrap {α : Type} (s : State) (off : Nat) : Res α :=
  .error (.trap { cls := 1, code := 0x01, lane := (firstLane s).getD 0, off := off })

/-- The poisoned words that a write of whole words of a core's scratchpad leaves. -/
def wordsLeft (bad : List Nat) (a n : Nat) : List Nat := bad.filter (fun w => !(decide (a ≤ 8 * w) && decide (8 * w + 8 ≤ a + n)))

/-- A unit writes a range of a core's scratchpad. -/
def putScratch (k : Core) (a : Nat) (bs : List Byte) : Core :=
  { k with scratch := memPut k.scratch a bs, badWords := wordsLeft k.badWords a bs.length }

/-- A lane reads bytes of the scratchpad; poisoned data give a machine check (R71). -/
def loadScratch (s : State) (lane off n : Nat) : Res (List Byte) :=
  if scratchBad s off n then .error (.trap { cls := 1, code := 0x01, lane := lane, off := off }) else .ok (readScratch s off n)

/-! ### Bank queues (R54, R55) -/

/-- The accesses of one instruction to bank words merge; each bank serves one a clock, behind what its queue of 8 holds. The memory
unit takes no later scratchpad access while one waits to enter. -/
def enterBanks (k : Core) (clock : Nat) (words : List Nat) : Core :=
  words.eraseDups.foldl (fun k w =>
    let b := w % 64
    let e := Nat.max (lookup k.banks b 0) clock + 1
    { k with banks := insertKey k.banks b e, bankHold := Nat.max k.bankHold (e - 8) }) k

/-- The bank words that accesses of `n` bytes at some scratchpad offsets of a team touch; the team's start is a multiple of 512. -/
def bankWords (n : Nat) (offs : List Nat) : List Nat :=
  offs.flatMap (fun off => (upTo ((off % 8 + n + 7) / 8)).map (fun i => off / 8 + i))

/-- A scratchpad instruction of a core's group, with the bank words that it accesses, enters the memory unit, or is held back at the
bank queues. -/
def enterUnit (s : State) (c : Nat) (words : List Nat) : Res State :=
  let k := getCore s c
  if words.isEmpty then .ok s
  else if s.clock < k.bankHold then .error (.hold (.bank k.bankHold))
  else .ok (setCore s c (enterBanks k s.clock words))

/-- The same of an instruction of the issuing group with accesses of `n` bytes at some offsets; the supervisor lane's do not reach the
banks. -/
def throughBanks (s : State) (n : Nat) (offs : List Nat) : Res State :=
  if isLane s then .ok s else enterUnit s s.cur.core (bankWords n offs)

/-- A reduction of an earlier region of the group, not yet committed, overlaps a range: a read of it waits until the home has applied
the reduction (R115). One of the region itself has not been released, and its read sees no effect of it (entry 10). -/
def behindReduction (g : Group) (obj off n : Nat) : Bool :=
  g.regions.dropLast.any (fun r => r.stores.any (fun st => !st.drained && st.writes.any (fun w =>
    w.kind == 4 && !isLogEntry w && w.obj == obj && decide (w.off < off + n) && decide (off < w.off + w.bytes.length))))

/-- The line of an object offset as the issuing group reads `n` bytes of it: its bytes with the group's held writes on top. -/
def readHeldLine (s : State) (lane obj off n : Nat) : Res (Line × List Byte × State) :=
  if behindReduction (curGroup s) obj off n then .error (.hold .resource)
  else
  match liftMem lane obj off 0 (descOf s s.cur.core obj) with
  | .error e => .error e
  | .ok (e, s) =>
    match liftMem lane obj off 0 (readLine s s.cur.core e off) with
    | .error x => .error x
    | .ok (l, s) => .ok (l, overlay (curGroup s) obj (off / 128 * 128) (lineBytes l), s)

/-- Read bytes of an object for a lane, held writes included; they lie in one line (R20). -/
def readHeld (s : State) (lane obj off n : Nat) : Res (List Byte × State) :=
  match readHeldLine s lane obj off n with
  | .error e => .error e
  | .ok (_, bs, s) => .ok ((bs.drop (off % 128)).take n, s)

/-- Object offset of a lane's access. -/
def objOff (c : Cap) (off : Nat) : Nat := c.base.toNat + off

/-- Word `w` of breakpoint entry `i`. -/
def bpWord (d : Debug) (i w : Nat) : Nat := (lookup d.bps (8 * i + w) 0).toNat

/-- A data-watch entry that a lane's access meets (R367, R368). -/
def watchHit (s : State) (c : Cap) (off size kind : Nat) : Bool :=
  let d := (getDie s (curDie s)).dbg
  let g := curGroup s
  !isLane s && debugEnabled s s.cur.core s.cur.slot && !g.stats.skipBreak && !catchingUp g && c.tag &&
    (upTo 8).any (fun i =>
      bpWord d i 0 % 8 = 3 && decide (bpWord d i 1 = c.obj.toNat) && (bpWord d i 4).testBit (if kind = 0 then 0 else 1)
        && decide (bpWord d i 2 < objOff c off + size) && decide (objOff c off ≤ bpWord d i 3))

/-- The debug stop of a data watch that a lane's access meets (R368). -/
def watchStop (c : Cap) (lane off kind : Nat) : Abort :=
  .trap { cls := 2, code := 4, lane := lane, obj := c.obj.toNat, off := objOff c off, kind := kind }

/-- A write of a lane into a code object with XE set or a coverage object is refused (R22). -/
def kindCheck (e : Desc) (lane obj off kind : Nat) : Res Unit :=
  if (e.kind == 1 && e.xe) || e.kind == 4 then
    .error (.trap { cls := 5, code := 0x02, lane := lane, obj := obj, off := off, kind := kind })
  else .ok ()

/-- The check of one lane's stream access, as a plain load or store (R171, R20, R22, R56, R368). -/
def streamCheck (s : State) (e lane : Nat) (p : StreamPos) (wr : Bool) : Res Unit :=
  let g := curGroup s
  let off := streamOff g e lane p
  let kind := if wr then 1 else 0
  if (streamWord g e 0).testBit 27 then checkScratch s lane off (streamSize g e)
  else
    let c := capAt g s.clock (streamWord g e 0 / 2 ^ 28)
    if watchHit s c off (streamSize g e) kind then .error (watchStop c lane off kind)
    else
    match checkAccess s c lane off (streamSize g e) (if wr then 0x02 else 0x01) kind true with
    | .error x => .error x
    | .ok () =>
      if !wr then .ok ()
      else match liftMem lane c.obj.toNat (c.base.toNat + off) kind (descOf s s.cur.core c.obj.toNat) with
        | .error x => .error x
        | .ok (d, _) => kindCheck d lane c.obj.toNat (c.base.toNat + off) kind

/-- Active lanes of a quad. -/
def quadLanes (s : State) (q : Nat) : List Nat := (activeLanes s).filter (fun i => i / 4 == q)

/-- What keeps the slot from using the stream register of a code, in the order of its lanes (R171). -/
def streamAborts (s : State) (code : Nat) (wr : Bool) : List Abort :=
  let g := curGroup s
  match find? g.regs.binds (code - 12) with
  | none => [.trap { cls := 3, code := 0x06 }]
  | some e =>
    if !g.regs.defined.getLsbD e || (streamWord g e 0).testBit 23 != wr then [.trap { cls := 3, code := 0x06 }]
    else (activeQuads s).flatMap (fun q =>
      let p := lookup g.regs.pos (8 * q + e) ⟨0, 0, 0⟩
      if streamEnd g e p then
        if (streamWord g e 0).testBit 22 then [] else [.trap { cls := 8, code := 0x01, lane := (quadLanes s q).headD 0 }]
      else (quadLanes s q).filterMap (fun i => match streamCheck s e i p wr with | .ok () => none | .error a => some a))

/-- The lanes that a stream serves, with their offsets: those of the active quads that are not past its end (R171). -/
def streamSpots (s : State) (e : Nat) : List (Nat × Nat) :=
  let g := curGroup s
  (activeQuads s).flatMap (fun q =>
    let p := lookup g.regs.pos (8 * q + e) ⟨0, 0, 0⟩
    if streamEnd g e p then [] else (quadLanes s q).map (fun i => (i, streamOff g e i p)))

/-- The stream advances in every active quad that is not past its end. -/
def streamAdvance (s : State) (e : Nat) : State :=
  let g := curGroup s
  setCur s { g with regs := { g.regs with pos := (activeQuads s).foldl (fun m q =>
    let p := lookup g.regs.pos (8 * q + e) ⟨0, 0, 0⟩
    if streamEnd g e p then m else insertKey m (8 * q + e) (streamNext g e p)) g.regs.pos } }

/-- The stream entry that a stream register is bound to. -/
def entryOf (s : State) (code : Nat) : Nat := (find? (curGroup s).regs.binds (code - 12)).getD 0

/-- The elements that the entry of a stream register supplies to the active lanes, 0 to every other lane, and the stream advanced, also
where a lane's request fails (R171, R38). -/
def streamRead (s : State) (code : Nat) : Res (Lanes × State) :=
  let g := curGroup s
  let e := entryOf s code
  let n := streamSize g e
  let c := capAt g s.clock (streamWord g e 0 / 2 ^ 28)
  let read := fun (t : State) (x : Nat × Nat) =>
    if (streamWord g e 0).testBit 27 then (match loadScratch t x.1 x.2 n with | .error a => (.error a : Res (List Byte × State)) | .ok bs => .ok (bs, t))
    else readHeld t x.1 c.obj.toNat (c.base.toNat + x.2) n
  match gather read s (streamSpots s e) with
  | .error (.lateTrap t x) => .error (.lateTrap (streamAdvance t e) x)
  | .error (.lateHold t p) => .error (.lateHold (streamAdvance t e) p)
  | .error a => .error a
  | .ok (xs, t) =>
    .ok (xs.foldl (fun v x => v.set x.1.1 (extendElem ((streamWord g e 0).testBit 24) n (leNat x.2))) (List.replicate 32 0),
      streamAdvance t e)

/-- The bank words that a slot's stream registers read in the scratchpad, one register after another (R55). -/
def streamWords : State → List Nat → List Nat
  | _, [] => []
  | s, c :: r =>
    let e := entryOf s c
    (if (streamWord (curGroup s) e 0).testBit 27 then bankWords (streamSize (curGroup s) e) ((streamSpots s e).map (·.2)) else [])
      ++ streamWords (streamAdvance s e) r

/-- A slot that waits keeps its stream positions. -/
def keepPositions (s : State) (a : Abort) : Abort :=
  match a with
  | .lateHold t p =>
    let g := curGroup t
    .lateHold (setCur t { g with regs := { g.regs with pos := (curGroup s).regs.pos } }) p
  | a => a

/-- The stream registers among the sources, each read once; the requests of every one are made before a failure is reported (R38). -/
def streamSources (s : State) (srcs : List Src) : Res (StreamVals × State) :=
  let codes := (srcs.filterMap streamCode).eraseDups
  match (if isLane s then .ok s else enterUnit s s.cur.core (streamWords s codes)) with
  | .error a => .error a
  | .ok t =>
    match gather streamRead t codes with
    | .error a => .error (keepPositions s a)
    | .ok (vs, u) => .ok (vs.foldl (fun m x => insertKey m x.1 x.2) [], u)

/-- The stream register that a destination field names. -/
def dstStream (dst : Option (BitVec 7)) : List Nat := match dst with | some f => if isStream f then [codeOf f] else [] | none => []

/-- What keeps the slot from using some stream registers, one after another: a second register of one entry finds it advanced
(R171). -/
def streamFaults : State → List (Nat × Bool) → List Abort
  | _, [] => []
  | s, (c, wr) :: r => streamAborts s c wr ++ streamFaults (streamAdvance s (entryOf s c)) r

/-- What keeps the slot from using the stream registers that it names (R171, R342). -/
def streamFault (s : State) (srcs : List Src) (dst : Option (BitVec 7)) : Option Abort :=
  worstAbort (streamFaults s ((srcs.filterMap streamCode).eraseDups.map (fun c => (c, false))
    ++ (dstStream dst).map (fun c => (c, true))))

/-! ### Held stores (R151) -/

/-- A write of an object keeps the generation that its descriptor lookup gave it (R106). -/
def stampGen (s : State) (c : Nat) (w : Write) : Write :=
  if w.obj = Config.scratchObj then w
  else { w with gen := (((getCore s c).descs.find? (fun e => e.id == w.obj)).map (·.gen)).getD false }

/-- The writes of a store instruction enter the region store buffer, counted on a dependence counter while they are held. -/
def pushStore (s : State) (ws : List Write) (drained : Bool) (ctr : Nat) : State :=
  if isLane s then s
  else
  let g := curGroup s
  let r := curRegion g
  setCur s (countUp (setCurRegion g { r with stores := r.stores ++ [⟨ws.map (stampGen s s.cur.core), drained, s.cur.pc, r.slots, ctr, 0⟩] }) (if drained then 0 else ctr))

/-- A writing instruction of reductions, which are released at commit only (R276). -/
def isReduction (st : StoreOp) : Bool := st.writes.any (fun w => w.kind == 4)

/-- Stores the group holds in its region store buffer. -/
def heldCount (g : Group) : Nat :=
  g.regions.foldl (fun n r => n + (r.stores.filter (fun st => !st.drained && !isReduction st)).length) 0

/-- Where a write of a group goes: the lane, the object, the offset and the path of its faults. -/
def writeErr (w : Write) : Nat := if 3 ≤ w.kind then 2 else 1

/-- Write bytes of a team's scratchpad: an active barrier's word discards them (R258). -/
def scratchPut (s : State) (c team off : Nat) (bs : List Byte) : State :=
  let k := getCore s c
  let t := getTeam s c team
  let put := fun (m : Memory) (i : Nat) =>
    if t.barriers.any (fun b => decide (b.offset ≤ off + i) && decide (off + i < b.offset + 8)) then m
    else memWrite m (t.scratch + off + i) (bs.getD i 0)
  let a := t.scratch + off
  setCore s c { k with
    scratch := (upTo bs.length).foldl put k.scratch
    badWords := wordsLeft k.badWords a bs.length }

/-- Fill the oldest entry that a group has reserved (R277). -/
def fillEntry : List FredEntry → Nat → List FredEntry
  | [], _ => []
  | e :: r, slot => if !e.filled && e.slot = slot then { e with filled := true } :: r else e :: fillEntry r slot

/-- A write whose descriptor lookup came before a publish lands in the old front, which is the shadow map's now (R106). -/
def performOld (s : State) (p : Nat) (e : Desc) (w : Write) : Except MemErr State :=
  if w.kind = 4 then
    match readShadow s p e w.off w.width with
    | .error x => .error x
    | .ok (old, s) => writeShadow s p e w.off (leBytes w.width (reduceOp w (leNat old))) false
  else writeShadow s p e w.off w.bytes (w.kind == 2)

/-- Apply one write: scratchpad bytes to the bank, an object's bytes, a reduction at its home, or an entry of the team's
reduction log (R277). -/
def performWrite (s : State) (c slot : Nat) (w : Write) : Except MemErr State :=
  if w.obj = Config.scratchObj then
    if slot = Config.laneSlot then
      .ok (setCore s c { getCore s c with reserve := memPut (getCore s c).reserve w.off w.bytes })
    else .ok (scratchPut s c (getGroup s c slot).team w.off w.bytes)
  else if isLogEntry w then
    let n := (getGroup s c slot).team
    let t := getTeam s c n
    .ok (setTeam s c n { t with fredlog := fillEntry t.fredlog slot })
  else
    match descOf s c w.obj with
    | .error e => .error e
    | .ok (e, s) =>
      let p := (getCore s c).part
      let by_ := storerOf s c slot
      if e.gen != w.gen then performOld s p e w
      else if w.kind = 4 then
        (modifyLineBy by_ s c p e w.off w.width (fun old => leBytes w.width (reduceOp w (leNat old)))).map (·.2)
      else if w.width = 128 then zeroLine by_ s p c e w.off
      else writeObjectBy by_ s p (some c) e w.off w.bytes (w.kind == 2)

/-- Translate a held write before its region commits (R38); a tagged stk into a pool object is refused (R17). -/
def translateWrite (s : State) (c : Nat) (w : Write) : Except MemErr State :=
  if w.obj = Config.scratchObj || isLogEntry w then .ok s
  else
    match descOf s c w.obj with
    | .error e => .error e
    | .ok (e, s) =>
      if w.kind == 2 && e.kind == 2 then .error (.cap 0x08) else pretranslate s (getCore s c).part e w.off

/-- Fold a memory step over the writes of one store; a failure is that of the write's lane. -/
def foldWrites (f : State → Write → Except MemErr State) : State → List Write → Res State
  | s, [] => .ok s
  | s, w :: ws =>
    match f s w with
    | .error e => .error (memAbort e w.lane w.obj w.off (writeErr w))
    | .ok s => foldWrites f s ws

/-- Translate every write of one store (R38). -/
def translateWrites (s : State) (c : Nat) (ws : List Write) : Res State :=
  match gather (fun s w => match liftMem w.lane w.obj w.off (writeErr w) (translateWrite s c w) with
      | .error a => (.error a : Res (Unit × State))
      | .ok t => .ok ((), t)) s ws with
  | .error a => .error a
  | .ok (_, t) => .ok t

/-- Place a trap at an earlier instruction of the group. -/
def placeTrap (pc : Word) (slots region : Nat) (a : Abort) : Abort :=
  match a with
  | .trap t => .trap { t with place := some (pc, slots, region) }
  | .lateTrap s t => .lateTrap s { t with place := some (pc, slots, region) }
  | x => x

/-- Place a trap at an earlier store of the group. -/
def placeAt (st : StoreOp) (region : Nat) (a : Abort) : Abort := placeTrap st.pc st.slots region a

/-- Two plain writes of one line touch or overlap: one request takes both (R63). -/
def joins (v w : Write) : Bool :=
  v.kind == 0 && w.kind == 0 && v.obj == w.obj && v.off / 128 == w.off / 128 && w.obj != Config.scratchObj
    && decide (v.off ≤ w.off + w.bytes.length) && decide (w.off ≤ v.off + v.bytes.length)

/-- One write of the bytes of two, those of the second on top. -/
def joinWrites (v w : Write) : Write :=
  let a := Nat.min v.off w.off
  let e := Nat.max (v.off + v.bytes.length) (w.off + w.bytes.length)
  { v with off := a, bytes := putBytes (putBytes (List.replicate (e - a) 0) (v.off - a) v.bytes) (w.off - a) w.bytes }

/-- The writes of a store instruction as its requests take them: the lanes' bytes of one line together (R63). -/
def coalesce (ws : List Write) : List Write :=
  ws.foldl (fun acc w => acc.filter (fun v => !joins v w) ++ [(acc.filter (fun v => joins v w)).foldr joinWrites w]) []

/-- The bank words of a store's scratchpad writes; those of the supervisor lane do not reach the banks (R55). -/
def storeWords (slot : Nat) (ws : List Write) : List Nat :=
  if slot = Config.laneSlot then []
  else (ws.filter (fun w => w.obj == Config.scratchObj)).flatMap (fun w => bankWords w.bytes.length [w.off])

/-- Translate, then apply, the writes of a store in order, once the memory unit takes its scratchpad accesses (R55). -/
def performStore (s : State) (c slot region : Nat) (st : StoreOp) : Res State :=
  match enterUnit s c (storeWords slot st.writes) with
  | .error a => .error a
  | .ok s =>
  match translateWrites s c st.writes with
  | .error a => .error (placeAt st region a)
  | .ok s =>
    match foldWrites (fun s w => performWrite s c slot w) s (coalesce st.writes) with
    | .error a => .error (placeAt st region a)
    | .ok s => .ok s

/-- Two writes of a group overlap. -/
def overlaps (v w : Write) : Bool :=
  v.obj == w.obj && decide (v.off < w.off + w.bytes.length) && decide (w.off < v.off + v.bytes.length) && !isLogEntry v && !isLogEntry w

/-- The oldest store in the buffer that may drain early: region index and place in the region. A store that overlaps an earlier
reduction, which its region's commit releases, stays behind it (R115, R276; entry 10); `seen` are the writes before. -/
def oldestIn (i : Nat) : Nat → List Write → List StoreOp → Option (Nat × Nat × StoreOp)
  | _, _, [] => none
  | j, seen, st :: r =>
    if st.drained then oldestIn i (j + 1) seen r
    else if isReduction st || st.writes.any (fun w => seen.any (overlaps w)) then oldestIn i (j + 1) (seen ++ st.writes) r
    else some (i, j, st)

/-- The reductions, and the stores behind them, that a region holds. -/
def barredWrites (r : Region) (seen : List Write) : List Write :=
  r.stores.foldl (fun m st => if st.drained then m
    else if isReduction st || st.writes.any (fun w => m.any (overlaps w)) then m ++ st.writes else m) seen

/-- The oldest store of some regions that may drain early. -/
def oldestHeld : Nat → List Write → List Region → Option (Nat × Nat × StoreOp)
  | _, _, [] => none
  | i, seen, r :: rs =>
    match oldestIn i 0 seen r.stores with
    | some x => some x
    | none => oldestHeld (i + 1) (barredWrites r seen) rs

/-- Mark a store as performed: its dependence counter goes down (R172). -/
def markDrained (g : Group) (i j : Nat) : Group :=
  let ctr := ((g.regions[i]?.bind (fun r => r.stores[j]?)).map (·.counter)).getD 0
  countDown { g with regions := g.regions.modify i (fun r => { r with stores := r.stores.modify j (fun st => { st with drained := true }) }) } ctr

/-- Drain early: the oldest held store that may performs (R151). -/
def drainOldest (s : State) (c slot : Nat) : Res State :=
  match oldestHeld 0 [] (getGroup s c slot).regions with
  | none => .ok s
  | some (i, j, st) =>
    match performStore s c slot i st with
    | .error e => .error e
    | .ok s => .ok (setGroup s c slot (markDrained (getGroup s c slot) i j))

/-- A store instruction's writes are translated and held; a full buffer first drains its oldest store (R151). Where none may drain,
since each stands behind a reduction that only the commit releases, the store enters all the same (DESIGN CHOICE, entry 10). The
supervisor lane has no regions: its stores perform at once. -/
def holdStore (s : State) (ws : List Write) (ctr : Nat) : Res State :=
  if ws.isEmpty then .ok s
  else
    match translateWrites s s.cur.core ws with
    | .error x => .error x
    | .ok s =>
      if isLane s then foldWrites (fun s w => performWrite s s.cur.core s.cur.slot w) s (coalesce (ws.map (stampGen s s.cur.core)))
      else if heldCount (curGroup s) < Config.storeBuffer then .ok (pushStore s ws false ctr)
      else
        match drainOldest s s.cur.core s.cur.slot with
        | .error x => .error x
        | .ok s => .ok (pushStore s ws false ctr)

/-- An instruction whose dependence counter is at 63 does not issue (R172). -/
def counted (s : State) (ctr : Nat) (r : Res State) : Res State :=
  if ctr ≠ 0 && !(activeLanes s).isEmpty && decide (63 ≤ lookup (curGroup s).regs.dcs ctr 0) then .error (.hold (.counter (2 ^ ctr) 62))
  else r

/-- Write a stream: one element for each active lane that receives a result, of each active quad that is not past its end; the
whole slot is one store; then advance (R171; entry 55). -/
def streamWrite (s : State) (code : Nat) (f : BitVec 7) (vals : Lanes) : Res State :=
  match worstAbort (streamAborts s code true) with
  | some a => .error a
  | none =>
    let g := curGroup s
    let e := entryOf s code
    let n := streamSize g e
    let c := capAt g s.clock (streamWord g e 0 / 2 ^ 28)
    let spad := (streamWord g e 0).testBit 27
    let ws := (streamSpots s e).filterMap (fun x =>
      ((activeLanes s).find? (fun i => fieldLane g f i == x.1)).map (fun i =>
        (⟨x.1, if spad then Config.scratchObj else c.obj.toNat, (if spad then 0 else c.base.toNat) + x.2, n, 0, 0,
          leBytes n (laneVal vals i).toNat, false⟩ : Write)))
    after (checkUnder s (streamCaps g [code]) []) (match holdStore s ws 0 with
      | .error a => .error a
      | .ok t => .ok (streamAdvance t e))

/-! ### Writing registers (R164, R165, R172) -/

/-- Physical registers of a quad: mapped names and those that last-read bits of uncommitted regions unmapped (R148). -/
def liveRegs (g : Group) (q : Nat) : Nat :=
  (g.regs.lanes.filter (fun e => e.1 % 8 == q)).length
    + g.regions.foldl (fun n r => n + (r.freed.filter (fun e => e.1 % 8 == q)).length) 0

/-- The role's declared peak; the supervisor lane has none. -/
def peakOf (s : State) : Nat :=
  let g := curGroup s
  if isLane s then 256 else (lookup (curLaunch s).roles g.role ⟨0, 1, 1, 1, 252, none, none⟩).peak

/-- Write one lane of one name: the name maps to a register that keeps its other lanes, 0 where it was unmapped; a write that a qput has
still to make of it is none any more (R165). -/
def writeLane (g : Group) (name i : Nat) (w : Word) : Group :=
  let key := 8 * name + i / 4
  { g with regs := { g.regs with
    lanes := insertKey g.regs.lanes key (qset (lookup g.regs.lanes key QReg.zero) (i % 4) w)
    bad := g.regs.bad.filter (· != 4 * key + i % 4)
    late := if g.regs.late.isEmpty then g.regs.late else eraseKey g.regs.late (32 * name + i) } }

/-- The quads that a write reaches: those of the destination lanes of the active lanes. -/
def writeQuads (s : State) (f : BitVec 7) : List Nat :=
  let g := curGroup s
  (upTo 8).filter (fun q => decide (q < g.nquad) && (activeLanes s).any (fun i => fieldLane g f i / 4 == q))

/-- Note the value a name held in each quad written, for reads before the result is ready. -/
def notePending (s : State) (name lat : Nat) (quads : List Nat) : State :=
  let g := curGroup s
  let pend := quads.foldl (fun p q =>
    addPending p (8 * name + q) s.clock lat (ctlAstr s) (find? g.regs.lanes (8 * name + q))) g.regs.pend
  setCur s { g with regs := { g.regs with pend := pend } }

/-- An interlocked result supersedes the earlier results of its name in each quad written (R165). -/
def dropPendings (s : State) (name : Nat) (quads : List Nat) : State :=
  let g := curGroup s
  setCur s { g with regs := { g.regs with pend := quads.foldl (fun p q => dropPending p (8 * name + q)) g.regs.pend } }

/-- Write a name in the destination lanes of the active lanes; `lat` 0 stands for an interlocked result (R173). -/
def writeName (s : State) (f : BitVec 7) (k lat : Nat) (vals : Lanes) : State :=
  let g := curGroup s
  let name := nameOf g f + k
  let s := if lat = 0 then dropPendings s name (writeQuads s f) else notePending s name lat (writeQuads s f)
  let g := (activeLanes s).foldl (fun h i =>
    let j := fieldLane g f i
    if j < Nat.min 32 (4 * g.nquad) then writeLane h name j (laneVal vals i) else h) (curGroup s)
  setCur s g

/-- The write of `k` names would allocate past the role's peak (R148). -/
def peakBad (s : State) (f : BitVec 7) (n : Nat) : Bool :=
  let g := curGroup s
  (writeQuads s f).any (fun q =>
    let fresh := ((upTo n).filter (fun k => !hasKey g.regs.lanes (8 * (nameOf g f + k) + q))).length
    decide (0 < fresh) && decide (peakOf s < liveRegs g q + fresh))

/-- Quad registers that the reed registers of one quad take (R313, R314). -/
def reedRegs (l : Launch) : Nat := l.nz * l.reedLen / 32

/-- Physical registers that a resident credit group holds. -/
def heldRegs (s : State) (g : Group) : Nat :=
  (upTo g.nquad).foldl (fun n q => n + liveRegs g q) 0 + g.nquad * reedRegs (getLaunch s g.launch)

/-- Physical registers of a core outside every reservation and held by no credit group (R50, R145, R146). -/
def freeRegs (s : State) (c : Nat) : Nat :=
  let k := getCore s c
  let reserved := k.teams.foldl (fun n t => n + t.2.regReserve) 0
  let credit := k.groups.foldl (fun n g => if g.2.resident && g.2.credit then n + heldRegs s g.2 else n) 0
  fieldNat k.poolsplit 0 5 * 4096 - reserved - credit

/-- A credit group needs more physical registers for a write than are free (R146). -/
def creditShort (s : State) (f : BitVec 7) (n : Nat) : Bool :=
  let g := curGroup s
  g.credit &&
    decide (freeRegs s s.cur.core < (writeQuads s f).foldl (fun m q =>
      m + ((upTo n).filter (fun k => !hasKey g.regs.lanes (8 * (nameOf g f + k) + q))).length) 0)

/-- The destination runs past name 251, or (in the supervisor lane) past v47 (R347). -/
def dstRange (s : State) (f : BitVec 7) (n : Nat) : Bool :=
  let g := curGroup s
  (isStream f && decide (n ≠ 1)) || (!isStream f && decide (lastName s < nameOf g f + (n - 1)))

/-- Write a lane result of one or more words to d, d + 1, …; a stream register receives one word (R171). -/
def writeDst (s : State) (f : BitVec 7) (lat : Nat) (words : List Lanes) : Res State :=
  if isStream f then streamWrite s (codeOf f) f (words.headD [])
  else if peakBad s f words.length then illegal 0x04
  else if creditShort s f words.length then .error (.hold (.noRegister s.clock))
  else .ok ((upTo words.length).foldl (fun s k => writeName s f k lat (words.getD k [])) s)

/-- Unmap a source's name in the quads with an active lane, keeping its content for an abort and until the region commits (R148,
R166). -/
def freeName (s : State) (name : Nat) : State :=
  let g := curGroup s
  let keys := (activeQuads s).map (fun q => 8 * name + q)
  let freed := keys.filterMap (fun k => (find? g.regs.lanes k).map (fun v => (k, v)))
  let r := curRegion g
  let g := setCurRegion g { r with freed := r.freed ++ freed }
  setCur s { g with regs := { g.regs with lanes := keys.foldl eraseKey g.regs.lanes, pend := keys.foldl dropPending g.regs.pend } }

/-- The `n` names from a field's name on; none for a field that the instruction does not have. -/
def fieldNames (g : Group) (f : Option (BitVec 7)) (n : Nat) : List Nat :=
  match f with
  | none => []
  | some f => (upTo n).map (fun k => nameOf g f + k)

/-- Apply the last-read bits of a and b over `n` names each, but not to a name the slot writes. -/
def applyLast (s : State) (o : OpInfo) (na nb : Nat) (written : List Nat) : State :=
  let l := (if ctlLastA s then fieldNames (curGroup s) o.srcA na else [])
    ++ (if ctlLastB s then fieldNames (curGroup s) o.srcB nb else [])
  (l.filter (fun n => !written.contains n)).eraseDups.foldl freeName s

/-- Names that a destination field of `n` words writes. -/
def dstNames (s : State) (f : Option (BitVec 7)) (n : Nat) : List Nat :=
  match f with
  | none => []
  | some f => if isStream f then [] else (upTo n).map (fun k => nameOf (curGroup s) f + k)

/-- Write a predicate in the lanes of a mask; p0 discards (R172). -/
def writePred (s : State) (m : Word) (p : Nat) (lat : Nat) (v : Word) : State :=
  if p = 0 ∨ m = 0 then s
  else
    let g := curGroup s
    let old := lookup g.regs.preds p 0
    setCur s { g with regs := { g.regs with
      preds := insertKey g.regs.preds p ((v &&& m) ||| (old &&& ~~~m))
      pend := if lat = 0 then dropPending g.regs.pend (predKey p)
        else addPending g.regs.pend (predKey p) s.clock lat (ctlAstr s) (some (wordReg old)) } }

/-- Write a uniform register. -/
def writeUnif (s : State) (u lat : Nat) (v : Word) : State :=
  let g := curGroup s
  setCur s { g with regs := { g.regs with
    unif := insertKey g.regs.unif u v
    pend := if lat = 0 then dropPending g.regs.pend (unifKey u)
      else addPending g.regs.pend (unifKey u) s.clock lat (ctlAstr s) (some (wordReg (lookup g.regs.unif u 0))) } }

/-- OR exception flags into FPFLAGS (spec/09 R203). -/
def orFlags (s : State) (f : BitVec 5) : State :=
  let g := curGroup s
  setCur s (keepRaised { g with spec := { g.spec with fpflags := g.spec.fpflags ||| f } } (f.zeroExtend 10))

/-! ### The shape of a lane instruction -/

/-- One more clock for an instruction with a patterned operand (R169). -/
def patLat (fs : List (BitVec 7)) : Nat := if fs.any (fun f => patOf f != 0) then 1 else 0

/-- Read the sources of a lane instruction after its checks: their values, and the state after streams advanced. The checks of class
0xB come after the instruction's own (`after`). -/
def readSources (s : State) (o : OpInfo) (srcs : List Src) : Res (List Lanes × State) :=
  match checkSlot s { o with rangeBad := o.rangeBad || srcs.any (srcRange s) } with
  | .error x => .error x
  | .ok () =>
    match checkWait s (srcs ++ streamCaps (curGroup s) (dstStream o.dst)) with
    | .error x => .error x
    | .ok () =>
      match streamFault s srcs o.dst with
      | some a => .error a
      | none =>
        match streamSources s srcs with
        | .error x => .error x
        | .ok (sv, t) => .ok (srcs.map (srcLanes s sv), noteDead t srcs)

/-- Values of the operands in one lane. -/
def laneArgs (vals : List Lanes) (i : Nat) : List Word := vals.map (fun v => laneVal v i)

/-- A lane instruction: `f` gives, from the operands of a lane, the result words and the exception flags it raises. -/
def laneOp (s : State) (o : OpInfo) (srcs : List Src) (na nb : Nat) (d : BitVec 7) (n lat : Nat)
    (f : List Word → List Word × BitVec 5) : Res State :=
  match readSources s { o with rangeBad := o.rangeBad || dstRange s d n } srcs with
  | .error x => .error x
  | .ok (vals, t) =>
    after (checkUnder s srcs []) <|
    let res := (upTo 32).map (fun i => f (laneArgs vals i))
    let flags := (activeLanes s).foldl (fun m i => m ||| (res.getD i ([], 0)).2) 0
    let words := (upTo n).map (fun k => res.map (fun r => r.1.getD k 0))
    match writeDst t d (lat + patLat ([d] ++ o.srcA.toList ++ o.srcB.toList)) words with
    | .error x => .error x
    | .ok u => .ok (orFlags (applyLast u o na nb (dstNames s (some d) n)) flags)

end Sys2Proof.Machine
end

