-- ==== Sys2Proof/Machine/Integer.lean ====
section
/-!
DEFINITION. Integer and address instructions (spec/10 R217 to R222), nop (spec/07 R179).
-/

namespace Sys2Proof.Machine

abbrev Out := Host.Outcome State Fault Refusal

/-- nop: only its stall count; its guard is ignored (R179). -/
def execNop (s : State) : Out :=
  finish s (match slotFault s {} with | some c => illegal c | none => .ok s)

/-- Static facts of an integer instruction of two sources. -/
def intInfo (d a b : BitVec 7) : OpInfo :=
  { lit := 32, astr := true, srcA := some a, srcB := some b, dst := some d, bUsed := b != 0 }

/-- Static facts of an integer instruction of one source. -/
def intInfo1 (d a : BitVec 7) : OpInfo := { astr := true, srcA := some a, dst := some d }

def arg (v : List Word) (i : Nat) : Word := v.getD i 0

/-- d ← f a b, latency 2 (Table 7-9). -/
def intBin (s : State) (d a b : BitVec 7) (f : Word → Word → Word) : Out :=
  finish s (laneOp s (intInfo d a b) [.reg a 0, srcB s b 0] 1 1 d 1 2 (fun v => ([f (arg v 0) (arg v 1)], 0)))

/-- d ← f a, latency 2. -/
def intUn (s : State) (d a : BitVec 7) (f : Word → Word) : Out :=
  finish s (laneOp s (intInfo1 d a) [.reg a 0] 1 0 d 1 2 (fun v => ([f (arg v 0)], 0)))

/-- A d field that is also read: no pattern and no stream register (R210). -/
def readDstBad (d : BitVec 7) : Bool := patOf d != 0 || isStream d

/-- d ← f a b d, latency 2. -/
def intTri (s : State) (d a b : BitVec 7) (f : Word → Word → Word → Word) : Out :=
  finish s (laneOp s { intInfo d a b with encBad := readDstBad d } [.reg a 0, srcB s b 0, .reg d 0] 1 1 d 1 2
    (fun v => ([f (arg v 0) (arg v 1) (arg v 2)], 0)))

def execAdd (d a b : BitVec 7) (s : State) : Out := intBin s d a b (fun x y => x + y)
def execSub (d a b : BitVec 7) (s : State) : Out := intBin s d a b (fun x y => x - y)
def execAddi (d a i : BitVec 7) (s : State) : Out := intUn s d a (fun x => x + i.signExtend 32)
def execMul (d a b : BitVec 7) (s : State) : Out := intBin s d a b (fun x y => x * y)

/-- Bits [63:32] of the exact product, signed or unsigned. -/
def mulHigh (signed : Bool) (x y : Word) : Word :=
  if signed then (x.signExtend 64 * y.signExtend 64).extractLsb' 32 32 else (x.zeroExtend 64 * y.zeroExtend 64).extractLsb' 32 32

def execMulhi (sg : BitVec 1) (d a b : BitVec 7) (s : State) : Out := intBin s d a b (mulHigh (sg == 1))
def execMad (d a b : BitVec 7) (s : State) : Out := intTri s d a b (fun x y z => x * y + z)

/-- x is less than y, signed or unsigned. -/
def lessW (signed : Bool) (x y : Word) : Bool := if signed then x.slt y else x.ult y

def minW (signed : Bool) (x y : Word) : Word := if lessW signed y x then y else x
def maxW (signed : Bool) (x y : Word) : Word := if lessW signed x y then y else x

def execMin (sg : BitVec 1) (d a b : BitVec 7) (s : State) : Out := intBin s d a b (minW (sg == 1))
def execMax (sg : BitVec 1) (d a b : BitVec 7) (s : State) : Out := intBin s d a b (maxW (sg == 1))

/-- |x| of x signed; the most negative number is its own (Table 10-2). -/
def absW (x : Word) : Word := if x.msb then 0 - x else x

def execAbs (d a : BitVec 7) (s : State) : Out := intUn s d a absW

/-- The exact |x − y|. -/
def absDiffW (signed : Bool) (x y : Word) : Word := if lessW signed x y then y - x else x - y

def execAbsdiff (sg : BitVec 1) (d a b : BitVec 7) (s : State) : Out := intBin s d a b (absDiffW (sg == 1))
def execAnd (d a b : BitVec 7) (s : State) : Out := intBin s d a b (fun x y => x &&& y)
def execOr (d a b : BitVec 7) (s : State) : Out := intBin s d a b (fun x y => x ||| y)
def execXor (d a b : BitVec 7) (s : State) : Out := intBin s d a b (fun x y => x ^^^ y)
def execAndn (d a b : BitVec 7) (s : State) : Out := intBin s d a b (fun x y => x &&& ~~~y)

/-- Shifts by a count read unsigned (R218). -/
def shlW (x : Word) (c : Nat) : Word := if c < 32 then x <<< c else 0
def shrW (x : Word) (c : Nat) : Word := if c < 32 then x >>> c else 0
def sarW (x : Word) (c : Nat) : Word := if c < 32 then x.sshiftRight c else if x.msb then 0xFFFFFFFF else 0
def rolW (x : Word) (c : Nat) : Word := x.rotateLeft (c % 32)

def execShl (d a b : BitVec 7) (s : State) : Out := intBin s d a b (fun x y => shlW x y.toNat)
def execShr (d a b : BitVec 7) (s : State) : Out := intBin s d a b (fun x y => shrW x y.toNat)
def execSar (d a b : BitVec 7) (s : State) : Out := intBin s d a b (fun x y => sarW x y.toNat)
def execRol (d a b : BitVec 7) (s : State) : Out := intBin s d a b (fun x y => rolW x y.toNat)

/-- shi: fn 0 shl, 1 shr, 2 sar, 3 rol by an unsigned immediate. -/
def shiW (f : BitVec 2) (x : Word) (c : Nat) : Word :=
  if f = 0 then shlW x c else if f = 1 then shrW x c else if f = 2 then sarW x c else rolW x c

def execShi (f : BitVec 2) (d a i : BitVec 7) (s : State) : Out := intUn s d a (fun x => shiW f x i.toNat)

/-- Leading zero bits, 0 to 32 (R219). -/
def clzW (x : Word) : Word := if x = 0 then 32 else wordOf (31 - Nat.log2 x.toNat)
/-- One bits. -/
def popcW (x : Word) : Word := wordOf ((upTo 32).filter (fun i => x.getLsbD i)).length
/-- Bit i moves to bit 31 − i. -/
def brevW (x : Word) : Word := (upTo 32).foldl (fun r i => if x.getLsbD i then r ||| BitVec.ofNat 32 (2 ^ (31 - i)) else r) 0

def execClz (d a : BitVec 7) (s : State) : Out := intUn s d a clzW
def execPopc (d a : BitVec 7) (s : State) : Out := intUn s d a popcW
def execBrev (d a : BitVec 7) (s : State) : Out := intUn s d a brevW

/-- Position and effective width of a field descriptor (R220). -/
def fieldPos (y : Word) : Nat := fieldNat y 0 5
def fieldWid (y : Word) : Nat := Nat.min (Nat.min (fieldNat y 8 6) 32) (32 - fieldPos y)

/-- bfx: the field, sign- or zero-extended. -/
def bfxW (signed : Bool) (x y : Word) : Word :=
  let w := fieldWid y
  let v := x.toNat / 2 ^ fieldPos y % 2 ^ w
  if signed && decide (0 < w) && v.testBit (w - 1) then wordOf (2 ^ 32 - 2 ^ w + v) else wordOf v

/-- bfi: d with the field replaced by the low bits of a. -/
def bfiW (x y z : Word) : Word :=
  let m := wordOf ((2 ^ fieldWid y - 1) * 2 ^ fieldPos y)
  (z &&& ~~~m) ||| ((x <<< fieldPos y) &&& m)

def execBfx (sg : BitVec 1) (d a b : BitVec 7) (s : State) : Out := intBin s d a b (bfxW (sg == 1))
def execBfi (d a b : BitVec 7) (s : State) : Out := intTri s d a b bfiW

/-- sel: a where the predicate is 1, else b (R221). -/
def execSel (p : BitVec 3) (d a b : BitVec 7) (s : State) : Out :=
  finish s (laneOp s (intInfo d a b) [.reg a 0, srcB s b 0, .pred p.toNat] 1 1 d 1 2
    (fun v => ([if arg v 2 = 1 then arg v 0 else arg v 1], 0)))

def execLea (sh : BitVec 3) (d a b : BitVec 7) (s : State) : Out := intBin s d a b (fun x y => x + (y <<< sh.toNat))

/-- mov: d ← b, or the literal. -/
def execMov (d b : BitVec 7) (s : State) : Out :=
  finish s (laneOp s { lit := 32, astr := true, srcB := some b, dst := some d, bUsed := b != 0 } [srcB s b 0] 0 1 d 1 2
    (fun v => ([arg v 0], 0)))

def execMovi (d : BitVec 7) (i : BitVec 14) (s : State) : Out :=
  finish s (laneOp s { astr := true, dst := some d } [] 0 0 d 1 2 (fun _ => ([i.signExtend 32], 0)))

/-- The 64-bit value of two words, low word first (R198). -/
def pair64 (lo hi : Word) : BitVec 64 := hi ++ lo
def lowWord (x : BitVec 64) : Word := x.extractLsb' 0 32
def highWord (x : BitVec 64) : Word := x.extractLsb' 32 32

/-- A pair field whose code is a stream register (R211). -/
def pairBad (fs : List (BitVec 7)) : Bool := fs.any isStream

/-- {d + 1, d} ← f a b on pairs, latency 2 (R222). -/
def pairBin (s : State) (d a b : BitVec 7) (f : BitVec 64 → BitVec 64 → BitVec 64) : Out :=
  finish s (laneOp s { intInfo d a b with lit := 64, encBad := pairBad ([d, a] ++ (if s.cur.literal.isSome then [] else [b])) }
    [.reg a 0, .reg a 1, srcB s b 0, srcB s b 1] 2 2 d 2 2
    (fun v => let r := f (pair64 (arg v 0) (arg v 1)) (pair64 (arg v 2) (arg v 3)); ([lowWord r, highWord r], 0)))

def execAdd64 (d a b : BitVec 7) (s : State) : Out := pairBin s d a b (fun x y => x + y)
def execSub64 (d a b : BitVec 7) (s : State) : Out := pairBin s d a b (fun x y => x - y)

/-- sh64: fn 0 shl, 1 shr, 2 sar; a count of 64 or more empties the value (R222). -/
def sh64W (f : BitVec 3) (x : BitVec 64) (c : Nat) : BitVec 64 :=
  if f = 0 then (if c < 64 then x <<< c else 0)
  else if f = 1 then (if c < 64 then x >>> c else 0)
  else (if c < 64 then x.sshiftRight c else if x.msb then BitVec.allOnes 64 else 0)

def execSh64 (f : BitVec 3) (d a b : BitVec 7) (s : State) : Out :=
  finish s (laneOp s { intInfo d a b with fnBad := decide (2 < f.toNat), encBad := pairBad [d, a] }
    [.reg a 0, .reg a 1, srcB s b 0] 2 1 d 2 2
    (fun v => let r := sh64W f (pair64 (arg v 0) (arg v 1)) (arg v 2).toNat; ([lowWord r, highWord r], 0)))

end Sys2Proof.Machine
end

