-- ==== Sys2Proof/Machine/Float.lean ====
section
/-!
DEFINITION. FP32 and packed 16-bit arithmetic (spec/10 R223 to R227), special functions (R226, R216), conversions
(R228 to R230) and block quantisation by lanes (R231 to R234).
-/

namespace Sys2Proof.Machine

/-- Static facts of a floating-point instruction of two sources. -/
def fpInfo (d a b : BitVec 7) : OpInfo := { lit := 32, srcA := some a, srcB := some b, dst := some d, bUsed := b != 0 }
def fpInfo1 (d a : BitVec 7) : OpInfo := { srcA := some a, dst := some d }

/-- A code and its flags as a lane result. -/
def fpOut (r : Nat × FFlags) : List Word × BitVec 5 := ([wordOf r.1], r.2)

/-- d ← f a b with the latency of its class. -/
def fpBin (s : State) (lat : Nat) (d a b : BitVec 7) (f : Nat → Nat → Nat × FFlags) : Res State :=
  laneOp s (fpInfo d a b) [.reg a 0, srcB s b 0] 1 1 d 1 lat (fun v => fpOut (f (arg v 0).toNat (arg v 1).toNat))

/-- d ← f a. -/
def fpUn (s : State) (lat : Nat) (d a : BitVec 7) (f : Nat → Nat × FFlags) : Res State :=
  laneOp s (fpInfo1 d a) [.reg a 0] 1 0 d 1 lat (fun v => fpOut (f (arg v 0).toNat))

/-- d ← f d a b; d is read (R210). -/
def fpTri (s : State) (d a b : BitVec 7) (f : Nat → Nat → Nat → Nat × FFlags) : Res State :=
  laneOp s { fpInfo d a b with encBad := readDstBad d } [.reg a 0, srcB s b 0, .reg d 0] 1 1 d 1 4
    (fun v => fpOut (f (arg v 2).toNat (arg v 0).toNat (arg v 1).toNat))

def execFadd (n : BitVec 1) (r : BitVec 2) (d a b : BitVec 7) (s : State) : Out :=
  finish s (fpBin s 4 d a b (fun x y => fpAdd fp32 r.toNat x (flipSign fp32 (n == 1) y)))
def execFmul (n : BitVec 1) (r : BitVec 2) (d a b : BitVec 7) (s : State) : Out :=
  finish s (fpBin s 4 d a b (fun x y => fpMul fp32 r.toNat x (flipSign fp32 (n == 1) y)))
def execFma (n : BitVec 1) (r : BitVec 2) (d a b : BitVec 7) (s : State) : Out :=
  finish s (fpTri s d a b (fun z x y => fpFma fp32 r.toNat (n == 1) z x y))
def execFmin (d a b : BitVec 7) (s : State) : Out := finish s (fpBin s 4 d a b (fpMinMax fp32 false))
def execFmax (d a b : BitVec 7) (s : State) : Out := finish s (fpBin s 4 d a b (fpMinMax fp32 true))

/-- fsgn: fn 0 copies b's sign, 1 its complement, 2 the exclusive-or; never a flag (R224). -/
def fsgnW (f : BitVec 3) (x y : Word) : Word :=
  let sg := if f = 0 then y.msb else if f = 1 then !y.msb else (x.msb != y.msb)
  (x &&& 0x7FFFFFFF) ||| (if sg then 0x80000000 else 0)

def execFsgn (f : BitVec 3) (d a b : BitVec 7) (s : State) : Out :=
  finish s (laneOp s { fpInfo d a b with fnBad := decide (2 < f.toNat) } [.reg a 0, srcB s b 0] 1 1 d 1 4
    (fun v => ([fsgnW f (arg v 0) (arg v 1)], 0)))
def execFrnd (r : BitVec 2) (d a : BitVec 7) (s : State) : Out := finish s (fpUn s 4 d a (fpRound r.toNat))
def execFclass (d a : BitVec 7) (s : State) : Out := finish s (fpUn s 4 d a (fun x => (fpClass x, 0)))
def execFclamp (d a b : BitVec 7) (s : State) : Out := finish s (fpTri s d a b fpClamp)

/-! ### Special functions: one unit for the core (R216) -/

/-- Issue on the special-function unit: wait while it is busy, then occupy it for half a clock a quad, rounded up. -/
def onSfu (s : State) (r : Res State) : Out :=
  let k := getCore s s.cur.core
  match r with
  | .error e => finish s (.error e)
  | .ok t =>
    if s.clock < k.sfuFree then finish s (.error (.hold .special))
    else
      let k' := getCore t s.cur.core
      finish t (.ok (setCore t s.cur.core { k' with sfuFree := s.clock + (s.cur.quads.length + 1) / 2 }))

def execFdiv (d a b : BitVec 7) (s : State) : Out := onSfu s (fpBin s 24 d a b fpDiv)
def execFsqrt (d a : BitVec 7) (s : State) : Out := onSfu s (fpUn s 24 d a fpSqrt)
def execFrcp (d a : BitVec 7) (s : State) : Out := onSfu s (fpUn s 24 d a fpRcp)
def execFrsq (d a : BitVec 7) (s : State) : Out := onSfu s (fpUn s 24 d a fpRsq)
def execFex2 (d a : BitVec 7) (s : State) : Out := onSfu s (fpUn s 24 d a fpExp2)
def execFlg2 (d a : BitVec 7) (s : State) : Out := onSfu s (fpUn s 24 d a fpLog2)
def execFsinpi (d a : BitVec 7) (s : State) : Out := onSfu s (fpUn s 24 d a fpSinPi)
def execFcospi (d a : BitVec 7) (s : State) : Out := onSfu s (fpUn s 24 d a fpCosPi)

/-! ### Packed 16-bit arithmetic (R227) -/

/-- FP16 or BF16 by fn[0]. -/
def halfFmt (t : BitVec 1) : Fmt := if t = 0 then fp16 else bf16

/-- Apply an operation to both elements of packed words. -/
def packed (f : Nat → Nat × FFlags) : Nat × FFlags :=
  let lo := f 0
  let hi := f 1
  (lo.1 + hi.1 * 2 ^ 16, lo.2 ||| hi.2)

/-- Element j of a packed word. -/
def half (x j : Nat) : Nat := x / 2 ^ (16 * j) % 2 ^ 16

def execHadd2 (t : BitVec 1) (d a b : BitVec 7) (s : State) : Out :=
  finish s (fpBin s 4 d a b (fun x y => packed (fun j => fpAdd (halfFmt t) 0 (half x j) (half y j))))
def execHmul2 (t : BitVec 1) (d a b : BitVec 7) (s : State) : Out :=
  finish s (fpBin s 4 d a b (fun x y => packed (fun j => fpMul (halfFmt t) 0 (half x j) (half y j))))
def execHfma2 (t : BitVec 1) (d a b : BitVec 7) (s : State) : Out :=
  finish s (fpTri s d a b (fun z x y => packed (fun j => fpFma (halfFmt t) 0 false (half z j) (half x j) (half y j))))
def execHmin2 (t : BitVec 1) (d a b : BitVec 7) (s : State) : Out :=
  finish s (fpBin s 4 d a b (fun x y => packed (fun j => fpMinMax (halfFmt t) false (half x j) (half y j))))
def execHmax2 (t : BitVec 1) (d a b : BitVec 7) (s : State) : Out :=
  finish s (fpBin s 4 d a b (fun x y => packed (fun j => fpMinMax (halfFmt t) true (half x j) (half y j))))

/-! ### Conversions (R228 to R230) -/

def execCvti2f (r : BitVec 2) (sg : BitVec 1) (d a : BitVec 7) (s : State) : Out :=
  finish s (fpUn s 4 d a (intToFp (sg == 1) r.toNat))
def execCvtf2i (r : BitVec 2) (sg : BitVec 1) (d a : BitVec 7) (s : State) : Out :=
  finish s (fpUn s 4 d a (fpToInt (sg == 1) r.toNat))

def execCvtpk16 (t : BitVec 1) (d a b : BitVec 7) (s : State) : Out :=
  finish s (fpBin s 4 d a b (fun x y =>
    let p := narrow (halfFmt t) false x
    let q := narrow (halfFmt t) false y
    (p.1 + q.1 * 2 ^ 16, p.2 ||| q.2)))
def execCvtup16 (h t : BitVec 1) (d a : BitVec 7) (s : State) : Out :=
  finish s (fpUn s 4 d a (fun x => (widen (halfFmt t) (half x h.toNat), 0)))

/-- 8-bit format by code (Table 8-2). -/
def byteFmt (f : BitVec 2) : Fmt := if f = 0 then e4m3 else if f = 1 then e5m2 else e2m1

def execCvtpk8 (st : BitVec 1) (f : BitVec 2) (d a b : BitVec 7) (s : State) : Out :=
  finish s (laneOp s { fpInfo d a b with fnBad := f == 3 } [.reg a 0, srcB s b 0] 1 1 d 1 4 (fun v =>
    let p := narrow (byteFmt f) (st == 1) (arg v 0).toNat
    let q := narrow (byteFmt f) (st == 1) (arg v 1).toNat
    fpOut (p.1 + q.1 * (if f = 2 then 2 ^ 4 else 2 ^ 8), p.2 ||| q.2)))
def execCvtup8 (f : BitVec 2) (d a : BitVec 7) (s : State) : Out :=
  finish s (laneOp s { fpInfo1 d a with fnBad := f == 3 } [.reg a 0] 1 0 d 1 4 (fun v =>
    fpOut (widen (byteFmt f) ((arg v 0).toNat % (if f = 2 then 2 ^ 4 else 2 ^ 8)), 0)))

/-! ### Block quantisation (R231 to R234) -/

/-- A cross-lane instruction in a parted group (R213). -/
def crossCheck (s : State) (o : OpInfo) : Res Unit :=
  match checkSlot s o with
  | .error e => .error e
  | .ok () => if isLane s then illegal 0x06 else if isParted (curGroup s) then trapNow 4 0x01 else .ok ()

/-- Values of the active lanes. -/
def activeVals (s : State) (v : Lanes) : List Nat := (activeLanes s).map (fun i => (laneVal v i).toNat)

/-- qscal: the block's scale in every active lane. -/
def execQscal (f : BitVec 2) (d a b : BitVec 7) (s : State) : Out :=
  let qn := f == 2
  let o : OpInfo := { lit := if qn then 32 else 0, srcA := some a, srcB := if qn then some b else none, dst := some d,
                      bUsed := b != 0, fnBad := f == 3, encBad := (!qn && b != 0) || (qn && isStream a),
                      rangeBad := qn && srcRange s (.reg a 1) }
  finish s (match crossCheck s o with
    | .error e => .error e
    | .ok () =>
      match readSources s o (if qn then [.reg a 0, .reg a 1, srcB s b 0] else [.reg a 0]) with
      | .error e => .error e
      | .ok (vals, t) => after (checkUnder s (if qn then [.reg a 0, .reg a 1, srcB s b 0] else [.reg a 0]) []) <|
        if (activeLanes s).isEmpty then .ok s
        else
          let x0 := activeVals s (vals.getD 0 [])
          let x1 := if qn then activeVals s (vals.getD 1 []) else []
          let xs := (x0 ++ x1).map (unpack fp32)
          let nv := nvIf (xs.any isSig)
          let r : Nat × FFlags :=
            if qn then chooseQn (unpack fp32 (laneVal (vals.getD 2 []) ((firstLane s).getD 0)).toNat) xs
            else (chooseE8 f.toNat false xs, 0)
          match writeDst t d 0 [List.replicate 32 (wordOf r.1)] with
          | .error e => .error e
          | .ok u => .ok (orFlags (applyLast u o (if qn then 2 else 1) 1 (dstNames s (some d) 1)) (r.2 ||| nv)))

/-- qenc of one lane (R233). -/
def qencLane (sat : Bool) (f : BitVec 2) (x y : Nat) : Nat × FFlags :=
  let v := unpack fp32 x
  if f = 2 then
    match unpack fp32 y with
    | .fin n m e => if m = 0 then (0, 0) else if n then (7, flagNV) else qnEncode v ⟨m, e⟩
    | _ => (7, flagNV)
  else
    match e8Exp (y % 256) with
    | none => (if f = 0 then 0x7F else 7, flagNV)
    | some c => narrowVal (blockFmt f.toNat) sat (scaleFp v (0 - c))

def execQenc (st : BitVec 1) (f : BitVec 2) (d a b : BitVec 7) (s : State) : Out :=
  finish s (laneOp s { fpInfo d a b with fnBad := f == 3 || (f == 2 && st == 1) } [.reg a 0, srcB s b 0] 1 1 d 1 4
    (fun v => fpOut (qencLane (st == 1) f (arg v 0).toNat (arg v 1).toNat)))

/-- qdec of one lane (R234). -/
def qdecLane (f : BitVec 2) (x y : Nat) : Nat × FFlags :=
  if f = 2 then
    match unpack fp32 y with
    | .fin n m e =>
      if m = 0 then (0, 0) else if n then (fp32.nanCode, flagNV)
      else
        let r := qnDecode (x % 16) ⟨m, e⟩
        roundFmt fp32 0 false (decide (r.num < 0)) r.num.natAbs r.exp false
    | _ => (fp32.nanCode, flagNV)
  else
    let v := unpack (blockFmt f.toNat) (x % (if f = 0 then 256 else 16))
    match e8Exp (y % 256) with
    | none => (fp32.nanCode, 0)
    | some c => packFp fp32 0 false (scaleFp v c)

def execQdec (f : BitVec 2) (d a b : BitVec 7) (s : State) : Out :=
  finish s (laneOp s { fpInfo d a b with fnBad := f == 3 } [.reg a 0, srcB s b 0] 1 1 d 1 4
    (fun v => fpOut (qdecLane f (arg v 0).toNat (arg v 1).toNat)))

end Sys2Proof.Machine
end

