-- ==== Sys2Proof/Machine/Predicate.lean ====
section
/-!
DEFINITION. Predicate instructions (spec/10 R235 to R238), cross-lane data (R239 to R241), and the reads and writes of
per-group execution state: rds (spec/11 R256, spec/07 R174, R175), wbase, setlp and dcw (R256, R257).
-/

namespace Sys2Proof.Machine

/-! ### P format (R235) -/

/-- Equal true and false predicates other than p0 are malformed. -/
def pairPred (t f : BitVec 3) : Bool := t == f && t != 0

/-- Write c to the true predicate and its complement to the false predicate in every active lane. -/
def writeCond (s : State) (t f : BitVec 3) (lat : Nat) (c : Word) : State :=
  writePred (writePred s (activeMask s) t.toNat lat c) (activeMask s) f.toNat lat (~~~c)

/-- A word with bit i given by a test. -/
def laneMask (p : Nat → Bool) : Word := (upTo 32).foldl (fun m i => if p i then m ||| BitVec.ofNat 32 (2 ^ i) else m) 0

/-- A P-format instruction of the active lanes; with both destinations p0 it has no effect (R235). -/
def predOp (s : State) (o : OpInfo) (srcs : List Src) (na nb : Nat) (t f : BitVec 3) (lat : Nat)
    (c : List Word → Bool × BitVec 5) : Res State :=
  let o := { o with pBad := pairPred t f }
  if t = 0 ∧ f = 0 then
    (match checkSlot s o with | .error x => .error x | .ok () => .ok s)
  else
    match readSources s o srcs with
    | .error x => .error x
    | .ok (vals, u) => after (checkUnder s srcs []) <|
      let res := (upTo 32).map (fun i => c (laneArgs vals i))
      let flags := (activeLanes s).foldl (fun m i => m ||| (res.getD i (false, 0)).2) 0
      let u := writeCond u t f (lat + patLat (o.srcA.toList ++ o.srcB.toList)) (laneMask (fun i => (res.getD i (false, 0)).1))
      .ok (orFlags (applyLast u o na nb []) flags)

/-- Integer conditions (R236, Table 8-2): eq, ne, lt.i, le.i, lt.n, le.n. -/
def condW (c : Nat) (x y : Word) : Bool :=
  match c with
  | 0 => x == y
  | 1 => x != y
  | 2 => x.slt y
  | 3 => x.sle y
  | 4 => x.ult y
  | _ => x.ule y

def execIcmp (c t f : BitVec 3) (a b : BitVec 7) (s : State) : Out :=
  finish s (predOp s { lit := 32, srcA := some a, srcB := some b, bUsed := b != 0, fnBad := decide (5 < c.toNat) }
    [.reg a 0, srcB s b 0] 1 1 t f 2 (fun v => (condW c.toNat (arg v 0) (arg v 1), 0)))

def execIcmpi (c t f : BitVec 3) (a i : BitVec 7) (s : State) : Out :=
  finish s (predOp s { srcA := some a, fnBad := decide (5 < c.toNat) } [.reg a 0] 1 0 t f 2
    (fun v => (condW c.toNat (arg v 0) (i.signExtend 32), 0)))

def execFcmp (c t f : BitVec 3) (a b : BitVec 7) (s : State) : Out :=
  finish s (predOp s { fpInfo 0 a b with dst := none, fnBad := decide (3 < c.toNat) } [.reg a 0, srcB s b 0] 1 1 t f 4
    (fun v => fpCompare c.toNat (arg v 0).toNat (arg v 1).toNat))

/-- plog: and, or, xor, andn (R237). -/
def plogB (o : BitVec 2) (x y : Bool) : Bool :=
  if o = 0 then x && y else if o = 1 then x || y else if o = 2 then x != y else x && !y

def execPlog (o : BitVec 2) (t f a b : BitVec 3) (s : State) : Out :=
  finish s (predOp s {} [.pred a.toNat, .pred b.toNat] 0 0 t f 2 (fun v => (plogB o (arg v 0 == 1) (arg v 1 == 1), 0)))

def execItop (t f : BitVec 3) (a : BitVec 7) (s : State) : Out :=
  finish s (predOp s { srcA := some a } [.reg a 0] 1 0 t f 2 (fun v => (arg v 0 != 0, 0)))

def execPtoi (d : BitVec 7) (a : BitVec 3) (s : State) : Out :=
  finish s (laneOp s { dst := some d } [.pred a.toNat] 0 0 d 1 2 (fun v => ([arg v 0], 0)))

/-! ### Cross-lane instructions (R213, R238 to R241) -/

/-- vote: all, any or uniform over the active lanes. -/
def voteB (o : BitVec 2) (bs : List Bool) : Bool :=
  if o = 0 then bs.all id else if o = 1 then bs.any id else bs.all id || !bs.any id

/-- The bits of a source in the active lanes. -/
def activeBits (s : State) (v : Lanes) : List Bool := (activeLanes s).map (fun i => laneVal v i == 1)

def execVote (o : BitVec 2) (t f a : BitVec 3) (s : State) : Out :=
  let info : OpInfo := { fnBad := o == 3, pBad := pairPred t f }
  finish s (match crossCheck s info with
    | .error e => .error e
    | .ok () =>
      match readSources s info [.pred a.toNat] with
      | .error e => .error e
      | .ok (vals, u) => after (checkUnder s [.pred a.toNat] []) <|
        .ok (writeCond u t f 0 (if voteB o (activeBits s (vals.getD 0 [])) then 0xFFFFFFFF else 0)))

/-- A cross-lane instruction with a lane destination: `f` gives the results of all 32 lanes and the flags. -/
def crossOp (s : State) (o : OpInfo) (srcs : List Src) (na nb : Nat) (d : BitVec 7)
    (f : List Lanes → Lanes × BitVec 5) : Res State :=
  match readSources s o srcs with
  | .error e => .error e
  | .ok (vals, u) => after (checkUnder s srcs []) <|
    let r := f vals
    match writeDst u d 0 [r.1] with
    | .error e => .error e
    | .ok u => .ok (orFlags (applyLast u o na nb (dstNames s (some d) 1)) r.2)

/-- A collective cross-lane instruction: it traps in a parted group. -/
def collective (s : State) (o : OpInfo) (srcs : List Src) (na nb : Nat) (d : BitVec 7)
    (f : List Lanes → Lanes × BitVec 5) : Res State :=
  match crossCheck s o with
  | .error e => .error e
  | .ok () => crossOp s o srcs na nb d f

/-- The sum of 2^j over the active lanes j that meet a test. -/
def activeSum (s : State) (p : Nat → Bool) : Word := laneMask (fun j => (activeMask s).getLsbD j && p j)

def execBallot (d : BitVec 7) (a : BitVec 3) (s : State) : Out :=
  finish s (collective s { dst := some d } [.pred a.toNat] 0 0 d (fun vals =>
    (List.replicate 32 (activeSum s (fun j => laneVal (vals.getD 0 []) j == 1)), 0)))

def execMatchAny (d a : BitVec 7) (s : State) : Out :=
  finish s (collective s { srcA := some a, dst := some d } [.reg a 0] 1 0 d (fun vals =>
    let v := vals.getD 0 []
    ((upTo 32).map (fun i => activeSum s (fun j => laneVal v j == laneVal v i)), 0)))

/-- The group is parted and some lane that source a is read in, as it is named or through the field's pattern, lies in no quad of
the issuing candidate (R213, R169; entry 56). -/
def strayRead (s : State) (a : BitVec 7) (lanes : List Nat) : Bool :=
  let g := curGroup s
  let stray := fun (i : Nat) => decide (i / 4 < g.nquad) && !s.cur.quads.contains (i / 4)
  isParted g && lanes.any (fun i => stray i || (decide (i / 4 < g.nquad) && stray (fieldLane g a i)))

/-- The lane numbers that a second source names, modulo 32. -/
def namedLanes (s : State) (v : Lanes) : List Nat := (activeLanes s).map (fun i => (laneVal v i).toNat % 32)

/-- The second source of perm or vget, source a as it is read in the lanes that `named` takes from that, and the state after the
reads. A lane at or beyond 4 × NQUAD is read nowhere; in a parted group, no lane of another quad may be (R213, R239, R241). -/
def readAcross (s : State) (o : OpInfo) (a b : BitVec 7) (named : Lanes → List Nat) : Res ((Lanes × Lanes) × List Src × State) :=
  let y := srcB s b 0
  match checkSlot s o with
  | .error e => .error e
  | .ok () =>
    match checkWait s [y] with
    | .error e => .error e
    | .ok () =>
      if (streamCode y).isNone && strayRead s a (named (srcLanes s [] y)) then trapNow 4 0x01
      else match readSources s o (y :: if isStream a then [.reg a 0] else []) with
        | .error e => .error e
        | .ok (vals, u) =>
          let v := vals.getD 0 []
          let x := Src.lanes a ((named v).filter (fun i => decide (i / 4 < (curGroup s).nquad)))
          if strayRead s a (named v) then trapNow 4 0x01
          else match checkWait s [x] with
            | .error e => .error e
            | .ok () => .ok ((if isStream a then vals.getD 1 [] else srcLanes s [] x, v), [x, y], noteDead u [x])

/-- Source a read in lane `f`: 0 at or beyond 4 × NQUAD and in an exited quad (R213, R239, R241). -/
def positionVal (g : Group) (v : Lanes) (f : Nat) : Word :=
  if g.nquad ≤ f / 4 || (getQuad g (f / 4)).exited then 0 else laneVal v f

def execPerm (d a b : BitVec 7) (s : State) : Out :=
  let o : OpInfo := { lit := 32, noLane := true, srcA := some a, srcB := some b, dst := some d, bUsed := b != 0 }
  finish s (match readAcross s o a b (namedLanes s) with
    | .error e => .error e
    | .ok ((x, y), srcs, u) => after (checkUnder s srcs []) <|
      match writeDst u d 0 [(upTo 32).map (fun i => positionVal (curGroup s) x ((laneVal y i).toNat % 32))] with
      | .error e => .error e
      | .ok u => .ok (applyLast u o 1 1 (dstNames s (some d) 1)))

/-- Identity of a reduction (R240, R208). -/
def reduxId (o : Nat) : Nat :=
  match o with
  | 0 => 0
  | 1 => 0x80000000
  | 2 => 0x7FFFFFFF
  | 3 => 0x80000000
  | 6 => 0xFFFFFFFF
  | 7 => 0
  | _ => 0x7FC00000

/-- One step of a reduction: the value and the flags raised so far. -/
def reduxStep (o : Nat) (x y : Nat × BitVec 5) : Nat × BitVec 5 :=
  let fp := fun (r : Nat × BitVec 5) => (r.1, r.2 ||| x.2 ||| y.2)
  let int := fun (w : Word) => (w.toNat, (0 : BitVec 5))
  let a := wordOf x.1
  let b := wordOf y.1
  match o with
  | 0 => int (a + b)
  | 1 => fp (fpAdd fp32 0 x.1 y.1)
  | 2 => int (minW true a b)
  | 3 => int (maxW true a b)
  | 4 => fp (fpMinMax fp32 false x.1 y.1)
  | 5 => fp (fpMinMax fp32 true x.1 y.1)
  | 6 => int (a &&& b)
  | _ => int (a ||| b)

/-- The 32 positions of a reduction, inactive ones at the identity. -/
def reduxIn (s : State) (o : Nat) (v : Lanes) : List (Nat × BitVec 5) :=
  (upTo 32).map (fun i => (if (activeMask s).getLsbD i then (laneVal v i).toNat else reduxId o, 0))

def execRedux (o : BitVec 3) (d a : BitVec 7) (s : State) : Out :=
  finish s (collective s { srcA := some a, dst := some d } [.reg a 0] 1 0 d (fun vals =>
    let r := reduceTree (reduxStep o.toNat) (0, 0) (reduxIn s o.toNat (vals.getD 0 []))
    (List.replicate 32 (wordOf r.1), r.2)))

def execScan (o : BitVec 3) (d a : BitVec 7) (s : State) : Out :=
  finish s (collective s { srcA := some a, dst := some d } [.reg a 0] 1 0 d (fun vals =>
    let r := scanSteps (reduxStep o.toNat) (0, 0) (reduxIn s o.toNat (vals.getD 0 []))
    (r.map (fun x => wordOf x.1), r.foldl (fun m x => m ||| x.2) 0)))

/-- vget: a uniform register takes one lane's value; nothing happens with no active lane (R241, R214). -/
def execVget (d : BitVec 5) (a b : BitVec 7) (s : State) : Out :=
  let o : OpInfo := { lit := 32, noLane := true, srcA := some a, srcB := some b, bUsed := b != 0 }
  finish s (match readAcross s o a b (fun v => (firstLane s).toList.map (fun i => (laneVal v i).toNat % 32)) with
    | .error e => .error e
    | .ok ((x, y), srcs, u) => after (checkUnder s srcs []) <|
      match firstLane s with
      | none => .ok s
      | some i => .ok (applyLast (writeUnif u d.toNat 0 (positionVal (curGroup s) x ((laneVal y i).toNat % 32))) o 1 1 []))

def execVbcast (d : BitVec 7) (a : BitVec 5) (s : State) : Out :=
  finish s (laneOp s { dst := some d } [.unif a.toNat] 0 0 d 1 2 (fun v => ([arg v 0], 0)))

/-! ### Special registers (R174, R175, R256) -/

/-- The truss epoch of the group's launch. -/
def epochOf (s : State) : Word := ((curLaunch s).truss.map (·.epoch)).getD 0

/-- Value of a special register in lane `i`; none for an unassigned number (Table 7-5). -/
def specialReg (s : State) (n i : Nat) : Option Word :=
  let g := curGroup s
  let t := curTeam s
  match n with
  | 0x00 => some (wordOf i)
  | 0x01 => some (wordOf (i / 4))
  | 0x02 => some (wordOf (s.cur.slot % 64))
  | 0x03 => some (wordOf g.team)
  | 0x04 => some (wordOf g.role)
  | 0x05 => some (wordOf s.cur.core)
  | 0x06 => some (wordOf (curDie s))
  | 0x07 => some (wordOf t.gx)
  | 0x08 => some (wordOf t.gy)
  | 0x09 => some (wordOf t.gz)
  | 0x0A => some (wordOf (t.spanRow * 256 + t.spanCol))
  | 0x0B => some (wordOf s.clock)
  | 0x0C => some g.spec.clockHi
  | 0x0D => some (curRegion g).serial
  | 0x0E => some g.spec.retired
  | 0x0F => some (wordOf g.regs.wb)
  | 0x10 => some (epochOf s)
  | 0x11 => some (g.spec.fpflags.zeroExtend 32)
  | 0x12 => some (g.spec.kstat.zeroExtend 32)
  | 0x13 => some (g.spec.cpstat.zeroExtend 32)
  | 0x14 => some (if g.spec.regstat then 1 else 0)
  | 0x15 => some (if isSuper s then 1 else 0)
  | 0x16 => some (wordOf g.nquad)
  | 0x17 => some (wordOf ((g.quads.filter (fun q => q.2.member)).foldl (fun m q => m + 2 ^ q.1) 0))
  | _ => none

/-- The status bits that a read of a special register is to clear (R175). -/
def readBits (sp : Specials) (n : Nat) : BitVec 10 :=
  match n with
  | 0x11 => sp.fpflags.zeroExtend 10
  | 0x12 => sp.kstat.zeroExtend 10 <<< 5
  | 0x13 => sp.cpstat.zeroExtend 10 <<< 7
  | 0x14 => if sp.regstat then 0x200 else 0
  | _ => 0

/-- What reading a special register leaves behind: CLOCKLO latches the upper half, the four status registers are to be
cleared when the region commits; in the supervisor lane, which has no region, at once (R175, R158). -/
def specialEffect (s : State) (n : Nat) : State :=
  let g := curGroup s
  let bits := readBits g.spec n
  let g := if n = 0x0B then { g with spec := { g.spec with clockHi := wordOf (s.clock / 2 ^ 32) } } else g
  if isLane s then setCur s (clearBits g bits)
  else
    let r := curRegion g
    setCur s (setCurRegion g { r with clears := r.clears ||| bits })

def execRds (d : BitVec 7) (i : BitVec 8) (s : State) : Out :=
  finish s (match checkSlot s { dst := some d } with
    | .error e => .error e
    | .ok () =>
      if (specialReg s i.toNat 0).isNone then illegal 0x06
      else
        match readSources s { dst := some d } [] with
        | .error e => .error e
        | .ok (_, u) => after (checkUnder s [] []) <|
          match writeDst u d (2 + patLat [d]) [(upTo 32).map (fun l => (specialReg s i.toNat l).getD 0)] with
          | .error e => .error e
          | .ok u => .ok (if (activeLanes s).isEmpty then u else specialEffect u i.toNat))

/-! ### Window base, lane patterns, counters (R256, R257) -/

def execWbase (i : BitVec 14) (s : State) : Out :=
  finish s (match checkSlot s { p0 := true } with
    | .error e => .error e
    | .ok () =>
      if i.toNat % 8 ≠ 0 || decide (224 < i.toNat) then illegal 0x10
      else if isLane s && decide (32 < i.toNat) then illegal 0x06
      else
        let g := curGroup s
        .ok (setCur s { g with regs := { g.regs with wb := i.toNat } }))

def execSetlp (f : BitVec 2) (i : BitVec 8) (s : State) : Out :=
  finish s (match checkSlot s { fnBad := f == 0 } with
    | .error e => .error e
    | .ok () =>
      if decide (3 < fieldNat i 5 3) || (fieldNat i 5 3 == 3 && decide (5 < fieldNat i 0 5)) then illegal 0x10
      else match checkWait s [] with
        | .error e => .error e
        | .ok () => after (checkUnder s [] []) <|
          if (activeLanes s).isEmpty then .ok s
          else
            let g := curGroup s
            .ok (setCur s { g with regs := { g.regs with lps := insertKey g.regs.lps f.toNat i } }))

/-- dcw: wait until the named counters are at or below the limit; field i is imm14[13:1]. -/
def execDcw (i : BitVec 13) (s : State) : Out :=
  finish s (match checkSlot s {} with
    | .error e => .error e
    | .ok () =>
      match checkWait s [] with
      | .error e => .error e
      | .ok () => after (checkUnder s [] []) <|
        let above := (upTo 7).any (fun n => i.getLsbD n && decide (fieldNat i 7 6 < lookup (curGroup s).regs.dcs (n + 1) 0))
        if !(activeLanes s).isEmpty && above then .error (.hold (.counter (2 * fieldNat i 0 7) (fieldNat i 7 6))) else .ok s)

end Sys2Proof.Machine
end

