-- ==== Sys2Proof/Machine/Regions.lean ====
section
/-!
DEFINITION. Regions: the performing of what one holds (spec/05 R117, R122, spec/06 R151), the record and replay of logged
operations at a slice (spec/17 R375 to R377), and the store hash (R378).
-/

namespace Sys2Proof.Machine

/-! ### Hardware accesses that belong to no core -/

/-- No unit but the truss instructions writes a coverage object, and none a code object while XE is set (R22). -/
def writable (e : Desc) : Bool := !((e.kind == 1 && e.xe) || e.kind == 4)

/-- Write bytes of an object at its home, as the hardware does for itself; an object that refuses is left as it is. At a migrating page
the request parks, and goes on as a SLICE_STORE of its own (R40). -/
def hwWrite (s : State) (p obj off : Nat) (bs : List Byte) : State :=
  match readEntry s p obj with
  | none => s
  | some e =>
    if !writable e then s
    else match writeObject s p none e off bs false with
      | .ok s => s
      | .error (.migrating _ a) => parkAt s p e a ⟨.sliceStore, { obj := obj, off := off, extra := p, flag := true, bytes := bs }⟩
      | .error _ => s

/-- Read bytes of an object at its home, as the hardware does for itself. -/
def hwRead (s : State) (p obj off n : Nat) : Except MemErr (List Byte × State) :=
  match readEntry s p obj with
  | none => .error (.cap 0x09)
  | some e => readHome s p e off n

/-- Read a little-endian number of an object through a capability the hardware holds. -/
def hwLoad (s : State) (p : Nat) (c : Cap) (off n : Nat) : Except MemErr (Nat × State) :=
  if capLen c < off + n then .error (.cap 0x04) else (hwRead s p c.obj.toNat (c.base.toNat + off) n).map (fun r => (leNat r.1, r.2))

/-- The same number alone; none where the object refuses. -/
def hwNat (s : State) (p : Nat) (c : Cap) (off n : Nat) : Option Nat :=
  match hwLoad s p c off n with
  | .ok r => some r.1
  | .error _ => none

/-- Write a number through a capability the hardware holds; nothing past its length. -/
def hwPut (s : State) (p : Nat) (c : Cap) (off n v : Nat) : State :=
  if capLen c < off + n then s else hwWrite s p c.obj.toNat (c.base.toNat + off) (leBytes n v)

/-! ### Record and replay (R375 to R377) -/

/-- Replay mode of a launch: 0 off, 1 record, 2 replay. -/
def replayMode (l : Launch) : Nat := fieldNat l.flags 5 2

/-- Start and size of a slice's region of the replay log object: z × LEN / 128 rounded down to a multiple of 8 (R376). -/
def logZone (c : Cap) (z : Nat) : Nat × Nat :=
  let start := fun (z : Nat) => z * capLen c / 128 / 8 * 8
  (start z, start (z + 1) - start z)

def getLog (s : State) (z l : Nat) : RunLog := lookup (getSlice s (z / 16) (z % 16)).logs l ⟨0, 0, 0, false⟩
def setLog (s : State) (z l : Nat) (r : RunLog) : State :=
  let k := getSlice s (z / 16) (z % 16)
  setSlice s (z / 16) (z % 16) { k with logs := insertKey k.logs l r }

/-- Write the run a slice has counted as a chunk, or note the overflow of its region (R376). -/
def writeChunk (s : State) (z l : Nat) : State :=
  let x := getLaunch s l
  let r := getLog s z l
  match x.replay with
  | none => s
  | some c =>
    if r.run = 0 || r.overflow then s
    else
      let (base, size) := logZone c z
      if size < 16 + 8 * (r.chunks + 1) then
        setLog s z l { r with run := 0, overflow := true }
      else
        let s := hwPut s x.part c (base + 16 + 8 * r.chunks) 8 (r.wg * 2 ^ 32 + r.run)
        setLog s z l { r with run := 0, chunks := r.chunks + 1 }

/-- A slice's header at launch end (Table 22-1, R426): COUNT, OVF, and reserved words of zero, where its region holds one. -/
def writeLogHeader (s : State) (z l : Nat) : State :=
  let x := getLaunch s l
  let r := getLog s z l
  match x.replay with
  | none => s
  | some c =>
    let (base, size) := logZone c z
    if size < 16 then s else hwPut s x.part c base 16 (r.chunks + if r.overflow then 2 ^ 32 else 0)

/-- One logged operation of a group applied at a slice in record mode. -/
def recordOp (s : State) (z l wg : Nat) : State :=
  let r := getLog s z l
  if r.overflow then s
  else if r.run ≠ 0 && r.wg = wg then setLog s z l { r with run := r.run + 1 }
  else
    let s := writeChunk s z l
    setLog s z l { getLog s z l with wg := wg, run := 1 }

/-- What a slice reads of a log: a page that migrates lets the operation wait (R40), another fault ends the log. -/
def logRead (s : State) (p : Nat) (c : Cap) (off n : Nat) : Res (Option Nat) :=
  match hwLoad s p c off n with
  | .ok r => .ok (some r.1)
  | .error (.migrating o a) => .error (.hold (.migrating o a))
  | .error _ => .ok none

/-- The head chunk of a slice's log in replay mode: its group and how much of its run is left; none once the log ended. -/
def headChunk (s : State) (z l : Nat) : Res (Option (Nat × Nat)) :=
  let x := getLaunch s l
  let r := getLog s z l
  if r.run ≠ 0 then .ok (some (r.wg, r.run))
  else
    match x.replay with
    | none => .ok none
    | some c =>
      let (base, _) := logZone c z
      match logRead s x.part c base 4 with
      | .error e => .error e
      | .ok none => .ok none
      | .ok (some n) =>
        if n ≤ r.chunks then .ok none
        else match logRead s x.part c (base + 16 + 8 * r.chunks) 8 with
          | .error e => .error e
          | .ok none => .ok none
          | .ok (some v) => .ok (if v % 2 ^ 32 = 0 then none else some (v / 2 ^ 32, v % 2 ^ 32))

/-- The clock since which the issuing quads, or the commit of a region, wait at an order gate. -/
def gateSince (s : State) : Nat :=
  match s.cur.quads with
  | [] => (curGroup s).stats.gate.getD s.clock
  | q :: _ => match (getQuad (curGroup s) q).park with
    | .orderGate t _ _ _ => t
    | _ => s.clock

/-- The issuing quads, or the commit of a region, have passed an order gate: the next wait at one counts from its own start. -/
def passGate (s : State) (c slot : Nat) : State :=
  let g := getGroup s c slot
  match s.cur.quads with
  | [] => setGroup s c slot { g with stats := { g.stats with gate := none } }
  | qs => setGroup s c slot (qs.foldl (fun g q => setQuad g q { getQuad g q with park := .none }) g)

/-- One logged operation of the issuing group at a slice: recorded, or held at the order gate until the head chunk names
the group; a wait of 2^20 clocks is debug stop 0x08 (R377). -/
def loggedOp (s : State) (c slot d z : Nat) : Res State :=
  let g := getGroup s c slot
  let l := g.launch
  let u := 16 * d + z
  match (if slot = Config.laneSlot then 0 else replayMode (getLaunch s l)) with
  | 1 => .ok (recordOp s u l g.wg.toNat)
  | 2 =>
    match headChunk s u l with
    | .error e => .error e
    | .ok none => .ok s
    | .ok (some (wg, run)) =>
      let r := getLog s u l
      if wg = g.wg.toNat then
        .ok (passGate (setLog s u l { r with wg := wg, run := run - 1, chunks := if run = 1 then r.chunks + 1 else r.chunks }) c slot)
      else if gateSince s + 2 ^ 20 ≤ s.clock then .error (.trap { cls := 2, code := 0x08 })
      else .error (.hold (.orderGate (gateSince s) u r.chunks r.run))
  | _ => .ok s

/-- The logged operation of an access to an object offset. -/
def loggedAt (s : State) (c slot obj off : Nat) : Res State :=
  match readEntry s (getCore s c).part obj with
  | none => .ok s
  | some e => loggedOp s c slot (homeDie e off) (homeSlice obj off)

/-! ### Performing what a region holds -/

/-- What stops an operation keeps what the earlier ones of its instruction or commit have done: a wait at an order gate does not undo
them (R377), nor one at the bank queues. -/
def keepDone (s : State) (a : Abort) : Abort :=
  match a with
  | .hold p => .lateHold s p
  | a => a

/-- Replace store `j` of region `i`. -/
def setStore (g : Group) (i j : Nat) (f : StoreOp → StoreOp) : Group :=
  { g with regions := g.regions.modify i (fun r => { r with stores := r.stores.modify j f }) }

/-- Perform reductions as logged operations one by one, each noted as done in its store (R375, R377). -/
def releaseOps (c slot i j : Nat) (st : StoreOp) : State → List Write → Res State
  | s, [] => .ok s
  | s, w :: ws =>
    match (if w.op < 32 then loggedAt s c slot w.obj w.off else .ok s) with
    | .error a => .error (keepDone s (placeAt st i a))
    | .ok t =>
      match performStore t c slot i { st with writes := [w] } with
      | .error a => .error (keepDone s a)
      | .ok t => releaseOps c slot i j st (setGroup t c slot (setStore (getGroup t c slot) i j (fun x => { x with done := x.done + 1 }))) ws

/-- Perform one held store of a region, a reduction as logged operations. -/
def releaseStore (s : State) (c slot i j : Nat) (st : StoreOp) : Res State :=
  if isReduction st then releaseOps c slot i j st s (st.writes.drop st.done)
  else match performStore s c slot i st with
    | .error a => .error (keepDone s a)
    | .ok s => .ok s

/-- Perform the stores of region `i` that are still held, from place `j` on, in program order; `fuel` bounds their number. -/
def releaseFrom (c slot i : Nat) : Nat → Nat → State → Res State
  | 0, _, s => .ok s
  | fuel + 1, j, s =>
    match (nthRegion (getGroup s c slot) i).stores[j]? with
    | none => .ok s
    | some st =>
      if st.drained then releaseFrom c slot i fuel (j + 1) s
      else
        match releaseStore s c slot i j st with
        | .error e => .error e
        | .ok s => releaseFrom c slot i fuel (j + 1) (setGroup s c slot (markDrained (getGroup s c slot) i j))

/-- Translate every store of region `i` that is still held. -/
def translateRegion (s : State) (c slot i : Nat) : Res State :=
  foldRes (fun s (st : StoreOp) =>
    if st.drained then .ok s
    else match translateWrites s c st.writes with
      | .error a => .error (placeAt st i a)
      | .ok s => .ok s) s (nthRegion (getGroup s c slot) i).stores

/-- Perform every held store of region `i`, after all of them have translated (R38). -/
def releaseRegion (s : State) (c slot i : Nat) : Res State :=
  match translateRegion s c slot i with
  | .error e => .error e
  | .ok s => releaseFrom c slot i (nthRegion (getGroup s c slot) i).stores.length 0 s

/-! ### The store hash (R378) -/

def mixHash (x : BitVec 64) : BitVec 64 :=
  let x := x ^^^ (x >>> 33)
  let x := x * 0xFF51AFD7ED558CCD#64
  let x := x ^^^ (x >>> 33)
  let x := x * 0xC4CEB9FE1A85EC53#64
  x ^^^ (x >>> 33)

/-- Absorb data eight bytes at a time, zero-padded. -/
def absorbBytes : Nat → BitVec 64 → List Byte → BitVec 64
  | 0, h, _ => h
  | fuel + 1, h, bs =>
    if bs.isEmpty then h else absorbBytes fuel (mixHash (h ^^^ BitVec.ofNat 64 (leNat (bs.take 8)))) (bs.drop 8)

/-- Absorb one write. -/
def absorbWrite (h : BitVec 64) (w : Write) : BitVec 64 :=
  let h := mixHash (h ^^^ BitVec.ofNat 64 (w.obj * 2 ^ 32) ^^^ BitVec.ofNat 64 (w.off % 2 ^ 32))
  let h := mixHash (h ^^^ BitVec.ofNat 64 (w.off / 2 ^ 32 % 2 ^ 12 * 2 ^ 48) ^^^ BitVec.ofNat 64 (w.width * 2 ^ 40)
    ^^^ BitVec.ofNat 64 (w.kind * 2 ^ 32))
  absorbBytes (w.bytes.length + 1) h w.bytes

/-- The hash after a region's writes, in program order. -/
def regionHash (h : BitVec 64) (r : Region) : BitVec 64 :=
  r.stores.foldl (fun h st => st.writes.foldl absorbWrite h) h

end Sys2Proof.Machine
end

