-- ==== Sys2Proof/Machine/Effects.lean ====
section
/-!
DEFINITION. The effects of a region that may fault or wait when they perform, qput's append (spec/18 R394) and the hand-back of a
claim (spec/15 R337), with the coverage map (spec/15 R328, R329) and the pieces of a save area; and the end of a region, with what
a boundary instruction does before it performs (spec/05 R117, R122, spec/06 R149, R151).
-/

namespace Sys2Proof.Machine

/-! ### Save areas: pieces of bytes by offset -/

/-- A piece of a save area: offset, bytes, and whether the quantum is a tagged capability (R17). -/
structure Piece where
  off   : Nat
  bytes : List Byte
  tag   : Bool
deriving DecidableEq, Repr

def piece (off n v : Nat) : Piece := ⟨off, leBytes n v, false⟩

/-- Pieces moved up by an offset. -/
def shiftPieces (d : Nat) (ps : List Piece) : List Piece := ps.map (fun p => { p with off := p.off + d })

/-- Where an area lies: the object's entry and the offset of its start in the object. -/
structure Area where
  part : Nat
  desc : Desc
  base : Nat
deriving DecidableEq, Repr

/-- Translate every line of an area before anything is written. -/
def checkPieces (a : Area) : State → List Piece → Except MemErr State
  | s, [] => .ok s
  | s, p :: ps => match pretranslate s a.part a.desc (a.base + p.off) with
    | .error e => .error e
    | .ok s => checkPieces a s ps

/-- Write the pieces of an area. -/
def writeArea (a : Area) : State → List Piece → Except MemErr State
  | s, [] => .ok s
  | s, p :: ps => match writeObject s a.part none a.desc (a.base + p.off) p.bytes p.tag with
    | .error e => .error e
    | .ok s => writeArea a s ps

def savePieces (a : Area) (s : State) (ps : List Piece) : Except MemErr State :=
  match checkPieces a s ps with
  | .error e => .error e
  | .ok s => writeArea a s ps

/-- A word of an image of bytes. -/
def imageWord (bs : List Byte) (i : Nat) : Nat := leNat ((bs.drop (4 * i)).take 4)

/-! ### qput at commit (R394) -/

/-- Headers of the PAD packets that fill a gap of a ring: offset and LEN in words; `fuel` bounds their number. -/
def padHeaders : Nat → Nat → Nat → List (Nat × Nat)
  | 0, _, _ => []
  | fuel + 1, at_, gap =>
    if gap = 0 then []
    else
      let n := Nat.min gap (4 * 65532)
      (at_, n / 4) :: padHeaders fuel (at_ + n) (gap - n)

/-- Bytes that a packet takes in a ring (R381). -/
def packetSpace (bytes : Nat) : Nat := Nat.max 16 (roundUp bytes 16)

/-- The quanta of a packet as pieces of the ring, from an object offset. -/
def packetPieces (at_ : Nat) (bs : List Byte) (tags : List Nat) : List Piece :=
  (upTo (bs.length / 16)).map (fun i => ⟨at_ + 16 * i, (bs.drop (16 * i)).take 16, tags.contains i⟩)

/-- Append a packet at the tail of a ring: the status for d, and the state; none while an earlier reservation is unpublished. -/
def appendPacket (s : State) (p : Nat) (e : Desc) (bs : List Byte) (tags : List Nat) : Except MemErr (Option (Nat × State)) :=
  match readHome s p e 0 16 with
  | .error x => .error x
  | .ok (head, s) =>
    let w := fun (i : Nat) => imageWord head i
    let n := w 3 % 32
    if n < 8 || 24 < n then .ok (some (2, s))
    else
      let size := 2 ^ n
      let at_ := w 0 % size
      let space := packetSpace bs.length
      let gap := if size < at_ + space then size - at_ else 0
      if size < (w 0 + 2 ^ 32 - w 2) % 2 ^ 32 + gap + space then .ok (some (1, s))
      else if w 1 ≠ w 0 then .ok none
      else
        let start := if gap = 0 then at_ else 0
        let stop := (w 0 + gap + space) % 2 ^ 32
        let pads := (padHeaders 65 at_ gap).map (fun x => piece (0x40 + x.1) 4 x.2)
        let a : Area := ⟨p, e, 0⟩
        match savePieces a s ([piece 0 4 stop] ++ pads ++ packetPieces (0x40 + start) bs tags ++ [piece 4 4 stop]) with
        | .error x => .error x
        | .ok s => .ok (some (0, s))

/-- A lane of a name is still to be written by the qput at a place of a region: no later write has taken it (R165). -/
def awaits (g : Group) (key serial slots : Nat) : Bool := lookup g.regs.late key (2 ^ 32, 0) == (serial, slots)

/-- Names that a qput has yet to write, without those of one of them. -/
def dropLate (serial slots : Nat) (m : FMap (Nat × Nat)) : FMap (Nat × Nat) := m.filter (fun e => e.2 != (serial, slots))

/-- Write the status register of the qput at a place of a region, in the lanes it had active that no later write has taken; it is
outstanding no more. -/
def writeStatus (s : State) (c slot name lanes serial slots v : Nat) : State :=
  let g := getGroup s c slot
  let h := (upTo 32).foldl (fun h i =>
    if lanes.testBit i && awaits g (32 * name + i) serial slots then writeLane h name i (wordOf v) else h) g
  setGroup s c slot { h with
    regs := { h.regs with late := dropLate serial slots h.regs.late }
    regions := h.regions.map (fun r => { r with snap := { r.snap with late := dropLate serial slots r.snap.late } }) }

/-! ### The coverage map (R328, R329) -/

/-- Grains in dimension `d`. -/
def grainsOf (t : Truss) (d : Nat) : Nat :=
  let gs := t.grains.getD d 1
  if d < t.ndims then (t.extents.getD d 1 + gs - 1) / gs else 1

/-- Index of a grain. -/
def grainIndex (t : Truss) (g : List Nat) : Nat :=
  g.getD 0 0 + grainsOf t 0 * (g.getD 1 0 + grainsOf t 1 * (g.getD 2 0 + grainsOf t 2 * g.getD 3 0))

/-- The grains of a box with their mask bits, ascending. -/
def boxGrains (t : Truss) (origin : List Nat) (e : List Nat) : List (Nat × Nat) :=
  let n := e.getD 0 0 * e.getD 1 0 * e.getD 2 0 * e.getD 3 0
  (upTo n).map (fun l =>
    let l0 := l % e.getD 0 1
    let l1 := l / e.getD 0 1 % e.getD 1 1
    let l2 := l / e.getD 0 1 / e.getD 1 1 % e.getD 2 1
    let l3 := l / e.getD 0 1 / e.getD 1 1 / e.getD 2 1
    (l, grainIndex t [origin.getD 0 0 + l0, origin.getD 1 0 + l1, origin.getD 2 0 + l2, origin.getD 3 0 + l3]))

/-- Coordinates of a grain index. -/
def grainCoords (t : Truss) (g : Nat) : List Nat :=
  [g % grainsOf t 0, g / grainsOf t 0 % grainsOf t 1, g / grainsOf t 0 / grainsOf t 1 % grainsOf t 2,
   g / grainsOf t 0 / grainsOf t 1 / grainsOf t 2]

/-- The 2-bit code of a grain in its word. -/
def grainCode (w g : Nat) : Nat := w / 2 ^ (2 * (g % 16)) % 4

/-- The word with a grain's code replaced. -/
def putCode (w g code : Nat) : Nat := w - grainCode w g * 2 ^ (2 * (g % 16)) + code * 2 ^ (2 * (g % 16))

/-- Offset of a grain's word in the coverage object. -/
def coverOff (t : Truss) (g : Nat) : Nat := t.coverage.base.toNat + 4 * (g / 16)

/-- The coverage object, as an access of `kind` meets it (R328). -/
def coverDesc (s : State) (c : Nat) (t : Truss) (off kind : Nat) : Res (Desc × State) :=
  match liftMem 0 t.coverage.obj.toNat off kind (descOf s c t.coverage.obj.toNat) with
  | .error e => .error e
  | .ok (e, s) =>
    if e.kind ≠ 4 then .error (.trap { cls := 5, code := 2, obj := t.coverage.obj.toNat, off := off, kind := kind }) else .ok (e, s)

/-- Read the word of a grain at its home. -/
def coverRead (s : State) (c : Nat) (t : Truss) (g : Nat) : Res (Nat × State) :=
  let off := coverOff t g
  match coverDesc s c t off 2 with
  | .error e => .error e
  | .ok (e, s) =>
    (liftMem 0 e.id off 2 (readHome s (getCore s c).part e off 4)).map (fun r => (leNat r.1, r.2))

/-- One indivisible update of the word of a grain: its old value. An update of a truss instruction is a logged operation of its group
(R329, R375). -/
def coverUpdate (s : State) (c slot : Nat) (logged : Bool) (t : Truss) (g : Nat) (f : Nat → Nat) : Res (Nat × State) :=
  let off := coverOff t g
  match coverDesc s c t off 2 with
  | .error e => .error e
  | .ok (e, s) =>
    match (if logged then loggedOp s c slot (homeDie e off) (homeSlice e.id off) else .ok s) with
    | .error x => .error x
    | .ok s =>
      (liftMem 0 e.id off 2 (modifyLine s c (getCore s c).part e off 4 (fun bs => leBytes 4 (f (leNat bs))))).map
        (fun r => (leNat r.1, r.2))

/-- The key of `Group.gated` under which a truss instruction keeps the grains that it has changed before it waits at an order gate. -/
def grainKey : Nat := 64

/-- The grains that the truss instruction being issued has changed before it had to wait at an order gate (R377). -/
def heldGrains (s : State) : List Nat :=
  match find? (curGroup s).gated grainKey with
  | some (pc, bs) => if pc = s.cur.pc.toNat then (upTo (bs.length / 4)).map (imageWord bs) else []
  | none => []

/-- Keep grains for the truss instruction being issued, which waits at an order gate. -/
def keepGrains (s : State) (gs : List Nat) : State :=
  let g := curGroup s
  if gs.isEmpty || s.cur.quads.isEmpty then s
  else setCur s { g with gated := insertKey g.gated grainKey (s.cur.pc.toNat, (heldGrains s ++ gs).flatMap (leBytes 4)) }

/-- The truss instruction has changed every grain that it is to change. -/
def dropGrains (s : State) : State :=
  let g := curGroup s
  if g.gated.isEmpty then s else setCur s { g with gated := eraseKey g.gated grainKey }

/-- Set the grains of a list that hold code `from_` to code `to_`, word by word: the grains changed. A wait at an order gate keeps the
words done. -/
def coverMove (s : State) (c slot : Nat) (logged : Bool) (t : Truss) (gs : List Nat) (from_ to_ : Nat) : Res (List Nat × State) :=
  foldRes (fun (acc : List Nat × State) w =>
    let here := gs.filter (fun g => g / 16 == w)
    match coverRead acc.2 c t (16 * w) with
    | .error e => .error e
    | .ok (old, s) =>
      let hit := here.filter (fun g => grainCode old g == from_)
      if hit.isEmpty then .ok (acc.1, s)
      else match coverUpdate s c slot logged t (16 * w) (fun v => hit.foldl (fun v g => putCode v g to_) v) with
        | .error e => .error (keepDone (keepGrains s acc.1) e)
        | .ok (_, s) => .ok (acc.1 ++ hit, s)) ([], s) (gs.map (· / 16)).eraseDups

/-- Grains that a claim holds. -/
def claimGrains (t : Truss) (k : Claim) : List Nat :=
  ((boxGrains t (grainCoords t k.origin) k.extents).filter (fun e => k.mask.testBit e.1)).map (·.2)

/-! ### Hand-back (R337) -/

/-- Hand back slots of a team: their grains go back to free and the slots are revoked. Each update of a coverage word is an
atomic with return at module scope, and acquires (R116, R120, R329); those of a thand are logged operations (R375). -/
def handBack (s : State) (c slot team : Nat) (logged : Bool) (slots : List Nat) : Res State :=
  match (getLaunch s (getTeam s c team).launch).truss with
  | none => .ok s
  | some t =>
    foldRes (fun s h =>
      match find? (getTeam s c team).claims h with
      | none => .ok s
      | some k =>
        if k.revoked then .ok s
        else (coverMove s c slot logged t (claimGrains t k) 1 0).map (fun r =>
          let s := if r.1.isEmpty then r.2 else epochStep r.2 (dieOf c)
          let m := getTeam s c team
          setTeam s c team { m with claims := insertKey m.claims h { k with revoked := true } })) s slots

/-! ### Effects that may fault or wait -/

/-- The effects of a region whose performing may fault or wait: qput's append and a hand-back. -/
def isHard (e : Deferred) : Bool :=
  match e with
  | .qput .. | .thand .. => true
  | _ => false

/-- One such effect takes place; a fault lies at its instruction, in region `i`. -/
def hardEffect (c slot i : Nat) (s : State) (q : Queued) : Res State :=
  let team := (getGroup s c slot).team
  let placed := fun (x : Res State) => x.mapError (placeTrap q.pc q.slots i)
  match q.effect with
  | .qput obj bs tags name lanes =>
    placed (match liftMem 0 obj 0 1 (descOf s c obj) with
      | .error x => .error x
      | .ok (e, s) => match liftMem 0 obj 0 1 (appendPacket s (getCore s c).part e bs tags) with
        | .error x => .error x
        | .ok none => .error (.hold .resource)
        | .ok (some (v, s)) => .ok (writeStatus s c slot name lanes (nthRegion (getGroup s c slot) i).serial.toNat q.slots v))
  | .thand h every => placed (handBack s c slot team true (if every then (getTeam s c team).claims.map (·.1) else [h]))
  | _ => .ok s

/-! ### Ending a region -/

/-- A debug stop lands at the end of the current region, before its commit: a retire limit or a coordinate breakpoint that
the region does not pass (R368). -/
def stopsAtEnd (s : State) (c slot : Nat) : Option Nat :=
  let g := getGroup s c slot
  let r := curRegion g
  let d := (getDie s (dieOf c)).dbg
  if g.stats.limit.isSome then some g.stats.stopCode
  else
    if !debugEnabled s c slot then none
    else
      (upTo 8).findSome? (fun i =>
        let word := fun (w : Nat) => (lookup d.bps (8 * i + w) 0).toNat
        if word 0 % 8 = 2 && word 1 = g.wg.toNat && word 2 = r.serial.toNat && decide (r.slots ≤ word 3) then some 3 else none)

/-- What is due when the current region of a group ends: its commit, or the debug stop that lands before that. -/
def endStep (s : State) (c slot : Nat) : Due :=
  let g := getGroup s c slot
  match stopsAtEnd s c slot with
  | some code => ⟨.debugStop, { core := c, unit := slot, value := code, extra := (curRegion g).slots, obj := g.stats.stopNum, off := 1, flag := true }⟩
  | none => ⟨.regionCommit, { core := c, unit := slot }⟩

/-- End the current region: a new one starts where the quads now stand, and the commit of the ended one is due. -/
def endRegion (s : State) (c slot : Nat) : State :=
  if slot = Config.laneSlot then s
  else
    let g := getGroup s c slot
    let r := curRegion g
    let serial := r.serial + 1
    let g := { g with regions := g.regions.dropLast ++ [{ r with ended := true }], spec := { g.spec with serial := serial } }
    let g := { g with regions := g.regions ++ [startRegion g serial] }
    pushDue (setGroup s c slot g) [endStep s c slot]

/-- The group cannot start a third region yet (R151). -/
def regionsFull (s : State) : Bool := !isLane s && decide (2 ≤ (curGroup s).regions.length)

/-- The outcome of an instruction that ends its region, with the way its quads go on: it waits while an earlier region is
uncommitted, for it performs after that region's commit and its conditions are tested then (R122, R259); else it does its
effect, retires, and ends the region. -/
def finishRegionBy (s : State) (ret : State → State) (r : Res State) : Out :=
  if regionsFull s then .next (holdIssue s .resource)
  else match r with
    | .ok t => .next (endRegion (ret t) s.cur.core s.cur.slot)
    | .error a => finish s (.error a)

/-- The outcome of a boundary instruction, or of region. -/
def finishRegion (s : State) (r : Res State) : Out := finishRegionBy s retire r

/-- Whether an effect of region `i` that may fault would do so now, or find a page that migrates, before anything of the region is
performed; a wait at an order gate, or for a ring, comes with the commit. -/
def checkEffects (s : State) (c slot i : Nat) : Res Unit :=
  match foldRes (hardEffect c slot i) s (nthRegion (getGroup s c slot) i).deferred with
  | .error (.trap t) => .error (.trap t)
  | .error (.lateTrap _ t) => .error (.trap t)
  | .error (.hold (.migrating o a)) => .error (.hold (.migrating o a))
  | .error (.lateHold _ (.migrating o a)) => .error (.hold (.migrating o a))
  | _ => .ok ()

/-- Before a boundary instruction performs, what its own region holds has performed: the held stores and the group's reductions; and
no effect that waits for the commit is to fault then, so that nothing of the region aborts it once the instruction has performed
(R117, R122; entry 70). -/
def releaseOwn (s : State) : Res State :=
  if isLane s then .ok s
  else
    let i := (curGroup s).regions.length - 1
    match checkEffects s s.cur.core s.cur.slot i with
    | .error e => .error e
    | .ok () => releaseRegion s s.cur.core s.cur.slot i

/-- What keeps a boundary instruction from issuing, of all that would stop it: not an order gate, which it meets when it performs. -/
def issueCheck (r : Res State) : Res Unit :=
  match r with
  | .ok _ | .error (.hold (.orderGate ..)) | .error (.lateHold _ (.orderGate ..)) => .ok ()
  | .error a => .error a

/-- The outcome of a boundary instruction, which performs once: what it checks at issue comes first, then what its own region holds
performs, then it does, under the conditions of that moment (R122, R259). -/
def finishReleaseWith (s : State) (ret : State → State) (check : Res Unit) (r : State → Res State) : Out :=
  if regionsFull s then .next (holdIssue s .resource)
  else match check with
  | .error a => finish s (.error a)
  | .ok () => finishRegionBy s ret (match releaseOwn s with | .error a => .error a | .ok t => (r t).mapError (keepDone t))

/-- A boundary instruction all of whose checks come at issue. -/
def finishReleaseBy (s : State) (ret : State → State) (r : State → Res State) : Out :=
  finishReleaseWith s ret (issueCheck (r s)) r

def finishRelease (s : State) (r : State → Res State) : Out := finishReleaseBy s retire r

/-- Retire, and park the issuing quads at the slot after. -/
def retireParked (s : State) (p : Park) : State := holdIssue (retire s) p

/-- An acquire at a scope: at module and system scope the die takes an epoch step (R67, R118). -/
def acquireAt (s : State) (scope : Nat) : State := if 4 ≤ scope then epochStep s (curDie s) else s

end Sys2Proof.Machine
end

