-- ==== Sys2Proof/Machine/Fetch.lean ====
section
/-!
DEFINITION. Which slot issues next and what it is: issue candidates and their order (spec/06 R130, R155, R156), what ends a
park, the fetch of a course through k1 (spec/01 R27, spec/02 R41), its batten word and literals (spec/07 R176, R177), and
what comes before a slot at its boundary: interrupts (spec/11 R255, spec/16 R347) and breakpoints (spec/17 R367, R368).
-/

namespace Sys2Proof.Machine

/-- An issue candidate: core, slot and the quads that issue together. -/
structure Candidate where
  core  : Nat
  slot  : Nat
  quads : List Nat
deriving DecidableEq, Repr

/-- Tokens a stage queue holds. -/
def queueCount (q : StageQueue) : Nat := q.put - q.removed

/-- The stage queue of a team. -/
def getQueue (t : Team) (n : Nat) : StageQueue := lookup t.queues n ⟨0, 0, 0, 0⟩

/-- A group's record is pending with DEST = 0 in one of the classes of a mask (R351). -/
def recordWaits (k : Core) (classes : Nat) : Bool :=
  k.records.any (fun e => e.2.state == .pending && !e.2.dest && classes.testBit e.2.cls)

/-- A record is pending in one of the classes of a mask, whatever its DEST: what the supervisor lane may take (R351). -/
def anyRecord (k : Core) (classes : Nat) : Bool :=
  k.records.any (fun e => e.2.state == .pending && classes.testBit e.2.cls)

/-- The group holds records taken and not posted (R156). -/
def holdsRecords (k : Core) (slot : Nat) : Bool :=
  k.records.any (fun e => match e.2.state with | .taken t _ => t == slot | _ => false)

/-- Member teams of a team's span that are resident: core, team, row and column (R136). -/
def spanMembers (s : State) (c team : Nat) : List (Nat × Nat × Nat × Nat) :=
  let t := getTeam s c team
  s.cores.flatMap (fun e => (e.2.teams.filter (fun x => x.2.launch == t.launch && x.2.tl == t.tl)).map
    (fun x => (e.1, x.1, x.2.spanRow, x.2.spanCol)))

/-- The span leader of a team, where it is resident: core and team (R136). -/
def leaderAt (s : State) (c team : Nat) : Option (Nat × Nat) :=
  let t := getTeam s c team
  ((getCore s t.leader).teams.find? (fun e => e.2.launch == t.launch && e.2.tl == t.tl && e.2.spanRow == 0 && e.2.spanCol == 0)).map
    (fun e => (t.leader, e.1))

/-- Where a team's span barriers are kept: core and team of the span leader (R265). -/
def leaderOf (s : State) (c team : Nat) : Nat × Nat := (leaderAt s c team).getD (c, team)

/-- A member of a group's span team is saved: span members are saved and restored together, so no group of the span issues or
commits until every member is back (R136; entry 61). -/
def spanHeld (s : State) (c slot : Nat) : Bool :=
  let t := getTeam s c (getGroup s c slot).team
  slot != Config.laneSlot && (getLaunch s t.launch).away.any (fun a => a.whole && a.tl == t.tl)

/-- A span barrier of a team. -/
def getSpan (s : State) (c team b : Nat) : SpanBarrier :=
  let l := leaderOf s c team
  lookup (getTeam s l.1 l.2).spans b ⟨0, 0, []⟩

/-- The park has ended: its candidate may issue again. -/
def parkOver (s : State) (c slot : Nat) (p : Park) : Bool :=
  let k := getCore s c
  let g := getGroup s c slot
  let t := getTeam s c g.team
  match p with
  | .none => true
  | .trap _ => false
  | .trapQueue _ => (freeRecord k 0 480).isSome
  | .syscall hs => hs.isEmpty
  | .svtake m => if slot = Config.laneSlot then anyRecord k m else recordWaits k m
  | .wfi =>
    if slot = Config.laneSlot then k.lane.ie && (k.lane.cause &&& k.lane.ien) != 0
    else k.records.any (fun e => e.2.state == .pending)
  | .barrier o ph _ _ =>
    match t.barriers.find? (fun b => b.offset == o) with
    | some b => b.phase != ph
    | none => true
  | .span b ph _ => (leaderAt s c g.team).isSome && decide ((getSpan s c g.team b).phase ≠ ph)
  | .queueEmpty n => decide (0 < queueCount (getQueue t n))
  | .queueFull n => decide (queueCount (getQueue t n) < (getQueue t n).depth)
  | .batch n => batchesDone g.batch n
  | .batches => decide ((g.batch.live.filter (fun b => b.1 != g.batch.opened)).length < 8)
  | .channel n => decide ((getChannel s c n).state = 0)
  | .sequencer => decide (queuedOps s c g.team < 16)
  | .special => decide (k.sfuFree ≤ s.clock)
  | .reed => decide (lookup k.reedFree g.pipe 0 ≤ s.clock)
  | .migrating obj off => !issueParked s c slot obj off
  | .orderGate since z n r =>
    let l := lookup (getSlice s (z / 16) (z % 16)).logs g.launch ⟨0, 0, 0, false⟩
    decide (l.chunks ≠ n) || decide (l.run ≠ r) || decide (since + 2 ^ 20 ≤ s.clock)
  | .shootdown => decide (k.shoot = 0)
  | .resource => decide (g.regions.length < 2)
  | .counter m n => (upTo 8).all (fun i => !m.testBit i || decide (lookup g.regs.dcs i 0 ≤ n))
  | .result t => decide (t ≤ s.clock)
  | .register key => !hasKey g.regs.late key
  | .bank t => decide (t ≤ s.clock)
  | .retry since _ | .saving since _ _ | .restoring since _ _ => decide (since + 64 ≤ s.clock)
  | .noRegister since => decide (since + 64 ≤ s.clock)

/-! ### Courses (R176, R177) -/

/-- The slots of a course that hold instructions, by LMAP. -/
def instrSlots (lmap : Nat) : List Nat :=
  match lmap with | 0 => [0, 1, 2] | 1 => [0, 1] | 2 => [0, 2] | _ => [0]

/-- The slots that hold the literal of an instruction slot. -/
def literalSlots (lmap slot : Nat) : List Nat :=
  match lmap, slot with | 1, 1 => [2] | 2, 0 => [1] | 3, 0 => [1, 2] | _, _ => []

/-- Control field of a slot in the batten word (Table 7-6). -/
def ctlOf (batten : Word) (slot : Nat) : BitVec 10 := batten.extractLsb' (10 * slot) 10

/-- Word `i` of a course. -/
def courseWord (bs : List Byte) (i : Nat) : Word := wordOf (leNat ((bs.drop (4 * i)).take 4))

/-- LMAP of a course. -/
def lmapOf (bs : List Byte) : Nat := fieldNat (courseWord bs 0) 30 2

/-- The PC of the next instruction slot: in the course, else slot 0 of the next course (R184). -/
def nextSlot (lmap : Nat) (pc : Word) : Word :=
  let slot := pc.toNat % 4
  match (instrSlots lmap).find? (fun i => decide (slot < i)) with
  | some i => wordOf (pc.toNat - slot + i)
  | none => wordOf (pc.toNat / 16 * 16 + 16)

/-- A fault of a fetch (R41): KIND fetch, the object of k1, its BASE plus the course's offset. -/
def fetchFault {α : Type} (cls code : Nat) (k1 : Cap) (coff : Nat) : Res α :=
  .error (.trap { cls := cls, code := code, obj := k1.obj.toNat, off := (k1.base.toNat + coff) % 2 ^ 44, kind := 3 })

/-- A fetch that memory refuses. -/
def fetchError {α : Type} (x : MemErr) (k1 : Cap) (coff : Nat) : Res α :=
  match x with
  | .cap n => fetchFault 5 n k1 coff
  | .page n => fetchFault 7 n k1 coff
  | .poison n => fetchFault 1 n k1 coff
  | .migrating o a => .error (.hold (.migrating o a))

/-- A line enters a core's instruction cache of 64 KiB, 512 lines, least recently used first (R1; entry 8). -/
def fillIcache (k : Core) (key : Nat) (bs : List Byte) : Core :=
  let l := k.icache.filter (fun e => e.1 != key)
  { k with icache := (if l.length ≥ 512 then l.drop 1 else l) ++ [(key, bs)] }

/-- Code that the supervisor lane may fetch: a line that is pinned at its home (R158; entry 30). -/
def laneCode (s : State) (p : Nat) (e : Desc) (off : Nat) : Bool :=
  (getSlice s (homeDie e off) (homeSlice e.id off)).lines.any (fun l =>
    l.part == p && l.obj == e.id && l.index == off / 128 && !l.guest && l.pinned)

/-- The course at a code offset, through the instruction cache, which is no sharer of the line and holds no pool line of another die
(R27, R41, R44, R65). -/
def fetchCourse (s : State) (c slot : Nat) (coff : Nat) : Res (List Byte × State) :=
  let k1 := readCap (getGroup s c slot) 1
  let off := k1.base.toNat + coff
  let sup := slot == Config.laneSlot || (getGroup s c slot).super
  if !k1.tag then fetchFault 5 0x01 k1 coff
  else if k1.rights.getLsbD 7 && !sup then fetchFault 5 0x03 k1 coff
  else if k1.rights.toNat &&& 0x05 ≠ 0x05 then fetchFault 5 0x02 k1 coff
  else if capLen k1 < coff + 16 then fetchFault 5 0x04 k1 coff
  else
    match descOf s c k1.obj.toNat with
    | .error x => fetchError x k1 coff
    | .ok (e, s) =>
      if e.kind ≠ 1 || !e.xe then fetchFault 5 0x0A k1 coff
      else if e.length ≤ off then fetchFault 5 0x0B k1 coff
      else
        let key := k1.obj.toNat * 2 ^ 37 + off / 128
        let k := getCore s c
        if slot == Config.laneSlot && !laneCode s k.part e off then fetchFault 5 0x0A k1 coff
        else match find? k.icache key with
        | some bs => .ok ((bs.drop (off % 128)).take 16, setCore s c (fillIcache k key bs))
        | none =>
          match sliceLine s (dieOf c) k.part e off with
          | .error x => fetchError x k1 coff
          | .ok (l, s) =>
            let kept := !l.pool || homeDie e off == dieOf c
            .ok (((lineBytes l).drop (off % 128)).take 16,
              if kept then setCore s c (fillIcache (getCore s c) key (lineBytes l)) else s)

/-- The slot at a PC carries the address-stream marker (R153). -/
def markedAt (s : State) (c slot : Nat) (pc : Word) : Bool :=
  match fetchCourse s c slot (pc.toNat / 16 * 16) with
  | .ok (bs, _) => (ctlOf (courseWord bs 0) (pc.toNat % 4)).getLsbD 5
  | .error _ => false

/-! ### Candidates (R130, R155, R156) -/

/-- The stall count of the stream that a quad's next slot belongs to has expired (R153, R180). -/
def stallOver (s : State) (c slot : Nat) (x : Quad) : Bool :=
  let compute := decide (x.stallUntil ≤ s.clock)
  let address := decide (x.stallAddr ≤ s.clock)
  if compute == address then compute else if markedAt s c slot x.pc then address else compute

/-- The group waits in svtake, in wfi or for its shoot-down, with every quad (R351, R361, R362). -/
def asleep (s : State) (c slot : Nat) : Bool :=
  (getGroup s c slot).quads.any (fun q => match q.2.park with
    | .svtake _ | .wfi | .shootdown => !parkOver s c slot q.2.park
    | _ => false)

/-- An operation of the group waits at an order gate (R377). -/
def atGate (g : Group) : Bool := g.quads.any (fun q => match q.2.park with | .orderGate .. => true | _ => false)

/-- A gsave on the core waits to save the group: it does not issue meanwhile (R356), but for an operation that an order gate holds, whose
turn the save awaits (R430). -/
def underSave (s : State) (c slot : Nat) : Bool :=
  !atGate (getGroup s c slot) && (getCore s c).groups.any (fun e => e.2.quads.any (fun q => match q.2.park with
    | .saving _ _ slots => slots.contains slot
    | _ => false))

/-- A quad can issue: not exited, not at a regang, stall count expired, park ended (R156, R180). -/
def quadReady (s : State) (c slot q : Nat) : Bool :=
  let g := getGroup s c slot
  let x := getQuad g q
  !(g.stats.stopped && g.stats.limit.isNone) && !asleep s c slot && !x.exited && !x.waiting && !spanHeld s c slot && stallOver s c slot x
    && parkOver s c slot x.park && !underSave s c slot

/-- The candidates of one group: the gang, then each parted quad (R130). -/
def groupCandidates (c slot : Nat) (g : Group) : List Candidate :=
  let parted := (g.quads.filter (fun e => !e.2.member && !e.2.exited)).map (fun e => (⟨c, slot, [e.1]⟩ : Candidate))
  if (gangOf g).isEmpty then parted else ⟨c, slot, gangOf g⟩ :: parted

/-- Last issue of a candidate. -/
def lastIssueOf (s : State) (x : Candidate) : Nat := (getQuad (getGroup s x.core x.slot) (x.quads.headD 0)).lastIssue

/-- Issue class: 0 handler, 1 kernel, 2 user-reserved, 3 user-credit (R156). -/
def issueClass (s : State) (x : Candidate) : Nat :=
  let g := getGroup s x.core x.slot
  if g.super then (if holdsRecords (getCore s x.core) x.slot then 0 else 1) else if g.credit then 3 else 2

/-- A candidate that has not issued for 1,024 clocks is aged (R156). -/
def isAged (s : State) (x : Candidate) : Bool :=
  (x.quads.any (fun q => (getQuad (getGroup s x.core x.slot) q).aged)) || decide (lastIssueOf s x + 1024 ≤ s.clock)

/-- The role's output queue is nearly empty: such candidates go first (R139, R143). -/
def feedsEmpty (s : State) (x : Candidate) : Bool :=
  let g := getGroup s x.core x.slot
  let t := getTeam s x.core g.team
  match (find? (getLaunch s g.launch).roles g.role).bind (·.outq) with
  | some n => decide (queueCount (getQueue t n) ≤ (getQueue t n).depth / 4)
  | none => false

/-- Ready but for a yield. -/
def readyBase (s : State) (x : Candidate) : Bool := x.quads.all (quadReady s x.core x.slot)

/-- A yield holds the candidate until every other ready candidate of its pipe and class has issued, or 64 clocks pass (R252). -/
def yieldHolds (s : State) (all : List Candidate) (x : Candidate) : Bool :=
  let q := getQuad (getGroup s x.core x.slot) (x.quads.headD 0)
  decide (s.clock < q.yieldUntil) &&
    all.any (fun y => y != x && readyBase s y && issueClass s y == issueClass s x && decide (lastIssueOf s y + 64 ≤ q.yieldUntil))

/-- The order of ready candidates within a pipe: class, aged first, nearly empty output first, oldest issue, lower slot,
lower quad (R143, R156). -/
def candidateBefore (s : State) (x y : Candidate) : Bool :=
  let key := fun (z : Candidate) =>
    [issueClass s z, (if isAged s z then 0 else 1), (if feedsEmpty s z then 0 else 1), lastIssueOf s z, z.slot, z.quads.headD 0]
  decide (key x < key y)

/-- The least element of a list under an order. -/
def leastBy {α : Type} (before : α → α → Bool) : List α → Option α
  | [] => none
  | x :: xs => match leastBy before xs with
    | none => some x
    | some y => if before y x then some y else some x

/-- Insert into a sorted list, before the first element that is not below it. -/
def insertBy {α : Type} (le : α → α → Bool) (x : α) : List α → List α
  | [] => [x]
  | y :: ys => if le x y then x :: y :: ys else y :: insertBy le x ys

/-- A list in an order. -/
def sortBy {α : Type} (le : α → α → Bool) (l : List α) : List α := l.foldr (insertBy le) []

/-! ### The slot of a candidate (R176, R177, R184) -/

/-- The supervisor lane takes an interrupt at its next slot boundary (R347). -/
def laneInterrupted (k : Core) : Bool := k.lane.ie && (k.lane.cause &&& k.lane.ien) != 0

/-- The trap code of a word the decoder refuses (Table 7-11). -/
def decodeCode (e : DecodeError) : Nat :=
  match e with
  | .opcodeZero => 0x10
  | .neverAssigned => 0x01
  | .unassigned => 0x01
  | .reservedFn => 0x02
  | .illegalEncoding => 0x10
  | .reservedScope => 0x05

/-- The issue latch of a slot of a course. -/
def latchOf (x : Candidate) (pc : Word) (bs : List Byte) : Issue :=
  let lmap := lmapOf bs
  let slot := pc.toNat % 4
  let lits := literalSlots lmap slot
  let batten := courseWord bs 0
  { core := x.core, slot := x.slot, quads := x.quads, pc := pc, nextPc := nextSlot lmap pc, ctl := ctlOf batten slot,
    litCtl := lits.any (fun i => ctlOf batten i != 0), lmap := lmap,
    literal := match lits with
      | [i] => some (courseWord bs (i + 1)).toNat
      | [i, j] => some ((courseWord bs (i + 1)).toNat + (courseWord bs (j + 1)).toNat * 2 ^ 32)
      | _ => none }

/-- The PC at which a candidate stands. -/
def candidatePc (s : State) (x : Candidate) : Word := (getQuad (getGroup s x.core x.slot) (x.quads.headD 0)).pc

/-- The state in which a candidate is about to issue: the issue latch names it before its word is known. -/
def preLatch (s : State) (x : Candidate) : State :=
  { s with cur := { Issue.none with core := x.core, slot := x.slot, quads := x.quads, pc := candidatePc s x, nextPc := candidatePc s x } }

/-- The code of a reserved scope in a word with another bad field: a row of Table 7-11 that stands before the scope's, on the
slot's literal, marker or last-read bits, is reported first (R184). -/
def scopeCode (w : Word) (i : Issue) : Nat :=
  let fence := (w.extractLsb' 24 8).toNat == 0x7D
  if i.litCtl || i.literal.isSome || i.ctl.getLsbD 5 || i.ctl.getLsbD 4
      || (i.ctl.getLsbD 3 && (fence || isStream (w.extractLsb' 7 7))) then 0x10 else 0x05

/-- The slot of a candidate at a PC: its instruction, with the latch filled; a trap where it cannot be fetched or decoded (R176, R184). -/
def fetchAt (s : State) (x : Candidate) (pc : Word) : Res (Instr × State) :=
  match fetchCourse s x.core x.slot (pc.toNat / 16 * 16) with
  | .error e => .error e
  | .ok (bs, s) =>
    if !(instrSlots (lmapOf bs)).contains (pc.toNat % 4) then illegal 0x10
    else
      match decode (courseWord bs (pc.toNat % 4 + 1)) with
      | .error .reservedScope => illegal (scopeCode (courseWord bs (pc.toNat % 4 + 1)) (latchOf x pc bs))
      | .error e => illegal (decodeCode e)
      | .ok i => .ok (i, { s with cur := latchOf x pc bs })

/-- Fetch and decode the slot of a candidate: the instruction and the state with the issue latch set. -/
def fetchInstr (s : State) (x : Candidate) : Res (Instr × State) := fetchAt s x (candidatePc s x)

/-! ### Slot boundaries -/

/-- A pending user interrupt can be delivered to the group (R255). -/
def canDeliver (s : State) (c slot : Nat) : Bool :=
  let g := getGroup s c slot
  g.resident && g.user.payload.isSome && !g.user.inHandler && !g.stats.stopped && !isParted g && decide (g.regions.length < 2)
    && g.quads.any (fun q => !q.2.exited)
    && g.quads.all (fun q => q.2.exited || (!q.2.waiting && (match q.2.park with
      | .syscall _ => false | .trap _ => false | .trapQueue _ => false | _ => true)))
    && g.ahead.slots.isEmpty && g.regs.pend.all (fun e => decide (e.readyAt ≤ s.clock)) && g.regs.kpend.all (fun e => decide (e.readyAt ≤ s.clock))

/-- The first breakpoint entry that stops the candidate before its slot: its stop code (R367, R368). -/
def breakpointAt (s : State) (x : Candidate) : Option Nat :=
  let g := getGroup s x.core x.slot
  let d := (getDie s (dieOf x.core)).dbg
  let r := curRegion g
  if !debugEnabled s x.core x.slot || g.stats.skipBreak then none
  else
    ((upTo 8).findSome? (fun i =>
      if bpWord d i 0 % 8 = 1 && decide (bpWord d i 1 = (readCap g 1).obj.toNat) && decide (bpWord d i 2 = (candidatePc s x).toNat)
      then some 0x02
      else if bpWord d i 0 % 8 = 2 && decide (bpWord d i 1 = g.wg.toNat) && decide (bpWord d i 2 = r.serial.toNat)
        && decide (bpWord d i 3 = r.slots) then some 0x03
      else none))

/-- The group's trap waits for a free record (R346). -/
def waitsRecord (g : Group) : Bool := g.quads.any (fun q => match q.2.park with | .trapQueue _ => true | _ => false)

/-- A breakpoint or an interrupt at the candidate's slot boundary: the stop lands first (R380). -/
def boundaryStop (s : State) (x : Candidate) : Option Due :=
  match breakpointAt s x with
  | some code => some ⟨.debugStop, { core := x.core, unit := x.slot, value := code, extra := (curRegion (getGroup s x.core x.slot)).slots }⟩
  | none => if canDeliver s x.core x.slot then some ⟨.userInterruptDelivery, { core := x.core, unit := x.slot }⟩ else none

/-- What happens at the candidate's slot boundary in place of its slot, if anything. A group that executes again up to a stop it has
met goes there straight; one that runs to a limit of CMD 0x2 meets its breakpoints and interrupts as any (R367). -/
def boundaryEvent (s : State) (x : Candidate) : Option Due :=
  let g := getGroup s x.core x.slot
  let k := getCore s x.core
  if x.slot = Config.laneSlot then
    if laneInterrupted k then some ⟨.slInterruptTake, { core := x.core }⟩ else none
  else if waitsRecord g then some ⟨.trapTake, { core := x.core, unit := x.slot }⟩
  else
    match g.stats.limit with
    | some n =>
      if decide (n ≤ (curRegion g).slots) then
        some ⟨.debugStop, { core := x.core, unit := x.slot, value := g.stats.stopCode, extra := n, obj := g.stats.stopNum, flag := true }⟩
      else if catchingUp g then none else boundaryStop s x
    | none => boundaryStop s x

/-- A quad of the group is parked. -/
def isParked (g : Group) : Bool := g.quads.any (fun q => q.2.park != .none)

/-- A parked group that an interrupt takes out of its park, before any slot issues (R255). -/
def parkedDelivery (s : State) : Option Due :=
  s.cores.findSome? (fun e => e.2.groups.findSome? (fun g =>
    if g.1 != Config.laneSlot && g.2.user.payload.isSome && isParked g.2 && e.2.running && e.2.stopped.isNone && canDeliver s e.1 g.1
    then some ⟨.userInterruptDelivery, { core := e.1, unit := g.1 }⟩ else none))

end Sys2Proof.Machine
end

