-- ==== Sys2Proof/Machine/Control.lean ====
section
/-!
DEFINITION. Control instructions (spec/11 R246 to R255): branches and reconvergence, calls, the gang, exit, yield, region,
trigger, and the user-interrupt instructions.
-/

namespace Sys2Proof.Machine

/-! ### Targets -/

/-- Target of a B-format branch: the course at the holding course's offset + 16 × offset, at the slot (R246). -/
def branchTarget (pc : Word) (o : BitVec 19) (sl : BitVec 2) : Word :=
  (pc &&& 0xFFFFFFF0) + (o.signExtend 32 <<< 4) + sl.zeroExtend 32

/-- The slots that the course of a code offset has for instructions; none where the course cannot be fetched. -/
def targetSlots (s : State) (pc : Word) : Option (List Nat) :=
  match fetchCourse s s.cur.core s.cur.slot (pc.toNat / 16 * 16) with
  | .ok (bs, _) => some (instrSlots (lmapOf bs))
  | .error _ => none

/-- A target slot that is 3 or that LMAP makes a literal is malformed, at the branch (Table 7-11). -/
def targetBad (s : State) (pc : Word) : Bool :=
  pc.toNat % 4 == 3 || (match targetSlots s pc with | some l => !l.contains (pc.toNat % 4) | none => false)

/-- The checks of R248 on a PC held in a register. -/
def pcBad (s : State) (w : Word) : Bool := w.toNat / 4 % 4 != 0 || targetBad s w

/-! ### Reconvergence (R129, R131, R246, R247) -/

/-- Pop the stack at a join; `next` is the slot after it. Entries whose lanes have all exited are passed over. -/
def joinQuad (next : Word) (q : Quad) : List StackEntry → Quad
  | [] => { q with stack := [], pc := next }
  | e :: r =>
    if e.mask = 0 then joinQuad next q r
    else if e.pending then { q with stack := r, mask := e.mask, pc := e.pc }
    else { q with stack := r, mask := e.mask, pc := next }

/-- The active lanes of a quad as a mask of four. -/
def quadActive (s : State) (q : Nat) : BitVec 4 := (activeMask s).extractLsb' (4 * q) 4

/-- The guard is p0 or (!p0): a branch under it pushes nothing (R246). -/
def plainGuard (s : State) : Bool := ctlGpred s == 0

/-- Entries that a divergent-form branch pushes on a quad's stack, its mask and its PC. -/
def divergeQuad (q : Quad) (t : BitVec 4) (unlikely : Bool) (target next : Word) : Quad :=
  let f := q.mask &&& ~~~t
  let stack := ⟨false, 0, q.mask⟩ :: q.stack
  if t != 0 && f != 0 then
    if unlikely then { q with stack := ⟨true, target, t⟩ :: stack, mask := f, pc := next }
    else { q with stack := ⟨true, next, f⟩ :: stack, mask := t, pc := target }
  else { q with stack := stack, pc := if t != 0 then target else next }

/-- A branch of one quad, given its target. -/
def branchQuad (s : State) (h : BitVec 2) (q : Nat) (target : Word) : Quad :=
  let x := getQuad (curGroup s) q
  let t := quadActive s q
  if plainGuard s || h == 3 then { x with pc := if t != 0 then target else s.cur.nextPc }
  else divergeQuad x t (h == 2) target s.cur.nextPc

/-- The quad issues no slot of either stream before a clock. -/
def holdQuad (t : Nat) (q : Quad) : Quad := { q with stallUntil := Nat.max q.stallUntil t, stallAddr := Nat.max q.stallAddr t }

/-- Put quads in place and retire a control slot; a quad that left the fall-through path waits 2 clocks (R249). -/
def goFlow (s : State) (qs : FMap Quad) : State :=
  let t := setCur s (qs.foldl (fun g e => setQuad g e.1 e.2) (curGroup s))
  let t := retireFlow t (qs.map (fun e => (e.1, e.2.pc)))
  let g := curGroup t
  setCur t { g with quads := g.quads.map (fun e =>
    if s.cur.quads.contains e.1 && e.2.pc != s.cur.nextPc then
      (e.1, holdQuad (s.clock + 2) e.2) else e) }

/-- Outcome of a control slot that puts its quads somewhere. -/
def finishFlow (s : State) (r : Res (State × FMap Quad)) : Out :=
  match r with
  | .ok (t, qs) => .next (goFlow t qs)
  | .error e => finish s (.error e)

/-- Some active lanes disagree where the group-uniform hint is given: of the lanes enabled at the branch, some take it and
some do not (R131). -/
def guardSplit (s : State) : Bool := activeMask s != 0 && activeMask s != quadMask s

/-- Place every issuing quad; a stack that would pass 16 entries traps (R129). -/
def branchAll (s : State) (h : BitVec 2) (target : Nat → Word) : Res (State × FMap Quad) :=
  let qs := s.cur.quads.map (fun q => (q, branchQuad s h q (target q)))
  if qs.any (fun e => decide (16 < e.2.stack.length)) then trapNow 4 0x03 else .ok (s, qs)

def execBr (h : BitVec 2) (o : BitVec 19) (sl : BitVec 2) (s : State) : Out :=
  let target := branchTarget s.cur.pc o sl
  finishFlow s (match checkSlot s { encBad := targetBad s target } with
    | .error e => .error e
    | .ok () =>
      match checkWait s [] with
      | .error e => .error e
      | .ok () => after (checkUnder s [] []) <| if h == 3 && guardSplit s then trapNow 4 0x02 else branchAll s h (fun _ => target))

/-- The values of lane register a in the active lanes of a quad. -/
def quadValues (s : State) (v : Lanes) (q : Nat) : List Word :=
  ((activeLanes s).filter (fun i => i / 4 == q)).map (laneVal v)

/-- Whether all words of a list are equal. -/
def allSame (l : List Word) : Bool := l.all (fun w => w == l.headD 0)

def execBrx (h : BitVec 2) (a : BitVec 7) (s : State) : Out :=
  finishFlow s (match readSources s { srcA := some a } [.reg a 0] with
    | .error e => .error e
    | .ok (vals, t) => after (checkUnder s [.reg a 0] []) <|
      let v := vals.getD 0 []
      let all := (activeLanes s).map (laneVal v)
      if all.any (pcBad s) then illegal 0x10
      else if s.cur.quads.any (fun q => !allSame (quadValues s v q)) then trapNow 4 0x02
      else if h == 3 && (guardSplit s || !allSame all) then trapNow 4 0x02
      else
        match branchAll s h (fun q => (quadValues s v q).headD 0) with
        | .error e => .error e
        | .ok (_, qs) => .ok (applyLast t { srcA := some a } 1 0 [], qs))

/-- Every issuing quad goes to one PC. -/
def gotoAll (s : State) (pc : Word) : FMap Quad := s.cur.quads.map (fun q => (q, { getQuad (curGroup s) q with pc := pc }))

def execCall (o : BitVec 19) (sl : BitVec 2) (s : State) : Out :=
  let target := branchTarget s.cur.pc o sl
  finishFlow s (match checkSlot s { p0 := true, encBad := targetBad s target } with
    | .error e => .error e
    | .ok () => .ok (writeUnif s 31 0 s.cur.nextPc, gotoAll s target))

def execRet (s : State) : Out :=
  finishFlow s (match checkSlot s { p0 := true } with
    | .error e => .error e
    | .ok () =>
      match checkWait s [.unif 31] with
      | .error e => .error e
      | .ok () => after (checkUnder s [.unif 31] []) <|
        let pc := readUnif (curGroup s) s.clock 31
        if pcBad s pc then illegal 0x10 else .ok (s, gotoAll s pc))

def execJoin (s : State) : Out :=
  finishFlow s (match checkSlot s { p0 := true } with
    | .error e => .error e
    | .ok () => .ok (s, s.cur.quads.map (fun q =>
        let x := getQuad (curGroup s) q
        (q, joinQuad s.cur.nextPc x x.stack))))

/-! ### The gang (R132, R250) -/

/-- Every quad that has not exited waits at a regang. -/
def allWaiting (g : Group) : Bool := g.quads.all (fun e => e.2.exited || e.2.waiting)

/-- PCs of the waiting quads, ascending by quad. -/
def waitingPcs (g : Group) : List Word := (g.quads.filter (fun e => !e.2.exited && e.2.waiting)).map (fun e => e.2.pc)

/-- Form the gang: every waiting quad becomes a member and goes on at `next`. -/
def formGang (g : Group) (next : Word) (clock : Nat) : Group :=
  { g with quads := g.quads.map (fun e =>
      if e.2.exited then e
      else (e.1, holdQuad (clock + 1) { e.2 with member := true, waiting := false, pc := next })) }

/-- The slot after a regang of another quad. -/
def slotAfter (s : State) (pc : Word) : Word :=
  match fetchCourse s s.cur.core s.cur.slot (pc.toNat / 16 * 16) with
  | .ok (bs, _) => nextSlot (lmapOf bs) pc
  | .error _ => pc + 1

def execRegang (s : State) : Out :=
  match checkSlot s { p0 := true } with
  | .error e => finish s (.error e)
  | .ok () =>
    let g := curGroup s
    if !isParted g && !(g.quads.any (fun e => e.2.waiting)) then finish s (.ok s)
    else
      let g := s.cur.quads.foldl (fun g q => setQuad g q
        { advanceQuad s.clock (ctlStall s) (ctlAstr s) s.cur.pc (getQuad g q) with waiting := true }) g
      if allWaiting g then
        if (waitingPcs g).all (fun pc => pc == s.cur.pc) then .next (setCur s (countSlot (formGang g s.cur.nextPc s.clock)))
        else finish s (trapNow 4 0x04)
      else .next (setCur s (countSlot g))

/-! ### Exit (R251) -/

/-- A quad after some of its lanes exit; `next` is where the lanes that stay go on. -/
def exitQuad (t : BitVec 4) (next : Word) (q : Quad) : Quad :=
  let stack := q.stack.map (fun e => { e with mask := e.mask &&& ~~~t })
  let mask := q.mask &&& ~~~t
  let x := if mask = 0 then joinQuad next { q with mask := 0 } stack else { q with mask := mask, stack := stack, pc := next }
  if x.mask = 0 then { x with exited := true, member := false } else x

/-- The waiting quads stand at regang instructions with different PCs (R132). -/
def gangMismatch (g : Group) : Bool :=
  match waitingPcs g with
  | [] => false
  | pc :: rest => rest.any (fun p => p != pc)

/-- The exit of the last quad that others wait for leaves them at different regang instructions: the exit stands, for its region
ends with it, and the lowest-numbered waiting quad raises the trap at its regang, which it has not performed (R132; entry 57). -/
def exitMismatch (s : State) : State :=
  let g := curGroup s
  match (g.quads.filter (fun e => !e.2.exited && e.2.waiting)).map (·.1) with
  | [] => s
  | q :: _ =>
    let pc := (getQuad g q).pc
    let s := endRegion (setCur s (setQuad g q { getQuad g q with waiting := false })) s.cur.core s.cur.slot
    let last := (curGroup s).regions.length - 1
    takeGroupTrap s s.cur.core s.cur.slot last (groupOrigin s s.cur.core s.cur.slot last pc 0) { cls := 4, code := 0x04, lane := 4 * q }

/-- What an exit completes: the end of the group's last region, or a regang of the quads that remain. -/
def afterExit (s : State) : State :=
  let g := curGroup s
  if g.quads.all (fun e => e.2.exited) then
    pushDue (setCur s (setCurRegion g { curRegion g with ended := true })) [endStep s s.cur.core s.cur.slot]
  else if allWaiting g then
    match waitingPcs g with
    | [] => s
    | pc :: _ => if gangMismatch g then exitMismatch s else setCur s (formGang g (slotAfter s pc) s.clock)
  else s

def execExit (s : State) : Out :=
  match checkSlot s {} with
  | .error e => finish s (.error e)
  | .ok () =>
    match checkReady s [] [] with
    | .error e => finish s (.error e)
    | .ok () =>
      let qs := s.cur.quads.map (fun q => (q, exitQuad (quadActive s q) s.cur.nextPc (getQuad (curGroup s) q)))
      let t := goFlow s qs
      if allWaiting (curGroup t) && gangMismatch (curGroup t) && regionsFull s then .next (holdIssue s .resource)
      else .next (afterExit t)

/-! ### yield, region, trigger (R252) -/

def execYield (s : State) : Out :=
  match checkSlot s { p0 := true } with
  | .error e => finish s (.error e)
  | .ok () =>
    let t := retire s
    let g := curGroup t
    .next (setCur t (s.cur.quads.foldl (fun g q => setQuad g q { getQuad g q with yieldUntil := s.clock + 64 }) g))

def execRegion (s : State) : Out := finishRegion s (match checkSlot s { p0 := true } with | .error e => .error e | .ok () => .ok s)

/-- Queue an effect for the region's commit, counted on a dependence counter; in the supervisor lane, which has no region, it is
due at once. -/
def deferNowOn (s : State) (ctr : Nat) (e : Deferred) : State :=
  let t := deferOn s ctr e
  if isLane s then pushDue t [⟨.regionCommit, { core := s.cur.core, unit := s.cur.slot }⟩] else t

/-- Queue an effect for the region's commit; in the supervisor lane, which has no region, it is due at once. -/
def deferNow (s : State) (e : Deferred) : State :=
  deferNowOn s 0 e

def execTrigger (s : State) : Out :=
  finish s (match checkSlot s {} with
    | .error e => .error e
    | .ok () =>
      match checkWait s [] with
      | .error e => .error e
      | .ok () => after (checkUnder s [] []) <| .ok (if (activeLanes s).isEmpty then s else deferNow s .trigger))

/-! ### User interrupts (R253 to R255) -/

/-- The value of source b for a group: the literal, or a uniform register. -/
def unifOrLit (s : State) (b : BitVec 5) : Word :=
  match s.cur.literal with
  | some v => wordOf v
  | none => readUnif (curGroup s) s.clock b.toNat

/-- The source of a U-format b field. -/
def unifSrc (s : State) (b : BitVec 5) : Src :=
  match s.cur.literal with
  | some v => .lit (wordOf v)
  | none => .unif b.toNat

/-- The group that a usig names can take an interrupt from the issuing group (R254). -/
def canSignal (s : State) (n : Nat) : Bool :=
  let g := getGroup s s.cur.core n
  !isLane s && g.resident && g.team == (curGroup s).team && g.quads.any (fun e => !e.2.exited)
    && g.user.handler != 0xFFFFFFFF && g.user.payload.isNone

def execUsig (d a b : BitVec 5) (s : State) : Out :=
  finishRelease s (fun s =>
    match checkSlot s { lit := 32, bUsed := b != 0 } with
    | .error e => .error e
    | .ok () =>
      match checkWait s [.unif a.toNat, unifSrc s b] with
      | .error e => .error e
      | .ok () => after (checkUnder s [.unif a.toNat, unifSrc s b] []) <|
        let x := readUnif (curGroup s) s.clock a.toNat
        if (activeLanes s).isEmpty then .ok s
        else if 64 ≤ x.toNat then illegal 0x10
        else if canSignal s x.toNat then
          let payload := unifOrLit s b
          let g := getGroup s s.cur.core x.toNat
          .ok (writeUnif (setGroup s s.cur.core x.toNat { g with user := { g.user with payload := some payload } }) d.toNat 0 1)
        else .ok (writeUnif s d.toNat 0 0))

def execUhnd (b : BitVec 7) (s : State) : Out :=
  let o : OpInfo := { lit := 32, p0 := true, srcB := some b, bUsed := b != 0 }
  finish s (match readSources s o [srcB s b 0] with
    | .error e => .error e
    | .ok (vals, t) => after (checkUnder s [srcB s b 0] []) <|
      match firstLane s with
      | none => .ok s
      | some i =>
        let pc := laneVal (vals.getD 0 []) i
        if pc != 0xFFFFFFFF && pcBad s pc then illegal 0x10
        else
          let t := applyLast t o 0 1 []
          let g := curGroup t
          .ok (setCur t { g with user := { g.user with handler := pc } }))

/-- Lanes of a quad that have not exited: those of its mask and of its stack. -/
def liveLanes (q : Quad) : BitVec 4 := q.stack.foldl (fun m e => m ||| e.mask) q.mask

def execUret (s : State) : Out :=
  let g := curGroup s
  let r : Res State := match checkSlot s { p0 := true } with
    | .error e => .error e
    | .ok () =>
      if !g.user.inHandler then illegal 0x06
      else if isParted g then trapNow 4 0x01
      else
        let g := { g with
          quads := g.quads.map (fun e =>
            if e.2.exited then e else (e.1, { e.2 with mask := lookup g.user.masks e.1 0xF &&& liveLanes e.2 }))
          user := { g.user with inHandler := false } }
        .ok (writeUnif (setCur s g) 30 0 g.user.s30)
  finishRegionBy s (fun t => goFlow t (gotoAll t g.user.resume)) r

end Sys2Proof.Machine
end

