-- ==== Sys2Proof/Machine/Memory.lean ====
section
/-!
DEFINITION. Lane memory instructions (spec/12 R267 to R271, R274 to R284), capability instructions (R271 to R273) and
streams (R285 to R287), over the path of spec/01 to spec/03 and the ordering roles of spec/05.
-/

namespace Sys2Proof.Machine

/-! ### Fields shared by the lane memory instructions (R267) -/

/-- A 5-bit register code as an operand field without a pattern. -/
def plainField (c : BitVec 5) : BitVec 7 := c.zeroExtend 7

/-- Bytes of a width code (Table 12-1). -/
def widthBytes (w : BitVec 3) : Nat := 2 ^ w.toNat

/-- Names that a datum of `n` bytes occupies. -/
def widthNames (n : Nat) : Nat := if n = 16 then 4 else if n = 8 then 2 else 1

/-- Static facts of a lane memory instruction with offset register a. -/
def memInfo (a : BitVec 5) (astr : Bool) (encBad : Bool) : OpInfo :=
  { astr := astr, srcA := some (plainField a), encBad := encBad || isStream (plainField a) }

/-- A data register that is a stream register, or a datum past the last name. -/
def dataBad (s : State) (d : BitVec 5) (n : Nat) : Bool :=
  isStream (plainField d) || decide (lastName s < nameOf (curGroup s) (plainField d) + (n - 1))

/-- Sources of `n` names of a data register. -/
def dataSrcs (d : BitVec 5) (n : Nat) : List Src := (upTo n).map (fun k => .reg (plainField d) k)

/-- The offset of a lane. -/
def offOf (vals : List Lanes) (i : Nat) : Nat := (laneVal (vals.getD 0 []) i).toNat

/-- The bytes of a lane's datum: its words, low word first, `n` bytes. -/
def datumOf (vals : List Lanes) (n i : Nat) : List Byte := ((vals.drop 1).flatMap (fun v => leBytes 4 (laneVal v i).toNat)).take n

/-- The data watches that the accesses of the active lanes meet (R368). -/
def checkWatch (s : State) (c : Cap) (vals : List Lanes) (size kind : Nat) : Res Unit :=
  match (activeLanes s).find? (fun i => watchHit s c (offOf vals i) size kind) with
  | some i => .error (watchStop c i (offOf vals i) kind)
  | none => .ok ()

/-- The checks of every active lane, lowest first (R20); a data watch comes before them. -/
def checkLanes (s : State) (c : Cap) (vals : List Lanes) (size need kind : Nat) : Res Unit :=
  match checkWatch s c vals size kind with
  | .error e => .error e
  | .ok () => foldRes (fun _ i => checkAccess s c i (offOf vals i) size need kind true) () (activeLanes s)

/-- Checks of the writing lanes of an instruction, lane by lane: `acc` is R20, then the object's kind (R22; an invalid entry is
0x09), then `more`; the lowest failing lane is reported with its first failing check (R342). -/
def checkWrites (s : State) (c : Cap) (vals : List Lanes) (size kind : Nat) (acc more : Nat → Res Unit) : Res State :=
  match checkWatch s c vals size kind with
  | .error e => .error e
  | .ok () =>
    let desc := descOf s s.cur.core c.obj.toNat
    let one := fun (i : Nat) =>
      match acc i with
      | .error e => (.error e : Res Unit)
      | .ok () =>
        match liftMem i c.obj.toNat (objOff c (offOf vals i)) kind desc with
        | .error e => .error e
        | .ok (e, _) =>
          match kindCheck e i c.obj.toNat (objOff c (offOf vals i)) kind with
          | .error e => .error e
          | .ok () => more i
    match foldRes (fun _ i => one i) () (activeLanes s) with
    | .error e => .error e
    | .ok () => .ok (if (activeLanes s).isEmpty then s else match desc with | .ok (_, t) => t | .error _ => s)

/-- Checks of a writing lane instruction. -/
def checkStore (s : State) (c : Cap) (vals : List Lanes) (size need kind : Nat) : Res State :=
  checkWrites s c vals size kind (fun i => checkAccess s c i (offOf vals i) size need kind true) (fun _ => .ok ())

/-- Words of a datum of `n` bytes in each lane. -/
def wordsOf (bytes : List (Nat × List Byte)) (k : Nat) : Lanes :=
  (upTo 32).map (fun i => wordOf (leNat (((lookup bytes i []).drop (4 * k)).take 4)))

/-- Write a loaded datum of `n` bytes a lane. -/
def writeLoaded (s : State) (d : BitVec 5) (n : Nat) (bytes : List (Nat × List Byte)) : Res State :=
  writeDst s (plainField d) 0 ((upTo (widthNames n)).map (wordsOf bytes))

/-! ### Loads and stores (R269, R270) -/

/-- Read every active lane's datum from an object: every lane's request is answered before a failure is reported (R38). -/
def loadLanes (s : State) (c : Cap) (vals : List Lanes) (n : Nat) : Res (List (Nat × List Byte) × State) :=
  gather (fun t i => readHeld t i c.obj.toNat (objOff c (offOf vals i)) n) s (activeLanes s)

/-- The sources of a memory instruction of one offset register: that register, more, and the capability register. -/
def memSrcs (o : OpInfo) (more : List Src) (k : BitVec 4) : List Src :=
  o.srcA.elim (.lit 0) (fun f => .reg f 0) :: more ++ [.cap k.toNat]

/-- A load into lane registers: `read` gives the lanes' data, `post` is what follows their return. -/
def loadOp (s : State) (o : OpInfo) (d : BitVec 5) (k : BitVec 4) (n : Nat)
    (read : State → Cap → List Lanes → Res (List (Nat × List Byte) × State)) (post : State → State) : Res State :=
  match readSources s { o with rangeBad := dataBad s d (widthNames n) } (memSrcs o [] k) with
  | .error e => .error e
  | .ok (vals, t) =>
    after (checkUnder s (memSrcs o [] k) []) <|
    let c := capAt (curGroup t) t.clock k.toNat
    match checkWatch t c vals n 0 with
    | .error e => .error e
    | .ok () =>
    if peakBad t (plainField d) (widthNames n) then illegal 0x04
    else
    match checkLanes t c vals n 0x01 0 with
    | .error e => .error e
    | .ok () =>
      match read t c vals with
      | .error e => .error e
      | .ok (bytes, t) =>
        match writeLoaded t d n bytes with
        | .error e => .error e
        | .ok t => .ok (post (applyLast t o 1 0 (dstNames s (some (plainField d)) (widthNames n))))

def execLd (c : BitVec 3) (d a : BitVec 5) (k : BitVec 4) (w : BitVec 3) (s : State) : Out :=
  finish s (counted s c.toNat (loadOp s (memInfo a true (decide (4 < w.toNat))) d k (widthBytes w)
    (fun t c vals => loadLanes t c vals (widthBytes w)) id))

/-- Scope code of an order field: OS − 1 (R193). -/
def orderScope (o p : BitVec 2) : Nat := (o ++ p).toNat - 1

/-- Static facts of an ordered load or store; only a load with a reserved order code may carry the marker, and traps for the code
(R193, R153). -/
def orderInfo (a : BitVec 5) (o p : BitVec 2) (w : BitVec 3) (load : Bool) : OpInfo :=
  { memInfo a (load && decide (6 < (o ++ p).toNat)) (decide (3 < w.toNat)) with scopeBad := decide (6 < (o ++ p).toNat) }

/-- The bytes with which a lane's logged operation answered before its instruction had to wait at an order gate (R377). -/
def lanePassed (s : State) (i : Nat) : Option (List Byte) :=
  (find? (curGroup s).gated i).bind (fun x => if x.1 = s.cur.pc.toNat then some x.2 else none)

/-- Keep the answers of lanes for an instruction that waits. -/
def keepLanes (s : State) (xs : List (Nat × List Byte)) : State :=
  let g := curGroup s
  if xs.isEmpty then s
  else setCur s { g with gated := xs.foldl (fun m x => insertKey m x.1 (s.cur.pc.toNat, x.2)) g.gated }

/-- Every lane of the instruction has its answer. -/
def dropLanes (s : State) : State :=
  let g := curGroup s
  if g.gated.isEmpty then s else setCur s { g with gated := (activeLanes s).foldl eraseKey g.gated }

/-- Each active lane's access as a logged operation, lowest lane first (R375); a wait keeps what the lanes before have done
(R377). -/
def loggedLanes (s : State) (c : Cap) (vals : List Lanes) (f : State → Nat → Res (List Byte × State)) :
    Res (List (Nat × List Byte) × State) :=
  (foldRes (fun (acc : List (Nat × List Byte) × State) i =>
    match lanePassed acc.2 i with
    | some bs => .ok (acc.1 ++ [(i, bs)], acc.2)
    | none =>
      match loggedAt acc.2 s.cur.core s.cur.slot c.obj.toNat (objOff c (offOf vals i)) with
      | .error e => .error (keepDone (keepLanes acc.2 acc.1) e)
      | .ok t => match f t i with
        | .error e => .error (keepDone (keepLanes acc.2 acc.1) e)
        | .ok (bs, t) => .ok (acc.1 ++ [(i, bs)], t)) ([], s) (activeLanes s)).map (fun r => (r.1, dropLanes r.2))

def execLdAcq (c : BitVec 3) (o : BitVec 2) (d : BitVec 5) (p : BitVec 2) (a : BitVec 5) (k : BitVec 4) (w : BitVec 3)
    (s : State) : Out :=
  finish s (counted s c.toNat (loadOp s (orderInfo a o p w true) d k (widthBytes w)
    (fun t c vals => match loadLanes t c vals (widthBytes w) with
      | .error e => .error e
      | .ok (_, t) => loggedLanes t c vals (fun t i => readHeld t i c.obj.toNat (objOff c (offOf vals i)) (widthBytes w)))
    (fun t => if (activeLanes s).isEmpty then t else acquireAt t (orderScope o p))))

/-- The writes of a store's active lanes, ascending. -/
def storeWrites (s : State) (c : Cap) (vals : List Lanes) (n : Nat) : List Write :=
  (activeLanes s).map (fun i => ⟨i, c.obj.toNat, objOff c (offOf vals i), n, 0, 0, datumOf vals n i, false⟩)

/-- A store of lane registers; `perform` takes its writes. -/
def storeOp (s : State) (o : OpInfo) (d : BitVec 5) (k : BitVec 4) (n : Nat)
    (perform : State → Cap → List Lanes → List Write → Res State) : Res State :=
  match readSources s { o with rangeBad := dataBad s d (widthNames n) } (memSrcs o (dataSrcs d (widthNames n)) k) with
  | .error e => .error e
  | .ok (vals, t) => after (checkUnder s (memSrcs o (dataSrcs d (widthNames n)) k) []) <|
    let c := capAt (curGroup t) t.clock k.toNat
    match checkStore t c vals n 0x02 1 with
    | .error e => .error e
    | .ok t =>
      match perform t c vals (storeWrites t c vals n) with
      | .error e => .error e
      | .ok t => .ok (applyLast t o 1 0 (dstNames s (some (plainField d)) (widthNames n)))

def execSt (c : BitVec 3) (d a : BitVec 5) (k : BitVec 4) (w : BitVec 3) (s : State) : Out :=
  finish s (counted s c.toNat
    (storeOp s (memInfo a false (decide (4 < w.toNat))) d k (widthBytes w) (fun s _ _ ws => holdStore s ws c.toNat)))

/-- Perform the writes of a group's instruction at once. -/
def performAll (s : State) (ws : List Write) : Res State :=
  foldWrites (fun t w => performWrite t s.cur.core s.cur.slot w) s (coalesce (ws.map (stampGen s s.cur.core)))

/-- Perform writes at once, lane by lane where they are logged operations, and keep them for the region's store hash. -/
def performNow (s : State) (c : Cap) (vals : List Lanes) (ws : List Write) : Res State :=
  if ws.isEmpty then .ok s
  else
    match translateWrites s s.cur.core ws with
    | .error e => .error e
    | .ok s =>
      match (if replayMode (curLaunch s) = 0 || isLane s then performAll s ws
        else (loggedLanes s c vals (fun t i => (performAll t (ws.filter (fun w => w.lane == i))).map (fun t => ([], t)))).map (·.2)) with
      | .error e => .error e
      | .ok s => .ok (pushStore s ws true 0)

def execStRel (c : BitVec 3) (o : BitVec 2) (d : BitVec 5) (p : BitVec 2) (a : BitVec 5) (k : BitVec 4) (w : BitVec 3)
    (s : State) : Out :=
  finishRelease s (fun s => counted s c.toNat (storeOp s (orderInfo a o p w false) d k (widthBytes w) performNow))

/-! ### Scratchpad loads and stores -/

/-- Scratchpad checks of every active lane (R56). -/
def scratchLanes (s : State) (vals : List Lanes) (n : Nat) : Res Unit :=
  foldRes (fun _ i => checkScratch s i (offOf vals i) n) () (activeLanes s)

def execLds (c : BitVec 3) (d a : BitVec 5) (w : BitVec 3) (s : State) : Out :=
  let o := memInfo a true (decide (4 < w.toNat))
  let n := widthBytes w
  finish s (counted s c.toNat
    (match readSources s { o with rangeBad := dataBad s d (widthNames n) } [.reg (plainField a) 0] with
    | .error e => .error e
    | .ok (vals, t) => after (checkUnder s [.reg (plainField a) 0] []) <|
      match scratchLanes t vals n with
      | .error e => .error e
      | .ok () =>
        match throughBanks t n ((activeLanes t).map (offOf vals)) with
        | .error e => .error e
        | .ok t =>
          match foldRes (fun (acc : List (Nat × List Byte)) i => match loadScratch t i (offOf vals i) n with
              | .error e => (.error e : Res (List (Nat × List Byte)))
              | .ok bs => .ok (acc ++ [(i, bs)])) [] (activeLanes t) with
          | .error e => .error e
          | .ok bytes =>
            match writeLoaded t d n bytes with
            | .error e => .error e
            | .ok t => .ok (applyLast t o 1 0 (dstNames s (some (plainField d)) (widthNames n)))))

def execSts (c : BitVec 3) (d a : BitVec 5) (w : BitVec 3) (s : State) : Out :=
  let o := memInfo a false (decide (4 < w.toNat))
  let n := widthBytes w
  finish s (counted s c.toNat
    (match readSources s { o with rangeBad := dataBad s d (widthNames n) } (.reg (plainField a) 0 :: dataSrcs d (widthNames n)) with
    | .error e => .error e
    | .ok (vals, t) => after (checkUnder s (.reg (plainField a) 0 :: dataSrcs d (widthNames n)) []) <|
      match scratchLanes t vals n with
      | .error e => .error e
      | .ok () =>
        match holdStore t
            ((activeLanes t).map (fun i => ⟨i, Config.scratchObj, offOf vals i, n, 0, 0, datumOf vals n i, false⟩)) c.toNat with
        | .error e => .error e
        | .ok t => .ok (applyLast t o 1 0 (dstNames s (some (plainField d)) (widthNames n)))))

/-! ### Capabilities in memory (R271, R17, R18) -/

/-- The tag of a quantum as the group reads it: its own latest held write that touches the quantum decides. -/
def heldTag (g : Group) (obj off : Nat) (tag : Bool) : Bool :=
  ((heldWrites g).filterMap (fun w =>
    if w.obj == obj && decide (w.off < off + 16) && decide (off < w.off + w.bytes.length) then some (w.kind == 2) else none)).getLastD tag

/-- The set tag of a quantum was cleared by another group's store. -/
def racedDrop (s : State) (l : Line) (q : Nat) : Bool :=
  match l.drops.find? (fun e => e.1 == q) with
  | none => false
  | some e => e.2 != storer s (some s.cur.core)

/-- ldk of one lane: the capability of the quantum, and whether another group's store cleared its tag. -/
def loadQuantum (s : State) (lane : Nat) (c : Cap) (off : Nat) : Res ((Cap × Bool) × State) :=
  let a := objOff c off
  match readHeldLine s lane c.obj.toNat a 16 with
  | .error e => .error e
  | .ok (l, bs, s) =>
    let tag := heldTag (curGroup s) c.obj.toNat a (!l.pool && l.tags.getLsbD (a % 128 / 16))
    .ok ((capOf tag (BitVec.ofNat 128 (leNat ((bs.drop (a % 128)).take 16))), racedDrop s l (a % 128 / 16)), s)

/-- A loaded capability, with KNULL and KDROP (R18, R19). -/
def takeQuantum (s : State) (k : Nat) (c : Cap) (dropped : Bool) : State :=
  let g := writeCap (curGroup s) k c
  let bits : BitVec 2 := if c.tag then 0 else if dropped then 3 else 1
  setCur s (keepRaised { g with spec := { g.spec with kstat := g.spec.kstat ||| bits } } (bits.zeroExtend 10 <<< 5))

def execLdk (c : BitVec 3) (d : BitVec 4) (a : BitVec 5) (k : BitVec 4) (s : State) : Out :=
  let o := { memInfo a true false with kBad := decide (d.toNat < 2) }
  finish s (counted s c.toNat (match readSources s o (memSrcs o [] k) with
    | .error e => .error e
    | .ok (vals, t) => after (checkUnder s (memSrcs o [] k) []) <|
      let c := capAt (curGroup t) t.clock k.toNat
      match checkLanes t c vals 16 0x01 0 with
      | .error e => .error e
      | .ok () =>
        match gather (fun s i => loadQuantum s i c (offOf vals i)) t (activeLanes t) with
        | .error e => .error e
        | .ok (qs, t) => .ok (applyLast (qs.foldl (fun t q => takeQuantum t d.toNat q.2.1 q.2.2) t) o 1 0 [])))

/-- stk of a tagged capability needs its D right (R17). -/
def derivable (c v : Cap) (lane off : Nat) : Res Unit :=
  if v.tag && !v.rights.getLsbD 6 then
    .error (.trap { cls := 5, code := 0x06, lane := lane, obj := c.obj.toNat, off := objOff c off, kind := 1 })
  else .ok ()

def execStk (ctr : BitVec 3) (d : BitVec 4) (a : BitVec 5) (k : BitVec 4) (s : State) : Out :=
  let o := memInfo a false false
  finish s (counted s ctr.toNat (match readSources s o (memSrcs o [.cap d.toNat] k) with
    | .error e => .error e
    | .ok (vals, t) => after (checkUnder s (memSrcs o [.cap d.toNat] k) []) <|
      let c := capAt (curGroup t) t.clock k.toNat
      let v := capAt (curGroup t) t.clock d.toNat
      match checkWrites t c vals 16 1 (fun i => checkAccess t c i (offOf vals i) 16 0x02 1 true)
          (fun i => derivable c v i (offOf vals i)) with
      | .error e => .error e
      | .ok t =>
        match holdStore t ((activeLanes t).map (fun i =>
          ⟨i, c.obj.toNat, objOff c (offOf vals i), 16, if v.tag then 2 else 1, 0, capBytes v, false⟩)) ctr.toNat with
        | .error e => .error e
        | .ok t => .ok (applyLast t o 1 0 [])))

/-! ### Derivation (R14, R15, R272) -/

/-- A capability fault without an access. -/
def capFault {α : Type} (code lane obj kind : Nat) : Res α :=
  .error (.trap { cls := 5, code := code, lane := lane, obj := obj, kind := kind })

/-- A 44-bit number of two uniform registers, and whether its reserved bits are clear. -/
def pair44 (g : Group) (clock u : Nat) : Nat × Bool :=
  let hi := (readUnif g clock (u + 1)).toNat
  ((readUnif g clock u).toNat + hi % 2 ^ 12 * 2 ^ 32, decide (hi < 2 ^ 12))

/-- Decoded length (R8). -/
def decLen (n : Nat) : Nat := if n = 0 then 2 ^ 44 else n

/-- The result of cnarrow and crights: latency 2 (R272, R181). -/
def writeDerived (s : State) (d : BitVec 4) (c : Cap) : State :=
  setCur s (writeCapLat (curGroup s) s.clock 2 (ctlAstr s) d.toNat c)

def execCnarrow (d a : BitVec 4) (b : BitVec 5) (s : State) : Out :=
  finish s (match checkSlot s { encBad := decide (28 < b.toNat), kBad := decide (d.toNat < 2) } with
    | .error e => .error e
    | .ok () =>
      match checkWait s ((upTo 4).map (fun i => .unif (b.toNat + i)) ++ [.cap a.toNat]) with
      | .error e => .error e
      | .ok () => after (checkUnder s ((upTo 4).map (fun i => .unif (b.toNat + i)) ++ [.cap a.toNat]) []) <|
        match firstLane s with
        | none => .ok s
        | some i =>
          let g := curGroup s
          if a = 0 then
            let id := readUnif g s.clock b.toNat
            if !isSuper s then capFault 0x01 i 0 0
            else match liftMem i id.toNat 0 0 (descOf s s.cur.core id.toNat) with
              | .error e => .error e
              | .ok (e, s) =>
                .ok (setCur s (writeCap (curGroup s) d.toNat ⟨true, id, 0, BitVec.ofNat 44 e.length, 0xFF⟩))
          else
            let c := capAt g s.clock a.toNat
            let (delta, ok1) := pair44 g s.clock b.toNat
            let (nlen, ok2) := pair44 g s.clock (b.toNat + 2)
            if !c.tag then capFault 0x01 i c.obj.toNat 0
            else if !ok1 || !ok2 || decide (capLen c < delta + decLen nlen) then capFault 0x07 i c.obj.toNat 0
            else .ok (writeDerived s d { c with base := c.base + BitVec.ofNat 44 delta, len := BitVec.ofNat 44 nlen }))

def execCrights (d a : BitVec 4) (b : BitVec 5) (s : State) : Out :=
  finish s (match checkSlot s { kBad := decide (d.toNat < 2) } with
    | .error e => .error e
    | .ok () =>
      match checkWait s [.unif b.toNat, .cap a.toNat] with
      | .error e => .error e
      | .ok () => after (checkUnder s [.unif b.toNat, .cap a.toNat] []) <|
        match firstLane s with
        | none => .ok s
        | some i =>
          let g := curGroup s
          let c := capAt g s.clock a.toNat
          if !c.tag then capFault 0x01 i c.obj.toNat 0
          else .ok (writeDerived s d { c with rights := c.rights &&& (readUnif g s.clock b.toNat).extractLsb' 0 8 }))

/-- The field of a capability that cget selects (Table 8-2). -/
def capField (f : BitVec 3) (c : Cap) : Word :=
  match f.toNat with
  | 0 => c.obj
  | 1 => c.base.extractLsb' 0 32
  | 2 => (c.base.extractLsb' 32 12).zeroExtend 32
  | 3 => c.len.extractLsb' 0 32
  | 4 => (c.len.extractLsb' 32 12).zeroExtend 32
  | 5 => c.rights.zeroExtend 32
  | _ => if c.tag then 1 else 0

def execCget (f : BitVec 3) (d : BitVec 7) (a : BitVec 4) (s : State) : Out :=
  let v := capField f (capAt (curGroup s) s.clock a.toNat)
  finish s (laneOp s { dst := some d, fnBad := f == 7 } [.cap a.toNat] 0 0 d 1 2 (fun _ => ([v], 0)))

def execCtest (t f : BitVec 3) (a : BitVec 4) (b : BitVec 7) (s : State) : Out :=
  let c := capAt (curGroup s) s.clock a.toNat
  finish s (predOp s { srcB := some b } [.reg b 0, .cap a.toNat] 0 1 t f 2 (fun v => (c.tag && decide ((arg v 0).toNat < capLen c), 0)))

/-! ### Atomics with return (R274, R275) -/

/-- Signed value of a 32-bit number, and the lesser and greater of two. -/
def sless (x y : Nat) : Bool := decide (signed32 x < signed32 y)

/-- New value of an atomic of 32 bits (Table 12-2): v is name n, v1 is name n + 1. -/
def atomNew (op old v v1 : Nat) : Nat :=
  match op with
  | 0 => (old + v) % 2 ^ 32
  | 1 => if sless v old then v else old
  | 2 => if sless old v then v else old
  | 3 => Nat.min old v
  | 4 => Nat.max old v
  | 5 => v
  | 6 => if old = v then v1 else old
  | _ => if v ≤ old then 0 else old + 1

/-- New value of an atomb: and, or, xor, decw, exch64, cas64. -/
def atombNew (op old v v1 : Nat) : Nat :=
  match op with
  | 0 => old &&& v
  | 1 => old ||| v
  | 2 => old ^^^ v
  | 3 => if old = 0 || decide (v < old) then v else old - 1
  | 4 => v
  | _ => if old = v then v1 else old

/-- One lane's atomic at the home: the old bytes, and the state. -/
def atomicLane (s : State) (lane : Nat) (c : Cap) (off n : Nat) (f : Nat → Nat) : Res (List Byte × State) :=
  let a := objOff c off
  match liftMem lane c.obj.toNat a 2 (descOf s s.cur.core c.obj.toNat) with
  | .error e => .error e
  | .ok (e, s) => liftMem lane c.obj.toNat a 2
      (modifyLine s s.cur.core (getCore s s.cur.core).part e a n (fun old => leBytes n (f (leNat old))))

/-- An atomic with return, which counts on dc7: `n` bytes, `regs` names read from d, `f` the new value from the old and the lane's
words. -/
def atomicOp (o : OpInfo) (d : BitVec 5) (k : BitVec 4) (scope n regs : Nat) (f : Nat → List Word → Nat) (s : State) :
    Res State :=
  counted s 7 (match readSources s { o with rangeBad := dataBad s d regs } (memSrcs o (dataSrcs d regs) k) with
    | .error e => .error e
    | .ok (vals, t) => after (checkUnder s (memSrcs o (dataSrcs d regs) k) []) <|
      let c := capAt (curGroup t) t.clock k.toNat
      match checkStore t c vals n 0x0B 2 with
      | .error e => .error e
      | .ok t =>
        match translateWrites t t.cur.core ((activeLanes t).map (fun i => ⟨i, c.obj.toNat, objOff c (offOf vals i), n, 3, 0, [], false⟩)) with
        | .error e => .error e
        | .ok t =>
          let new := fun (i old : Nat) => f old (laneArgs (vals.drop 1) i)
          match loggedLanes t c vals (fun t i => atomicLane t i c (offOf vals i) n (new i)) with
          | .error e => .error e
          | .ok (olds, t) =>
            if olds.isEmpty then .ok t
            else
              let ws : List Write := olds.map (fun x =>
                ⟨x.1, c.obj.toNat, objOff c (offOf vals x.1), n, 3, 0, leBytes n (new x.1 (leNat x.2)), false⟩)
              match writeLoaded (pushStore t ws true 0) d n olds with
              | .error e => .error e
              | .ok t => .ok (applyLast (acquireAt t scope) o 1 0 (dstNames s (some (plainField d)) regs)))

/-- Static facts of an atomic. -/
def atomInfo (a : BitVec 5) (sc : BitVec 3) (fnBad : Bool) : OpInfo :=
  { memInfo a false false with fnBad := fnBad, scopeBad := decide (5 < sc.toNat) }

/-- A pair of words as a 64-bit number. -/
def pairNat (v : List Word) (i : Nat) : Nat := (arg v i).toNat + (arg v (i + 1)).toNat * 2 ^ 32

def execAtom (op : BitVec 3) (d a : BitVec 5) (k : BitVec 4) (sc : BitVec 3) (s : State) : Out :=
  finishRelease s (atomicOp (atomInfo a sc false) d k sc.toNat 4 (if op = 6 then 2 else 1)
    (fun old v => atomNew op.toNat old (arg v 0).toNat (arg v 1).toNat))

def execAtomb (op : BitVec 3) (d a : BitVec 5) (k : BitVec 4) (sc : BitVec 3) (s : State) : Out :=
  let wide := decide (3 < op.toNat)
  finishRelease s (atomicOp (atomInfo a sc (decide (5 < op.toNat))) d k sc.toNat (if wide then 8 else 4)
    (if op = 5 then 4 else if wide then 2 else 1)
    (fun old v => if wide then atombNew op.toNat old (pairNat v 0) (pairNat v 2) else atombNew op.toNat old (arg v 0).toNat 0))

def execFatom (op : BitVec 3) (d a : BitVec 5) (k : BitVec 4) (sc : BitVec 3) (s : State) : Out :=
  finishRelease s (atomicOp (atomInfo a sc (decide (3 < op.toNat))) d k sc.toNat 4 1
    (fun old v => fatomOp op.toNat old (arg v 0).toNat))

/-! ### Reductions (R276, R277) -/

/-- Reserve entries of the team's reduction log for ordered reductions, in lane order (R277); the log is kept as a list of entries, with no
bytes in memory (DESIGN CHOICE, entry 78). -/
def reserveLog (s : State) (ws : List Write) : State :=
  let t := curTeam s
  let es := (ws.filter isLogEntry).map (fun w =>
    (⟨w.obj, w.off, w.op - 32, wordOf (leNat w.bytes), false, s.cur.slot, (curRegion (curGroup s)).serial⟩ : FredEntry))
  if es.isEmpty then s else setCurTeam s { t with fredlog := t.fredlog ++ es }

/-- A reduction of the active lanes: held until its region commits; in the supervisor lane it performs at once. -/
def reductionOp (s : State) (o : OpInfo) (d : BitVec 5) (k : BitVec 4) (n op : Nat) : Res State :=
  match readSources s { o with rangeBad := dataBad s d (widthNames n) } (memSrcs o (dataSrcs d (widthNames n)) k) with
  | .error e => .error e
  | .ok (vals, t) => after (checkUnder s (memSrcs o (dataSrcs d (widthNames n)) k) []) <|
    let c := capAt (curGroup t) t.clock k.toNat
    match checkStore t c vals n 0x0A 2 with
    | .error e => .error e
    | .ok t =>
      let ws : List Write := (activeLanes t).map (fun i =>
        ⟨i, c.obj.toNat, objOff c (offOf vals i), n, 4, op, datumOf vals n i, false⟩)
      if decide (32 ≤ op) && decide ((curLaunch t).fredlog < (curTeam t).fredlog.length + ws.length) then
        .error (.trap { cls := 5, code := 0x04, lane := (firstLane t).getD 0, kind := 2 })
      else
        match translateWrites t t.cur.core ws with
        | .error e => .error e
        | .ok t =>
          match (if isLane t then performAll t ws
            else .ok (if ws.isEmpty then t else pushStore (reserveLog t ws) ws false 0)) with
          | .error e => .error e
          | .ok t => .ok (applyLast t o 1 0 (dstNames s (some (plainField d)) (widthNames n)))

def execAred (op : BitVec 3) (d a : BitVec 5) (k : BitVec 4) (w : BitVec 3) (s : State) : Out :=
  finish s (reductionOp s (memInfo a false (w != 2 && w != 3)) d k (widthBytes w) op.toNat)

def execFred (op : BitVec 3) (d a : BitVec 5) (k : BitVec 4) (s : State) : Out :=
  let ordered := !isLane s && (curLaunch s).flags.getLsbD 4
  finish s (reductionOp s { memInfo a false false with fnBad := decide (2 < op.toNat) } d k 4
    ((if ordered then 32 else 16) + op.toNat))

/-! ### Fences (R279) -/

def execFence (f sc : BitVec 3) (s : State) : Out :=
  let check : State → Res State := fun s =>
    match checkSlot s { fnBad := decide (3 < f.toNat), scopeBad := decide (5 < sc.toNat) } with
    | .error e => .error e
    | .ok () => match checkWait s [] with
      | .error e => .error e
      | .ok () => after (checkUnder s [] []) <| .ok (if (activeLanes s).isEmpty || f == 1 then s else acquireAt s sc.toNat)
  if f = 0 then finish s (check s) else finishRelease s check

/-! ### Prefetch, zero fill, pins and cache control (R280 to R284) -/

/-- Whether a failed check of a prefetch drops the lane: no right R, bounds or tag, or a page fault; other faults trap (R280). -/
def prefDrops (a : Abort) : Bool :=
  match a with
  | .trap t | .lateTrap _ t => t.cls == 7 || (t.cls == 5 && (t.code == 0x01 || t.code == 0x02 || t.code == 0x04 || t.code == 0x0B))
  | .hold _ | .lateHold _ _ => false

/-- A lane's prefetch of a migrating page parks at the page's port, and brings its line in after an extinv of the object (R40). -/
def prefPark (s : State) (obj off : Nat) (slice : Bool) : State :=
  let p := (getCore s s.cur.core).part
  match readEntry s p obj with
  | none => s
  | some e => parkAt s p e off ⟨.sliceLoadRequest, { core := s.cur.core, obj := obj, off := off, extra := if slice then 1 else 2 }⟩

/-- Bring a lane's line in, into the slice only for `.slice`. -/
def prefLane (s : State) (lane : Nat) (c : Cap) (off : Nat) (slice : Bool) : Res State :=
  match checkAccess s c lane off 1 0x01 0 false with
  | .error a => .error a
  | .ok () =>
    let a := objOff c off
    match liftMem lane c.obj.toNat a 0 (descOf s s.cur.core c.obj.toNat) with
    | .error x => .error x
    | .ok (e, s) => match liftMem lane c.obj.toNat a 0 (if slice then sliceLine s (curDie s) (getCore s s.cur.core).part e a else readLine s s.cur.core e a) with
      | .error x => .error x
      | .ok (_, s) => .ok s

/-- Every lane of a prefetch: dropped lanes change nothing. -/
def prefLanes (s : State) (c : Cap) (vals : List Lanes) (slice : Bool) : Res State :=
  foldRes (fun t i => match prefLane t i c (offOf vals i) slice with
    | .ok u => .ok u
    | .error (.hold (.migrating obj off)) => .ok (prefPark t obj off slice)
    | .error a => if prefDrops a then .ok t else .error a) s (activeLanes s)

def execPref (a : BitVec 5) (k : BitVec 4) (w : BitVec 3) (s : State) : Out :=
  let o := memInfo a true (decide (1 < w.toNat))
  finish s (match readSources s o (memSrcs o [] k) with
    | .error e => .error e
    | .ok (vals, t) => after (checkUnder s (memSrcs o [] k) []) <|
      match prefLanes t (capAt (curGroup t) t.clock k.toNat) vals (w == 1) with
      | .error e => .error e
      | .ok t => .ok (applyLast t o 1 0 []))

def execZfill (ctr : BitVec 3) (a : BitVec 5) (k : BitVec 4) (s : State) : Out :=
  let o := memInfo a false false
  finish s (counted s ctr.toNat (match readSources s o (memSrcs o [] k) with
    | .error e => .error e
    | .ok (vals, t) => after (checkUnder s (memSrcs o [] k) []) <|
      let c := capAt (curGroup t) t.clock k.toNat
      let acc := fun (i : Nat) => match checkAccess t c i (offOf vals i) 128 0x02 1 true with
        | .error e => .error e
        | .ok () => if objOff c (offOf vals i) % 128 ≠ 0 then
            .error (.trap { cls := 5, code := 0x05, lane := i, obj := c.obj.toNat, off := objOff c (offOf vals i), kind := 1 })
          else .ok ()
      match checkWrites t c vals 128 1 acc (fun _ => .ok ()) with
      | .error e => .error e
      | .ok t =>
        match holdStore t ((activeLanes t).map (fun i =>
          ⟨i, c.obj.toNat, objOff c (offOf vals i), 128, 0, 0, List.replicate 128 0, false⟩)) ctr.toNat with
        | .error e => .error e
        | .ok t => .ok (applyLast t o 1 0 [])))

/-- Pinned data ways of an L2 set and of an L1 set. -/
def pinnedL2 (z : Slice) (obj idx : Nat) : Nat :=
  (z.lines.filter (fun l => l.pinned && setL2 l.obj (l.index * 128) == setL2 obj (idx * 128))).length
def pinnedL1 (k : Core) (obj idx : Nat) : Nat := (k.l1.filter (fun l => l.pinned && setL1 k l.obj l.index == setL1 k obj idx)).length

/-- Pin a line at its home slice under R68 and R69; none when it would pass a way limit or the quota. -/
def pinHome (s : State) (p : Nat) (e : Desc) (off : Nat) : Except MemErr (Option State) :=
  match homeLine s p e off with
  | .error x => .error x
  | .ok (l, s) =>
    let d := homeDie e off
    let z := homeSlice e.id off
    if l.pinned then .ok (some s)
    else
      let q := getPart s p
      let used := lookup q.pinuse e.pqc 0
      if 12 ≤ pinnedL2 (getSlice s d z) e.id (off / 128) || (lookup q.pinquota e.pqc 0).toNat < used.toNat + 128 then .ok none
      else
        let s := setPart s p { q with pinuse := insertKey q.pinuse e.pqc (used + 128) }
        let l' := { l with zero := false, data := lineBytes l, pinned := true, pqc := e.pqc }
        .ok (some (if l.zero then insertLine (removeLine s d z { l with sharers := [], pinned := false }) d z l' else updateLine s d z l'))

/-- Pin a line in the issuing core's L1 as well, for the group's team; none when its set has no way left, or for a line that no L1
of this die may hold as its home's copy. -/
def pinL1 (s : State) (c : Nat) (e : Desc) (off : Nat) : Except MemErr (Option State) :=
  if homeDie e off ≠ dieOf c ∨ e.id = 1 then .ok none
  else
    match readLine s c e off with
    | .error x => .error x
    | .ok (l, s) =>
      let k := getCore s c
      let mine := isL1 l.obj l.index
      if k.l1.any (fun m => mine m && m.pinned) then .ok (some s)
      else if 6 ≤ pinnedL1 k l.obj l.index then .ok none
      else .ok (some (setCore s c { k with l1 := k.l1.map (fun m => if mine m then { m with pinned := true, team := (curGroup s).team } else m) }))

/-- Pin one lane's line: success, and the state. A page fault drops the lane (R38). -/
def pinLane (s : State) (lane : Nat) (c : Cap) (off : Nat) (l1 : Bool) : Res (Bool × State) :=
  let a := objOff c off
  let p := (getCore s s.cur.core).part
  match liftMem lane c.obj.toNat a 0 (descOf s s.cur.core c.obj.toNat) with
  | .error e => .error e
  | .ok (e, s) =>
    let fail := fun (x : MemErr) => match x with
      | .page _ => (.ok (false, s) : Res (Bool × State))
      | x => .error (memAbort x lane c.obj.toNat a 0)
    match pinHome s p e a with
    | .error x => fail x
    | .ok none => .ok (false, s)
    | .ok (some t) =>
      if !l1 then .ok (true, t)
      else match pinL1 t s.cur.core e a with
        | .error x => fail x
        | .ok none => .ok (false, s)
        | .ok (some t) => .ok (true, t)

/-- Queue the unpins of the active lanes; one counted operation, its counter with the last lane. -/
def unpinLanes (s : State) (c : Cap) (vals : List Lanes) (ctr : Nat) : State :=
  (activeLanes s).foldl (fun t i =>
    deferNowOn t (if some i = (activeLanes s).getLast? then ctr else 0) (.unpin c.obj.toNat (objOff c (offOf vals i) / 128))) s

/-- pin (R282). With both destinations p0 it writes no predicate, and checks and pins all the same (DEDUCED, entry 14). -/
def execPin (t f : BitVec 3) (a : BitVec 7) (l : BitVec 1) (k : BitVec 4) (s : State) : Out :=
  let o : OpInfo := { srcA := some a, pBad := pairPred t f }
  finish s (match readSources s o (memSrcs o [] k) with
    | .error e => .error e
    | .ok (vals, u) => after (checkUnder s (memSrcs o [] k) []) <|
      let c := capAt (curGroup u) u.clock k.toNat
      match foldRes (fun _ i => checkAccess u c i (offOf vals i) 1 0x20 0 false) () (activeLanes u) with
      | .error e => .error e
      | .ok () =>
        match foldRes (fun (acc : List Nat × State) i => match pinLane acc.2 i c (offOf vals i) (l == 1) with
          | .error e => .error e
          | .ok (b, s) => .ok (if b then acc.1 ++ [i] else acc.1, s)) ([], u) (activeLanes u) with
        | .error e => .error e
        | .ok (won, u) => .ok (applyLast (writeCond u t f 0 (laneMask (fun i => won.contains i))) o 1 0 []))

def execUnpin (ctr : BitVec 3) (a : BitVec 5) (k : BitVec 4) (s : State) : Out :=
  let o := memInfo a false false
  finish s (counted s ctr.toNat (match readSources s o (memSrcs o [] k) with
    | .error e => .error e
    | .ok (vals, t) => after (checkUnder s (memSrcs o [] k) []) <|
      let c := capAt (curGroup t) t.clock k.toNat
      match foldRes (fun _ i => checkAccess t c i (offOf vals i) 1 0x20 0 false) () (activeLanes t) with
      | .error e => .error e
      | .ok () =>
        match firstLane t with
        | none => .ok t
        | some i =>
          match liftMem i c.obj.toNat (objOff c (offOf vals i)) 0 (descOf t t.cur.core c.obj.toNat) with
          | .error e => .error e
          | .ok (_, t) => .ok (applyLast (unpinLanes t c vals ctr.toNat) o 1 0 [])))

/-- Unpin a line: its home-slice pin and every L1 pin of it on the home die end, the bytes return (R283). -/
def unpinLine (s : State) (p obj idx : Nat) : State :=
  match readEntry s p obj with
  | none => s
  | some e =>
    let off := idx * 128
    let d := homeDie e off
    let z := homeSlice obj off
    match (getSlice s d z).lines.find? (fun l => l.part == p && l.obj == obj && l.index == idx && !l.guest && l.pinned) with
    | none => s
    | some l =>
      let s := updateLine (returnQuota s l) d z { l with pinned := false }
      let free := fun (k : Core) =>
        { k with l1 := (k.l1.map (fun m => if isL1 obj idx m then { m with pinned := false } else m)).filter (fun m => m.valid || m.pinned) }
      { s with cores := s.cores.map (fun k => if dieOf k.1 == d && k.2.part == p then (k.1, free k.2) else k) }

/-- cctl on one copy of a line at a slice: write back a dirty one; an invalidate drops it, a user's not when it is pinned. -/
def cctlCopy (s : State) (d z p obj idx : Nat) (guest wb inv user : Bool) : State :=
  match (getSlice s d z).lines.find? (fun l => l.part == p && l.obj == obj && l.index == idx && l.guest == guest) with
  | none => s
  | some l =>
    if inv && !(user && l.pinned) then
      let s := removeLine s d z l
      if wb then writeBack s d z l else s
    else if wb && l.dirty then writeBack (updateLine s d z { l with dirty := false }) d z l
    else s

/-- cctl of one lane (Table 12-4). -/
def cctlLane (s : State) (e : Desc) (off : Nat) (op scope : Nat) : State :=
  let p := (getCore s s.cur.core).part
  let user := !isSuper s
  let wb := op != 1 || user
  let inv := op != 0
  let home := homeDie e off
  let z := homeSlice e.id off
  let mine := curDie s
  let s := if home = mine || 4 ≤ scope then cctlCopy s home z p e.id (off / 128) false wb inv user else s
  let guests := if 4 ≤ scope then upTo Config.dies else [mine]
  guests.foldl (fun s d => if d = home then s else cctlCopy s d z p e.id (off / 128) true false inv user) s

/-- cctl (R284). Its faults name KIND 0 for a write-back and 1 for the forms that invalidate (DEDUCED, entry 52). -/
def execCctl (op : BitVec 3) (a : BitVec 5) (k : BitVec 4) (sc : BitVec 3) (s : State) : Out :=
  let o := { memInfo a false false with fnBad := decide (2 < op.toNat), scopeBad := decide (5 < sc.toNat) }
  finish s (match readSources s o (memSrcs o [] k) with
    | .error e => .error e
    | .ok (vals, t) => after (checkUnder s (memSrcs o [] k) []) <|
      let c := capAt (curGroup t) t.clock k.toNat
      let kind := if op = 0 then 0 else 1
      match foldRes (fun _ i => checkAccess t c i (offOf vals i) 1 (if op = 0 then 0x01 else 0x02) kind false) () (activeLanes t) with
      | .error e => .error e
      | .ok () =>
        match firstLane t with
        | none => .ok t
        | some i =>
          match liftMem i c.obj.toNat (objOff c (offOf vals i)) kind (descOf t t.cur.core c.obj.toNat) with
          | .error e => .error e
          | .ok (e, t) =>
            match (activeLanes t).find? (fun i => decide (e.length ≤ objOff c (offOf vals i))) with
            | some i => .error (memAbort (.cap 0x0B) i c.obj.toNat (objOff c (offOf vals i)) kind)
            | none =>
              .ok (applyLast ((activeLanes t).foldl (fun t i => cctlLane t e (objOff c (offOf vals i)) op.toNat sc.toNat) t) o 1 0 []))

/-! ### Streams (R170, R285 to R287) -/

/-- The checks of a stream-table entry's eight words (R170). -/
def streamBad (w : List Word) : Bool :=
  let n := fun (i : Nat) => (w.getD i 0).toNat
  let ndim := n 0 / 2 ^ 20 % 4
  n 0 / 2 ^ 25 % 4 == 3 || ndim == 0 || n 0 % 2 ^ 20 != 0 || n 4 / 2 ^ 16 != 0 || n 3 % 2 ^ 16 == 0
    || (decide (1 < ndim) && n 3 / 2 ^ 16 == 0) || (decide (2 < ndim) && n 4 % 2 ^ 16 == 0)

def execStdef (e : BitVec 3) (a : BitVec 5) (s : State) : Out :=
  finish s (match checkSlot s { astr := true, encBad := decide (24 < a.toNat) } with
    | .error x => .error x
    | .ok () =>
      match checkWait s ((upTo 8).map (fun i => .unif (a.toNat + i))) with
      | .error x => .error x
      | .ok () => after (checkUnder s ((upTo 8).map (fun i => .unif (a.toNat + i))) []) <|
        if (activeLanes s).isEmpty then .ok s
        else
          let g := curGroup s
          let ws := (upTo 8).map (fun i => readUnif g s.clock (a.toNat + i))
          if streamBad ws then illegal 0x10
          else .ok (setCur s { g with regs := { g.regs with
            streams := (upTo 8).foldl (fun m i => insertKey m (8 * e.toNat + i) (ws.getD i 0)) g.regs.streams
            defined := g.regs.defined ||| BitVec.ofNat 8 (2 ^ e.toNat)
            pos := (upTo 8).foldl (fun m q => eraseKey m (8 * q + e.toNat)) g.regs.pos } }))

def execStbind (e : BitVec 3) (o : BitVec 1) (q : BitVec 2) (s : State) : Out :=
  finish s (match checkSlot s { astr := true, encBad := o == 1 && e != 0 } with
    | .error x => .error x
    | .ok () =>
      let g := curGroup s
      match checkWait s [] with
      | .error x => .error x
      | .ok () => after (checkUnder s [] []) <|
      if (activeLanes s).isEmpty then .ok s
      else if o = 1 then .ok (setCur s { g with regs := { g.regs with binds := eraseKey g.regs.binds q.toNat } })
      else if !g.regs.defined.getLsbD e.toNat then illegal 0x06
      else .ok (setCur s { g with regs := { g.regs with binds := insertKey g.regs.binds q.toNat e.toNat } }))

/-- Linear position of a stream in a quad, modulo 2^32. -/
def linearPos (g : Group) (e q : Nat) : Word :=
  let p := lookup g.regs.pos (8 * q + e) ⟨0, 0, 0⟩
  wordOf (p.j0 + streamWord g e 3 % 2 ^ 16 * (p.j1 + streamWord g e 3 / 2 ^ 16 * p.j2))

def execStpos (e : BitVec 3) (d : BitVec 7) (r : BitVec 1) (s : State) : Out :=
  finish s (match checkSlot s { astr := true, dst := some d } with
    | .error x => .error x
    | .ok () =>
      let g := curGroup s
      if !g.regs.defined.getLsbD e.toNat then illegal 0x06
      else
        match laneOp s { astr := true, dst := some d } [] 0 0 d 1 2 (fun _ => ([0], 0)) with
        | .error x => .error x
        | .ok _ =>
          match writeDst s d (2 + patLat [d]) [(upTo 32).map (fun i => linearPos g e.toNat (i / 4))] with
          | .error x => .error x
          | .ok t =>
            if r = 0 then .ok t
            else
              let h := curGroup t
              .ok (setCur t { h with regs := { h.regs with
                pos := (activeQuads s).foldl (fun m q => eraseKey m (8 * q + e.toNat)) h.regs.pos } }))

end Sys2Proof.Machine
end

