-- ==== Sys2Proof/Machine/Uniform.lean ====
section
/-!
DEFINITION. Uniform instructions (spec/10 R242, R243, under R214): once for the group when a lane of the issuing candidate
is active.
-/

namespace Sys2Proof.Machine

/-- Checks of a uniform instruction, the group's state once they pass; none when no lane is active. -/
def unifCheck (s : State) (o : OpInfo) (srcs : List Src) : Res Bool :=
  match checkSlot s o with
  | .error e => .error e
  | .ok () => match checkWait s srcs with
    | .error e => .error e
    | .ok () => after (checkUnder s srcs []) <| .ok (!(activeLanes s).isEmpty)

/-- s[d] ← v, from source b, or the literal in its place, and more sources, latency 2. -/
def unifOp (s : State) (o : OpInfo) (d b : BitVec 5) (srcs : List Src) (v : Word) : Out :=
  finish s (match unifCheck s { o with lit := 32, astr := true, bUsed := b != 0 } (srcs ++ [unifSrc s b]) with
    | .error e => .error e
    | .ok false => .ok s
    | .ok true => .ok (writeUnif s d.toNat 2 v))

/-- s[d] ← f s[a] s[b], or the literal in place of s[b], latency 2. -/
def unifBin (s : State) (o : OpInfo) (d a b : BitVec 5) (f : Word → Word → Word) : Out :=
  unifOp s o d b [.unif a.toNat] (f (readUnif (curGroup s) s.clock a.toNat) (unifOrLit s b))

def execSadd (d a b : BitVec 5) (s : State) : Out := unifBin s {} d a b (fun x y => x + y)
def execSsub (d a b : BitVec 5) (s : State) : Out := unifBin s {} d a b (fun x y => x - y)
def execSmul (d a b : BitVec 5) (s : State) : Out := unifBin s {} d a b (fun x y => x * y)
def execSand (d a b : BitVec 5) (s : State) : Out := unifBin s {} d a b (fun x y => x &&& y)
def execSor (d a b : BitVec 5) (s : State) : Out := unifBin s {} d a b (fun x y => x ||| y)
def execSxor (d a b : BitVec 5) (s : State) : Out := unifBin s {} d a b (fun x y => x ^^^ y)
def execSshl (d a b : BitVec 5) (s : State) : Out := unifBin s {} d a b (fun x y => shlW x y.toNat)

/-- sshr: fn[0] = 1 shifts sign copies in. -/
def execSshr (r : BitVec 1) (d a b : BitVec 5) (s : State) : Out :=
  unifBin s {} d a b (fun x y => if r = 1 then sarW x y.toNat else shrW x y.toNat)

def execScmp (c : BitVec 3) (d a b : BitVec 5) (s : State) : Out :=
  unifBin s { fnBad := decide (5 < c.toNat) } d a b (fun x y => if condW c.toNat x y then 1 else 0)

/-- sminmax: 0 min.i, 1 max.i, 2 min.n, 3 max.n. -/
def execSminmax (f : BitVec 2) (d a b : BitVec 5) (s : State) : Out :=
  unifBin s {} d a b (fun x y => if f.getLsbD 0 then maxW (!f.getLsbD 1) x y else minW (!f.getLsbD 1) x y)

/-- s[d] ← f, from sources that take no literal, latency 2. -/
def unifUn (s : State) (d : BitVec 5) (srcs : List Src) (v : Word) : Out :=
  finish s (match unifCheck s { astr := true } srcs with
    | .error e => .error e
    | .ok false => .ok s
    | .ok true => .ok (writeUnif s d.toNat 2 v))

def execSaddi (d a : BitVec 5) (i : BitVec 7) (s : State) : Out :=
  unifUn s d [.unif a.toNat] (readUnif (curGroup s) s.clock a.toNat + i.signExtend 32)
def execSmovi (d : BitVec 5) (i : BitVec 14) (s : State) : Out := unifUn s d [] (i.signExtend 32)
def execSmov (d b : BitVec 5) (s : State) : Out := unifOp s {} d b [] (unifOrLit s b)

/-- ssel: s[a] if s[d] is not 0, else s[b]; s[d] is read. -/
def execSsel (d a b : BitVec 5) (s : State) : Out :=
  let g := curGroup s
  unifOp s {} d b [.unif a.toNat, .unif d.toNat]
    (if readUnif g s.clock d.toNat ≠ 0 then readUnif g s.clock a.toNat else unifOrLit s b)

/-! ### sld, sst (R243) -/

/-- The one access of sld or sst: its capability and offset, checked as for the lowest active lane. -/
def unifAccess (s : State) (a : BitVec 5) (k : BitVec 4) (n need kind lane : Nat) : Res (Cap × Nat) :=
  let c := capAt (curGroup s) s.clock k.toNat
  let off := (readUnif (curGroup s) s.clock a.toNat).toNat
  if watchHit s c off n kind then
    .error (.trap { cls := 2, code := 4, lane := lane, obj := c.obj.toNat, off := objOff c off, kind := kind })
  else match checkAccess s c lane off n need kind true with
    | .error e => .error e
    | .ok () => .ok (c, off)

/-- A width above 8 bytes, or 8 bytes with s31 as data register. -/
def unifWidthBad (d : BitVec 5) (w : BitVec 3) : Bool := decide (3 < w.toNat) || (w == 3 && d == 31)

def execSld (ctr : BitVec 3) (d a : BitVec 5) (k : BitVec 4) (w : BitVec 3) (s : State) : Out :=
  let n := widthBytes w
  finish s (counted s ctr.toNat
    (match unifCheck s { astr := true, encBad := unifWidthBad d w } [.unif a.toNat, .cap k.toNat] with
    | .error e => .error e
    | .ok false => .ok s
    | .ok true =>
      let lane := (firstLane s).getD 0
      match unifAccess s a k n 0x01 0 lane with
      | .error e => .error e
      | .ok (c, off) =>
        match readHeld s lane c.obj.toNat (objOff c off) n with
        | .error e => .error e
        | .ok (bs, t) =>
          let v := leNat bs
          let t := writeUnif t d.toNat 0 (wordOf v)
          .ok (if w = 3 then writeUnif t (d.toNat + 1) 0 (wordOf (v / 2 ^ 32)) else t)))

def execSst (ctr : BitVec 3) (d a : BitVec 5) (k : BitVec 4) (w : BitVec 3) (s : State) : Out :=
  let n := widthBytes w
  let data : List Src := if w = 3 then [.unif d.toNat, .unif (d.toNat + 1)] else [.unif d.toNat]
  finish s (counted s ctr.toNat
    (match unifCheck s { encBad := unifWidthBad d w } (.unif a.toNat :: data ++ [.cap k.toNat]) with
    | .error e => .error e
    | .ok false => .ok s
    | .ok true =>
      let lane := (firstLane s).getD 0
      match unifAccess s a k n 0x02 1 lane with
      | .error e => .error e
      | .ok (c, off) =>
        match liftMem lane c.obj.toNat (objOff c off) 1 (descOf s s.cur.core c.obj.toNat) with
        | .error e => .error e
        | .ok (e, t) =>
          match kindCheck e lane c.obj.toNat (objOff c off) 1 with
          | .error e => .error e
          | .ok () =>
            let g := curGroup s
            let v := (readUnif g s.clock d.toNat).toNat + (readUnif g s.clock (d.toNat + 1)).toNat * 2 ^ 32
            holdStore t [⟨lane, c.obj.toNat, objOff c off, n, 0, 0, leBytes n v, false⟩] ctr.toNat))

end Sys2Proof.Machine
end

