-- ==== Sys2Proof/Machine/Copy.lean ====
section
/-!
DEFINITION. Copy channels, batches, shadows (spec/04 R93 to R106, spec/12 R288 to R292): the instructions, and the steps of
a channel (COPY_START, COPY_WRITE_ACK, COPY_COMPLETE, COPY_PAGE_FAULT_HOLD, CHSTAT_ABORT, CHSTAT_RESUME, DRIVE_COMPLETION,
STORAGE_TIMEOUT).
-/

namespace Sys2Proof.Machine

/-! ### Descriptors (Table 4-2) -/

def copyWord (d : List Word) (i : Nat) : Nat := (d.getD i 0).toNat
def copyKind (d : List Word) : Nat := copyWord d 0 / 2 ^ 28
def copyQf (d : List Word) : Nat := copyWord d 0 / 2 ^ 26 % 4
def copySat (d : List Word) : Bool := (copyWord d 0).testBit 25
def srcScratch (d : List Word) : Bool := (copyWord d 0).testBit 23
def dstScratch (d : List Word) : Bool := (copyWord d 0).testBit 22
def srcReg (d : List Word) : Nat := copyWord d 0 / 2 ^ 18 % 16
def dstReg (d : List Word) : Nat := copyWord d 0 / 2 ^ 14 % 16
def copyLen (d : List Word) : Nat := copyWord d 3

/-- Bytes of FP32 data of one block, and of its encoded elements (R99). -/
def blockIn (qf : Nat) : Nat := if qf = 2 then 256 else 128
def blockOut (qf : Nat) : Nat := if qf = 1 then 16 else 32

/-- Blocks of a quantising or expanding copy. -/
def copyBlocks (d : List Word) : Nat := copyLen d / blockIn (copyQf d)

/-- The scale and superscale areas of a quantising or expanding copy: offset and size. -/
def scaleAreas (d : List Word) : List (Nat × Nat) :=
  (copyWord d 4, copyBlocks d) :: (if copyQf d = 2 then [(copyWord d 5, 4 * ((copyBlocks d + 255) / 256))] else [])

/-- The packed areas of a quantising or expanding copy: elements, scales and superscales. -/
def packedAreas (d : List Word) (elems : Nat) : List (Nat × Nat) := (elems, copyBlocks d * blockOut (copyQf d)) :: scaleAreas d

/-- Source ranges of a copy; a storage read has none in the module. -/
def srcRanges (d : List Word) : List (Nat × Nat) :=
  if copyKind d = 3 then [] else if copyKind d = 2 then packedAreas d (copyWord d 1) else [(copyWord d 1, copyLen d)]

/-- Destination ranges of a copy; a storage write has none in the module. -/
def dstRanges (d : List Word) : List (Nat × Nat) :=
  if copyKind d = 4 then [] else if copyKind d = 1 then packedAreas d (copyWord d 2) else [(copyWord d 2, copyLen d)]

/-- Bytes that the write pointer counts (R97). -/
def copyTotal (d : List Word) : Nat := if copyKind d = 1 then copyBlocks d * blockOut (copyQf d) else copyLen d

/-- Encodings of a descriptor that R95 refuses. -/
def copyBad (d : List Word) : Bool :=
  let k := copyKind d
  let q := k == 1 || k == 2
  let storage := k == 3 || k == 4
  decide (4 < k) || (q && copyQf d == 3) || (!q && copyQf d != 0) || (copySat d && !(k == 1 && copyQf d == 0))
    || copyWord d 0 % 2 ^ 12 != 0
    || copyWord d 6 / 2 ^ 16 != 0 || (!storage && copyWord d 6 != 0) || copyWord d 7 != 0 || copyLen d == 0
    || (q && ((copyWord d 1 % 4 != 0) || (copyWord d 2 % 4 != 0) || (copyWord d 4 % 4 != 0)
          || (copyQf d == 2 && copyWord d 5 % 4 != 0) || copyLen d % blockIn (copyQf d) != 0))

/-- Where a side of a copy lies: an object's id, or the scratchpad, and the start of its offsets. -/
def sideOf (scratch : Bool) (c : Cap) : Nat × Nat := if scratch then (Config.scratchObj, 0) else (c.obj.toNat, c.base.toNat)

/-- Overlapping source and destination with the destination above the source (R95). -/
def copyOverlap (d : List Word) (src dst : Cap) : Bool :=
  let a := sideOf (srcScratch d) src
  let b := sideOf (dstScratch d) dst
  srcScratch d == dstScratch d && a.1 == b.1 && (srcRanges d).any (fun x => (dstRanges d).any (fun y =>
    decide (a.2 + x.1 < b.2 + y.1) && decide (b.2 + y.1 < a.2 + x.1 + x.2)))

/-- The source range that gets right R: the scale and superscale areas of an expanding copy, which lie in the source too, get
right W (R95). -/
def readRanges (d : List Word) : List (Nat × Nat) := if copyKind d = 2 then (srcRanges d).take 1 else srcRanges d

/-- The check of one range of a copy at issue. -/
def checkRange (s : State) (scratch : Bool) (c : Cap) (lane need kind : Nat) (r : Nat × Nat) : Res Unit :=
  if scratch then
    if (curTeam s).size < r.1 + r.2 then .error (.trap { cls := 6, code := 0x03, lane := lane, obj := r.1 }) else .ok ()
  else checkAccess s c lane r.1 r.2 need kind false

/-- The capability registers that a copy reads at issue. -/
def copyCaps (d : List Word) : List Src :=
  (if srcScratch d || copyKind d == 3 then [] else [.cap (srcReg d)]) ++ (if dstScratch d || copyKind d == 4 then [] else [.cap (dstReg d)])

def execCopy (h c : BitVec 3) (a : BitVec 5) (s : State) : Out :=
  finish s (counted s c.toNat (match checkSlot s { astr := true, noLane := true, encBad := decide (24 < a.toNat) } with
    | .error e => .error e
    | .ok () =>
      match checkWait s ((upTo 8).map (fun i => .unif (a.toNat + i))) with
      | .error e => .error e
      | .ok () => after (checkUnder s ((upTo 8).map (fun i => .unif (a.toNat + i))) []) <|
        match firstLane s with
        | none => .ok s
        | some lane =>
          let ch := getChannel s s.cur.core h.toNat
          let g := curGroup s
          let d := (upTo 8).map (fun i => readUnif g s.clock (a.toNat + i))
          let src := capAt g s.clock (srcReg d)
          let dst := capAt g s.clock (dstReg d)
          if ch.state ≠ 0 then .error (.hold (.channel h.toNat))
          else match checkWait s (copyCaps d) with
          | .error e => .error e
          | .ok () => after (checkUnder s (copyCaps d) []) <|
            if copyBad d || copyOverlap d src dst then illegal 0x10
            else if decide (3 ≤ copyKind d) && !isSuper s then capFault 0x03 lane 0 0
            else
              match foldRes (fun _ r => checkRange s (srcScratch d) src lane 0x01 4 r) () (readRanges d) with
              | .error e => .error e
              | .ok () =>
                match foldRes (fun _ r => checkRange s (dstScratch d) dst lane 0x02 5 r) () (dstRanges d) with
                | .error e => .error e
                | .ok () =>
                  match foldRes (fun _ r => checkRange s (srcScratch d) src lane 0x02 4 r) () (if copyKind d = 2 then scaleAreas d else []) with
                  | .error e => .error e
                  | .ok () =>
                    let t := setChannel s s.cur.core h.toNat
                      { Channel.idle with
                        desc := d, src := src, dst := dst, group := s.cur.slot, team := g.team, batch := g.batch.opened, state := 1
                        nvst := ch.nvst, owner := storerOf s s.cur.core s.cur.slot }
                    .ok (defer (setCur t { g with batch := batchJoin g.batch }) (.copy h.toNat))))

def execRdwp (h : BitVec 3) (d : BitVec 7) (s : State) : Out :=
  let ch := getChannel s s.cur.core h.toNat
  let v := if !isLane s && ch.owner == storerOf s s.cur.core s.cur.slot then wordOf ch.wp else 0
  finish s (laneOp s { dst := some d } [] 0 0 d 1 0 (fun _ => ([v], 0)))

/-! ### Batches (R290) -/

/-- Closed batches that have not completed. -/
def openBatches (b : Batches) : Nat := (b.live.filter (fun e => e.1 != b.opened)).length

def execBfence (d : BitVec 5) (s : State) : Out :=
  finish s (match unifCheck s {} [] with
    | .error e => .error e
    | .ok false => .ok s
    | .ok true =>
      let g := curGroup s
      if 8 ≤ openBatches g.batch then .error (.hold .batches)
      else
        let t := setCur s { g with batch := { g.batch with opened := (g.batch.opened + 1) % 2 ^ 32 } }
        .ok (writeUnif t d.toNat 0 (wordOf g.batch.opened)))

/-- The oldest failed batch that a bwait on batch `n` covers, in batch number order modulo 2^32, with its code (R310). -/
def oldestFailed (b : Batches) (n : Nat) : Option (Nat × Nat) :=
  let age := fun (k : Nat) => (b.opened + 2 ^ 32 - k) % 2 ^ 32
  leastBy (fun x y => decide (age y.1 < age x.1)) (b.failed.filter (fun e => batchUpTo n e.1))

/-- bwait: a failed batch raises its matrix data fault once (R310); the fault's report is kept although the region aborts. -/
def execBwait (a : BitVec 5) (s : State) : Out :=
  match unifCheck s {} [.unif a.toNat] with
  | .error e => finish s (.error e)
  | .ok false => finish s (.ok s)
  | .ok true =>
    let g := curGroup s
    let n := (readUnif g s.clock a.toNat).toNat
    if !batchUpTo (g.batch.opened + 2 ^ 32 - 1) n then finish s (illegal 0x06)
    else if !batchesDone g.batch n then finish s (.error (.hold (.batch n)))
    else
      match oldestFailed g.batch n with
      | none => finish s (.ok s)
      | some (k, code) =>
        let t := setCur s { g with batch := { g.batch with failed := eraseKey g.batch.failed k, failedAt := eraseKey g.batch.failedAt k } }
        finish t (.error (.trap { cls := 0xA, code := code, detail := [wordOf k] }))

/-! ### Shadow and publish (R103 to R105, R291, R292) -/

/-- The check of a capability without an offset: tag, supervisor-only, rights (R20). -/
def checkCap (s : State) (c : Cap) (lane need : Nat) : Res Unit :=
  let bad := fun (code : Nat) => (.error (.trap
    { cls := 5, code := code, lane := lane, obj := c.obj.toNat, off := c.base.toNat,
      rights := need - (c.rights.toNat &&& need) }) : Res Unit)
  if !c.tag then bad 0x01
  else if c.rights.getLsbD 7 && !isSuper s then bad 0x03
  else if c.rights.toNat &&& need ≠ need then bad 0x02
  else .ok ()

/-- Home slice of an object-table entry: that of its address in object 1. -/
def entryHome (s : State) (p id : Nat) : Nat × Nat :=
  let a := entryAddr s p id % 2 ^ 41
  (a / 2 ^ 38 % 8, homeSlice 1 a)

/-- The opener recorded for an object's shadow, and its record. -/
def openerOf (s : State) (p id : Nat) : Option (Nat × Nat × Nat) :=
  let h := entryHome s p id
  find? (getSlice s h.1 h.2).openers id

def setOpener (s : State) (p id : Nat) (o : Option (Nat × Nat × Nat)) : State :=
  let h := entryHome s p id
  let z := getSlice s h.1 h.2
  setSlice s h.1 h.2 { z with openers := match o with | some x => insertKey z.openers id x | none => eraseKey z.openers id }

/-- shadow of one object by the issuing group: the result and the state. -/
def openShadow (s : State) (id : Nat) : Bool × State :=
  let p := (getCore s s.cur.core).part
  let a := entryAddr s p id
  let w := tableNat s a 8
  let who := (s.cur.core, s.cur.slot, (curRegion (curGroup s)).serial.toNat)
  if w.testBit 53 then (openerOf s p id == some who, s)
  else if tableNat s (a + 0x18) 8 % 2 ^ 41 / 4096 = 0 then (false, s)
  else (true, shootDown (setOpener (tableWrite s a (leBytes 8 (w + 2 ^ 53))) p id (some who)) p id)

/-- shadow (R291). With both destinations p0 it writes no predicate, and opens the shadow all the same (DEDUCED, entry 14). -/
def execShadow (t f : BitVec 3) (a : BitVec 4) (s : State) : Out :=
  finish s (match checkSlot s { pBad := pairPred t f } with
    | .error e => .error e
    | .ok () =>
      match checkWait s [.cap a.toNat] with
      | .error e => .error e
      | .ok () => after (checkUnder s [.cap a.toNat] []) <|
        match firstLane s with
        | none => .ok s
        | some lane =>
          let c := capAt (curGroup s) s.clock a.toNat
          match checkCap s c lane 0x10 with
          | .error e => .error e
          | .ok () =>
            match liftMem lane c.obj.toNat c.base.toNat 1 (descOf s s.cur.core c.obj.toNat) with
            | .error e => .error e
            | .ok (_, u) =>
              let r := openShadow u c.obj.toNat
              .ok (writeCond r.2 t f 0 (if r.1 then 0xFFFFFFFF else 0)))

/-- Dirty lines of an object are written back to the frames of its front map as it stands (R105); they stay as they are. -/
def flushObject (s : State) (p id : Nat) : State :=
  s.dies.foldl (fun s e => e.2.slices.foldl (fun s z => z.2.lines.foldl (fun s l =>
    if l.part == p && l.obj == id && l.dirty && !l.guest then writeBack (updateLine s e.1 z.1 { l with dirty := false }) e.1 z.1 l
    else s) s) s) s

/-- Lines of one generation of an object go, from slices and L1s: while a shadow is open, and so at its publish, none of the
generation that is to come is cached (R104, R106). -/
def dropGen (s : State) (p id : Nat) (gen : Bool) : State :=
  let s := s.dies.foldl (fun s e => e.2.slices.foldl (fun s z => z.2.lines.foldl (fun s l =>
    if l.part == p && l.obj == id && l.gen == gen then removeLine s e.1 z.1 l else s) s) s) s
  { s with cores := s.cores.map (fun e =>
      if e.2.part == p then (e.1, { e.2 with l1 := e.2.l1.filter (fun m => !(m.obj == id && m.gen == gen)) }) else e) }

/-- The swap of a publish (R105): dirty lines of the old generation go to the old front's frames, the maps change places, GEN
flips, SHOPEN clears, MAPGEN counts, and the object is invalidated everywhere. -/
def publishObject (s : State) (p id : Nat) : State :=
  let a := entryAddr s p id
  let w := tableNat s a 8
  if !w.testBit 53 then s
  else
    let s := dropGen (flushObject s p id) p id (!w.testBit 54)
    let m := tableNat s (a + 8) 8
    let front := tableNat s (a + 0x10) 8
    let shadow := tableNat s (a + 0x18) 8
    let w' := (w ^^^ 2 ^ 54) - 2 ^ 53
    let m' := m % 2 ^ 48 + (m / 2 ^ 48 + 1) % 2 ^ 16 * 2 ^ 48
    let s := tableWrite s a (leBytes 8 w' ++ leBytes 8 m' ++ leBytes 8 shadow ++ leBytes 8 front)
    shootDown (setOpener s p id none) p id

def execPublish (k : BitVec 4) (s : State) : Out :=
  finishRelease s (fun s => counted s 7
    (match checkSlot s {} with
    | .error e => .error e
    | .ok () =>
      match checkWait s [.cap k.toNat] with
      | .error e => .error e
      | .ok () => after (checkUnder s [.cap k.toNat] []) <|
        match firstLane s with
        | none => .ok s
        | some lane =>
          let c := capAt (curGroup s) s.clock k.toNat
          match checkCap s c lane 0x10 with
          | .error e => .error e
          | .ok () =>
            match liftMem lane c.obj.toNat c.base.toNat 1 (descOf s s.cur.core c.obj.toNat) with
            | .error e => .error e
            | .ok (_, u) =>
              let p := (getCore u u.cur.core).part
              let h := entryHome u p c.obj.toNat
              match loggedOp u u.cur.core u.cur.slot h.1 h.2 with
              | .error e => .error e
              | .ok u => .ok (publishObject u p c.obj.toNat)))

/-! ### Moving data (R96 to R100) -/

/-- Why a channel stops: a page fault (object, offset, code, map, kind), a request parked on a migrating page, a refusal, or
poison. -/
inductive CopyStop where
  | page (obj off code : Nat) (shadow : Bool) (kind : Nat)
  | park (obj off : Nat)
  | fail
  | poison (obj off code : Nat)
deriving DecidableEq, Repr

/-- A memory error of a channel. -/
def copyStop (obj off kind : Nat) (shadow : Bool) (e : MemErr) : CopyStop :=
  match e with
  | .page c => .page obj off c shadow kind
  | .migrating o a => .park o a
  | .poison c => .poison obj off c
  | .cap _ => .fail

/-- Read bytes of a copy's source side: object bytes at the home (R98), scratchpad bytes from the banks, none of them poisoned
(R71). -/
def copyRead (s : State) (c : Nat) (ch : Channel) (off n : Nat) : Except CopyStop (List Byte × State) :=
  if srcScratch ch.desc then
    let a := (getTeam s c ch.team).scratch + off
    if spoiled (getCore s c) a n then .error (.poison 0 off 0x01)
    else .ok (memBytes (getCore s c).scratch a n, s)
  else
    let id := ch.src.obj.toNat
    let a := ch.src.base.toNat + off
    match descOf s c id with
    | .error _ => .error .fail
    | .ok (e, s) => match readHome s (getCore s c).part e a n with
      | .error x => .error (copyStop id a 4 false x)
      | .ok r => .ok r

/-- Write bytes of a copy's destination side: through the shadow map while one is open (R104), else as stores of the
issuing core; a code object with XE set or a coverage object is refused (R22). -/
def copyWrite (s : State) (c : Nat) (ch : Channel) (off : Nat) (bs : List Byte) : Except CopyStop State :=
  if dstScratch ch.desc then
    .ok (scratchPut s c ch.team off bs)
  else
    let id := ch.dst.obj.toNat
    let a := ch.dst.base.toNat + off
    match descOf s c id with
    | .error _ => .error .fail
    | .ok (e, s) =>
      if (e.kind == 1 && e.xe) || e.kind == 4 then .error .fail
      else if e.shopen then
        match writeShadow s (getCore s c).part e a bs false with
        | .error x => .error (copyStop id a 5 true x)
        | .ok s => .ok s
      else
        match writeObjectBy ch.owner s (getCore s c).part (some c) e a bs false with
        | .error x => .error (copyStop id a 5 false x)
        | .ok s => .ok s

/-- FP32 codes of some bytes. -/
def wordCodes (bs : List Byte) : List Nat := (upTo (bs.length / 4)).map (fun i => leNat ((bs.drop (4 * i)).take 4))

/-- Pack codes of `e` bits, 8 or 4, little-endian into bytes (R90). -/
def packCodes (e : Nat) : List Nat → List Byte
  | [] => []
  | [x] => [BitVec.ofNat 8 x]
  | x :: y :: r => if e = 8 then BitVec.ofNat 8 x :: packCodes e (y :: r) else BitVec.ofNat 8 (x % 16 + 16 * (y % 16)) :: packCodes e r

/-- Element codes of packed bytes. -/
def unpackCodes (e : Nat) (bs : List Byte) : List Nat :=
  if e = 8 then bs.map (·.toNat) else bs.flatMap (fun b => [b.toNat % 16, b.toNat / 16])

/-- Superscale of a chunk: the power of two above its largest finite magnitude, at most 2^127; 0 for none (R99). -/
def superOf (xs : List Fp) : Nat :=
  let m := amaxOf (xs.filter isFinite)
  if m.num = 0 then 0
  else
    let k := dyLog2 m + 1
    (packFp fp32 0 false (.fin false 1 (if k ≤ 127 then k else 127))).1

/-- Block scale of a QN4 block: superscale × code8 / 256. -/
def blockScale (ss code : Nat) : Dy :=
  let d := dyOf (unpack fp32 ss)
  ⟨d.num * code, d.exp - 8⟩

/-- Encode one block: its scale byte and element bytes. Infinite and NaN inputs encode as an unsaturated conversion does (R101). -/
def encodeBlock (qf : Nat) (sat : Bool) (ss : Nat) (codes : List Nat) : Nat × List Byte :=
  let xs := codes.map (unpack fp32)
  if qf = 2 then
    let c := (chooseQn (unpack fp32 ss) xs).1
    (c, packCodes 4 (if c = 0 then xs.map (fun _ => 0) else xs.map (fun v => (qnEncode v (blockScale ss c)).1)))
  else
    let c := chooseE8 qf sat xs
    (c, packCodes (if qf = 0 then 8 else 4) (xs.map (fun v => (narrowVal (blockFmt qf) (sat && isFinite v) (scaleFp v (127 - (c : Int)))).1)))

/-- Decode one block to FP32 codes (R100). -/
def decodeBlock (qf : Nat) (scale ss : Nat) (elems : List Byte) : List Nat :=
  if qf = 2 then
    (unpackCodes 4 elems).map (fun x =>
      if scale = 0 then 0
      else match unpack fp32 ss with
        | .fin n _ _ =>
          let v := qnDecode x (blockScale ss scale)
          (roundFmt fp32 0 false (x.testBit 3 != n) v.num.natAbs v.exp false).1
        | _ => fp32.nanCode)
  else
    (unpackCodes (if qf = 0 then 8 else 4) elems).map (fun x =>
      match e8Exp scale with
      | none => fp32.nanCode
      | some c => (packFp fp32 0 false (scaleFp (unpack (blockFmt qf) x) c)).1)

/-- What a quantising piece of `n` blocks from block `b` on writes, from its source bytes, for QN4 those of its whole chunk: the chunk's
superscale with its first piece, scales, elements; and whether an input was infinite or a NaN. -/
def quantPuts (d : List Word) (b n : Nat) (bs : List Byte) : List (Nat × List Byte) × Bool :=
  let qf := copyQf d
  let all := wordCodes bs
  let ss := if qf = 2 then superOf (all.map (unpack fp32)) else 0
  let per := blockIn qf / 4
  let codes := (all.drop (if qf = 2 then b % 256 * per else 0)).take (n * per)
  let out := (upTo n).map (fun i => encodeBlock qf (copySat d) ss ((codes.drop (i * per)).take per))
  ((if qf = 2 && b % 256 = 0 then [(copyWord d 5 + 4 * (b / 256), leBytes 4 ss)] else [])
    ++ [(copyWord d 4 + b, out.map (fun x => BitVec.ofNat 8 x.1)), (copyWord d 2 + b * blockOut qf, out.flatMap (·.2))],
   codes.any (fun x => !isFinite (unpack fp32 x)))

/-- What an expanding piece, block `b`, writes, from its elements, scale and superscale. -/
def expandPuts (d : List Word) (b : Nat) (bs : List Byte) : List (Nat × List Byte) :=
  let n := blockOut (copyQf d)
  [(copyWord d 2 + b * blockIn (copyQf d),
    (decodeBlock (copyQf d) (leNat ((bs.drop n).take 1)) (leNat (bs.drop (n + 1))) (bs.take n)).flatMap (fun x => leBytes 4 x))]

/-- Blocks of the next piece of a quantising copy: those of 128 element bytes (R97). -/
def quantBlocks (d : List Word) (b : Nat) : Nat := Nat.min (128 / blockOut (copyQf d)) (copyBlocks d - b)

/-- Blocks whose source bytes a piece of a quantising copy needs: its own, for QN4 those of its chunk. -/
def quantSource (d : List Word) (b : Nat) : Nat × Nat :=
  if copyQf d = 2 then (b / 256 * 256, Nat.min 256 (copyBlocks d - b / 256 * 256)) else (b, quantBlocks d b)

/-- The source ranges of the next piece of a copy. -/
def pieceReads (ch : Channel) : List (Nat × Nat) :=
  let d := ch.desc
  match copyKind d with
  | 0 => [(copyWord d 1 + ch.got, Nat.min 128 (copyTotal d - ch.got))]
  | 1 =>
    let b := quantSource d (ch.got / blockOut (copyQf d))
    [(copyWord d 1 + b.1 * blockIn (copyQf d), b.2 * blockIn (copyQf d))]
  | 2 =>
    let b := ch.got / blockIn (copyQf d)
    [(copyWord d 1 + b * blockOut (copyQf d), blockOut (copyQf d)), (copyWord d 4 + b, 1)]
      ++ (if copyQf d = 2 then [(copyWord d 5 + 4 * (b / 256), 4)] else [])
  | 4 => [(copyWord d 1, copyLen d)]
  | _ => []

/-- What the next piece of a copy writes, from the bytes it has read, that of the area which the write pointer counts last; and whether
it met an infinite or NaN input. -/
def piecePuts (ch : Channel) : List (Nat × List Byte) × Bool :=
  let d := ch.desc
  match copyKind d with
  | 0 => ([(copyWord d 2 + ch.got, ch.buf)], false)
  | 1 =>
    let b := ch.got / blockOut (copyQf d)
    quantPuts d b (quantBlocks d b) ch.buf
  | 2 => (expandPuts d (ch.got / blockIn (copyQf d)) ch.buf, false)
  | 3 => ([(copyWord d 2 + ch.got, ch.buf)], false)
  | _ => ([], false)

/-- Bytes delivered after the piece. -/
def pieceEnd (ch : Channel) : Nat :=
  let d := ch.desc
  match copyKind d with
  | 0 => ch.got + Nat.min 128 (copyTotal d - ch.got)
  | 1 => ch.got + quantBlocks d (ch.got / blockOut (copyQf d)) * blockOut (copyQf d)
  | 2 => ch.got + blockIn (copyQf d)
  | 3 => ch.got + ch.buf.length
  | _ => 0

/-- A range of one side of a copy in pieces that lie in one line each; the scratchpad has no lines. -/
def sidePieces (scratch : Bool) (c : Cap) (r : Nat × Nat) : List (Nat × Nat) :=
  if scratch then [r]
  else (linePieces (r.2 / 128 + 2) (c.base.toNat + r.1) r.2).map (fun x => (x.1 - c.base.toNat, x.2))

/-- The line pieces of some ranges that follow their first `n` bytes, which end at a piece's end. -/
def afterBytes : Nat → List (Nat × Nat) → List (Nat × Nat)
  | _, [] => []
  | n, x :: r => if n = 0 then x :: r else afterBytes (n - x.2) r

/-- Read source pieces, line by line, into the channel's buffer; the first that fails stops the channel there. -/
def readPieces (c n : Nat) : List (Nat × Nat) → State → State × Option CopyStop
  | [], s => (s, none)
  | x :: r, s =>
    match copyRead s c (getChannel s c n) x.1 x.2 with
    | .error e => (s, some e)
    | .ok (bs, t) =>
      let ch := getChannel t c n
      readPieces c n r (setChannel t c n { ch with buf := ch.buf ++ bs })

/-- The write pointer once every byte below a count is delivered: a multiple of 128 bytes, or the final count (R97). -/
def pointerAt (d : List Word) (e : Nat) : Nat := if e = copyTotal d then e else e / 128 * 128

/-- Write destination pieces, line by line, the write pointer following those of the area that it counts; the first that fails stops
the channel there (R97, R102). -/
def writePieces (c n : Nat) : List (Nat × List Byte × Bool) → State → State × Option CopyStop
  | [], s => (s, none)
  | x :: r, s =>
    match copyWrite s c (getChannel s c n) x.1 x.2.1 with
    | .error e => (s, some e)
    | .ok t =>
      let ch := getChannel t c n
      let wp := if x.2.2 then pointerAt ch.desc (x.1 + x.2.1.length - copyWord ch.desc 2) else ch.wp
      writePieces c n r (setChannel t c n { ch with pieces := ch.pieces + 1, wp := wp })

/-- A range to write in line pieces, with whether the write pointer counts it. -/
def putRange (ch : Channel) (x : Nat × List Byte) (counted : Bool) : List (Nat × List Byte × Bool) :=
  (sidePieces (dstScratch ch.desc) ch.dst (x.1, x.2.length)).map (fun y => (y.1, (x.2.drop (y.1 - x.1)).take y.2, counted))

/-- Ranges to write, in line pieces; the write pointer counts the last. -/
def putPieces (ch : Channel) (puts : List (Nat × List Byte)) : List (Nat × List Byte × Bool) :=
  puts.dropLast.flatMap (fun x => putRange ch x false) ++ puts.getLast?.toList.flatMap (fun x => putRange ch x true)

/-- The channel's buffer after a piece: a chunk of a QN4 quantise stays until its last piece. -/
def bufAfter (ch : Channel) (e : Nat) : List Byte :=
  if copyKind ch.desc = 1 && copyQf ch.desc = 2 && e % (256 * blockOut 2) ≠ 0 then ch.buf else []

/-- A piece of a copy, from where the channel stands in it: its source lines are read, then its destination lines are written. The
answer: whether it met an input that sets CNAN, and why the channel stopped. -/
def copyPiece (s : State) (c n : Nat) : State × Bool × Option CopyStop :=
  let ch := getChannel s c n
  let reads := (pieceReads ch).flatMap (sidePieces (srcScratch ch.desc) ch.src)
  match readPieces c n (if copyKind ch.desc = 3 then [] else afterBytes ch.buf.length reads) s with
  | (s, some x) => (s, false, some x)
  | (s, none) =>
    let ch := getChannel s c n
    let puts := piecePuts ch
    match writePieces c n ((putPieces ch puts.1).drop ch.pieces) s with
    | (s, some x) => (s, puts.2, some x)
    | (s, none) =>
      let ch := getChannel s c n
      if copyKind ch.desc = 4 then (s, false, none)
      else
        let e := pieceEnd ch
        (setChannel s c n { ch with got := e, wp := pointerAt ch.desc e, buf := bufAfter ch e, pieces := 0 }, puts.2, none)

/-! ### The steps of a channel -/

/-- Raise CPSTAT bits of a copy's group: bit 0 CFAIL, bit 1 CNAN. -/
def raiseCp (s : State) (c slot : Nat) (b : BitVec 2) : State :=
  if Config.groupSlots ≤ slot then s else
  let g := getGroup s c slot
  setGroup s c slot (keepRaised { g with spec := { g.spec with cpstat := g.spec.cpstat ||| b } } (b.zeroExtend 10 <<< 7))

/-- A group's machine check from an engine: its last region aborts (R102). -/
def engineCheck (s : State) (c slot obj off code : Nat) : State :=
  let g := getGroup s c slot
  let last := g.regions.length - 1
  let pc := (getQuad g ((gangOf g).headD 0)).pc
  if !g.resident then s
  else takeGroupTrap s c slot last (groupOrigin s c slot last pc (curRegion g).slots)
    { cls := 1, code := code, obj := obj, off := off, kind := 4 }

/-- End a channel's copy (R98, R101): idle, the pointer stays, the batch counts it complete, a failure sets CFAIL. -/
def endCopy (s : State) (c n : Nat) (fail : Bool) (nvst : Option Nat) : State :=
  let ch := getChannel s c n
  let s := setChannel s c n { ch with state := 0, fault := fail, nvst := nvst.getD ch.nvst }
  if 128 ≤ ch.group then pushDue s [⟨.groupEnd, { core := c, unit := ch.group, obj := ch.team }⟩]
  else if Config.groupSlots ≤ ch.group then s else
  let g := getGroup s c ch.group
  let s := setGroup s c ch.group { g with batch := batchDone g.batch ch.batch }
  if fail then raiseCp s c ch.group 1 else s

/-- The step by which a channel goes on. -/
def copyOn (c n : Nat) : Due := ⟨.copyWriteAck, { core := c, unit := n }⟩

/-- Stop a channel as its access says: held, parked at its port until an extinv of the object (R40), failed, or failed with a
machine check; poisoned bytes of a storage write are refused (R405). -/
def stopCopy (s : State) (c n : Nat) (x : CopyStop) : State :=
  let failed := pushDue s [⟨.copyComplete, { core := c, unit := n, flag := true }⟩]
  match x with
  | .page obj off code shadow kind =>
    pushDue s [⟨.copyPageFaultHold, { core := c, unit := n, obj := obj, off := off, value := code, extra := kind, flag := shadow }⟩]
  | .park obj off =>
    match readEntry s (getCore s c).part obj with
    | some e => parkAt s (getCore s c).part e off (copyOn c n)
    | none => failed
  | .fail => failed
  | .poison obj off code =>
    let ch := getChannel s c n
    if copyKind ch.desc = 4 then failed else engineCheck failed c ch.group obj off code

/-- Sizes and alignments that a storage copy must meet: an offset into an object is a multiple of 4,096 (R101). -/
def storageBad (ch : Channel) : Bool :=
  let d := ch.desc
  let read := copyKind d == 3
  let off := if read then ch.dst.base.toNat + copyWord d 2 else ch.src.base.toNat + copyWord d 1
  copyLen d % 512 != 0 || (!(if read then dstScratch d else srcScratch d) && off % 4096 != 0)

/-- A storage copy that fails before its drive is asked: by its size or alignment (R101), or at port 0 while that port is a host's
endpoint (R406, R407). -/
def storageRefused (s : State) (ch : Channel) : Bool := storageBad ch || (s.boot.host && copyWord ch.desc 0 / 2 ^ 12 % 4 == 0)

/-- The circuit that a copy with the hint asks for (R76): between its core and the home slice of the first line of its object side,
in the direction of the data, if that slice is on the core's die. -/
def copyCircuit (s : State) (c : Nat) (ch : Channel) : List Due :=
  let d := ch.desc
  let side := if dstScratch d then (ch.src, copyWord d 1, 1) else (ch.dst, copyWord d 2, 0)
  let off := side.1.base.toNat + side.2.1
  if !(copyWord d 0).testBit 24 || (srcScratch d && dstScratch d) || decide (2 < copyKind d) then []
  else match readEntry s (getCore s c).part side.1.obj.toNat with
    | none => []
    | some e =>
      let z := homeSlice e.id off
      if homeDie e off = dieOf c then
        [⟨.circuitSetup, { core := c, unit := 8 * (z / 2) + 5 + z % 2, flag := true, extra := side.2.2, len := (copyLen d + 127) / 128 }⟩]
      else []

/-- COPY_START: a queued copy whose region has committed begins to move data (R96). -/
def execCopyStart (s : State) : Out :=
  let c := s.ev.core
  let n := s.ev.unit
  let ch := getChannel s c n
  .next (if ch.state ≠ 1 || (getCore s c).stopped.isSome then s
    else
      let s := setChannel s c n { ch with state := 2 }
      if decide (2 < copyKind ch.desc) && storageRefused s ch then pushDue s [⟨.driveCompletion, { core := c, unit := n, flag := true }⟩]
      else if copyKind ch.desc = 3 then s
      else pushDue s (copyCircuit s c ch ++ [copyOn c n]))

/-- COPY_WRITE_ACK: the channel goes on with the next piece, or with the one it was stopped in, and its pointer advances (R97). -/
def execCopyWriteAck (s : State) : Out :=
  let c := s.ev.core
  let n := s.ev.unit
  let ch := getChannel s c n
  .next (if ch.state ≠ 2 then s
    else match copyPiece s c n with
      | (s, nan, some x) => stopCopy (if nan then raiseCp s c ch.group 2 else s) c n x
      | (s, nan, none) =>
        let s := if nan then raiseCp s c ch.group 2 else s
        if (getChannel s c n).wp = copyTotal ch.desc then pushDue s [⟨.copyComplete, { core := c, unit := n }⟩]
        else if 2 < copyKind ch.desc then s
        else pushDue s [copyOn c n])

/-- COPY_COMPLETE: the copy ends; `flag` says that it failed (R98, R101). -/
def execCopyComplete (s : State) : Out :=
  let ch := getChannel s s.ev.core s.ev.unit
  .next (if ch.state = 0 then s else endCopy s s.ev.core s.ev.unit s.ev.flag none)

/-- A record that no group owns goes to the supervisor queue of its core, or waits for a free record (R345, R346). -/
def unitRecord (s : State) (c src unit : Nat) (t : Trap) (dest : Bool) : State :=
  let told := syndrome s t
  let t := told.1
  let s := told.2
  let k := getCore s c
  match freeRecord k 480 512 with
  | some h =>
    setCore s c (writeRecord (recordTime s 127) k h (recordWords (Origin.nonGroup src unit) t dest) ⟨.pending, 0, t.cls, src, unit, 0, 0, dest⟩)
  | none =>
    if t.cls = 1 then stopCore s c 0 t.cls t.code
    else setCore s c { k with heldRecs := k.heldRecs ++
      [⟨recordWords (Origin.nonGroup src unit) t dest, ⟨.pending, 0, t.cls, src, unit, 0, 0, dest⟩⟩] }

/-- The firmware copy engine of a die: channel 8 of the core that serves the firmware core; its page faults go to that core's
supervisor lane (R388). -/
def fwChannel : Nat := 8

/-- COPY_PAGE_FAULT_HOLD: the channel holds and its record goes to the supervisor queue (R102). -/
def execCopyPageFaultHold (s : State) : Out :=
  let e := s.ev
  let ch := getChannel s e.core e.unit
  .next (if ch.state ≠ 2 then s
    else unitRecord (setChannel s e.core e.unit { ch with state := 3 }) e.core 1 e.unit
      { cls := 7, code := e.value, obj := e.obj, off := e.off, shadow := e.flag, kind := e.extra } (e.unit == fwChannel))

/-- A copy that is queued on a channel leaves its group's regions: their commit starts none, and their abort cancels none (R96). -/
def unqueueCopy (s : State) (c n : Nat) : State :=
  let ch := getChannel s c n
  if ch.state ≠ 1 || decide (Config.groupSlots ≤ ch.group) then s
  else
    let g := getGroup s c ch.group
    setGroup s c ch.group { g with regions := g.regions.map (fun r =>
      { r with deferred := r.deferred.filter (fun q => q.effect != .copy n) }) }

/-- End a copy that has not ended, with FAULT set. -/
def failCopy (s : State) (c n : Nat) (nvst : Option Nat) : State :=
  if (getChannel s c n).state = 0 then s else endCopy (unqueueCopy s c n) c n true nvst

/-- CHSTAT_ABORT: writing ABORT ends the copy; the pointer stops and FAULT is set (R101). -/
def execChstatAbort (s : State) : Out := .next (failCopy s s.ev.core s.ev.unit none)

/-- CHSTAT_RESUME: a held copy goes on from the faulting line (R102). -/
def execChstatResume (s : State) : Out :=
  let c := s.ev.core
  let n := s.ev.unit
  let ch := getChannel s c n
  .next (if ch.state ≠ 3 then s else pushDue (setChannel s c n { ch with state := 2 }) [copyOn c n])

/-- DRIVE_COMPLETION of a storage copy: a size or alignment error (`flag`: no command went out, or the namespace's block size does
not divide LEN) fails it with NVST 0; a drive status other than 0 fails it with NVST, also while it is held; the data of a read go
on from what has been delivered, as an external write; a write whose data the drive has taken completes (R101). -/
def execDriveCompletion (s : State) : Out :=
  let e := s.ev
  let ch := getChannel s e.core e.unit
  .next (if ch.state < 2 || decide (copyKind ch.desc < 3) then s
    else if e.flag then failCopy s e.core e.unit (some 0)
    else if e.value ≠ 0 then failCopy s e.core e.unit (some (e.value % 2 ^ 16))
    else if copyKind ch.desc = 4 then
      (if ch.buf.length < copyLen ch.desc then s
      else endCopy (setChannel s e.core e.unit { ch with got := copyLen ch.desc, wp := copyLen ch.desc, buf := [] }) e.core e.unit false none)
    else
      let t := setChannel s e.core e.unit { ch with buf := ch.buf ++ e.bytes.take (copyLen ch.desc - ch.got - ch.buf.length) }
      if ch.state = 2 then pushDue t [copyOn e.core e.unit] else t)

/-- STORAGE_TIMEOUT: a storage command timed out after 1 s and its copy fails with NVST 0, also while it is held (R101). -/
def execStorageTimeout (s : State) : Out :=
  let ch := getChannel s s.ev.core s.ev.unit
  .next (if 2 ≤ ch.state && decide (2 < copyKind ch.desc) then failCopy s s.ev.core s.ev.unit (some 0) else s)

end Sys2Proof.Machine
end

