-- ==== Sys2Proof/Machine/Sync.lean ====
section
/-!
DEFINITION. Synchronisation: barriers (spec/11 R258, R259), stage queues (R260, R261), tagged messages (R262 to R264) with
MESSAGE_ARRIVAL, and the span barrier (R265).
-/

namespace Sys2Proof.Machine

/-- The checks of an instruction that the group executes once and not while parted; whether a lane is active. -/
def onceCheck (s : State) (o : OpInfo) (srcs : List Src) : Res Bool :=
  match checkSlot s { o with noLane := true } with
  | .error e => .error e
  | .ok () =>
    if isParted (curGroup s) then trapNow 4 0x01
    else match checkWait s srcs with
      | .error e => .error e
      | .ok () => after (checkUnder s srcs []) <| .ok (!(activeLanes s).isEmpty)

/-- A scratch-bounds fault of an engine range, code 0x03 (Table 3-3). -/
def scratchFault {α : Type} (s : State) (off : Nat) : Res α :=
  .error (.trap { cls := 6, code := 3, lane := (firstLane s).getD 0, obj := off })

/-! ### Barriers (R258, R259) -/

/-- The barrier word (Table 11-3). -/
def barrierWord (b : Barrier) (active : Bool) : Nat :=
  (if active then 2 ^ 63 else 0) + b.phase % 256 * 2 ^ 48 + b.arrived.length * 2 ^ 32 + b.members.length

/-- The active barrier at an offset. -/
def getBarrier (t : Team) (off : Nat) : Option Barrier := t.barriers.find? (fun b => b.offset == off)

/-- Keep a barrier's tracking state, and its word in the bank. -/
def putBarrier (s : State) (c team : Nat) (b : Barrier) : State :=
  let t := getTeam s c team
  let k := getCore s c
  let s := setCore s c (putScratch k (t.scratch + b.offset) (leBytes 8 (barrierWord b true)))
  setTeam s c team { t with barriers := t.barriers.map (fun x => if x.offset == b.offset then b else x) }

/-- Activate a barrier with PHASE, ARRIVED and MEMBERS 0. -/
def makeBarrier (s : State) (c team off : Nat) : State :=
  let t := getTeam s c team
  putBarrier (setTeam s c team { t with barriers := t.barriers ++ [⟨off, 0, [], []⟩] }) c team ⟨off, 0, [], []⟩

/-- Retire a barrier: its final word stays, with ACTIVE clear (R258). -/
def retireBarrier (s : State) (c team : Nat) (b : Barrier) : State :=
  let t := getTeam s c team
  let k := getCore s c
  let s := setCore s c (putScratch k (t.scratch + b.offset) (leBytes 8 (barrierWord ⟨b.offset, b.phase, [], []⟩ false)))
  setTeam s c team { t with barriers := t.barriers.filter (fun x => x.offset != b.offset) }

/-- Complete the phase when every member has arrived, or when a drop left none (R259). -/
def testPhase (b : Barrier) (dropped : Bool) : Barrier :=
  if (0 < b.members.length && b.arrived.length == b.members.length) || (dropped && b.members.isEmpty)
  then { b with phase := (b.phase + 1) % 256, arrived := [] } else b

def arriveAt (b : Barrier) (g : Nat) : Barrier := testPhase { b with arrived := insertNat b.arrived g } false

def dropFrom (b : Barrier) (g : Nat) : Barrier :=
  testPhase { b with arrived := b.arrived.filter (· != g), members := b.members.filter (· != g) } true

/-- The offset of a barrier instruction, checked (R258). -/
def barrierOff (s : State) (a : BitVec 5) : Res Nat :=
  let off := (readUnif (curGroup s) s.clock a.toNat).toNat
  if off % 8 ≠ 0 || decide ((curTeam s).size < off + 8) then scratchFault s off else .ok off

/-- What a barrier instruction checks at issue: the offset of its word; none with no active lane. -/
def barrierCheck (s : State) (a : BitVec 5) (srcs : List Src) : Res (Option Nat) :=
  match onceCheck s {} (.unif a.toNat :: srcs) with
  | .error e => .error e
  | .ok false => .ok none
  | .ok true => (barrierOff s a).map some

/-- The outcome of a barrier instruction: the conditions of Table 11-4, `f` on the word, are tested when it performs (R259). -/
def finishBarrier (s : State) (ret : State → State) (a : BitVec 5) (srcs : List Src) (f : State → Nat → Res State) : Out :=
  finishReleaseWith s ret ((barrierCheck s a srcs).map (fun _ => ())) (fun t => match barrierCheck s a srcs with
    | .error e => .error e
    | .ok none => .ok t
    | .ok (some off) => f t off)

/-- An operation on an active barrier; `f` refuses with code 0x06. -/
def onBarrier (f : State → Barrier → Res State) (s : State) (off : Nat) : Res State :=
  match getBarrier (curTeam s) off with
  | none => illegal 0x06
  | some b => f s b

def execBarInit (a b : BitVec 5) (s : State) : Out :=
  finishBarrier s retire a [.unif b.toNat] (fun s off =>
    let n := (curGroup s).team
    match readUnif (curGroup s) s.clock b.toNat, getBarrier (curTeam s) off with
    | 0, none =>
      if (curLaunch s).barriers ≤ (curTeam s).barriers.length then illegal 0x06 else .ok (makeBarrier s s.cur.core n off)
    | 1, some x => if x.members.isEmpty then .ok (retireBarrier s s.cur.core n x) else illegal 0x06
    | _, _ => illegal 0x06)

def execBarReg (a : BitVec 5) (s : State) : Out :=
  finishBarrier s retire a [] (onBarrier (fun s b =>
    .ok (putBarrier s s.cur.core (curGroup s).team { b with members := insertNat b.members s.cur.slot })))

/-- The group can arrive: it is registered and has not arrived. -/
def mayArrive (s : State) (b : Barrier) : Bool := b.members.contains s.cur.slot && !b.arrived.contains s.cur.slot

def execBarArr (d a : BitVec 5) (s : State) : Out :=
  finishBarrier s retire a [] (onBarrier (fun s b =>
    if !mayArrive s b then illegal 0x06
    else .ok (writeUnif (putBarrier s s.cur.core (curGroup s).team (arriveAt b s.cur.slot)) d.toNat 0 (wordOf b.phase))))

def execBarWait (a b : BitVec 5) (s : State) : Out :=
  finishBarrier s retire a [.unif b.toNat] (onBarrier (fun s x =>
    let ph := (readUnif (curGroup s) s.clock b.toNat).toNat % 256
    if x.phase = ph then .error (.hold (.barrier x.offset ph s.cur.pc false)) else .ok (acquireAt s 2)))

/-- The PC of the instruction that a wait belongs to. -/
def waitPc (p : Park) : Word :=
  match p with
  | .barrier _ _ pc _ | .span _ _ pc => pc
  | _ => 0

/-- The wait, once abandoned, of the instruction being issued: its arrival has performed (R255, R266). -/
def abandoned (s : State) : Option Park := (curGroup s).user.waits.find? (fun p => waitPc p == s.cur.pc)

/-- The waiting instruction executed again: it only waits, for the phase that it arrived in. -/
def waitAgain (s : State) (p : Park) (scope : Nat) (check : Res Bool) : Out :=
  finishRegionBy s
    (fun t => if parkOver t t.cur.core t.cur.slot p then retire (acquireAt t scope) else retireParked t p)
    (match check with
      | .error e => .error e
      | .ok _ =>
        let g := curGroup s
        .ok (setCur s { g with user := { g.user with waits := g.user.waits.erase p } }))

/-- bar.aw arrives, ends its region and waits at the slot after, unless its arrival completed the phase. -/
def execBarAw (a : BitVec 5) (s : State) : Out :=
  match abandoned s with
  | some p => waitAgain s p 2 (onceCheck s {} [.unif a.toNat])
  | none =>
    let off := (readUnif (curGroup s) s.clock a.toNat).toNat
    finishBarrier s
      (fun t => match getBarrier (curTeam t) off with
        | some b => if b.arrived.contains t.cur.slot && !(activeLanes s).isEmpty then
              retireParked t (.barrier off b.phase s.cur.pc true)
            else retire (acquireAt t 2)
        | none => retire t)
      a [] (onBarrier (fun s b =>
        if !mayArrive s b then illegal 0x06
        else .ok (putBarrier s s.cur.core (curGroup s).team (arriveAt b s.cur.slot))))

def execBarDrop (a : BitVec 5) (s : State) : Out :=
  finishBarrier s retire a [] (onBarrier (fun s b =>
    if !b.members.contains s.cur.slot then illegal 0x06
    else .ok (putBarrier s s.cur.core (curGroup s).team (dropFrom b s.cur.slot))))

/-! ### Stage queues (R260, R261) -/

/-- The queue of an instruction: the role must allow it, and its ring must lie in the allocation (R261, Table 3-3). -/
def queueCheck (s : State) (n : Nat) (allowed : Bool) : Res StageQueue :=
  let q := getQueue (curTeam s) n
  if !hasKey (curTeam s).queues n || !allowed then illegal 0x06
  else if (curTeam s).size < q.offset + 4 * q.depth then scratchFault s q.offset
  else .ok q

/-- The role of the issuing group. -/
def curRole (s : State) : Role := lookup (curLaunch s).roles (curGroup s).role ⟨0, 1, 0, 0, 1, none, none⟩

def setQueue (s : State) (n : Nat) (q : StageQueue) : State :=
  let t := curTeam s
  setCurTeam s { t with queues := insertKey t.queues n q }

def execSqput (q : BitVec 2) (a : BitVec 7) (s : State) : Out :=
  let o : OpInfo := { noLane := true, srcA := some a }
  finishRelease s (fun s =>
    match onceCheck s o [] with
    | .error e => .error e
    | .ok _ =>
      match readSources s o [.reg a 0] with
      | .error e => .error e
      | .ok (vals, t) => after (checkUnder s [.reg a 0] []) <|
        match firstLane s with
        | none => .ok s
        | some i =>
          match queueCheck s q.toNat ((curRole s).outq == some q.toNat) with
          | .error e => .error e
          | .ok x =>
            if x.depth ≤ queueCount x then .error (.hold (.queueFull q.toNat))
            else
              let t := scratchPut t t.cur.core (curGroup t).team (x.offset + 4 * (x.put % x.depth))
                (leBytes 4 (laneVal (vals.getD 0 []) i).toNat)
              .ok (applyLast (setQueue t q.toNat { x with put := x.put + 1 }) o 1 0 []))

/-- While sqget waits, what its region holds is to commit (R142). -/
def commitParked (s : State) : State :=
  let r := curRegion (curGroup s)
  if r.deferred.isEmpty && r.stores.all (·.drained) then s
  else pushDue s [⟨.regionCommit, { core := s.cur.core, unit := s.cur.slot, flag := true }⟩]

def execSqget (q : BitVec 2) (d : BitVec 7) (s : State) : Out :=
  let o : OpInfo := { noLane := true, dst := some d }
  finishRelease s (fun s => match onceCheck s o [] with
    | .error e => .error e
    | .ok false => .ok s
    | .ok true =>
      match queueCheck s q.toNat ((curRole s).inq == some q.toNat) with
      | .error e => .error e
      | .ok x =>
        if queueCount x = 0 then .error (.lateHold (commitParked s) (.queueEmpty q.toNat))
        else if scratchBad s (x.offset + 4 * (x.removed % x.depth)) 4 then spoiledTrap s (x.offset + 4 * (x.removed % x.depth))
        else
          let v := wordOf (memNat (getCore s s.cur.core).scratch ((curTeam s).scratch + x.offset + 4 * (x.removed % x.depth)) 4)
          match writeDst s d 0 [List.replicate 32 v] with
          | .error e => .error e
          | .ok t => .ok (acquireAt (setQueue t q.toNat { x with removed := x.removed + 1 }) 2))

def execSqpeek (q : BitVec 2) (d : BitVec 7) (s : State) : Out :=
  let o : OpInfo := { noLane := true, dst := some d }
  finish s (match onceCheck s o [] with
    | .error e => .error e
    | .ok false => .ok s
    | .ok true =>
      match queueCheck s q.toNat true with
      | .error e => .error e
      | .ok x => writeDst s d 0 [List.replicate 32 (wordOf (queueCount x))])

/-! ### Tagged messages (R262 to R264) -/

/-- Tenant of a team: TENANT of the entry of its launch's code object (DEDUCED: the specification names no other). -/
def tenantOf (s : State) (c team : Nat) : Nat :=
  let l := getLaunch s (getTeam s c team).launch
  match readEntry s (getCore s c).part l.code.obj.toNat with
  | some e => e.tenant
  | none => 0

/-- A message: source core, tag, length as sent, tenant, payload. -/
structure Message where
  src    : Nat
  tag    : Word
  len    : Nat
  tenant : Nat
  bytes  : List Byte
deriving DecidableEq, Repr

/-- The arrival of a message at a core, as a step of its tag-match unit. -/
def arrivalOf (dest : Nat) (m : Message) (again : Bool) : Due :=
  ⟨.messageArrival, { core := dest, unit := m.src, value := m.tag.toNat, len := m.len, obj := m.tenant, flag := again, bytes := m.bytes }⟩

def messageOf (e : Event) : Message := ⟨e.unit, wordOf e.value, e.len, e.obj, e.bytes⟩

/-- A message matches a receive (R263). -/
def matchesReceive (s : State) (c : Nat) (r : Receive) (m : Message) : Bool :=
  tenantOf s c r.team == m.tenant && (r.anySrc || r.src == m.src) && ((m.tag ^^^ r.tag) &&& r.tmask) == 0

/-- Complete a receive with a message: header at BUF, payload after it (Table 11-7). -/
def completeReceive (s : State) (c h : Nat) (m : Message) : State :=
  let k := getCore s c
  match find? k.receives h with
  | none => s
  | some r =>
    let head := leBytes 4 m.tag.toNat ++ leBytes 2 m.len ++ leBytes 2 (m.src + (if r.cap < m.len then 2 ^ 15 else 0))
    let s := setCore s c { k with receives := insertKey k.receives h { r with done := some m.src } }
    scratchPut s c r.team r.buf (head ++ m.bytes.take r.cap)

/-- The oldest pending receive of a core that a message matches. -/
def findReceive (s : State) (c : Nat) (m : Message) : Option Nat :=
  let open_ := (getCore s c).receives.filter (fun e => e.2.done.isNone && matchesReceive s c e.2 m)
  (leastBy (fun (x y : Nat × Receive) => decide (x.2.order < y.2.order)) open_).map (·.1)

/-- Reserve offset of an overflow entry (R52). -/
def entryAt (i : Nat) : Nat := 0x8000 + 256 * i

/-- Free overflow entries, ascending. -/
def freeEntries (k : Core) : List Nat := (upTo 64).filter (fun i => !hasKey k.overflow i)

/-- The bytes of an overflow entry (Table 11-9). -/
def entryBytes (m : Message) (cont : Bool) (link order : Nat) (payload : List Byte) : List Byte :=
  leBytes 4 m.tag.toNat ++ leBytes 2 m.len ++ leBytes 2 (m.src + (if cont then 2 ^ 15 else 0)) ++ leBytes 2 m.tenant ++ leBytes 2 link
    ++ leBytes 4 order ++ payload ++ List.replicate (240 - payload.length) 0

/-- Place a message in the overflow queue; none when entries are short. -/
def queueMessage (k : Core) (m : Message) : Option Core :=
  let o := k.arrivals
  let one := fun (k : Core) (i : Nat) (bs : List Byte) =>
    { k with reserve := memPut k.reserve (entryAt i) bs, overflow := insertKey k.overflow i o }
  match freeEntries k, decide (m.len ≤ 240) with
  | i :: _, true => some { one k i (entryBytes m false 0 o m.bytes) with arrivals := o + 1 }
  | i :: j :: _, false =>
    some { one (one k i (entryBytes m false j o (m.bytes.take 240))) j (entryBytes m true i o (m.bytes.drop 240)) with arrivals := o + 1 }
  | _, _ => none

/-- The message of an overflow entry, and the entry it is linked to. -/
def entryMessage (k : Core) (i : Nat) : Message × Option Nat :=
  let a := entryAt i
  let len := memNat k.reserve (a + 4) 2 % 512
  let link := memNat k.reserve (a + 10) 2 % 64
  let two := decide (240 < len)
  (⟨memNat k.reserve (a + 6) 2 % 512, wordOf (memNat k.reserve a 4), len, memNat k.reserve (a + 8) 2,
    memBytes k.reserve (a + 16) (Nat.min len 240) ++ (if two then memBytes k.reserve (entryAt link + 16) (len - 240) else [])⟩,
   if two then some link else none)

/-- First entries of queued messages, oldest first. -/
def queuedEntries (k : Core) : List Nat :=
  let firsts := k.overflow.filter (fun e => !(memNat k.reserve (entryAt e.1 + 6) 2).testBit 15)
  (sortBy (fun x y => decide (x.2 ≤ y.2)) firsts).map (·.1)

/-- Messages refused at a core, and those that wait behind them, are sent again. -/
def resend (s : State) (c : Nat) : State :=
  let k := getCore s c
  pushDue (setCore s c { k with refused := [] }) (k.refused.map (fun e => ⟨.messageArrival, e⟩))

/-- A new receive takes the oldest queued message that it matches. -/
def matchQueued (s : State) (c h : Nat) : State :=
  let k := getCore s c
  match find? k.receives h with
  | none => s
  | some r =>
    match (queuedEntries k).find? (fun i => matchesReceive s c r (entryMessage k i).1) with
    | none => s
    | some i =>
      let (m, link) := entryMessage k i
      let o := eraseKey k.overflow i
      let s := setCore s c { k with overflow := match link with | some j => eraseKey o j | none => o }
      resend (completeReceive s c h m) c

/-- MESSAGE_ARRIVAL: a message reaches its destination's tag-match unit (R263). Messages of one source keep their order: one that
follows a refused one waits with it, untested. The first time a message itself finds the queue short the supervisor gets a tag-match
overflow fault; `flag` says that it has. -/
def execMessageArrival (s : State) : Out :=
  let c := s.ev.core
  let m := messageOf s.ev
  let k := getCore s c
  .next (if k.refused.any (fun e => e.unit == m.src) then setCore s c { k with refused := k.refused ++ [s.ev] }
    else match findReceive s c m with
      | some h => completeReceive s c h m
      | none =>
        match queueMessage k m with
        | some k => setCore s c k
        | none =>
          let t := setCore s c { k with refused := k.refused ++ [{ s.ev with flag := true }] }
          if s.ev.flag then t else unitRecord t c 5 0 { cls := 0xC, code := 0x01 } false)

/-- Words s[a] to s[a + 3]. -/
def unifQuad (s : State) (a : BitVec 5) : List Nat := (upTo 4).map (fun i => (readUnif (curGroup s) s.clock (a.toNat + i)).toNat)
def unifSrcs (a : BitVec 5) (n : Nat) : List Src := (upTo n).map (fun i => .unif (a.toNat + i))

def execMsend (c : BitVec 1) (a : BitVec 5) (s : State) : Out :=
  finishRelease s (fun s =>
    match checkSlot s { noLane := true, encBad := decide (28 < a.toNat) } with
    | .error e => .error e
    | .ok () =>
      match checkWait s (unifSrcs a 4) with
      | .error e => .error e
      | .ok () => after (checkUnder s (unifSrcs a 4) []) <|
        if (activeLanes s).isEmpty then .ok s
        else
          let w := unifQuad s a
          let dest := w.getD 0 0
          let len := w.getD 2 0
          let off := w.getD 3 0
          let t := curTeam s
          if 319 < dest || 256 < len then illegal 0x10
          else if off % 8 ≠ 0 || decide (t.size < off + len) then scratchFault s off
          else if scratchBad s off len then spoiledTrap s off
          else
            let bytes := memBytes (getCore s s.cur.core).scratch (t.scratch + off) len
            let m : Message := ⟨s.cur.core, wordOf (w.getD 1 0), len, tenantOf s s.cur.core (curGroup s).team, bytes⟩
            let arrive := arrivalOf dest m false
            let circuit : Event := { die := curDie s, core := s.cur.core, unit := dest % Config.coresPerDie, len := (len + 8 + 63) / 64 }
            .ok (pushDue s (if c = 1 && dieOf dest == curDie s
              then [⟨.circuitSetup, circuit⟩, arrive, ⟨.circuitRelease, circuit⟩] else [arrive])))

/-- Receives that a team has posted on a core. -/
def postedBy (k : Core) (team : Nat) : Nat := (k.receives.filter (fun e => e.2.team == team)).length

/-- mpost (R263). A bad descriptor or buffer traps before the number of receives is looked at, and the handle is the lowest free one of the
core (DESIGN CHOICE, entry 77). -/
def execMpost (d a : BitVec 5) (s : State) : Out :=
  finishRelease s (fun s => match checkSlot s { noLane := true, encBad := decide (28 < a.toNat) } with
    | .error e => .error e
    | .ok () =>
      match checkWait s (unifSrcs a 4) with
      | .error e => .error e
      | .ok () => after (checkUnder s (unifSrcs a 4) []) <|
        if (activeLanes s).isEmpty then .ok s
        else
          let w := unifQuad s a
          let w0 := w.getD 0 0
          let cap := w0 / 2 ^ 16 % 512
          let buf := w.getD 3 0
          let g := curGroup s
          let k := getCore s s.cur.core
          if w0 / 2 ^ 25 ≠ 0 || w0 / 2 ^ 10 % 64 ≠ 0 || decide (256 < cap) then illegal 0x10
          else if buf % 8 ≠ 0 || decide ((curTeam s).size < buf + 8 + cap) then scratchFault s buf
          else
            match lowestFree k.receives 256, decide (postedBy k g.team < (curLaunch s).receives) with
            | some h, true =>
              let r : Receive := ⟨g.team, s.cur.slot, cap, w0.testBit 9, w0 % 512, wordOf (w.getD 1 0), wordOf (w.getD 2 0), buf,
                k.rxOrder, none⟩
              let t := setCore s s.cur.core { k with receives := insertKey k.receives h r, rxOrder := k.rxOrder + 1 }
              .ok (resend (matchQueued (writeUnif t d.toNat 0 (wordOf h)) t.cur.core h) t.cur.core)
            | _, _ => .ok (writeUnif s d.toNat 0 0xFFFFFFFF))

/-- A receive that the issuing group owns. -/
def ownReceive (s : State) (h : Nat) : Option Receive :=
  (find? (getCore s s.cur.core).receives h).bind (fun r =>
    if r.group == s.cur.slot && r.team == (curGroup s).team then some r else none)

def execMtest (t f : BitVec 3) (a : BitVec 7) (s : State) : Out :=
  let o : OpInfo := { noLane := true, srcA := some a, pBad := pairPred t f }
  finish s (match readSources s o [.reg a 0] with
    | .error e => .error e
    | .ok (vals, u) => after (checkUnder s [.reg a 0] []) <|
      match firstLane s with
      | none => .ok s
      | some i =>
        let h := (laneVal (vals.getD 0 []) i).toNat
        if 255 < h then illegal 0x06
        else
          let from_ := (ownReceive s h).bind (·.done)
          let u := writeCond u t f 0 (if from_.isSome then 0xFFFFFFFF else 0)
          let u := applyLast u o 1 0 []
          .ok (match from_ with
            | some c => if dieOf c = curDie s then u else acquireAt u 4
            | none => u))

def execMcancel (a : BitVec 5) (s : State) : Out :=
  finish s (match unifCheck s { noLane := true } [.unif a.toNat] with
    | .error e => .error e
    | .ok false => .ok s
    | .ok true => .ok (defer s (.mcancel (readUnif (curGroup s) s.clock a.toNat).toNat)))

/-! ### The span barrier (R265) -/

/-- Member teams of a span. -/
def spanSize (l : Launch) : Nat := Nat.max 1 l.spRows * Nat.max 1 l.spCols

/-- One arrival of a member; the phase completes when every member has had G arrivals. -/
def arriveSpan (x : SpanBarrier) (g member size : Nat) : SpanBarrier :=
  let x := { x with g := g, arrivals := insertKey x.arrivals member (lookup x.arrivals member 0 + 1) }
  if x.arrivals.length == size && x.arrivals.all (fun e => decide (g ≤ e.2)) then ⟨0, (x.phase + 1) % 256, []⟩ else x

/-- spbar arrives, ends its region and waits at the slot after, unless its arrival completed the phase. -/
def execSpbar (g : BitVec 6) (b : BitVec 2) (s : State) : Out :=
  let n := (curGroup s).team
  match abandoned s with
  | some p => waitAgain s p 3 (onceCheck s { encBad := g == 0 } [])
  | none =>
    let before := (getSpan s s.cur.core n b.toNat).phase
    finishReleaseWith s
      (fun t =>
        if (getSpan t t.cur.core n b.toNat).phase = before && !(activeLanes s).isEmpty then
          retireParked t (.span b.toNat before s.cur.pc)
        else retire (acquireAt t 3))
      ((onceCheck s { encBad := g == 0 } []).map (fun _ => ()))
      (fun s =>
        match onceCheck s { encBad := g == 0 } [] with
        | .error e => .error e
        | .ok false => .ok s
        | .ok true =>
          let t := curTeam s
          let x := getSpan s s.cur.core n b.toNat
          if !x.arrivals.isEmpty && x.g != g.toNat then illegal 0x06
          else
            let l := leaderOf s s.cur.core n
            let lt := getTeam s l.1 l.2
            let y := arriveSpan x g.toNat (t.spanRow * 8 + t.spanCol) (spanSize (curLaunch s))
            .ok (setTeam s l.1 l.2 { lt with spans := insertKey lt.spans b.toNat y }))

end Sys2Proof.Machine
end

