-- ==== Sys2Proof/Machine/Truss.lean ====
section
/-!
DEFINITION. Truss schedules and the coverage map (spec/15 R328 to R340): tile generation, claims, tnext, tdone, trd, twr,
tcommit, thand, tmap.
-/

namespace Sys2Proof.Machine

/-! ### Geometry (R328, R331) -/

/-- Grains of the launch. -/
def grainCount (t : Truss) : Nat := grainsOf t 0 * grainsOf t 1 * grainsOf t 2 * grainsOf t 3

/-- Tile size in dimension `d` (TSTILE). -/
def tileSize (t : Truss) (d : Nat) : Nat := fieldNat t.tile (8 * d) 8
/-- Tiles in dimension `d`. -/
def tilesOf (t : Truss) (d : Nat) : Nat := (grainsOf t d + tileSize t d - 1) / Nat.max 1 (tileSize t d)
/-- All tiles. -/
def tileCount (t : Truss) : Nat := tilesOf t 0 * tilesOf t 1 * tilesOf t 2 * tilesOf t 3
/-- Dimension at place `k` of the walk order (TSORD). -/
def orderOf (t : Truss) (k : Nat) : Nat := fieldNat t.ord (2 * k) 2

/-- Digits of a walk position, fastest first. -/
def walkDigits (t : Truss) (w : Nat) : List Nat :=
  let n := fun (k : Nat) => Nat.max 1 (tilesOf t (orderOf t k))
  [w % n 0, w / n 0 % n 1, w / n 0 / n 1 % n 2, w / n 0 / n 1 / n 2]

/-- Tile coordinate by dimension, from the coordinates by place of the walk order. -/
def byDimension (t : Truss) (r : List Nat) : List Nat :=
  (upTo 4).map (fun d => match (upTo 4).find? (fun k => orderOf t k == d) with | some k => r.getD k 0 | none => 0)

/-- Serpentine digits (R331). -/
def serpentine (t : Truss) (r : List Nat) : List Nat :=
  (upTo 4).map (fun k =>
    let above := (r.drop (k + 1)).foldl (fun n x => n + x) 0
    if k < 3 && above % 2 == 1 then tilesOf t (orderOf t k) - 1 - r.getD k 0 else r.getD k 0)

/-- Coordinates of a Morton code: bit i of the place k at bit 4 i + k. -/
def mortonDigits (bits code : Nat) : List Nat :=
  (upTo 4).map (fun k => (upTo bits).foldl (fun n i => if code.testBit (4 * i + k) then n + 2 ^ i else n) 0)

/-- Bits needed for the largest tile coordinate. -/
def mortonBits (t : Truss) : Nat :=
  let m := (upTo 4).foldl (fun n d => Nat.max n (tilesOf t d - 1)) 0
  if m = 0 then 0 else Nat.log2 m + 1

/-- The `w`-th code from `code` on whose coordinates lie inside; `fuel` bounds the codes tried. -/
def mortonFind (t : Truss) (bits : Nat) : Nat → Nat → Nat → List Nat
  | 0, _, _ => [0, 0, 0, 0]
  | fuel + 1, code, w =>
    let r := mortonDigits bits code
    let inside := (upTo 4).all (fun k => decide (r.getD k 0 < tilesOf t (orderOf t k)))
    if inside then (if w = 0 then r else mortonFind t bits fuel (code + 1) (w - 1)) else mortonFind t bits fuel (code + 1) w

/-- Tile coordinates of a walk position. -/
def tileAt (t : Truss) (w : Nat) : List Nat :=
  byDimension t (match fieldNat t.walk 0 2 with
    | 1 => serpentine t (walkDigits t w)
    | 2 => mortonFind t (mortonBits t) (2 ^ (4 * mortonBits t)) 0 w
    | _ => walkDigits t w)

/-- Origin grain of a tile and its extents. -/
def tileBox (t : Truss) (tile : List Nat) : List Nat × List Nat :=
  let o := (upTo 4).map (fun d => tile.getD d 0 * tileSize t d)
  (o, (upTo 4).map (fun d => Nat.min (tileSize t d) (grainsOf t d - o.getD d 0)))

/-! ### Placement (R332) -/

/-- Teams of the grid. -/
def gridTeams (l : Launch) : Nat := l.gridX * l.gridY * l.gridZ

/-- Grid indices of the launch's teams resident on a die, ascending. -/
def dieTeams (s : State) (launch die : Nat) : List Nat :=
  s.cores.foldl (fun acc e =>
    if dieOf e.1 = die then e.2.teams.foldl (fun acc t => if t.2.launch = launch then insertNat acc t.2.tl else acc) acc else acc) []

/-- Walk position of a team's `n`-th tile; none beyond the ordinals. -/
def placeTile (s : State) (launch tl die n : Nat) (t : Truss) : Option Nat :=
  let b := Nat.max 1 (fieldNat t.place 0 8)
  let st := fieldNat t.place 8 8
  let c := n / b
  let nt := tileCount t
  if t.place.getLsbD 31 then
    let ts := dieTeams s launch die
    let ntd := Nat.max 1 ts.length
    let k := (ts.filter (fun x => decide (x < tl))).length
    let w := nt * die / 8 + b * (c * ntd + k * st % ntd) + n % b
    if w < nt * (die + 1) / 8 then some w else none
  else
    let nteam := Nat.max 1 (gridTeams (getLaunch s launch))
    let w := b * (c * nteam + tl * st % nteam) + n % b
    if w < nt then some w else none

/-! ### The coverage map (R328, R329) -/

/-- Number of grains below NG in each code: free, claimed, done, by words from `w` on. -/
def coverCount (c : Nat) (t : Truss) : Nat → Nat → Nat × Nat × Nat → State → Res ((Nat × Nat × Nat) × State)
  | 0, _, n, s => .ok (n, s)
  | fuel + 1, w, n, s =>
    if grainCount t ≤ 16 * w then .ok (n, s)
    else match coverRead s c t (16 * w) with
      | .error e => .error e
      | .ok (v, s) =>
        let codes := ((upTo 16).filter (fun i => decide (16 * w + i < grainCount t))).map (fun i => grainCode v i)
        let k := fun (x : Nat) => (codes.filter (· == x)).length
        coverCount c t fuel (w + 1) (n.1 + k 0, n.2.1 + k 1, n.2.2 + k 3) s

/-! ### Claims (R333, R334) -/

/-- Walk the ordinals for a tile with a free grain: tile box, grains claimed, position, the next ordinal. -/
def findTile (c slot launch tl die : Nat) (t : Truss) : Nat → Nat → State →
    Res (Option (List Nat × List Nat × List Nat × Nat) × Nat × State)
  | 0, n, s => .ok (none, n, s)
  | fuel + 1, n, s =>
    match placeTile s launch tl die n t with
    | none => .ok (none, n + 1, s)
    | some w =>
      let (o, e) := tileBox t (tileAt t w)
      let box := (boxGrains t o e).map (·.2)
      match coverMove s c slot true t box 0 1 with
      | .error x => .error x
      | .ok (new, s) =>
        let got := (heldGrains s).filter box.contains ++ new
        if got.isEmpty then findTile c slot launch tl die t fuel (n + 1) s else .ok (some (o, e, got, w), n + 1, s)

/-- Sweep from a grain upward for a free one, word by word, and claim it. -/
def sweepGrain (c slot : Nat) (t : Truss) : Nat → Nat → State → Res (Option Nat × State)
  | 0, _, s => .ok (none, s)
  | fuel + 1, g, s =>
    if grainCount t ≤ g then .ok (none, s)
    else match coverRead s c t g with
      | .error e => .error e
      | .ok (v, s) =>
        match (upTo (16 - g % 16)).find? (fun i => grainCode v (g + i) == 0 && decide (g + i < grainCount t)) with
        | some i => (coverMove s c slot true t [g + i] 0 1).map (fun r => (some (g + i), r.2))
        | none => sweepGrain c slot t fuel (g / 16 * 16 + 16) s

/-- The own truss of the issuing group's launch. -/
def ownTruss (s : State) : Res Truss := match (curLaunch s).truss with | some t => .ok t | none => illegal 0x06

/-- Checks of a truss instruction that works on the launch's own truss. -/
def trussCheck (s : State) (o : OpInfo) (srcs : List Src) : Res (Option Truss) :=
  match unifCheck s { o with noLane := true } srcs with
  | .error e => .error e
  | .ok act => (ownTruss s).map (fun t => if act then some t else none)

/-- The six results of tnext. -/
def tnextWords (t : Truss) (k : Claim) (w h : Nat) (ragged sweep : Bool) : List Word :=
  let e := fun (i : Nat) => k.extents.getD i 0
  [wordOf k.origin, wordOf (e 0 + e 1 * 2 ^ 8 + e 2 * 2 ^ 16 + e 3 * 2 ^ 24), wordOf k.mask, wordOf (k.mask / 2 ^ 32),
   wordOf (w * 2 ^ 8 + (if sweep then 2 ^ 7 else 0) + (if ragged then 2 ^ 6 else 0) + h), t.epoch]

/-- Write consecutive uniform registers. -/
def writeUnifs (s : State) (d : Nat) (ws : List Word) : State :=
  (upTo ws.length).foldl (fun s i => writeUnif s (d + i) 0 (ws.getD i 0)) s

/-- Record a claim in slot `h` and give its results. -/
def takeClaim (s : State) (p : BitVec 3) (d h : Nat) (t : Truss) (k : Claim) (w : Nat) (ragged sweep : Bool) : State :=
  let m := curTeam s
  let s := setCurTeam s { m with claims := insertKey m.claims h k }
  acquireAt (writeUnifs (writePred (dropGrains s) (activeMask s) p.toNat 0 0) d (tnextWords t k w h ragged sweep)) 4

/-- tnext, once its checks have passed (R334). -/
def nextTile (s : State) (p : BitVec 3) (d : Nat) (t : Truss) : Res State :=
  let m := curTeam s
  match lowestFree m.claims 64 with
  | none => illegal 0x06
  | some h =>
    let m := if m.lastEpoch = t.epoch then m else { m with ordinal := 0, cursor := 0, lastEpoch := t.epoch }
    match findTile s.cur.core s.cur.slot (curGroup s).launch m.tl (curDie s) t (tileCount t + 1) m.ordinal s with
    | .error e => .error e
    | .ok (some (o, e, got, w), n, s) =>
      let bs := boxGrains t o e
      let mask := (bs.filter (fun b => got.contains b.2)).foldl (fun x b => x + 2 ^ b.1) 0
      let s := setCurTeam s { m with ordinal := n }
      .ok (takeClaim s p d h t ⟨grainIndex t o, e, mask, t.epoch, false⟩ w (got.length != bs.length) false)
    | .ok (none, n, s) =>
      match sweepGrain s.cur.core s.cur.slot t (grainCount t / 16 + 2) m.cursor s with
      | .error e => .error e
      | .ok (some g, s) =>
        let s := setCurTeam s { m with ordinal := n, cursor := g + 1 }
        .ok (takeClaim s p d h t ⟨g, [1, 1, 1, 1], 1, t.epoch, false⟩ 0xFFFFFF false true)
      | .ok (none, s) =>
        let s := setCurTeam s { m with ordinal := n }
        .ok (acquireAt (writeUnifs (writePred s (activeMask s) p.toNat 0 0xFFFFFFFF) d (List.replicate 6 0)) 4)

def execTnext (p : BitVec 3) (d : BitVec 5) (s : State) : Out :=
  finishRelease s (fun s =>
    match trussCheck s { fnBad := p == 0, encBad := decide (26 < d.toNat) } [] with
    | .error e => .error e
    | .ok none => .ok s
    | .ok (some t) => nextTile s p d.toNat t)

def execTdone (d a : BitVec 5) (s : State) : Out :=
  finishRelease s (fun s =>
    match trussCheck s {} [.unif a.toNat] with
    | .error e => .error e
    | .ok none => .ok s
    | .ok (some t) =>
      let h := (readUnif (curGroup s) s.clock a.toNat).toNat
      let m := curTeam s
      if 64 ≤ h then illegal 0x10
      else match find? m.claims h with
        | none => illegal 0x06
        | some k =>
          match (if k.revoked then .ok ([], s) else coverMove s s.cur.core s.cur.slot true t (claimGrains t k) 1 3) with
          | .error e => .error e
          | .ok (new, s) =>
            let done := heldGrains s ++ new
            let s := setCurTeam (dropGrains s) { curTeam s with claims := eraseKey m.claims h }
            .ok (acquireAt (writeUnif s d.toNat 0 (wordOf done.length)) 4))

/-! ### Registers (R330, R336) -/

/-- The launch whose truss the group reads with trd and writes with twr and tcommit, and whether truss-write is granted. -/
def trussTarget (s : State) : Option (Nat × Truss) × Bool :=
  let l := curLaunch s
  let own := l.truss.map (fun t => ((curGroup s).launch, t))
  match l.tuner with
  | none => (own, false)
  | some k => match (getLaunch s k).truss with | some t => (some (k, t), true) | none => (own, false)

/-- A truss register, but for the three counts. -/
def trussReg (t : Truss) (n : Nat) : Word :=
  match n with
  | 0 => t.ord | 1 => t.tile | 2 => t.walk | 3 => t.place | 4 => t.epoch
  | _ => if t.cfail then 1 else 0

def execTrd (d : BitVec 5) (i : BitVec 14) (s : State) : Out :=
  finish s (match unifCheck s { noLane := true } [] with
    | .error e => .error e
    | .ok act =>
      match (trussTarget s).1 with
      | none => illegal 0x06
      | some (_, t) =>
        if 8 < i.toNat then illegal 0x06
        else if !act then .ok s
        else if decide (5 ≤ i.toNat) && decide (i.toNat ≤ 7) then
          (coverCount s.cur.core t (grainCount t / 16 + 1) 0 (0, 0, 0) s).map (fun r =>
            writeUnif r.2 d.toNat 0 (wordOf (match i.toNat with | 5 => r.1.1 | 6 => r.1.2.1 | _ => r.1.2.2)))
        else .ok (writeUnif s d.toNat 0 (trussReg t i.toNat)))

/-- What a write of a truss register keeps (Tables 15-2 to 15-5). -/
def trussMask (n : Nat) : Word := match n with | 0 => 0xFF | 1 => 0xFFFFFFFF | 2 => 0x3 | _ => 0x8000FFFF

/-- The staged registers are valid (Tables 15-2 to 15-5). -/
def trussValid (r : List Word) : Bool :=
  let w := fun (i : Nat) => r.getD i 0
  let ord := (upTo 4).map (fun k => fieldNat (w 0) (2 * k) 2)
  let tile := (upTo 4).map (fun d => fieldNat (w 1) (8 * d) 8)
  ord.eraseDups.length == 4 && tile.all (· != 0) && decide (tile.foldl (fun n x => n * x) 1 ≤ 64)
    && fieldNat (w 2) 0 2 != 3 && fieldNat (w 3) 0 8 != 0 && fieldNat (w 3) 8 8 != 0

/-- The four writable registers of a launch's truss as the group's tcommits that still wait for their commit will leave them. -/
def stagedRegs (g : Group) (launch : Nat) (now : List Word) : List Word :=
  (g.regions.flatMap (·.deferred)).foldl (fun r q => match q.effect with
    | .tcommit l rs => if l = launch && trussValid rs then rs else r
    | _ => r) now

def execTwr (d : BitVec 5) (i : BitVec 14) (s : State) : Out :=
  finish s (match unifCheck s { noLane := true } [.unif d.toNat] with
    | .error e => .error e
    | .ok act =>
      match trussTarget s with
      | (some (k, t), true) =>
        if 3 < i.toNat then illegal 0x06
        else if !act then .ok s
        else
          let g := curGroup s
          let regs : FMap Word := if g.staging.valid then g.staging.regs
            else (upTo 4).map (fun n => (n, (stagedRegs g k ((upTo 4).map (trussReg t))).getD n 0))
          .ok (setCur s { g with staging :=
            ⟨insertKey regs i.toNat (readUnif g s.clock d.toNat &&& trussMask i.toNat), true⟩ })
      | _ => illegal 0x06)

/-- tcommit takes the staging copy with it, to be put in force when its region commits. -/
def execTcommit (s : State) : Out :=
  finish s (match unifCheck s { noLane := true } [] with
    | .error e => .error e
    | .ok act =>
      match trussTarget s with
      | (some (k, _), true) =>
        let g := curGroup s
        if !act || !g.staging.valid then .ok s
        else
          let t := defer s (.tcommit k ((upTo 4).map (fun n => lookup g.staging.regs n 0)))
          .ok (setCur t { curGroup t with staging := ⟨[], false⟩ })
      | _ => illegal 0x06)

/-- A tcommit takes effect: the registers change together and the epoch advances, or CFAIL is set (R336). -/
def commitTruss (s : State) (launch : Nat) (r : List Word) : State :=
  let l := getLaunch s launch
  match l.truss with
  | none => s
  | some t =>
    setLaunch s launch { l with truss := some (if trussValid r
      then { t with ord := r.getD 0 0, tile := r.getD 1 0, walk := r.getD 2 0, place := r.getD 3 0, cfail := false,
                    epoch := if t.epoch = 0xFFFFFFFF then 1 else t.epoch + 1 }
      else { t with cfail := true }) }

/-! ### Hand-back (R337) -/

def execThand (a : BitVec 5) (s : State) : Out :=
  finish s (match trussCheck s {} [.unif a.toNat] with
    | .error e => .error e
    | .ok none => .ok s
    | .ok (some _) =>
      let v := readUnif (curGroup s) s.clock a.toNat
      if fieldNat v 6 25 ≠ 0 then illegal 0x10 else .ok (defer s (.thand (fieldNat v 0 6) (v.getLsbD 31))))

/-! ### tmap (R338) -/

/-- A word that a rewrite of the word of grain `g` may not write: some grain below NG at 0b01 or 0b10; the bits of other indices are
ignored (R329). -/
def coverBad (t : Truss) (g v : Nat) : Bool :=
  (upTo 16).any (fun i => decide (g + i < grainCount t) && (grainCode v i == 1 || grainCode v i == 2))

def execTmap (d a : BitVec 5) (s : State) : Out :=
  finishRelease s (fun s =>
    match trussCheck s { encBad := decide (29 < a.toNat) } (unifSrcs a 3) with
    | .error e => .error e
    | .ok none => .ok s
    | .ok (some t) =>
      let w := unifQuad s a
      let g := w.getD 0 0
      let act := w.getD 1 0
      let v := w.getD 2 0
      if g % 16 ≠ 0 || decide (1 < act) || (act == 1 && coverBad t g v) then illegal 0x10
      else if act = 1 && !isSuper s then illegal 0x06
      else if grainCount t ≤ g then
        .error (.trap { cls := 5, code := 4, obj := t.coverage.obj.toNat, off := coverOff t g, kind := 2 })
      else
        match (if act = 1 then coverUpdate s s.cur.core s.cur.slot true t g (fun _ => v) else coverRead s s.cur.core t g) with
        | .error e => .error e
        | .ok (old, s) => .ok (acquireAt (writeUnif s d.toNat 0 (wordOf old)) 4))

end Sys2Proof.Machine
end

