-- ==== Sys2Proof/Machine/Matrix.lean ====
section
/-!
DEFINITION. The matrix engine (spec/13 R294 to R312, spec/04 R84 to R93): mma, mmas, aclr, acpy, scld, wbld, mstat, and the
steps of the sequencer (MATRIX_OP_COMPLETE, WBLD_PAGE_FAULT_HOLD, MSEQ_ABORT, MSEQ_RESUME).
-/

namespace Sys2Proof.Machine

/-! ### Formats (R296, Table 13-3) -/

/-- Bits of an element of a format code. -/
def elemBits (f : Nat) : Nat := match f with | 2 => 4 | 4 => 4 | 7 => 4 | 5 => 16 | 6 => 16 | _ => 8

/-- A signed integer as an exact value. -/
def intFp (i : Int) : Fp := .fin (decide (i < 0)) i.natAbs 0

/-- The exact value of an element code: a float, an integer, or a signed QN4 level. -/
def elemVal (f code : Nat) : Fp :=
  match f with
  | 0 => unpack e4m3 code
  | 1 => unpack e5m2 code
  | 2 => unpack e2m1 code
  | 3 => intFp (if code < 128 then (code : Int) else (code : Int) - 256)
  | 4 => intFp (if code < 8 then (code : Int) else (code : Int) - 16)
  | 5 => unpack bf16 code
  | 6 => unpack fp16 code
  | _ => .fin (code.testBit 3) (qnLevel (code % 8)) 0

/-- Element `i` of bytes packed little-endian at `e` bits each, from address `a`. -/
def packedElem (m : Memory) (a e i : Nat) : Nat :=
  if e = 16 then memNat m (a + 2 * i) 2
  else if e = 8 then (memRead m (a + i)).toNat
  else (memRead m (a + i / 2)).toNat / (if i % 2 = 0 then 1 else 16) % 16

/-! ### The operands of a multiplication (Tables 13-1, 13-2) -/

/-- A decoded multiplication. -/
structure MatMul where
  aoff   : Nat
  stride : Nat
  slot   : Nat
  row0   : Nat
  col0   : Nat
  rows   : Nat
  cols   : Nat
  k      : Nat
  w      : Nat
  afmt   : Nat
  bfmt   : Nat
  bl     : Nat
  ask    : Nat
  bsk    : Nat
  acc    : Bool
  csum   : Bool
  ea     : Nat
  eb     : Nat
deriving DecidableEq, Repr

/-- A multiplication from its operand words: four of A, four of the destination, two of the format. -/
def matMulOf (ws : List Word) : MatMul :=
  let w := fun (i : Nat) => ws.getD i 0
  { aoff := (w 0).toNat, stride := (w 1).toNat, slot := fieldNat (w 4) 0 1, row0 := fieldNat (w 4) 16 8, col0 := fieldNat (w 4) 8 8,
    rows := fieldNat (w 5) 0 16, cols := fieldNat (w 5) 16 16, k := (w 6).toNat, w := (w 7).toNat, afmt := fieldNat (w 8) 0 4,
    bfmt := fieldNat (w 8) 4 4, bl := 16 * 2 ^ fieldNat (w 8) 8 2, ask := fieldNat (w 8) 10 2, bsk := fieldNat (w 8) 12 2,
    acc := (w 8).getLsbD 14, csum := (w 8).getLsbD 15, ea := fieldNat (w 9) 0 12, eb := fieldNat (w 9) 12 12 }

/-- Bytes of one K-block and of one column block of B (R90). -/
def kBlockBytes (m : MatMul) : Nat := m.bl * 2 * elemBits m.bfmt + (if m.bsk = 0 then 0 else 16)
def colBlockBytes (m : MatMul) : Nat := m.k / m.bl * kBlockBytes m

/-- Reserved fields and codes of the operand words. -/
def matReserved (ws : List Word) : Bool :=
  let w := fun (i : Nat) => ws.getD i 0
  w 3 != 0 || fieldNat (w 4) 24 8 != 0 || fieldNat (w 4) 1 7 != 0
    || fieldNat (w 8) 16 16 != 0 || fieldNat (w 9) 24 8 != 0
    || decide (7 < fieldNat (w 8) 0 4) || decide (7 < fieldNat (w 8) 4 4) || fieldNat (w 8) 8 2 == 3
    || fieldNat (w 8) 10 2 == 3 || fieldNat (w 8) 12 2 == 3

/-- Rows or columns that R297 refuses. -/
def dimBad (n : Nat) : Bool := decide (n < 16) || decide (128 < n) || n % 16 != 0

/-- An accumulator box that R297 refuses. -/
def boxBad (row0 col0 rows cols : Nat) : Bool :=
  dimBad rows || dimBad cols || decide (128 < row0 + rows) || decide (128 < col0 + cols) || row0 % 16 != 0 || col0 % 16 != 0

/-- Highest scale-memory entry that an operation reads, if any (R93). -/
def topScale (m : MatMul) : Nat :=
  Nat.max (if m.ask = 1 then m.ea + (m.k / m.bl * m.rows - 1) / 4 else 0)
    (if m.bsk = 2 then m.eb + (m.cols / 16 * (m.k / 64) * 16 - 1) / 256 else 0)

/-- The slot of an accumulator operation is held by a team (R84). -/
def holdsSlot (t : Team) (slot : Nat) : Bool := if slot = 0 then t.acc0 else t.acc1

/-- The weight-buffer, scale and ownership rows of R297, as the leader and each span member check them. -/
def holdBad (t : Team) (m : MatMul) : Bool :=
  decide (393216 < m.w + m.cols / 16 * colBlockBytes m) || m.w % 16 != 0 || decide (4095 < topScale m)
    || !holdsSlot t m.slot || !t.weights

/-- The encoding rows of R297. -/
def matBad (t : Team) (ws : List Word) : Bool :=
  let m := matMulOf ws
  matReserved ws || m.afmt == 7 || (m.bfmt == 7 && (m.bsk != 2 || m.bl != 64)) || (m.bsk == 2 && m.bfmt != 7) || m.ask == 2
    || boxBad m.row0 m.col0 m.rows m.cols
    || m.k == 0 || decide (4096 < m.k) || m.k % m.bl != 0 || (ws.getD 2 0).toNat != m.k
    || m.aoff % 16 != 0 || m.stride % 16 != 0 || decide (m.stride * 8 < m.k * elemBits m.afmt)
    || holdBad t m

/-- End of the A range. -/
def aEnd (m : MatMul) : Nat := m.aoff + (m.rows - 1) * m.stride + m.k * elemBits m.afmt / 8

/-! ### Engine memories -/

/-- Key of an accumulator entry (R86). -/
def accKey (slot r c : Nat) : Nat := r * 256 + 128 * slot + c
def accRead (k : Core) (slot r c : Nat) : Nat := (lookup k.acc (accKey slot r c) 0).toNat
def accWrite (k : Core) (slot r c v : Nat) : Core := { k with acc := insertKey k.acc (accKey slot r c) (BitVec.ofNat 36 v) }

/-- A byte of scale memory by scale index from a base entry (R93). -/
def scaleByte (k : Core) (base idx : Nat) : Nat := fieldNat (lookup k.scales (base + idx / 4) 0) (8 * (idx % 4)) 8

/-! ### Multiplication (R300, R301) -/

/-- Status bits an operation records: 0 OF, 1 NV, 2 NANIN. -/
abbrev MatFlags := BitVec 3

/-- An E8M0 scale as a value. -/
def e8Fp (x : Nat) : Fp := match e8Exp x with | none => .nan false | some e => .fin false 1 e

/-- Scale of A for a row and K-block. -/
def scaleA (k : Core) (m : MatMul) (row kb : Nat) : Fp :=
  if m.ask = 0 then .fin false 1 0 else e8Fp (scaleByte k m.ea (kb * m.rows + row))

/-- Start of K-block `kb` of the column block of column `n`. -/
def kBlockAt (m : MatMul) (kb n : Nat) : Nat := m.w + n / 16 * colBlockBytes m + kb * kBlockBytes m

/-- Scale byte of a column in a K-block. -/
def scaleCode (k : Core) (m : MatMul) (kb n : Nat) : Nat :=
  (memRead k.weights (kBlockAt m kb n + m.bl * 2 * elemBits m.bfmt + n % 16)).toNat

/-- Scale of B for a K-block and column; none for a QN4 block of code 0. -/
def scaleB (k : Core) (m : MatMul) (kb n : Nat) : Option Fp :=
  if m.bsk = 0 then some (.fin false 1 0)
  else if m.bsk = 1 then some (e8Fp (scaleCode k m kb n))
  else
    let c := scaleCode k m kb n
    if c = 0 then none
    else
      let idx := (n / 16 * (m.k / 64) + kb) * 16 + n % 16
      match unpack fp32 (lookup k.scales (m.eb + idx / 256) 0).toNat with
      | .fin s q e => some (.fin s (q * c) (e - 16))
      | _ => some (.nan false)

/-- Element of A, read from the scratchpad of a core at a team's start. -/
def elemA (k : Core) (start : Nat) (m : MatMul) (row i : Nat) : Fp :=
  elemVal m.afmt (packedElem k.scratch (start + m.aoff + row * m.stride) (elemBits m.afmt) i)

/-- Element of B. -/
def elemB (k : Core) (m : MatMul) (i n : Nat) : Fp :=
  elemVal m.bfmt (packedElem k.weights (kBlockAt m (i / m.bl) n + i % m.bl * 2 * elemBits m.bfmt) (elemBits m.bfmt) (n % 16))

/-- The exact sum of products: NaN for a NaN element, 0 × ∞ or infinities of both signs; an exact zero is +0. The second
value says that an invalid combination produced a NaN. -/
def dotFp (ps : List (Fp × Fp)) : Fp × Bool :=
  let prods := ps.map (fun p => mulFp p.1 p.2)
  let bad := prods.any isSig || (prods.any (fun v => v == .inf false) && prods.any (fun v => v == .inf true))
  if prods.any isNan || bad then (.nan false, bad)
  else if prods.any (fun v => v == .inf false) then (.inf false, false)
  else if prods.any (fun v => v == .inf true) then (.inf true, false)
  else
    let d := sumDy (prods.map dyOf)
    (if d.num = 0 then .fin false 0 0 else dyFp d, false)

/-- One K-block of one entry: the entry after it and the status bits (R300, R301). -/
def blockStep (ka kb : Core) (start : Nat) (m : MatMul) (row col : Nat) (x : Nat × MatFlags) (b : Nat) : Nat × MatFlags :=
  let ps := (upTo m.bl).map (fun i => (elemA ka start m row (b * m.bl + i), elemB kb m (b * m.bl + i) col))
  let sa := scaleA kb m row b
  let sb := scaleB kb m b col
  let odd := ps.any (fun p => !isFinite p.1 || !isFinite p.2) || !isFinite sa || (match sb with | some v => !isFinite v | none => false)
  let s := dotFp ps
  let t : Fp × Bool := match sb with
    | none => (.fin false 0 0, false)
    | some v =>
      let u := mulFp (mulFp s.1 sa) v
      (u, s.2 || (isNan u && !isNan s.1 && !isNan sa && !isNan v))
  let v := unpack fp36 x.1
  let sum := addFp v t.1 false
  let r := packFp fp36 0 false sum
  let nv := t.2 || (!isNan v && !isNan t.1 && isNan sum)
  (r.1, x.2 ||| (if odd then 4 else 0) ||| (if nv then 2 else 0) ||| (if r.2 &&& flagOF != 0 then 1 else 0))

/-- One entry of the result after the first `n` K-blocks. `ka` is the core whose scratchpad holds A, `kb` the core that
computes. -/
def matEntry (ka kb : Core) (start : Nat) (m : MatMul) (n row col : Nat) : Nat × MatFlags :=
  let e := if m.acc then accRead kb m.slot (m.row0 + row) (m.col0 + col) else 0
  (upTo n).foldl (blockStep ka kb start m row col) (e, 0)

/-- All entries of a multiplication's first `n` K-blocks, from the memories as they stood before it; row-major. -/
def matMul (ka kb : Core) (start : Nat) (m : MatMul) (n : Nat) : Core × MatFlags :=
  (upTo m.rows).foldl (fun acc row => (upTo m.cols).foldl (fun acc col =>
    let r := matEntry ka kb start m n row col
    (accWrite acc.1 m.slot (m.row0 + row) (m.col0 + col) r.1, acc.2 ||| r.2)) acc) (kb, 0)

/-! ### Status (Table 13-5) and failure (R310) -/

/-- A clear of status that waits for its region's commit leaves the bits that are raised, and the failure that is told, before it (R175,
R309). -/
def keepStatus (f : MatFlags) (failed : Bool) (q : Queued) : Queued :=
  match q.effect with
  | .mstatClear w seen x => { q with effect := .mstatClear (w &&& ~~~(f.zeroExtend 32)) seen (x || failed) }
  | _ => q

/-- The uncommitted regions of a team's groups after an operation has raised status bits, or failed. -/
def keepStatusIn (s : State) (c team : Nat) (f : MatFlags) (failed : Bool) : State :=
  let k := getCore s c
  let keep := fun (g : Group) => { g with regions := g.regions.map (fun r => { r with deferred := r.deferred.map (keepStatus f failed) }) }
  setCore s c { k with groups := k.groups.map (fun e => (e.1, if e.2.team = team then keep e.2 else e.2)) }

/-- Raise status bits of a team. -/
def raiseMat (s : State) (c team : Nat) (f : MatFlags) : State :=
  let t := getTeam s c team
  keepStatusIn (setTeam s c team { t with status := insertKey t.status 2 (lookup t.status 2 0 ||| f.zeroExtend 32) }) c team f false

/-- A team's entry for a group of its that is saved: number 128 + id. -/
def isAway (t : Team) (group : Nat) (a : Away) : Bool := a.member == teamKey t && a.g + 128 == group

/-- The batches of a group of a team, resident or saved (R312). -/
def batchesOf (s : State) (c team group : Nat) : Batches :=
  let t := getTeam s c team
  if group < 128 then (getGroup s c group).batch
  else (((getLaunch s t.launch).away.find? (isAway t group)).map (·.batch)).getD Batches.fresh

def setBatches (s : State) (c team group : Nat) (b : Batches) : State :=
  if group < 128 then setGroup s c group { getGroup s c group with batch := b }
  else
    let t := getTeam s c team
    let l := getLaunch s t.launch
    setLaunch s t.launch { l with away := l.away.map (fun a => if isAway t group a then { a with batch := b } else a) }

/-- Mark a batch failed: the first failure of a batch counts, that of the earliest operation in hand-over order is kept for its report
(R310), and the status words tell the last failure. -/
def failBatch (s : State) (c team group batch order code : Nat) : State :=
  let b := batchesOf s c team group
  let fresh := !hasKey b.failed batch
  let s := if fresh || decide (order < lookup b.failedAt batch 0) then
      setBatches s c team group { b with failed := insertKey b.failed batch code, failedAt := insertKey b.failedAt batch order } else s
  let t := getTeam s c team
  let w0 := lookup t.status 0 0
  let w2 := lookup t.status 2 0
  let w0 := if fresh && decide (fieldNat w0 0 16 < 0xFFFF) then w0 + 1 else w0
  let st := insertKey (insertKey t.status 0 w0) 2 (wordOf (group % 128 * 2 ^ 16 + code * 2 ^ 8 + fieldNat w2 0 3))
  keepStatusIn (setTeam s c team { t with status := insertKey st 3 (wordOf batch) }) c team 0 true

/-- One operation of a batch has completed. -/
def completeOp (s : State) (c team group batch : Nat) : State :=
  setBatches s c team group (batchDone (batchesOf s c team group) batch)

/-! ### Soft errors of the engine memories (R87, R91, R305) -/

/-- Add one to a saturating field of `n` bits at bit `lo` of a status word of a team. -/
def countStatus (s : State) (c team word lo n : Nat) : State :=
  let t := getTeam s c team
  let w := lookup t.status word 0
  if fieldNat w lo n + 1 < 2 ^ n then setTeam s c team { t with status := insertKey t.status word (w + wordOf (2 ^ lo)) } else s

/-- Where the corrected errors of an engine memory are counted in status word 1: CE0, CE1, SMCE, WBCE. -/
def upsetField (u : Upset) : Nat := match u.kind with | 0 => (if u.loc % 64 < 32 then 0 else 8) | 1 => 24 | _ => 16

/-- The matrix data fault code of an uncorrectable error (Table 13-6). -/
def upsetCode (u : Upset) : Nat := u.kind + 2

/-- The four entries of an ECC group become NaN (R87). -/
def spoilGroup (k : Core) (loc : Nat) : Core :=
  { k with acc := (upTo 4).foldl (fun a i => insertKey a (loc / 64 * 256 + 4 * (loc % 64) + i) (BitVec.ofNat 36 0x7FC000000)) k.acc }

/-- What a reader gets from a word of the weight buffer, or an entry of scale memory, that cannot be corrected: no value is
stated, so a free one. -/
def spoilWord (s : State) (c : Nat) (u : Upset) : State :=
  let a := drawFree s
  let b := drawFree a.2
  let k := getCore b.2 c
  setCore b.2 c (if u.kind = 1 then { k with weights := memPut k.weights (8 * u.loc) (leBytes 4 a.1.toNat ++ leBytes 4 b.1.toNat) }
    else { k with scales := insertKey k.scales u.loc a.1 })

/-- An operation meets one error: a corrected one is counted and gone, another fails the batch. -/
def meetUpset (c team : Nat) (op : EngineOp) (s : State) (u : Upset) : State :=
  let k := getCore s c
  let clear := fun (k : Core) => { k with upsets := k.upsets.filter (· != u) }
  if !u.hard then countStatus (setCore s c (clear k)) c team 1 (upsetField u) 8
  else
    let s := if u.kind = 0 then setCore s c (clear (spoilGroup k u.loc)) else spoilWord s c u
    failBatch s op.core op.team op.group op.batch op.order (upsetCode u)

/-- An operation meets the errors that it reads. -/
def meetUpsets (s : State) (c team : Nat) (op : EngineOp) (reads : Upset → Bool) : State :=
  ((getCore s c).upsets.filter reads).foldl (meetUpset c team op) s

/-- A write of whole groups, words or entries ends the errors in them. -/
def endUpsets (s : State) (c : Nat) (writes : Upset → Bool) : State :=
  let k := getCore s c
  setCore s c { k with upsets := k.upsets.filter (fun u => !writes u) }

/-- An error lies in the groups of a box of the accumulators. -/
def inBox (slot row0 col0 rows cols : Nat) (u : Upset) : Bool :=
  let col := 4 * (u.loc % 64)
  u.kind == 0 && decide (row0 ≤ u.loc / 64) && decide (u.loc / 64 < row0 + rows)
    && decide (128 * slot + col0 ≤ col) && decide (col < 128 * slot + col0 + cols)

/-- An error lies in a byte range of the weight buffer. -/
def inWeights (lo n : Nat) (u : Upset) : Bool := u.kind == 1 && decide (lo < 8 * u.loc + 8) && decide (8 * u.loc < lo + n)

/-- An error lies in a range of scale memory. -/
def inScales (lo n : Nat) (u : Upset) : Bool := u.kind == 2 && decide (lo ≤ u.loc) && decide (u.loc < lo + n)

/-- The errors that a multiplication reads. -/
def matReads (m : MatMul) (u : Upset) : Bool :=
  (m.acc && inBox m.slot m.row0 m.col0 m.rows m.cols u) || inWeights m.w (m.cols / 16 * colBlockBytes m) u
    || (m.ask == 1 && inScales m.ea ((m.k / m.bl * m.rows - 1) / 4 + 1) u)
    || (m.bsk == 2 && inScales m.eb ((m.cols / 16 * (m.k / 64) * 16 - 1) / 256 + 1) u)

/-! ### Issue (R294, R299) -/

/-- Queue an engine operation of the issuing group; a full queue waits. -/
def queueOp (s : State) (kind : Nat) (ws : List Word) (cap : Cap) : Res State :=
  if 16 ≤ queuedOps s s.cur.core (curGroup s).team then .error (.hold .sequencer)
  else
    let g := curGroup s
    let op : EngineOp := ⟨kind, ws, cap, s.cur.core, s.cur.slot, g.team, g.batch.opened, 0, 0⟩
    .ok (defer (setCur s { g with batch := batchJoin g.batch }) (.engine op))

/-- Words of consecutive uniform registers. -/
def unifWords (s : State) (a n : Nat) : List Word := (upTo n).map (fun i => readUnif (curGroup s) s.clock (a + i))

/-- The group may issue a multiplication: 8 quads, all in the gang, every lane active, guard p0 (R299). -/
def fullGang (s : State) : Bool :=
  let g := curGroup s
  g.nquad == 8 && (gangOf g).length == 8 && activeMask s == 0xFFFFFFFF && ctlGpred s == 0 && !ctlGneg s

def mmaIssue (s : State) (kind : Nat) (d a b : BitVec 5) (leader : Bool) : Res State :=
  match checkSlot s { noLane := true, encBad := decide (28 < d.toNat) || decide (28 < a.toNat) || decide (30 < b.toNat) } with
  | .error e => .error e
  | .ok () =>
    let ws := unifWords s a.toNat 4 ++ unifWords s d.toNat 4 ++ unifWords s b.toNat 2
    let srcs := unifSrcs a 4 ++ unifSrcs d 4 ++ unifSrcs b 2
    match checkWait s srcs with
    | .error e => .error e
    | .ok () => after (checkUnder s srcs []) <|
    if leader && !((curTeam s).spanRow == 0 && (curTeam s).spanCol == 0) then illegal 0x06
    else if matBad (curTeam s) ws then illegal 0x10
    else if !fullGang s then trapNow 4 0x05
    else if (curTeam s).size < aEnd (matMulOf ws) then scratchFault s (matMulOf ws).aoff
    else queueOp s kind ws Cap.null

def execMma (d a b : BitVec 5) (s : State) : Out := finish s (mmaIssue s 0 d a b false)
def execMmas (d a b : BitVec 5) (s : State) : Out := finish s (mmaIssue s 1 d a b true)

def execAclr (f : BitVec 1) (s : State) : Out :=
  finish s (match unifCheck s { noLane := true } [] with
    | .error e => .error e
    | .ok false => .ok s
    | .ok true => if holdsSlot (curTeam s) f.toNat then queueOp s 2 [wordOf f.toNat] Cap.null else illegal 0x10)

/-- Element bytes of an acpy form. -/
def acpyWidth (f : Nat) : Nat := match f with | 0 => 4 | 1 => 2 | 2 => 1 | 4 => 4 | _ => 8

/-- The box of an acpy: slot, origin, rows, columns. -/
def acpyBox (ws : List Word) : Nat × Nat × Nat × Nat × Nat :=
  let w := fun (i : Nat) => ws.getD i 0
  (fieldNat (w 2) 0 1, fieldNat (w 2) 16 8, fieldNat (w 2) 8 8, fieldNat (w 3) 0 16, fieldNat (w 3) 16 16)

def execAcpy (f : BitVec 3) (d a : BitVec 5) (s : State) : Out :=
  finish s (match unifCheck s { noLane := true, fnBad := decide (5 < f.toNat),
                                encBad := decide (28 < a.toNat) || (f != 2 && d != 0) }
                (unifSrcs a 4 ++ (if f = 2 then [.unif d.toNat] else [])) with
    | .error e => .error e
    | .ok false => .ok s
    | .ok true =>
      let ws := unifWords s a.toNat 4
      let w := acpyWidth f.toNat
      let off := (ws.getD 0 0).toNat
      let stride := (ws.getD 1 0).toNat
      let (slot, row0, col0, rows, cols) := acpyBox ws
      let area := if f = 2 then (readUnif (curGroup s) s.clock d.toNat).toNat else 0
      if fieldNat (ws.getD 2 0) 24 8 ≠ 0 || fieldNat (ws.getD 2 0) 1 7 ≠ 0 || boxBad row0 col0 rows cols
          || !holdsSlot (curTeam s) slot || off % 16 != 0 || stride % 16 != 0 || decide (stride < cols * w)
          || (f == 2 && cols % 32 != 0) then illegal 0x10
      else if (curTeam s).size < off + (rows - 1) * stride + cols * w then scratchFault s off
      else if f = 2 && decide ((curTeam s).size < area + rows * (cols / 32)) then scratchFault s area
      else queueOp s 3 ([wordOf f.toNat, wordOf area] ++ ws) Cap.null)

def execScld (a : BitVec 5) (s : State) : Out :=
  finish s (match unifCheck s { noLane := true, encBad := decide (29 < a.toNat) } (unifSrcs a 3) with
    | .error e => .error e
    | .ok false => .ok s
    | .ok true =>
      let ws := unifWords s a.toNat 3
      let off := (ws.getD 0 0).toNat
      let e := (ws.getD 1 0).toNat
      let n := (ws.getD 2 0).toNat
      if 4096 < e + n || n = 0 || off % 4 ≠ 0 || !(curTeam s).weights then illegal 0x10
      else if (curTeam s).size < off + 4 * n then scratchFault s off
      else queueOp s 4 ws Cap.null)

def execWbld (m : BitVec 1) (a : BitVec 5) (s : State) : Out :=
  finish s (match unifCheck s { noLane := true, encBad := decide (28 < a.toNat) } (unifSrcs a 4) with
    | .error e => .error e
    | .ok false => .ok s
    | .ok true =>
      let ws := unifWords s a.toNat 4
      let xoff := (ws.getD 0 0).toNat
      let woff := (ws.getD 1 0).toNat
      let len := (ws.getD 2 0).toNat
      let w3 := ws.getD 3 0
      let out := w3.getLsbD 4
      let cap := capAt (curGroup s) s.clock (fieldNat w3 0 4)
      if fieldNat w3 5 27 ≠ 0 || (m == 1 && fieldNat w3 0 4 != 0) || len = 0 || len % 16 ≠ 0 || xoff % 16 ≠ 0 || woff % 16 ≠ 0
          || decide (393216 < woff + len) || !(curTeam s).weights then illegal 0x10
      else
        match checkWait s (if m = 1 then [] else [.cap (fieldNat w3 0 4)]) with
        | .error e => .error e
        | .ok () => after (checkUnder s (if m = 1 then [] else [.cap (fieldNat w3 0 4)]) []) <|
        match (if m = 1 then checkRange s true cap ((firstLane s).getD 0) 0 0 (xoff, len)
          else checkAccess s cap ((firstLane s).getD 0) xoff len (if out then 0x02 else 0x01) (if out then 5 else 4) true) with
        | .error e => .error e
        | .ok () => queueOp s 5 (ws ++ [wordOf m.toNat]) cap)

def execMstat (d a : BitVec 5) (s : State) : Out :=
  finish s (match unifCheck s { noLane := true, encBad := decide (28 < d.toNat) } [.unif a.toNat] with
    | .error e => .error e
    | .ok false => .ok s
    | .ok true =>
      let t := writeUnifs s d.toNat ((upTo 4).map (fun i => lookup (curTeam s).status i 0))
      .ok (defer t (.mstatClear (readUnif (curGroup s) s.clock a.toNat) ((upTo 4).map (fun i => lookup (curTeam s).status i 0)) false)))

/-- A status word of counts without what mstat has read of them: fields of `n` bits. -/
def sinceRead (n : Nat) (now seen : Word) : Word :=
  wordOf ((upTo (32 / n)).foldl (fun m i => m + (fieldNat now (n * i) n - fieldNat seen (n * i) n) * 2 ^ (n * i)) 0)

/-- What mstat clears at commit: the status bits, and the counts that it has read, so that what has been counted or told since stays
(R309, R175). -/
def clearStatus (s : State) (c team : Nat) (w : Word) (seen : List Word) (failed : Bool) : State :=
  let t := getTeam s c team
  let now := fun (i : Nat) => lookup t.status i 0
  let st := insertKey t.status 2 (now 2 &&& ~~~(w &&& 0xFF))
  let zeroed := insertKey (insertKey st 0 (sinceRead 16 (now 0) (seen.getD 0 0))) 1 (sinceRead 8 (now 1) (seen.getD 1 0))
  let st := if w.getLsbD 31 then (if failed then zeroed else insertKey zeroed 3 0) else st
  setTeam s c team { t with status := st }

/-! ### Hand-over (R294, R303) -/

/-- Put an operation in a team's queue; the sequencer starts with it when it stood idle. -/
def enqueueOp (s : State) (c team : Nat) (op : EngineOp) : State :=
  let t := getTeam s c team
  let s := setTeam s c team { t with ops := t.ops ++ [op] }
  if t.ops.isEmpty then pushDue s [⟨.matrixOpComplete, { core := c, unit := team }⟩] else s

/-- Hand a committed operation to the sequencer: mmas goes to every member of the span. -/
def handOver (s : State) (op : EngineOp) : State :=
  let g := getGroup s op.core op.group
  let team := g.team
  let op := { op with order := g.batch.handed }
  let s := setGroup s op.core op.group { g with batch := { g.batch with handed := g.batch.handed + 1 } }
  if op.kind = 1 then
    let ms := spanMembers s op.core team
    let g := getGroup s op.core op.group
    let live := insertKey g.batch.live op.batch (lookup g.batch.live op.batch 0 + ms.length - 1)
    let s := setGroup s op.core op.group { g with batch := { g.batch with live := live } }
    ms.foldl (fun s m => enqueueOp s m.1 m.2.1 op) s
  else enqueueOp s op.core team op

/-! ### Execution -/

/-- One entry converted out by acpy forms 0, 1 and 3: bytes and status bits. -/
def acpyOut (f v : Nat) : List Byte × MatFlags :=
  if f = 3 then (leBytes 8 v, 0)
  else
    let r := packFp (if f = 0 then fp32 else bf16) 0 false (unpack fp36 v)
    (leBytes (acpyWidth f) r.1, if r.2 &&& flagOF != 0 then 1 else 0)

/-- One block of 32 entries by form 2: its scale, element bytes and status bits (R206, R207). -/
def acpyBlock (vs : List Nat) : Nat × List Byte × MatFlags :=
  let xs := vs.map (unpack fp36)
  let c := chooseE8 0 false xs
  let rs := xs.map (fun v => narrowVal e4m3 false (scaleFp v (127 - (c : Int))))
  (c, rs.map (fun r => BitVec.ofNat 8 r.1),
   (if xs.any (fun v => !isFinite v) then 4 else 0) ||| (if rs.any (fun r => r.2 &&& flagOF != 0) then 1 else 0))

/-- One entry converted in by acpy forms 4 and 5. -/
def acpyIn (f n : Nat) : Nat := if f = 4 then (packFp fp36 0 false (unpack fp32 n)).1 else n % 2 ^ 36

/-- acpy on a core whose team starts at `team`. -/
def runAcpy (s : State) (c team : Nat) (ws : List Word) : State × MatFlags :=
  let f := (ws.getD 0 0).toNat
  let area := (ws.getD 1 0).toNat
  let box := ws.drop 2
  let off := (box.getD 0 0).toNat
  let stride := (box.getD 1 0).toNat
  let (slot, row0, col0, rows, cols) := acpyBox box
  let k := getCore s c
  let start := (getTeam s c team).scratch
  let w := acpyWidth f
  if 4 ≤ f then
    (setCore s c ((upTo rows).foldl (fun x r => (upTo cols).foldl (fun x n =>
      accWrite x slot (row0 + r) (col0 + n) (acpyIn f (memNat k.scratch (start + off + r * stride + n * w) w))) x) k), 0)
  else if f = 2 then
    (upTo rows).foldl (fun acc r => (upTo (cols / 32)).foldl (fun acc b =>
      let v := acpyBlock ((upTo 32).map (fun i => accRead k slot (row0 + r) (col0 + 32 * b + i)))
      let s := scratchPut acc.1 c team (off + r * stride + 32 * b) v.2.1
      (scratchPut s c team (area + r * (cols / 32) + b) [BitVec.ofNat 8 v.1], acc.2 ||| v.2.2)) acc) (s, 0)
  else
    (upTo rows).foldl (fun acc r => (upTo cols).foldl (fun acc n =>
      let v := acpyOut f (accRead k slot (row0 + r) (col0 + n))
      (scratchPut acc.1 c team (off + r * stride + n * w) v.1, acc.2 ||| v.2)) acc) (s, 0)

/-- Why a wbld does not complete: held on a page fault, parked at its port on a migrating page, or ended by a port fault or
poison. -/
inductive WbldStop where
  | page (off code kind : Nat)
  | park (off : Nat)
  | fail
  | poison (off code : Nat)
deriving DecidableEq, Repr

def wbldStop (off kind : Nat) (e : MemErr) : WbldStop :=
  match e with
  | .page c => .page off c kind
  | .migrating _ a => .park a
  | .poison c => .poison off c
  | .cap _ => .fail

/-- High-water mark after a load (R91). -/
def raiseHigh (s : State) (c team last : Nat) : State :=
  let t := getTeam s c team
  setTeam s c team { t with wbHigh := Nat.max t.wbHigh (roundUp last 512) }

/-- Bytes enter the weight buffer; the errors in the words that they rewrite end (R91). -/
def loadWeights (s : State) (c team at_ : Nat) (bs : List Byte) : State :=
  let k := getCore s c
  endUpsets (raiseHigh (setCore s c { k with weights := memPut k.weights at_ bs }) c team (at_ + bs.length)) c
    (inWeights at_ bs.length)

/-- The name that an operation's store leaves: that of its issuing group (R19). -/
def opStorer (s : State) (op : EngineOp) : Nat × Nat × Nat :=
  let t := getTeam s op.core op.team
  if op.group < 128 then storerOf s op.core op.group else (t.launch + 1, teamKey t, 64 * t.tl + (op.group - 128))

/-- Move the pieces of a wbld in ascending order: the state, the bytes moved, and what stopped it. -/
def runWbld (c team : Nat) (op : EngineOp) : List (Nat × Nat) → State → Nat → State × Nat × Option WbldStop
  | [], s, done => (s, done, none)
  | (x, n) :: r, s, done =>
    let w := fun (i : Nat) => op.words.getD i 0
    let at_ := (w 1).toNat + done
    let out := (w 3).getLsbD 4
    let k := getCore s c
    if w 4 = 1 then
      let start := (getTeam s c team).scratch
      if out then runWbld c team op r (scratchPut s c team x (memBytes k.weights at_ n)) (done + n)
      else if spoiled k (start + x) n then (s, done, some (.poison x 0x01))
      else runWbld c team op r (loadWeights s c team at_ (memBytes k.scratch (start + x) n)) (done + n)
    else
      match descOf s c op.cap.obj.toNat with
      | .error e => (s, done, some (wbldStop x 4 e))
      | .ok (e, s) =>
        if out then
          if (e.kind == 1 && e.xe) || e.kind == 4 then (s, done, some .fail)
          else match writeObjectBy (opStorer s op) s k.part (some c) e x (memBytes k.weights at_ n) false with
            | .error m => (s, done, some (wbldStop x 5 m))
            | .ok s => runWbld c team op r s (done + n)
        else match readHome s k.part e x n with
          | .error m => (s, done, some (wbldStop x 4 m))
          | .ok (bs, s) => runWbld c team op r (loadWeights s c team at_ bs) (done + n)

/-- The operation writes its team's scratchpad: acpy out, or wbld out to the scratchpad. -/
def writesScratch (op : EngineOp) : Bool :=
  (op.kind == 3 && decide ((op.words.getD 0 0).toNat < 4))
    || (op.kind == 5 && (op.words.getD 3 0).getLsbD 4 && op.words.getD 4 0 == 1)

/-- Multiplications of the span that wait in a team's queue. -/
def spanPieces (t : Team) : Nat := (t.ops.filter (fun o => o.kind == 1)).length

/-- A member of the team's span has a piece left of a multiplication whose own piece the team has done: it may have A to read from
the team's scratchpad, so an operation that writes there waits (R85, R303). -/
def spanReads (s : State) (c team : Nat) : Bool :=
  (spanMembers s c team).any (fun m => decide (spanPieces (getTeam s c team) < spanPieces (getTeam s m.1 m.2.1)))

/-- Where the A of a team's piece of a multiplication lies: the member in the same row, column 0 (R303). -/
def spanSource (s : State) (c team : Nat) : Nat × Nat :=
  let t := getTeam s c team
  (((spanMembers s c team).find? (fun x => x.2.2.1 == t.spanRow && x.2.2.2 == 0)).map (fun x => (x.1, x.2.1))).getD (c, team)

/-- The first operation of a team may run: a piece of a span's multiplication waits for what the member that holds its A was to do
before it; an operation that writes the scratchpad waits for the span's reads (R85, R303). -/
def mayRun (s : State) (c team : Nat) : Bool :=
  let t := getTeam s c team
  match t.ops with
  | [] => true
  | op :: _ =>
    if op.kind = 1 then
      let x := spanSource s c team
      let a := getTeam s x.1 x.2
      decide (spanPieces a < spanPieces t) || (a.ops.head?.map (·.kind)) == some 1
    else !(writesScratch op && spanReads s c team)

/-- The first operation of a team has ended: it leaves the queue, its batch counts it, and the next one starts; so do those of the
span that waited for it. -/
def popOp (s : State) (c team : Nat) (op : EngineOp) : State :=
  let t := getTeam s c team
  let u := setTeam s c team { t with ops := t.ops.drop 1 }
  let freed := (spanMembers s c team).filter (fun m => !mayRun s m.1 m.2.1 && mayRun u m.1 m.2.1)
  pushDue (completeOp u op.core op.team op.group op.batch) ((if t.ops.length ≤ 1 then [] else [⟨.matrixOpComplete, { core := c, unit := team }⟩])
    ++ freed.map (fun m => ⟨.matrixOpComplete, { core := m.1, unit := m.2.1 }⟩))

/-- Failure of an operation, charged to the issuing group's team. -/
def failOp (s : State) (op : EngineOp) (code : Nat) : State := failBatch s op.core op.team op.group op.batch op.order code

/-- A multiplication on one team: A comes from the member in the same row, column 0 (R303). -/
def runMatMul (s : State) (c team : Nat) (op : EngineOp) : State :=
  let m := matMulOf op.words
  let t := getTeam s c team
  let src := if op.kind = 1 then spanSource s c team else (c, team)
  let ta := getTeam s src.1 src.2
  if op.kind = 1 && (holdBad t m || (t.spanCol == 0 && decide (t.size < aEnd m))) then failOp s op 0x05
  else
    let s := meetUpsets s c team op (matReads m)
    let blocks := m.k / m.bl
    let bad := m.csum && decide (s.ev.off < blocks) && decide (s.ev.extra = 4)
    let again := bad && s.ev.flag
    let reruns := if m.csum then ((if bad then [s.ev.off] else []) ++ s.ev.aux.filter (fun b => decide (b < blocks))).eraseDups else []
    let s := (reruns.filter (fun b => !again || decide (b ≤ s.ev.off))).foldl (fun t _ => countStatus t c team 0 16 16) s
    let r := matMul (getCore s src.1) (getCore s c) ta.scratch m (if again then s.ev.off else blocks)
    let s := raiseMat (endUpsets (setCore s c r.1) c (inBox m.slot m.row0 m.col0 m.rows m.cols)) c team r.2
    if again then failOp s op 0x01 else s

/-- The scratchpad ranges that an operation reads, in the allocation of the team that holds them: A's rows, the rows of an acpy from
the scratchpad, the words of an scld. -/
def opReads (op : EngineOp) : List (Nat × Nat) :=
  let w := fun (i : Nat) => (op.words.getD i 0).toNat
  match op.kind with
  | 0 | 1 =>
    let m := matMulOf op.words
    (upTo m.rows).map (fun r => (m.aoff + r * m.stride, m.k * elemBits m.afmt / 8))
  | 3 =>
    let box := acpyBox (op.words.drop 2)
    if w 0 < 4 then [] else (upTo box.2.2.2.1).map (fun r => (w 2 + r * w 3, box.2.2.2.2 * acpyWidth (w 0)))
  | 4 => [(w 0, 4 * w 2)]
  | _ => []

/-- The first poisoned scratchpad range that an operation reads (R71). -/
def opSpoiled (s : State) (c team : Nat) (op : EngineOp) : Option Nat :=
  let x := if op.kind = 1 then spanSource s c team else (c, team)
  ((opReads op).find? (fun r => spoiled (getCore s x.1) ((getTeam s x.1 x.2).scratch + r.1) r.2)).map (·.1)

/-- An operation that has read poisoned scratchpad data raises a machine check for its group (R71, R307). -/
def checkSpoiled (s t : State) (c team : Nat) (op : EngineOp) : State :=
  match opSpoiled s c team op with
  | none => t
  | some off => engineCheck t op.core op.group 0 off 0x01

/-- The soft error that an event brings: `extra` 1 to 3 an error of an engine memory (kind `extra` − 1 at `off`, uncorrectable
by `flag`), 4 a mismatch of K-block `off`, the second pass too by `flag` (R302); 0 none. `aux` names more K-blocks whose first pass
mismatches. -/
def noteUpset (s : State) (c : Nat) : State :=
  if s.ev.extra = 0 || decide (3 < s.ev.extra) then s
  else
    let k := getCore s c
    setCore s c { k with upsets := k.upsets ++ [⟨s.ev.extra - 1, s.ev.off, s.ev.flag⟩] }

/-- MATRIX_OP_COMPLETE: the sequencer has executed the first operation of a team's queue (R294, R298). -/
def execMatrixOpComplete (s : State) : Out :=
  let c := s.ev.core
  let team := s.ev.unit
  let t := getTeam s c team
  let s := noteUpset s c
  .next (match t.ops with
    | [] => s
    | op :: _ =>
      let k := getCore s c
      if k.mseqHeld || !mayRun s c team || k.stopped.isSome then s
      else
      let s := setCore s c { k with mseqGroup := op.group % 128 }
      match op.kind with
      | 0 | 1 => checkSpoiled s (popOp (runMatMul s c team op) c team op) c team op
      | 2 =>
        let slot := (op.words.getD 0 0).toNat
        let k := getCore s c
        popOp (endUpsets (setCore s c { k with acc := k.acc.filter (fun e => !(e.1 % 256 / 128 == slot)) }) c
          (inBox slot 0 0 128 128)) c team op
      | 3 =>
        let (slot, row0, col0, rows, cols) := acpyBox (op.words.drop 2)
        let box := inBox slot row0 col0 rows cols
        let s := if 4 ≤ (op.words.getD 0 0).toNat then endUpsets s c box else meetUpsets s c team op box
        let r := runAcpy s c team op.words
        checkSpoiled s (popOp (raiseMat r.1 c team r.2) c team op) c team op
      | 4 =>
        let k := getCore s c
        let off := (op.words.getD 0 0).toNat
        let e := (op.words.getD 1 0).toNat
        let put := fun (m : FMap Word) (i : Nat) => insertKey m (e + i) (wordOf (memNat k.scratch (t.scratch + off + 4 * i) 4))
        checkSpoiled s (popOp (endUpsets (setCore s c { k with scales := (upTo (op.words.getD 2 0).toNat).foldl put k.scales }) c
          (inScales e (op.words.getD 2 0).toNat)) c team op) c team op
      | _ =>
          let base := (op.words.getD 0 0).toNat + (if op.words.getD 4 0 = 1 then 0 else op.cap.base.toNat)
          let len := (op.words.getD 2 0).toNat
          let w := inWeights (op.words.getD 1 0).toNat len
          let s := if (op.words.getD 3 0).getLsbD 4 then meetUpsets s c team op w else s
          match runWbld c team op (linePieces (len / 128 + 2) (base + op.done) (len - op.done)) s op.done with
          | (s, _, none) => popOp s c team op
          | (s, done, some (.page off code kind)) =>
            let t := getTeam s c team
            let s := setTeam s c team { t with ops := { op with done := done } :: t.ops.drop 1 }
            pushDue s [⟨.wbldPageFaultHold, { core := c, unit := team, obj := op.cap.obj.toNat, off := off, value := code, extra := kind }⟩]
          | (s, done, some (.park off)) =>
            let t := getTeam s c team
            let s := setTeam s c team { t with ops := { op with done := done } :: t.ops.drop 1 }
            (match readEntry s (getCore s c).part op.cap.obj.toNat with
            | none => popOp (failOp s op 0x06) c team op
            | some e => parkAt s (getCore s c).part e off ⟨.matrixOpComplete, { core := c, unit := team }⟩)
          | (s, _, some .fail) => popOp (failOp s op 0x06) c team op
          | (s, _, some (.poison off code)) =>
            popOp (engineCheck (failOp s op 0x06) op.core op.group (if op.words.getD 4 0 = 1 then 0 else op.cap.obj.toNat) off code)
              c team op)

/-- WBLD_PAGE_FAULT_HOLD: the sequencer holds on a page fault of a wbld and its record goes to the supervisor queue (R311). -/
def execWbldPageFaultHold (s : State) : Out :=
  let e := s.ev
  let k := getCore s e.core
  .next (match (getTeam s e.core e.unit).ops with
    | [] => s
    | op :: _ =>
      if k.mseqHeld then s
      else unitRecord (setCore s e.core { k with mseqHeld := true, mseqGroup := op.group % 128 }) e.core 2 0
        { cls := 7, code := e.value, obj := e.obj, off := e.off, kind := e.extra } false)

/-- The team whose wbld the sequencer of a core runs or holds. -/
def wbldTeam (k : Core) : Option (Nat × EngineOp) :=
  k.teams.findSome? (fun t => match t.2.ops with
    | op :: _ => if op.kind == 5 && op.group % 128 == k.mseqGroup then some (t.1, op) else none
    | [] => none)

/-- The sequencer of a core goes on after a hold: the first operation of each team but one, which has been told so, is due. -/
def restartOps (s : State) (c but_ : Nat) : State :=
  pushDue s (((getCore s c).teams.filter (fun t => t.1 != but_ && !t.2.ops.isEmpty)).map (fun t =>
    ⟨.matrixOpComplete, { core := c, unit := t.1 }⟩))

/-- MSEQ_ABORT: a held or running wbld ends and its batch fails with code 0x06 (Table 13-7). -/
def execMseqAbort (s : State) : Out :=
  let c := s.ev.core
  let k := getCore s c
  .next (match wbldTeam k with
    | none => s
    | some (team, op) =>
      let t := popOp (failOp (setCore s c { k with mseqHeld := false }) op 0x06) c team op
      if k.mseqHeld then restartOps t c team else t)

/-- MSEQ_RESUME: a held wbld goes on from the faulting line (R311). -/
def execMseqResume (s : State) : Out :=
  let c := s.ev.core
  let k := getCore s c
  .next (match wbldTeam k with
    | none => s
    | some (team, _) =>
      if k.mseqHeld then
        restartOps (pushDue (setCore s c { k with mseqHeld := false }) [⟨.matrixOpComplete, { core := c, unit := team }⟩]) c team
      else s)

end Sys2Proof.Machine
end

