-- ==== Sys2Proof/Machine/Reed.lean ====
section
/-!
DEFINITION. The reed engine (spec/14 R313 to R327): streams, class masks, generators, and the thirteen reed instructions.
-/

namespace Sys2Proof.Machine

/-! ### Registers -/

/-- Reed length L of the group's launch. -/
def reedLen (s : State) : Nat := (curLaunch s).reedLen

/-- The stream of a lane, as the number whose bit j is stream bit j. -/
def reedRead (g : Group) (z i : Nat) : Nat := lookup g.regs.reeds (32 * z + i) 0

def reedMask (g : Group) (z : Nat) : BitVec 16 := lookup g.regs.zclass z 0

/-- Ones of a stream of L bits. -/
def onesOf (l n : Nat) : Nat := ((upTo l).filter (fun j => n.testBit j)).length

/-- The stream whose bit j is p j. -/
def streamOf (l : Nat) (p : Nat → Bool) : Nat := (upTo l).foldl (fun n j => if p j then n + 2 ^ j else n) 0

/-- All lanes of the group are active. -/
def allActive (s : State) : Bool := (activeLanes s).length == 4 * (curGroup s).nquad

/-- The mark of a poisoned reed register of a lane in `Regs.bad`. -/
def reedKey (z i : Nat) : Nat := 8192 + 32 * z + i

/-- Poisoned reed data that an active lane reads give a machine check for the lowest such lane (R71, R327). -/
def reedClean (s : State) (zs : List Nat) : Res Unit :=
  match (activeLanes s).find? (fun i => zs.any (fun z => (curGroup s).regs.bad.contains (reedKey z i))) with
  | none => .ok ()
  | some i => .error (.trap { cls := 1, code := 0x01, lane := i })

/-- Write a reed register in the active lanes and its mask by R316. -/
def reedWrite (s : State) (z : Nat) (mask : BitVec 16) (f : Nat → Nat) : State :=
  let g := curGroup s
  if (activeLanes s).isEmpty then s
  else
    let reeds := (activeLanes s).foldl (fun m i => insertKey m (32 * z + i) (f i)) g.regs.reeds
    let mask := if allActive s then mask else reedMask g z ||| mask
    let bad := g.regs.bad.filter (fun b => !(activeLanes s).any (fun i => b == reedKey z i))
    setCur s { g with regs := { g.regs with reeds := reeds, zclass := insertKey g.regs.zclass z mask, bad := bad } }

/-- The named reed registers exist (R314). -/
def reedNames (s : State) (zs : List Nat) : Res Unit := if zs.all (fun z => decide (z < (curLaunch s).nz)) then .ok () else illegal 0x06

/-- The class-0x3 checks of a reed instruction, its registers' last. -/
def reedFirst (s : State) (o : OpInfo) (zs : List Nat) : Res Unit :=
  match slotFault s o with
  | some c => illegal c
  | none => reedNames s zs

/-- Checks of a reed instruction without lane registers; whether a lane is active. -/
def reedCheck (s : State) (zs : List Nat) : Res Bool :=
  match checkSlot s { noLane := true } with
  | .error e => .error e
  | .ok () => match reedNames s zs with
    | .error e => .error e
    | .ok () => match checkWait s [] with
      | .error e => .error e
      | .ok () => after (checkUnder s [] []) <| .ok (!(activeLanes s).isEmpty)

/-! ### The datapath of a pipe (R326) -/

/-- Clocks that `n` streams occupy the datapath at `bits` bits a clock. -/
def reedClocks (s : State) (n bits : Nat) : Nat := Nat.max 1 ((n * reedLen s + bits - 1) / bits)

/-- Clocks of a generation in a class: the hashed classes run at 64 bits a clock. -/
def classClocks (s : State) (c : Nat) : Nat := if c < 8 then reedClocks s 1 256 else reedClocks s 1 64

/-- Clock from which the datapath of the issuing group's pipe is free. -/
def reedFreeAt (s : State) : Nat := lookup (getCore s s.cur.core).reedFree (curGroup s).pipe 0

/-- The datapath of the issuing group's pipe is occupied for `n` clocks from now. -/
def occupyReed (s : State) (n : Nat) : State :=
  let k := getCore s s.cur.core
  setCore s s.cur.core { k with reedFree := insertKey k.reedFree (curGroup s).pipe (s.clock + n) }

/-- Issue on the reed datapath: wait while it is busy, then occupy it; with no active lane it is not used (Table 14-6). -/
def onReed (s : State) (n : Nat) (r : Res State) : Out :=
  finish s (match r with
    | .error e => .error e
    | .ok t =>
      if (activeLanes s).isEmpty then .ok t
      else if s.clock < reedFreeAt s then .error (.hold .reed)
      else .ok (occupyReed t n))

/-! ### Generators (R318, R319) -/

/-- The `k` low bits of a number, reversed. -/
def bitReverse (k n : Nat) : Nat := (upTo k).foldl (fun r i => if n.testBit i then r + 2 ^ (k - 1 - i) else r) 0

/-- HashMix. -/
def hashMix (seed : Word) (c : Nat) (id : Word) (j : Nat) : Nat :=
  let x := seed + wordOf c * 0x9E3779B1#32
  let x := (x ^^^ id) * 0x85EBCA77#32
  let x := x ^^^ (x >>> 13)
  let x := (x ^^^ wordOf j) * 0x9E3779B1#32
  let x := x ^^^ (x >>> 16)
  let x := x * 0x85EBCA77#32
  let x := x ^^^ (x >>> 15)
  fieldNat x 16 16

/-- Generator value g_c(j). -/
def generator (l c : Nat) (seed glid : Word) (j : Nat) : Nat :=
  let st := 65536 / l
  let k := Nat.log2 l
  match c with
  | 0 => j * st
  | 1 => bitReverse k j * st
  | c => if c < 8 then bitReverse k (j * (2 * c - 1) % l) * st else hashMix seed c glid j

/-- Stream of a lane for a threshold in a class. -/
def generate (s : State) (c lane t : Nat) : Nat :=
  let g := curGroup s
  let l := reedLen s
  streamOf l (fun j => decide (generator l c g.regs.zseed (g.regs.glid + wordOf lane) j < t))

/-- Threshold of a unipolar value: p × 65,536 to nearest even, clamped. -/
def thresholdOf (v : Fp) : Nat :=
  match v with
  | .nan _ => 0
  | .inf n => if n then 0 else 65536
  | .fin n m e => if n then 0 else Nat.min (roundInt 0 false m (e + 16)).1 65536

/-- The unipolar value of a bipolar one. -/
def unipolar (v : Fp) : Fp :=
  match v with
  | .fin n m e => let d := dyAdd (dyOf (.fin n m e)) ⟨1, 0⟩; dyFp ⟨d.num, d.exp - 1⟩
  | w => w

/-- Threshold of a zgen kind: 0 .u, 1 .b, 2 .t (R321): a NaN and −0 give 0 in each of the three. -/
def zgenThreshold (k : Nat) (w : Word) : Nat :=
  if w == 0x80000000#32 || fieldNat w 0 31 > 0x7F800000 then 0 else match k with
  | 0 => thresholdOf (unpack fp32 w.toNat)
  | 1 => thresholdOf (unipolar (unpack fp32 w.toNat))
  | _ => Nat.min (fieldNat w 0 17) 65536

def execZgen (d : BitVec 3) (a : BitVec 7) (k : BitVec 2) (c : BitVec 4) (s : State) : Out :=
  let o : OpInfo := { noLane := true, srcA := some a, encBad := k == 3 || isStream a }
  onReed s (classClocks s c.toNat) (match reedFirst s o [d.toNat] with
    | .error e => .error e
    | .ok () =>
      match readSources s o [.reg a 0] with
      | .error e => .error e
      | .ok (vals, t) => after (checkUnder s [.reg a 0] []) <|
        let v := vals.getD 0 []
        .ok (applyLast (reedWrite t d.toNat (BitVec.ofNat 16 (2 ^ c.toNat))
          (fun i => generate s c.toNat i (zgenThreshold k.toNat (laneVal v i)))) o 1 0 []))

def execZregen (d a : BitVec 3) (c : BitVec 4) (s : State) : Out :=
  onReed s (classClocks s c.toNat) (match reedCheck s [d.toNat, a.toNat] with
    | .error e => .error e
    | .ok _ => match reedClean s [a.toNat] with
      | .error e => .error e
      | .ok () =>
      let l := reedLen s
      .ok (reedWrite s d.toNat (BitVec.ofNat 16 (2 ^ c.toNat))
        (fun i => generate s c.toNat i (onesOf l (reedRead (curGroup s) a.toNat i) * (65536 / l)))))

/-! ### Gates (R317, R322) -/

/-- A correlation fault (Table 14-3). -/
def reedFault {α : Type} (code : Nat) (x y : BitVec 16) : Res α :=
  .error (.trap { cls := 9, code := code, detail := [x.zeroExtend 32, y.zeroExtend 32] })

/-- Which mask rule a gate has: streams independent, or equal masks. -/
inductive MaskRule where
  | apart
  | same
deriving DecidableEq, Repr

/-- A two-input gate under a mask rule (R317): a constant stream, whose mask is 0, passes both rules against any partner, and the result of
a gate of the second rule then has the mask of the partner, as R315 keeps mask 0 for constant streams. -/
def gateOp (s : State) (rule : MaskRule) (d a b : BitVec 3) (f : Nat → Nat → Nat) : Out :=
  onReed s (reedClocks s 1 256) (match reedCheck s [d.toNat, a.toNat, b.toNat] with
    | .error e => .error e
    | .ok false => .ok s
    | .ok true => match reedClean s [a.toNat, b.toNat] with
      | .error e => .error e
      | .ok () =>
      let g := curGroup s
      let x := reedMask g a.toNat
      let y := reedMask g b.toNat
      let out := fun (m : BitVec 16) => reedWrite s d.toNat m (fun i => f (reedRead g a.toNat i) (reedRead g b.toNat i))
      match rule with
      | .apart => if x &&& y != 0 then reedFault 0x01 x y else .ok (out (x ||| y))
      | .same => if x != y && x != 0 && y != 0 then reedFault 0x02 x y else .ok (out (x ||| y)))

def execZand (d a b : BitVec 3) (s : State) : Out := gateOp s .apart d a b (fun x y => x &&& y)
def execZandc (d a b : BitVec 3) (s : State) : Out := gateOp s .same d a b (fun x y => x &&& y)
def execZor (d a b : BitVec 3) (s : State) : Out := gateOp s .apart d a b (fun x y => x ||| y)
def execZorc (d a b : BitVec 3) (s : State) : Out := gateOp s .same d a b (fun x y => x ||| y)
def execZxorc (d a b : BitVec 3) (s : State) : Out := gateOp s .same d a b (fun x y => x ^^^ y)

/-- zmux: the destination's stream selects. -/
def execZmux (d a b : BitVec 3) (s : State) : Out :=
  onReed s (reedClocks s 1 256) (match reedCheck s [d.toNat, a.toNat, b.toNat] with
    | .error e => .error e
    | .ok false => .ok s
    | .ok true => match reedClean s [d.toNat, a.toNat, b.toNat] with
      | .error e => .error e
      | .ok () =>
      let g := curGroup s
      let sel := reedMask g d.toNat
      let x := reedMask g a.toNat
      let y := reedMask g b.toNat
      if sel &&& (x ||| y) != 0 then reedFault 0x01 x y
      else .ok (reedWrite s d.toNat (sel ||| x ||| y) (fun i =>
        let q := reedRead g d.toNat i
        (reedRead g b.toNat i &&& q) ||| (reedRead g a.toNat i &&& ((2 ^ reedLen s - 1) ^^^ q)))))

def execZnot (d a : BitVec 3) (s : State) : Out :=
  onReed s (reedClocks s 1 256) (match reedCheck s [d.toNat, a.toNat] with
    | .error e => .error e
    | .ok _ => match reedClean s [a.toNat] with
      | .error e => .error e
      | .ok () => .ok (reedWrite s d.toNat (reedMask (curGroup s) a.toNat)
        (fun i => (2 ^ reedLen s - 1) ^^^ reedRead (curGroup s) a.toNat i)))

/-! ### Lane results (R323) and the seed (R325) -/

/-- Write a lane register from the reed registers named; `rs` are those whose streams it reads. -/
def reedOut (s : State) (o : OpInfo) (d : BitVec 7) (zs rs : List Nat) (f : Nat → Word) : Res State :=
  let o := { o with noLane := true, dst := some d, encBad := o.encBad || isStream d }
  match reedFirst s o zs with
    | .error e => .error e
    | .ok () => match readSources s o [] with
      | .error e => .error e
      | .ok (_, t) => after (checkUnder s [] []) <| match reedClean s rs with
        | .error e => .error e
        | .ok () => writeDst t d 0 [(upTo 32).map f]

def execZcnt (f : BitVec 1) (d : BitVec 7) (a : BitVec 3) (s : State) : Out :=
  let l := reedLen s
  onReed s (reedClocks s 1 256) (reedOut s {} d [a.toNat] [a.toNat] (fun i =>
    let n := onesOf l (reedRead (curGroup s) a.toNat i)
    if f = 0 then wordOf n else wordOf (packFp fp32 0 false (.fin false n (-(Nat.log2 l : Int)))).1))

def execZsum (n : BitVec 3) (d : BitVec 7) (a : BitVec 3) (s : State) : Out :=
  let zs := (upTo (n.toNat + 2)).map (fun k => a.toNat + k)
  onReed s (reedClocks s zs.length 256)
    (reedOut s { fnBad := n == 7, encBad := decide (7 < a.toNat + n.toNat + 1) } d zs zs (fun i =>
      wordOf (zs.foldl (fun m z => m + onesOf (reedLen s) (reedRead (curGroup s) z i)) 0)))

def execZclass (d : BitVec 7) (a : BitVec 3) (s : State) : Out :=
  finish s (reedOut s {} d [a.toNat] [] (fun _ => (reedMask (curGroup s) a.toNat).zeroExtend 32))

/-- zseed names no reed register; it traps like every reed instruction when the launch has none (R314). -/
def execZseed (a : BitVec 5) (s : State) : Out :=
  finish s (match checkSlot s { noLane := true } with
    | .error e => .error e
    | .ok () => match reedNames s [0] with
      | .error e => .error e
      | .ok () => match checkWait s [.unif a.toNat] with
        | .error e => .error e
        | .ok () => after (checkUnder s [.unif a.toNat] []) <|
          if (activeLanes s).isEmpty then .ok s
          else
            let g := curGroup s
            .ok (setCur s { g with regs := { g.regs with zseed := readUnif g s.clock a.toNat } }))

end Sys2Proof.Machine
end

