-- ==== Sys2Proof/Machine/Teams.lean ====
section
/-!
DEFINITION. Teams and groups on a core (spec/06 R134 to R147, R161, spec/03 R50 to R53, spec/04 R84): the SRAM split, the
admission of a team, the start and the end of a group, and their steps (POOLSPLIT_WRITE, TEAM_ADMISSION,
GROUP_INSTANTIATE, GROUP_RETIRE, GROUP_END); trace records (spec/17 R374) and block records (R373).
-/

namespace Sys2Proof.Machine

/-! ### Trace records (R374) -/

/-- Records that the trace ring of a die holds; none when TRSIZE disables it. -/
def traceCap (d : Debug) : Option Nat :=
  let n := fieldNat d.trsize 0 5
  if 12 ≤ n && n ≤ 30 then some (2 ^ n / 32) else none

/-- Write one trace record of a die: dropped and counted when the ring is full. -/
def traceWords (s : State) (die : Nat) (ws : List Word) : State :=
  let k := getDie s die
  let d := k.dbg
  match traceCap d with
  | none => s
  | some cap =>
    if !d.ctl.getLsbD 1 then s
    else if (d.trhead - d.trtail).toNat = cap then setDie s die { k with dbg := { d with trlost := d.trlost + 1 } }
    else
      let s := setDie s die { k with dbg := { d with trhead := d.trhead + 1 } }
      tableWrite s (fieldNat d.trbase 0 29 * 4096 + 32 * (d.trhead.toNat % cap)) (wordsBytes ws)

/-- PC of a group's candidate with the oldest last issue. -/
def oldestPc (s : State) (c slot : Nat) : Word :=
  match leastBy (fun x y => decide (lastIssueOf s x < lastIssueOf s y)) (groupCandidates c slot (getGroup s c slot)) with
  | some x => candidatePc s x
  | none => 0

/-- A trace record about a group (Table 17-7). -/
def traceGroup (s : State) (c slot kind value : Nat) : State :=
  let g := getGroup s c slot
  let r := curRegion g
  traceWords s (dieOf c) [wordOf (kind * 2 ^ 28 + c * 2 ^ 16 + slot), g.wg, r.serial, wordOf r.slots, wordOf s.clock,
    wordOf (s.clock / 2 ^ 32), oldestPc s c slot, wordOf value]

/-! ### The SRAM split (R50, R51) -/

/-- The fields of a split are in range and sum to 23 (R50). -/
def splitValid (w : Word) : Bool :=
  let r := fieldNat w 0 5
  let l := fieldNat w 5 5
  decide (4 ≤ r) && decide (r ≤ 8) && decide (2 ≤ l) && decide (l ≤ 8) && fieldNat w 10 5 + l + r == 23

/-- Take a new split: the L1 empties with its pins, and scratchpad contents do not survive. -/
def setSplit (s : State) (c : Nat) (w : Word) : State :=
  let k := getCore s c
  let s := setCore s c { k with poolsplit := w &&& 0x7FFF, l1 := [], scratch := [] }
  { s with dies := s.dies.map (fun e => (e.1, { e.2 with slices := e.2.slices.map (fun z =>
      (z.1, { z.2 with lines := z.2.lines.map (fun l => { l with sharers := l.sharers.filter (· != c) }) })) })) }

/-- POOLSPLIT_WRITE: ignored, and a split error, when it is out of range or a team is resident (Table 3-1). -/
def execPoolsplitWrite (s : State) : Out :=
  let c := s.ev.core
  let w := wordOf s.ev.value
  .next (if splitValid w && (getCore s c).teams.isEmpty then setSplit s c w
    else
      let d := getDie s (dieOf c)
      setDie s (dieOf c) { d with splitErrs := d.splitErrs + 1 })

/-! ### Resources of a team (R145, R53, R84) -/

/-- Register reservation of a launch's team. -/
def reservation (l : Launch) : Nat :=
  l.roles.foldl (fun n r => n + (r.2.peak + reedRegs l) * r.2.quads * r.2.min) 0

/-- Resident groups of a core, the supervisor lane aside. -/
def residents (k : Core) : FMap Group := k.groups.filter (fun e => e.1 != Config.laneSlot && e.2.resident)

/-- Free group slots, ascending. -/
def freeSlots (k : Core) : List Nat := (upTo Config.groupSlots).filter (fun i => !(residents k).any (fun e => e.1 == i))

/-- Groups resident on a pipe. -/
def pipeCount (k : Core) (p : Nat) : Nat := ((residents k).filter (fun e => e.2.pipe == p)).length

/-- The pipe of a new group: the fewest residents, the lower number winning a tie (R134). -/
def pickPipeFor (k : Core) : Nat := (leastBy (fun x y => decide (pipeCount k x < pipeCount k y)) [0, 1, 2, 3]).getD 0

/-- Bytes of a team's scratchpad allocation. -/
def teamBytes (l : Launch) : Nat := roundUp l.scratch 512

/-- First fit of an allocation in the scratchpad (R53). -/
def scratchFit (k : Core) (split : Word) (size : Nat) : Option Nat :=
  let used := k.teams.map (fun t => (t.2.scratch, t.2.size))
  let fits := fun (a : Nat) => decide (a + size ≤ fieldNat split 10 5 * 65536)
    && used.all (fun u => decide (a + size ≤ u.1) || decide (u.1 + u.2 ≤ a))
  leastBy (fun x y => decide (x < y)) ((0 :: used.map (fun u => u.1 + u.2)).filter fits)

/-- Matrix resources that no other team holds. -/
def matrixFree (k : Core) (m : Nat) : Bool :=
  k.teams.all (fun t => !(m.testBit 0 && t.2.acc0) && !(m.testBit 1 && t.2.acc1) && !(m.testBit 2 && t.2.weights))

/-- Sum over the teams of a core of what their launches declare. -/
def declared (s : State) (k : Core) (f : Launch → Nat) : Nat := k.teams.foldl (fun n t => n + f (getLaunch s t.2.launch)) 0

/-- The split a team asks for: a supervisor launch takes the one in force (R50). -/
def wantedSplit (k : Core) (l : Launch) : Word := if l.flags.getLsbD 3 then k.poolsplit else l.split

/-- A team of the launch can be admitted to the core, with `slots` groups, every resource at once (R50, R145). -/
def canAdmit (s : State) (c : Nat) (l : Launch) (slots : Nat) : Bool :=
  let k := getCore s c
  let split := wantedSplit k l
  k.running && k.stopped.isNone && k.part == l.part && (getPart s l.part).cores.contains c
    && (k.poolsplit == split || k.teams.isEmpty)
    && decide (reservation l ≤ (if k.teams.isEmpty then fieldNat split 0 5 * 4096 else freeRegs s c))
    && decide (slots ≤ (freeSlots k).length) && (lowestFree k.teams 64).isSome
    && (scratchFit k split (teamBytes l)).isSome
    && decide (declared s k (·.barriers) + l.barriers ≤ 64)
    && decide (declared s k (·.receives) + l.receives ≤ 256)
    && matrixFree k l.matrix

/-- Groups placed at admission under the reservation. -/
def minGroups (l : Launch) : Nat := l.roles.foldl (fun n r => n + r.2.min) 0

/-! ### The start of a group (R134, R141, R147) -/

/-- Registers of a group at its start: k1 and k8 to k15, s0 to s15 from the launch, GLID from its coordinates (R319). -/
def startRegs (l : Launch) (tl slot : Nat) : Regs :=
  { Regs.fresh with
    unif := (upTo (Nat.min l.words.length 16)).map (fun i => (i, l.words.getD i 0))
    caps := insertKey l.args 1 l.code
    glid := wordOf (2048 * tl + 32 * slot) }

/-- A group of a role at its start. -/
def freshGroup (l : Launch) (launch team tl slot role pipe clock : Nat) (credit : Bool) : Group :=
  let r := lookup l.roles role ⟨0, 1, 0, 0, 1, none, none⟩
  let g : Group :=
    { Group.vacant with
      resident := true, super := l.flags.getLsbD 3, role := role, nquad := r.quads, pipe := pipe, credit := credit,
      launch := launch, team := team, wg := wordOf (tl * 64 + slot),
      quads := (upTo r.quads).map (fun q => (q, { Quad.fresh r.entry with lastIssue := clock })),
      regs := startRegs l tl slot, stats := Stats.fresh clock }
  { g with regions := [startRegion g 0] }

/-- Start a group of a role in the lowest free slot. -/
def startGroup (s : State) (c team role : Nat) (credit : Bool) : State :=
  let k := getCore s c
  let t := getTeam s c team
  match (freeSlots k).head? with
  | none => s
  | some slot =>
    let g := freshGroup (getLaunch s t.launch) t.launch team t.tl slot role (pickPipeFor k) s.clock credit
    traceGroup (setGroup s c slot g) c slot 4 0

/-- Start `n` groups of a role. -/
def startGroups (c team role : Nat) (credit : Bool) : Nat → State → State
  | 0, s => s
  | n + 1, s => startGroups c team role credit n (startGroup s c team role credit)

/-- Room for one more group of a role on credit (R141, R147): a slot, and registers outside every reservation. -/
def creditRoom (s : State) (c : Nat) (l : Launch) (r : Role) : Bool :=
  !(freeSlots (getCore s c)).isEmpty && decide ((r.peak + reedRegs l) * r.quads ≤ freeRegs s c)

/-- Start groups of a source role on credit, up to its maximum, while there is room. -/
def startCredit (c team role : Nat) (l : Launch) (r : Role) : Nat → State → State
  | 0, s => s
  | n + 1, s => if creditRoom s c l r then startCredit c team role l r n (startGroup s c team role true) else s

/-! ### Admission (R145, R147) -/

/-- The grid coordinates of a linear team index (R278): x fastest. -/
def gridOf (l : Launch) (tl : Nat) : Nat × Nat × Nat :=
  (tl % Nat.max 1 l.gridX, tl / Nat.max 1 l.gridX % Nat.max 1 l.gridY, tl / Nat.max 1 l.gridX / Nat.max 1 l.gridY)

/-- Zero the engine memories that a launch's team is granted (R84). -/
def zeroGrants (k : Core) (m : Nat) : Core :=
  { k with
    acc := k.acc.filter (fun e => !m.testBit (e.1 % 256 / 128))
    weights := if m.testBit 2 then [] else k.weights
    scales := if m.testBit 2 then [] else k.scales
    upsets := k.upsets.filter (fun u => !m.testBit (if u.kind = 0 then u.loc % 64 / 32 else 2)) }

/-- Record a team on a core with its resources, zeroed: the TEAMID and the state. -/
def placeTeam (s : State) (c launch tl row col leader : Nat) : Nat × State :=
  let l := getLaunch s launch
  let split := wantedSplit (getCore s c) l
  let s := if (getCore s c).poolsplit == split then s else setSplit s c split
  let k := getCore s c
  let id := (lowestFree k.teams 64).getD 0
  let start := (scratchFit k k.poolsplit (teamBytes l)).getD 0
  let (gx, gy, gz) := gridOf l tl
  let t : Team := { Team.empty with
    launch := launch, tl := tl, gx := gx, gy := gy, gz := gz, spanRow := row, spanCol := col, leader := leader,
    scratch := start, size := teamBytes l, regReserve := reservation l,
    queues := l.queues.map (fun q => (q.1, ⟨q.2.1, q.2.2, 0, 0⟩)),
    acc0 := l.matrix.testBit 0, acc1 := l.matrix.testBit 1, weights := l.matrix.testBit 2 }
  let k := zeroGrants k l.matrix
  (id, setCore s c { k with teams := insertKey k.teams id t, scratch := memClear k.scratch start (teamBytes l),
                               badWords := wordsLeft k.badWords start (teamBytes l) })

/-- Admit a team: its resources, the minimum groups of every role, then source roles on credit (R147). -/
def admitTeam (s : State) (c launch tl row col leader : Nat) : State :=
  let l := getLaunch s launch
  let (id, s) := placeTeam s c launch tl row col leader
  let s := l.roles.foldl (fun s r => startGroups c id r.1 false r.2.min s) s
  let s := if replayMode l ≠ 0 then s
    else l.roles.foldl (fun s r => if r.2.inq.isNone then startCredit c id r.1 l r.2 (r.2.max - r.2.min) s else s) s
  if row = 0 && col = 0 then setLaunch s launch { getLaunch s launch with admitted := (getLaunch s launch).admitted + 1 } else s

/-- TEAM_ADMISSION: `obj` is the launch, `value` the team's index, `len` its span position 8 × row + column, `off` the core of
the span leader. Nothing happens when the resources cannot be reserved. -/
def execTeamAdmission (s : State) : Out :=
  let e := s.ev
  let l := getLaunch s e.obj
  .next (if hasKey s.launches e.obj && canAdmit s e.core l (minGroups l) then
      admitTeam s e.core e.obj e.value (e.len / 8) (e.len % 8) e.off
    else s)

/-! ### Instantiation (R141) and retirement (R142) -/

/-- Groups of a role that a team has. -/
def roleGroups (k : Core) (team role : Nat) : FMap Group := (residents k).filter (fun e => e.2.team == team && e.2.role == role)

/-- Evicted credit groups of a role of a team; they count as its groups. -/
def roleAway (l : Launch) (t : Team) (role : Nat) : Nat :=
  (l.away.filter (fun a => a.member == teamKey t && a.role == role)).length

/-- Groups a role has, evicted ones included. -/
def roleCount (s : State) (c team role : Nat) : Nat :=
  let t := getTeam s c team
  (roleGroups (getCore s c) team role).length + roleAway (getLaunch s t.launch) t role

/-- The role's demand holds: its input queue is at least half full, and it is below its maximum (R141). -/
def wantsGroup (s : State) (c team role : Nat) (r : Role) : Bool :=
  match r.inq with
  | none => false
  | some n =>
    let q := getQueue (getTeam s c team) n
    decide ((q.depth + 1) / 2 ≤ queueCount q) && decide (roleCount s c team role < r.max)
      && replayMode (getLaunch s (getTeam s c team).launch) == 0

/-- The first role of a core that qualifies for a further group: team and role, the lowest role first (R141), and of several teams
the lowest TEAMID first (DESIGN CHOICE, entry 62). -/
def instantiable (s : State) (c : Nat) : Option (Nat × Nat) :=
  (upTo 4).findSome? (fun r => (getCore s c).teams.findSome? (fun t =>
    let l := getLaunch s t.2.launch
    match find? l.roles r with
    | some x => if wantsGroup s c t.1 r x && creditRoom s c l x then some (t.1, r) else none
    | none => none))

/-- A step that admits teams, or places bundles. -/
def admits : Instr → Bool
  | .teamAdmission | .laterWaveAdmission | .bundlePlacement | .firmwareStep | .fallbackTurn => true
  | _ => false

/-- GROUP_INSTANTIATE: `unit` is the team, `value` the role. Admissions of the same clock come first (R162). -/
def execGroupInstantiate (s : State) : Out :=
  let e := s.ev
  let l := getLaunch s (getTeam s e.core e.unit).launch
  .next (if s.due.any (fun x => admits x.instr) then pushDue s [⟨.groupInstantiate, e⟩]
    else match find? l.roles e.value with
    | some r => if hasKey (getCore s e.core).teams e.unit && wantsGroup s e.core e.unit e.value r && creditRoom s e.core l r
        then startGroup s e.core e.unit e.value true else s
    | none => s)

/-- The group is parked in sqget. -/
def parkedGet (g : Group) : Bool :=
  g.quads.all (fun q => q.2.exited || (match q.2.park with | .queueEmpty _ => true | _ => false))

/-- Another role of the team has a full input queue and cannot instantiate for want of a slot or registers. -/
def crowded (s : State) (c team role : Nat) : Bool :=
  let t := getTeam s c team
  let l := getLaunch s t.launch
  l.roles.any (fun r => r.1 != role && (match r.2.inq with
    | some n =>
      let q := getQueue t n
      q.depth == queueCount q && decide (roleCount s c team r.1 < r.2.max) && !creditRoom s c l r.2
    | none => false))

/-- The group may be retired (R142); in record and replay modes none is (R375). Its regions before the one that sqget stands in have
committed, and that one holds nothing, so no memory effect is lost. The minimum is a number of groups: which of them were placed
under the reservation does not matter (DESIGN CHOICE, entry 62). -/
def mayRetire (s : State) (c slot : Nat) : Bool :=
  let g := getGroup s c slot
  let l := getLaunch s g.launch
  let r := lookup l.roles g.role ⟨0, 1, 0, 0, 1, none, none⟩
  g.resident && replayMode l == 0 && r.inq.isSome && decide (r.min < roleCount s c g.team g.role) && parkedGet g
    && crowded s c g.team g.role
    && decide (g.regions.length ≤ 1) && g.regions.all (fun r => r.deferred.isEmpty && r.stores.all (·.drained))
    && g.quads.all (fun q => q.2.exited || !parkOver s c slot q.2.park)

/-- The retirement candidate of a core: the highest group id (R142). -/
def retirable (s : State) (c : Nat) : Option Nat :=
  ((residents (getCore s c)).filter (fun e => mayRetire s c e.1)).getLast?.map (·.1)

/-! ### The end of a group (R251, R161, R355, R373) -/

/-- The block record of a group (Table 17-6); a clock in which the group has issued is over for it. -/
def blockRecord (s : State) (c slot endCode : Nat) : List Byte :=
  let g := getGroup s c slot
  let st := g.stats
  let finish := if st.issuedNow then s.clock + 1 else s.clock
  let sat := st.stalls.any (fun e => e.2 == 2 ^ 32 - 1)
  leBytes 4 (0x10000 + (if sat then 8 else 0) + endCode) ++ leBytes 4 g.wg.toNat
    ++ leBytes 4 (c * 2 ^ 16 + g.team * 2 ^ 8 + g.role * 2 ^ 6 + slot) ++ leBytes 4 st.saves
    ++ leBytes 8 st.start ++ leBytes 8 finish ++ leBytes 8 st.total ++ leBytes 4 st.committed ++ leBytes 4 0
    ++ leBytes 8 st.issued ++ leBytes 8 0
    ++ (upTo 16).flatMap (fun i => leBytes 4 (lookup st.stalls (i + 1) 0))

/-- Append a block record to the launch's record buffer: the count goes up even where the record does not fit. -/
def appendRecord (s : State) (launch : Nat) (bytes : List Byte) : State :=
  let l := getLaunch s launch
  match l.record with
  | none => s
  | some b =>
    match hwNat s l.part b 0 4 with
    | none => s
    | some n =>
      let s := hwPut s l.part b 0 4 (n + 1)
      if capLen b < 128 * (n + 1) + 128 then s else hwWrite s l.part b.obj.toNat (b.base.toNat + 128 * (n + 1)) bytes

/-- Drop the group from every barrier at which it is registered (R161). -/
def dropBarriers (s : State) (c slot team : Nat) : State :=
  (getTeam s c team).barriers.foldl (fun s b => if b.members.contains slot then putBarrier s c team (dropFrom b slot) else s) s

/-- Free the posted receives of a group (R251), and send refused messages again. -/
def freeReceives (s : State) (c slot team : Nat) : State :=
  let k := getCore s c
  resend (setCore s c { k with receives := k.receives.filter (fun r => !(r.2.group == slot && r.2.team == team)) }) c

/-- The taken records of a group return to pending (R355). -/
def returnRecords (k : Core) (slot : Nat) : Core :=
  let mine := fun (r : RecMeta) => match r.state with | .taken t _ => t == slot | _ => false
  if k.records.any (fun e => mine e.2) then
    noteIdle { k with records := k.records.map (fun e => if mine e.2 then (e.1, { e.2 with state := .pending }) else e) }
  else k

/-- A team of a launch has groups left: resident, or saved. -/
def teamAlive (s : State) (c team : Nat) : Bool :=
  let t := getTeam s c team
  (residents (getCore s c)).any (fun e => e.2.team == team) || (getLaunch s t.launch).away.any (fun a => a.member == teamKey t)

/-- Member teams of a launch's grid. -/
def gridMembers (l : Launch) : Nat := gridTeams l * spanSize l

/-- Every group of the grid has exited (R137). -/
def gridExited (l : Launch) : Bool := l.admitted == gridTeams l && l.finished == gridMembers l

/-- Every group of the grid has executed trigger or exited (R160). -/
def gridTriggered (s : State) (launch : Nat) : Bool :=
  let l := getLaunch s launch
  l.admitted == gridTeams l && l.away.all (·.trigger)
    && s.cores.all (fun c => (residents c.2).all (fun g => g.2.launch != launch || g.2.trigger))

/-- A word of a launch's coverage map as it lies at home; none where it cannot be read. -/
def mapWord (s : State) (l : Launch) (t : Truss) (w : Nat) : Option Nat :=
  match readEntry s l.part t.coverage.obj.toNat with
  | none => none
  | some e => match readHome s l.part e (t.coverage.base.toNat + 4 * w) 4 with
    | .ok (bs, _) => some (leNat bs)
    | .error _ => none

/-- No grain of a launch's truss is free or claimed: TSFREE and TSCLAIM are 0 (R339). -/
def mapSettled (s : State) (l : Launch) : Bool :=
  match l.truss with
  | none => true
  | some t => (upTo ((grainCount t + 15) / 16)).all (fun w => match mapWord s l t w with
    | none => false
    | some v => (upTo 16).all (fun i => decide (grainCount t ≤ 16 * w + i) || decide (2 ≤ grainCode v i)))

/-- The grid is complete: its groups have exited, its ordered reductions are applied, and no grain of its map is free or claimed
(R137, R339). -/
def gridComplete (s : State) (l : Launch) : Bool := gridExited l && l.logs.isEmpty && mapSettled s l

/-- What may follow a trigger or the end of a group: the launch's TRIGGER signal, its reduction log, its bundle's end. -/
def afterGroup (s : State) (launch : Nat) : State :=
  let l := getLaunch s launch
  let s := if l.trigger.isSome && !l.trigSent && gridTriggered s launch then pushDue s [⟨.triggerSignal, { unit := launch }⟩] else s
  let s := if gridExited l && !l.logs.isEmpty then pushDue s [⟨.fredLogApply, { die := l.die }⟩] else s
  let b := getBundle s l.bundle
  if b.launches.all (fun i => gridComplete s (getLaunch s i)) && !b.retired then pushDue s [⟨.bundleRetire, { unit := l.bundle }⟩] else s

/-- Release a team's resources: its reduction log waits for the end of the grid. The logs of a span team's members, which have one team
index, follow each other in the order in which the members end (entry 74). -/
def endTeam (s : State) (c team : Nat) : State :=
  let k := getCore s c
  let t := getTeam s c team
  let l := getLaunch s t.launch
  let logs := if t.fredlog.isEmpty then l.logs else insertKey l.logs t.tl (lookup l.logs t.tl [] ++ t.fredlog)
  let s := setLaunch s t.launch { l with finished := l.finished + 1, logs := logs }
  setCore s c { k with teams := eraseKey k.teams team }

/-- The copies of a group that ends. With `cut`, as its bundle is aborted, the queued ones and those of the scratchpad end, for the
allocation goes (R144; entry 63); committed ones go on without an owner (R96, R251). -/
def disownCopies (s : State) (c slot : Nat) (cut : Bool) : State :=
  (upTo 8).foldl (fun s n =>
    let ch := getChannel s c n
    if ch.group ≠ slot then s
    else if ch.state = 0 then setChannel s c n { ch with wp := 0, owner := (0, 0, 0) }
    else if ch.state = 1 || (cut && (srcScratch ch.desc || dstScratch ch.desc)) then
      let s := endCopy s c n true none
      setChannel s c n { getChannel s c n with wp := 0, owner := (0, 0, 0) }
    else setChannel s c n { ch with group := 128 + slot, owner := (0, 0, 0) }) s

/-- A committed copy of a team still reads or writes its allocation. -/
def teamCopies (s : State) (c team : Nat) : Bool :=
  (upTo 8).any (fun n =>
    let ch := getChannel s c n
    decide (2 ≤ ch.state) && ch.team == team && (srcScratch ch.desc || dstScratch ch.desc))

/-- A team that has neither a group nor a copy of its allocation left ends. -/
def closeTeam (s : State) (c team : Nat) : State :=
  if teamAlive s c team || teamCopies s c team || !hasKey (getCore s c).teams team then s else endTeam s c team

/-- End a group: drops, receives, taken records, block record; then its slot is free, and its team ends with it if it was the
last. `endCode` is 1 exit, 2 retired, 4 bundle abort. -/
def endGroup (s : State) (c slot endCode : Nat) : State :=
  let g := getGroup s c slot
  let s := traceGroup s c slot 5 0
  let s := dropBarriers s c slot g.team
  let s := freeReceives s c slot g.team
  let s := appendRecord s g.launch (blockRecord s c slot endCode)
  let s := setCore s c (returnRecords (getCore s c) slot)
  let s := disownCopies s c slot (endCode == 4)
  let s := setGroup s c slot Group.vacant
  let s := closeTeam s c g.team
  if endCode = 4 then s else afterGroup s g.launch

/-- GROUP_RETIRE: `unit` is the group. -/
def execGroupRetire (s : State) : Out :=
  .next (if mayRetire s s.ev.core s.ev.unit then endGroup s s.ev.core s.ev.unit 2 else s)

/-- Every quad has exited, every region has committed and every batch is complete (R251). -/
def mayEnd (g : Group) : Bool :=
  g.resident && g.quads.all (fun q => q.2.exited) && g.regions.isEmpty && g.batch.live.isEmpty

/-- GROUP_END: `unit` is the group; from 128 on, a copy without an owner has ended, of the team `obj`. -/
def execGroupEnd (s : State) : Out :=
  .next (if 128 ≤ s.ev.unit then
      let launch := (getTeam s s.ev.core s.ev.obj).launch
      afterGroup (closeTeam s s.ev.core s.ev.obj) launch
    else if mayEnd (getGroup s s.ev.core s.ev.unit) then endGroup s s.ev.core s.ev.unit 1 else s)

end Sys2Proof.Machine
end

