-- ==== Sys2Proof/Machine/Save.lean ====
section
/-!
DEFINITION. The context save (spec/16 R356 to R359): save areas, what a save waits for, saving and restoring a group or a
team, and the credit evictions of the hardware (spec/06 R146: CREDIT_EVICTION, CREDIT_READMIT).
-/

namespace Sys2Proof.Machine

/-- A bit as a number. -/
def bitNat (b : Bool) : Nat := if b then 1 else 0

/-- Bytes of a group's area (Table 16-9), and the same rounded to 4 KiB. -/
def groupAreaSize (l : Launch) : Nat := 0x8E00 + l.nz * 4 * l.reedLen
def groupAreaStep (l : Launch) : Nat := roundUp (groupAreaSize l) 4096

/-- The first word of a saved wait, and its kind: 1 a barrier, 2 a span barrier; 0 for none. -/
def waitKind (p : Park) : Nat := match p with | .barrier .. => 1 | .span .. => 2 | _ => 0
def waitWord (p : Park) : Nat :=
  match p with
  | .barrier o n _ _ => 1 + n % 256 * 4 + o * 1024
  | .span b n _ => 2 + n % 256 * 4 + b * 1024
  | _ => 0

/-- The wait that two words of an area name. -/
def waitOf (n : Nat) (pc : Word) : List Park :=
  match n % 4 with
  | 1 => [.barrier (n / 1024) (n / 4 % 256) pc true]
  | 2 => [.span (n / 1024) (n / 4 % 256) pc]
  | _ => []

/-- The waits of a group after arrivals that have performed: those abandoned before, and those of its quads, whose waiting
instructions execute again after the restore (R266). At most one belongs to the handler and one to the rest. -/
def savedWaits (g : Group) : List Park := g.user.waits ++ arrivedWaits g

/-- The header of a group's area: its words beyond the first are placed by the model (entry 24). -/
def headerWords (g : Group) (slot : Nat) : List Nat :=
  let w := (savedWaits g).getD 0 .none
  let bind := fun (q : Nat) => match find? g.regs.binds q with | some e => 8 + e | none => 0
  [0x53560001,
   g.nquad + g.role * 16 + bitNat g.super * 64 + g.pipe * 128 + bitNat g.trigger * 512 + bitNat g.user.inHandler * 1024
     + bitNat g.credit * 2048 + waitKind w * 4096 + g.spec.kstat.toNat * 2 ^ 14 + g.spec.cpstat.toNat * 2 ^ 16
     + bitNat g.spec.regstat * 2 ^ 18 + g.spec.fpflags.toNat * 2 ^ 19,
   g.spec.serial.toNat, g.spec.retired.toNat, g.regs.wb, (g.batch.opened + 2 ^ 32 - 1) % 2 ^ 32, g.batch.opened,
   g.regs.glid.toNat, g.regs.zseed.toNat,
   bind 0 + bind 1 * 16 + bind 2 * 256 + bind 3 * 4096 + g.regs.defined.toNat * 2 ^ 24,
   g.launch, slot, waitWord w, (waitPc w).toNat, g.wg.toNat, g.stats.total / 2 ^ 32]

/-- The piece of one quad (0x0500 + 256 q). -/
def quadPieces (g : Group) (q : Nat) : List Piece :=
  let x := getQuad g q
  let at_ := 0x500 + 256 * q
  let flags := x.mask.toNat + bitNat x.member * 16 + bitNat x.waiting * 32 + bitNat x.exited * 64 + x.stack.length * 256
  let bits := (upTo 252).foldl (fun n i => if hasKey g.regs.lanes (8 * i + q) then n + 2 ^ i else n) 0
  [piece at_ 4 (waitingPc x).toNat, piece (at_ + 4) 4 flags, piece (at_ + 8) 32 bits]
    ++ (upTo x.stack.length).flatMap (fun i =>
      let e := x.stack.getD i ⟨false, 0, 0⟩
      [piece (at_ + 0x80 + 8 * i) 4 e.pc.toNat, piece (at_ + 0x84 + 8 * i) 4 (e.mask.toNat + bitNat e.pending * 16)])

/-- The names mapped in some quad of the group. -/
def mappedNames (g : Group) : List Nat := (g.regs.lanes.map (fun e => e.1 / 8)).eraseDups

/-- A group's area (Table 16-9), of a group whose uncommitted regions have aborted. -/
def groupPieces (s : State) (c slot : Nat) : List Piece :=
  let g := getGroup s c slot
  let l := getLaunch s g.launch
  let hd := headerWords g slot
  let lp := fun (i : Nat) => (lookup g.regs.lps i 0).toNat
  let u := g.user
  let w1 := (savedWaits g).getD 1 .none
  [⟨0, hd.flatMap (leBytes 4), false⟩]
    ++ (upTo 16).map (fun i => let c := readCap g i; ⟨0x40 + 16 * i, if c.tag then capBytes c else List.replicate 16 0, c.tag⟩)
    ++ (upTo 32).map (fun i => piece (0x140 + 4 * i) 4 (lookup g.regs.unif i 0).toNat)
    ++ (upTo 7).map (fun i => piece (0x1C0 + 4 * i) 4 (lookup g.regs.preds (i + 1) 0).toNat)
    ++ [piece 0x1DC 4 0, piece 0x1E0 4 (lp 1 + lp 2 * 256 + lp 3 * 65536), piece 0x1E4 4 u.handler.toNat,
        piece 0x1E8 4 (u.payload.getD 0).toNat, piece 0x1EC 4 (bitNat u.payload.isSome), piece 0x1F0 4 u.resume.toNat,
        piece 0x1F4 4 ((upTo 8).foldl (fun n q => n + (lookup u.masks q 0).toNat * 16 ^ q) 0), piece 0x1F8 4 u.s30.toNat,
        piece 0x1FC 4 (waitWord w1)]
    ++ (upTo 64).map (fun i => piece (0x200 + 4 * i) 4 (lookup g.regs.streams i 0).toNat)
    ++ (upTo 64).map (fun i =>
        let p := lookup g.regs.pos i ⟨0, 0, 0⟩
        piece (0x300 + 8 * i) 8 (p.j0 + p.j1 * 2 ^ 16 + p.j2 * 2 ^ 32))
    ++ (upTo g.nquad).flatMap (quadPieces g)
    ++ (upTo 4).map (fun i => piece (0xD00 + 4 * i) 4 (lookup g.staging.regs i 0).toNat)
    ++ [piece 0xD10 4 (bitNat g.staging.valid), piece 0xD14 4 (waitPc w1).toNat, piece 0xD18 4 g.spec.clockHi.toNat, piece 0xD1C 4 0]
    ++ (upTo 8).map (fun i => piece (0xD20 + 2 * i) 2 (lookup g.regs.zclass i 0).toNat)
    ++ (upTo 16).map (fun i => piece (0xD30 + 4 * i) 4 (lookup g.stats.stalls (i + 1) 0))
    ++ [piece 0xD70 8 g.stats.issued, piece 0xD78 8 g.stats.start, piece 0xD80 8 g.stats.resident, piece 0xD88 4 g.stats.saves,
        piece 0xD8C 4 g.stats.committed,
        piece 0xD90 4 (bitNat g.stats.stopped + g.stats.stopCode * 256 + bitNat g.stats.stopAll * 65536),
        piece 0xD94 4 g.stats.stopS.toNat, piece 0xD98 4 g.stats.stopN,
        piece 0xD9C 4 (match g.stats.limit with | some n => n + 2 ^ 31 | none => 0),
        piece 0xDA0 8 g.stats.hash.toNat, ⟨0xDA8, List.replicate 600 0, false⟩]
    ++ (mappedNames g).map (fun n =>
        ⟨0x1000 + 128 * n, (upTo 32).flatMap (fun i => leBytes 4 (qget (lookup g.regs.lanes (8 * n + i / 4) QReg.zero) (i % 4)).toNat),
         false⟩)
    ++ (upTo l.nz).flatMap (fun z => (upTo (4 * g.nquad)).map (fun i =>
        piece (0x8E00 + 4 * l.reedLen * z + i * l.reedLen / 8) (l.reedLen / 8) (reedRead g z i)))

/-- A number of an area, 0 where it cannot be read. -/
def areaNat (s : State) (a : Area) (off n : Nat) : Nat :=
  match readHome s a.part a.desc (a.base + off) n with | .ok (bs, _) => leNat bs | .error _ => 0

/-- A capability of an area, by its tag (R17, R18). -/
def areaCap (s : State) (a : Area) (off : Nat) : Cap :=
  let at_ := a.base + off
  match homeLine s a.part a.desc at_ with
  | .error _ => Cap.null
  | .ok (l, _) =>
    capOf (!l.pool && l.tags.getLsbD (at_ % 128 / 16)) (BitVec.ofNat 128 (leNat (((lineBytes l).drop (at_ % 128)).take 16)))

/-! ### Restoring a group -/

/-- Numbers as a map without the entries that are 0. -/
def nonzero (n : Nat) (f : Nat → Nat) : FMap Word := ((upTo n).filter (fun i => f i != 0)).map (fun i => (i, wordOf (f i)))

/-- The quad of an area. -/
def areaQuad (s : State) (a : Area) (clock q : Nat) : Quad :=
  let at_ := 0x500 + 256 * q
  let f := areaNat s a (at_ + 4) 4
  { Quad.fresh (wordOf (areaNat s a at_ 4)) with
    mask := BitVec.ofNat 4 (f % 16), member := f.testBit 4, waiting := f.testBit 5, exited := f.testBit 6,
    lastIssue := clock
    stack := (upTo (f / 256 % 32)).map (fun i =>
      let e := areaNat s a (at_ + 0x84 + 8 * i) 4
      ⟨e.testBit 4, wordOf (areaNat s a (at_ + 0x80 + 8 * i) 4), BitVec.ofNat 4 (e % 16)⟩) }

/-- The mapped lane registers of an area. -/
def areaLanes (s : State) (a : Area) (nquad : Nat) : FMap QReg :=
  let bits := (upTo nquad).map (fun q => areaNat s a (0x508 + 256 * q) 32)
  (upTo 252).flatMap (fun n => ((upTo nquad).filter (fun q => (bits.getD q 0).testBit n)).map (fun q =>
    let w := fun (i : Nat) => wordOf (areaNat s a (0x1000 + 128 * n + 16 * q + 4 * i) 4)
    (8 * n + q, ⟨w 0, w 1, w 2, w 3⟩)))

/-- The header of an area is that of a valid save of a group of a member team of a launch that still runs. -/
def areaValid (s : State) (member : Nat) (a : Area) : Bool :=
  let w1 := areaNat s a 4 4
  areaNat s a 0 4 == 0x53560001 && hasKey s.launches (areaNat s a 0x28 4)
    && (getLaunch s (areaNat s a 0x28 4)).away.any (fun x => x.member == member && x.tl * 64 + x.g == areaNat s a 0x38 4)
    && decide (1 ≤ w1 % 16) && decide (w1 % 16 ≤ 8)

/-- The group that an area holds, to be resident in a team. One that was stopped stays so: the slots before its stop, which the save has
aborted, execute again up to it, and nothing beyond (R358, R369). -/
def areaGroup (s : State) (a : Area) (team : Nat) (b : Batches) : Group :=
  let n := areaNat s a
  let h := fun (i : Nat) => n (4 * i) 4
  let nquad := h 1 % 16
  let launch := h 10
  let l := getLaunch s launch
  let lp := n 0x1E0 4
  let bind := fun (q : Nat) => h 9 / 16 ^ q % 16
  let dbg := n 0xD90 4
  let stopped := dbg.testBit 0
  let limit := n 0xD9C 4
  let g : Group :=
    { Group.vacant with
      resident := true, super := (h 1).testBit 6, role := h 1 / 16 % 4, nquad := nquad, pipe := h 1 / 128 % 4,
      credit := (h 1).testBit 11, launch := launch, team := team, wg := wordOf (h 14), trigger := (h 1).testBit 9
      quads := (upTo nquad).map (fun q => (q, areaQuad s a s.clock q))
      regs := { Regs.fresh with
        lanes := areaLanes s a nquad
        preds := (nonzero 7 (fun i => n (0x1C0 + 4 * i) 4)).map (fun e => (e.1 + 1, e.2))
        unif := nonzero 32 (fun i => n (0x140 + 4 * i) 4)
        caps := ((upTo 15).map (fun i => (i + 1, areaCap s a (0x50 + 16 * i)))).filter (fun e => e.2.tag)
        lps := (upTo 3).map (fun i => (i + 1, BitVec.ofNat 8 (lp / 256 ^ i)))
        wb := h 4
        streams := nonzero 64 (fun i => n (0x200 + 4 * i) 4)
        defined := BitVec.ofNat 8 (h 9 / 2 ^ 24)
        binds := ((upTo 4).filter (fun q => decide (8 ≤ bind q))).map (fun q => (q, bind q - 8))
        pos := (upTo 64).map (fun i =>
          let v := n (0x300 + 8 * i) 8
          (i, ⟨v % 2 ^ 16, v / 2 ^ 16 % 2 ^ 16, v / 2 ^ 32 % 2 ^ 16⟩))
        reeds := (upTo l.nz).flatMap (fun z => (upTo (4 * nquad)).map (fun i =>
          (32 * z + i, n (0x8E00 + 4 * l.reedLen * z + i * l.reedLen / 8) (l.reedLen / 8))))
        zclass := (upTo 8).map (fun z => (z, BitVec.ofNat 16 (n (0xD20 + 2 * z) 2)))
        zseed := wordOf (h 8), glid := wordOf (h 7) }
      spec := { Specials.fresh with
        fpflags := BitVec.ofNat 5 (h 1 / 2 ^ 19), kstat := BitVec.ofNat 2 (h 1 / 2 ^ 14), cpstat := BitVec.ofNat 2 (h 1 / 2 ^ 16),
        regstat := (h 1).testBit 18, clockHi := wordOf (n 0xD18 4), retired := wordOf (h 3), serial := wordOf (h 2) }
      user := ⟨wordOf (n 0x1E4 4), if (n 0x1EC 4).testBit 0 then some (wordOf (n 0x1E8 4)) else none, (h 1).testBit 10,
        wordOf (n 0x1F0 4), (upTo 8).map (fun q => (q, BitVec.ofNat 4 (n 0x1F4 4 / 16 ^ q))), wordOf (n 0x1F8 4),
        waitOf (h 12) (wordOf (h 13)) ++ waitOf (n 0x1FC 4) (wordOf (n 0xD14 4))⟩
      batch := { b with opened := h 6 }
      staging := ⟨(upTo 4).map (fun i => (i, wordOf (n (0xD00 + 4 * i) 4))), (n 0xD10 4).testBit 0⟩
      stats := { Stats.fresh (n 0xD78 8) with
        stalls := (upTo 16).map (fun i => (i + 1, n (0xD30 + 4 * i) 4)), issued := n 0xD70 8, resident := n 0xD80 8,
        saves := n 0xD88 4, committed := n 0xD8C 4, total := h 3 + h 15 * 2 ^ 32, hash := BitVec.ofNat 64 (n 0xDA0 8),
        stopped := stopped, stopCode := dbg / 256 % 256, stopAll := dbg.testBit 16, stopS := wordOf (n 0xD94 4), stopN := n 0xD98 4,
        limit := if stopped then (if n 0xD98 4 = 0 then none else some (n 0xD98 4)) else if limit.testBit 31 then some (limit % 2 ^ 31) else none } }
  { g with regions := [startRegion g g.spec.serial] }

/-! ### What a save waits for (R356, R107, R312) -/

/-- The group is parked on a record. -/
def onRecord (g : Group) : Bool :=
  g.quads.any (fun q => match q.2.park with | .trap _ | .trapQueue _ | .syscall _ => true | _ => false)

/-- Copies of a group that have committed and not ended. -/
def copiesBusy (s : State) (c slot : Nat) : Bool :=
  (upTo 8).any (fun n => let ch := getChannel s c n; decide (2 ≤ ch.state) && ch.group == slot)

/-- Handed-over engine operations of a group, or of any team that holds one of its operations. -/
def opsBusy (s : State) (c slot : Nat) : Bool :=
  s.cores.any (fun k => k.2.teams.any (fun t => t.2.ops.any (fun o => o.core == c && o.group == slot)))

/-- A group can be saved now; its matrix operations stay with the team (R107, R162, R312). -/
def savable (s : State) (c slot : Nat) : Bool :=
  let g := getGroup s c slot
  !onRecord g && !atGate g && !copiesBusy s c slot && !(g.regions.any (·.ended))

/-- The groups of a team, ascending. -/
def teamSlots (s : State) (c team : Nat) : List Nat := ((residents (getCore s c)).filter (fun e => e.2.team == team)).map (·.1)

/-- A member team can be saved now: its operations and those of its groups have completed, and the copies of its allocation (R107,
R312). -/
def memberSavable (s : State) (c team : Nat) : Bool :=
  (getTeam s c team).ops.isEmpty && !teamCopies s c team && (teamSlots s c team).all (fun g => savable s c g && !opsBusy s c g)

/-- A gsave on the core waits to save the team. -/
def teamAwaited (s : State) (c team : Nat) : Bool :=
  (getCore s c).groups.any (fun e => e.2.quads.any (fun q => match q.2.park with
    | .saving _ (some t) _ => t == team
    | _ => false))

/-- A team can be saved now. The members of a span team are saved together: each of the others that is resident is ready too, and a gsave of
its core waits for it (R136, entry 61). -/
def teamSavable (s : State) (c team : Nat) : Bool :=
  (spanMembers s c team).all (fun m => memberSavable s m.1 m.2.1 && (m.1 == c && m.2.1 == team || teamAwaited s m.1 m.2.1))

/-- The groups that a gsave waits for have aborted their uncommitted regions; one that waits for a record has done so already, and one
at an order gate keeps the operation that waits there (R356, R430). -/
def abortWaiting (s : State) (c : Nat) (slots : List Nat) : State :=
  slots.foldl (fun s g => if onRecord (getGroup s c g) || atGate (getGroup s c g) then s else abortRegions s c g 0) s

/-! ### Saving -/

/-- What the launch keeps of a saved group. -/
def awayOf (s : State) (c slot : Nat) (credit whole : Bool) : Away :=
  let g := getGroup s c slot
  let t := getTeam s c g.team
  ⟨t.tl, g.wg.toNat % 64, teamKey t, c, g.team, g.role, g.pipe, g.trigger, g.batch, credit, whole⟩

/-- The state in which a group's uncommitted regions have aborted and its save is counted. -/
def abortForSave (s : State) (c slot : Nat) : State :=
  let s := abortRegions s c slot 0
  let g := getGroup s c slot
  setGroup s c slot { g with stats := { g.stats with saves := g.stats.saves + 1 } }

/-- Matrix operations of a group, in the queues of any team, take another number of the group. -/
def renameOps (c team x y : Nat) (k : Core) : Core :=
  { k with teams := k.teams.map (fun t => (t.1, { t.2 with ops := t.2.ops.map (fun o =>
      if o.core == c && o.team == team && o.group == x then { o with group := y } else o) })) }

/-- Barriers, receives and matrix operations of a team name its groups by slot: number `x` becomes `y` there. A saved group is
128 + G. -/
def renameGroup (s : State) (c team x y : Nat) : State :=
  let t := getTeam s c team
  let move := fun (l : List Nat) => if l.contains x then insertNat (l.filter (· != x)) y else l
  let s := setTeam s c team { t with barriers := t.barriers.map (fun b => { b with members := move b.members, arrived := move b.arrived }) }
  let k := getCore s c
  let s := setCore s c { k with receives := k.receives.map (fun r =>
    if r.2.team == team && r.2.group == x then (r.1, { r.2 with group := y }) else r) }
  { s with cores := s.cores.map (fun e => (e.1, renameOps c team x y e.2)) }

/-- Channels whose most recent copy a slot's group issued take another slot for it (R98). -/
def renameCopies (s : State) (c x y : Nat) (owner : Nat × Nat × Nat) : State :=
  (upTo 8).foldl (fun s n =>
    let ch := getChannel s c n
    if ch.group == x && ch.owner == owner then setChannel s c n { ch with group := y } else s) s

/-- Free the slot of a saved group. -/
def freeSaved (s : State) (c slot : Nat) (credit whole : Bool) : State :=
  let g := getGroup s c slot
  let a := awayOf s c slot credit whole
  let s := renameCopies s c slot (128 + a.g) (storerOf s c slot)
  let s := renameGroup s c g.team slot (128 + a.g)
  let l := getLaunch s g.launch
  let s := setLaunch s g.launch { l with away := l.away ++ [a] }
  let s := setCore s c (returnRecords (getCore s c) slot)
  setGroup s c slot Group.vacant

/-- Save one group into an area. -/
def saveGroup (s : State) (c slot : Nat) (a : Area) (credit : Bool) : Except MemErr State :=
  let t := traceGroup (abortForSave s c slot) c slot 6 0
  match savePieces a t (groupPieces t c slot) with
  | .error e => .error e
  | .ok t => .ok (freeSaved t c slot credit false)

/-! ### A team's area (R359) -/

/-- Sets of group numbers as bits. -/
def setBits (l : List Nat) : Nat := l.foldl (fun n i => n + 2 ^ i) 0
def bitsSet (n : Nat) : List Nat := (upTo 192).filter (fun i => n.testBit i)

/-- A barrier, a stage queue, a claim slot and a receive of a team's area, in entries of 64, 16, 64 and 64 bytes. -/
def barrierPieces (t : Team) : List Piece :=
  (upTo t.barriers.length).flatMap (fun i =>
    let b := t.barriers.getD i ⟨0, 0, [], []⟩
    [piece (64 * i) 4 b.offset, piece (64 * i + 4) 4 (b.phase + 2 ^ 31), piece (64 * i + 8) 24 (setBits b.members),
     piece (64 * i + 32) 24 (setBits b.arrived)])

def queuePieces (t : Team) : List Piece :=
  t.queues.flatMap (fun q => [piece (16 * q.1) 4 (q.2.put - q.2.removed), piece (16 * q.1 + 4) 4 (q.2.removed % q.2.depth)])

def claimPieces (t : Team) : List Piece :=
  (upTo 64).flatMap (fun h => match find? t.claims h with
    | none => [piece (64 * h) 64 0]
    | some k =>
      [piece (64 * h) 4 (1 + bitNat k.revoked * 2), piece (64 * h + 4) 4 k.origin,
       ⟨64 * h + 8, (upTo 4).flatMap (fun i => leBytes 4 (k.extents.getD i 0)), false⟩, piece (64 * h + 24) 8 k.mask,
       piece (64 * h + 32) 4 k.epoch.toNat])

/-- The posted receives of a team, in order of posting; a receive names its group by the place in the saved team. -/
def receivePieces (s : State) (c team : Nat) : List Piece :=
  let rs := sortBy (fun (x y : Nat × Receive) => decide (x.2.order ≤ y.2.order))
    ((getCore s c).receives.filter (fun r => r.2.team == team))
  (upTo rs.length).flatMap (fun i =>
    let (h, r) := rs.getD i (0, ⟨0, 0, 0, false, 0, 0, 0, 0, 0, none⟩)
    let done := match r.done with | some x => 2 ^ 16 + x | none => 0
    [piece (64 * i) 4 (2 ^ 31 + h), piece (64 * i + 4) 4 (if 128 ≤ r.group then r.group - 128 else (getGroup s c r.group).wg.toNat % 64), piece (64 * i + 8) 4 r.cap,
     piece (64 * i + 12) 4 (bitNat r.anySrc * 2 ^ 16 + r.src), piece (64 * i + 16) 4 r.tag.toNat, piece (64 * i + 20) 4 r.tmask.toNat,
     piece (64 * i + 24) 4 r.buf, piece (64 * i + 28) 4 done])

/-- The save reads a team's engine memories, and meets the soft errors in them: a corrected one is counted and gone; an ECC group
that cannot be corrected is saved as NaN, another word as a free value (R87, R91; entry 64). -/
def readUpset (c team : Nat) (s : State) (u : Upset) : State :=
  let k := getCore s c
  let clear := fun (k : Core) => { k with upsets := k.upsets.filter (· != u) }
  if !u.hard then countStatus (setCore s c (clear k)) c team 1 (upsetField u) 8
  else if u.kind = 0 then setCore s c (clear (spoilGroup k u.loc))
  else
    let s := spoilWord s c u
    setCore s c (clear (getCore s c))

/-- The errors of the engine memories that a team holds. -/
def teamUpset (t : Team) (u : Upset) : Bool :=
  if u.kind = 0 then (if u.loc % 64 < 32 then t.acc0 else t.acc1) else t.weights

/-- Held accumulator slots as raw containers, row-major. -/
def accPieces (k : Core) (slots : List Nat) : List Piece :=
  (upTo slots.length).flatMap (fun i => (upTo 128).flatMap (fun r => (upTo 128).map (fun x =>
    piece (131072 * i + 1024 * r + 8 * x) 8 (accRead k (slots.getD i 0) r x))))

/-- The slots that a team holds. -/
def heldSlots (t : Team) : List Nat := (if t.acc0 then [0] else []) ++ (if t.acc1 then [1] else [])

/-- Sizes of the regions of a team's area before its group areas, in the order of R359. -/
def teamSizes (s : State) (c team : Nat) : List Nat :=
  let t := getTeam s c team
  [t.size, 1024, 64, 4096, 64 * postedBy (getCore s c) team, 131072 * (heldSlots t).length, if t.weights then t.wbHigh else 0,
   if t.weights then 16384 else 0, 16]

/-- Offsets of regions of given sizes, each at the next multiple of 4 KiB, from an offset on. -/
def regionOffsets : Nat → List Nat → List Nat
  | at_, [] => [at_]
  | at_, n :: r => at_ :: regionOffsets (at_ + roundUp n 4096) r

/-- Bytes of a team's area. -/
def teamAreaSize (s : State) (c team : Nat) : Nat :=
  let l := getLaunch s (getTeam s c team).launch
  (regionOffsets 4096 (teamSizes s c team)).getLastD 0 + (teamSlots s c team).length * groupAreaStep l

/-- The header of a team's area: format, launch, team index, coordinates, the truss cursor, span barriers, and the offset and
size of each region, the group areas last; its layout is the model's (entry 24). -/
def teamHeader (s : State) (c team : Nat) : List Piece :=
  let t := getTeam s c team
  let sizes := teamSizes s c team ++ [(teamSlots s c team).length * groupAreaStep (getLaunch s t.launch)]
  let offs := regionOffsets 4096 (teamSizes s c team)
  [piece 0 4 0x53560002, piece 4 4 t.launch, piece 8 4 t.tl, piece 12 4 (t.spanRow * 8 + t.spanCol), piece 16 4 t.ordinal,
   piece 20 4 t.cursor, piece 24 4 t.lastEpoch.toNat, piece 28 4 t.wbHigh, piece 32 4 (teamSlots s c team).length,
   piece 36 4 sizes.length, piece 40 4 (postedBy (getCore s c) team)]
    ++ (upTo sizes.length).map (fun i => piece (64 + 8 * i) 8 (offs.getD i 0 + sizes.getD i 0 * 2 ^ 32))
    ++ t.spans.flatMap (fun b => [piece (256 + 256 * b.1) 4 (1 + b.2.g * 256), piece (260 + 256 * b.1) 4 b.2.phase]
        ++ b.2.arrivals.map (fun a => piece (264 + 256 * b.1 + 4 * a.1) 4 a.2))

/-- A team's area (R359), its groups' uncommitted regions aborted. -/
def teamPieces (s : State) (c team : Nat) : List Piece :=
  let t := getTeam s c team
  let k := getCore s c
  let l := getLaunch s t.launch
  let offs := regionOffsets 4096 (teamSizes s c team)
  let o := fun (i : Nat) => offs.getD i 0
  let slots := teamSlots s c team
  teamHeader s c team
    ++ [⟨o 0, memBytes k.scratch t.scratch t.size, false⟩]
    ++ shiftPieces (o 1) (barrierPieces t) ++ shiftPieces (o 2) (queuePieces t) ++ shiftPieces (o 3) (claimPieces t)
    ++ shiftPieces (o 4) (receivePieces s c team) ++ shiftPieces (o 5) (accPieces k (heldSlots t))
    ++ (if t.weights then [⟨o 6, memBytes k.weights 0 t.wbHigh, false⟩] else [])
    ++ (if t.weights then (upTo 4096).map (fun i => piece (o 7 + 4 * i) 4 (lookup k.scales i 0).toNat) else [])
    ++ (upTo 4).map (fun i => piece (o 8 + 4 * i) 4 (lookup t.status i 0).toNat)
    ++ (upTo slots.length).flatMap (fun i =>
        shiftPieces (o 9 + i * groupAreaStep l) (groupPieces s c (slots.getD i 0)))

/-- The grains of one claim are handed back by the hardware, word by word; the slot is revoked when none of its words has failed
(R337). No instruction does it, so no order gate holds it (R375). -/
def returnClaim (s : State) (c slot team : Nat) (t : Truss) (h : Nat) (k : Claim) : State :=
  let gs := claimGrains t k
  let go := ((gs.map (· / 16)).eraseDups).foldl (fun (acc : Bool × Bool × State) w =>
    match coverMove acc.2.2 c slot false t (gs.filter (fun g => g / 16 == w)) 1 0 with
    | .ok r => (acc.1, acc.2.1 || !r.1.isEmpty, r.2)
    | .error _ => (false, acc.2.1, acc.2.2)) (true, false, s)
  let s := if go.2.1 then epochStep go.2.2 (dieOf c) else go.2.2
  let m := getTeam s c team
  if go.1 then setTeam s c team { m with claims := insertKey m.claims h { k with revoked := true } } else s

/-- Every claim of a team is handed back (R337); the grains of a word of the map that cannot be reached stay claimed (entry 61). -/
def handBackAll (s : State) (c slot team : Nat) : State :=
  match (getLaunch s (getTeam s c team).launch).truss with
  | none => s
  | some t => (getTeam s c team).claims.foldl (fun s e => if e.2.revoked then s else returnClaim s c slot team t e.1 e.2) s

/-- Release a saved team's resources; its reduction log stays with the launch. -/
def freeTeam (s : State) (c team : Nat) : State :=
  let k := getCore s c
  let t := getTeam s c team
  let l := getLaunch s t.launch
  let s := if t.fredlog.isEmpty then s else setLaunch s t.launch { l with savedLogs := insertKey l.savedLogs (teamKey t) t.fredlog }
  setCore s c { k with
    teams := eraseKey k.teams team
    receives := k.receives.filter (fun r => r.2.team != team)
    l1 := (k.l1.map (fun x => if x.team == team then { x with pinned := false } else x)).filter (fun x => x.valid || x.pinned) }

/-- Save a whole team into an area. -/
def saveTeam (s : State) (c team : Nat) (a : Area) : Except MemErr State :=
  let slots := teamSlots s c team
  let t := slots.foldl (fun s g => traceGroup (abortForSave s c g) c g 6 0) s
  let t := handBackAll t c (slots.headD 0) team
  let t := ((getCore t c).upsets.filter (teamUpset (getTeam t c team))).foldl (readUpset c team) t
  match savePieces a t (teamPieces t c team) with
  | .error e => .error e
  | .ok t => .ok (freeTeam (slots.foldl (fun s g => freeSaved s c g false true) t) c team)

/-! ### Restoring -/

/-- Take a saved group's record out of its launch: its batches, and the state. -/
def takeAway (s : State) (launch member g : Nat) : Batches × State :=
  let l := getLaunch s launch
  let mine := fun (x : Away) => x.member == member && x.g == g
  (((l.away.find? mine).map (·.batch)).getD Batches.fresh, setLaunch s launch { l with away := l.away.filter (fun x => !mine x) })

/-- The core's team for a saved group: that of its launch and index. -/
def teamFor (s : State) (c launch tl : Nat) : Option Nat :=
  ((getCore s c).teams.find? (fun t => t.2.launch == launch && t.2.tl == tl)).map (·.1)

/-- Room for a restored group: a slot, one on its pipe (R134), and for a credit group its registers (R146). -/
def groupRoom (s : State) (c : Nat) (a : Area) : Bool :=
  let k := getCore s c
  let w1 := areaNat s a 4 4
  let l := getLaunch s (areaNat s a 0x28 4)
  let r := lookup l.roles (w1 / 16 % 4) ⟨0, 1, 0, 0, 1, none, none⟩
  !(freeSlots k).isEmpty && decide (pipeCount k (w1 / 128 % 4) < 16)
    && (!w1.testBit 11 || decide ((r.peak + reedRegs l) * (w1 % 16) ≤ freeRegs s c))

/-- Restore a group into a team of a core: its new group id, after the acquire of R123. -/
def restoreGroup (s : State) (c team : Nat) (a : Area) : Nat × State :=
  let id := areaNat s a 0x38 4 % 64
  let (b, s) := takeAway s (areaNat s a 0x28 4) (teamKey (getTeam s c team)) id
  let slot := ((freeSlots (getCore s c)).head?).getD 0
  let s := renameGroup (setGroup s c slot (areaGroup s a team b)) c team (128 + id) slot
  let s := renameCopies s c (128 + id) slot (storerOf s c slot)
  (slot, epochStep (traceGroup s c slot 7 0) (dieOf c))

/-- The team that an area holds, among those of its launch. -/
def areaKey (s : State) (a : Area) : Nat := 64 * areaNat s a 8 4 + areaNat s a 12 4

/-- The header of a team's area is that of a valid save of a launch that still runs. -/
def teamValid (s : State) (a : Area) : Bool :=
  areaNat s a 0 4 == 0x53560002 && hasKey s.launches (areaNat s a 4 4)
    && (getLaunch s (areaNat s a 4 4)).away.any (fun x => x.whole && x.member == areaKey s a)

/-- The corner of the rectangle of a span in which a core has a position 8 × row + column: die, row and column; none where the
rectangle leaves the die. -/
def spanCorner (l : Launch) (c pos : Nat) : Option (Nat × Nat × Nat) :=
  let x := c % Config.coresPerDie
  let (r, m, r0, c0) := (x / 5, x % 5, pos / 8, pos % 8)
  if r0 ≤ r && decide (r - r0 + Nat.max 1 l.spRows ≤ 8) && decide (c0 ≤ m) && decide (m - c0 + Nat.max 1 l.spCols ≤ 5) then
    some (dieOf c, r - r0, m - c0)
  else none

/-- A member of a span team may come back on a core: on a rectangle of the span's shape, that of the members that are resident, all
of its cores the partition's (R136; entry 61). -/
def spanFits (s : State) (c : Nat) (a : Area) : Bool :=
  let l := getLaunch s (areaNat s a 4 4)
  match spanCorner l c (areaNat s a 12 4) with
  | none => false
  | some (d, r, m) =>
    (upTo (Nat.max 1 l.spRows)).all (fun i => (upTo (Nat.max 1 l.spCols)).all (fun j =>
        (getPart s l.part).cores.contains (Config.coresPerDie * d + 5 * (r + i) + m + j)))
      && s.cores.all (fun k => k.2.teams.all (fun t => t.2.launch != areaNat s a 4 4 || t.2.tl != areaNat s a 8 4
        || spanCorner l k.1 (8 * t.2.spanRow + t.2.spanCol) == some (d, r, m)))

/-- A region's offset in a team's area. -/
def regionAt (s : State) (a : Area) (i : Nat) : Nat := areaNat s a (64 + 8 * i) 4

/-- The team record of an area. -/
def areaTeam (s : State) (a : Area) (t : Team) : Team :=
  let n := areaNat s a
  let b := regionAt s a 1
  let q := regionAt s a 2
  let k := regionAt s a 3
  { t with
    ordinal := n 16 4, cursor := n 20 4, lastEpoch := wordOf (n 24 4), wbHigh := n 28 4
    barriers := ((upTo 16).filter (fun i => (n (b + 64 * i + 4) 4).testBit 31)).map (fun i =>
      ⟨n (b + 64 * i) 4, n (b + 64 * i + 4) 4 % 256, bitsSet (n (b + 64 * i + 8) 24), bitsSet (n (b + 64 * i + 32) 24)⟩)
    queues := t.queues.map (fun e =>
      let r := n (q + 16 * e.1 + 4) 4
      (e.1, { e.2 with put := r + n (q + 16 * e.1) 4, removed := r }))
    claims := ((upTo 64).filter (fun i => (n (k + 64 * i) 4).testBit 0)).map (fun i =>
      (i, ⟨n (k + 64 * i + 4) 4, (upTo 4).map (fun j => n (k + 64 * i + 8 + 4 * j) 4), n (k + 64 * i + 24) 8,
           wordOf (n (k + 64 * i + 32) 4), (n (k + 64 * i) 4).testBit 1⟩))
    spans := ((upTo 4).filter (fun i => (n (256 + 256 * i) 4).testBit 0)).map (fun i =>
      (i, ⟨n (256 + 256 * i) 4 / 256, n (260 + 256 * i) 4,
        ((upTo 24).filter (fun m => n (264 + 256 * i + 4 * m) 4 != 0)).map (fun m => (m, n (264 + 256 * i + 4 * m) 4))⟩))
    status := nonzero 4 (fun i => n (regionAt s a 8 + 4 * i) 4) }

/-- The memories of an area: scratchpad, held slots, weights, scales. -/
def areaMemories (s : State) (a : Area) (k : Core) (t : Team) : Core :=
  let n := areaNat s a
  let slots := heldSlots t
  let k := putScratch k t.scratch ((upTo t.size).map (fun i => BitVec.ofNat 8 (n (regionAt s a 0 + i) 1)))
  let k := (upTo slots.length).foldl (fun k i => (upTo 16384).foldl (fun k e =>
    accWrite k (slots.getD i 0) (e / 128) (e % 128) (n (regionAt s a 5 + 131072 * i + 8 * e) 8)) k) k
  if t.weights then
    { k with
      weights := memPut [] 0 ((upTo t.wbHigh).map (fun i => BitVec.ofNat 8 (n (regionAt s a 6 + i) 1)))
      scales := nonzero 4096 (fun i => n (regionAt s a 7 + 4 * i) 4) }
  else k

/-- The slot that a saved group's launch-time id now has in a team. -/
def slotOfId (s : State) (c team g : Nat) : Nat :=
  (((residents (getCore s c)).find? (fun e => e.2.team == team && e.2.wg.toNat % 64 == g)).map (·.1)).getD 0

/-- Bytes of a saved team's area, by its header. -/
def areaEnd (s : State) (a : Area) : Nat := regionAt s a 9 + areaNat s a 140 4

/-- The area of the `i`-th group of a team's area. -/
def groupAreaOf (s : State) (a : Area) (i : Nat) : Area :=
  { a with base := a.base + regionAt s a 9 + i * groupAreaStep (getLaunch s (areaNat s a 4 4)) }

/-- Every group of a team's area finds a slot on its pipe (R134). -/
def pipesFit (s : State) (c : Nat) (a : Area) : Bool :=
  let pipes := (upTo (areaNat s a 32 4)).map (fun i => areaNat s (groupAreaOf s a i) 4 4 / 128 % 4)
  (upTo 4).all (fun p => decide (pipeCount (getCore s c) p + (pipes.filter (· == p)).length ≤ 16))

/-- The members of a span team come back together: for each other member, it is back already, or a grest waits to restore it (R136,
entry 61). -/
def spanReturns (s : State) (a : Area) : Bool :=
  let launch := areaNat s a 4 4
  let l := getLaunch s launch
  (upTo (Nat.max 1 l.spRows)).all (fun i => (upTo (Nat.max 1 l.spCols)).all (fun j =>
    let key := 64 * areaNat s a 8 4 + 8 * i + j
    key == areaKey s a || s.cores.any (fun k => k.2.teams.any (fun t => t.2.launch == launch && teamKey t.2 == key)
      || k.2.groups.any (fun g => g.2.quads.any (fun q => match q.2.park with
        | .restoring _ x m => x == launch && m == key
        | _ => false)))))

/-- A saved team can come back to a core (R134, R136, R145). -/
def teamRoom (s : State) (c : Nat) (a : Area) : Bool :=
  canAdmit s c (getLaunch s (areaNat s a 4 4)) (areaNat s a 32 4) && pipesFit s c a && spanFits s c a && spanReturns s a

/-- Every line of an area of some bytes can be read. -/
def touchArea (s : State) (a : Area) (n : Nat) : Except MemErr State :=
  (linePieces (n / 128 + 2) a.base n).foldl (fun acc pc => match acc with
    | .error x => .error x
    | .ok s => (homeLine s a.part a.desc pc.1).map (·.2)) (.ok s)

/-- The posted receives of an area come back under free handles, the same where they are free. -/
def areaReceives (s : State) (c team : Nat) (a : Area) : State :=
  (upTo (areaNat s a 40 4)).foldl (fun s i =>
    let n := fun (o : Nat) => areaNat s a (regionAt s a 4 + 64 * i + o) 4
    let k := getCore s c
    let h := n 0 % 2 ^ 31
    match (if hasKey k.receives h then lowestFree k.receives 256 else some h) with
    | none => s
    | some h =>
      let r : Receive := ⟨team, slotOfId s c team (n 4), n 8, (n 12).testBit 16, n 12 % 2 ^ 16, wordOf (n 16), wordOf (n 20), n 24,
        k.rxOrder, if (n 28).testBit 16 then some (n 28 % 2 ^ 16) else none⟩
      setCore s c { k with receives := insertKey k.receives h r, rxOrder := k.rxOrder + 1 }) s

/-- Barriers name group slots: those of the saved groups become those of the restored ones. -/
def renameMembers (ids : List (Nat × Nat)) (b : Barrier) : Barrier :=
  let move := fun (l : List Nat) => l.foldl (fun acc m => insertNat acc (lookup ids m m)) []
  { b with members := move b.members, arrived := move b.arrived }

/-- Restore a team on a core where it can be admitted: its TEAMID. The span leader's core is that of the corner (R136). -/
def restoreTeam (s : State) (c : Nat) (a : Area) : Nat × State :=
  let launch := areaNat s a 4 4
  let tl := areaNat s a 8 4
  let pos := areaNat s a 12 4
  let l := getLaunch s launch
  let corner := (spanCorner l c pos).getD (0, 0, 0)
  let (id, u) := placeTeam s c launch tl (pos / 8) (pos % 8) (Config.coresPerDie * corner.1 + 5 * corner.2.1 + corner.2.2)
  let t := areaTeam s a (getTeam u c id)
  let key := areaKey s a
  let u := setTeam u c id { t with fredlog := lookup l.savedLogs key [] }
  let l := getLaunch u launch
  let u := setLaunch u launch { l with
    savedLogs := eraseKey l.savedLogs key
    away := l.away.map (fun x => if x.member == key then { x with core := c, team := id } else x) }
  let u := setCore u c (areaMemories s a (getCore u c) t)
  let go := (upTo (areaNat s a 32 4)).foldl (fun (acc : List (Nat × Nat) × State) i =>
    let b := groupAreaOf s a i
    let r := restoreGroup acc.2 c id b
    (acc.1 ++ [(areaNat s b 0x2C 4, r.1)], r.2)) ([], u)
  let u := go.2
  let u := setTeam u c id { getTeam u c id with barriers := (getTeam u c id).barriers.map (renameMembers go.1) }
  (id, areaReceives u c id a)

/-! ### Credit eviction (R146) -/

/-- The save area of a credit group (R390): offset AUX0 × (64 × TL + G) of the launch's SAVE capability. -/
def creditArea (s : State) (launch wg : Nat) : Option Area :=
  let l := getLaunch s launch
  match l.save with
  | none => none
  | some (cap, step) =>
    let off := step * wg
    if capLen cap < off + groupAreaSize l then none
    else match readEntry s l.part cap.obj.toNat with
      | none => none
      | some e => if (e.kind == 1 && e.xe) || e.kind == 4 then none else some ⟨l.part, e, cap.base.toNat + off⟩

/-- A credit group waits for its eviction. -/
def evicting (slot : Nat) (g : Group) : Bool :=
  g.quads.any (fun q => match q.2.park with | .saving _ none slots => slots == [slot] | _ => false)

/-- CREDIT_EVICTION: a credit group that finds no register is saved and frees its slot; while it cannot be saved it waits, its
uncommitted regions aborted, and issues nothing (R356). -/
def execCreditEviction (s : State) : Out :=
  let c := s.ev.core
  let slot := s.ev.unit
  let g := getGroup s c slot
  .next (if !g.resident || !g.credit || (!savable s c slot && onRecord g) then s
    else if !savable s c slot then
      let s := abortRegions s c slot 0
      setGroup s c slot (parkGroup (getGroup s c slot) (.saving s.clock none [slot]))
    else match creditArea s g.launch ((getTeam s c g.team).tl * 64 + g.wg.toNat % 64) with
      | none => s
      | some a => match saveGroup s c slot a true with
        | .ok t => t
        | .error _ => s)

/-- CREDIT_READMIT: an evicted group comes back to its pipe on the core that holds its team, once registers of its peak are
free; `obj` is the launch, `value` the team's index, `unit` the group's id at its start. -/
def execCreditReadmit (s : State) : Out :=
  let e := s.ev
  .next (match teamFor s e.core e.obj e.value, creditArea s e.obj (e.value * 64 + e.unit) with
    | some team, some a =>
      let key := teamKey (getTeam s e.core team)
      if (getLaunch s e.obj).away.any (fun x => x.credit && x.member == key && x.g == e.unit) && areaValid s key a
          && groupRoom s e.core a then (restoreGroup s e.core team a).2
      else s
    | _, _ => s)

/-- The credit groups of a core that may be brought back. -/
def readmissions (s : State) (c : Nat) : List Due :=
  (getCore s c).teams.flatMap (fun t => ((getLaunch s t.2.launch).away.filter (fun a => a.credit && a.member == teamKey t.2)).map (fun a =>
    ⟨.creditReadmit, { core := c, obj := t.2.launch, value := a.tl, unit := a.g }⟩))

end Sys2Proof.Machine
end

