-- ==== Sys2Proof/Machine/System.lean ====
section
/-!
DEFINITION. The system instructions (spec/16 R349 to R363, spec/18 R394): syscall, trap, rfe, svtake, svpost, csrr, csrw,
extinv, wfi, qput, gsave, grest, hlt; and the debug instructions (spec/17 R370, R371): brk, mark, cnrd, wcoord.
-/

namespace Sys2Proof.Machine

/-! ### syscall and trap (R350) -/

/-- Free records for group traps, ascending. -/
def freeHandles (k : Core) : List Nat := (upTo 480).filter (recFree k)

/-- Write one pending record of the issuing group for a lane. -/
def laneRecord (s : State) (h lane cls number : Nat) (detail : List Word) : State :=
  let g := curGroup s
  let o := groupOrigin s s.cur.core s.cur.slot (g.regions.length - 1) s.cur.pc (curRegion g).slots
  let k := getCore s s.cur.core
  setCore s s.cur.core (writeRecord (recordTime s s.cur.slot) k h (recordWords o { cls := cls, code := 0, lane := lane, number := number, detail := detail } false)
    ⟨.pending, 0, cls, 0, 0, s.cur.slot, lane, false⟩)

/-- A record for each of some lanes, then the candidate parks on them; in the supervisor lane the core stops (R345). Registers that the
records show are sources, read as any (R166, R173, R182). -/
def postRecords (s : State) (cls number : Nat) (srcs : List Src) (lanes : List Nat) (detail : Nat → List Word) : Out :=
  let hs := (freeHandles (getCore s s.cur.core)).take lanes.length
  finishReleaseBy s (fun t => if lanes.isEmpty then retire t else retireParked t (.syscall hs))
    (fun t => match checkSlot t {} with
      | .error e => .error e
      | .ok () => match checkWait t srcs with
        | .error e => .error e
        | .ok () => after (checkUnder t srcs []) <|
          let t := noteDead t srcs
          if lanes.isEmpty then .ok t
          else if isLane t then trapNow cls 0
          else if hs.length < lanes.length then .error (.hold (.retry t.clock 12))
          else .ok ((upTo lanes.length).foldl (fun t i =>
            laneRecord t (hs.getD i 0) (lanes.getD i 0) cls number (detail (lanes.getD i 0))) t))

def execSyscall (i : BitVec 14) (s : State) : Out :=
  postRecords s 0xE i.toNat (if (activeLanes s).isEmpty then [] else (upTo 6).map (.reg 0)) (activeLanes s) (fun l => (upTo 6).map (fun n => laneVal (nameLanes (curGroup s) s.clock n) l))

def execTrap (i : BitVec 14) (s : State) : Out := postRecords s 0xD i.toNat [] (firstLane s).toList (fun _ => [])

/-! ### rfe (R362) -/

def execRfe (s : State) : Out :=
  finishFlow s (match checkSlot s {} with
    | .error e => .error e
    | .ok () =>
      if !isLane s then illegal 0x03
      else if (activeLanes s).isEmpty then .ok (s, gotoAll s s.cur.nextPc)
      else
        let k := getCore s s.cur.core
        .ok (setCore s s.cur.core { k with lane := { k.lane with ie := true } }, gotoAll s k.lane.epc))

/-! ### svtake (R351) -/

/-- Pending records that a class mask selects, in their order; the supervisor lane takes any, DEST = 1 first, a group those
with DEST = 0. -/
def takeable (s : State) (mask : Nat) : List Nat :=
  let k := getCore s s.cur.core
  let rs := k.records.filter (fun e => e.2.state == .pending && mask.testBit e.2.cls && (isLane s || !e.2.dest))
  let key := fun (e : Nat × RecMeta) => (if isLane s && !e.2.dest then 2 ^ 256 else 0) + e.2.order
  (sortBy (fun x y => decide (key x ≤ key y)) rs).map (·.1)

/-- Word `i` of a record of the queue. -/
def recordWord (k : Core) (h i : Nat) : Word := wordOf (memNat k.reserve (64 * h + 4 * i) 4)

/-- First name that svtake writes: w0, or v0 in the supervisor lane. -/
def takeName (s : State) : Nat := if isLane s then 12 else 12 + (curGroup s).regs.wb

/-- Names that svtake would map in a quad. -/
def takeFresh (s : State) (q : Nat) : Nat :=
  ((upTo 16).filter (fun i => !hasKey (curGroup s).regs.lanes (8 * (takeName s + i) + q))).length

/-- Give record `h` to a lane: its sixteen words, and the mark that the group has taken it. -/
def giveRecord (s : State) (h lane : Nat) : State :=
  let k := getCore s s.cur.core
  let base := takeName s
  let s := (upTo 16).foldl (fun s i => dropPendings s (base + i) [lane / 4]) s
  let g := (upTo 16).foldl (fun g i => writeLane g (base + i) lane (recordWord k h i)) (curGroup s)
  let s := setCur s g
  let k := getCore s s.cur.core
  let m := { getRec k h with state := .taken s.cur.slot (curRegion (curGroup s)).serial }
  setCore s s.cur.core { k with records := insertKey k.records h m }

def execSvtake (d a : BitVec 5) (s : State) : Out :=
  finish s (match unifCheck s { sup := true } [.unif a.toNat] with
    | .error e => .error e
    | .ok act =>
      let w := (readUnif (curGroup s) s.clock a.toNat).toNat
      if !act then .ok s
      else if w % 2 = 1 || w / 2 ^ 15 % 2 ^ 16 ≠ 0 || decide (251 < takeName s + 15) then illegal 0x10
      else
        let mask := w % 2 ^ 15
        let lanes := if isLane s then (activeLanes s).take 1 else activeLanes s
        let hs := (takeable s mask).take lanes.length
        let quads := ((lanes.take hs.length).map (· / 4)).eraseDups
        let g := curGroup s
        if hs.isEmpty then
          if w.testBit 31 then .ok (writeUnif s d.toNat 0 0) else .error (.hold (.svtake mask))
        else if quads.any (fun q => decide (0 < takeFresh s q) && decide (peakOf s < liveRegs g q + takeFresh s q)) then illegal 0x04
        else if g.credit && decide (freeRegs s s.cur.core < quads.foldl (fun n q => n + takeFresh s q) 0) then
          .error (.hold (.noRegister s.clock))
        else
          let t := (upTo hs.length).foldl (fun t i => giveRecord t (hs.getD i 0) (lanes.getD i 0)) s
          let t := setCore t t.cur.core (noteIdle (getCore t t.cur.core))
          .ok (writeUnif t d.toNat 0 (wordOf hs.length)))

/-! ### svpost (R352) -/

/-- The record of a handle is taken by the issuing group or lane. -/
def takenHere (s : State) (h : Nat) : Bool :=
  match (getRec (getCore s s.cur.core) h).state with | .taken t _ => t == s.cur.slot | _ => false

/-- Handles that uncommitted svposts of the group already name. -/
def postedHandles (g : Group) : List Nat :=
  g.regions.flatMap (fun r => r.deferred.filterMap (fun q => match q.effect with | .svpost h _ => some h | _ => none))

/-- Every value does for a system call, a software trap and a tag-match overflow; other records take an action 0 or 1. -/
def actionBad (m : RecMeta) (v : Word) : Bool := !(m.cls == 0xE || m.cls == 0xD || m.cls == 0xC) && decide (1 < v.toNat)

def execSvpost (a b : BitVec 7) (s : State) : Out :=
  let o : OpInfo := { sup := true, srcA := some a, srcB := some b }
  finish s (match readSources s o [.reg a 0, .reg b 0] with
    | .error e => .error e
    | .ok (vals, t) => after (checkUnder s [.reg a 0, .reg b 0] []) <|
      let posts := (activeLanes s).map (fun i => (i, (laneVal (vals.getD 0 []) i).toNat % 512, laneVal (vals.getD 1 []) i))
      match posts.find? (fun p => !takenHere s p.2.1 || actionBad (getRec (getCore s s.cur.core) p.2.1) p.2.2) with
      | some p => .error (.trap { cls := 3, code := 0x06, lane := p.1 })
      | none =>
        let r := posts.foldl (fun (acc : List Nat × State) p =>
          if acc.1.contains p.2.1 then acc else (acc.1 ++ [p.2.1], defer acc.2 (.svpost p.2.1 p.2.2))) (postedHandles (curGroup s), t)
        let u := if isLane s && !posts.isEmpty then pushDue r.2 [⟨.regionCommit, { core := s.cur.core, unit := s.cur.slot }⟩] else r.2
        .ok (applyLast u o 1 1 []))

/-! ### Control registers (R360, Table 16-10) -/

def chstatWord (ch : Channel) : Word :=
  wordOf (bitNat ch.fault * 2 ^ 30 + ch.state % 4 * 2 ^ 28 + ch.group % 64 * 2 ^ 16 + ch.nvst % 2 ^ 16)

/-- MSEQ.STATE: held, running while a team has operations, or idle. -/
def mseqState (k : Core) : Nat := if k.mseqHeld then 2 else if k.teams.any (fun t => !t.2.ops.isEmpty) then 1 else 0

def svqstatWord (k : Core) : Word :=
  let n := fun (p : RecState → Bool) => (k.records.filter (fun e => p e.2.state)).length
  wordOf (n (fun x => match x with | .taken _ _ => true | _ => false) * 2 ^ 16 + n (· == .pending))

/-- The supervisor-lane registers 0x868 to 0x86E. -/
def laneReg (r : LaneRegs) (i : Nat) : Word :=
  match i with
  | 0 => if r.ie then 1 else 0
  | 1 => r.epc
  | 2 => r.vec
  | 3 => r.cause.zeroExtend 32
  | 4 => r.ien.zeroExtend 32
  | 5 => r.cmpLo
  | _ => r.cmpHi

def getFw (d : Die) (i : Nat) : FwLane := lookup d.lanes i FwLane.unmapped

/-- The value of a control register as a core reads it; none for an unassigned number. -/
def csrValue (s : State) (c n : Nat) : Option Word :=
  let k := getCore s c
  let p := getPart s k.part
  let d := getDie s (dieOf c)
  let inside := fun (lo hi : Nat) => decide (lo ≤ n) && decide (n ≤ hi)
  if n = 0x800 then some p.otbase
  else if n = 0x801 then some p.otlen
  else if n = 0x810 then some p.zbbase
  else if n = 0x811 then some p.prmbase
  else if n = 0x812 then some p.prmlen
  else if inside 0x820 0x82F then some (lookup p.pinquota (n - 0x820) 0)
  else if inside 0x830 0x83F then some (lookup p.pinuse (n - 0x830) 0)
  else if n = 0x840 then some k.poolsplit
  else if n = 0x841 then some (k.sbcheck.zeroExtend 32)
  else if inside 0x850 0x857 then some (chstatWord (getChannel s c (n - 0x850)))
  else if n = 0x858 then some (wordOf (mseqState k * 2 ^ 28 + k.mseqGroup % 64 * 2 ^ 16))
  else if n = 0x860 then some (svqstatWord k)
  else if inside 0x868 0x86E then some (laneReg k.lane (n - 0x868))
  else if inside 0x880 0x89F then some (getFw d (n - 0x880)).qid
  else if inside 0x8A0 0x8BF then some ((getFw d (n - 0x8A0)).cfg.zeroExtend 32)
  else if n = 0x8C0 then some (wordOf (bitNat d.booting * 2 + bitNat d.fallback))
  else if n = 0x8C1 then some (wordOf (d.fredState % 4 * 2 ^ 28 + Nat.min d.fredLeft (2 ^ 20 - 1)))
  else if n = 0x8C2 then some (wordOf d.fredLid)
  else if inside 0xC00 0xCFF then some (getStream s (n - 0xC00)).wmark
  else if inside 0xD00 0xDFF then some (getStream s (n - 0xD00)).cfg
  else none

/-- A number names an SV register (R360). -/
def csrSv (n : Nat) : Bool :=
  let inside := fun (lo hi : Nat) => decide (lo ≤ n) && decide (n ≤ hi)
  inside 0x800 0x82F || inside 0x840 0x858 || inside 0x868 0x86E || inside 0x880 0x8BF || n == 0x8C1 || inside 0xD00 0xDFF

/-- A user group may not make the access: an SV register, but for a read of POOLSPLIT; a WMARK whose USER bit is 0. -/
def csrDenied (s : State) (n : Nat) (write : Bool) : Bool :=
  !isSuper s && ((csrSv n && (write || n != 0x840))
    || (decide (0xC00 ≤ n) && decide (n ≤ 0xCFF) && !(getStream s (n - 0xC00)).cfg.getLsbD 22))

def execCsrr (d : BitVec 7) (i : BitVec 12) (s : State) : Out :=
  let n := i.toNat
  finish s (match checkSlot s { dst := some d } with
    | .error e => .error e
    | .ok () =>
      match csrValue s s.cur.core n with
      | none => illegal 0x06
      | some v =>
        if csrDenied s n false && (firstLane s).isSome then capFault 0x03 ((firstLane s).getD 0) 0 0
        else match laneOp s { dst := some d } [] 0 0 d 1 0 (fun _ => ([v], 0)) with
          | .error e => .error e
          | .ok t => .ok (if decide (0xC00 ≤ n) && decide (n ≤ 0xCFF) && !(activeLanes s).isEmpty then acquireAt t 5 else t))

def execCsrw (d : BitVec 7) (i : BitVec 12) (s : State) : Out :=
  let n := i.toNat
  finish s (match checkSlot s { srcD := some d } with
    | .error e => .error e
    | .ok () =>
      match csrValue s s.cur.core n with
      | none => illegal 0x06
      | some _ =>
        match readSources s { srcD := some d } [.reg d 0] with
        | .error e => .error e
        | .ok (vals, t) => after (checkUnder s [.reg d 0] []) <|
          match firstLane s with
          | none => .ok s
          | some lane => if csrDenied s n true then capFault 0x03 lane 0 0
            else .ok (deferNow t (.csrw n (laneVal (vals.getD 0 []) lane))))

/-! ### extinv and wfi (R361, R362) -/

/-- Start the shoot-down of an object: its invalidations are due, and the core awaits their acknowledgements (R36). -/
def startShoot (s : State) (c id : Nat) : State :=
  let p := (getCore s c).part
  let s := unpinInvalid s p id
  let (epochs, receivers) := shootSteps s c p id
  let k := getCore s c
  pushDue (setCore s c { k with shoot := k.shoot + receivers.length }) (epochs ++ receivers)

def execExtinv (a : BitVec 5) (s : State) : Out :=
  match unifCheck s { sup := true } [.unif a.toNat] with
  | .error e => finish s (.error e)
  | .ok false => .next (retire s)
  | .ok true =>
    let t := startShoot s s.cur.core (readUnif (curGroup s) s.clock a.toNat).toNat
    let u := retire t
    .next (setCur u (parkOthers (curGroup u) .shootdown))

/-- wfi does not wait: the lane's interrupt condition holds, or a record or a deliverable user interrupt is pending. -/
def wfiReady (s : State) : Bool :=
  let k := getCore s s.cur.core
  if isLane s then k.lane.ie && (k.lane.cause &&& k.lane.ien) != 0
  else k.records.any (fun e => e.2.state == .pending) || canDeliver s s.cur.core s.cur.slot

def execWfi (s : State) : Out :=
  match unifCheck s { sup := true } [] with
  | .error e => finish s (.error e)
  | .ok act => .next (if !act || wfiReady s then retire s else retireParked s .wfi)

/-! ### qput (R363, R394) -/

/-- Type of a packet or of a field, and its length in words (R384). -/
def headType (w : Nat) : Nat := w / 2 ^ 20
def headLen (w : Nat) : Nat := w % 2 ^ 16

/-- Field types whose body is a capability field (Table 18-5). -/
def capField18 (t : Nat) : Bool := [0x101, 0x10B, 0x10D, 0x110, 0x111, 0x112, 0x114, 0x115, 0x116].contains t

/-- Word offsets of the capability fields of a LAUNCH from a word on. -/
def launchCaps (bs : List Byte) (len : Nat) : Nat → Nat → List Nat
  | 0, _ => []
  | fuel + 1, i =>
    if len ≤ i then []
    else
      let h := imageWord bs i
      let n := Nat.max 1 (headLen h)
      (if capField18 (headType h) then [i] else if headType h = 0x109 then [i + 16] else []) ++ launchCaps bs len fuel (i + n)

/-- Word offsets of the capability fields of a packet image (R386, R388). -/
def packetCaps (bs : List Byte) : List Nat :=
  let h := imageWord bs 0
  let len := headLen h
  let l := match headType h with
    | 0x002 => launchCaps bs len len 1
    | 0x003 => [4, 20, 28]
    | 0x004 | 0x005 | 0x006 | 0x008 => [4]
    | _ => []
  l.filter (fun i => decide (i + 8 ≤ len))

/-- A capability field in register mode: present, its MODE 0. -/
def registerMode (bs : List Byte) (i : Nat) : Bool := imageWord bs i != 0 && imageWord bs (i + 1) / 2 ^ 30 == 0

/-- The image with its register-mode fields turned into inline fields, and the quanta that take a tag. -/
def convertImage (g : Group) (clock : Nat) (bs : List Byte) (fields : List Nat) : List Byte × List Nat :=
  fields.foldl (fun acc i =>
    let c := capAt g clock (imageWord bs (i + 1) % 16)
    let b := putBytes acc.1 (4 * (i + 1)) (leBytes 4 0x40000000)
    let b := putBytes b (4 * (i + 4)) (if c.tag then capBytes c else List.replicate 16 0)
    (b, if c.tag && i % 4 == 0 then acc.2 ++ [i / 4 + 1] else acc.2)) (bs, [])

/-- QDIE and QNUM of a queue object's entry. -/
def queueHome (s : State) (p id : Nat) : Nat × Nat :=
  let w := tableNat s (entryAddr s p id + 0x28) 8
  (w / 2 ^ 8 % 8, w % 2 ^ 8)

/-- A queue object is mapped to a lane whose SVQ is 1 (R383). -/
def isSvq (s : State) (p id : Nat) : Bool :=
  let (d, n) := queueHome s p id
  let x := getFw (getDie s d) n
  x.qid.toNat == id && x.cfg.getLsbD 3

/-- Map the status register's name in the quads of the active lanes. -/
def mapDst (s : State) (f : BitVec 7) : Res State :=
  if isStream f || dstRange s f 1 then illegal 0x10
  else if peakBad s f 1 then illegal 0x04
  else if creditShort s f 1 then .error (.hold (.noRegister s.clock))
  else
    let g := curGroup s
    let lanes := (writeQuads s f).foldl (fun m q =>
      let key := 8 * nameOf g f + q
      if hasKey m key then m else insertKey m key QReg.zero) g.regs.lanes
    .ok (setCur s { g with regs := { g.regs with lanes := lanes } })

/-- The status register's lanes wait for the append, which writes them when the region commits (R173, R363): a later write of one of them
in the meantime stands. -/
def awaitStatus (s : State) (f : BitVec 7) : State :=
  let s := dropPendings s (nameOf (curGroup s) f) (writeQuads s f)
  let g := curGroup s
  let r := curRegion g
  setCur s { g with regs := { g.regs with
    late := (activeLanes s).foldl (fun m i => insertKey m (32 * nameOf g f + fieldLane g f i) (r.serial.toNat, r.slots)) g.regs.late } }

def execQput (ctr : BitVec 3) (d a : BitVec 7) (k : BitVec 4) (s : State) : Out :=
  let o : OpInfo := { noLane := true, srcA := some a, dst := some d }
  finish s (counted s ctr.toNat (match readSources s o [.reg a 0, .cap k.toNat] with
    | .error e => .error e
    | .ok (vals, t) => after (checkUnder s [.reg a 0, .cap k.toNat] []) <|
      match firstLane s with
      | none => .ok s
      | some lane =>
        let g := curGroup s
        let c := capAt g s.clock k.toNat
        let off := (laneVal (vals.getD 0 []) lane).toNat
        match checkCap t c lane 0x02 with
        | .error e => .error e
        | .ok () =>
          match liftMem lane c.obj.toNat c.base.toNat 1 (descOf t t.cur.core c.obj.toNat) with
          | .error e => .error e
          | .ok (e, t) =>
            if e.kind ≠ 3 then capFault 0x02 lane c.obj.toNat 1
            else if isSvq t (getCore t t.cur.core).part e.id && !c.rights.getLsbD 7 then capFault 0x03 lane c.obj.toNat 1
            else if (curTeam t).size < off + 4 then scratchFault t off
            else
              let len := headLen (leNat (readScratch t off 4))
              if (curTeam t).size < off + 4 * len then scratchFault t off
              else if scratchBad t off (Nat.max 4 (4 * len)) then spoiledTrap t off
              else
                let raw := readScratch t off (Nat.max 4 (4 * len))
                let fields := (packetCaps raw).filter (registerMode raw)
                if fields.any (fun i => (capAt g s.clock (imageWord raw (i + 1) % 16)).tag
                    && !(capAt g s.clock (imageWord raw (i + 1) % 16)).rights.getLsbD 6) then capFault 0x06 lane c.obj.toNat 1
                else
                  let (bs, tags) := convertImage g s.clock raw fields
                  let bs := bs ++ List.replicate (Nat.max 16 (roundUp (4 * len) 16) - bs.length) 0
                  match mapDst t d with
                  | .error x => .error x
                  | .ok t =>
                    let t := awaitStatus t d
                    let lanes := (activeLanes s).foldl (fun n i => n ||| 2 ^ fieldLane g d i) 0
                    let t := deferOn t ctr.toNat (.qput e.id bs tags (nameOf g d) lanes)
                    .ok (applyLast t o 1 0 (dstNames s (some d) 1))))

/-! ### gsave and grest (R356, R357) -/

/-- The save area of an instruction: R, W and S, an offset that is a multiple of 4,096, the whole area inside (R20). -/
def saveArea (s : State) (lane : Nat) (c : Cap) (off size kind : Nat) : Res (Area × State) :=
  match checkAccess s c lane off size 0x83 kind false with
  | .error e => .error e
  | .ok () =>
    if objOff c off % 4096 ≠ 0 then
      .error (.trap { cls := 5, code := 0x05, lane := lane, obj := c.obj.toNat, off := objOff c off, kind := kind })
    else match liftMem lane c.obj.toNat (objOff c off) kind (descOf s s.cur.core c.obj.toNat) with
      | .error e => .error e
      | .ok (e, s) => match kindCheck e lane c.obj.toNat (objOff c off) kind with
        | .error e => .error e
        | .ok () => .ok (⟨(getCore s s.cur.core).part, e, objOff c off⟩, s)

def execGsave (ctr : BitVec 3) (d a : BitVec 7) (k : BitVec 4) (t : BitVec 1) (s : State) : Out :=
  let o : OpInfo := { sup := true, srcA := some a, srcD := some d }
  finish s (counted s ctr.toNat (match readSources s o [.reg a 0, .reg d 0, .cap k.toNat] with
    | .error e => .error e
    | .ok (vals, u) => after (checkUnder s [.reg a 0, .reg d 0, .cap k.toNat] []) <|
      match firstLane s with
      | none => .ok s
      | some lane =>
        let c := s.cur.core
        let off := (laneVal (vals.getD 0 []) lane).toNat
        let x := (laneVal (vals.getD 1 []) lane).toNat
        let g := getGroup u c x
        let whole := t == 1
        let l := getLaunch u g.launch
        if 63 < x || !g.resident || (!isLane s && (x == s.cur.slot || (whole && g.team == (curGroup s).team))) then
          .error (.trap { cls := 3, code := 0x06, lane := lane })
        else
          match saveArea u lane (capAt (curGroup u) s.clock k.toNat) off (if whole then teamAreaSize u c g.team else groupAreaSize l) 5 with
          | .error e => .error e
          | .ok (ar, u) =>
            if !(if whole then teamSavable u c g.team else savable u c x) then
              let slots := if whole then teamSlots s c g.team else [x]
              .error (.lateHold (abortWaiting s c slots) (.saving s.clock (if whole then some g.team else none) slots))
            else
              match liftMem lane ar.desc.id ar.base 5 (if whole then saveTeam u c g.team ar else saveGroup u c x ar false) with
              | .error e => .error e
              | .ok u => .ok (applyLast u o 1 0 (fieldNames (curGroup s) (some d) 1))))

def execGrest (ctr : BitVec 3) (d a : BitVec 7) (k : BitVec 4) (t : BitVec 1) (s : State) : Out :=
  let o : OpInfo := { sup := true, srcA := some a, dst := some d }
  finish s (if isStream d then (match checkSlot s o with | .error e => .error e | .ok () => illegal 0x10) else
    counted s ctr.toNat (match readSources s o [.reg a 0, .cap k.toNat] with
    | .error e => .error e
    | .ok (vals, u) => after (checkUnder s [.reg a 0, .cap k.toNat] []) <|
      match firstLane s with
      | none => .ok s
      | some lane =>
        let c := s.cur.core
        let off := (laneVal (vals.getD 0 []) lane).toNat
        let put := fun (u : State) (id : Nat) => (writeDst u d 0 [List.replicate 32 (wordOf id)]).map (fun u =>
          applyLast u o 1 0 (dstNames s (some d) 1))
        let bad : Res State := .error (.trap { cls := 3, code := 0x06, lane := lane })
        let cap := capAt (curGroup u) s.clock k.toNat
        match saveArea u lane cap off (if t = 1 then 4096 else 0x8E00) 4 with
        | .error e => .error e
        | .ok (ar, u) =>
          match liftMem lane ar.desc.id ar.base 4 (readHome u ar.part ar.desc ar.base 4096) with
          | .error e => .error e
          | .ok (_, u) =>
            if t = 1 then
              if !teamValid u ar then bad
              else match checkAccess u cap lane off (areaEnd u ar) 0x83 4 false with
              | .error e => .error e
              | .ok () => match liftMem lane ar.desc.id ar.base 4 (touchArea u ar (areaEnd u ar)) with
              | .error e => .error e
              | .ok u =>
              if !teamRoom u c ar then .error (.hold (.restoring s.clock (areaNat u ar 4 4) (areaKey u ar)))
              else
                let (id, u) := restoreTeam u c ar
                put u id
            else
              match teamFor u c (areaNat u ar 0x28 4) (areaNat u ar 0x38 4 / 64) with
              | some team =>
                if !areaValid u (teamKey (getTeam u c team)) ar then bad
                else match checkAccess u cap lane off (groupAreaSize (getLaunch u (areaNat u ar 0x28 4))) 0x83 4 false with
                | .error e => .error e
                | .ok () => match liftMem lane ar.desc.id ar.base 4 (touchArea u ar (groupAreaSize (getLaunch u (areaNat u ar 0x28 4)))) with
                | .error e => .error e
                | .ok u =>
                if !groupRoom u c ar then .error (.hold (.retry s.clock 15))
                else
                  let (id, u) := restoreGroup u c team ar
                  put u id
              | none => bad))

/-! ### hlt (R362) -/

/-- The abort of a bundle, as a step of the firmware core: `obj` the bundle, `value` the status, `extra` a reason. -/
def dueAbort (bundle status reason : Nat) : Due := ⟨.bundleAbort, { obj := bundle, value := status, extra := reason }⟩

def execHlt (i : BitVec 14) (s : State) : Out :=
  match unifCheck s { sup := true } [] with
  | .error e => finish s (.error e)
  | .ok false => .next (retire s)
  | .ok true =>
    if isLane s then .next (stopCore s s.cur.core s.cur.pc 0 i.toNat)
    else
      let g := curGroup s
      let s := setLaunch s g.launch { getLaunch s g.launch with reason := i.toNat }
      .next (pushDue (retire s) [dueAbort (getLaunch s g.launch).bundle 0x08 i.toNat])

/-! ### Debug instructions (R371) -/

def execBrk (i : BitVec 14) (s : State) : Out :=
  finish s (match unifCheck s {} [] with
    | .error e => .error e
    | .ok act =>
      if act && !isLane s && debugEnabled s s.cur.core s.cur.slot && !catchingUp (curGroup s) then
        .error (.trap { cls := 2, code := 0x01, number := i.toNat })
      else .ok s)

def execMark (i : BitVec 14) (s : State) : Out :=
  finish s (match unifCheck s {} [] with
    | .error e => .error e
    | .ok act => .ok (if act && (getDie s (curDie s)).dbg.ctl.getLsbD 1 then deferNow s (.mark i.toNat) else s))

/-- Counter `i` of a group (R371). -/
def counterOf (st : Stats) (i : Nat) : Word :=
  if i < 16 then wordOf (lookup st.stalls (i + 1) 0)
  else if i = 16 then wordOf (Nat.min st.issued (2 ^ 32 - 1))
  else if i = 17 then wordOf (Nat.min st.resident (2 ^ 32 - 1)) else 0

def execCnrd (d a : BitVec 7) (s : State) : Out :=
  let o : OpInfo := { srcA := some a, dst := some d }
  let st := (curGroup s).stats
  finish s (laneOp s o [.reg a 0] 1 0 d 1 0 (fun v => ([counterOf st ((arg v 0).toNat % 32)], 0)))

def execWcoord (d : BitVec 5) (s : State) : Out :=
  finish s (match unifCheck s { encBad := decide (29 < d.toNat) } [] with
    | .error e => .error e
    | .ok false => .ok s
    | .ok true =>
      let g := curGroup s
      let r := curRegion g
      let t := writeUnif s d.toNat 2 g.wg
      let t := writeUnif t (d.toNat + 1) 2 r.serial
      .ok (writeUnif t (d.toNat + 2) 2 (wordOf r.slots)))

end Sys2Proof.Machine
end

