-- ==== Sys2Proof/Machine/Ahead.lean ====
section
/-!
DEFINITION. The address stream (spec/06 R153, R154): which registers an instruction reads and writes, which marked slot may issue ahead
of the compute stream, what becomes of it, and its replay; and, with it, which candidate a pipe and a core issue next (R130, R155, R156,
R158, spec/11 R259).
-/

namespace Sys2Proof.Machine

/-! ### What an instruction reads and writes

A register is a number: a lane register its name, p, s and k registers 256, 264 and 296 and their number, and one number each for the stream
table with its positions, the window base, the patterns, the status registers, the batches, and memory that a stream register reaches. -/

def keyPred (p : Nat) : List Nat := if p = 0 then [] else [256 + p]
def keyUnifs (a n : Nat) : List Nat := (upTo n).map (fun i => 264 + a + i)
def keyCap (k : Nat) : List Nat := [296 + k]
def keyStreams : Nat := 312
def keyWindow : Nat := 313
def keyPatterns : Nat := 314
def keyStatus : Nat := 315
def keyBatches : Nat := 316
def keyStreamed : Nat := 317

/-- The registers that a field of `n` names stands for: its names, or the stream table and the memory behind it (R163, R170). -/
def fieldKeys (g : Group) (f : BitVec 7) (n : Nat) : List Nat :=
  if isStream f then [keyStreams, keyStreamed] else (upTo n).map (fun i => nameOf g f + i)

/-- What the meaning of a field rests on: the window base, the pattern it names (R163, R168). -/
def fieldNeeds (f : BitVec 7) : List Nat :=
  (if 16 ≤ codeOf f then [keyWindow] else []) ++ (if patOf f = 0 then [] else [keyPatterns])

/-- Lane sources and lane destinations, each a field and how many names it takes, with what they write and read beside. A stream source moves
its stream, and a last-read bit frees the names of its field. -/
def laneUses (g : Group) (ctl : BitVec 10) (dst a b : List (BitVec 7 × Nat)) (reads writes : List Nat) : Option Uses :=
  let keys := fun (l : List (BitVec 7 × Nat)) => l.flatMap (fun x => fieldKeys g x.1 x.2)
  let moved := fun (l : List (BitVec 7 × Nat)) (last : Bool) => (l.filter (fun x => isStream x.1 || last)).flatMap (fun x => fieldKeys g x.1 x.2)
  some ⟨keys (a ++ b) ++ (dst ++ a ++ b).flatMap (fun x => fieldNeeds x.1) ++ reads ++ keyPred (fieldNat ctl 6 3),
    keys dst ++ moved a (ctl.getLsbD 3) ++ moved b (ctl.getLsbD 4) ++ writes⟩

/-- What an instruction in a slot with these control bits reads and writes; none of one that the address stream does not pass: a control or
boundary instruction (R153), an acquire or a fence (R118, R119), and what acts on the core or on the group's course (entry 51). -/
def usesOf (g : Group) (ctl : BitVec 10) (lit : Bool) (i : Instr) : Option Uses :=
  let lane := laneUses g ctl
  let opB := fun (b : BitVec 7) (n : Nat) => if lit then [] else [(b, n)]
  let off := fun (a : BitVec 5) => [(plainField a, 1)]
  let unifs := fun (a : BitVec 5) (n : Nat) => keyUnifs a.toNat n
  let preds := fun (t f : BitVec 3) => keyPred t.toNat ++ keyPred f.toNat
  let data := fun (d : BitVec 5) (n : Nat) => [(plainField d, widthNames n)]
  match i with
  | .nop | .tcommit => lane [] [] [] [] []
  | .dcw _ => lane [] [] [] [] []
  | .add d a b | .sub d a b | .mul d a b | .and d a b | .or d a b | .xor d a b | .andn d a b | .shl d a b | .shr d a b | .sar d a b
  | .rol d a b | .fmin d a b | .fmax d a b | .fdiv d a b | .perm d a b => lane [(d, 1)] [(a, 1)] (opB b 1) [] []
  | .mulhi _ d a b | .min _ d a b | .max _ d a b | .absdiff _ d a b | .bfx _ d a b | .hadd2 _ d a b | .hmul2 _ d a b | .hmin2 _ d a b
  | .hmax2 _ d a b | .cvtpk16 _ d a b => lane [(d, 1)] [(a, 1)] (opB b 1) [] []
  | .lea _ d a b | .fsgn _ d a b => lane [(d, 1)] [(a, 1)] (opB b 1) [] []
  | .fadd _ _ d a b | .fmul _ _ d a b => lane [(d, 1)] [(a, 1)] (opB b 1) [] []
  | .cvtpk8 _ _ d a b | .qenc _ _ d a b => lane [(d, 1)] [(a, 1)] (opB b 1) [] []
  | .qdec _ d a b => lane [(d, 1)] [(a, 1)] (opB b 1) [] []
  | .qscal _ d a b => lane [(d, 1)] [(a, 2)] (opB b 1) [] []
  | .mad d a b | .bfi d a b | .fclamp d a b => lane [(d, 1)] [(a, 1)] (opB b 1) (fieldKeys g d 1) []
  | .fma _ _ d a b => lane [(d, 1)] [(a, 1)] (opB b 1) (fieldKeys g d 1) []
  | .hfma2 _ d a b => lane [(d, 1)] [(a, 1)] (opB b 1) (fieldKeys g d 1) []
  | .sel p d a b => lane [(d, 1)] [(a, 1)] (opB b 1) (keyPred p.toNat) []
  | .addi d a _ => lane [(d, 1)] [(a, 1)] [] [] []
  | .shi _ d a _ => lane [(d, 1)] [(a, 1)] [] [] []
  | .abs d a | .clz d a | .popc d a | .brev d a | .fclass d a | .fsqrt d a | .frcp d a | .frsq d a | .fex2 d a | .flg2 d a | .fsinpi d a
  | .fcospi d a | .matchAny d a => lane [(d, 1)] [(a, 1)] [] [] []
  | .frnd _ d a | .cvtup8 _ d a => lane [(d, 1)] [(a, 1)] [] [] []
  | .redux _ d a | .scan _ d a => lane [(d, 1)] [(a, 1)] [] [] []
  | .cvti2f _ _ d a | .cvtf2i _ _ d a => lane [(d, 1)] [(a, 1)] [] [] []
  | .cvtup16 _ _ d a => lane [(d, 1)] [(a, 1)] [] [] []
  | .add64 d a b | .sub64 d a b => lane [(d, 2)] [(a, 2)] (opB b 2) [] []
  | .sh64 _ d a b => lane [(d, 2)] [(a, 2)] (opB b 1) [] []
  | .mov d b => lane [(d, 1)] [] (opB b 1) [] []
  | .movi d _ => lane [(d, 1)] [] [] [] []
  | .icmp _ t f a b | .fcmp _ t f a b => lane [] [(a, 1)] (opB b 1) [] (preds t f)
  | .icmpi _ t f a _ => lane [] [(a, 1)] [] [] (preds t f)
  | .itop t f a => lane [] [(a, 1)] [] [] (preds t f)
  | .plog _ t f a b => lane [] [] [] (preds a b) (preds t f)
  | .vote _ t f a => lane [] [] [] (keyPred a.toNat) (preds t f)
  | .ballot d a | .ptoi d a => lane [(d, 1)] [] [] (keyPred a.toNat) []
  | .vget d a b => lane [] [(a, 1)] (opB b 1) [] (unifs d 1)
  | .vbcast d a => lane [(d, 1)] [] [] (unifs a 1) []
  | .setlp .. => lane [] [] [] [] [keyPatterns]
  | .wbase _ => lane [] [] [] [] [keyWindow]
  | .rds d _ => lane [(d, 1)] [] [] [keyStatus] [keyStatus]
  | .ld _ d a k w => lane (data d (widthBytes w)) (off a) [] (keyCap k.toNat ++ [keyStreamed]) []
  | .lds _ d a w => lane (data d (widthBytes w)) (off a) [] [keyStreamed] []
  | .ldk _ d a k => lane [] (off a) [] (keyCap k.toNat ++ [keyStreamed]) (keyCap d.toNat ++ [keyStatus])
  | .sld _ d a k w => lane [] [] [] (unifs a 1 ++ keyCap k.toNat ++ [keyStreamed]) (unifs d (if w = 3 then 2 else 1))
  | .st _ d a k w | .ared _ d a k w => lane [] (off a) (data d (widthBytes w)) (keyCap k.toNat) []
  | .sts _ d a w => lane [] (off a) (data d (widthBytes w)) [] []
  | .stk _ d a k => lane [] (off a) [] (keyCap k.toNat ++ keyCap d.toNat) []
  | .fred _ d a k => lane [] (off a) (data d 4) (keyCap k.toNat) []
  | .sst _ d a k w => lane [] [] [] (unifs a 1 ++ unifs d (if w = 3 then 2 else 1) ++ keyCap k.toNat) []
  | .pref a k _ => lane [] (off a) [] (keyCap k.toNat) []
  | .zfill _ a k | .unpin _ a k => lane [] (off a) [] (keyCap k.toNat) []
  | .pin t f a _ k => lane [] [(a, 1)] [] (keyCap k.toNat) (preds t f)
  | .cget _ d a => lane [(d, 1)] [] [] (keyCap a.toNat) []
  | .ctest t f a b => lane [] [] (opB b 1) (keyCap a.toNat) (preds t f)
  | .cnarrow d a b => lane [] [] [] (keyCap a.toNat ++ unifs b 4) (keyCap d.toNat)
  | .crights d a b => lane [] [] [] (keyCap a.toNat ++ unifs b 1) (keyCap d.toNat)
  | .stdef _ a => lane [] [] [] (unifs a 8) [keyStreams]
  | .stbind .. => lane [] [] [] [] [keyStreams]
  | .stpos _ d _ => lane [(d, 1)] [] [] [keyStreams] [keyStreams]
  | .copy _ _ a => lane [] [] [] (unifs a 8 ++ (upTo 16).flatMap keyCap) [keyBatches]
  | .bfence d => lane [] [] [] [] (unifs d 1 ++ [keyBatches])
  | .sqpeek _ d => lane [(d, 1)] [] [] [] []
  | .trd d _ => lane [] [] [] [] (unifs d 1)
  | .twr d _ => lane [] [] [] (unifs d 1) []
  | .mma _ _ _ | .mmas _ _ _ => lane [] [] [] (keyUnifs 0 32) [keyBatches]
  | .acpy _ _ _ => lane [] [] [] (keyUnifs 0 32) [keyBatches]
  | .aclr _ => lane [] [] [] [] [keyBatches]
  | .scld _ => lane [] [] [] (keyUnifs 0 32) [keyBatches]
  | .wbld .. => lane [] [] [] (keyUnifs 0 32 ++ (upTo 16).flatMap keyCap) [keyBatches]
  | .mstat d a => lane [] [] [] (unifs a 1) (unifs d 4)
  | .zgen _ a _ _ => lane [] [(a, 1)] [] [] []
  | .zand .. | .zandc .. | .zor .. | .zorc .. | .zmux .. | .zxorc .. => lane [] [] [] [] []
  | .znot .. => lane [] [] [] [] []
  | .zregen .. => lane [] [] [] [] []
  | .zcnt _ d _ => lane [(d, 1)] [] [] [] []
  | .zsum _ d _ => lane [(d, 1)] [] [] [] []
  | .zclass d _ => lane [(d, 1)] [] [] [] []
  | .zseed a => lane [] [] [] (unifs a 1) []
  | .sadd d a b | .ssub d a b | .smul d a b | .sand d a b | .sor d a b | .sxor d a b | .sshl d a b =>
    lane [] [] [] (unifs a 1 ++ if lit then [] else unifs b 1) (unifs d 1)
  | .sshr _ d a b => lane [] [] [] (unifs a 1 ++ if lit then [] else unifs b 1) (unifs d 1)
  | .scmp _ d a b => lane [] [] [] (unifs a 1 ++ if lit then [] else unifs b 1) (unifs d 1)
  | .sminmax _ d a b => lane [] [] [] (unifs a 1 ++ if lit then [] else unifs b 1) (unifs d 1)
  | .saddi d a _ => lane [] [] [] (unifs a 1) (unifs d 1)
  | .smovi d _ => lane [] [] [] [] (unifs d 1)
  | .smov d b => lane [] [] [] (if lit then [] else unifs b 1) (unifs d 1)
  | .ssel d a b => lane [] [] [] (unifs a 1 ++ unifs d 1 ++ if lit then [] else unifs b 1) (unifs d 1)
  | _ => none

/-! ### The next slot of the address stream (R153) -/

/-- A load, of which R153 allows sixteen ahead and R154 the replay. -/
def isLoad (i : Instr) : Bool :=
  match i with
  | .ld .. | .lds .. | .ldk .. | .sld .. => true
  | _ => false

/-- A course of the group that the instruction cache holds: no line is fetched for the address stream alone (entry 51). -/
def cachedCourse (s : State) (c slot : Nat) (pc : Word) : Option (List Byte) :=
  let k1 := readCap (getGroup s c slot) 1
  let off := k1.base.toNat + pc.toNat / 16 * 16
  (find? (getCore s c).icache (k1.obj.toNat * 2 ^ 37 + off / 128)).map (fun bs => (bs.drop (off % 128)).take 16)

/-- What stands in the slot at a PC: its instruction, its control bits, and the PC after it. -/
def slotAt (s : State) (c slot : Nat) (pc : Word) : Option (Instr × BitVec 10 × Bool × Word) :=
  match cachedCourse s c slot pc with
  | none => none
  | some bs =>
    let n := pc.toNat % 4
    if !(instrSlots (lmapOf bs)).contains n then none
    else match decode (courseWord bs (n + 1)) with
      | .error _ => none
      | .ok i => some (i, ctlOf (courseWord bs 0) n, !(literalSlots (lmapOf bs) n).isEmpty, nextSlot (lmapOf bs) pc)

/-- Two instructions of which the later may issue before the earlier: neither writes what the other reads or writes. -/
def apart (early late : Uses) : Bool :=
  late.writes.all (fun k => !early.reads.contains k && !early.writes.contains k) && late.reads.all (fun k => !early.writes.contains k)

/-- The next slot of the address stream from a PC on, and whether it may issue: it depends on no slot that it passes, nor on a load ahead,
which a store may yet replay. `last` is the last course within reach. -/
def aheadScan (s : State) (c slot last : Nat) : Nat → Word → Uses → Option Ahead
  | 0, _, _ => none
  | n + 1, pc, u =>
    let g := getGroup s c slot
    if last < pc.toNat / 16 then none
    else match slotAt s c slot pc with
    | none => none
    | some (i, ctl, lit, next) =>
      match usesOf g ctl lit i, g.ahead.slots.find? (fun w => w.pc == pc) with
      | none, _ => none
      | some v, some w => aheadScan s c slot last n next (if w.load then ⟨u.reads ++ v.reads, u.writes ++ v.writes⟩ else u)
      | some v, none =>
        if !ctl.getLsbD 5 then aheadScan s c slot last n next ⟨u.reads ++ v.reads, u.writes ++ v.writes⟩
        else if !apart u v || (v.reads ++ v.writes).contains keyStreamed && !isLoad i then none
        else if isLoad i && (ctl.getLsbD 3 || ctl.getLsbD 4) then none
        else some ⟨pc, next, isLoad i, []⟩

/-- The slot of the address stream that a candidate may issue ahead of its compute stream: at most 8 courses and 16 loads ahead, past no
slot that `usesOf` has none for, and not while the quads are parted (R153). A load that frees a name waits for its place (entry 51). -/
def nextAhead (s : State) (x : Candidate) : Option Ahead :=
  let g := getGroup s x.core x.slot
  let pc := candidatePc s x
  match aheadScan s x.core x.slot (pc.toNat / 16 + 8) 32 pc ⟨[], []⟩ with
  | none => none
  | some w => if w.pc == pc || (w.load && decide (16 ≤ (g.ahead.slots.filter (·.load)).length)) then none else some w

/-- What the compute stream waits for while the address stream may go on. -/
def computeWaits (p : Park) : Bool :=
  match p with
  | .none | .result _ | .register _ | .counter .. | .bank _ | .special | .reed | .channel _ | .sequencer | .migrating .. => true
  | _ => false

/-- A candidate whose compute stream waits has a slot of the address stream to issue. A group that a debugger may stop issues in program
order (entry 51). -/
def aheadReady (s : State) (x : Candidate) : Bool :=
  let g := getGroup s x.core x.slot
  x.slot != Config.laneSlot && !isParted g && decide (g.ahead.after ≤ s.clock) && !g.stats.stopped && g.stats.limit.isNone
    && !debugEnabled s x.core x.slot && !asleep s x.core x.slot && !spanHeld s x.core x.slot && !underSave s x.core x.slot
    && x.quads.all (fun q =>
      let y := getQuad g q
      !y.exited && !y.waiting && computeWaits y.park && decide (y.stallAddr ≤ s.clock) && decide (y.yieldUntil ≤ s.clock))
    && !readyBase s x && (nextAhead s x).isSome

/-! ### What becomes of it -/

/-- What a load reads, and would read again: object or scratchpad, offset and length. -/
def loadSpots (s : State) (i : Instr) : List Write :=
  let g := curGroup s
  let spot := fun (lane obj off n : Nat) => (⟨lane, obj, off, n, 0, 0, List.replicate n 0, false⟩ : Write)
  let lanes := fun (a : BitVec 5) (f : Nat → Nat → Write) =>
    let v := nameLanes g s.clock (nameOf g (plainField a))
    (activeLanes s).map (fun l => f l (laneVal v l).toNat)
  let object := fun (a : BitVec 5) (k : BitVec 4) (n : Nat) =>
    let c := capAt g s.clock k.toNat
    lanes a (fun l off => spot l c.obj.toNat (objOff c off) n)
  match i with
  | .ld _ _ a k w => object a k (widthBytes w)
  | .ldk _ _ a k => object a k 16
  | .lds _ _ a w => lanes a (fun l off => spot l Config.scratchObj off (widthBytes w))
  | .sld _ _ a k w =>
    let c := capAt g s.clock k.toNat
    [spot 0 c.obj.toNat (objOff c (readUnif g s.clock a.toNat).toNat) (widthBytes w)]
  | _ => []

/-- The compute stream stands where it stood: an issue ahead counts as the group's issue, and as a retired slot only at its place in
program order. -/
def backToPlace (quads : List Nat) (old new : Group) : Group :=
  let r := curRegion new
  setCurRegion
    { new with
      quads := new.quads.map (fun e => if quads.contains e.1 then
        (e.1, { e.2 with pc := (getQuad old e.1).pc, park := (getQuad old e.1).park }) else e)
      spec := { new.spec with retired := old.spec.retired }
      stats := { new.stats with total := old.stats.total } }
    { r with slots := (curRegion old).slots }

/-- The address stream of a candidate tries again at the next clock. -/
def tryLater (s : State) (x : Candidate) : State :=
  let g := getGroup s x.core x.slot
  setGroup s x.core x.slot { g with ahead := { g.ahead with after := s.clock + 1 } }

/-- After the execution of a slot ahead of its place. Where it waits, faults or reads an unmapped name nothing of it has happened, and it
is tried again at the next clock; a fault is taken at its place (R154). -/
def takeAhead (s : State) (x : Candidate) (w : Ahead) (t : State) (i : Instr) (o : Host.Outcome State Fault Refusal) :
    Host.Outcome State Fault Refusal :=
  let g := getGroup s x.core x.slot
  match o with
  | .next u =>
    let h := getGroup u x.core x.slot
    if h.spec.retired == g.spec.retired + 1 && h.regions.length == g.regions.length && h.spec.regstat == g.spec.regstat
      && x.quads.all (fun q => (getQuad h q).pc == w.next && (getQuad h q).park == .none)
    then .next (setGroup u x.core x.slot { backToPlace x.quads g h with
      ahead := ⟨g.ahead.slots ++ [{ w with spots := if w.load then loadSpots t i else [] }], 0⟩ })
    else .next (tryLater s x)
  | _ => .next (tryLater s x)

/-- The compute stream passes the slots that have issued ahead of it: they retire at their place. -/
def passAhead (c slot : Nat) : Nat → State → State
  | 0, s => s
  | n + 1, s =>
    let g := getGroup s c slot
    match (gangOf g).head? with
    | none => s
    | some q => match g.ahead.slots.find? (fun w => w.pc == (getQuad g q).pc) with
      | none => s
      | some w =>
        let r := curRegion g
        let quads := g.quads.map (fun e => if e.2.member && !e.2.exited then (e.1, { e.2 with pc := w.next }) else e)
        passAhead c slot n (setGroup s c slot (setCurRegion
          { g with
            quads := quads
            spec := { g.spec with retired := g.spec.retired + 1 }
            stats := { g.stats with total := g.stats.total + 1 }
            ahead := { g.ahead with slots := g.ahead.slots.filter (fun y => y.pc != w.pc) } }
          { r with slots := r.slots + 1 }))

/-- After the slot `i` of a compute stream, which issued in `t`: a load ahead of it that overlaps what it has read or written is to be
replayed at its place, its result discarded (R115, R154). -/
def replayAhead (x : Candidate) (i : Instr) (t u : State) : State :=
  let g := getGroup u x.core x.slot
  if g.ahead.slots.isEmpty then u
  else
    let held := fun (s : State) => (getGroup s x.core x.slot).regions.flatMap (fun r => r.stores.flatMap (·.writes))
    let seen := held t
    let touched := loadSpots t i ++ (held u).filter (fun w => !seen.contains w)
    passAhead x.core x.slot g.ahead.slots.length (setGroup u x.core x.slot { g with ahead := { g.ahead with
      slots := g.ahead.slots.filter (fun w => !w.spots.any (fun v => touched.any (overlaps v))) } })

/-! ### Which candidate issues (R155, R156, R158) -/

/-- The candidate a pipe issues; on clocks 15 mod 16 the aged candidate that has waited longest (R156). -/
def pickPipe (s : State) (c pipe : Nat) : Option Candidate :=
  let gs := (getCore s c).groups.filter (fun e => e.1 != Config.laneSlot && e.2.resident && e.2.pipe == pipe)
  let all := gs.flatMap (fun e => groupCandidates c e.1 e.2)
  let ready := all.filter (fun x => (readyBase s x && !yieldHolds s all x) || aheadReady s x)
  let starved := ready.filter (isAged s)
  if s.clock % 16 = 15 && !starved.isEmpty then leastBy (fun x y => decide (lastIssueOf s x < lastIssueOf s y)) starved
  else leastBy (candidateBefore s) ready

/-- The supervisor lane's candidate, in its own issue slot (R158); an interrupt ends its wait. -/
def pickLane (s : State) (c : Nat) : Option Candidate :=
  let g := getGroup s c Config.laneSlot
  if g.resident && (laneInterrupted (getCore s c) || quadReady s c Config.laneSlot 0) then some ⟨c, Config.laneSlot, [0]⟩ else none

/-- The issue slots of a core that have had their turn in this clock: bit 0 its supervisor lane, bit 1 + p its gang pipe p. `turn` is
32 × core and these bits, of the core whose turn it is (R156; MODEL: one slot of the module a step, entry 4). -/
def doneMask (s : State) (c : Nat) : Nat := if s.turn / 32 = c then s.turn % 32 else 0

/-- What a core issues next in this clock: its lane, ahead of every group (R158), then what its pipes take, in ascending group id
(R259); with the turn as it stands then. -/
def pickCore (s : State) (c : Nat) : Option (Nat × Candidate) :=
  let k := getCore s c
  let m := doneMask s c
  if !k.running || k.stopped.isSome then none
  else match (if m.testBit 0 then none else pickLane s c) with
  | some x => some (32 * c + (m ||| 1), x)
  | none =>
    let xs := (upTo 4).filterMap (fun p => if m.testBit (p + 1) then none else (pickPipe s c p).map (fun x => (p, x)))
    (leastBy (fun x y => decide (x.2.slot < y.2.slot)) xs).map (fun x => (32 * c + (m ||| 2 ^ (x.1 + 1) ||| 1), x.2))

/-- The next candidate of this clock, with the turn as it stands then. -/
def pick (s : State) : Option (Nat × Candidate) :=
  s.cores.findSome? (fun e => if e.1 < s.turn / 32 then none else pickCore s e.1)

end Sys2Proof.Machine
end

