-- ==== Sys2Proof/Machine/Commit.lean ====
section
/-!
DEFINITION. REGION_COMMIT (spec/06 R151): a region's held stores and reductions perform, then the effects queued for its
commit; svpost's resolution of records (spec/16 R352), qput's append (spec/18 R394), and the store hash (spec/17 R378).
-/

namespace Sys2Proof.Machine

/-! ### Resolving records (R352) -/

/-- Records that wait for a free one among 480 to 511 are written, oldest first; `fuel` bounds their number. -/
def refillRecords (time : Nat) : Nat → Core → Core
  | 0, k => k
  | fuel + 1, k =>
    match k.heldRecs, freeRecord k 480 512 with
    | r :: rest, some h => refillRecords time fuel (writeRecord time { k with heldRecs := rest } h r.words r.data)
    | _, _ => k

/-- A record becomes free (R346). -/
def freeRec (s : State) (c h : Nat) : State :=
  let k := getCore s c
  setCore s c (refillRecords (recordTime s 127) 32 { k with records := eraseKey k.records h })

/-- A system-call park without one of its handles. -/
def dropHandle (h : Nat) (p : Park) : Park := match p with | .syscall hs => .syscall (hs.filter (· != h)) | p => p

def dropHandleQuads (h : Nat) (qs : FMap Quad) : FMap Quad := qs.map (fun e => (e.1, { e.2 with park := dropHandle h e.2.park }))

/-- Whether a handle is the last of a park of the group. -/
def lastHandle (g : Group) (h : Nat) : Bool := g.quads.any (fun q => q.2.park == .syscall [h])

/-- A key's place among the mapped names of a snapshot. -/
def addMapped (key : Nat) (r : Region) : Region := { r with snap := { r.snap with mapped := insertNat r.snap.mapped key } }

/-- A system call or software trap is resolved: h0 of its lane takes the value and no other register of the group changes (R353), and
the park loses the handle, in the group and in its snapshots; the candidate that resumes acquires at module scope (R350). -/
def resolveCall (s : State) (c h : Nat) (m : RecMeta) (v : Word) : State :=
  let g := getGroup s c m.slot
  let last := lastHandle g h
  let g := writeLane g 0 m.lane v
  let g := { g with
    quads := dropHandleQuads h g.quads
    regions := g.regions.map (fun r =>
      let r := addMapped (m.lane / 4) r
      { r with snap := { r.snap with quads := dropHandleQuads h r.snap.quads } }) }
  let s := setGroup s c m.slot g
  if last then epochStep s (dieOf c) else s

/-- A group resumes from its trap (action 0): its quads take the waits of their snapshot, and it acquires at module scope. -/
def resumeGroup (s : State) (c slot : Nat) : State :=
  let g := getGroup s c slot
  let snap := (curRegion g).snap.quads
  epochStep (setGroup s c slot { g with quads := g.quads.map (fun e => (e.1, { e.2 with park := keptPark (lookup snap e.1 e.2).park })) })
    (dieOf c)

/-- The step that resumes, or ends, the unit of a record that no group owns (Table 16-7). -/
def unitAction (c : Nat) (m : RecMeta) (abort : Bool) : List Due :=
  match m.src with
  | 1 => [⟨if abort then .chstatAbort else .chstatResume, { core := c, unit := m.unit }⟩]
  | 2 => [⟨if abort then .mseqAbort else .mseqResume, { core := c }⟩]
  | 3 => if abort then [⟨.strcfgEnable, { unit := m.unit, flag := true }⟩] else [⟨.strcfgResume, { unit := m.unit }⟩]
  | 4 => [⟨if abort then .fredctlAbort else .fredctlResume, { die := dieOf c }⟩]
  | _ => []

/-- Resolve the record of a handle with a value (Table 16-7), and free it. A handle already free is left (Table 16-8). -/
def resolveRecord (s : State) (c h : Nat) (v : Word) : State :=
  let m := getRec (getCore s c) h
  let s := if m.state == .free then s
    else if m.cls = 0xE || m.cls = 0xD then resolveCall s c h m v
    else if m.src = 0 then
      if v = 0 then resumeGroup s c m.slot
      else pushDue s [dueAbort (getLaunch s (getGroup s c m.slot).launch).bundle 0x08 0]
    else pushDue s (unitAction c m (v == 1))
  freeRec s c h

/-! ### Control registers at commit (R360) -/

/-- The steps that a write of a control register is (a register without behaviour of its own is a REGISTER_WRITE). -/
def csrSteps (c n : Nat) (v : Word) : List Due :=
  let inside := fun (lo hi : Nat) => decide (lo ≤ n) && decide (n ≤ hi)
  let acts := fun (stop go : Due) => (if v.getLsbD 31 then [stop] else []) ++ (if v.getLsbD 27 then [go] else [])
  if n = 0x840 then [⟨.poolsplitWrite, { core := c, value := v.toNat }⟩]
  else if inside 0x850 0x857 then
    acts ⟨.chstatAbort, { core := c, unit := n - 0x850 }⟩ ⟨.chstatResume, { core := c, unit := n - 0x850 }⟩
  else if n = 0x858 then acts ⟨.mseqAbort, { core := c }⟩ ⟨.mseqResume, { core := c }⟩
  else if inside 0x86D 0x86E then [⟨.sltcmpWrite, { core := c, unit := n, value := v.toNat }⟩]
  else if n = 0x8C1 then acts ⟨.fredctlAbort, { die := dieOf c }⟩ ⟨.fredctlResume, { die := dieOf c }⟩
  else if inside 0xD00 0xDFF then
    ⟨.strcfgEnable, { unit := n - 0xD00, value := v.toNat }⟩
      :: (if v.getLsbD 24 then [⟨.strcfgResume, { unit := n - 0xD00 }⟩] else [])
  else [⟨.registerWrite, { core := c, unit := n, value := v.toNat }⟩]

/-! ### Effects queued for a commit -/

/-- Free a posted receive of the group (R264); a free entry lets refused messages in. -/
def cancelReceive (s : State) (c slot h : Nat) : State :=
  let k := getCore s c
  match find? k.receives h with
  | none => s
  | some r => if r.group == slot && r.team == (getGroup s c slot).team then resend (setCore s c { k with receives := eraseKey k.receives h }) c else s

/-- One effect takes place. -/
def applyEffect (c slot : Nat) (r : Region) (s : State) (q : Queued) : Res State :=
  let team := (getGroup s c slot).team
  match q.effect with
  | .copy n => .ok (pushDue s [⟨.copyStart, { core := c, unit := n }⟩])
  | .svpost h v => .ok (resolveRecord s c h v)
  | .csrw n v => .ok (pushDue s (csrSteps c n v))
  | .mcancel h => .ok (cancelReceive s c slot h)
  | .unpin obj line => .ok (unpinLine s (getCore s c).part obj line)
  | .qput .. | .thand .. => hardEffect c slot 0 s q
  | .mark v =>
    let g := getGroup s c slot
    .ok (traceWords s (dieOf c) [wordOf (2 ^ 28 + c * 2 ^ 16 + slot % 64), g.wg, r.serial, wordOf q.slots, wordOf s.clock,
      wordOf (s.clock / 2 ^ 32), oldestPc s c slot, wordOf v])
  | .mstatClear w seen failed => .ok (clearStatus s c team w seen failed)
  | .trigger =>
    let g := getGroup s c slot
    .ok (if slot = Config.laneSlot then s else afterGroup (setGroup s c slot { g with trigger := true }) g.launch)
  | .tcommit l regs => .ok (commitTruss s l regs)
  | .engine op => .ok (handOver s op)

/-- One effect takes place, and its dependence counter goes down (R172). -/
def effectDone (c slot : Nat) (r : Region) (s : State) (q : Queued) : Res State :=
  (applyEffect c slot r s q).map (fun s => if q.counter = 0 then s else setGroup s c slot (countDown (getGroup s c slot) q.counter))

/-- The first queued effect of a group's first region is done. -/
def dropEffect (s : State) (c slot : Nat) : State :=
  let g := getGroup s c slot
  setGroup s c slot { g with regions := g.regions.modify 0 (fun x => { x with deferred := x.deferred.tail }) }

/-- Every effect of a region, in program order; a wait at an order gate keeps those done. -/
def applyEffects (c slot : Nat) (r : Region) : State → List Queued → Res State
  | s, [] => .ok s
  | s, q :: qs =>
    match effectDone c slot r s q with
    | .error a => .error (keepDone s a)
    | .ok t => applyEffects c slot r (dropEffect t c slot) qs

/-! ### Clear-on-read (R175) and the hash area (R378) -/

/-- The status bits that a committing region has read are cleared, but for those raised again since; a later region's abort restores
KSTAT without the bits whose clearing was pending when it began (R175). -/
def applyClears (g : Group) (r : Region) : Group :=
  let settle := fun (x : Region) => { x with snap :=
    { x.snap with clears := 0, kstat := x.snap.kstat &&& ~~~(x.snap.clears.extractLsb' 5 2) } }
  let g := clearBits g r.clears
  { g with regions := g.regions.map settle }

/-- Offset of a region's entry in a launch's hash area; none past the group's part. -/
def hashOffset (l : Launch) (wg : Word) (serial : Word) : Option (Cap × Nat) :=
  match l.hasharea with
  | none => none
  | some (c, n) => if serial.toNat < n then some (c, 8 * (n * wg.toNat + serial.toNat)) else none

/-- In replay mode, the recorded hash that the region's hash misses; a page that migrates lets the commit wait (R40). -/
def hashMiss (s : State) (g : Group) (r : Region) (h : BitVec 64) : Res (Option Nat) :=
  let l := getLaunch s g.launch
  if replayMode l ≠ 2 then .ok none
  else match hashOffset l g.wg r.serial with
    | none => .ok none
    | some (c, off) => (logRead s l.part c off 8).map (fun v => v.bind (fun v => if v = h.toNat then none else some v))

/-- In record mode, the region's hash goes to its entry. -/
def recordHash (s : State) (g : Group) (r : Region) (h : BitVec 64) : State :=
  let l := getLaunch s g.launch
  if replayMode l ≠ 1 then s
  else match hashOffset l g.wg r.serial with
    | none => s
    | some (c, off) => hwPut s l.part c off 8 h.toNat

/-! ### The commit -/

/-- The first uncommitted region of a group commits: what it holds performs, and the group goes on without it. -/
def commitRegion (s : State) (c slot : Nat) (r : Region) (h : BitVec 64) : Res State :=
  match checkEffects s c slot 0 with
  | .error e => .error e
  | .ok () =>
  match releaseRegion s c slot 0 with
  | .error e => .error e
  | .ok s =>
    match applyEffects c slot r s r.deferred with
    | .error e => .error e
    | .ok s =>
      let s := recordHash s (getGroup s c slot) r h
      let g := getGroup s c slot
      let g := applyClears { g with regions := g.regions.drop 1 } (nthRegion g 0)
      let st := g.stats
      let s := setGroup s c slot { g with stats := { st with hash := h, committed := st.committed + 1, gate := none } }
      let g := getGroup s c slot
      .ok (match g.regions with
        | [] => pushDue s [⟨.groupEnd, { core := c, unit := slot }⟩]
        | x :: _ => if x.ended then pushDue s [⟨.regionCommit, { core := c, unit := slot }⟩] else s)

/-- The only region of a group that waits in sqget commits so far: what it holds performs, and an abort now goes back to the sqget
(R142). -/
def commitSoFar (s : State) (c slot : Nat) : Res State :=
  match checkEffects s c slot 0 with
  | .error e => .error e
  | .ok () =>
  match releaseRegion s c slot 0 with
  | .error e => .error e
  | .ok s =>
    match applyEffects c slot (nthRegion (getGroup s c slot) 0) s (nthRegion (getGroup s c slot) 0).deferred with
    | .error e => .error e
    | .ok s =>
      let g := getGroup s c slot
      let r := nthRegion g 0
      let g := applyClears g r
      let snap := { takeSnapshot g with slots := r.slots, stores := r.stores.length, clears := 0 }
      .ok (setGroup s c slot { g with regions := [{ r with snap := snap, deferred := [], freed := [], clears := 0 }] })

/-- The group waits in sqget with one region, which holds something. -/
def waitsHolding (g : Group) : Bool :=
  g.resident && parkedGet g && (match g.regions with
    | [r] => !r.ended && (!r.deferred.isEmpty || r.stores.any (fun st => !st.drained))
    | _ => false)

/-- The supervisor lane has no region: what it queued takes place at once, and the status bits that it read are cleared (R175). -/
def commitLane (s : State) (c : Nat) : State :=
  let g := getGroup s c Config.laneSlot
  let r := curRegion g
  let s := setGroup s c Config.laneSlot (applyClears { g with regions := [] } r)
  match applyEffects c Config.laneSlot r s r.deferred with
  | .ok s => s
  | .error _ => s

/-- The region may commit: it has ended, no debug stop holds it (R369), and its span is whole (R136, R312). -/
def mayCommit (s : State) (c slot : Nat) : Option Region :=
  let g := getGroup s c slot
  let k := getCore s c
  match g.regions with
  | [] => none
  | r :: _ => if g.resident && r.ended && k.stopped.isNone && !spanHeld s c slot && !(g.stats.stopped && g.stats.stopS == r.serial) then some r else none

/-- The two words of a 64-bit number, low first. -/
def twoWords (n : Nat) : List Byte := leBytes 8 n

/-- A commit whose store or effect meets a migrating page is parked at the page's port until an extinv of the object (R40). -/
def parkCommit (s : State) (c obj off : Nat) (again : Event) : State :=
  let p := (getCore s c).part
  match readEntry s p obj with
  | none => s
  | some e => parkAt s p e off ⟨.regionCommit, again⟩

/-- What stopped a commit: a fault aborts the region, a page that migrates parks the commit, an order gate holds it. -/
def commitStop (s : State) (c slot : Nat) (r : Region) : Abort → State
  | .trap t | .lateTrap s t =>
    let (pc, count, _) := t.place.getD (s.cur.pc, r.slots, 0)
    if t.cls = 2 then pushDue s (debugSteps c slot 0 1 count t)
    else takeGroupTrap s c slot 0 (groupOrigin s c slot 0 pc count) t
  | .hold p | .lateHold s p =>
    match p with
    | .orderGate since .. =>
      let g := getGroup s c slot
      setGroup s c slot { g with stats := { g.stats with gate := some since } }
    | .migrating obj off => parkCommit s c obj off s.ev
    | _ => s

/-- A parked request is a commit of a group. -/
def isCommitOf (c slot : Nat) (e : Due) : Bool :=
  match e.instr with
  | .regionCommit => e.event.core == c && e.event.unit == slot
  | _ => false

/-- A commit of a group is parked at a migrating page: only an extinv lets it go on (R40). -/
def commitParkedAt (s : State) (c slot : Nat) : Bool :=
  s.dies.any (fun d => d.2.slices.any (fun z => (z.2.parked ++ z.2.waiting).any (fun r => r.step.any (isCommitOf c slot))))

/-- REGION_COMMIT: `unit` is the group, or the supervisor lane's slot; with `flag`, the region of a group that waits in sqget commits
so far; with `extra` 7, the group has been resumed from a divergence of this commit (R369). A fault of a store or of an effect aborts
the region; a store at a migrating page, or an operation at an order gate, leaves it uncommitted for now. -/
def execRegionCommit (s : State) : Out :=
  let c := s.ev.core
  let slot := s.ev.unit
  if commitParkedAt s c slot then .next s else
  let s := { s with cur := { Issue.none with core := c, slot := slot } }
  let g := getGroup s c slot
  .next (if slot = Config.laneSlot then commitLane s c
    else if s.ev.flag then
      (if !waitsHolding g || spanHeld s c slot || g.stats.stopped then s
      else match commitSoFar s c slot with
        | .ok t => t
        | .error a => commitStop s c slot (nthRegion g 0) a)
    else match mayCommit s c slot with
      | none => s
      | some r =>
        let h := regionHash g.stats.hash r
        match (if s.ev.extra = 7 then .ok none else hashMiss s g r h) with
        | .error a => commitStop s c slot r a
        | .ok (some v) =>
          let b := twoWords h.toNat ++ twoWords v
          pushDue s [⟨.debugStop, { core := c, unit := slot, value := 7, extra := r.slots, flag := true, off := 1, bytes := b }⟩]
        | .ok none =>
          match commitRegion s c slot r h with
          | .ok t => t
          | .error a => commitStop s c slot r a)

end Sys2Proof.Machine
end

