-- ==== Sys2Proof/Machine/Tick.lean ====
section
/-!
DEFINITION. The stall counters (spec/17 R372): the stall reason of a candidate, and what a clock charges to a group.
-/

namespace Sys2Proof.Machine

/-! ### Stall reasons (R372) -/

/-- The stall reason of a park; 0 for none. -/
def parkReason (p : Park) : Nat :=
  match p with
  | .none => 0
  | .trap _ | .trapQueue _ | .syscall _ | .svtake _ => 12
  | .orderGate .. | .resource | .shootdown => 16
  | .counter .. => 2
  | .result _ | .register _ => 3
  | .bank _ => 10
  | .barrier .. | .span .. => 8
  | .queueEmpty _ => 6
  | .queueFull _ => 7
  | .batch _ | .batches => 9
  | .migrating .. => 14
  | .channel _ | .sequencer | .special | .reed => 15
  | .wfi => 12
  | .retry _ r => r
  | .saving .. => 16
  | .restoring .. => 15
  | .noRegister _ => 4

/-- The same of a park of a group: a load that waits for a migrating page waits for its register, a fetch for its course. -/
def waitReason (g : Group) (p : Park) : Nat :=
  match p with
  | .migrating obj _ => if (readCap g 1).obj.toNat = obj then 14 else 3
  | p => parkReason p

/-- The candidate of a group with the oldest last issue. -/
def oldestCandidate (s : State) (c slot : Nat) : Option Candidate :=
  leastBy (fun x y => decide (lastIssueOf s x < lastIssueOf s y)) (groupCandidates c slot (getGroup s c slot))

/-- The reason charged to a group that issues no slot, of its candidate with the oldest last issue; `next` is the reason for which that
candidate's next slot is not ready, 0 for none. -/
def stallReason (s : State) (c slot next : Nat) : Nat :=
  let g := getGroup s c slot
  match oldestCandidate s c slot with
  | none => 16
  | some x =>
    let q := getQuad g (x.quads.headD 0)
    let r := waitReason g q.park
    if r = 12 && !parkOver s c slot q.park then 12
    else if g.stats.stopped || spanHeld s c slot || underSave s c slot then 16
    else if r ≠ 0 && !parkOver s c slot q.park then r
    else if s.clock < q.yieldUntil then 16
    else if q.waiting then 13
    else if next ≠ 0 then next
    else if !stallOver s c slot q then 1
    else 5

/-- A counter one higher, saturating at 2^32 − 1. -/
def bump (m : FMap Nat) (k : Nat) : FMap Nat := insertKey m k (Nat.min (lookup m k 0 + 1) (2 ^ 32 - 1))

/-- One clock of a group: a group that issued no slot in it is charged its stall reason. -/
def chargeGroup (s : State) (c slot next : Nat) : State :=
  let g := getGroup s c slot
  let r := if g.stats.issuedNow then 0 else stallReason s c slot next
  if !g.resident || slot = Config.laneSlot then s
  else setGroup s c slot { g with stats := { g.stats with
    resident := g.stats.resident + 1, issuedNow := false, charged := r,
    stalls := if r = 0 then g.stats.stalls else bump g.stats.stalls r } }

end Sys2Proof.Machine
end

