-- ==== Sys2Proof/Machine/Supervise.lean ====
section
/-!
DEFINITION. What reaches a core beside its instructions: traps that wait for a record (TRAP_TAKE, spec/16 R342, R346), user
interrupts (USER_INTERRUPT_DELIVERY, spec/11 R255), the supervisor lane's timer, device interrupts and interrupt entry
(spec/16 R347, R348), register writes (REGISTER_WRITE, spec/16 R360, spec/17 R366), and the clock's marks on candidates
(CANDIDATE_AGING, STALL_CLOCK, YIELD_TIMEOUT).
-/

namespace Sys2Proof.Machine

/-! ### TRAP_TAKE (R342, R346) -/

/-- The record that a group's trap waits to write. -/
def waitingRecord (g : Group) : Option (List Word) :=
  g.quads.findSome? (fun q => match q.2.park with | .trapQueue r => some r | _ => none)

/-- A record that waited takes a free handle, and the group parks on it. -/
def writeWaiting (s : State) (c slot : Nat) (ws : List Word) : State :=
  let k := getCore s c
  match freeRecord k 0 480 with
  | none => s
  | some h =>
    let w := fun (i : Nat) => ws.getD i 0
    let s := setCore s c (writeRecord (recordTime s slot) k h ws
      ⟨.pending, 0, fieldNat (w 0) 28 4, 0, 0, slot, fieldNat (w 1) 8 5, (w 0).getLsbD 9⟩)
    setGroup s c slot (parkGroup (getGroup s c slot) (.trap h))

/-- A class of Table 16-1 that aborts regions and writes a supervisor-queue record. -/
def abortingClass (cls : Nat) : Bool := cls == 1 || (decide (3 ≤ cls) && decide (cls ≤ 0xB))

/-- TRAP_TAKE of group `unit`: a record that waits is written; otherwise `value` is the class, `extra` the code, `len` the lane
of a trap of the group's current region, with `obj` and `off`, its KIND, and 1 for the shadow map, in `aux`. -/
def execTrapTake (s : State) : Out :=
  let e := s.ev
  let g := getGroup s e.core e.unit
  .next (if !g.resident || e.unit = Config.laneSlot then s
    else match waitingRecord g with
      | some ws => writeWaiting s e.core e.unit ws
      | none =>
        if !abortingClass e.value then s
        else
          let last := g.regions.length - 1
          takeGroupTrap s e.core e.unit last
            (groupOrigin s e.core e.unit last (oldestPc s e.core e.unit) (curRegion g).slots)
            { cls := e.value, code := e.extra % 256, lane := e.len % 32, obj := e.obj, off := e.off
              kind := e.aux.getD 0 0 % 8, shadow := e.aux.getD 1 0 == 1 })

/-! ### User interrupts (R255) -/

/-- The group as it enters its handler: the frame saved, an abandoned wait to be executed again, s30 the payload, every lane that has not exited active. -/
def enterHandler (g : Group) (payload : Word) : Group :=
  { g with
    user := { g.user with payload := none, inHandler := true, resume := waitingPc (getQuad g ((gangOf g).headD 0))
                          masks := g.quads.map (fun e => (e.1, e.2.mask)), s30 := lookup g.regs.unif 30 0, waits := g.user.waits ++ arrivedWaits g }
    regs := { g.regs with unif := insertKey g.regs.unif 30 payload }
    quads := g.quads.map (fun e => if e.2.exited then e else
      (e.1, { e.2 with pc := g.user.handler, mask := liveLanes e.2, park := .none })) }

/-- USER_INTERRUPT_DELIVERY to group `unit`: the region ends as region ends it, and the group goes on in its handler. -/
def execUserInterruptDelivery (s : State) : Out :=
  let c := s.ev.core
  let slot := s.ev.unit
  let g := getGroup s c slot
  .next (match g.user.payload with
    | none => s
    | some v =>
      if slot = Config.laneSlot || !canDeliver s c slot then s
      else endRegion (setGroup s c slot (enterHandler g v)) c slot)

/-! ### The supervisor lane (R347, R348) -/

/-- Set cause bits of a core's lane. -/
def raiseCause (s : State) (c : Nat) (b : BitVec 7) : State :=
  let k := getCore s c
  setCore s c { k with lane := { k.lane with cause := k.lane.cause ||| b } }

/-- The clock count at which the lane's timer fires. -/
def timerCompare (r : LaneRegs) : Nat := r.cmpLo.toNat + r.cmpHi.toNat * 2 ^ 32

/-- SL_TIMER: TIMER is set when the clock count has reached SLTCMP. -/
def execSlTimer (s : State) : Out :=
  .next (if timerCompare (getCore s s.ev.core).lane ≤ s.clock then raiseCause s s.ev.core 1 else s)

/-- SL_DEVICE_INTERRUPT: `unit` is the bit of SLCAUSE, 2 IO0, 3 IO1, 4 FWCORE, 5 MGMT. -/
def execSlDeviceInterrupt (s : State) : Out :=
  .next (if 2 ≤ s.ev.unit ∧ s.ev.unit ≤ 5 then raiseCause s s.ev.core (BitVec.ofNat 7 (2 ^ s.ev.unit)) else s)

/-- SL_INTERRUPT_TAKE: SLEPC ← the PC of the next slot, IE ← 0, PC ← SLVEC. -/
def execSlInterruptTake (s : State) : Out :=
  let c := s.ev.core
  let k := getCore s c
  let g := getGroup s c Config.laneSlot
  .next (if !g.resident || !laneInterrupted k then s
    else
      let q := getQuad g 0
      let s := setCore s c { k with lane := { k.lane with ie := false, epc := q.pc } }
      setGroup s c Config.laneSlot (setQuad g 0 { q with pc := k.lane.vec, park := .none }))

/-- SLTCMP_WRITE: `unit` is 0x86D or 0x86E. TIMER is set when the count is already at least SLTCMP. -/
def execSltcmpWrite (s : State) : Out :=
  let c := s.ev.core
  let k := getCore s c
  let v := wordOf s.ev.value
  .next (if s.ev.unit ≠ 0x86D ∧ s.ev.unit ≠ 0x86E then s
    else
      let r := if s.ev.unit = 0x86D then { k.lane with cmpLo := v } else { k.lane with cmpHi := v }
      let s := setCore s c { k with lane := r }
      if timerCompare r ≤ s.clock then raiseCause s c 1 else s)

/-! ### Registers without behaviour of their own (R360, R366) -/

/-- A write of a firmware-core mapping register of a die; a lane mapped anew abandons its WAIT (R397). -/
def writeMap (s : State) (d i : Nat) (f : FwLane → FwLane) : State :=
  let k := getDie s d
  let x := getFw k i
  let y := f x
  let same := x.qid == y.qid && y.cfg.getLsbD 4
  let y := { y with waiting := false, copying := y.copying && same, next := if same then y.next else none }
  setDie s d { k with lanes := insertKey k.lanes i y }

/-- A write of a partition's register. -/
def writePart (s : State) (c : Nat) (f : Partition → Partition) : State :=
  let p := (getCore s c).part
  setPart s p (f (getPart s p))

/-- A supervisor-lane register takes the writable fields of a word; SLCAUSE bits clear where the word has 1. -/
def writeLaneReg (r : LaneRegs) (i : Nat) (v : Word) : LaneRegs :=
  match i with
  | 0 => { r with ie := v.getLsbD 0 }
  | 1 => { r with epc := v }
  | 2 => { r with vec := v }
  | 3 => { r with cause := r.cause &&& ~~~(v.truncate 7) }
  | 4 => { r with ien := v.truncate 7 }
  | _ => r

/-- Write the control register of a number on a core: its writable fields (R7). -/
def writeRegister (s : State) (c n : Nat) (v : Word) : State :=
  let k := getCore s c
  let inside := fun (lo hi : Nat) => decide (lo ≤ n) && decide (n ≤ hi)
  if n = 0x800 then writePart s c (fun p => { p with otbase := v &&& 0x1FFFFFFF })
  else if n = 0x801 then writePart s c (fun p => { p with otlen := v })
  else if n = 0x810 then writePart s c (fun p => { p with zbbase := v &&& 0x1FFFFFFF })
  else if n = 0x811 then writePart s c (fun p => { p with prmbase := v &&& 0x1FFFFFFF })
  else if n = 0x812 then writePart s c (fun p => { p with prmlen := v &&& 0x0FFFFFFF })
  else if inside 0x820 0x82F then writePart s c (fun p => { p with pinquota := insertKey p.pinquota (n - 0x820) v })
  else if n = 0x841 then setCore s c { k with sbcheck := v.truncate 2 }
  else if inside 0x868 0x86C then setCore s c { k with lane := writeLaneReg k.lane (n - 0x868) v }
  else if inside 0x880 0x89F then writeMap s (dieOf c) (n - 0x880) (fun x => { x with qid := v })
  else if inside 0x8A0 0x8BF then writeMap s (dieOf c) (n - 0x8A0) (fun x => { x with cfg := v.truncate 5 })
  else s

/-- The stops that coordinate entry `i` of a die brings when it is written or debug stops are enabled: a group with an uncommitted
region that has passed N goes back to N, one whose region has ended before N stops at its end (R368, R369). -/
def passedStops (s : State) (d i : Nat) : List Due :=
  let b := (getDie s d).dbg
  let n := bpWord b i 3
  let stop := fun (c slot : Nat) =>
    let g := getGroup s c slot
    if g.stats.stopped || !debugEnabled s c slot || bpWord b i 1 ≠ g.wg.toNat then none
    else (upTo g.regions.length).findSome? (fun j =>
      let r := nthRegion g j
      let off := if j + 1 < g.regions.length then 1 else 0
      if r.serial.toNat ≠ bpWord b i 2 then none
      else if n < r.slots then some (⟨.debugStop, { core := c, unit := slot, value := 3, extra := n, off := off }⟩ : Due)
      else if r.ended then some ⟨.debugStop, { core := c, unit := slot, value := 3, extra := r.slots, off := off, flag := true }⟩
      else none)
  if bpWord b i 0 % 8 ≠ 2 then []
  else (s.cores.filter (fun e => dieOf e.1 == d)).flatMap (fun e => (residents e.2).filterMap (fun g => stop e.1 g.1))

/-- A debugger's write at a debug offset of a die (Tables 17-1 and 17-2). -/
def writeDebug (s : State) (d off : Nat) (v : Word) : State :=
  let k := getDie s d
  let g := k.dbg
  let put := fun (x : Debug) => setDie s d { k with dbg := x }
  if off = 0 then
    let t := put { g with ctl := v &&& 0xFB }
    let enabled := v.getLsbD 0 && !g.ctl.getLsbD 0
    pushDue t ((if v.getLsbD 2 then [⟨.dbgctlHalt, { die := d }⟩] else []) ++ (if enabled then (upTo 8).flatMap (passedStops t d) else []))
  else if off = 8 then
    pushDue (put { g with cmd := v &&& 0xF0FFFFFF }) (match fieldNat v 28 4 with
      | 1 => [⟨.dbgcmdResume, { die := d }⟩]
      | 2 => [⟨.dbgcmdRunToLimit, { die := d, value := fieldNat v 0 24 }⟩]
      | 3 => [⟨.dbgcmdEndLaunch, { die := d }⟩]
      | _ => [])
  else if off = 0xC then put { g with tgt := v }
  else if off = 0x10 then put { g with trbase := v &&& 0x1FFFFFFF }
  else if off = 0x14 then pushDue s [⟨.trsizeWrite, { die := d, value := v.toNat }⟩]
  else if off = 0x20 then pushDue s [⟨.trtailWrite, { die := d, value := v.toNat }⟩]
  else if 0x100 ≤ off ∧ off < 0x200 ∧ off % 4 = 0 ∧ off % 32 / 4 < 5 then
    let i := (off - 0x100) / 32
    let w := off % 32 / 4
    let x := if w = 0 then v &&& 7 else if w = 4 then v &&& 3 else v
    let t := put { g with bps := insertKey g.bps (8 * i + w) x }
    pushDue t (passedStops t d i)
  else s

/-- REGISTER_WRITE: the control register `unit` of a core takes `value`; with `flag`, a debugger writes the register at debug
offset `off` of a die. -/
def execRegisterWrite (s : State) : Out :=
  let e := s.ev
  .next (if e.flag then writeDebug s e.die e.off (wordOf e.value) else writeRegister s e.core e.unit (wordOf e.value))

/-! ### Candidates and the clock (R156, R252, R372) -/

/-- CANDIDATE_AGING of quad `len` of group `unit`: a candidate that has not issued for 1,024 clocks is aged. -/
def execCandidateAging (s : State) : Out :=
  let e := s.ev
  let g := getGroup s e.core e.unit
  let q := getQuad g e.len
  .next (if g.resident && hasKey g.quads e.len && decide (q.lastIssue + 1024 ≤ s.clock) then
      setGroup s e.core e.unit (setQuad g e.len { q with aged := true })
    else s)

/-- STALL_CLOCK: one clock of group `unit` without an issued slot. -/
def execStallClock (s : State) : Out := .next (chargeGroup s s.ev.core s.ev.unit s.ev.value)

/-- YIELD_TIMEOUT: quad `len` of group `unit` is no longer held by its yield once 64 clocks have passed. -/
def execYieldTimeout (s : State) : Out :=
  let e := s.ev
  let g := getGroup s e.core e.unit
  let q := getQuad g e.len
  .next (if hasKey g.quads e.len && decide (q.yieldUntil ≤ s.clock) then
      setGroup s e.core e.unit (setQuad g e.len { q with yieldUntil := 0 })
    else s)

end Sys2Proof.Machine
end

