-- ==== Sys2Proof/Machine/Debug.lean ====
section
/-!
DEFINITION. Debug stops (spec/17 R368, R369), the debugger's commands (R366), the trace ring (R374) and the time-out of an
order gate (R377).
-/

namespace Sys2Proof.Machine

/-! ### Debug stops (R368, R369) -/

/-- The record of a debug stop: it goes to the trace and debug stop of the group's die. -/
def stopRecord (s : State) (c slot i count code number : Nat) (bytes : List Byte) : State :=
  let g := getGroup s c slot
  let o := groupOrigin s c slot i (oldestPc s c slot) count
  let detail := (upTo (bytes.length / 4)).map (fun k => wordOf (leNat ((bytes.drop (4 * k)).take 4)))
  let words := recordWords o { cls := 2, code := code, number := number, detail := detail } false
  let k := getDie s (dieOf c)
  let s := setDie s (dieOf c) { k with dbg := { k.dbg with stops := k.dbg.stops ++ [⟨c, slot, words⟩] } }
  traceWords s (dieOf c) [wordOf (2 * 2 ^ 28 + c * 2 ^ 16 + slot), g.wg, (nthRegion g i).serial, wordOf count, wordOf s.clock,
    wordOf (s.clock / 2 ^ 32), oldestPc s c slot, wordOf code]

/-- The group stands stopped after `count` slots of region `i`; later regions have aborted. -/
def parkStopped (s : State) (c slot i count code number : Nat) (bytes : List Byte) : State :=
  let s := stopRecord s c slot i count code number bytes
  let g := getGroup s c slot
  setGroup s c slot { g with stats := { g.stats with
    stopped := true, stopCode := code, stopAll := false, stopS := (nthRegion g i).serial, stopN := count, stopNum := number, limit := none } }

/-- The group waits for a record of its own, so its region has aborted already. -/
def onTrapRecord (g : Group) : Bool := g.quads.any (fun q => match q.2.park with | .trap _ | .trapQueue _ => true | _ => false)

/-- Stop a group at the start of its current region (HALT and ALLSTOP, code 0x06). -/
def haltGroup (s : State) (c slot : Nat) : State :=
  let g := getGroup s c slot
  let last := g.regions.length - 1
  let s := if onTrapRecord g then s else abortRegions s c slot last
  parkStopped s c slot last 0 6 0 []

/-- A group that a halt may stop: debug-enabled, resident and not stopped. -/
def haltable (s : State) (c slot : Nat) : Bool :=
  let g := getGroup s c slot
  slot != Config.laneSlot && g.resident && !g.stats.stopped && debugEnabled s c slot

/-- Halt every group of some that may be halted; `all` marks a stop by ALLSTOP. -/
def haltGroups (all : Bool) (gs : List (Nat × Nat)) (s : State) : State :=
  gs.foldl (fun s x =>
    if !haltable s x.1 x.2 then s
    else
      let s := haltGroup s x.1 x.2
      let g := getGroup s x.1 x.2
      setGroup s x.1 x.2 { g with stats := { g.stats with stopAll := all } }) s

/-- Every resident group of the module, by core and slot. -/
def allGroups (s : State) : List (Nat × Nat) := s.cores.flatMap (fun c => (residents c.2).map (fun g => (c.1, g.1)))

/-- With ALLSTOP, the stop of one group stops every group of its launch. -/
def stopLaunch (s : State) (c slot : Nat) : State :=
  if (getDie s (dieOf c)).dbg.ctl.getLsbD 3 then
    let l := (getGroup s c slot).launch
    haltGroups true ((allGroups s).filter (fun x => (getGroup s x.1 x.2).launch == l && x != (c, slot))) s
  else s

/-- DEBUG_STOP of group `unit`: `value` the code, `extra` the count N, `obj` the number, `bytes` the detail; `off` 1 names the
first uncommitted region, 0 the current one. Without `flag` the region aborts and executes again up to N; with it, the group
stands there; one restored by grest stands where it was stopped, with no second record. Where no debugger may stop the group, stops 0x07 and 0x08 end its launch (R368). -/
def execDebugStop (s : State) : Out :=
  let e := s.ev
  let c := e.core
  let g := getGroup s c e.unit
  let i := if e.off = 1 then 0 else g.regions.length - 1
  .next (if e.unit = Config.laneSlot || !g.resident || (g.stats.stopped && g.stats.limit.isNone) || decide (8 < e.value) || decide (e.value = 0) then s
    else if !debugEnabled s c e.unit then
      if e.value = 7 || e.value = 8 then
        pushDue (stopRecord s c e.unit i e.extra e.value e.obj e.bytes) [dueAbort (getLaunch s g.launch).bundle 0x08 0]
      else s
    else if e.flag then
      let s := if e.off = 1 then abortRegions s c e.unit 1 else s
      if g.stats.stopped then
        let h := getGroup s c e.unit
        setGroup s c e.unit { h with stats := { h.stats with limit := none } }
      else stopLaunch (parkStopped s c e.unit i e.extra e.value e.obj e.bytes) c e.unit
    else if e.extra = 0 then
      stopLaunch (parkStopped (abortRegions s c e.unit i) c e.unit i 0 e.value e.obj e.bytes) c e.unit
    else beginStop s c e.unit i e.extra e.value e.obj)

/-- ORDER_GATE_TIMEOUT of group `unit`: the held operation is withdrawn, and stop 0x08 lands before the instruction that issued
it, `extra` slots into its region (R377). -/
def execOrderGateTimeout (s : State) : Out :=
  let e := s.ev
  let g := getGroup s e.core e.unit
  .next (if !g.resident || replayMode (getLaunch s g.launch) ≠ 2 then s
    else
      let s := setGroup s e.core e.unit { g with stats := { g.stats with gate := none } }
      pushDue s [⟨.debugStop, { core := e.core, unit := e.unit, value := 8, extra := e.extra, off := e.off }⟩])

/-! ### The debugger's commands (R366, R369) -/

/-- Groups of a die. -/
def dieGroups (s : State) (d : Nat) : List (Nat × Nat) := (allGroups s).filter (fun x => dieOf x.1 == d)

/-- DBGCTL_HALT: every debug-enabled group of the die stops, with ALLSTOP every other group of their launches too. -/
def execDbgctlHalt (s : State) : Out :=
  let gs := (dieGroups s s.ev.die).filter (fun x => haltable s x.1 x.2)
  .next (gs.foldl (fun t x => stopLaunch t x.1 x.2) (haltGroups false gs s))

/-- Stopped groups of a die that DBGTGT names (R365). -/
def targets (s : State) (d : Nat) : List (Nat × Nat) :=
  (dieGroups s d).filter (fun x => (getGroup s x.1 x.2).stats.stopped && (getGroup s x.1 x.2).wg == (getDie s d).dbg.tgt)

/-- The stop of a group lies at the end of its first uncommitted region. -/
def stoppedAtEnd (g : Group) : Bool :=
  match g.regions with
  | r :: _ => r.ended && r.serial == g.stats.stopS
  | [] => false

/-- A stopped group goes on, up to a limit if one is given (code 0x05). -/
def resumeStopped (s : State) (c slot : Nat) (limit : Option Nat) : State :=
  let g := getGroup s c slot
  let atEnd := stoppedAtEnd g
  let s := setGroup s c slot { g with stats := { g.stats with
    stopped := false, stopAll := false, stopCode := 5, stopNum := 0, limit := if atEnd then none else limit, skipBreak := true } }
  if atEnd then pushDue s [⟨.regionCommit, { core := c, unit := slot, extra := if g.stats.stopCode = 7 then 7 else 0 }⟩] else s

/-- DBGCMD_RESUME: the target groups go on from slot N + 1. -/
def execDbgcmdResume (s : State) : Out :=
  .next ((targets s s.ev.die).foldl (fun s x => resumeStopped s x.1 x.2 none) s)

/-- DBGCMD_RUN_TO_LIMIT: the target groups go on to slot `value` of their region; a limit of N or less is ignored. -/
def execDbgcmdRunToLimit (s : State) : Out :=
  let n := s.ev.value % 2 ^ 24
  .next ((targets s s.ev.die).foldl (fun s x =>
    if n ≤ (getGroup s x.1 x.2).stats.stopN then s else resumeStopped s x.1 x.2 (some n)) s)

/-- DBGCMD_END_LAUNCH: the launches of the target groups end with failure. -/
def execDbgcmdEndLaunch (s : State) : Out :=
  let bs := ((targets s s.ev.die).map (fun x => (getLaunch s (getGroup s x.1 x.2).launch).bundle)).eraseDups
  .next (pushDue s (bs.map (fun b => dueAbort b 0x08 0)))

/-! ### The trace ring (R374) -/

/-- TRSIZE_WRITE: the ring size of the die; TRHEAD restarts. -/
def execTrsizeWrite (s : State) : Out :=
  let k := getDie s s.ev.die
  .next (setDie s s.ev.die { k with dbg := { k.dbg with trsize := wordOf s.ev.value &&& 0x1F, trhead := 0 } })

/-- TRTAIL_WRITE: the debugger has consumed records up to `value`. -/
def execTrtailWrite (s : State) : Out :=
  let k := getDie s s.ev.die
  .next (setDie s s.ev.die { k with dbg := { k.dbg with trtail := wordOf s.ev.value } })

/-- The group that a core samples next: ascending group id, round robin. -/
def nextSample (s : State) (c : Nat) : Option Nat :=
  let gs := (residents (getCore s c)).map (·.1)
  let from_ := lookup (getDie s (dieOf c)).dbg.sample c 0
  match gs.find? (fun g => decide (from_ ≤ g)) with
  | some g => some g
  | none => gs.head?

/-- PC_SAMPLE: a core's sample of one group, with the reason that the clock just past has charged to it, 0 where it issued. -/
def execPcSample (s : State) : Out :=
  let c := s.ev.core
  .next (match nextSample s c with
    | none => s
    | some g =>
      let s := traceGroup s c g 3 (getGroup s c g).stats.charged
      let k := getDie s (dieOf c)
      setDie s (dieOf c) { k with dbg := { k.dbg with sample := insertKey k.dbg.sample c (g + 1) } })

end Sys2Proof.Machine
end

