-- ==== Sys2Proof/Machine/Launch.lean ====
section
/-!
DEFINITION. Command queues as the firmware core reads them (spec/18 R381 to R387, R440): headers and rings, capability and
signal fields, signal words; and the validation of LAUNCH packets (R390, Table 18-5).
-/

namespace Sys2Proof.Machine

/-! ### Queues (R381, R382) -/

/-- The core whose supervisor lane serves a die's firmware core, and whose partition it works in (R388). -/
def fwCore (d : Nat) : Nat := 40 * d + 34
def fwPart (s : State) (d : Nat) : Nat := (getCore s (fwCore d)).part

/-- The entry of the queue object mapped to a lane of a die; none for a lane that serves nothing. -/
def mappedQueue (s : State) (d i : Nat) : Option Desc :=
  let x := getFw (getDie s d) i
  let p := fwPart s d
  if !x.cfg.getLsbD 4 then none
  else match readEntry s p x.qid.toNat with
    | none => none
    | some e => if e.kind = 3 && queueHome s p e.id == (d, i) then some e else none

/-- A mapped queue: where it is, LOGLEN, and the positions. -/
structure Ring where
  die  : Nat
  lane : Nat
  area : Area
  log  : Nat
  tail : Nat
  head : Nat
deriving DecidableEq, Repr

/-- The ring of a lane of a die. -/
def ringOf (s : State) (d i : Nat) : Option Ring :=
  (mappedQueue s d i).map (fun e =>
    let a : Area := ⟨fwPart s d, e, 0⟩
    ⟨d, i, a, areaNat s a 0xC 4 % 32, areaNat s a 4 4, areaNat s a 8 4⟩)

/-- LOGLEN lies in 8 to 24. -/
def Ring.valid (r : Ring) : Bool := decide (8 ≤ r.log) && decide (r.log ≤ 24)

/-- Published bytes from a position to TAIL. -/
def Ring.avail (r : Ring) (pos : Nat) : Nat := (r.tail + 2 ^ 32 - pos) % 2 ^ 32

/-- Object offset of word `k` of the packet at a position. -/
def Ring.at (r : Ring) (pos k : Nat) : Nat := 0x40 + (pos + 4 * k) % 2 ^ r.log

/-- Word `k` of the packet at a position. -/
def Ring.word (s : State) (r : Ring) (pos k : Nat) : Nat := areaNat s r.area (r.at pos k) 4

/-- A packet of a ring: its position and its words. -/
structure Packet where
  ring  : Ring
  pos   : Nat
  words : List Nat
deriving DecidableEq, Repr

/-- Bytes a packet of some words takes in the ring. -/
def spaceOf (len : Nat) : Nat := Nat.max 16 (roundUp (4 * len) 16)

/-- The packet header at a position is malformed (R384): LEN 0 or past TAIL, reserved bits, M of a PAD. -/
def headBad (r : Ring) (pos h : Nat) : Bool :=
  headLen h == 0 || h / 2 ^ 16 % 8 != 0 || decide (r.avail pos < spaceOf (headLen h)) || (headType h == 0 && h.testBit 19)

/-- Type of a packet or field: [31:20]; M: bit 19. -/
def packetType (h : Nat) : Nat := h / 2 ^ 20

/-- Where the next packet begins: TAIL when the length passes it (R385). -/
def afterPacket (r : Ring) (pos h : Nat) : Nat :=
  if r.avail pos < spaceOf (headLen h) then r.tail else (pos + spaceOf (headLen h)) % 2 ^ 32

/-- The words of the packet at a position. -/
def readPacket (s : State) (r : Ring) (pos : Nat) : Packet :=
  ⟨r, pos, (upTo (headLen (Ring.word s r pos 0))).map (Ring.word s r pos)⟩

/-- Word `i` of a packet. -/
def Packet.w (p : Packet) (i : Nat) : Nat := p.words.getD i 0

/-! ### Header fields the firmware core writes -/

/-- Write a word of a queue header. -/
def putHeader (s : State) (r : Ring) (off v : Nat) : State := hwWrite s r.area.part r.area.desc.id off (leBytes 4 v)

/-- RJSTAT of a queue object ← status; RJCOUNT grows by `n`, saturating (R385). -/
def noteReject (s : State) (part obj status n : Nat) : State :=
  match hwRead s part obj 0x10 4 with
  | .error _ => s
  | .ok (bs, s) => hwWrite s part obj 0x10 (leBytes 4 (Nat.min (leNat bs / 256 + n) (2 ^ 24 - 1) * 256 + status))

/-- The same of the queue of a ring. -/
def Ring.reject (s : State) (r : Ring) (status n : Nat) : State := noteReject s r.area.part r.area.desc.id status n

/-- The lane goes on from a position: FWJRNL keeps the packet whose effect has performed, and HEAD follows when the step ends (R389). -/
def advanceHead (s : State) (r : Ring) (pos : Nat) : State :=
  let k := getDie s r.die
  let x := getFw k r.lane
  let x := { x with journal := wordOf r.head, waiting := false, copying := false, next := some pos }
  setDie s r.die { k with lanes := insertKey k.lanes r.lane x }

/-- HEAD of a lane's queue is written, if a packet of it is finished. -/
def writeHead (d : Nat) (s : State) (i : Nat) : State :=
  let x := getFw (getDie s d) i
  match x.next with
  | none => s
  | some pos =>
    let s := match ringOf s d i with | none => s | some r => putHeader s r 8 pos
    let k := getDie s d
    setDie s d { k with lanes := insertKey k.lanes i { getFw k i with next := none } }

/-- The end of a step: HEAD of every lane whose packet is finished (R389). -/
def writeHeads (s : State) (d : Nat) : State := (upTo 32).foldl (writeHead d) s

/-- A packet is finished. -/
def finishPacket (s : State) (p : Packet) : State := advanceHead s p.ring (afterPacket p.ring p.pos (p.w 0))

/-- The lane waits on its packet. -/
def setLane (s : State) (d i : Nat) (f : FwLane → FwLane) : State :=
  let k := getDie s d
  setDie s d { k with lanes := insertKey k.lanes i (f (getFw k i)) }

/-! ### Capability and signal fields (R386, R387, R440) -/

/-- The capability of the field at word `i`, with its tag and rights checked; `header` is what a field at a fixed position must
have as its header. -/
def fieldCap (s : State) (p : Packet) (i need : Nat) (header : Option Nat) : Except Nat Cap :=
  let ref := p.w (i + 1) % 2 ^ 24
  if i % 4 ≠ 0 || decide (p.words.length < i + 8) || (match header with | some h => p.w i != h | none => headLen (p.w i) != 8) then
    .error 0x02
  else
    let found : Except Nat Cap := match p.w (i + 1) / 2 ^ 30 with
      | 1 => .ok (areaCap s p.ring.area (p.ring.at p.pos (i + 4)))
      | 2 => if decide (0x40 ≤ 16 * ref) && decide (16 * ref < 0x40 + 2 ^ p.ring.log) then .error 0x03
          else .ok (areaCap s p.ring.area (16 * ref))
      | _ => .error 0x03
    match found with
    | .error e => .error e
    | .ok c => if c.tag && c.rights.toNat &&& need == need then .ok c else .error 0x05

/-- A signal field: R, W and A; its word is 8 bytes at a multiple of 8 inside the capability. -/
def signalField (s : State) (p : Packet) (i : Nat) (header : Option Nat) : Except Nat Signal :=
  match fieldCap s p i 0x0B header with
  | .error e => .error e
  | .ok c =>
    let off := p.w (i + 2)
    if off % 8 ≠ 0 || decide (capLen c < off + 8) then .error 0x03 else .ok ⟨c, off, wordOf (p.w (i + 3))⟩

/-- Read a signal word; an error when the access faults (R440), or meets a migrating page (R40). -/
def readSignal (s : State) (part : Nat) (g : Signal) : Except MemErr Nat := (hwLoad s part g.cap g.off 8).map (·.1)

/-- A firmware write of an object: an error when the entry is invalid, R22 refuses, or the access faults (R440). -/
def fwWrite (s : State) (part : Nat) (c : Cap) (off : Nat) (bs : List Byte) : Except MemErr State :=
  match readEntry s part c.obj.toNat with
  | none => .error (.cap 0x09)
  | some e =>
    if (e.kind == 1 && e.xe) || e.kind == 4 then .error (.cap 0x02) else writeObject s part none e (c.base.toNat + off) bs false

/-- STATUS and VALUE of a signal word. -/
def signalStatus (v : Nat) : Nat := v / 2 ^ 56
def signalValue (v : Nat) : Nat := v % 2 ^ 32

/-- A signal word with a new STATUS and VALUE; the reserved bits stay. -/
def signalWord (old status value : Nat) : Nat := status % 256 * 2 ^ 56 + old % 2 ^ 56 / 2 ^ 32 * 2 ^ 32 + value % 2 ^ 32

/-- Update a signal word by the firmware core of a die: an atomic with return at system scope, whose epoch step follows (R120, R387). -/
def updateSignal (s : State) (d part : Nat) (g : Signal) (f : Nat → Nat) : Except MemErr State :=
  match readSignal s part g with
  | .error e => .error e
  | .ok v => (fwWrite s part g.cap g.off (leBytes 8 (f v))).map (epochStep · d)

/-- A signal word's STATUS, its VALUE ← AUX1, or both. -/
def signalNew (g : Signal) (status : Option Nat) (value : Bool) (v : Nat) : Nat :=
  signalWord v (status.getD (signalStatus v)) (if value then g.value.toNat else signalValue v)

/-- Write a signal for a queue's packet or launch. A write that faults is not made and counts as a rejection; one that meets a migrating page
is made when the page is mapped again (R40, R440). -/
def putSignal (s : State) (d part queue : Nat) (g : Signal) (status : Option Nat) (value : Bool) : State :=
  match updateSignal s d part g (signalNew g status value) with
  | .ok t => t
  | .error (.migrating ..) =>
    let put := fun (s : State) (o n v : Nat) => hwWrite s part g.cap.obj.toNat (g.cap.base.toNat + g.off + o) (leBytes n v)
    let s := if value then put s 0 4 g.value.toNat else s
    match status with | some x => put s 7 1 x | none => s
  | .error _ => noteReject s part queue 0x03 1

/-- A WAIT or a DEPEND is satisfied: VALUE has reached the target, or STATUS is not 0 (R388). -/
def signalMet (g : Signal) (v : Nat) : Bool := decide (g.value.toNat ≤ signalValue v) || signalStatus v != 0

/-! ### LAUNCH fields (Table 18-5) -/

/-- A field of a packet: its word, type, M and LEN. -/
structure PField where
  idx : Nat
  typ : Nat
  m   : Bool
  len : Nat
deriving DecidableEq, Repr

/-- The fields of a LAUNCH from word `i` on; none when one is malformed (R384). -/
def fieldsFrom (p : Packet) : Nat → Nat → Option (List PField)
  | 0, _ => some []
  | fuel + 1, i =>
    if p.words.length ≤ i then some []
    else
      let h := p.w i
      if headLen h = 0 || decide (p.words.length < i + headLen h) || h / 2 ^ 16 % 8 ≠ 0 then none
      else (fieldsFrom p fuel (i + headLen h)).map (fun r => ⟨i, packetType h, h.testBit 19, headLen h⟩ :: r)

def fieldsOf (p : Packet) : Option (List PField) := fieldsFrom p p.words.length 1

/-- The smallest LEN of a field type, its body whole. -/
def minLen (t : Nat) : Nat :=
  match t with
  | 0x102 => 4 | 0x103 => 5 | 0x104 => 3 | 0x105 => 2 | 0x106 => 3 | 0x107 => 2 | 0x108 => 2 | 0x109 => 24 | 0x10A => 2
  | 0x10C => 1 | 0x10E => 2 | 0x10F => 2 | 0x113 => 2 | _ => 8

def knownField (t : Nat) : Bool := decide (0x101 ≤ t) && decide (t ≤ 0x116)

/-- Field types that may appear more than once. -/
def manyField (t : Nat) : Bool := t == 0x102 || t == 0x106 || t == 0x10B || t == 0x114

/-- The first failing field: PAD with M, an unknown mandatory field, a repetition, a short body. -/
def fieldErrors : List PField → List Nat → Option Nat
  | [], _ => none
  | f :: r, seen =>
    if f.typ = 0 then (if f.m then some 0x02 else fieldErrors r seen)
    else if !knownField f.typ then (if f.m then some 0x01 else fieldErrors r seen)
    else if seen.contains f.typ && !manyField f.typ then some 0x03
    else if f.len < minLen f.typ then some 0x02
    else fieldErrors r (f.typ :: seen)

/-- A LAUNCH packet is malformed under R384: no DONE of it is written (R385). -/
def launchMalformed (p : Packet) : Bool :=
  match fieldsOf p with
  | none => true
  | some fs => fieldErrors fs [] == some 0x02

/-- Words of the fields of a type, by index in the packet. -/
def ofType (fs : List PField) (t : Nat) : List Nat := (fs.filter (fun f => f.typ == t)).map (·.idx)

/-- Word `k` of the field of a type; `d` where it is absent. -/
def fieldWord (p : Packet) (fs : List PField) (t k d : Nat) : Nat :=
  match ofType fs t with | i :: _ => p.w (i + k) | [] => d

/-- Map with the first error. -/
def collect {α β : Type} (f : α → Except Nat β) : List α → Except Nat (List β)
  | [] => .ok []
  | x :: xs => match f x with
    | .error e => .error e
    | .ok y => match collect f xs with | .error e => .error e | .ok ys => .ok (y :: ys)

/-- The capability fields of a type with AUX0. -/
def capsOf (s : State) (p : Packet) (fs : List PField) (t need : Nat) : Except Nat (List (Cap × Nat)) :=
  collect (fun i => match fieldCap s p i need none with | .error e => .error e | .ok c => .ok (c, p.w (i + 2))) (ofType fs t)

def signalsOf (s : State) (p : Packet) (fs : List PField) (t : Nat) : Except Nat (List Signal) :=
  collect (fun i => signalField s p i none) (ofType fs t)

/-- A role of a ROLE field (Table 6-1): its number and declaration; none when out of range. -/
def roleOf (p : Packet) (queues : FMap (Nat × Nat)) (i : Nat) : Option (Nat × Role) :=
  let b := p.w (i + 2)
  let c := p.w (i + 3)
  let quads := b / 2 ^ 24 % 16
  let mx := b / 2 ^ 16 % 128
  let mn := b / 2 ^ 8 % 128
  let peak := b % 256
  let inq := c % 8
  let outq := c / 16 % 8
  let queue := fun (q : Nat) => q == 4 || hasKey queues q
  if decide (1 ≤ quads) && decide (quads ≤ 8) && decide (1 ≤ peak) && decide (peak ≤ 252) && decide (mn ≤ mx) && decide (mx ≤ 64)
      && decide (inq ≤ 4) && decide (outq ≤ 4) && (inq != outq || inq == 4) && (inq != 4 || mn != 0) && queue inq && queue outq
      && c / 128 == 0 && !c.testBit 3 then
    some (b / 2 ^ 28 % 4, ⟨wordOf (p.w (i + 1)), quads, mx, mn, peak, if inq = 4 then none else some inq, if outq = 4 then none else some outq⟩)
  else none

/-- The entry of a role, its course and its slot, lies inside the code object (Table 6-1). -/
def entryInside (s : State) (part : Nat) (code : Cap) (r : Role) : Bool :=
  let stop := r.entry.toNat / 4 * 4 + 16
  fieldNat r.entry 2 2 == 0 && decide (stop ≤ capLen code)
    && (match readEntry s part code.obj.toNat with | some e => decide (code.base.toNat + stop ≤ e.length) | none => true)

/-- The roles are in range together: one to four, each its own number, each queue the input and output of one at most, at most
64 minimum groups (R138). -/
def rolesValid (rs : List (Nat × Role)) : Bool :=
  let ins := rs.filterMap (·.2.inq)
  let outs := rs.filterMap (·.2.outq)
  decide (1 ≤ rs.length) && decide (rs.length ≤ 4) && (rs.map (·.1)).eraseDups.length == rs.length
    && ins.eraseDups.length == ins.length && outs.eraseDups.length == outs.length
    && decide (rs.foldl (fun n r => n + r.2.min) 0 ≤ 64)

/-- A stage queue of a STAGEQ field: number, depth, offset; none when out of range (R139, R390). -/
def stageOf (p : Packet) (scratch i : Nat) : Option (Nat × (Nat × Nat)) :=
  let a := p.w (i + 1)
  let depth := a / 256 % 128
  let off := p.w (i + 2)
  if decide (1 ≤ depth) && decide (depth ≤ 64) && off % 4 == 0 && decide (off + 4 * depth ≤ scratch) then some (a % 4, (depth, off))
  else none

/-- Every element, where none is missing. -/
def allSome {α : Type} : List (Option α) → Option (List α)
  | [] => some []
  | none :: _ => none
  | some x :: r => (allSome r).map (x :: ·)

/-- A map of pairs with distinct keys; none where a key repeats. -/
def distinctMap {α : Type} (l : List (Nat × α)) : Option (FMap α) :=
  if (l.map (·.1)).eraseDups.length = l.length then some (l.foldl (fun m e => insertKey m e.1 e.2) []) else none

/-- The truss of a TRUSS field (R328): limits of the declaration, then the coverage object's entry and capability. -/
def trussOf (s : State) (p : Packet) (i : Nat) : Except Nat Truss :=
  match fieldCap s p (i + 16) 0x03 (some 0x10980008) with
  | .error e => .error e
  | .ok c =>
    let nd := p.w (i + 1) % 8
    let es := (upTo 4).map (fun d => p.w (i + 2 + d))
    let gs := (upTo 4).map (fun d => p.w (i + 6 + d))
    let inside := fun (l : List Nat) => (l.take nd).all (fun x => decide (1 ≤ x) && decide (x ≤ 2 ^ 24))
    let regs := (upTo 4).map (fun k => wordOf (p.w (i + 10 + k)) &&& trussMask k)
    let t : Truss := ⟨nd, es, gs, c, regs.getD 0 0, regs.getD 1 0, regs.getD 2 0, regs.getD 3 0, 1, false⟩
    if nd = 0 || decide (4 < nd) || !inside es || !inside gs || !trussValid regs || decide (2 ^ 24 < grainCount t) then .error 0x03
    else match readEntry s p.ring.area.part c.obj.toNat with
      | none => .error 0x03
      | some e =>
        let need := 4 * ((grainCount t + 15) / 16)
        if e.kind ≠ 4 || decide (e.length < need) || decide (capLen c < need) || c.base.toNat % 4 ≠ 0 then .error 0x03 else .ok t

/-- The split, the grid and the counts of a LAUNCH are inside the limits of R50, R139, R145, R313 and R390. -/
def launchValid (p : Packet) (fs : List PField) : Bool :=
  let v := fieldWord p fs
  let f := v 0x10E 1 0
  let mode := f / 32 % 4
  let dims := [v 0x103 1 0, v 0x103 2 0, v 0x103 3 0]
  let g := v 0x103 4 0
  splitValid (wordOf (v 0x104 1 0)) && decide (v 0x104 2 0 ≤ v 0x104 1 0 / 2 ^ 10 % 32 * 65536)
    && dims.all (fun x => decide (1 ≤ x) && decide (x ≤ 2 ^ 16)) && decide (1 ≤ g / 16 % 8) && decide (g / 16 % 8 ≤ 5) && decide (1 ≤ g % 4)
    && decide (v 0x105 1 0 / 256 % 512 ≤ 256) && decide (v 0x105 1 0 % 32 ≤ 16)
    && decide (v 0x107 1 0 / 16 % 16 ≤ 8) && v 0x113 1 0 / 2 == 0 && mode != 3
    && (mode == 0 || (!(ofType fs 0x110).isEmpty && !(ofType fs 0x111).isEmpty && decide (dims.foldl (fun n x => n * x) 1 ≤ 2 ^ 26)))
    && (!f.testBit 4 || !(ofType fs 0x10F).isEmpty)
    && ((ofType fs 0x10F).isEmpty || (decide (1 ≤ v 0x10F 1 0) && decide (v 0x10F 1 0 ≤ 2 ^ 20)))
    && decide ((ofType fs 0x114).length ≤ 8)
    && (ofType fs 0x10C).all (fun i => decide (headLen (p.w i) ≤ 17))

/-- The arguments k8 to k15 of ARGCAP fields. -/
def argsOf (l : List (Cap × Nat)) : Option (FMap Cap) :=
  if l.all (fun a => decide (8 ≤ a.2) && decide (a.2 ≤ 15)) then distinctMap (l.map (fun a => (a.2, a.1))) else none

/-- The capability fields of a LAUNCH: those of each type, in the table's order. -/
structure LaunchCaps where
  code   : List (Cap × Nat)
  args   : List (Cap × Nat)
  record : List (Cap × Nat)
  replay : List (Cap × Nat)
  hashes : List (Cap × Nat)
  save   : List (Cap × Nat)
  depend : List Signal
  trig   : List Signal
  done   : List Signal
  truss  : List Truss
deriving DecidableEq, Repr

def launchFieldCaps (s : State) (p : Packet) (fs : List PField) : Except Nat LaunchCaps :=
  match capsOf s p fs 0x101 0x05, collect (trussOf s p) (ofType fs 0x109), capsOf s p fs 0x10B 0, capsOf s p fs 0x10D 0x0A,
      capsOf s p fs 0x110 0x03, capsOf s p fs 0x111 0, capsOf s p fs 0x112 0x83, signalsOf s p fs 0x114, signalsOf s p fs 0x115,
      signalsOf s p fs 0x116 with
  | .ok a, .ok t, .ok b, .ok c, .ok d, .ok e, .ok f, .ok g, .ok h, .ok i => .ok ⟨a, b, c, d, e, f, g, h, i, t⟩
  | .error e, _, _, _, _, _, _, _, _, _ => .error e
  | _, .error e, _, _, _, _, _, _, _, _ => .error e
  | _, _, .error e, _, _, _, _, _, _, _ => .error e
  | _, _, _, .error e, _, _, _, _, _, _ => .error e
  | _, _, _, _, .error e, _, _, _, _, _ => .error e
  | _, _, _, _, _, .error e, _, _, _, _ => .error e
  | _, _, _, _, _, _, .error e, _, _, _ => .error e
  | _, _, _, _, _, _, _, .error e, _, _ => .error e
  | _, _, _, _, _, _, _, _, .error e, _ => .error e
  | _, _, _, _, _, _, _, _, _, .error e => .error e

/-- FLAGS with PRIO clamped to the queue's PRIO. -/
def clampPrio (flags prio : Nat) : Word := wordOf (flags / 8 * 8 + Nat.min (flags % 8) prio)

/-- A LAUNCH packet, validated: the launch but for its id, its bundle and its tuner's target, and the bundle index that TUNER
names; or the status of its rejection. -/
def parseLaunch (s : State) (p : Packet) : Except Nat (Launch × Option Nat) :=
  match fieldsOf p with
  | none => .error 0x02
  | some fs =>
    match fieldErrors fs [] with
    | some e => .error e
    | none =>
      let v := fieldWord p fs
      if [0x101, 0x102, 0x103, 0x104].any (fun t => (ofType fs t).isEmpty) then .error 0x03
      else match launchFieldCaps s p fs with
        | .error e => .error e
        | .ok k =>
          let scratch := v 0x104 2 0
          let flags := v 0x10E 1 0
          let cfg := (getFw (getDie s p.ring.die) p.ring.lane).cfg
          let queues := (allSome ((ofType fs 0x106).map (stageOf p scratch))).bind distinctMap
          match queues with
          | none => .error 0x03
          | some qs =>
            match allSome ((ofType fs 0x102).map (roleOf p qs)), argsOf k.args with
            | some rs, some args =>
              if !launchValid p fs || !rolesValid rs
                  || !rs.all (fun r => entryInside s p.ring.area.part (k.code.headD (Cap.null, 0)).1 r.2) then .error 0x03
              else if rs.any (fun r => decide (r.2.min < r.2.max)) && k.save.isEmpty then .error 0x03
              else if k.save.any (fun x => x.2 % 4096 != 0) then .error 0x03
              else if flags.testBit 3 && !cfg.getLsbD 3 then .error 0x05
              else
                let g := v 0x103 4 0
                .ok ({ Launch.empty with
                  lane := p.ring.lane, die := p.ring.die, part := p.ring.area.part, queue := p.ring.area.desc.id
                  code := (k.code.headD (Cap.null, 0)).1
                  roles := rs.foldl (fun m r => insertKey m r.1 r.2) []
                  gridX := v 0x103 1 1, gridY := v 0x103 2 1, gridZ := v 0x103 3 1, dieMask := g / 256 % 256
                  spCols := g / 16 % 8, spRows := g % 4
                  split := wordOf (v 0x104 1 0) &&& 0x7FFF, scratch := scratch
                  receives := v 0x105 1 0 / 256 % 512, barriers := v 0x105 1 0 % 32
                  queues := qs, nz := v 0x107 1 0 / 16 % 16, reedLen := 128 * 2 ^ (v 0x107 1 0 % 4), matrix := v 0x108 1 0 % 8
                  truss := k.truss.head?, args := args
                  words := (ofType fs 0x10C).flatMap (fun i => (upTo (headLen (p.w i) - 1)).map (fun j => wordOf (p.w (i + 1 + j))))
                  record := (k.record.head?).map (·.1), flags := clampPrio flags (fieldNat cfg 0 3)
                  fredlog := v 0x10F 1 0, replay := (k.replay.head?).map (·.1), hasharea := k.hashes.head?
                  save := k.save.head?, depends := k.depend, trigger := k.trig.head?, done := k.done.head? },
                  (ofType fs 0x10A).head?.map (fun i => p.w (i + 1) % 4))
            | _, _ => .error 0x03

/-- NEXT of a LAUNCH packet. -/
def launchNext (p : Packet) : Bool :=
  match fieldsOf p with | some fs => fieldWord p fs 0x113 1 0 % 2 == 1 | none => false

/-- The DONE signal that a rejected LAUNCH carries, if it can be told (R391). -/
def launchDone (s : State) (p : Packet) : Option Signal :=
  if launchMalformed p then none
  else match fieldsOf p with
    | none => none
    | some fs => match (ofType fs 0x116).head? with
      | none => none
      | some i => match signalField s p i none with | .ok g => some g | .error _ => none

end Sys2Proof.Machine
end

