-- ==== Sys2Proof/Machine/Place.lean ====
section
/-!
DEFINITION. Bundles (spec/18 R391 to R393, spec/06 R144): where teams go, the placement of a bundle's first and later waves
(BUNDLE_PLACEMENT, LATER_WAVE_ADMISSION, PLACEMENT_BLOCK_TIMEOUT), TRIGGER and DONE (TRIGGER_SIGNAL, BUNDLE_RETIRE), the abort
of a bundle (BUNDLE_ABORT), a stopped core (CORE_STOP, spec/16 R345), and the ordered-reduction logs of finished grids
(FRED_LOG_APPLY, FREDCTL_ABORT, FREDCTL_RESUME, spec/12 R278).
-/

namespace Sys2Proof.Machine

/-- Steps that occur before every other due step. -/
def dueFirst (s : State) (l : List Due) : State := { s with due := l ++ s.due }

/-! ### Where teams go (R392) -/

/-- The dies of a launch: the receiving die, then the others ascending, as DIEMASK permits. -/
def dieOrder (l : Launch) : List Nat :=
  (l.die :: (upTo Config.dies).filter (· != l.die)).filter (fun d => l.dieMask == 0 || l.dieMask.testBit d)

/-- The rectangles of a launch's span on its dies, the leader's local core rising: core and span position 8 × row + column. -/
def spansOf (l : Launch) : List (List (Nat × Nat)) :=
  let rows := Nat.max 1 l.spRows
  let cols := Nat.max 1 l.spCols
  (dieOrder l).flatMap (fun d => (upTo (9 - rows)).flatMap (fun r0 => (upTo (6 - cols)).map (fun c0 =>
    (upTo rows).flatMap (fun r => (upTo cols).map (fun c => (40 * d + 5 * (r0 + r) + c0 + c, 8 * r + c))))))

/-- Some idle permitted cores could admit one team, or span team, of the launch. -/
def launchPossible (s : State) (l : Launch) : Bool :=
  let cores := (getPart s l.part).cores
  decide (reservation l ≤ fieldNat l.split 0 5 * 4096) && decide (minGroups l ≤ Config.groupSlots)
    && (spansOf l).any (fun sp => sp.all (fun x => cores.contains x.1))

/-- Where the next team of a launch can be admitted now. -/
def spotOf (s : State) (l : Launch) : Option (List (Nat × Nat)) :=
  (spansOf l).find? (fun sp => sp.all (fun x => canAdmit s x.1 l (minGroups l)))

/-- The admissions of one team, or span team, and the state after them. -/
def teamSteps (s : State) (lid : Nat) (sp : List (Nat × Nat)) : List Due × State :=
  let tl := (getLaunch s lid).admitted
  let leader := (sp.headD (0, 0)).1
  (sp.map (fun x => ⟨.teamAdmission, { core := x.1, obj := lid, value := tl, len := x.2, off := leader }⟩),
   sp.foldl (fun s x => admitTeam s x.1 lid tl (x.2 / 8) (x.2 % 8) leader) s)

/-- One team more of a launch, if one is left and a place is. -/
def nextTeam (s : State) (lid : Nat) : Option (List Due × State) :=
  let l := getLaunch s lid
  if gridTeams l ≤ l.admitted then none else (spotOf s l).map (teamSteps s lid)

/-- Teams of a launch in ascending TL order, as many as can be admitted; `fuel` bounds their number. -/
def waveOf (lid : Nat) : Nat → State → List Due × State
  | 0, s => ([], s)
  | fuel + 1, s => match nextTeam s lid with
    | none => ([], s)
    | some (l, s) =>
      let r := waveOf lid fuel s
      (l ++ r.1, r.2)

/-- Waves of several launches, one after the other. -/
def wavesOf (s : State) : List Nat → List Due × State
  | [] => ([], s)
  | lid :: r =>
    let a := waveOf lid (Nat.min (gridTeams (getLaunch s lid)) 20480) s
    let b := wavesOf a.2 r
    (a.1 ++ b.1, b.2)

/-- One team of every launch; none where some launch finds no place. -/
def firstTeams (s : State) : List Nat → Option (List Due × State)
  | [] => some ([], s)
  | lid :: r => match nextTeam s lid with
    | none => none
    | some (l, s) => (firstTeams s r).map (fun x => (l ++ x.1, x.2))

/-- Bundles of a die that are not placed, or that are, in the order of R392. -/
def bundlesOf (s : State) (d : Nat) (placed : Bool) : List (Nat × Bundle) :=
  let prio := fun (b : Bundle) => b.launches.foldl (fun n i => Nat.max n (fieldNat (getLaunch s i).flags 0 3)) 0
  let key := fun (b : Nat × Bundle) => [if placed then 0 else 7 - prio b.2, b.2.age, b.2.lane]
  sortBy (fun x y => decide (key x ≤ key y)) (s.bundles.filter (fun b => b.2.die == d && b.2.placed == placed && !b.2.retired))

/-- LATER_WAVE_ADMISSION: teams of the placed bundles of a die that are not yet admitted (R392). -/
def execLaterWaveAdmission (s : State) : Out :=
  .next (dueFirst s (wavesOf s ((bundlesOf s s.ev.die true).flatMap (·.2.launches))).1)

/-- The DEPEND signals of a bundle: whether all are met; none when the access of one faults. One on a migrating page is not met yet. -/
def dependsMet (s : State) (b : Bundle) : Option Bool :=
  (allSome (b.launches.flatMap (fun i =>
    let l := getLaunch s i
    l.depends.map (fun g => match readSignal s l.part g with
      | .ok v => some (signalMet g v)
      | .error (.migrating ..) => some false
      | .error _ => none)))).map (·.all id)

/-- The queue object that a bundle came from, and its partition. -/
def bundleQueue (s : State) (b : Bundle) : Nat × Nat :=
  let l := getLaunch s (b.launches.headD 0)
  (l.part, l.queue)

/-- A bundle that has no DEPEND. -/
def noDepends (s : State) (b : Bundle) : Bool := b.launches.all (fun i => (getLaunch s i).depends.isEmpty)

/-- An acquire at system scope on every die: the groups of a bundle see what the signals before it stand for (R125). -/
def acquireAll (s : State) : State := (upTo Config.dies).foldl epochStep s

/-- Go through the unplaced bundles of a die in order: the first that can be placed is; a bundle that blocks stops the search. Each DEPEND
is read by an acquire at system scope (R387); one that is no longer met ends the time for which its bundle has been satisfied. -/
def placeFirst (s : State) : List (Nat × Bundle) → State
  | [] => s
  | (id, b) :: r =>
    let met := dependsMet s b
    let s := if noDepends s b then s else epochStep s b.die
    match met with
    | none => dueFirst (noteReject s (bundleQueue s b).1 (bundleQueue s b).2 0x03 1) [dueAbort id 0x03 0]
    | some false => placeFirst (if b.since.isNone && !b.blocking then s else setBundle s id { b with since := none, blocking := false }) r
    | some true =>
      match firstTeams s b.launches with
      | some (l, t) =>
        let w := wavesOf t b.launches
        dueFirst (setBundle (acquireAll s) id { b with placed := true }) (l ++ w.1 ++ [⟨.bundlePlacement, { die := b.die }⟩])
      | none =>
        let s := if b.since.isNone then setBundle s id { b with since := some s.clock } else s
        if b.blocking then s else placeFirst s r

/-- BUNDLE_PLACEMENT: the firmware core of a die places a bundle's first wave (R392). -/
def execBundlePlacement (s : State) : Out := .next (placeFirst s (bundlesOf s s.ev.die false))

/-- PLACEMENT_BLOCK_TIMEOUT of bundle `unit`: satisfied but unplaceable for 10 ms, it blocks later bundles (R392). -/
def execPlacementBlockTimeout (s : State) : Out :=
  let b := getBundle s s.ev.unit
  .next (match b.since with
    | some t => if t + 27000000 ≤ s.clock ∧ !b.placed ∧ !b.retired ∧ dependsMet s b = some true then setBundle s s.ev.unit { b with blocking := true } else s
    | none => s)

/-! ### Signals of a launch (R393, R440) -/

/-- Write a signal of a launch: its STATUS, its VALUE ← AUX1, or both. -/
def launchSignal (s : State) (l : Launch) (g : Option Signal) (status : Option Nat) (value : Bool) : State :=
  match g with
  | none => s
  | some x => putSignal s l.die l.part l.queue x status value

/-- TRIGGER_SIGNAL of launch `unit` (R160, R393). -/
def execTriggerSignal (s : State) : Out :=
  let lid := s.ev.unit
  let l := getLaunch s lid
  .next (if hasKey s.launches lid && l.trigger.isSome && !l.trigSent && gridTriggered s lid then
      launchSignal (setLaunch s lid { l with trigSent := true }) l l.trigger none true
    else s)

/-- A launch ends with a status: the bundle keeps the first one that is not 0. -/
def recordStatus (s : State) (lid status : Nat) : State :=
  let l := getLaunch s lid
  let b := getBundle s l.bundle
  let s := if l.status = 0 then setLaunch s lid { l with status := status } else s
  if b.status = 0 then setBundle s l.bundle { b with status := status } else s

/-- The slices that were part of a launch: those of its dies, every one where DIEMASK is 0, and any that logged an operation of it (R426). -/
def logUnits (s : State) (lid : Nat) : List Nat :=
  (upTo 128).filter (fun u => (getLaunch s lid).dieMask == 0 || (getLaunch s lid).dieMask.testBit (u / 16) || hasKey (getSlice s (u / 16) (u % 16)).logs lid)

/-- Close a launch's replay log at every slice: the last run and the header are written, and an overflow is a status (R376, R426). -/
def closeLogs (s : State) (lid : Nat) : State :=
  let units := logUnits s lid
  let s := if replayMode (getLaunch s lid) = 1 then units.foldl (fun s u => writeLogHeader (writeChunk s u lid) u lid) s else s
  let s := if units.any (fun u => (getLog s u lid).overflow) then recordStatus s lid 0x09 else s
  units.foldl (fun s u =>
    let z := getSlice s (u / 16) (u % 16)
    if hasKey z.logs lid then setSlice s (u / 16) (u % 16) { z with logs := eraseKey z.logs lid } else s) s

/-- A bundle is over: its launches are forgotten, and it keeps its status. -/
def forgetBundle (s : State) (id : Nat) (aborted : Bool) : State :=
  let b := getBundle s id
  let reason := b.launches.foldl (fun r i => if r = 0 then (getLaunch s i).reason else r) 0
  let s := { s with launches := s.launches.filter (fun e => !b.launches.contains e.1) }
  let s := { s with dies := s.dies.map (fun e =>
    if b.launches.contains e.2.fredLid then (e.1, { e.2 with fredState := 0, fredLid := 0, fredLeft := 0 }) else e) }
  setBundle s id { b with retired := true, aborted := aborted, reason := reason }

/-- Write the DONE of every launch of a bundle with the bundle's status. -/
def writeDones (s : State) (id : Nat) : State :=
  let b := getBundle s id
  b.launches.foldl (fun s i => launchSignal s (getLaunch s i) (getLaunch s i).done (some b.status) true) s

/-- BUNDLE_RETIRE of bundle `unit`: every grid is complete, and every DONE is written with the bundle's status (R393). -/
def execBundleRetire (s : State) : Out :=
  let id := s.ev.unit
  let b := getBundle s id
  .next (if !hasKey s.bundles id || b.retired || !b.placed || !b.launches.all (fun i => gridComplete s (getLaunch s i)) then s
    else forgetBundle (writeDones (b.launches.foldl closeLogs s) id) id false)

/-! ### The abort of a bundle (R144) -/

/-- Group slots of a core that run launches of a bundle. -/
def bundleSlots (s : State) (c : Nat) (ls : List Nat) : List Nat :=
  ((residents (getCore s c)).filter (fun g => ls.contains g.2.launch)).map (·.1)

/-- Teams of a core that belong to launches of a bundle. -/
def bundleTeams (s : State) (c : Nat) (ls : List Nat) : List Nat :=
  ((getCore s c).teams.filter (fun t => ls.contains t.2.launch)).map (·.1)

/-- Records of some groups are resolved as by action 1, and freed (R355). -/
def freeGroupRecords (s : State) (c : Nat) (slots : List Nat) : State :=
  let hs := ((getCore s c).records.filter (fun e => e.2.src == 0 && slots.contains e.2.slot && e.2.state != .free)).map (·.1)
  hs.foldl (fun s h => freeRec s c h) s

/-- The sequencer leaves a held operation whose group has ended (R312). -/
def releaseSequencer (s : State) (c : Nat) (slots : List Nat) : State :=
  let k := getCore s c
  if k.mseqHeld && slots.contains k.mseqGroup then
    pushDue (setCore s c { k with mseqHeld := false })
      ((k.teams.filter (fun t => !t.2.ops.isEmpty)).map (fun t => ⟨.matrixOpComplete, { core := c, unit := t.1 }⟩))
  else s

/-- End the groups and the teams of a bundle on one core: claims are handed back, records freed, nothing saved. -/
def abortOnCore (ls : List Nat) (s : State) (c : Nat) : State :=
  let slots := bundleSlots s c ls
  let s := freeGroupRecords s c slots
  let s := (bundleTeams s c ls).foldl (fun s t => handBackAll s c (slots.headD 0) t) s
  let s := slots.foldl (fun s g => endGroup s c g 4) s
  let s := (bundleTeams s c ls).foldl (fun s t => endTeam s c t) s
  releaseSequencer s c slots

/-- BUNDLE_ABORT of bundle `obj` with status `value`: its groups end without save, its grains are handed back, a TRIGGER not yet
written gets STATUS 0x07, and every DONE the bundle's status (R144, R393). -/
def execBundleAbort (s : State) : Out :=
  let id := s.ev.obj
  let b := getBundle s id
  .next (if !hasKey s.bundles id || b.retired then s
    else
      let s := if b.status = 0 then setBundle s id { b with status := s.ev.value } else s
      let s := b.launches.foldl (fun s i => setLaunch s i { getLaunch s i with away := [] }) s
      let s := (s.cores.map (·.1)).foldl (abortOnCore b.launches) s
      let s := b.launches.foldl closeLogs s
      let s := b.launches.foldl (fun s i =>
        let l := getLaunch s i
        if l.trigSent then s else launchSignal s l l.trigger (some 0x07) false) s
      forgetBundle (writeDones s id) id true)

/-! ### A stopped core (R345) -/

/-- The supervisor lane of a core, started at SLVEC in the finial ROM; the ROM's code waits for an interrupt (entry 30). -/
def laneStart (vec : Word) : Group :=
  { Group.vacant with
    resident := true, super := true
    quads := [(0, { Quad.fresh vec with mask := 1, park := .wfi })] }

/-- A core after its reset by the firmware: the channel that serves the firmware core goes on. -/
def freshCore (k : Core) : Core :=
  { Core.reset with
    running := true, part := k.part, channels := k.channels.filter (fun x => x.1 == 8)
    groups := [(Config.laneSlot, laneStart 0)] }

/-- Records of a core that are not of its groups, its channels or its sequencer are resolved as by action 1 before the reset (Table 16-11). -/
def resolveOthers (s : State) (c : Nat) : State :=
  let rs := ((getCore s c).records.filter (fun e => e.2.state != .free && (e.2.src == 3 || e.2.src == 4))).map (·.2)
  pushDue s (rs.flatMap (fun m => unitAction c m true))

/-- CORE_STOP: the firmware core aborts every bundle with a team on the core, then resets it and restarts its lane. -/
def execCoreStop (s : State) : Out :=
  let c := s.ev.core
  let k := getCore s c
  let ids := (k.teams.map (fun t => (getLaunch s t.2.launch).bundle)).eraseDups
  .next (if k.stopped.isNone then s
    else if ids.any (fun i => hasKey s.bundles i && !(getBundle s i).retired) then
      dueFirst s (ids.map (fun i => dueAbort i 0x08 0) ++ [⟨.coreStop, { core := c }⟩])
    else
      let s := setSplit (resolveOthers s c) c 0x3448
      let s := setCore s c (freshCore (getCore s c))
      let d := getDie s (dieOf c)
      setDie s (dieOf c) { d with coreStops := d.coreStops.filter (fun x => x.1 != c) })

/-! ### Ordered-reduction logs (R278, Table 12-6) -/

/-- The launch whose logs a die applies: the one in progress, or the first accepted of those that wait. -/
def fredNext (s : State) (d : Nat) : Option Nat :=
  let k := getDie s d
  if k.fredLid ≠ 0 then some k.fredLid
  else (s.launches.find? (fun l => l.2.die == d && gridExited l.2 && !l.2.logs.isEmpty)).map (·.1)

/-- The outcome of one entry: applied, dropped, held on a page fault of a code, or parked at a migrating page (R40). -/
inductive FredStep where
  | applied (s : State)
  | dropped
  | held (code : Nat)
  | parked (e : Desc)

/-- Apply one entry at the home slice. -/
def fredOne (s : State) (l : Launch) (x : FredEntry) : FredStep :=
  match readEntry s l.part x.obj with
  | none => .dropped
  | some e =>
    if (e.kind == 1 && e.xe) || e.kind == 4 then .dropped
    else match modifyLineBy (0, 0, 0) s (fwCore l.die) l.part e x.off 4 (fun old => leBytes 4 (fatomOp x.op (leNat old) x.value.toNat)) with
      | .ok (_, s) => .applied s
      | .error (.page c) => .held c
      | .error (.migrating ..) => .parked e
      | .error _ => .dropped

/-- Logs without the first entry of the first team. -/
def popLog (m : FMap (List FredEntry)) : FMap (List FredEntry) :=
  match m with
  | [] => []
  | (k, l) :: r => match l.drop 1 with | [] => r | t => (k, t) :: r

/-- The application of a launch's logs goes on, or ends. -/
def fredGo (s : State) (d lid : Nat) (logs : FMap (List FredEntry)) : State :=
  let l := getLaunch s lid
  let s := setLaunch s lid { l with logs := logs }
  let k := getDie s d
  match logs with
  | [] => dueFirst (setDie s d { k with fredState := 0, fredLid := 0, fredLeft := 0 })
      [⟨.bundleRetire, { unit := l.bundle }⟩, ⟨.fredLogApply, { die := d }⟩]
  | (_, t) :: _ => dueFirst (setDie s d { k with fredState := 1, fredLid := lid, fredLeft := t.length }) [⟨.fredLogApply, { die := d }⟩]

/-- FRED_LOG_APPLY: the firmware copy engine of a die applies the next entry, in ascending team order and log order. -/
def execFredLogApply (s : State) : Out :=
  let d := s.ev.die
  .next (if (getDie s d).fredState = 2 then s
    else match fredNext s d with
      | none => s
      | some lid =>
        let l := getLaunch s lid
        match l.logs with
        | (_, x :: r) :: _ =>
          (match fredOne s l x with
          | .applied s => fredGo s d lid (popLog l.logs)
          | .dropped => fredGo (recordStatus s lid 0x0A) d lid (popLog l.logs)
          | .parked e =>
            parkAt (setDie s d { getDie s d with fredState := 1, fredLid := lid, fredLeft := r.length + 1 }) l.part e x.off
              ⟨.fredLogApply, { die := d }⟩
          | .held code =>
            let k := getDie s d
            unitRecord (setDie s d { k with fredState := 2, fredLid := lid, fredLeft := r.length + 1 }) (fwCore d) 4 0
              { cls := 7, code := code, obj := x.obj, off := x.off, kind := 2 } true)
        | _ => fredGo s d lid (popLog l.logs))

/-- FREDCTL_ABORT: the held launch's remaining entries are dropped, and it completes with status 0x0A. -/
def execFredctlAbort (s : State) : Out :=
  let d := s.ev.die
  let k := getDie s d
  .next (if k.fredState = 2 then fredGo (recordStatus s k.fredLid 0x0A) d k.fredLid [] else s)

/-- FREDCTL_RESUME: a held application goes on with the faulting entry. -/
def execFredctlResume (s : State) : Out :=
  let d := s.ev.die
  let k := getDie s d
  .next (if k.fredState = 2 then dueFirst (setDie s d { k with fredState := 1 }) [⟨.fredLogApply, { die := d }⟩] else s)

end Sys2Proof.Machine
end

