-- ==== Sys2Proof/Machine/Firmware.lean ====
section
/-!
DEFINITION. The firmware core of a die (spec/18 R388, R389, R396): its steps, the packets, the watchdog, the fallback
scheduler and the reboot (FIRMWARE_STEP, the packet steps, WAIT_SATISFIED, WATCHDOG_TIMEOUT, FALLBACK_TURN,
FIRMWARE_REBOOT_DONE).
-/

namespace Sys2Proof.Machine

/-! ### Packets at the head of a lane -/

/-- Packet types that the fallback scheduler serves: PAD, NOP, LAUNCH, SIGNAL, WAIT (R396). -/
def fallbackType (t : Nat) : Bool := t == 0 || t == 1 || t == 2 || t == 4 || t == 5

/-- The header of the packet at the head of a lane, with its ring; none for a lane that serves nothing now. -/
def headOf (s : State) (d i : Nat) : Option (Ring × Nat) :=
  match ringOf s d i with
  | none => none
  | some r => if r.valid && r.head != r.tail then some (r, Ring.word s r r.head 0) else none

/-- The well-formed packet of a type at the head of a lane, where the firmware core, or the fallback scheduler, serves it. -/
def packetHere (s : State) (d i t : Nat) : Option Packet :=
  if s.boot.safe || ((getDie s d).booting && !fallbackType t) || (getFw (getDie s d) i).next.isSome then none
  else match headOf s d i with
    | none => none
    | some (r, h) => if headBad r r.head h || packetType h != t then none else some (readPacket s r r.head)

/-- Do something with the packet of a type at the head of lane `unit` of a die, if there is one. -/
def withPacket (s : State) (t : Nat) (f : Packet → State) : Out :=
  .next (match packetHere s s.ev.die s.ev.unit t with | some p => f p | none => s)

/-- A rejected packet: RJSTAT, RJCOUNT, the status in its DONE where it carries one, HEAD past it (R385). -/
def rejectPacket (s : State) (p : Packet) (status : Nat) (done : Option Signal) : State :=
  let s := p.ring.reject s status 1
  let s := match done with
    | none => s
    | some g => putSignal s p.ring.die p.ring.area.part p.ring.area.desc.id g (some status) false
  finishPacket s p

/-- The header of a capability field in the body of a packet of a type (R386). -/
def bodyHeader (t : Nat) : Nat := t * 2 ^ 20 + 2 ^ 19 + 8

/-! ### The packets (R388) -/

/-- NOP_PACKET of lane `unit`. -/
def execNopPacket (s : State) : Out := withPacket s 1 (finishPacket s)

/-- PAD_PACKET of lane `unit`. -/
def execPadPacket (s : State) : Out := withPacket s 0 (finishPacket s)

/-- The status that rejects a SIGNAL whose signal field is good. -/
def signalBad (p : Packet) : Bool :=
  decide (p.words.length < 12) || p.w 1 / 4 != 0 || p.w 1 == 3 || (p.w 1 != 2 && p.w 2 != 0) || decide (255 < p.w 2)

/-- The signal word after a SIGNAL. -/
def signalEffect (p : Packet) (g : Signal) (v : Nat) : Nat :=
  match p.w 1 with
  | 0 => signalWord v (signalStatus v) g.value.toNat
  | 1 => signalWord v (signalStatus v) (signalValue v + g.value.toNat)
  | _ => signalWord v (p.w 2) (signalValue v)

/-- SIGNAL_PACKET of lane `unit`: a release at system scope. One that meets a migrating page is taken again in the next step (R40). -/
def execSignalPacket (s : State) : Out :=
  withPacket s 4 (fun p => match signalField s p 4 (some (bodyHeader 4)) with
    | .error e => rejectPacket s p e none
    | .ok g =>
      if signalBad p then rejectPacket s p 0x03 none
      else match updateSignal s p.ring.die p.ring.area.part g (signalEffect p g) with
        | .ok s => finishPacket s p
        | .error (.migrating ..) => s
        | .error _ => finishPacket (p.ring.reject s 0x03 1) p)

/-- Test a WAIT, whose read is an acquire at system scope: it is finished, or its lane waits (R387, R388, R440). -/
def testWait (s : State) (p : Packet) (g : Signal) : State :=
  let d := p.ring.die
  let i := p.ring.lane
  match readSignal s p.ring.area.part g with
  | .error (.migrating ..) => setLane s d i (fun x => { x with waiting := true })
  | .error _ => finishPacket (p.ring.reject s 0x03 1) p
  | .ok v =>
    let s := epochStep s d
    if !signalMet g v then setLane s d i (fun x => { x with waiting := true })
    else finishPacket (if signalStatus v ≠ 0 then p.ring.reject s (signalStatus v) 0 else s) p

/-- WAIT_PACKET of lane `unit`. -/
def execWaitPacket (s : State) : Out :=
  withPacket s 5 (fun p => match signalField s p 4 (some (bodyHeader 5)) with
    | .error e => rejectPacket s p e none
    | .ok g => testWait s p g)

/-- WAIT_SATISFIED: a lane held by a WAIT tests its signal word again. -/
def execWaitSatisfied (s : State) : Out :=
  if (getFw (getDie s s.ev.die) s.ev.unit).waiting then
    withPacket s 5 (fun p => match signalField s p 4 (some (bodyHeader 5)) with
      | .error e => rejectPacket s p e none
      | .ok g => testWait s p g)
  else .next s

/-- The capability of a PUBLISH, with P. -/
def publishCap (s : State) (p : Packet) : Except Nat Cap := fieldCap s p 4 0x10 (some (bodyHeader 6))

/-- PUBLISH_PACKET of lane `unit`: with WM it waits until the stream's WMARK follows or equals the sequence number (R47), then it
publishes the object (R105). -/
def execPublishPacket (s : State) : Out :=
  withPacket s 6 (fun p => match publishCap s p with
    | .error e => rejectPacket s p e none
    | .ok c =>
      let wm := (getStream s (p.w 1 % 256)).wmark.toNat
      if p.w 1 / 2 ^ 31 = 1 && !batchUpTo wm (p.w 2) then setLane s p.ring.die p.ring.lane (fun x => { x with waiting := true })
      else finishPacket (publishObject s p.ring.area.part c.obj.toNat) p)

/-- TIMESTAMP_PACKET of lane `unit`: the clock count, by one release store at system scope. -/
def execTimestampPacket (s : State) : Out :=
  withPacket s 8 (fun p => match fieldCap s p 4 0x02 (some (bodyHeader 8)) with
    | .error e => rejectPacket s p e none
    | .ok c =>
      let off := p.w 6
      if off % 8 ≠ 0 || decide (capLen c < off + 8) then rejectPacket s p 0x03 none
      else match fwWrite s p.ring.area.part c off (leBytes 8 s.clock) with
        | .ok s => finishPacket s p
        | .error (.migrating ..) => s
        | .error _ => finishPacket (p.ring.reject s 0x03 1) p)

/-- ABORT_PACKET of lane `unit`: every incomplete bundle accepted from this queue, or the one that holds a launch id. -/
def execAbortPacket (s : State) : Out :=
  withPacket s 7 (fun p =>
    if p.words.length < 3 then rejectPacket s p 0x02 none
    else if 1 < p.w 1 then rejectPacket s p 0x03 none
    else
      let hit := s.bundles.filter (fun b => !b.2.retired && (if p.w 1 = 1 then bundleQueue s b.2 == (p.ring.area.part, p.ring.area.desc.id)
        else b.2.launches.contains (p.w 2)))
      dueFirst (finishPacket s p) (hit.map (fun b => dueAbort b.1 0x07 0)))

/-! ### COPY (R388) -/

/-- The DONE field of a COPY: absent where it is all zeros. -/
def copyDone (s : State) (p : Packet) : Except Nat (Option Signal) :=
  if (upTo 8).all (fun i => p.w (4 + i) == 0) then .ok none
  else match signalField s p 4 (some (bodyHeader 3)) with | .error e => .error e | .ok g => .ok (some g)

/-- A COPY, checked: its descriptor, its capabilities, its DONE. -/
def copyOf (s : State) (p : Packet) : Except Nat (List Word × Cap × Cap) :=
  match fieldCap s p 20 0x01 (some (bodyHeader 3)), fieldCap s p 28 0x02 (some (bodyHeader 3)) with
  | .error e, _ => .error e
  | _, .error e => .error e
  | .ok src, .ok dst =>
    let d := (upTo 8).map (fun i => wordOf (p.w (12 + i)))
    let inside := fun (c : Cap) (r : Nat × Nat) => decide (r.1 + r.2 ≤ capLen c)
    if p.w 2 ≠ 0 || p.w 3 ≠ 0 || copyBad d || srcScratch d || dstScratch d || copyOverlap d src dst
        || !(srcRanges d).all (inside src) || !(dstRanges d).all (inside dst) then .error 0x03
    else .ok (d, src, dst)

/-- COPY_PACKET of lane `unit`: the copy begins when the engine is free; when it has ended its status goes to DONE. -/
def execCopyPacket (s : State) : Out :=
  withPacket s 3 (fun p =>
    let d := p.ring.die
    let c := fwCore d
    if p.words.length < 36 then rejectPacket s p 0x02 none
    else match copyDone s p with
      | .error e => rejectPacket s p e none
      | .ok done =>
        if (getFw (getDie s d) p.ring.lane).copying then
          let ch := getChannel s c fwChannel
          if ch.state ≠ 0 then s
          else
            let s := match done with
              | none => s
              | some g => putSignal s d p.ring.area.part p.ring.area.desc.id g (some (if ch.fault then 0x03 else 0)) true
            finishPacket s p
        else match copyOf s p with
          | .error e => rejectPacket s p e done
          | .ok (desc, src, dst) =>
            if (getChannel s c fwChannel).state ≠ 0 || (getDie s d).lanes.any (·.2.copying) then s
            else
              let ch := getChannel s c fwChannel
              let s := setChannel s c fwChannel { Channel.idle with desc := desc, src := src, dst := dst, group := 127, state := 1, nvst := ch.nvst }
              dueFirst (setLane s d p.ring.lane (fun x => { x with copying := true })) [⟨.copyStart, { core := c, unit := fwChannel }⟩])

/-! ### LAUNCH (R390, R391) -/

/-- A chain of LAUNCH packets as it stands in the ring: the packets, where the next packet begins, and what broke it. -/
structure Chain where
  packets : List Packet
  next    : Nat
  broken  : Option Nat
deriving DecidableEq, Repr

/-- Read a chain from a position; none while its last packet is not yet in the ring. PAD packets are skipped. -/
def chainFrom (s : State) (r : Ring) : Nat → Nat → Option Chain
  | 0, _ => none
  | fuel + 1, pos =>
    if pos = r.tail then none
    else
      let h := Ring.word s r pos 0
      if packetType h = 0 && !headBad r pos h then chainFrom s r fuel (afterPacket r pos h)
      else if packetType h ≠ 2 then some ⟨[], pos, some 0x06⟩
      else if headBad r pos h then some ⟨[⟨r, pos, []⟩], afterPacket r pos h, some 0x02⟩
      else
        let p := readPacket s r pos
        if launchNext p then (chainFrom s r fuel (afterPacket r pos h)).map (fun c => { c with packets := p :: c.packets })
        else some ⟨[p], afterPacket r pos h, none⟩

/-- The launches of a chain, or the status of its rejection (R391). -/
def chainLaunches (s : State) (c : Chain) : Except Nat (List (Launch × Option Nat)) :=
  if c.broken = some 0x06 || decide (4 < c.packets.length) then .error 0x06
  else collect (fun p => if p.words.isEmpty then .error 0x02 else match parseLaunch s p with
    | .error e => .error e
    | .ok (l, t) =>
      if (match t with | some k => decide (c.packets.length ≤ k) | none => false) then .error 0x03
      else if !launchPossible s l then .error 0x04 else .ok (l, t)) c.packets

/-- The id of the launch accepted `k`-th after `n` others on a die (R388). -/
def launchId (d n k : Nat) : Nat := d * 2 ^ 29 + (n + k + 1) % 2 ^ 29

/-- Accept the launches of a chain as a bundle. -/
def acceptChain (s : State) (r : Ring) (c : Chain) (ls : List (Launch × Option Nat)) : State :=
  let d := r.die
  let n := (getDie s d).serial
  let id := fun (k : Nat) => launchId d n k
  let key := id (ls.length - 1)
  let put := fun (s : State) (k : Nat) =>
    let (l, t) := ls.getD k (Launch.empty, none)
    setLaunch s (id k) { l with bundle := key, index := k, tuner := t.map id }
  let s := (upTo ls.length).foldl put s
  let s := setBundle s key { Bundle.empty with die := d, lane := r.lane, launches := (upTo ls.length).map id, age := n }
  let s := setDie s d { getDie s d with serial := n + ls.length }
  advanceHead (putHeader s r 0x14 key) r c.next

/-- Reject a chain: every launch packet counts, and every DONE that can be told is written. -/
def rejectChain (s : State) (r : Ring) (c : Chain) (status : Nat) : State :=
  let s := c.packets.foldl (fun s p =>
    let done := launchDone s p
    let s := r.reject s status 1
    match done with
    | none => s
    | some g => putSignal s r.die r.area.part r.area.desc.id g (some status) false) s
  advanceHead s r c.next

/-- LAUNCH_PACKET of lane `unit`: the chain that begins here is accepted whole, or rejected whole. -/
def execLaunchPacket (s : State) : Out :=
  withPacket s 2 (fun p =>
    let r := p.ring
    match chainFrom s r (r.avail r.head / 16 + 1) r.head with
    | none => s
    | some c => match chainLaunches s c with
      | .error e => rejectChain s r c e
      | .ok ls => acceptChain s r c ls)

/-! ### The step (R389) -/

/-- The step of a packet type, and its place in the type order. -/
def packetStep (t : Nat) : Option (Nat × Instr) :=
  match t with
  | 7 => some (0, .abortPacket)
  | 4 => some (1, .signalPacket)
  | 5 => some (2, .waitPacket)
  | 6 => some (3, .publishPacket)
  | 2 => some (4, .launchPacket)
  | 3 => some (5, .copyPacket)
  | 8 => some (6, .timestampPacket)
  | 1 => some (7, .nopPacket)
  | 0 => some (8, .padPacket)
  | _ => none

/-- What a lane has for the step, with its place in the type order: its packet's step, that of a WAIT it waits on, or the rejection of a
packet that has none, at the place of its type; unknown types, and a LOGLEN out of range, come last (R389). -/
def laneStep (s : State) (d i : Nat) : Option (Nat × Due) :=
  let reject : Due := ⟨.firmwareStep, { die := d, unit := i, value := 1 }⟩
  match ringOf s d i with
  | none => none
  | some r =>
    if !r.valid then (if areaNat s r.area 0x10 1 = 0x02 then none else some (9, reject))
    else match headOf s d i with
      | none => none
      | some (r, h) =>
        match packetStep (packetType h) with
        | none => some (9, reject)
        | some x =>
          if headBad r r.head h then some (x.1, reject)
          else if (getFw (getDie s d) i).waiting && packetType h == 5 then some (2, ⟨.waitSatisfied, { die := d, unit := i }⟩)
          else some (x.1, ⟨x.2, { die := d, unit := i }⟩)

/-- A lane whose packet has no step of its own: LOGLEN out of range, a malformed header, or an unknown type (R381, R384). -/
def laneReject (d : Nat) (s : State) (i : Nat) : State :=
  match ringOf s d i with
  | none => s
  | some r =>
    if (getFw (getDie s d) i).next.isSome then s
    else if !r.valid then (if areaNat s r.area 0x10 1 = 0x02 then s else r.reject s 0x02 0)
    else match headOf s d i with
      | none => s
      | some (r, h) =>
        if headBad r r.head h then advanceHead (r.reject s 0x02 1) r (afterPacket r r.head h)
        else if (packetStep (packetType h)).isSome then s
        else advanceHead (if h.testBit 19 then r.reject s 0x01 1 else s) r (afterPacket r r.head h)

/-- What ends a step of a die: the HEADs of the lanes whose packets are finished, admissions and placements. -/
def placeSteps (d : Nat) : List Due := [⟨.firmwareStep, { die := d, value := 2 }⟩, ⟨.laterWaveAdmission, { die := d }⟩, ⟨.bundlePlacement, { die := d }⟩]

/-- FIRMWARE_STEP of a die: the packets at the heads of its lanes, by type order and then by lane. The step's parts that are no packet's own
are steps of this name too: with `value` 1 lane `unit` is rejected, with 2 the step ends and HEAD is written. -/
def execFirmwareStep (s : State) : Out :=
  let d := s.ev.die
  let k := getDie s d
  .next (if s.boot.safe then s
    else if s.ev.value = 2 then writeHeads s d
    else if k.booting || k.fallback then s
    else if s.ev.value = 1 then laneReject d s s.ev.unit
    else
      let work := sortBy (fun (x y : Nat × Due) => decide (x.1 ≤ y.1)) ((upTo 32).filterMap (laneStep s d))
      dueFirst (setDie s d { k with heartbeat := s.clock }) (work.map (·.2) ++ placeSteps d))

/-! ### Watchdog, fallback and reboot (R396) -/

/-- WATCHDOG_TIMEOUT: without a heartbeat for 2,700,000 clocks the firmware core is reset and the fallback scheduler serves. -/
def execWatchdogTimeout (s : State) : Out :=
  let d := s.ev.die
  let k := getDie s d
  .next (if k.booting || decide (s.clock < k.heartbeat + 2700000) then s
    else
      let s := setDie s d { k with booting := true, fallback := true, lanes := k.lanes.map (fun x => (x.1, { x.2 with waiting := false, copying := false, next := none })) }
      setChannel s (fwCore d) fwChannel { getChannel s (fwCore d) fwChannel with state := 0 })

/-- FALLBACK_TURN of lane `unit`: the fallback scheduler serves one packet; a type it does not serve is deferred. -/
def execFallbackTurn (s : State) : Out :=
  let d := s.ev.die
  let i := s.ev.unit
  .next (if !(getDie s d).fallback || s.boot.safe then s
    else match headOf s d i with
      | none => dueFirst s (placeSteps d)
      | some (r, h) =>
        if headBad r r.head h then dueFirst (laneReject d s i) (placeSteps d)
        else if !fallbackType (packetType h) then dueFirst s (placeSteps d)
        else dueFirst s (((laneStep s d i).map (·.2)).toList ++ placeSteps d))

/-- A lane at whose HEAD the packet's effect has performed advances without repeating it. -/
def skipDone (d : Nat) (s : State) (i : Nat) : State :=
  match headOf s d i with
  | none => s
  | some (r, h) => if (getFw (getDie s d) i).journal.toNat = r.head then advanceHead s r (afterPacket r r.head h) else s

/-- FIRMWARE_REBOOT_DONE: BOOTING and FALLBACK clear, and each lane goes on at its HEAD under the FWJRNL rule. -/
def execFirmwareRebootDone (s : State) : Out :=
  let d := s.ev.die
  let k := getDie s d
  .next (if !k.booting then s
    else writeHeads ((upTo 32).foldl (skipDone d) (setDie s d { k with booting := false, fallback := false, heartbeat := s.clock })) d)

end Sys2Proof.Machine
end

