-- ==== Sys2Proof/Machine/Boot.lean ====
section
/-!
DEFINITION. Boot and management (spec/19): reset, the boot stages (R398 to R400), partitions (R401), attestation (R403), the
management path, freeze and scan (spec/17 R379).
-/

namespace Sys2Proof.Machine

/-! ### Reset (R2, R400) -/

/-- The module right after a reset; its fuses and the firmware configuration, which lies in flash, stay, and what the model keeps for
itself goes on. -/
def resetModule (s : State) : State :=
  { State.reset with due := s.due, free := s.free, boot := { Boot.reset with fuses := s.boot.fuses, plans := s.boot.plans, host := s.boot.host } }

/-- POWER_CYCLE: power-on resets the clock count, and boot begins at stage 0x1 (R2). -/
def execPowerCycle (s : State) : Out := .next (resetModule s)

/-- MANAGEMENT_RESET: as a power cycle; it also leaves the safe state (R400). -/
def execManagementReset (s : State) : Out := .next (resetModule s)

/-! ### Boot stages (Tables 19-1 and 19-2) -/

/-- External links of the module (Table 0-1): 0 to 15 the CXL ports, 2 × die and the next; 16 + die the NVMe port of D0, D3, D4 and D7;
24 + die the Ultra Ethernet port of a die. -/
def allLinks : List Nat := upTo 16 ++ [16, 19, 20, 23] ++ (upTo 8).map (· + 24)

/-- A stage fails: the safe state, with code and unit recorded, and every failing unit in the test report (R398, R400). Every core is in
reset, and every port is down. -/
def bootFail (s : State) (code unit : Nat) (others : List (Nat × Nat)) : State :=
  let b := s.boot
  let report := ((unit, code) :: others).map (fun x => (x.1, b.stage, x.2))
  { s with
    boot := { b with code := code, unit := unit, safe := true, failing := report }
    cores := s.cores.map (fun k => (k.1, { k.2 with running := false }))
    linksDown := allLinks }

/-- Pairs of a flat list. -/
def pairsOf : List Nat → List (Nat × Nat)
  | x :: y :: r => (x, y) :: pairsOf r
  | _ => []

/-- Boot stands at a stage that has succeeded. -/
def atStage (s : State) (n : Nat) : Bool := s.boot.stage == n && !s.boot.safe

/-- A measurement, at its place: 0 finial ROM, 1 firmware, 2 kernel. -/
def measure (b : Boot) (i : Nat) (bs : List Byte) : Boot := { b with measures := insertKey b.measures i (leNat (bs.take 32)) }

/-- The code of the check of a firmware image (Table 19-2; 0 none): no header, a digest or signature that does not match, as an event
says, or a version below the fused rollback counter. -/
def imageCode (s : State) (found version : Nat) : Nat :=
  if found = 1 ∨ found = 2 then found else if version < s.boot.fuses.rollback then 3 else 0

/-- BOOT_IMAGE_CHECK: `value` is what the check of header, digest and signature finds of slot 0, `extra` of slot 1, each 0 or a code of
Table 19-2; `off` and `len` are the versions of the two images. -/
def execBootImageCheck (s : State) : Out :=
  let e := s.ev
  let enter := { s with boot := { s.boot with stage := 2 } }
  .next (if !atStage s 1 then s
    else if imageCode s e.value e.off = 0 then { enter with boot := { enter.boot with slot := 0, version := e.off } }
    else if imageCode s e.extra e.len = 0 then { enter with boot := { enter.boot with slot := 1, version := e.len } }
    else bootFail enter (imageCode s e.extra e.len) 0 [])

/-- BOOT_SELF_TEST: `value` is 0, or the code 0x10 to 0x14 of the unit `unit` that fails first; `aux` names further failing units, each with
its code. -/
def execBootSelfTest (s : State) : Out :=
  let e := s.ev
  let enter := { s with boot := { s.boot with stage := 3 } }
  .next (if !atStage s 2 then s else if 0x10 ≤ e.value ∧ e.value ≤ 0x14 then bootFail enter e.value (e.unit % 256) (pairsOf e.aux) else enter)

/-- BOOT_FIRMWARE_LOAD: the firmware is loaded and its measurement, `bytes`, recorded. -/
def execBootFirmwareLoad (s : State) : Out :=
  .next (if atStage s 3 then { s with boot := measure { s.boot with stage := 4 } 1 s.ev.bytes } else s)

/-- BOOT_KERNEL_LOAD: `value` is 0, or 0x20 or 0x21 for a kernel image that is invalid or unreadable; `bytes` its measurement. -/
def execBootKernelLoad (s : State) : Out :=
  let e := s.ev
  let enter := { s with boot := { s.boot with stage := 5 } }
  .next (if !atStage s 4 then s
    else if e.value = 0x20 ∨ e.value = 0x21 then bootFail enter e.value 0 []
    else { enter with boot := measure enter.boot 2 e.bytes })

/-- Release a core: it runs, and its supervisor lane starts at SLVEC. -/
def releaseCore (s : State) (c : Nat) : State :=
  let k := getCore s c
  setCore s c { k with running := true, groups := insertKey k.groups Config.laneSlot (laneStart k.lane.vec) }

/-! ### Partitions (R401) -/

/-- HBM ranges: entries of sixteen bytes, start and size. -/
def rangesOf (bs : List Byte) : List (Nat × Nat) :=
  (upTo (bs.length / 16)).map (fun i => (leNat ((bs.drop (16 * i)).take 8), leNat ((bs.drop (16 * i + 8)).take 8)))

/-- Zero-fill HBM: data, tags and marks. -/
def zeroHbm (s : State) (a n : Nat) : State :=
  { s with hbm := memClear s.hbm a n
           tags := s.tags.filter (fun q => !(decide (a / 16 ≤ q) && decide (q < (a + n + 15) / 16)))
           poison := s.poison.filter (fun l => !(decide (a ≤ 128 * l) && decide (128 * l < a + n)))
           lineKeys := s.lineKeys.filter (fun e => e.1 % 2 == 1 || !(decide (a / 128 ≤ e.1 / 2) && decide (64 * e.1 < a + n))) }

/-- None of some cores holds a team. -/
def coresIdle (s : State) (cs : List Nat) : Bool := cs.all (fun c => (getCore s c).teams.isEmpty)

/-- A partition can be created with some cores: it does not exist, and no core of it holds a team or belongs to another. -/
def creatable (s : State) (n : Nat) (cs : List Nat) : Bool :=
  decide (n < 8) && !(getPart s n).exist && !cs.isEmpty && coresIdle s cs && !s.partitions.any (fun p => p.2.exist && p.2.cores.any cs.contains)

/-- Create a partition: its table is zeroed, and entry 1 is a valid entry of kind ordinary. -/
def createPart (s : State) (x : Plan) : State :=
  let p : Partition := { Partition.reset with
    exist := true, cores := x.cores, ranges := x.ranges, tenants := [x.tenant], ports := x.ports
    otbase := x.otbase &&& 0x1FFFFFFF, otlen := x.otlen }
  let s := { setPart s x.unit p with boot := { s.boot with keys := insertNat s.boot.keys x.unit } }
  let s := x.cores.foldl (fun s c => setCore s c { getCore s c with part := x.unit, descs := [], icache := [] }) s
  let base := p.otbase.toNat * 4096
  let s := zeroHbm s base (64 * p.otlen.toNat)
  if p.otlen.toNat < 2 then s else tableWrite s (base + 64) (leBytes 8 (2 ^ 63))

/-- PARTITION_CREATE of partition `unit`: `value` has a bit for each of its cores, `off` one for each of its ports, `bytes` its HBM
ranges, `core` its tenant; `obj` is OTBASE and `len` OTLEN. -/
def execPartitionCreate (s : State) : Out :=
  let e := s.ev
  let cs := (upTo (Config.dies * Config.coresPerDie)).filter e.value.testBit
  .next (if !atStage s 6 || !creatable s e.unit cs then s
    else createPart s ⟨e.unit, cs, rangesOf e.bytes, e.core, (upTo 32).filter e.off.testBit, wordOf e.obj, wordOf e.len, [], []⟩)

/-- The partitions of the firmware configuration: each is created, with the entries of the kernel image's objects, and takes the kernel's
packets, whose capabilities are minted with their tags (R401). -/
def startPart (s : State) (x : Plan) : State :=
  if !creatable s x.unit x.cores then s
  else
    let s := createPart s x
    let s := x.entries.foldl (fun s e => tableWrite s (entryAddr s x.unit e.1) (e.2.take 64)) s
    x.packets.foldl (fun s k => match readEntry s x.unit k.1 with
      | none => s
      | some d => match appendPacket s x.unit d k.2.1 k.2.2 with
        | .ok (some (_, s)) => s
        | _ => s) s

/-- BOOT_PARTITION_START: stage 0x6: the partitions are created, the cores are released, the kernel's packets submitted, and READY is set;
the rollback counter is raised to the version of the image that has booted (R398). -/
def execBootPartitionStart (s : State) : Out :=
  .next (if !atStage s 5 then s
    else
      let s := s.boot.plans.foldl startPart s
      let s := (upTo (Config.dies * Config.coresPerDie)).foldl releaseCore s
      let b := s.boot
      { s with boot := { b with
          stage := 6, code := 0, ready := true, fuses := { b.fuses with rollback := Nat.max b.fuses.rollback b.version } } })

/-- Write back and remove every line of a partition. -/
def evictPart (s : State) (p : Nat) : State :=
  s.dies.foldl (fun s e => e.2.slices.foldl (fun s z => z.2.lines.foldl (fun s l =>
    if l.part == p then (if l.guest then removeLine s e.1 z.1 l else evictLine s e.1 z.1 l) else s) s) s) s

/-- The keys of a partition are erased: no key reads again the pool lines that were written under them (R401, R402). -/
def eraseKeys (s : State) (n : Nat) : State :=
  { s with lineKeys := s.lineKeys.map (fun e => if e.2 != 0 && (e.2 - 1) / 2 ^ 16 == n then (e.1, 2 ^ 32 + e.2) else e) }

/-- PARTITION_DESTROY of partition `unit`: its window entries are cleared first, its lines are written back and invalidated, its
keys erased and its HBM zeroed. -/
def execPartitionDestroy (s : State) : Out :=
  let n := s.ev.unit
  let p := getPart s n
  .next (if !p.exist || !coresIdle s p.cores then s
    else
      let s := { s with windows := s.windows.filter (fun w => w.part != n) }
      let s := evictPart (shootDown s n 0) n
      let s := p.ranges.foldl (fun s r => zeroHbm s r.1 r.2) s
      let s := eraseKeys s n
      { s with partitions := eraseKey s.partitions n, boot := { s.boot with keys := s.boot.keys.filter (· != n) } })

/-! ### The management path (R399, R403, R404) -/

/-- BOOTST (Table 19-2). -/
def bootst (b : Boot) : Word :=
  wordOf (b.stage % 16 * 2 ^ 28 + b.slot % 16 * 2 ^ 24 + b.code % 256 * 2 ^ 16 + b.unit % 256 * 2 ^ 8 + bitNat b.ready)

/-- LINKERR of a stop of a die (Table 19-4). -/
def linkErr (d : Die) (stop : Nat) : Nat := lookup d.linkDrop stop 0 % 2 ^ 16 * 2 ^ 16 + lookup d.linkCrc stop 0 % 2 ^ 16

/-- The test report: each failing unit, with its stage and code, in four bytes (R400; entry 76). -/
def testReport (b : Boot) : List Byte := b.failing.flatMap (fun x => leBytes 1 x.1 ++ leBytes 1 x.2.1 ++ leBytes 1 x.2.2 ++ [0])

/-- STATUS_QUERY of management offset `off`: BOOTST, or a LINKERR of a die; with `flag` a LINKERR is written, and the bits that
`value` has clear. With `len` it asks for the test report. -/
def execStatusQuery (s : State) : Out :=
  let e := s.ev
  let stop := (e.off - 0x100) / 4
  let d := getDie s e.die
  .next (if e.len ≠ 0 then { s with boot := { s.boot with report := testReport s.boot } }
    else if e.off = 0 then { s with boot := { s.boot with answer := bootst s.boot } }
    else if e.off < 0x100 then s
    else if !e.flag then { s with boot := { s.boot with answer := wordOf (linkErr d stop) } }
    else
      let v := (wordOf (linkErr d stop) &&& ~~~(wordOf e.value)).toNat
      setDie s e.die { d with linkDrop := insertKey d.linkDrop stop (v / 2 ^ 16), linkCrc := insertKey d.linkCrc stop (v % 2 ^ 16) })

/-- A number of `n` bytes that the specification does not state: a digest, a signature (entry 5). -/
def freeBytes (i n : Nat) (about : List Byte) : List Byte := leBytes n (Config.freeSignature i about)

/-- The certificates from the attestation key to the root: free bytes of the module (R403; entry 38). -/
def chain : List Byte := freeBytes 0 (Config.freeSignature 0 [1]) [2]

/-- The partition map as bytes: what its digest is of. -/
def mapBytes (s : State) : List Byte :=
  s.partitions.flatMap (fun e =>
    let p := e.2
    leBytes 1 e.1 ++ leBytes 2 p.cores.length ++ p.cores.flatMap (leBytes 2) ++ leBytes 2 p.ranges.length
      ++ p.ranges.flatMap (fun r => leBytes 8 r.1 ++ leBytes 8 r.2) ++ leBytes 2 p.tenants.length ++ p.tenants.flatMap (leBytes 2)
      ++ leBytes 1 p.ports.length ++ p.ports.flatMap (leBytes 1))

/-- The fuse state of a report: the rollback counter, the debug locks, the digest of the key (entry 38). -/
def fuseBytes (f : Fuses) : List Byte := leBytes 4 f.rollback ++ leBytes 4 f.lock ++ leBytes 8 f.key

/-- ATTESTATION_REQUEST for tenant `unit` with the nonce `bytes`: the report of Table 19-3, its signature over body and chain, and
the digests that the specification does not state, free values of what they are digests of: the firmware's measurement of its image and
the slot booted, the map's of the partition map. -/
def execAttestationRequest (s : State) : Out :=
  let e := s.ev
  let m := fun (i : Nat) => leBytes 32 (lookup s.boot.measures i (if i = 0 then Config.freeSignature 0 [0] else 0))
  let body := leBytes 4 0x00010019 ++ leBytes 4 e.unit ++ (upTo 32).map (fun i => e.bytes.getD i 0)
    ++ m 0 ++ freeBytes 0 32 (3 :: m 1 ++ leBytes 4 s.boot.slot) ++ m 2 ++ freeBytes 0 32 (4 :: mapBytes s) ++ fuseBytes s.boot.fuses
    ++ leBytes 4 chain.length ++ leBytes 4 0x100
  .next (if s.boot.safe then s
    else { s with boot := { s.boot with report := body ++ freeBytes s.free 64 (body ++ chain) ++ chain }, free := s.free + 1 })

/-! ### Freeze, scan and links (R379) -/

/-- FREEZE_ASSERT: every clock stops. -/
def execFreezeAssert (s : State) : Out := .next { s with frozen := true }

/-- FREEZE_RELEASE: every clock resumes, provided no functional scan chain has been shifted. -/
def execFreezeRelease (s : State) : Out := .next (if s.scanned then s else { s with frozen := false })

/-- SCAN_CHAIN_SHIFT: while frozen, a shift after which the module must be reset. -/
def execScanChainShift (s : State) : Out := .next (if s.frozen then { s with scanned := true } else s)

/-- EXTERNAL_LINK_DOWN: the CXL, NVMe or Ultra Ethernet link `unit` goes down. -/
def execExternalLinkDown (s : State) : Out :=
  .next (if allLinks.contains s.ev.unit then { s with linksDown := insertNat s.linksDown s.ev.unit } else s)

end Sys2Proof.Machine
end

