-- ==== Sys2Proof/Machine/Fabric.lean ====
section
/-!
DEFINITION. The memory system's own steps (spec/02 R33 to R45, spec/03 R59 to R83, spec/19 R404, R405): requests, stores,
replies and acknowledgements between cores and slices, walks, shoot-downs, the atomic units, and memory maintenance. An
instruction's access goes through these structures within its own step (entry 4); here they act on a request of their own.
-/

namespace Sys2Proof.Machine

/-! ### Requests and replies (R64, R66, R38) -/

/-- The answer to a request that fails: a page fault or another fault goes back to the issuing group, with the KIND and the map in
`aux`; a request that meets a migrating page parks at its port, to go on by the step `again` (R38, R40). -/
def faultAnswer (s : State) (e : Event) (again : Due) (x : MemErr) : State :=
  let back := fun (code cls : Nat) => pushDue s [⟨.pageFaultResponse, { e with value := code, extra := cls }⟩]
  match x with
  | .page c => back c 7
  | .cap c => back c 5
  | .poison c => back c 1
  | .migrating o a =>
    let p := (getCore s e.core).part
    match readEntry s p o with
    | none => back 0x09 5
    | some d => parkAt s p d a again

/-- What a reply says of a line beside its bytes: tags, zero, pool, generation, the guest epoch of the die of the core that asks, and
the quanta whose tags stores have cleared (R19). -/
def lineInfo (s : State) (c : Nat) (l : Line) : List Nat :=
  [l.tags.toNat, bitNat l.zero, bitNat l.pool, bitNat l.gen, (getDie s (dieOf c)).epoch]
    ++ l.drops.flatMap (fun d => [d.1, d.2.1, d.2.2.1, d.2.2.2])

/-- The cleared quanta that a reply names. -/
def dropsOf : List Nat → FMap (Nat × Nat × Nat)
  | q :: a :: b :: c :: r => (q, (a, b, c)) :: dropsOf r
  | _ => []

/-- The stop of a slice, and of a local core (R4). -/
def sliceStop (z : Nat) : Nat := 8 * (z / 2) + 5 + z % 2
def coreStop (k : Nat) : Nat := 8 * (k / 5) + k % 5

/-- How a line goes back to the core that asks: as a flit to its stop, where the request came as flit `value` − 1, else at once (R74). -/
def replyStep (s : State) (e : Event) (d : Desc) (l : Line) : Due :=
  if e.value = 0 then ⟨.lineReply, { e with bytes := lineBytes l, aux := lineInfo s e.core l }⟩
  else ⟨.flitHop, { core := e.core, unit := 2 ^ 32 + (e.value - 1), flag := true, die := homeDie d e.off, off := sliceStop (homeSlice e.obj e.off),
                    value := dieOf e.core, extra := coreStop (e.core % Config.coresPerDie), bytes := lineBytes l,
                    aux := [e.unit, e.obj, e.off, 0, 0, 3, e.aux.getD 0 0] ++ lineInfo s e.core l }⟩

/-- A prefetch that was parked at a migrating page goes on: the line comes into the slice, or with `extra` 2 into the L1; a fault drops it
(R280). -/
def resumePref (s : State) (e : Event) : State :=
  let p := (getCore s e.core).part
  match descOf s e.core e.obj with
  | .error _ => s
  | .ok (d, s) => match (if e.extra = 1 then sliceLine s (dieOf e.core) p d e.off else readLine s e.core d e.off) with
    | .ok (_, s) => s
    | .error (.migrating _ a) => parkAt s p d a ⟨.sliceLoadRequest, e⟩
    | .error _ => s

/-- SLICE_LOAD_REQUEST of core `core` for the line of `obj` at `off`: the home slice serves or fills the line, and records a sharer
of its own die. With `flag` the request comes through a guest slice; with `extra` it is a prefetch that goes on. In the safe state no memory
answers (R400). -/
def execSliceLoadRequest (s : State) : Out :=
  let e := s.ev
  let stop := fun (s : State) (x : MemErr) => faultAnswer s { e with aux := [0, 0] } ⟨.sliceLoadRequest, e⟩ x
  .next (if s.boot.safe then s else if e.extra ≠ 0 then resumePref s e else match descOf s e.core e.obj with
    | .error x => stop s x
    | .ok (d, s) =>
      match homeLine s (getCore s e.core).part d e.off with
      | .error x => stop s x
      | .ok (l, s) =>
        let here := homeDie d e.off == dieOf e.core && !e.flag && e.obj != 1
        let s := if here then updateLine s (homeDie d e.off) (homeSlice e.obj e.off) { l with sharers := insertNat l.sharers e.core } else s
        pushDue s [replyStep s e d l])

/-- GUEST_SLICE_REQUEST: the slice of the issuing die with the line's slice number hits a guest line, or forwards the request to the
home slice. -/
def execGuestSliceRequest (s : State) : Out :=
  let e := s.ev
  .next (match descOf s e.core e.obj with
    | .error x => faultAnswer s { e with aux := [0, 0] } ⟨.guestSliceRequest, e⟩ x
    | .ok (d, s) =>
      let die := dieOf e.core
      if homeDie d e.off = die then pushDue s [⟨.sliceLoadRequest, { e with flag := false }⟩]
      else match probe s die (homeSlice e.obj e.off) (getCore s e.core).part d (e.off / 128) with
        | (some l, s) =>
          pushDue (updateLine s die (homeSlice e.obj e.off) { l with sharers := insertNat l.sharers e.core })
            [⟨.lineReply, { e with bytes := lineBytes l, flag := false, aux := lineInfo s e.core l }⟩]
        | (none, s) => pushDue s [⟨.sliceLoadRequest, { e with flag := true }⟩])

/-- LINE_REPLY: the line reaches core `core`, whose L1 takes it from the slice of its die if the core is still its sharer; with
`flag` the reply comes from another die and fills a guest line on the way, but for a pool line, or one that an epoch step has
overtaken (R66, R67). `value` is the request tag, answered now (R404). -/
def execLineReply (s : State) : Out :=
  let e := s.ev
  let s := if e.value = 0 then s else setCore s e.core { getCore s e.core with asked := eraseKey (getCore s e.core).asked e.value }
  let info := fun (i : Nat) => e.aux.getD i 0
  .next (match descOf s e.core e.obj with
    | .error _ => s
    | .ok (d, s) =>
      let p := (getCore s e.core).part
      let z := homeSlice e.obj e.off
      let die := dieOf e.core
      let mine := fun (l : Line) => l.part == p && l.obj == e.obj && l.index == e.off / 128
      if !e.flag then
        match (getSlice s die z).lines.find? (fun l => mine l && l.sharers.contains e.core) with
        | some l => fillL1 s e.core l
        | none => s
      else if info 2 = 1 || homeDie d e.off == die || info 4 != (getDie s die).epoch then s
      else
        let s := (probe s die z p d (e.off / 128)).2
        if (getSlice s die z).lines.any mine then s
        else
          let zero := info 1 == 1
          let g : Line := ⟨p, 0, e.obj, e.off / 128, info 3 == 1, true, info 4, zero, false, false, false, BitVec.ofNat 8 (info 0),
            dropsOf (e.aux.drop 5), [e.core], false, if zero then [] else e.bytes⟩
          fillL1 (insertLine s die z g) e.core g)

/-- PAGE_FAULT_RESPONSE: the fault of lane `len` reaches the issuing group `unit`, which takes it: class `extra` (7 for a page
fault), code `value`, KIND and map in `aux`. -/
def execPageFaultResponse (s : State) : Out :=
  let e := s.ev
  .next (pushDue s [⟨.trapTake, { core := e.core, unit := e.unit, value := e.extra, extra := e.value, obj := e.obj, off := e.off,
                                  len := e.len, aux := e.aux }⟩])

/-! ### Stores (R64, R404) -/

/-- SLICE_STORE of group `unit` of core `core`: `bytes` within one line of `obj` at `off`; the slice writes the line, and every other
sharer loses it. A request tag `value` that has been applied already is only answered again. With `flag` it is a write of the hardware
in partition `extra` that was parked at a migrating page (R40). -/
def execSliceStore (s : State) : Out :=
  let e := s.ev
  let k := getCore s e.core
  let bs := e.bytes.take (128 - e.off % 128)
  let stop := fun (s : State) (x : MemErr) => faultAnswer s { e with aux := [1, 0] } ⟨.sliceStore, e⟩ x
  .next (if e.flag then hwWrite s e.extra e.obj e.off e.bytes
    else if hasKey k.outcomes e.value then pushDue s [⟨.storeAck, e⟩]
    else match descOf s e.core e.obj with
      | .error x => stop s x
      | .ok (d, s) =>
        match storeLineBy (storerOf s e.core e.unit) s k.part (some e.core) d e.off bs false with
        | .error x => stop s x
        | .ok s =>
          let q := getCore s e.core
          pushDue (setCore s e.core { q with outcomes := insertKey q.outcomes e.value 0 }) [⟨.storeAck, e⟩])

/-- L1_INVALIDATE: an invalidation reaches the L1 of core `core`, which drops its copy and answers; a pin outlasts it (R70). -/
def execL1Invalidate (s : State) : Out :=
  let e := s.ev
  .next (dropSharer (invalL1 s [e.core] e.obj (e.off / 128)) e.core e.obj (e.off / 128))

/-- STORE_ACK: the acknowledgement reaches the storing core: its own L1 copy takes the bytes (R64), and neither the request nor the
outcome of its tag is kept any more. -/
def execStoreAck (s : State) : Out :=
  let e := s.ev
  let k := getCore s e.core
  let s := setCore s e.core { k with outcomes := eraseKey k.outcomes e.value, asked := eraseKey k.asked e.value }
  .next (match descOf s e.core e.obj with
    | .error _ => s
    | .ok (d, s) => if e.bytes.isEmpty then s else ackL1 s e.core k.part d e.off (e.bytes.take (128 - e.off % 128)) false)

/-! ### Ports and walks (R33, R35, R60) -/

/-- PORT_WRITE_BACK of slice `unit` of a die: the dirty line of `obj` at `off` is written to its frame, whose row stays open from
now. -/
def execPortWriteBack (s : State) : Out :=
  let e := s.ev
  .next (match (getSlice s e.die e.unit).lines.find? (fun l => l.obj == e.obj && l.index == e.off / 128 && !l.guest && l.dirty) with
    | none => s
    | some l => writeBack (updateLine s e.die e.unit { l with dirty := false }) e.die e.unit l)

/-- The page of an event's request, as walks tell them apart. -/
def samePage (s : State) (p : Nat) (w : Walk) (e : Event) : Bool :=
  let pg4m := (tableNat s (entryAddr s p e.obj) 8).testBit 55
  w.part == p && w.obj == e.obj && w.shadow == e.flag && pageOf pg4m w.off == pageOf pg4m e.off

/-- MAPGEN of an object, as a walk reads it. -/
def mapgenOf (s : State) (p obj : Nat) : Nat := tableNat s (entryAddr s p obj + 8) 8 / 2 ^ 48

/-- A miss at a port joins the walk of its page, starts one if fewer than eight run, or waits for a free walker (R35). -/
def askWalk (s : State) (z : Slice) (e : Event) : Slice :=
  let p := (getCore s e.core).part
  if z.walks.any (fun w => samePage s p w e) then
    { z with walks := z.walks.map (fun w => if samePage s p w e then { w with asking := w.asking ++ [e] } else w) }
  else if 8 ≤ z.walks.length then { z with missed := z.missed ++ [e] }
  else { z with walks := z.walks ++ [⟨p, e.obj, e.off, e.flag, mapgenOf s p e.obj, false, [e]⟩] }

/-- PORT_EXTENT_MISS at slice `unit` of a die, of lane `len` of group `value` of core `core`, an access of KIND `extra`, in the shadow
map by `flag`. -/
def execPortExtentMiss (s : State) : Out :=
  let e := s.ev
  .next (setSlice s e.die e.unit (askWalk s (getSlice s e.die e.unit) e))

/-- The result of a walk for one of the requests that waited for it: a fault goes to the request's own group; a migrating page parks
the request, which walks again after an extinv (R35, R40). -/
def answerWalk (x : MemErr) (s : State) (r : Event) : State :=
  faultAnswer s { core := r.core, unit := r.value, obj := r.obj, off := r.off, len := r.len, aux := [r.extra, bitNat r.flag] }
    ⟨.portExtentMiss, r⟩ x

/-- WALK_COMPLETE: the walk of a page ends: it restarts if it is stale or MAPGEN has changed, else it fills, faults or parks for every
request that waited for it, and misses that waited for a walker go on. -/
def execWalkComplete (s : State) : Out :=
  let e := s.ev
  let p := (getCore s e.core).part
  let z := getSlice s e.die e.unit
  .next (match z.walks.find? (fun w => samePage s p w e) with
    | none => s
    | some w =>
      let gen := mapgenOf s p e.obj
      if w.stale || w.mapgen ≠ gen then
        pushDue (setSlice s e.die e.unit { z with walks := z.walks.map (fun x => if x == w then { x with stale := false, mapgen := gen } else x) })
          [⟨.walkComplete, e⟩]
      else
        let z := { z with walks := z.walks.filter (· != w), missed := [] }
        let s := setSlice s e.die e.unit ((getSlice s e.die e.unit).missed.foldl (askWalk s) z)
        match readEntry s p e.obj with
        | none => w.asking.foldl (answerWalk (.cap 0x09)) s
        | some d => match translate s e.die e.unit p d e.flag e.off with
          | .ok (_, s) => s
          | .error x => w.asking.foldl (answerWalk x) s)

/-! ### Shoot-downs (R36, R67) -/

/-- SHOOTDOWN_RECEIVE: the invalidation of `obj` in partition `value` reaches slice `unit` of a die and its hub, or with `flag` core
`unit`, which drops what it holds and acknowledges to core `core`; requests parked on the object go on (R40). -/
def execShootdownReceive (s : State) : Out :=
  let e := s.ev
  let ack : List Due := [⟨.shootdownAck, { core := e.core }⟩]
  .next (if e.flag then pushDue (setCore s e.unit (shootCore e.obj (getCore s e.unit))) ack
    else
      let z := getSlice s e.die e.unit
      let s := setSlice s e.die e.unit (shootSlice e.value e.obj z)
      pushDue (setDie s e.die (shootHub e.value e.obj (getDie s e.die))) (released e.value e.obj z ++ ack))

/-- SHOOTDOWN_ACK: one acknowledgement more reaches core `core`; the last one completes its shoot-downs. -/
def execShootdownAck (s : State) : Out :=
  let k := getCore s s.ev.core
  .next (setCore s s.ev.core { k with shoot := k.shoot - 1 })

/-- GUEST_EPOCH_STEP_DONE of a die: the epoch advances; on the wrap every guest line of the die goes (R67). -/
def execGuestEpochStepDone (s : State) : Out := .next (epochStep s s.ev.die)

/-! ### Atomic units (R77, R78) -/

/-- Grant a free entry of a slice to the next core that has reserved one, round robin after the last. -/
def grantNext (clock : Nat) (z : Slice) : Slice :=
  if 64 ≤ z.queue.length + z.granted.length then z
  else
    match (match z.reserved.find? (fun c => decide (z.lastCore < c)) with | some c => some c | none => z.reserved.head?) with
    | none => z
    | some c => { z with granted := z.granted ++ [(c, clock + 128)], lastCore := c, reserved := z.reserved.filter (· != c) }

/-- A group of a core runs a launch in record or replay mode, whose operations do not merge (R375). -/
def logsOps (s : State) (c group : Nat) : Bool := replayMode (getLaunch s (getGroup s c group).launch) != 0

/-- Operations on one key that may merge: the eight of ared, of one tenant's object (R78). -/
def mayMerge (a : AtomicReq) (m : MergeEntry) : Bool :=
  a.part == m.req.part && a.obj == m.req.obj && a.off == m.req.off && a.width == m.req.width && a.op == m.req.op && decide (a.op < 8)
    && !a.logged && !m.req.logged

/-- A merge entry at the input of a slice's atomic unit. -/
def atUnit (z : Nat) (m : MergeEntry) : Bool := m.stop == sliceStop z && m.via.isNone

/-- The step by which a request asks its unit again. -/
def askUnit (d z : Nat) (a : AtomicReq) : Due :=
  ⟨.atomicUnitRequest, { die := d, unit := z, core := a.core, obj := a.obj, off := a.off, len := a.width, value := a.op,
                         extra := a.value, aux := a.group :: a.tag :: a.taken.flatMap (fun x => [x.1, x.2.1, x.2.2]) }⟩

/-- The triples of a flat list. -/
def triples : List Nat → List (Nat × Nat × Nat)
  | x :: y :: z :: r => (x, y, z) :: triples r
  | _ => []

/-- The requests that a request stands for, its own first: core, group, tag. -/
def contributors (a : AtomicReq) : List (Nat × Nat × Nat) := (a.core, a.group, a.tag) :: a.taken

/-- A request that has been applied is answered with its outcome, the old value, which is kept for each tag until its source acknowledges
(R404). -/
def answerAtomic (s : State) (a : AtomicReq) (v : Nat) : State :=
  (contributors a).foldl (fun s x =>
    if x.2.2 = 0 then s
    else
      let k := getCore s x.1
      pushDue (setCore s x.1 { k with outcomes := insertKey k.outcomes x.2.2 v })
        [⟨.storeAck, { core := x.1, unit := x.2.1, obj := a.obj, off := a.off, value := x.2.2, extra := v }⟩]) s

/-- A request that fails: every contributor takes its fault; at a migrating page the one request parks. -/
def failAtomic (s : State) (d : Desc) (a : AtomicReq) (x : MemErr) : State :=
  let again := askUnit (homeDie d a.off) (homeSlice a.obj a.off) a
  let asks := match x with
    | .migrating .. => (contributors a).take 1
    | _ => contributors a
  asks.foldl (fun s r => faultAnswer s { core := r.1, unit := r.2.1, obj := a.obj, off := a.off, aux := [2, 0] } again x) s

/-- Apply a request at the home slice, for itself and for those that merged into it. -/
def applyAtomic (s : State) (a : AtomicReq) : State :=
  match readEntry s a.part a.obj with
  | none => s
  | some d =>
    let w : Write := ⟨0, a.obj, a.off, a.width, 4, a.op, leBytes a.width a.value, false⟩
    let t := a.taken.foldl (fun s x => dropGuest s x.1 a.part d a.off) s
    match modifyLineBy (storerOf s a.core a.group) t a.core a.part d a.off a.width (fun old => leBytes a.width (reduceOp w (leNat old))) with
    | .ok (old, s) => answerAtomic s a (leNat old)
    | .error x => failAtomic s d a x

/-- The unit executes its next request: of the head of its queue and the requests held at its input, the one that arrived first. -/
def runAtomic (s : State) (d z : Nat) : State :=
  let k := getSlice s d z
  let g := getDie s d
  let held := leastBy (fun (x y : MergeEntry) => decide (x.req.order < y.req.order)) (g.merges.filter (atUnit z))
  let unhold := fun (m : MergeEntry) => applyAtomic (setDie s d { g with merges := g.merges.erase m }) m.req
  match k.queue, held with
  | [], none => s
  | [], some m => unhold m
  | a :: r, none => applyAtomic (setSlice s d z (grantNext s.clock { k with queue := r })) a
  | a :: r, some m =>
    if m.req.order < a.order then unhold m else applyAtomic (setSlice s d z (grantNext s.clock { k with queue := r })) a

/-- Requests that wait at a slice. -/
def atomicWaits (s : State) (d z : Nat) : Bool := !(getSlice s d z).queue.isEmpty || (getDie s d).merges.any (atUnit z)

/-- A reduction that reaches a stop combines into an entry of its key there. -/
def combineAt (g : Die) (stop : Nat) (a : AtomicReq) : Option Die :=
  (g.merges.find? (fun m => m.stop == stop && mayMerge a m)).map (fun m =>
    let v := aredOp (8 * a.width) a.op m.req.value a.value
    let r := { m.req with
      value := v
      taken := m.req.taken ++ contributors a }
    { g with merges := g.merges.map (fun x => if x == m then { x with req := r } else x) })

/-- A waiting reduction combines with one of its key at a stop, or is held in a free merge entry of 16; none where neither is so. -/
def mergeAt (g : Die) (stop : Nat) (a : AtomicReq) (via : Option Flit) : Option Die :=
  if 8 ≤ a.op then none
  else match combineAt g stop a with
    | some g => some g
    | none => if (g.merges.filter (fun m => m.stop == stop)).length < 16 then
        some { g with merges := g.merges ++ [⟨stop, a, via⟩] } else none

/-- ATOMIC_UNIT_REQUEST of core `core` at slice `unit` of a die: operation `value` of `len` bytes at `off` of `obj` with operand
`extra`, of the group and with the request tag in `aux` and the requests merged into it after them, is executed, queued,
merged, refused, or answered from the outcome of its tag. With `flag` the unit executes its next request. -/
def execAtomicUnitRequest (s : State) : Out :=
  let e := s.ev
  let z := getSlice s e.die e.unit
  let k := getCore s e.core
  let a : AtomicReq := ⟨e.core, e.aux.getD 0 0, e.aux.getD 1 0, k.part, z.arrivals, e.obj, e.off, if e.len = 8 then 8 else 4, e.value, e.extra,
    triples (e.aux.drop 2), logsOps s e.core (e.aux.getD 0 0)⟩
  let again : Due := ⟨.atomicUnitRequest, { die := e.die, unit := e.unit, flag := true }⟩
  let here := setSlice s e.die e.unit { z with arrivals := z.arrivals + 1 }
  .next (if e.flag then
      let s := runAtomic s e.die e.unit
      if atomicWaits s e.die e.unit then pushDue s [again] else s
    else if a.tag ≠ 0 && hasKey k.outcomes a.tag then answerAtomic s a (lookup k.outcomes a.tag 0)
    else match combineAt (getDie here e.die) (sliceStop e.unit) a with
    | some g => setDie here e.die g
    | none =>
      if z.granted.any (fun x => x.1 == e.core) then
        pushDue (setSlice here e.die e.unit
          { getSlice here e.die e.unit with granted := z.granted.filter (fun x => x.1 != e.core), queue := z.queue ++ [a] }) [again]
      else if !z.reserved.isEmpty || decide (64 ≤ z.queue.length + z.granted.length) then
        setSlice s e.die e.unit (grantNext s.clock { z with reserved := insertNat z.reserved e.core })
      else if !atomicWaits s e.die e.unit then applyAtomic here a
      else match mergeAt (getDie here e.die) (sliceStop e.unit) a none with
        | some g => pushDue (setDie here e.die g) [again]
        | none => pushDue (setSlice here e.die e.unit { getSlice here e.die e.unit with queue := z.queue ++ [a] }) [again])

/-- ATOMIC_GRANT_LAPSE at slice `unit` of a die: granted entries whose cores have not come back for 128 clocks are released, and each goes to
the next core that has reserved one. -/
def execAtomicGrantLapse (s : State) : Out :=
  let e := s.ev
  let z := getSlice s e.die e.unit
  let lapsed := z.granted.filter (fun x => decide (x.2 ≤ s.clock))
  .next (if lapsed.isEmpty then s
    else setSlice s e.die e.unit (lapsed.foldl (fun z _ => grantNext s.clock z)
      { z with granted := z.granted.filter (fun x => !decide (x.2 ≤ s.clock)) }))

/-! ### Time-outs and maintenance (R81, R404, R405) -/

/-- How long a request waits for its answer (R404). -/
def askLimit (a : Asked) : Nat := if a.pool then 4194304 else 65536

/-- A request that is unanswered for a second time-out: machine check 0x02 for its group; a channel's copy, or the operation that a
sequencer runs, ends as on a machine check (R102, R404). -/
def askFails (s : State) (c : Nat) (a : Asked) : State :=
  match a.src with
  | 1 => stopCopy s c a.unit (.poison a.obj a.off 2)
  | 2 => (match (getTeam s c a.unit).ops with
    | [] => s
    | op :: _ => popOp (engineCheck (failOp s op 0x06) op.core op.group a.obj a.off 2) c a.unit op)
  | _ => pushDue s [⟨.trapTake, { core := c, unit := a.unit, value := 1, extra := 2, obj := a.obj, off := a.off, len := a.lane }⟩]

/-- REQUEST_RETRY_TIMEOUT of core `core`: the request of tag `extra`, if it has been unanswered for its time-out, is sent once more; unanswered
for another, it fails (R404). -/
def execRequestRetryTimeout (s : State) : Out :=
  let e := s.ev
  let k := getCore s e.core
  .next (match find? k.asked e.extra with
    | none => s
    | some a =>
      if s.clock < a.since + askLimit a then s
      else if a.tries = 0 then
        pushDue (setCore s e.core { k with asked := insertKey k.asked e.extra { a with tries := 1, since := s.clock } }) [a.again]
      else askFails (setCore s e.core { k with asked := eraseKey k.asked e.extra }) e.core a)

/-- HBM_ROW_IDLE_CLOSE: bank `unit` of a die closes its row after 2,048 clocks without an access. -/
def execHbmRowIdleClose (s : State) : Out :=
  let d := getDie s s.ev.die
  .next (match find? d.rows s.ev.unit with
    | some r => if r.2 + 2048 ≤ s.clock then setDie s s.ev.die { d with rows := eraseKey d.rows s.ev.unit } else s
    | none => s)

/-- HBM_REFRESH: a refresh closes the open row of bank `unit` of a die. -/
def execHbmRefresh (s : State) : Out :=
  let d := getDie s s.ev.die
  .next (setDie s s.ev.die { d with rows := eraseKey d.rows s.ev.unit })

/-- A tag or sharer vector of a slice holds an uncorrectable error: the line counts as dirty, leaves the slice, is poisoned at its home,
and the die's firmware core takes a machine check (R71). -/
def tagError (s : State) (d z : Nat) (l : Line) : State :=
  let s := removeLine s d z { l with pinned := l.pinned && !l.guest }
  let k := getDie s d
  let s := setDie s d { k with checks := k.checks ++ [(z, l.obj, l.index)] }
  match readEntry s l.part l.obj with
  | none => s
  | some e =>
    let h := homeDie e (128 * l.index)
    let zh := homeSlice l.obj (128 * l.index)
    match (getSlice s h zh).lines.find? (fun m => m.part == l.part && m.obj == l.obj && m.index == l.index && !m.guest) with
    | some m => updateLine s h zh { m with bad := true, dirty := true }
    | none => writeBack s h zh { l with guest := false, bad := true, dirty := true }

/-- PATROL_SCRUB of HBM line `value`: corrected in place, or with `flag` uncorrectable and written back poisoned. With `extra` it is
a soft error of an SRAM that a read finds, corrected too, or with `flag` uncorrectable (R71; entry 54): 1 scratchpad word `value` of
core `core`; 2 the line of `obj` at `off` in its L1; 3 and 4 that line in slice `unit` of a die, its data or its tag; 5 lane
`off` of register name `value` of its group `unit`. -/
def execPatrolScrub (s : State) : Out :=
  let e := s.ev
  let k := getCore s e.core
  let mine := fun (obj index : Nat) => obj == e.obj && index == e.off / 128
  .next (if !e.flag then s
    else match e.extra with
      | 0 => if e.value < 2 ^ 34 then { s with poison := insertNat s.poison e.value } else s
      | 1 => setCore s e.core { k with badWords := insertNat k.badWords e.value }
      | 2 => setCore s e.core { k with l1 := k.l1.map (fun m => if mine m.obj m.index && m.valid then { m with bad := true } else m) }
      | 3 => setSlice s e.die e.unit (mapLines (getSlice s e.die e.unit) (fun l => mine l.obj l.index) (fun l => { l with bad := true }))
      | 4 => (match (getSlice s e.die e.unit).lines.find? (fun l => mine l.obj l.index) with
        | some l => tagError s e.die e.unit l
        | none => s)
      | 6 =>
        let g := getGroup s e.core e.unit
        if g.resident && e.value < 8 && e.off < 32 then
          setGroup s e.core e.unit { g with regs := { g.regs with bad := insertNat g.regs.bad (reedKey e.value e.off) } }
        else s
      | _ =>
        let g := getGroup s e.core e.unit
        if g.resident && hasKey g.regs.lanes (8 * e.value + e.off / 4) then
          setGroup s e.core e.unit { g with regs := { g.regs with bad := insertNat g.regs.bad (4 * (8 * e.value + e.off / 4) + e.off % 4) } }
        else s)

/-! ### The pool (R45) -/

/-- The reverse-map entry of a pool frame, through the 1,024 that the hub of a die keeps, least recently used first (R45). -/
def reverseEntry (s : State) (die p frame : Nat) : Nat × State :=
  let k := getDie s die
  let hit := k.reverse.find? (fun r => r.1 == p && r.2.1 == frame)
  let v := match hit with
    | some r => r.2.2
    | none => tableNat s ((getPart s p).prmbase.toNat % 2 ^ 29 * 4096 + 8 * frame) 8
  let rest := k.reverse.filter (fun r => !(r.1 == p && r.2.1 == frame))
  (v, setDie s die { k with reverse := (if rest.length ≥ 1024 then rest.drop 1 else rest) ++ [(p, frame, v)] })

/-- BACK_INVALIDATE_SNOOP of pool address `off` in partition `unit`, at the hub of a die: mapped through the reverse map and forwarded
to the home slice, which writes the line back if it is dirty and invalidates it; otherwise a miss. -/
def execBackInvalidateSnoop (s : State) : Out :=
  let e := s.ev
  let p := getPart s e.unit
  let frame := e.off / 2 ^ 16
  .next (if p.prmlen.toNat % 2 ^ 28 ≤ frame || !tableOk s e.unit (p.prmbase.toNat % 2 ^ 29 * 4096 + 8 * frame) then s
    else
      let (r, s) := reverseEntry s e.die e.unit frame
      let obj := r / 2 ^ 32
      let off := r % 2 ^ 28 * 2 ^ 16 + e.off % 2 ^ 16
      match readEntry s e.unit obj with
      | none => s
      | some d =>
        match (getSlice s (homeDie d off) (homeSlice obj off)).lines.find? (fun l =>
            l.part == e.unit && l.obj == obj && l.index == off / 128 && !l.guest && l.pool) with
        | none => s
        | some l => evictLine s (homeDie d off) (homeSlice obj off) l)

/-- CXL_PORT_DOWN: port `value` of the 16 is down, and requests by it complete poisoned; with `flag` a device returned poison to a
request of group `unit` of core `core`. -/
def execCxlPortDown (s : State) : Out :=
  let e := s.ev
  .next (if e.flag then
      pushDue s [⟨.trapTake, { core := e.core, unit := e.unit, value := 1, extra := 3, obj := e.obj, off := e.off, len := e.len }⟩]
    else if e.value < 16 then { s with linksDown := insertNat s.linksDown e.value } else s)

end Sys2Proof.Machine
end

