-- ==== Sys2Proof/Machine/Loops.lean ====
section
/-!
DEFINITION. The spar loops and die links (spec/03 R72 to R80): routes, the hop of a flit, its injection, ejection and crossing
to the next die, reductions merged at a stop, circuits, and link errors (spec/19 R404). An instruction's own access does
not wait for its flits (entry 4): these steps move flits that are given to the loops.
-/

namespace Sys2Proof.Machine

/-! ### Routes (R72, R73, R79) -/

/-- The pairs of row groups, each with its two loops. -/
def loopPairs : List (Nat × Nat) := [(0, 1), (0, 2), (0, 3), (1, 2), (1, 3), (2, 3)]

/-- The pair that a packet between stops of two row groups takes. -/
def pairOf (gx gy : Nat) : Nat × Nat :=
  let h := if gx = gy then (gx + 1) % 4 else gy
  (Nat.min gx h, Nat.max gx h)

/-- Position of a stop on the loops of a pair. -/
def positionOn (pair : Nat × Nat) (stop : Nat) : Nat :=
  let r := stop / 8
  let c := stop % 8
  (if r / 2 = pair.1 then 0 else 16) + (if r % 2 = 0 then c else 8 + (7 - c))

/-- The stop at a position of a pair's loops. -/
def stopAt (pair : Nat × Nat) (pos : Nat) : Nat :=
  let g := if pos < 16 then pair.1 else pair.2
  let i := pos % 16
  if i < 8 then 8 * (2 * g) + i else 8 * (2 * g + 1) + (15 - i)

/-- A route on one die: the loop (2 × pair + 1 for L−), the first position and the last. -/
structure Route where
  loop : Nat
  pos  : Nat
  last : Nat
deriving DecidableEq, Repr

/-- The route from one stop to another (R73). -/
def routeOf (x y : Nat) : Route :=
  let pair := pairOf (x / 16) (y / 16)
  let px := positionOn pair x
  let py := positionOn pair y
  let i := loopPairs.findIdx (· == pair)
  ⟨if (py + 32 - px) % 32 ≤ (px + 32 - py) % 32 then 2 * i else 2 * i + 1, px, py⟩

/-- The next position on a loop. -/
def nextPosition (loop pos : Nat) : Nat := if loop % 2 = 0 then (pos + 1) % 32 else (pos + 31) % 32

/-! ### Stops (R4, Table 0-2) -/

/-- What stands at a stop of a die. -/
inductive StopUnit where
  | core (local_ : Nat)
  | slice (number : Nat)
  | westEave
  | eastEave
  | verticalEave
  | trace
  /-- IO0 hub: the CXL ports, and an NVMe port on D0, D3, D4 and D7. -/
  | io0
  /-- IO1 hub: the Ultra Ethernet port. -/
  | io1
  | firmware
  /-- Management controller; on D0 also the finial ROM and the root of trust. -/
  | management
deriving DecidableEq, Repr

/-- The unit at a stop. -/
def stopUnit (stop : Nat) : StopUnit :=
  let row := stop / 8 % 8
  let col := stop % 8
  if col < 5 then .core (5 * row + col)
  else if col < 7 then .slice (2 * row + (col - 5))
  else match row with
    | 0 => .westEave
    | 1 => .eastEave
    | 2 => .verticalEave
    | 3 => .trace
    | 4 => .io0
    | 5 => .io1
    | 6 => .firmware
    | _ => .management

/-- The stop of a unit. -/
def stopOf : StopUnit → Nat
  | .core k => 8 * (k / 5) + k % 5
  | .slice z => sliceStop z
  | .westEave => 7
  | .eastEave => 15
  | .verticalEave => 23
  | .trace => 31
  | .io0 => 39
  | .io1 => 47
  | .firmware => 55
  | .management => 63

/-- The dies with an NVMe port. -/
def hasNvme (d : Nat) : Bool := [0, 3, 4, 7].contains d

/-- Where a packet leaves a die on its way to a stop of another die, or that stop itself (R79). -/
def segmentEnd (d destDie dest : Nat) : Nat :=
  if d = destDie then dest
  else if d % 4 < destDie % 4 then stopOf .eastEave
  else if destDie % 4 < d % 4 then stopOf .westEave
  else stopOf .verticalEave

/-- A stop of a die is an eave stop with a die on its other side; one without is idle (Table 0-2). -/
def hasNeighbour (d stop : Nat) : Bool :=
  match stopUnit stop with
  | .eastEave => decide (d % 4 < 3)
  | .westEave => decide (0 < d % 4)
  | .verticalEave => true
  | _ => false

/-- The die and stop at which a packet arrives that leaves a die by an eave stop. -/
def crossing (d stop : Nat) : Nat × Nat :=
  match stopUnit stop with
  | .eastEave => (d + 1, stopOf .westEave)
  | .westEave => (d - 1, stopOf .eastEave)
  | _ => ((d + 4) % 8, stopOf .verticalEave)

/-! ### Flits (R74, R75) -/

/-- A flit waits at a stop of a die to start its segment there, from a clock on. -/
def enter (s : State) (d stop : Nat) (f : Flit) (since : Nat) : State :=
  let k := getDie s d
  let r := routeOf stop (segmentEnd d f.destDie f.dest)
  let phase := match f.circuit.bind (fun i => k.circuits.find? (fun c => c.id == i)) with
    | some c => c.phase
    | none => 0
  let g := { f with
    loop := r.loop
    position := r.pos
    target := r.last
    onLoop := false
    since := since
    phase := phase }
  setDie s d { k with flits := k.flits ++ [g] }

/-- A dropped header is counted at the sending stop's link (R83, R404). -/
def chargeDrop (s : State) (f : Flit) : State :=
  let k := getDie s f.srcDie
  setDie s f.srcDie { k with linkDrop := insertKey k.linkDrop f.src (Nat.min (lookup k.linkDrop f.src 0 + 1) 0xFFFF) }

/-- The links of a hub of a die. -/
def hubLinks (d : Nat) (io1 : Bool) : List Nat :=
  if io1 then [24 + d] else [2 * d, 2 * d + 1] ++ (if hasNvme d then [16 + d] else [])

/-- A hub's ports belong to other partitions than `p`. -/
def hubForeign (s : State) (d p : Nat) (io1 : Bool) : Bool :=
  let owns := fun (q : Partition) => (hubLinks d io1).any q.ports.contains
  s.partitions.any (fun e => owns e.2) && !owns (getPart s p)

/-- The context of a flit names another partition than that of the resource at its stop: a core, the firmware core or a hub's ports
(R401). A slice serves every partition, each within its own HBM ranges. -/
def foreign (s : State) (d : Nat) (f : Flit) : Bool :=
  match stopUnit f.dest with
  | .core r => (getCore s (Config.coresPerDie * d + r)).part != f.part
  | .firmware => fwPart s d != f.part
  | .io0 => hubForeign s d f.part false
  | .io1 => hubForeign s d f.part true
  | _ => false

/-- What a flit brings to its stop: a reduction to the atomic unit of a slice, a line read request or a store to the slice, a reply to a
core (R74). -/
def arrival (d : Nat) (f : Flit) : List Due :=
  match f.red, f.kind, stopUnit f.dest with
  | some a, _, .slice z => [askUnit d z a]
  | none, 2, .slice _ => [⟨.sliceLoadRequest, { core := f.core, unit := f.group, obj := f.obj, off := f.off, value := f.id + 1,
                                                flag := f.srcDie != d, aux := [f.tag] }⟩]
  | none, 3, .core _ => [⟨.lineReply, { core := f.core, unit := f.group, obj := f.obj, off := f.off, bytes := f.payload, value := f.tag,
                                        flag := f.srcDie != d, aux := f.info }⟩]
  | none, 4, .slice _ => [⟨.sliceStore, { core := f.core, unit := f.group, obj := f.obj, off := f.off, bytes := f.payload, value := f.tag }⟩]
  | _, _, _ => []

/-- A flit has reached its stop: it is dropped there and charged if it is foreign (R401). -/
def deliver (s : State) (d : Nat) (f : Flit) : State :=
  if foreign s d f then chargeDrop s f else pushDue s (arrival d f)

/-- A flit ends its segment: it is delivered, or crosses to the next die in 12 clocks, where circuits end (R76, R79), and not before an earlier
flit of its source and destination (R80). -/
def leave (s : State) (d : Nat) (f : Flit) : State :=
  if d = f.destDie then deliver s d f
  else
    let x := crossing d (segmentEnd d f.destDie f.dest)
    let pair := fun (g : Flit) => !g.onLoop && g.srcDie == f.srcDie && g.src == f.src && g.destDie == f.destDie && g.dest == f.dest
    let before := ((getDie s x.1).flits.filter pair).map (·.since)
    enter s x.1 x.2 { f with circuit := none } (before.foldl Nat.max (s.clock + 12))

/-- Key of a position of a loop, in the maps of a die. -/
def placeKey (f : Flit) : Nat := 32 * f.loop + f.position

/-- Flits in the buffers of a position of a loop. -/
def buffered (k : Die) (loop pos : Nat) : Nat :=
  (k.flits.filter (fun f => f.onLoop && f.circuit.isNone && f.loop == loop && f.position == pos)).length

/-- What a flit's hop does: it stays, it moves or enters its loop, it goes into the ejection buffer, or its segment ends. -/
inductive Hop where
  | stay
  | move (f : Flit)
  | eject
  | out
deriving DecidableEq, Repr

/-- A clock of a circuit's phase at a position: a phase is the even or the odd clocks on a link, and as a circuit's flits take one clock for
each hop, those of the next link are the other ones (R76; entry 42). -/
def inPhase (clock : Nat) (f : Flit) : Bool := (clock + f.position) % 2 == f.phase

/-- A flit has entered the loop at this position in this clock. -/
def enteredNow (clock : Nat) (k : Die) (f : Flit) : Bool := lookup k.enterUse (32 * f.loop + f.position) 0 == clock + 1

/-- The stop at which a flit stands. -/
def flitStop (f : Flit) : Nat := stopAt (loopPairs.getD (f.loop / 2) (0, 1)) f.position

/-- The flit stands at an eave stop. -/
def atEave (f : Flit) : Bool :=
  match stopUnit (flitStop f) with | .westEave | .eastEave | .verticalEave => true | _ => false

/-- The hop of a flit to the next stop of its loop: over a link that carries one flit per clock, into a free buffer, but not past
a stop that asked for an empty clock; a circuit flit needs no buffer, but a clock of its phase. -/
def advanceHop (clock : Nat) (k : Die) (f : Flit) : Hop :=
  let n := nextPosition f.loop f.position
  let free := decide (buffered k f.loop n < 4) && !k.yields.contains (32 * f.loop + n)
  if lookup k.linkUse (placeKey f) 0 ≠ clock + 1 && (if f.circuit.isSome then inPhase clock f else free) then .move { f with position := n } else .stay

/-- The hop of a flit on its die (R75, R76): a new flit needs two free buffers, a circuit flit a clock of its phase, which takes one flit; of
an eave stop one flit enters a loop each clock (R80). At its stop a flit goes into an ejection buffer of 8, one each clock, or round again. A segment of no hops ends at once. -/
def hopOf (clock : Nat) (k : Die) (f : Flit) : Hop :=
  if !f.onLoop then
    let room := if f.circuit.isSome then inPhase clock f && !enteredNow clock k f
      else decide (buffered k f.loop f.position ≤ 2) && !(atEave f && enteredNow clock k f)
    if clock < f.since then .stay
    else if f.position = f.target then .out
    else if room then .move { f with onLoop := true }
    else .stay
  else if f.position ≠ f.target then advanceHop clock k f
  else if f.circuit.isSome then .out
  else if 8 ≤ (lookup k.ejects (placeKey f) []).length then advanceHop clock k f
  else if lookup k.ejectUse (placeKey f) 0 = clock + 1 then .stay
  else .eject

/-- A circuit flit enters its path: one fewer is left to the circuit, which ends with the last one (R76). -/
def useCircuit (clock : Nat) (k : Die) (f : Flit) : Die :=
  match f.circuit with
  | none => k
  | some id => if f.onLoop then k else
    { k with circuits := (k.circuits.filter (fun c => !(c.id == id && c.count ≤ 1))).map (fun c =>
        if c.id == id then { c with count := c.count - 1, idle := clock } else c) }

/-- A flit that stays where it is: a reduction may merge at its stop (R78). -/
def stayOrMerge (s : State) (d : Nat) (f : Flit) : State :=
  let k := getDie s d
  if s.clock < f.since then s
  else match f.red.bind (fun a => mergeAt { k with flits := k.flits.filter (fun g => g.id != f.id) } (flitStop f) a (some f)) with
    | some k => setDie s d k
    | none => s

/-- A flit moves to `g`: it uses the link, or enters its loop; a reduction that reaches the stop of an entry of its key combines into
it (R78). -/
def moveFlit (s : State) (d : Nat) (f g : Flit) : State :=
  let k := useCircuit s.clock (getDie s d) f
  let k := { k with
    flits := k.flits.map (fun x => if x.id == f.id then g else x)
    yields := if f.onLoop then k.yields else k.yields.filter (· != placeKey f)
    linkUse := if f.onLoop then insertKey k.linkUse (placeKey f) (s.clock + 1) else k.linkUse
    enterUse := if f.onLoop then k.enterUse else insertKey k.enterUse (placeKey f) (s.clock + 1) }
  let merged := g.red.bind (fun a => combineAt { k with flits := k.flits.filter (fun x => x.id != g.id) } (flitStop g) a)
  setDie s d (merged.getD k)

/-- One hop of a flit that stands in the die's list. -/
def hopFlit (s : State) (d : Nat) (f : Flit) : State :=
  let k := getDie s d
  let rest := k.flits.filter (fun x => x.id != f.id)
  match hopOf s.clock k f with
  | .stay => stayOrMerge s d f
  | .move g => moveFlit s d f g
  | .eject => setDie s d { k with
      flits := rest
      ejects := insertKey k.ejects (placeKey f) (lookup k.ejects (placeKey f) [] ++ [f])
      ejectUse := insertKey k.ejectUse (placeKey f) (s.clock + 1) }
  | .out => leave (setDie s d { k with flits := rest }) d f

/-- The oldest flit of an ejection buffer is taken out of it. -/
def takeEjected (s : State) (d key : Nat) : State :=
  let k := getDie s d
  match lookup k.ejects key [] with
  | [] => s
  | f :: r => leave (setDie s d { k with ejects := if r.isEmpty then eraseKey k.ejects key else insertKey k.ejects key r }) d f

/-- A merged reduction goes on when its flit can hop. -/
def hopMerged (s : State) (d : Nat) (m : MergeEntry) (f : Flit) : State :=
  let k := getDie s d
  let g := { f with
    red := some m.req
    payload := leBytes m.req.width m.req.value }
  match hopOf s.clock k g with
  | .stay => s
  | _ => hopFlit (setDie s d { k with
      merges := k.merges.erase m
      flits := k.flits ++ [g] }) d g

/-- A header whose tenant or context field cannot be corrected: the flit is dropped, merged or not, and its sending stop is charged
(R83, R404). -/
def dropHeader (s : State) (d : Nat) (f : Flit) : State :=
  let k := getDie s d
  let s := setDie s d { k with
    flits := k.flits.filter (fun x => x.id != f.id)
    merges := k.merges.filter (fun m => match m.via with | some g => g.id != f.id | none => true) }
  chargeDrop s f

/-- A flit of that identity is under way. -/
def underWay (s : State) (id : Nat) : Bool :=
  s.dies.any (fun e => e.2.flits.any (fun f => f.id == id) || e.2.ejects.any (fun x => x.2.any (fun f => f.id == id))
    || e.2.merges.any (fun m => match m.via with | some f => f.id == id | none => false))

/-- TENANT of an object, by its entry (R23). -/
def objectTenant (s : State) (p obj : Nat) : Nat := match readEntry s p obj with | some d => d.tenant | none => 0

/-- A packet that an event gives to the loops: of group `aux[0]` of core `core`, from stop `off` of die `die` to stop `extra` of die
`value`, with `bytes` as payload; object, offset, operation, stream ordinal (one up), packet type, request tag and what goes with a reply or
says who asks follow in `aux`; on circuit `obj − 1` of that
die if `obj` is not 0 and the packet stays on the die. -/
def packetFlit (s : State) (e : Event) : Flit :=
  let x := fun (i : Nat) => e.aux.getD i 0
  let p := (getCore s e.core).part
  { id := e.unit, kind := x 5, tenant := objectTenant s p (x 1), part := p, core := e.core, group := x 0, obj := x 1, off := x 2,
    size := (e.bytes.take 128).length, op := x 3, ordinal := x 4, phase := 0, payload := e.bytes.take 128,
    loop := 0, position := 0, target := 0, srcDie := e.die, src := e.off % 64, destDie := e.value % 8, dest := e.extra % 64,
    onLoop := false, since := s.clock,
    circuit := if e.value % 8 = e.die && (getDie s e.die).circuits.any (fun c => c.id + 1 == e.obj) then some (e.obj - 1) else none,
    red := none, tag := x 6, info := e.aux.drop 7 }

/-- A reduction that an event gives to the loops: operation `value` of `len` bytes at `off` of `obj` with operand `extra`, of core
`core`, of the group and with the request tag in `aux`. -/
def reductionFlit (s : State) (e : Event) : Option Flit :=
  let w := if e.len = 8 then 8 else 4
  let p := (getCore s e.core).part
  let v := e.extra % 2 ^ (8 * w)
  (readEntry s p e.obj).map (fun x =>
    { id := e.unit, kind := 1, tenant := x.tenant, part := p, core := e.core, group := e.aux.getD 0 0, obj := e.obj, off := e.off,
      size := w, op := e.value % 8, ordinal := 0, phase := 0, payload := leBytes w v,
      loop := 0, position := 0, target := 0, srcDie := dieOf e.core, src := coreStop (e.core % Config.coresPerDie),
      destDie := homeDie x e.off, dest := sliceStop (homeSlice e.obj e.off),
      onLoop := false, since := s.clock, circuit := none,
      red := some ⟨e.core, e.aux.getD 0 0, e.aux.getD 1 0, p, 0, e.obj, e.off, w, e.value % 8, v, [], logsOps s e.core (e.aux.getD 0 0)⟩
      tag := e.aux.getD 1 0, info := e.aux.drop 2 })

/-- The line of a request is of the pool. -/
def poolRequest (s : State) (f : Flit) : Bool :=
  match readEntry s f.part f.obj with
  | none => false
  | some d => match translate s (homeDie d f.off) (homeSlice f.obj f.off) f.part d false f.off with
    | .ok (x, _) => x.pool
    | .error _ => false

/-- A flit enters at its source; a reduction, a line read request or a store with a request tag is unanswered from now on, to be sent again by
the step that has given it to the loops (R404). -/
def newFlit (s : State) (f : Flit) (e : Event) : State :=
  let k := getCore s f.core
  let who := f.info.getD 0 0
  let a : Asked := ⟨0, s.clock, poolRequest s f, who, if who = 0 then f.group else f.info.getD 1 0, f.obj, f.off, f.info.getD 2 0, ⟨.flitHop, e⟩⟩
  let s := if f.tag = 0 || f.kind = 0 || f.kind = 3 || hasKey k.asked f.tag then s
    else setCore s f.core { k with asked := insertKey k.asked f.tag a }
  enter s f.srcDie f.src f s.clock

/-- FLIT_HOP of flit `unit` of a die: it advances, leaves its loop or goes round again, or leaves its ejection buffer if it is the
oldest there; with `flag` it is new, a packet by `len` = 0. `len` says that the unit at its stop takes no flit now, `value` 1 that the
header could not be corrected. -/
def execFlitHop (s : State) : Out :=
  let e := s.ev
  let k := getDie s e.die
  .next (if Config.dies ≤ e.die then s
    else if e.flag then
      if underWay s e.unit then s
      else if e.len = 0 then newFlit s (packetFlit s e) e
      else match reductionFlit s e with
        | some f => newFlit s f e
        | none => s
    else match k.flits.find? (fun f => f.id == e.unit) with
      | some f => if e.value = 1 then dropHeader s e.die f else hopFlit s e.die f
      | none => match k.merges.find? (fun m => match m.via with | some f => f.id == e.unit | none => false) with
        | some m => match m.via with
          | some f => if e.value = 1 then dropHeader s e.die f else hopMerged s e.die m f
          | none => s
        | none => match k.ejects.find? (fun x => match x.2 with | f :: _ => f.id == e.unit | [] => false) with
          | some x => if e.len ≠ 0 then s else takeEjected s e.die x.1
          | none => s)

/-- INJECTION_YIELD of flit `unit` of a die: after 32 clocks of waiting, its stop asks the stops upstream for an empty clock. -/
def execInjectionYield (s : State) : Out :=
  let k := getDie s s.ev.die
  .next (match (k.flits ++ k.merges.filterMap (·.via)).find? (fun f => f.id == s.ev.unit && !f.onLoop && decide (f.since + 32 ≤ s.clock)) with
    | some f => setDie s s.ev.die { k with yields := insertNat k.yields (placeKey f) }
    | none => s)

/-! ### Circuits (R76) -/

/-- The stops of an event's circuit: from core `core` to local core `unit` of its die; with `flag` between core `core` and stop `unit`,
to the core by `extra` = 1. -/
def circuitEnds (e : Event) : Nat × Nat :=
  let here := coreStop (e.core % Config.coresPerDie)
  if !e.flag then (here, coreStop (e.unit % Config.coresPerDie))
  else if e.extra = 1 then (e.unit % 64, here)
  else (here, e.unit % 64)

/-- The identity of a circuit on its die. -/
def circuitId (e : Event) : Nat := 64 * (circuitEnds e).1 + (circuitEnds e).2

/-- The stops of a route, from its first position on; `fuel` bounds their number. -/
def routeStops (r : Route) : Nat → Nat → List Nat
  | 0, _ => []
  | fuel + 1, pos => stopAt (loopPairs.getD (r.loop / 2) (0, 1)) pos :: (if pos = r.last then [] else routeStops r fuel (nextPosition r.loop pos))

/-- A phase of a loop is free at every stop of a path. -/
def phaseFree (k : Die) (loop phase : Nat) (stops : List Nat) : Bool :=
  k.circuits.all (fun c => c.loop != loop || c.phase != phase || c.stops.all (fun x => !stops.contains x))

/-- CIRCUIT_SETUP for `len` flits: the path of R73 is reserved in one phase, or the set-up is refused and the transfer goes on as
packets. -/
def execCircuitSetup (s : State) : Out :=
  let e := s.ev
  let d := dieOf e.core
  let k := getDie s d
  let r := routeOf (circuitEnds e).1 (circuitEnds e).2
  let stops := routeStops r 32 r.pos
  let add := fun (phase : Nat) => setDie s d { k with
    circuits := k.circuits ++ [⟨circuitId e, r.loop, phase, stops, Nat.max 1 (Nat.min e.len 65536), s.clock⟩] }
  .next (if k.circuits.any (fun c => c.id == circuitId e) then s
    else if phaseFree k r.loop 0 stops then add 0
    else if phaseFree k r.loop 1 stops then add 1
    else s)

/-- CIRCUIT_RELEASE of a circuit, named as at its set-up. -/
def execCircuitRelease (s : State) : Out :=
  let k := getDie s (dieOf s.ev.core)
  .next (setDie s (dieOf s.ev.core) { k with circuits := k.circuits.filter (fun c => c.id != circuitId s.ev) })

/-- CIRCUIT_IDLE_TIMEOUT of circuit `unit` of a die: no flit for 256 clocks. -/
def execCircuitIdleTimeout (s : State) : Out :=
  let k := getDie s s.ev.die
  .next (setDie s s.ev.die { k with
    circuits := k.circuits.filter (fun c => !(c.id == s.ev.unit && decide (c.idle + 256 ≤ s.clock))) })

/-- DIE_LINK_CRC_RETRY at eave stop `unit` of a die: the sender repeats a flit and counts it (R80, Table 19-4); flit `value`, under
way to the next die, arrives 12 clocks later, and those behind it of its source and destination not before it. A stop that has no link
does nothing (R4). -/
def execDieLinkCrcRetry (s : State) : Out :=
  let e := s.ev
  if Config.dies ≤ e.die || !hasNeighbour e.die e.unit then .next s else
  let k := getDie s e.die
  let s := setDie s e.die { k with linkCrc := insertKey k.linkCrc e.unit (Nat.min (lookup k.linkCrc e.unit 0 + 1) 0xFFFF) }
  let d := (crossing e.die e.unit).1
  let next := getDie s d
  let under := fun (f : Flit) => !f.onLoop && decide (s.clock < f.since)
  .next (match next.flits.find? (fun f => f.id == e.value && under f) with
    | none => s
    | some r =>
      let pair := fun (f : Flit) => f.srcDie == r.srcDie && f.src == r.src && f.destDie == r.destDie && f.dest == r.dest
      let behind := (next.flits.dropWhile (fun f => f.id != e.value)).map (·.id)
      setDie s d { next with flits := next.flits.map (fun f =>
        if under f && pair f && behind.contains f.id then { f with since := Nat.max f.since (r.since + 12) } else f) })

end Sys2Proof.Machine
end

