-- ==== Sys2Proof/Machine/Hub.lean ====
section
/-!
DEFINITION. The IO hubs (spec/02 R46 to R49, spec/01 R22, R24, spec/18 R395, spec/19 R406): external streams with their reorder
windows and watermarks, remote accesses, doorbells, and the reads of drives and attached hosts through hub windows.
-/

namespace Sys2Proof.Machine

/-! ### Streams (R46, R47) -/

/-- Number `a` follows number `b` (R47). -/
def follows (a b : Nat) : Bool :=
  let d := (a + 2 ^ 32 - b) % 2 ^ 32
  decide (1 ≤ d) && decide (d < 2 ^ 31)

/-- The stream is held on a fault. -/
def held (x : Stream) : Bool := x.cfg.getLsbD 23

def setHeld (x : Stream) (on : Bool) : Stream := { x with cfg := if on then x.cfg ||| 0x800000 else x.cfg &&& ~~~0x800000#32 }

/-- The die of the stream's hub. -/
def hubDie (x : Stream) : Nat := fieldNat x.cfg 28 3

/-- The link through which a stream's writes come: the Ultra Ethernet port of the hub's die, its NVMe port, or D0's storage port
for an attached host. -/
def linkOf (x : Stream) : Nat :=
  match fieldNat x.cfg 25 2 with
  | 0 => 24 + hubDie x
  | 1 => 16 + hubDie x
  | _ => 16

/-- The stream accepts writes: EN set, SRC not reserved (Table 2-8), and its hub has such a port: IO1 the Ultra Ethernet port, IO0 the
others (Table 0-2); D0's storage port serves a drive, or an attached host by the configuration of the firmware (R406). -/
def accepts (s : State) (x : Stream) : Bool :=
  x.cfg.getLsbD 31 && fieldNat x.cfg 25 2 != 3 && x.cfg.getLsbD 27 == (fieldNat x.cfg 25 2 == 0) && allLinks.contains (linkOf x)
    && (linkOf x != 16 || (fieldNat x.cfg 25 2 == 2) == s.boot.host)

/-- The home port of a piece of a write, 16 × die + slice; a doorbell stays at the hub. -/
def portOf (s : State) (x : Stream) (obj off : Nat) : Nat :=
  if obj = 0 then 128 + hubDie x
  else match readEntry s (fwPart s (hubDie x)) obj with
    | none => 128 + hubDie x
    | some e => 16 * homeDie e off + homeSlice e.id off

/-- A piece goes to its port, with the next ordinal there. -/
def sendPiece (s : State) (x : Stream) (n obj off : Nat) (bs : List Byte) : Stream :=
  let port := portOf s x obj off
  let ord := lookup x.ordinals port 0
  { x with
    released := x.released ++ [⟨n, obj, off, bs, port, ord, .sent⟩]
    ordinals := insertKey x.ordinals port (ord + 1) }

/-- A write goes to its ports, line by line. -/
def sendWrite (s : State) (x : Stream) (w : Nat × Nat × Nat × List Byte) : Stream :=
  let (n, obj, off, bs) := w
  if obj = 0 || bs.isEmpty then sendPiece s x n obj off bs
  else (linePieces (bs.length / 128 + 2) off bs.length).foldl (fun x pc => sendPiece s x n obj pc.1 ((bs.drop (pc.1 - off)).take pc.2)) x

/-- Release buffered writes in ascending order from the expected number on; `fuel` bounds their number. -/
def releaseWrites (s : State) : Nat → Stream → Stream
  | 0, x => x
  | fuel + 1, x =>
    match x.buffered.find? (fun w => w.1 == x.expected.toNat) with
    | none => x
    | some w => releaseWrites s fuel { sendWrite s x w with
        expected := x.expected + 1
        buffered := x.buffered.filter (fun v => v.1 != w.1) }

/-- A number that the hub has taken: buffered, or released and not yet covered by WMARK. -/
def taken (x : Stream) (n : Nat) : Bool := x.buffered.any (fun v => v.1 == n) || x.released.any (fun p => p.number == n)

/-- A write numbered `n` reaches the hub: discarded at or before WMARK or if it is here already, refused beyond the window of
1,024 numbers, else buffered, and released as far as the order allows. -/
def receiveWrite (s : State) (x : Stream) (w : Nat × Nat × Nat × List Byte) : Stream :=
  let ahead := (w.1 + 2 ^ 32 - x.wmark.toNat) % 2 ^ 32
  if !follows w.1 x.wmark.toNat || decide (1024 < ahead) || taken x w.1 then x
  else
    let x := { x with buffered := x.buffered ++ [w] }
    if held x then x else releaseWrites s 1024 x

/-- The step that applies a stream's next piece at a port. -/
def applyStep (i port : Nat) : Due := ⟨.externalWriteApply, { unit := i, extra := port }⟩

/-- The pieces that are on their way are to be applied. -/
def applySteps (i : Nat) (ps : List Sent) : List Due := (ps.filter (fun p => p.state == .sent)).map (fun p => applyStep i p.port)

/-- A stream takes a write, and what that releases is to be applied. -/
def takeWrite (s : State) (i : Nat) (w : Nat × Nat × Nat × List Byte) : State :=
  let x := getStream s i
  let y := receiveWrite s x w
  pushDue (setStream s i y) (applySteps i (y.released.drop x.released.length))

/-! ### Remote accesses (R24) -/

/-- A remote access through a hub of a die names an entry that is valid, that has its key and the NETR bit of the access. -/
def remoteEntry (s : State) (die obj key bit : Nat) : Option Desc :=
  let p := fwPart s die
  match readEntry s p obj with
  | none => none
  | some e =>
    let a := entryAddr s p obj
    if tableNat s (a + 8) 4 == key && (tableNat s (a + 0x20) 1).testBit bit then some e else none

/-- The window entry `i` of the hubs, if `[off, off + n)` lies within it (R406). -/
def windowAt (s : State) (i off n : Nat) : Option Window :=
  match s.windows[i]? with
  | none => none
  | some w => if off + n ≤ w.length then some w else none

/-- EXTERNAL_WRITE_ARRIVAL: write number `value` of stream `unit` reaches its hub with `bytes`: for Ultra Ethernet to `obj` at `off`
under key `extra`, for a drive or a host to offset `off` of window entry `obj`. -/
def execExternalWriteArrival (s : State) : Out :=
  let e := s.ev
  let i := e.unit % 256
  let x := getStream s i
  let n := e.value % 2 ^ 32
  .next (if !accepts s x || s.linksDown.contains (linkOf x) then s
    else if fieldNat x.cfg 25 2 = 0 then
      match remoteEntry s (hubDie x) e.obj e.extra 1 with
      | none => s
      | some _ => takeWrite s i (n, e.obj, e.off, e.bytes)
    else match windowAt s e.obj e.off e.bytes.length with
      | none => s
      | some w => if w.stream = i then takeWrite s i (n, w.obj, w.base + e.off, e.bytes) else s)

/-! ### Application (R47, R49) -/

/-- Write a piece of a numbered write at its home port, where the page turns dirty (R33); through the shadow map while a shadow is open
(R104). -/
def applyWrite (s : State) (p obj off : Nat) (bs : List Byte) : Except (MemErr × Bool) State :=
  match readEntry s p obj with
  | none => .error (.cap 0x09, false)
  | some e =>
    if (e.kind == 1 && e.xe) || e.kind == 4 then .error (.cap 0x02, false)
    else if e.shopen then (match writeShadow s p e off bs false with
      | .error x => .error (x, true)
      | .ok s => .ok s)
    else match writeObjectBy (0, 0, 0) s p none e off bs false with
      | .error x => .error (x, false)
      | .ok s => match translate s (homeDie e off) (homeSlice e.id off) p e false off with
        | .ok (f, s) => .ok (markDirty s (homeDie e off) (homeSlice e.id off) f)
        | .error _ => .ok s

/-- A doorbell takes effect: RESV and TAIL of the queue of a lane, but for a supervisor queue (R383, R395). -/
def ring (s : State) (d i tail : Nat) : State :=
  match ringOf s d i with
  | none => s
  | some r =>
    if (getFw (getDie s d) i).cfg.getLsbD 3 then s
    else putHeader (putHeader s r 0 tail) r 4 tail

/-- The stream holds on a fault: HELD is set, and SVCORE's lane gets the record (R49, R22). DESIGN CHOICE (entry 66): its KIND is
store, since no rule names the KIND of an external stream's write. -/
def holdStream (s : State) (i cls code obj off : Nat) (shadow : Bool) : State :=
  let x := getStream s i
  unitRecord (setStream s i (setHeld x true)) (fieldNat x.cfg 0 9) 3 i
    { cls := cls, code := code, obj := obj, off := off, shadow := shadow, kind := 1 } true

/-- What a piece that has met a fault, or been applied, stands as. -/
def markPiece (x : Stream) (p : Sent) (st : SentState) : Stream :=
  { x with released := x.released.map (fun q => if q == p then { q with state := st } else q) }

/-- WMARK reaches the last write of which, and before which, every piece has been applied; pieces with nothing to wait for are done
with. A piece from before the stream was disabled has the number 2^32 and moves no WMARK. -/
def advanceMark (x : Stream) : Stream :=
  let numbered := x.released.filter (fun p => decide (p.number < 2 ^ 32))
  let mark := match numbered.find? (fun p => p.state != .applied), numbered.getLast? with
    | some p, _ => wordOf p.number - 1
    | none, some p => wordOf p.number
    | none, none => x.wmark
  { x with
    wmark := mark
    released := x.released.dropWhile (fun p => p.state == .applied) }

/-- A piece has been applied: WMARK follows, and a doorbell that WMARK has reached is to be applied. -/
def applied (s : State) (i : Nat) (p : Sent) : State :=
  let x := advanceMark (markPiece (getStream s i) p .applied)
  pushDue (setStream s i x) (applySteps i ((x.released.take 1).filter (fun q => q.obj == 0)))

/-- The piece that a port applies next: the first of the stream in its ordinal order. It waits behind a piece of the stream that is
parked, but to go on from there itself, and behind one that failed; a doorbell waits for WMARK. -/
def nextPiece (x : Stream) (port : Nat) (again : Bool) : Option Sent :=
  let before := x.released.takeWhile (fun p => p.port != port || p.state == .applied)
  match x.released.drop before.length with
  | [] => none
  | p :: _ =>
    if before.any (fun q => q.state == .parked) || p.state == .failed || (p.state == .parked && !again)
        || (p.obj == 0 && before.any (fun q => q.state != .applied)) then none
    else some p

/-- A parked piece whose extinv has come, but behind another parked piece of its stream, is to be applied after that one (R40, R49). -/
def unpark (x : Stream) (port : Nat) : Stream :=
  match x.released.find? (fun p => p.port == port && p.state != .applied) with
  | some p => if p.state == .parked then markPiece x p .sent else x
  | none => x

/-- A port applies a stream's next piece, or the stream holds, or the piece parks at a migrating page, to go on after an extinv
(R40). Object 0 is a doorbell: 32 × die + lane, and TAIL. -/
def applyNext (s : State) (i port : Nat) (again : Bool) : State :=
  let x := getStream s i
  match nextPiece x port again with
  | none => if again then setStream s i (unpark x port) else s
  | some p =>
    let hold := fun (cls code : Nat) (sh : Bool) => holdStream (setStream s i (markPiece x p .failed)) i cls code p.obj p.off sh
    if p.obj = 0 then applied (ring s (p.off / 32) (p.off % 32) (leNat p.bytes)) i p
    else
      match applyWrite s (fwPart s (hubDie x)) p.obj p.off p.bytes with
      | .ok s =>
        let t := applied s i p
        if p.state == .parked then pushDue t (applySteps i (getStream t i).released) else t
      | .error (.cap c, sh) => hold 5 c sh
      | .error (.page c, sh) => hold 7 c sh
      | .error (.poison c, sh) => hold 1 c sh
      | .error (.migrating _ a, _) =>
        match readEntry s (fwPart s (hubDie x)) p.obj with
        | none => s
        | some e => parkAt (setStream s i (markPiece x p .parked)) (fwPart s (hubDie x)) e a
            ⟨.externalWriteApply, { unit := i, extra := port, flag := true }⟩

/-- EXTERNAL_WRITE_APPLY of stream `unit` at port `extra`; with `flag` of a piece that was parked there. -/
def execExternalWriteApply (s : State) : Out := .next (applyNext s (s.ev.unit % 256) s.ev.extra s.ev.flag)

/-- DOORBELL_WRITE: write number `value` of stream `obj`, to the doorbell of lane `unit` of a die, with the new TAIL `extra`; it waits
at the hub until WMARK has reached the number before it. -/
def execDoorbellWrite (s : State) : Out :=
  let e := s.ev
  let i := e.obj % 256
  let x := getStream s i
  .next (if !accepts s x || s.linksDown.contains (linkOf x) then s
    else takeWrite s i (e.value % 2 ^ 32, 0, 32 * (e.die % 8) + e.unit % 32, leBytes 4 e.extra))

/-- REMOTE_ACCESS_REQUEST at the IO1 hub of a die, to `obj` at `off` under key `extra`: a read of `len` bytes, with `bytes` write number
`value` of stream `unit`, or with `flag` an atomic `value` (the eight of ared) with operand `bytes`. A refused request touches no memory,
and one at a migrating page parks (R40). R22 gives the way of a refusal for a stream's writes only: an atomic aimed at a coverage object or
at a code object with XE set has no effect, no record and holds nothing (DESIGN CHOICE, entry 75). -/
def execRemoteAccessRequest (s : State) : Out :=
  let e := s.ev
  let bit := if e.flag then 2 else if e.bytes.isEmpty then 0 else 1
  let stop := fun (d : Desc) (x : MemErr) => match x with
    | .migrating _ a => parkAt s (fwPart s e.die) d a ⟨.remoteAccessRequest, e⟩
    | _ => s
  .next (if s.linksDown.contains (24 + e.die) then s
    else match remoteEntry s e.die e.obj e.extra bit with
      | none => s
      | some d =>
        if e.flag then
          let n := if e.bytes.length = 8 then 8 else 4
          if (d.kind == 1 && d.xe) || d.kind == 4 || e.off % n ≠ 0 then s
          else match modifyLineBy (0, 0, 0) s (fwCore e.die) (fwPart s e.die) d e.off n
              (fun old => leBytes n (aredOp (8 * n) (e.value % 8) (leNat old) (leNat (e.bytes.take n)))) with
            | .ok (_, s) => s
            | .error x => stop d x
        else if e.bytes.isEmpty then
          match readHome s (fwPart s e.die) d e.off e.len with
          | .ok (_, s) => s
          | .error x => stop d x
        else pushDue s [⟨.externalWriteArrival, { e with unit := e.unit % 256 }⟩])

/-- STRCFG_ENABLE of stream `unit`: STRCFG takes `value`; setting EN resets WMARK and the expected number, clearing it discards
what the hub keeps, buffered or to be sent again, while the ports apply what was released. With `flag` only EN is cleared. -/
def execStrcfgEnable (s : State) : Out :=
  let e := s.ev
  let i := e.unit % 256
  let x := getStream s i
  let cfg : Word := if e.flag then x.cfg &&& 0x7FFFFFFF else (wordOf e.value &&& 0xFE4001FF) ||| (x.cfg &&& 0x800000)
  let kept := (x.released.filter (fun p => p.state != .failed)).map (fun p => { p with number := 2 ^ 32 })
  .next (if !cfg.getLsbD 31 then
      pushDue (setStream s i { x with
        cfg := cfg &&& ~~~0x800000#32
        buffered := []
        released := kept }) (applySteps i kept)
    else setStream s i (if !x.cfg.getLsbD 31 then
        { x with
          cfg := cfg &&& ~~~0x800000#32
          wmark := 0xFFFFFFFF
          expected := 0
          buffered := [] }
      else { x with cfg := cfg }))

/-- STRCFG_RESUME of stream `unit`: a held stream goes on; the hub sends the faulted write again (R49). -/
def execStrcfgResume (s : State) : Out :=
  let i := s.ev.unit % 256
  let x := getStream s i
  let again := { setHeld x false with
    released := x.released.map (fun p => if p.state == .failed then { p with state := .sent } else p) }
  let y := releaseWrites s 1024 again
  .next (if !held x then s else pushDue (setStream s i y) (applySteps i y.released))

/-- DEVICE_DMA_READ: a drive or an attached host reads `len` bytes at offset `off` of window entry `unit`, at the home; outside every
window it is refused, and at a migrating page it parks (R40). -/
def execDeviceDmaRead (s : State) : Out :=
  let e := s.ev
  .next (match windowAt s e.unit e.off e.len with
    | none => s
    | some w =>
      match readEntry s w.part w.obj with
      | none => s
      | some d =>
        match readHome s w.part d (w.base + e.off) e.len with
        | .ok (_, s) => s
        | .error (.migrating _ a) => parkAt s w.part d a ⟨.deviceDmaRead, e⟩
        | .error _ => s)

end Sys2Proof.Machine
end

