-- ==== Sys2Proof/Machine/Dispatch.lean ====
section
/-!
DEFINITION. The dispatch of the machine: one arm per constructor of Instr, each one direct call of its meaning.
-/

namespace Sys2Proof.Machine

/-- The meaning of one instruction or step. -/
def exec (i : Instr) (s : State) : Host.Outcome State Fault Refusal :=
  match i with
  | .nop => Sys2Proof.Machine.execNop s
  | .add d a b => Sys2Proof.Machine.execAdd d a b s
  | .sub d a b => Sys2Proof.Machine.execSub d a b s
  | .addi d a im => Sys2Proof.Machine.execAddi d a im s
  | .mul d a b => Sys2Proof.Machine.execMul d a b s
  | .mulhi sg d a b => Sys2Proof.Machine.execMulhi sg d a b s
  | .mad d a b => Sys2Proof.Machine.execMad d a b s
  | .min sg d a b => Sys2Proof.Machine.execMin sg d a b s
  | .max sg d a b => Sys2Proof.Machine.execMax sg d a b s
  | .abs d a => Sys2Proof.Machine.execAbs d a s
  | .absdiff sg d a b => Sys2Proof.Machine.execAbsdiff sg d a b s
  | .and d a b => Sys2Proof.Machine.execAnd d a b s
  | .or d a b => Sys2Proof.Machine.execOr d a b s
  | .xor d a b => Sys2Proof.Machine.execXor d a b s
  | .andn d a b => Sys2Proof.Machine.execAndn d a b s
  | .shl d a b => Sys2Proof.Machine.execShl d a b s
  | .shr d a b => Sys2Proof.Machine.execShr d a b s
  | .sar d a b => Sys2Proof.Machine.execSar d a b s
  | .rol d a b => Sys2Proof.Machine.execRol d a b s
  | .shi f d a im => Sys2Proof.Machine.execShi f d a im s
  | .clz d a => Sys2Proof.Machine.execClz d a s
  | .popc d a => Sys2Proof.Machine.execPopc d a s
  | .brev d a => Sys2Proof.Machine.execBrev d a s
  | .bfx sg d a b => Sys2Proof.Machine.execBfx sg d a b s
  | .bfi d a b => Sys2Proof.Machine.execBfi d a b s
  | .sel p d a b => Sys2Proof.Machine.execSel p d a b s
  | .lea sg d a b => Sys2Proof.Machine.execLea sg d a b s
  | .add64 d a b => Sys2Proof.Machine.execAdd64 d a b s
  | .sub64 d a b => Sys2Proof.Machine.execSub64 d a b s
  | .sh64 f d a b => Sys2Proof.Machine.execSh64 f d a b s
  | .mov d b => Sys2Proof.Machine.execMov d b s
  | .movi d im => Sys2Proof.Machine.execMovi d im s
  | .fadd n r d a b => Sys2Proof.Machine.execFadd n r d a b s
  | .fmul n r d a b => Sys2Proof.Machine.execFmul n r d a b s
  | .fma n r d a b => Sys2Proof.Machine.execFma n r d a b s
  | .fmin d a b => Sys2Proof.Machine.execFmin d a b s
  | .fmax d a b => Sys2Proof.Machine.execFmax d a b s
  | .fsgn f d a b => Sys2Proof.Machine.execFsgn f d a b s
  | .frnd r d a => Sys2Proof.Machine.execFrnd r d a s
  | .fclass d a => Sys2Proof.Machine.execFclass d a s
  | .fdiv d a b => Sys2Proof.Machine.execFdiv d a b s
  | .fsqrt d a => Sys2Proof.Machine.execFsqrt d a s
  | .frcp d a => Sys2Proof.Machine.execFrcp d a s
  | .frsq d a => Sys2Proof.Machine.execFrsq d a s
  | .fex2 d a => Sys2Proof.Machine.execFex2 d a s
  | .flg2 d a => Sys2Proof.Machine.execFlg2 d a s
  | .fsinpi d a => Sys2Proof.Machine.execFsinpi d a s
  | .fcospi d a => Sys2Proof.Machine.execFcospi d a s
  | .hadd2 t d a b => Sys2Proof.Machine.execHadd2 t d a b s
  | .hmul2 t d a b => Sys2Proof.Machine.execHmul2 t d a b s
  | .hfma2 t d a b => Sys2Proof.Machine.execHfma2 t d a b s
  | .hmin2 t d a b => Sys2Proof.Machine.execHmin2 t d a b s
  | .hmax2 t d a b => Sys2Proof.Machine.execHmax2 t d a b s
  | .cvti2f r sg d a => Sys2Proof.Machine.execCvti2f r sg d a s
  | .cvtf2i r sg d a => Sys2Proof.Machine.execCvtf2i r sg d a s
  | .cvtpk16 t d a b => Sys2Proof.Machine.execCvtpk16 t d a b s
  | .cvtup16 h t d a => Sys2Proof.Machine.execCvtup16 h t d a s
  | .cvtpk8 sg f d a b => Sys2Proof.Machine.execCvtpk8 sg f d a b s
  | .cvtup8 f d a => Sys2Proof.Machine.execCvtup8 f d a s
  | .qscal f d a b => Sys2Proof.Machine.execQscal f d a b s
  | .qenc sg f d a b => Sys2Proof.Machine.execQenc sg f d a b s
  | .qdec f d a b => Sys2Proof.Machine.execQdec f d a b s
  | .fclamp d a b => Sys2Proof.Machine.execFclamp d a b s
  | .icmp c t f a b => Sys2Proof.Machine.execIcmp c t f a b s
  | .icmpi c t f a im => Sys2Proof.Machine.execIcmpi c t f a im s
  | .fcmp c t f a b => Sys2Proof.Machine.execFcmp c t f a b s
  | .plog o t f a b => Sys2Proof.Machine.execPlog o t f a b s
  | .vote o t f a => Sys2Proof.Machine.execVote o t f a s
  | .ballot d a => Sys2Proof.Machine.execBallot d a s
  | .ptoi d a => Sys2Proof.Machine.execPtoi d a s
  | .itop t f a => Sys2Proof.Machine.execItop t f a s
  | .matchAny d a => Sys2Proof.Machine.execMatchAny d a s
  | .perm d a b => Sys2Proof.Machine.execPerm d a b s
  | .setlp f im => Sys2Proof.Machine.execSetlp f im s
  | .redux o d a => Sys2Proof.Machine.execRedux o d a s
  | .vget d a b => Sys2Proof.Machine.execVget d a b s
  | .vbcast d a => Sys2Proof.Machine.execVbcast d a s
  | .rds d im => Sys2Proof.Machine.execRds d im s
  | .wbase im => Sys2Proof.Machine.execWbase im s
  | .dcw im => Sys2Proof.Machine.execDcw im s
  | .scan o d a => Sys2Proof.Machine.execScan o d a s
  | .br h o sg => Sys2Proof.Machine.execBr h o sg s
  | .brx h a => Sys2Proof.Machine.execBrx h a s
  | .call o sg => Sys2Proof.Machine.execCall o sg s
  | .ret => Sys2Proof.Machine.execRet s
  | .join => Sys2Proof.Machine.execJoin s
  | .regang => Sys2Proof.Machine.execRegang s
  | .exit => Sys2Proof.Machine.execExit s
  | .yield => Sys2Proof.Machine.execYield s
  | .region => Sys2Proof.Machine.execRegion s
  | .trigger => Sys2Proof.Machine.execTrigger s
  | .usig d a b => Sys2Proof.Machine.execUsig d a b s
  | .uhnd b => Sys2Proof.Machine.execUhnd b s
  | .uret => Sys2Proof.Machine.execUret s
  | .ld c d a k w => Sys2Proof.Machine.execLd c d a k w s
  | .ldAcq c o d p a k w => Sys2Proof.Machine.execLdAcq c o d p a k w s
  | .st c d a k w => Sys2Proof.Machine.execSt c d a k w s
  | .stRel c o d p a k w => Sys2Proof.Machine.execStRel c o d p a k w s
  | .ldk c d a k => Sys2Proof.Machine.execLdk c d a k s
  | .stk c d a k => Sys2Proof.Machine.execStk c d a k s
  | .cnarrow d a b => Sys2Proof.Machine.execCnarrow d a b s
  | .crights d a b => Sys2Proof.Machine.execCrights d a b s
  | .cget f d a => Sys2Proof.Machine.execCget f d a s
  | .ctest t f a b => Sys2Proof.Machine.execCtest t f a b s
  | .atom o d a k sg => Sys2Proof.Machine.execAtom o d a k sg s
  | .atomb o d a k sg => Sys2Proof.Machine.execAtomb o d a k sg s
  | .ared o d a k w => Sys2Proof.Machine.execAred o d a k w s
  | .fatom o d a k sg => Sys2Proof.Machine.execFatom o d a k sg s
  | .fred o d a k => Sys2Proof.Machine.execFred o d a k s
  | .fence f sg => Sys2Proof.Machine.execFence f sg s
  | .pref a k w => Sys2Proof.Machine.execPref a k w s
  | .zfill c a k => Sys2Proof.Machine.execZfill c a k s
  | .pin t f a l k => Sys2Proof.Machine.execPin t f a l k s
  | .unpin c a k => Sys2Proof.Machine.execUnpin c a k s
  | .cctl o a k sg => Sys2Proof.Machine.execCctl o a k sg s
  | .lds c d a w => Sys2Proof.Machine.execLds c d a w s
  | .sts c d a w => Sys2Proof.Machine.execSts c d a w s
  | .stdef e a => Sys2Proof.Machine.execStdef e a s
  | .stbind e o q => Sys2Proof.Machine.execStbind e o q s
  | .stpos e d r => Sys2Proof.Machine.execStpos e d r s
  | .copy h c a => Sys2Proof.Machine.execCopy h c a s
  | .rdwp h d => Sys2Proof.Machine.execRdwp h d s
  | .bfence d => Sys2Proof.Machine.execBfence d s
  | .bwait a => Sys2Proof.Machine.execBwait a s
  | .shadow t f a => Sys2Proof.Machine.execShadow t f a s
  | .publish k => Sys2Proof.Machine.execPublish k s
  | .barInit a b => Sys2Proof.Machine.execBarInit a b s
  | .barReg a => Sys2Proof.Machine.execBarReg a s
  | .barArr d a => Sys2Proof.Machine.execBarArr d a s
  | .barWait a b => Sys2Proof.Machine.execBarWait a b s
  | .barAw a => Sys2Proof.Machine.execBarAw a s
  | .barDrop a => Sys2Proof.Machine.execBarDrop a s
  | .sqput q a => Sys2Proof.Machine.execSqput q a s
  | .sqget q d => Sys2Proof.Machine.execSqget q d s
  | .sqpeek q d => Sys2Proof.Machine.execSqpeek q d s
  | .msend c a => Sys2Proof.Machine.execMsend c a s
  | .mpost d a => Sys2Proof.Machine.execMpost d a s
  | .mtest t f a => Sys2Proof.Machine.execMtest t f a s
  | .mcancel a => Sys2Proof.Machine.execMcancel a s
  | .spbar g b => Sys2Proof.Machine.execSpbar g b s
  | .tnext p d => Sys2Proof.Machine.execTnext p d s
  | .tdone d a => Sys2Proof.Machine.execTdone d a s
  | .trd d im => Sys2Proof.Machine.execTrd d im s
  | .twr d im => Sys2Proof.Machine.execTwr d im s
  | .tcommit => Sys2Proof.Machine.execTcommit s
  | .thand a => Sys2Proof.Machine.execThand a s
  | .tmap d a => Sys2Proof.Machine.execTmap d a s
  | .mma d a b => Sys2Proof.Machine.execMma d a b s
  | .mmas d a b => Sys2Proof.Machine.execMmas d a b s
  | .aclr sg => Sys2Proof.Machine.execAclr sg s
  | .acpy f d a => Sys2Proof.Machine.execAcpy f d a s
  | .scld a => Sys2Proof.Machine.execScld a s
  | .wbld m a => Sys2Proof.Machine.execWbld m a s
  | .mstat d a => Sys2Proof.Machine.execMstat d a s
  | .zgen d a k c => Sys2Proof.Machine.execZgen d a k c s
  | .zand d a b => Sys2Proof.Machine.execZand d a b s
  | .zandc d a b => Sys2Proof.Machine.execZandc d a b s
  | .zor d a b => Sys2Proof.Machine.execZor d a b s
  | .zorc d a b => Sys2Proof.Machine.execZorc d a b s
  | .zmux d a b => Sys2Proof.Machine.execZmux d a b s
  | .znot d a => Sys2Proof.Machine.execZnot d a s
  | .zxorc d a b => Sys2Proof.Machine.execZxorc d a b s
  | .zcnt f d a => Sys2Proof.Machine.execZcnt f d a s
  | .zsum n d a => Sys2Proof.Machine.execZsum n d a s
  | .zregen d a c => Sys2Proof.Machine.execZregen d a c s
  | .zseed a => Sys2Proof.Machine.execZseed a s
  | .zclass d a => Sys2Proof.Machine.execZclass d a s
  | .sadd d a b => Sys2Proof.Machine.execSadd d a b s
  | .ssub d a b => Sys2Proof.Machine.execSsub d a b s
  | .smul d a b => Sys2Proof.Machine.execSmul d a b s
  | .sand d a b => Sys2Proof.Machine.execSand d a b s
  | .sor d a b => Sys2Proof.Machine.execSor d a b s
  | .sxor d a b => Sys2Proof.Machine.execSxor d a b s
  | .sshl d a b => Sys2Proof.Machine.execSshl d a b s
  | .sshr r d a b => Sys2Proof.Machine.execSshr r d a b s
  | .saddi d a im => Sys2Proof.Machine.execSaddi d a im s
  | .smovi d im => Sys2Proof.Machine.execSmovi d im s
  | .smov d b => Sys2Proof.Machine.execSmov d b s
  | .scmp c d a b => Sys2Proof.Machine.execScmp c d a b s
  | .ssel d a b => Sys2Proof.Machine.execSsel d a b s
  | .sminmax f d a b => Sys2Proof.Machine.execSminmax f d a b s
  | .sld c d a k w => Sys2Proof.Machine.execSld c d a k w s
  | .sst c d a k w => Sys2Proof.Machine.execSst c d a k w s
  | .syscall im => Sys2Proof.Machine.execSyscall im s
  | .trap im => Sys2Proof.Machine.execTrap im s
  | .rfe => Sys2Proof.Machine.execRfe s
  | .svtake d a => Sys2Proof.Machine.execSvtake d a s
  | .svpost a b => Sys2Proof.Machine.execSvpost a b s
  | .csrr d im => Sys2Proof.Machine.execCsrr d im s
  | .csrw d im => Sys2Proof.Machine.execCsrw d im s
  | .extinv a => Sys2Proof.Machine.execExtinv a s
  | .wfi => Sys2Proof.Machine.execWfi s
  | .qput c d a k => Sys2Proof.Machine.execQput c d a k s
  | .gsave c d a k t => Sys2Proof.Machine.execGsave c d a k t s
  | .grest c d a k t => Sys2Proof.Machine.execGrest c d a k t s
  | .hlt im => Sys2Proof.Machine.execHlt im s
  | .brk im => Sys2Proof.Machine.execBrk im s
  | .mark im => Sys2Proof.Machine.execMark im s
  | .cnrd d a => Sys2Proof.Machine.execCnrd d a s
  | .wcoord d => Sys2Proof.Machine.execWcoord d s
  | .powerCycle => Sys2Proof.Machine.execPowerCycle s
  | .managementReset => Sys2Proof.Machine.execManagementReset s
  | .bootImageCheck => Sys2Proof.Machine.execBootImageCheck s
  | .bootSelfTest => Sys2Proof.Machine.execBootSelfTest s
  | .bootFirmwareLoad => Sys2Proof.Machine.execBootFirmwareLoad s
  | .bootKernelLoad => Sys2Proof.Machine.execBootKernelLoad s
  | .bootPartitionStart => Sys2Proof.Machine.execBootPartitionStart s
  | .freezeAssert => Sys2Proof.Machine.execFreezeAssert s
  | .freezeRelease => Sys2Proof.Machine.execFreezeRelease s
  | .statusQuery => Sys2Proof.Machine.execStatusQuery s
  | .attestationRequest => Sys2Proof.Machine.execAttestationRequest s
  | .partitionCreate => Sys2Proof.Machine.execPartitionCreate s
  | .partitionDestroy => Sys2Proof.Machine.execPartitionDestroy s
  | .sliceLoadRequest => Sys2Proof.Machine.execSliceLoadRequest s
  | .guestSliceRequest => Sys2Proof.Machine.execGuestSliceRequest s
  | .sliceStore => Sys2Proof.Machine.execSliceStore s
  | .l1Invalidate => Sys2Proof.Machine.execL1Invalidate s
  | .storeAck => Sys2Proof.Machine.execStoreAck s
  | .lineReply => Sys2Proof.Machine.execLineReply s
  | .portWriteBack => Sys2Proof.Machine.execPortWriteBack s
  | .portExtentMiss => Sys2Proof.Machine.execPortExtentMiss s
  | .walkComplete => Sys2Proof.Machine.execWalkComplete s
  | .pageFaultResponse => Sys2Proof.Machine.execPageFaultResponse s
  | .shootdownReceive => Sys2Proof.Machine.execShootdownReceive s
  | .shootdownAck => Sys2Proof.Machine.execShootdownAck s
  | .guestEpochStepDone => Sys2Proof.Machine.execGuestEpochStepDone s
  | .atomicUnitRequest => Sys2Proof.Machine.execAtomicUnitRequest s
  | .atomicGrantLapse => Sys2Proof.Machine.execAtomicGrantLapse s
  | .flitHop => Sys2Proof.Machine.execFlitHop s
  | .injectionYield => Sys2Proof.Machine.execInjectionYield s
  | .circuitSetup => Sys2Proof.Machine.execCircuitSetup s
  | .circuitRelease => Sys2Proof.Machine.execCircuitRelease s
  | .circuitIdleTimeout => Sys2Proof.Machine.execCircuitIdleTimeout s
  | .dieLinkCrcRetry => Sys2Proof.Machine.execDieLinkCrcRetry s
  | .requestRetryTimeout => Sys2Proof.Machine.execRequestRetryTimeout s
  | .hbmRowIdleClose => Sys2Proof.Machine.execHbmRowIdleClose s
  | .hbmRefresh => Sys2Proof.Machine.execHbmRefresh s
  | .patrolScrub => Sys2Proof.Machine.execPatrolScrub s
  | .backInvalidateSnoop => Sys2Proof.Machine.execBackInvalidateSnoop s
  | .cxlPortDown => Sys2Proof.Machine.execCxlPortDown s
  | .externalWriteArrival => Sys2Proof.Machine.execExternalWriteArrival s
  | .externalWriteApply => Sys2Proof.Machine.execExternalWriteApply s
  | .remoteAccessRequest => Sys2Proof.Machine.execRemoteAccessRequest s
  | .doorbellWrite => Sys2Proof.Machine.execDoorbellWrite s
  | .strcfgEnable => Sys2Proof.Machine.execStrcfgEnable s
  | .strcfgResume => Sys2Proof.Machine.execStrcfgResume s
  | .copyStart => Sys2Proof.Machine.execCopyStart s
  | .copyWriteAck => Sys2Proof.Machine.execCopyWriteAck s
  | .copyComplete => Sys2Proof.Machine.execCopyComplete s
  | .copyPageFaultHold => Sys2Proof.Machine.execCopyPageFaultHold s
  | .chstatAbort => Sys2Proof.Machine.execChstatAbort s
  | .chstatResume => Sys2Proof.Machine.execChstatResume s
  | .driveCompletion => Sys2Proof.Machine.execDriveCompletion s
  | .storageTimeout => Sys2Proof.Machine.execStorageTimeout s
  | .poolsplitWrite => Sys2Proof.Machine.execPoolsplitWrite s
  | .teamAdmission => Sys2Proof.Machine.execTeamAdmission s
  | .groupInstantiate => Sys2Proof.Machine.execGroupInstantiate s
  | .groupRetire => Sys2Proof.Machine.execGroupRetire s
  | .creditEviction => Sys2Proof.Machine.execCreditEviction s
  | .creditReadmit => Sys2Proof.Machine.execCreditReadmit s
  | .bundlePlacement => Sys2Proof.Machine.execBundlePlacement s
  | .laterWaveAdmission => Sys2Proof.Machine.execLaterWaveAdmission s
  | .placementBlockTimeout => Sys2Proof.Machine.execPlacementBlockTimeout s
  | .regionCommit => Sys2Proof.Machine.execRegionCommit s
  | .matrixOpComplete => Sys2Proof.Machine.execMatrixOpComplete s
  | .wbldPageFaultHold => Sys2Proof.Machine.execWbldPageFaultHold s
  | .mseqAbort => Sys2Proof.Machine.execMseqAbort s
  | .mseqResume => Sys2Proof.Machine.execMseqResume s
  | .groupEnd => Sys2Proof.Machine.execGroupEnd s
  | .candidateAging => Sys2Proof.Machine.execCandidateAging s
  | .trapTake => Sys2Proof.Machine.execTrapTake s
  | .coreStop => Sys2Proof.Machine.execCoreStop s
  | .userInterruptDelivery => Sys2Proof.Machine.execUserInterruptDelivery s
  | .messageArrival => Sys2Proof.Machine.execMessageArrival s
  | .slTimer => Sys2Proof.Machine.execSlTimer s
  | .slDeviceInterrupt => Sys2Proof.Machine.execSlDeviceInterrupt s
  | .slInterruptTake => Sys2Proof.Machine.execSlInterruptTake s
  | .sltcmpWrite => Sys2Proof.Machine.execSltcmpWrite s
  | .registerWrite => Sys2Proof.Machine.execRegisterWrite s
  | .firmwareStep => Sys2Proof.Machine.execFirmwareStep s
  | .nopPacket => Sys2Proof.Machine.execNopPacket s
  | .padPacket => Sys2Proof.Machine.execPadPacket s
  | .launchPacket => Sys2Proof.Machine.execLaunchPacket s
  | .copyPacket => Sys2Proof.Machine.execCopyPacket s
  | .signalPacket => Sys2Proof.Machine.execSignalPacket s
  | .waitPacket => Sys2Proof.Machine.execWaitPacket s
  | .waitSatisfied => Sys2Proof.Machine.execWaitSatisfied s
  | .publishPacket => Sys2Proof.Machine.execPublishPacket s
  | .abortPacket => Sys2Proof.Machine.execAbortPacket s
  | .timestampPacket => Sys2Proof.Machine.execTimestampPacket s
  | .watchdogTimeout => Sys2Proof.Machine.execWatchdogTimeout s
  | .fallbackTurn => Sys2Proof.Machine.execFallbackTurn s
  | .firmwareRebootDone => Sys2Proof.Machine.execFirmwareRebootDone s
  | .triggerSignal => Sys2Proof.Machine.execTriggerSignal s
  | .bundleRetire => Sys2Proof.Machine.execBundleRetire s
  | .bundleAbort => Sys2Proof.Machine.execBundleAbort s
  | .fredLogApply => Sys2Proof.Machine.execFredLogApply s
  | .fredctlAbort => Sys2Proof.Machine.execFredctlAbort s
  | .fredctlResume => Sys2Proof.Machine.execFredctlResume s
  | .debugStop => Sys2Proof.Machine.execDebugStop s
  | .dbgctlHalt => Sys2Proof.Machine.execDbgctlHalt s
  | .dbgcmdResume => Sys2Proof.Machine.execDbgcmdResume s
  | .dbgcmdRunToLimit => Sys2Proof.Machine.execDbgcmdRunToLimit s
  | .dbgcmdEndLaunch => Sys2Proof.Machine.execDbgcmdEndLaunch s
  | .trsizeWrite => Sys2Proof.Machine.execTrsizeWrite s
  | .trtailWrite => Sys2Proof.Machine.execTrtailWrite s
  | .pcSample => Sys2Proof.Machine.execPcSample s
  | .orderGateTimeout => Sys2Proof.Machine.execOrderGateTimeout s
  | .stallClock => Sys2Proof.Machine.execStallClock s
  | .yieldTimeout => Sys2Proof.Machine.execYieldTimeout s
  | .deviceDmaRead => Sys2Proof.Machine.execDeviceDmaRead s
  | .externalLinkDown => Sys2Proof.Machine.execExternalLinkDown s
  | .scanChainShift => Sys2Proof.Machine.execScanChainShift s

end Sys2Proof.Machine
end

