-- ==== Sys2Proof/Machine/Clock.lean ====
section
/-!
DEFINITION. The clock: what passes with it (spec/17 R372, R365), the steps that become due by it (spec/06 R141, R142, R146, R151,
spec/16 R348, spec/17 R374, spec/18 R389, R392, R396, spec/03 R75 to R77, R81, spec/02 R40, R49), and how the machine comes to
its next step: a due step, the slot of a candidate, or an idle clock (MODEL, entries 3 and 4).
-/

namespace Sys2Proof.Machine

/-! ### The groups that a clock charges (R372) -/

/-- Cores that run. -/
def liveCores (s : State) : FMap Core := s.cores.filter (fun e => e.2.running && e.2.stopped.isNone)

/-- Resident groups of the running cores. -/
def liveGroups (s : State) : List (Nat × Nat) := (liveCores s).flatMap (fun e => (residents e.2).map (fun g => (e.1, g.1)))

/-- The reason for which the next slot of a group's oldest candidate is not ready, where nothing else keeps it back but its stall count or
its pipe: what its issue would wait for; 0 for none. -/
def nextReason (s : State) (c slot : Nat) : Nat :=
  let g := getGroup s c slot
  let base := stallReason s c slot 0
  if g.stats.issuedNow || (base != 1 && base != 5) then 0
  else match oldestCandidate s c slot with
  | none => 0
  | some x =>
    let reason := fun (g : Group) =>
      let r := waitReason g (getQuad g (x.quads.headD 0)).park
      if !g.stats.issuedNow && [14, 15, 10, 4, 2, 3].contains r then r else 0
    match fetchInstr s x with
    | .error a => reason (getGroup (stopFor (preLatch s x) a) c slot)
    | .ok (i, t) => match exec i t with
      | .next u => reason (getGroup u c slot)
      | _ => 0

/-- One clock of every resident group. -/
def chargeAll (s : State) : State := (liveGroups s).foldl (fun t x => chargeGroup t x.1 x.2 (nextReason s x.1 x.2)) s

/-! ### Steps that become due by the clock -/

/-- Every clock, of a core: the lane's timer, one instantiation and one retirement (R141, R142, R348), a sample (R374). -/
def coreSteps (s : State) (c : Nat) (k : Core) : List Due :=
  let sample := fieldNat (getDie s (dieOf c)).dbg.ctl 4 4
  (if timerCompare k.lane = s.clock then [⟨.slTimer, { core := c }⟩] else [])
    ++ (match instantiable s c with | some (t, r) => [⟨.groupInstantiate, { core := c, unit := t, value := r }⟩] | none => [])
    ++ (match retirable s c with | some g => [⟨.groupRetire, { core := c, unit := g }⟩] | none => [])
    ++ (k.asked.filter (fun a => decide (a.2.since + askLimit a.2 ≤ s.clock))).map (fun a => ⟨.requestRetryTimeout, { core := c, extra := a.1 }⟩)
    ++ (if sample ≠ 0 && s.clock % 2 ^ (sample + 9) = 0 then [⟨.pcSample, { core := c }⟩] else [])

/-- Every 64 clocks, of a core: commits and ends that had to wait, and evicted groups that may come back. -/
def retrySteps (s : State) (c : Nat) (k : Core) : List Due :=
  let free := (residents k).filter (fun g => !commitParkedAt s c g.1)
  (free.filter (fun g => g.2.regions.any (·.ended))).map (fun g => ⟨.regionCommit, { core := c, unit := g.1 }⟩)
    ++ (free.filter (fun g => waitsHolding g.2)).map (fun g => ⟨.regionCommit, { core := c, unit := g.1, flag := true }⟩)
    ++ ((residents k).filter (fun g => mayEnd g.2)).map (fun g => ⟨.groupEnd, { core := c, unit := g.1 }⟩)
    ++ ((residents k).filter (fun g => evicting g.1 g.2)).map (fun g => ⟨.creditEviction, { core := c, unit := g.1 }⟩)
    ++ readmissions s c

/-- The flits of a die in the order of a clock: those of circuits, those on a loop, and then those that wait to enter one (R75, R76). -/
def hopOrder (k : Die) : List Flit :=
  k.flits.filter (fun f => f.onLoop && f.circuit.isSome) ++ k.flits.filter (fun f => f.onLoop && f.circuit.isNone)
    ++ k.flits.filter (fun f => !f.onLoop)

/-- Every clock, of a die: the oldest flit of each ejection buffer is taken, flits hop, or ask for room; grants lapse; idle rows
close. -/
def dieSteps (s : State) (d : Nat) (k : Die) : List Due :=
  (k.ejects.filterMap (·.2.head?)).map (fun f => ⟨.flitHop, { die := d, unit := f.id }⟩)
    ++ (hopOrder k).map (fun f => ⟨.flitHop, { die := d, unit := f.id }⟩)
    ++ (k.flits.filter (fun f => !f.onLoop && f.since + 32 == s.clock)).map (fun f => ⟨.injectionYield, { die := d, unit := f.id }⟩)
    ++ ((k.merges.filterMap (·.via)).filter (fun f => !f.onLoop && f.since + 32 == s.clock)).map (fun f =>
        ⟨.injectionYield, { die := d, unit := f.id }⟩)
    ++ (k.merges.filterMap (·.via)).map (fun f => ⟨.flitHop, { die := d, unit := f.id }⟩)
    ++ (k.circuits.filter (fun c => c.idle + 256 == s.clock)).map (fun c =>
        ⟨.circuitIdleTimeout, { die := d, unit := c.id }⟩)
    ++ (k.slices.filter (fun z => z.2.granted.any (fun g => decide (g.2 ≤ s.clock)))).map (fun z =>
        ⟨.atomicGrantLapse, { die := d, unit := z.1 }⟩)
    ++ (k.rows.filter (fun r => decide (r.2.2 + 2048 ≤ s.clock))).map (fun r => ⟨.hbmRowIdleClose, { die := d, unit := r.1 }⟩)

/-- Lanes of a die that serve a queue. -/
def servingLanes (k : Die) : List Nat := (k.lanes.filter (fun x => x.2.cfg.getLsbD 4)).map (·.1)

/-- Every 64 clocks, of a die: a step of its firmware core, which is its heartbeat, or turns of the fallback scheduler, and the
end of a reboot, 3 ms after the watchdog's 1 ms (R389, R396; entry 32). In the safe state the firmware core stays in reset (R400). -/
def firmwareSteps (s : State) (d : Nat) (k : Die) : List Due :=
  if s.boot.safe then []
  else
    (if k.booting && decide (k.heartbeat + 10800000 ≤ s.clock) then [⟨.firmwareRebootDone, { die := d }⟩] else [])
    ++ (if k.fallback then
          (if (servingLanes k).isEmpty then [0] else servingLanes k).map (fun i => ⟨.fallbackTurn, { die := d, unit := i }⟩)
        else [⟨.firmwareStep, { die := d }⟩])

/-- Bundles that have waited 10 ms for a place (R392). -/
def blockSteps (s : State) : List Due :=
  (s.bundles.filter (fun b => match b.2.since with
    | some t => !b.2.placed && !b.2.blocking && !b.2.retired && decide (t + 27000000 ≤ s.clock)
    | none => false)).map (fun b => ⟨.placementBlockTimeout, { unit := b.1 }⟩)

/-- Bundles that retire when another launch, or a rewrite, has settled the coverage map of an exited grid (R339). -/
def retireSteps (s : State) : List Due :=
  (s.bundles.filter (fun b => b.2.placed && !b.2.retired && b.2.launches.any (fun i => (getLaunch s i).truss.isSome)
    && b.2.launches.all (fun i => gridComplete s (getLaunch s i)))).map (fun b => ⟨.bundleRetire, { unit := b.1 }⟩)

/-- The steps that become due at this clock. -/
def clockSteps (s : State) : List Due :=
  (liveCores s).flatMap (fun e => coreSteps s e.1 e.2)
    ++ s.dies.flatMap (fun e => dieSteps s e.1 e.2)
    ++ (if s.clock % 64 = 0 then
          (liveCores s).flatMap (fun e => retrySteps s e.1 e.2) ++ s.dies.flatMap (fun e => firmwareSteps s e.1 e.2)
            ++ blockSteps s ++ retireSteps s
        else [])

/-- A wait that has kept a slot from being ready: its stall of a register, a counter, or a unit of the pipe or the core (R156). -/
def unready (p : Park) : Bool :=
  match p with
  | .result _ | .register _ | .counter .. | .noRegister _ | .resource | .bank _ | .special | .reed | .channel _ | .sequencer | .batches
  | .retry .. | .saving .. | .restoring .. => true
  | _ => false

/-- The breakpoint that a group passed applies to it again. -/
def clearSkip (s : State) (x : Nat × Nat) : State :=
  let g := getGroup s x.1 x.2
  if g.stats.skipBreak then setGroup s x.1 x.2 { g with stats := { g.stats with skipBreak := false } } else s

/-- After a candidate's slot. One that was not ready has not taken its pipe's clock, and another of the pipe may have it (R156); a group
that has not issued still passes its breakpoint (R369). -/
def settle (x : Candidate) (s : State) : State :=
  let g := getGroup s x.core x.slot
  let p := (getQuad g (x.quads.headD 0)).park
  let trapped := match p with | .none | .trap _ | .trapQueue _ => true | _ => false
  if x.slot = Config.laneSlot || g.stats.issuedNow || trapped then clearSkip s (x.core, x.slot)
  else if unready p && !parkOver s x.core x.slot p then { s with turn := s.turn - 2 ^ (g.pipe + 1) }
  else s

/-- A clock passes: the groups are charged, the 64-bit clock count rises (R2), every position has its turn again, and what the
clock brings about is due. -/
def tick (s : State) : State :=
  let s := chargeAll s
  let s := { s with clock := (s.clock + 1) % 2 ^ 64, turn := 0 }
  pushDue s (clockSteps s)

/-! ### The next step -/

/-- Steps that can occur while every clock of the module is frozen (R400): no clock of the module brings them about. -/
def whileFrozen (i : Instr) : Bool :=
  match i with
  | .cxlPortDown | .freezeRelease | .scanChainShift | .externalLinkDown | .managementReset | .powerCycle | .statusQuery => true
  | _ => false

/-- Take a due step out of the list: the first, or while frozen the first that can occur. -/
def takeDue (s : State) : Option (Due × State) :=
  if s.frozen then
    match s.due.find? (fun e => whileFrozen e.instr) with
    | none => none
    | some e => some (e, { s with due := s.due.erase e })
  else match s.due with
    | [] => none
    | e :: r => some (e, { s with due := r })

/-- What the machine does next. -/
inductive Action where
  /-- A due step, or a step in place of a candidate's slot: no time passes. -/
  | event (e : Due) (s : State)
  /-- The slot of a candidate at a position: the state in which its instruction executes. -/
  | slot (i : Instr) (x : Candidate) (s : State)
  /-- A slot of a candidate's address stream issues ahead of its compute stream: the state in which its instruction executes (R153). -/
  | ahead (i : Instr) (x : Candidate) (w : Ahead) (s : State)
  /-- The same, where the slot cannot be fetched: it waits for its place. -/
  | aheadFails (x : Candidate)
  /-- The slot of a candidate cannot be fetched or decoded. -/
  | abort (a : Abort) (x : Candidate) (s : State)
  /-- Every position has had its turn in this clock: the clock passes. -/
  | idle
  /-- Every clock is stopped. -/
  | stopped

/-- What a candidate whose address stream issues does. -/
def aheadAction (s : State) (turn : Nat) (x : Candidate) (w : Ahead) : Action :=
  match fetchAt { s with turn := turn } x w.pc with
  | .ok (i, t) => .ahead i x w t
  | .error _ => .aheadFails x

/-- What the compute stream of a candidate does. -/
def slotAction (s : State) (turn : Nat) (x : Candidate) : Action :=
  match boundaryEvent s x with
  | some e => .event e s
  | none =>
    let s := { s with turn := turn }
    match fetchInstr s x with
    | .ok (i, t) => .slot i x t
    | .error a => .abort a x (preLatch s x)

/-- What the candidate that issues does: its next slot, or where its compute stream waits one of its address stream (R153). -/
def candidateAction (s : State) (turn : Nat) (x : Candidate) : Action :=
  match (if aheadReady s x then nextAhead s x else none) with
  | some w => aheadAction s turn x w
  | none => slotAction s turn x

/-- What the machine does next. -/
def nextAction (s : State) : Action :=
  match takeDue s with
  | some (e, t) => .event e t
  | none =>
    if s.frozen then .stopped
    else match parkedDelivery s with
      | some e => .event e s
      | none => match pick s with
        | some (turn, x) => candidateAction s turn x
        | none => .idle

/-- Do something to the next state of an outcome. -/
def afterwards (o : Host.Outcome State Fault Refusal) (f : State → State) : Host.Outcome State Fault Refusal :=
  match o with
  | .next s => .next (f s)
  | .fault r => .fault r
  | .refused r => .refused r

/-! ### A program in place (entry 6) -/

/-- A launch whose code object is object 2, of one team with one supervisor group of eight quads. -/
def placedLaunch (code : Cap) : Launch :=
  { Launch.empty with
    code := code, roles := [(0, ⟨0, 8, 1, 1, 240, none, none⟩)], scratch := 65536, flags := 8, nz := 8, matrix := 7, admitted := 1 }

/-- Its team: the first 64 KiB of the scratchpad and the matrix resources. -/
def placedTeam : Team := { Team.empty with size := 65536, acc0 := true, acc1 := true, weights := true }

/-- Core 0 runs that launch, whose first course, with `w` in slot 0 and a batten word of 0, is in the instruction cache; the next
step issues its one group. -/
def placeWord (s : State) (_nbits w : Nat) : State :=
  let code : Cap := ⟨true, 2, 0, 128, 0x05⟩
  let l := placedLaunch code
  let d : Desc := ⟨2, 1, false, 0, false, false, false, true, 128, 0, 0, 0⟩
  let k := getCore s 0
  let k := { k with
    running := true, stopped := none
    groups := [(0, freshGroup l 0 0 0 0 0 0 s.clock false)]
    teams := [(0, placedTeam)]
    descs := k.descs.filter (fun e => e.id != 2) ++ [d]
    icache := insertKey k.icache (2 * 2 ^ 37) (leBytes 16 (w % 2 ^ 32 * 2 ^ 32) ++ List.replicate 112 0) }
  setCore { s with due := [], frozen := false, turn := 0, launches := insertKey s.launches 0 l } 0 k

end Sys2Proof.Machine
end

