-- ==== Sys2Proof/Machine/Step.lean ====
section
/-!
DEFINITION. One step of the machine, and a state whose next step runs a given instruction.
-/

namespace Sys2Proof.Machine

/-- One step: a due step, or the slot of a candidate in the clock that runs, which take no time, or the end of the clock. -/
def step (s : State) : Host.Outcome State Fault Refusal :=
  match nextAction s with
  | .event e t => exec e.instr { t with ev := e.event }
  | .slot i x t => afterwards (exec i t) (fun u => settle x (replayAhead x i t u))
  | .ahead i x w t => takeAhead s x w t i (exec i t)
  | .aheadFails x => .next (tryLater s x)
  | .abort a x t => afterwards (finish t (.error a)) (settle x)
  | .idle => .next (tick s)
  | .stopped => .next s

/-- The machine with the instruction whose word is `w` where the next step fetches (entry 6). -/
def State.withFetchWord (s : State) (nbits w : Nat) : State := placeWord s nbits w

end Sys2Proof.Machine
end

