-- ==== Sys2Proof/Safety.lean ====
section
/-!
DEFINITION. The terms in which statements speak: the canonical memories of a state, when an instruction executes normally, what a
lane, predicate or uniform instruction has done when it completes, and what it leaves alone (spec/06 R130, spec/07 R163 to R182).
-/

namespace Sys2Proof.Machine

/-- Every memory of the state is in its canonical form. -/
def State.memWf (s : State) : Bool :=
  s.hbm.wf && s.pool.wf && s.cores.all (fun e => e.2.scratch.wf && e.2.weights.wf && e.2.reserve.wf)

/-- The clocks are frozen, the scan chain has shifted, and no reset is due: after the shift the module must be reset (R379),
and only a management reset or a power cycle leads back. -/
def State.locked (s : State) : Bool :=
  s.frozen && s.scanned && s.due.all (fun e => e.instr != .managementReset && e.instr != .powerCycle)

/-! ### Lanes of the issuing group -/

/-- Content of lane `i` of a name of the issuing group, as a read finds it once every result is ready; 0 for an unmapped name. -/
def laneOf (s : State) (name i : Nat) : Word := qget (lookup (curGroup s).regs.lanes (8 * name + i / 4) QReg.zero) (i % 4)

/-- Content of a predicate of the issuing group. -/
def predOf (s : State) (p : Nat) : Word := lookup (curGroup s).regs.preds p 0

/-- No source is a stream register. -/
def noStreams (srcs : List Src) : Bool := (srcs.filterMap streamCode).isEmpty

/-- The operands of lane `i`, `sv` being what the stream registers among the sources supplied. -/
def operands (s : State) (sv : StreamVals) (srcs : List Src) (i : Nat) : List Word := laneArgs (srcs.map (srcLanes s sv)) i

/-- The destination lane of lane `i` (R168). -/
def destLane (s : State) (d : BitVec 7) (i : Nat) : Nat := fieldLane (curGroup s) d i

/-- Lane `i` is the last active lane that writes its destination lane, which the group has. -/
def writesLane (s : State) (d : BitVec 7) (i : Nat) : Prop :=
  i ∈ activeLanes s ∧ destLane s d i < Nat.min 32 (4 * (curGroup s).nquad)
    ∧ ∀ j ∈ activeLanes s, i < j → destLane s d j ≠ destLane s d i

/-- The names `d`, `d + 1`, … hold the `n` words of `vals` in the destination lanes of the active lanes. -/
def Wrote (s t : State) (d : BitVec 7) (n : Nat) (vals : Nat → Nat → Word) : Prop :=
  ∀ i k, writesLane s d i → k < n → laneOf t (nameOf (curGroup s) d + k) (destLane s d i) = vals i k

/-- The names that last-read bits free: `na` names of a, `nb` of b, but for those that the slot writes (R166). -/
def lastNames (s : State) (o : OpInfo) (na nb : Nat) (written : List Nat) : List Nat :=
  ((if ctlLastA s then fieldNames (curGroup s) o.srcA na else [])
    ++ (if ctlLastB s then fieldNames (curGroup s) o.srcB nb else [])).filter (fun m => !written.contains m)

/-- The names of a destination field of `n` words. -/
def destNames (s : State) (d : BitVec 7) (n : Nat) : List Nat := (upTo n).map (fun k => nameOf (curGroup s) d + k)

/-- Every other lane of every name keeps its content. -/
def KeptLanes (s t : State) (o : OpInfo) (na nb : Nat) (d : BitVec 7) (n : Nat) : Prop :=
  ∀ name j, j < 32 → name ∉ lastNames s o na nb (destNames s d n) →
    (∀ i ∈ activeLanes s, ∀ k < n, name = nameOf (curGroup s) d + k → destLane s d i = j → False) →
    laneOf t name j = laneOf s name j

/-! ### What an instruction leaves alone -/

/-- Every byte and tag of every memory is as it was, and so are the dies with their caches, the teams, launches, bundles,
partitions and streams. -/
structure SameMemory (s t : State) : Prop where
  bytes   : ∀ a, memRead t.hbm a = memRead s.hbm a ∧ memRead t.pool a = memRead s.pool a
  tags    : t.tags = s.tags
  marks   : t.poison = s.poison ∧ t.lineKeys = s.lineKeys ∧ t.poolPoison = s.poolPoison
  scratch : ∀ c a, memRead (getCore t c).scratch a = memRead (getCore s c).scratch a
  weights : ∀ c a, memRead (getCore t c).weights a = memRead (getCore s c).weights a
  reserve : ∀ c a, memRead (getCore t c).reserve a = memRead (getCore s c).reserve a
  dies    : t.dies = s.dies
  runs    : t.launches = s.launches ∧ t.bundles = s.bundles ∧ t.partitions = s.partitions ∧ t.streams = s.streams
  teams   : ∀ c, (getCore t c).teams = (getCore s c).teams

/-- No other group changes, and no step becomes due. -/
structure SameOthers (s t : State) : Prop where
  groups : ∀ c g, (c ≠ s.cur.core ∨ g ≠ s.cur.slot) → getGroup t c g = getGroup s c g
  due    : t.due = s.due

/-- A group without what an instruction of the lanes may change: its quads, lane registers with their poison and with what is yet to
come into them, predicates and uniform
registers, FPFLAGS and REGSTAT, RETIRED, its regions and its counters. -/
def Group.rest (g : Group) : Group :=
  { g with
    quads := [], regions := [], stats := Stats.fresh 0
    regs := { g.regs with lanes := [], pend := [], preds := [], unif := [], bad := [], late := [] }
    spec := { g.spec with fpflags := 0, regstat := false, retired := 0 } }

/-- The stores that a group holds. -/
def Group.held (g : Group) : List StoreOp := g.regions.flatMap (fun r => r.stores)

/-- A group keeps everything but its quads' places, its lane, predicate and uniform registers, FPFLAGS and REGSTAT, RETIRED and
its counters. -/
structure Keeps (g h : Group) : Prop where
  rest  : h.rest = g.rest
  held  : h.held = g.held
  quads : ∀ q, (getQuad h q).mask = (getQuad g q).mask ∧ (getQuad h q).stack = (getQuad g q).stack
    ∧ (getQuad h q).member = (getQuad g q).member ∧ (getQuad h q).exited = (getQuad g q).exited

/-- Nothing changes but the issuing group, and that keeps what `Keeps` says. -/
structure IssuerOnly (s t : State) : Prop where
  memory : SameMemory s t
  others : SameOthers s t
  group  : Keeps (curGroup s) (curGroup t)

/-- The issuing quads stand at an address, with the stall count in force for the stream that the slot belongs to and no wait (R130,
R180). -/
def WentTo (s t : State) (pc : Word) : Prop :=
  ∀ q ∈ s.cur.quads, (getQuad (curGroup t) q).pc = pc ∧ (getQuad (curGroup t) q).park = .none
    ∧ (if ctlAstr s then (getQuad (curGroup t) q).stallAddr else (getQuad (curGroup t) q).stallUntil) = s.clock + Nat.max 1 (ctlStall s)

/-! ### An instruction of the lanes -/

/-- No source, no capability register of a stream that the slot uses, and no guard waits for a result, none is poisoned, and no checking
flag of R183 finds a fault in them (R71, R173, R182). -/
def Ready (s : State) (o : OpInfo) (srcs : List Src) : Prop :=
  checkWait s (srcs ++ streamCaps (curGroup s) (dstStream o.dst)) = .ok () ∧ checkUnder s srcs [] = .ok ()

/-- An instruction with these static facts reads its sources: they have these values, `t` being the state in which the streams among
them have advanced, and no check of class 0xB fails (R166, R171, R173, R182). -/
def Reads (s : State) (o : OpInfo) (srcs : List Src) (vals : List Lanes) (t : State) : Prop :=
  readSources s o srcs = .ok (vals, t) ∧ checkUnder s srcs [] = .ok ()

/-- A lane instruction with these static facts, sources and destination executes normally: no row of Table 7-11 holds and no
pattern crosses quads while parted (R169), its names exist, no checking flag of R183 finds a fault, and the destination fits the
role's peak and the free registers (R148, R146). Sources and destination are registers, literals or predicates. -/
structure LaneRuns (s : State) (o : OpInfo) (srcs : List Src) (d : BitVec 7) (n : Nat) : Prop where
  slot   : checkSlot s o = .ok ()
  range  : srcs.any (srcRange s) = false
  dst    : dstRange s d n = false
  plain  : noStreams srcs = true
  flow   : streamFault s srcs o.dst = none
  reg    : isStream d = false
  ready  : Ready s o srcs
  peak   : peakBad (noteDead s srcs) d n = false
  credit : creditShort (noteDead s srcs) d n = false

/-- What a lane instruction has done: its results stand in the destination lanes of the active lanes, every other lane keeps
its content but for names freed by last-read bits, its flags are raised, its quads have gone on, and nothing else changed. -/
structure LaneDone (s t : State) (o : OpInfo) (na nb : Nat) (d : BitVec 7) (n : Nat) (vals : Nat → Nat → Word)
    (flags : BitVec 5) : Prop where
  wrote : Wrote s t d n vals
  kept  : KeptLanes s t o na nb d n
  flags : (curGroup t).spec.fpflags = (curGroup s).spec.fpflags ||| flags
  went  : WentTo s t s.cur.nextPc
  preds : (curGroup t).regs.preds = (curGroup s).regs.preds
  unif  : (curGroup t).regs.unif = (curGroup s).regs.unif
  frame : IssuerOnly s t

/-- The exception flags that the active lanes raise. -/
def laneFlags (s : State) (fl : Nat → BitVec 5) : BitVec 5 := (activeLanes s).foldl (fun m i => m ||| fl i) 0

/-- The result of a lane instruction: `f` gives, from the operands of a lane, the result words and the flags. First for register
operands; then with stream registers among them (R171), where `sv` is what the streams supply, `u` the state in which they have
advanced, and `v` the state after the result is written, to lane registers or to a stream. -/
def LaneResult (i : Instr) (s : State) (o : OpInfo) (srcs : List Src) (na nb : Nat) (d : BitVec 7) (n lat : Nat)
    (f : List Word → List Word × BitVec 5) : Prop :=
  (LaneRuns s o srcs d n → ∃ t, exec i s = .next t
    ∧ LaneDone s t o na nb d n (fun i k => (f (operands s [] srcs i)).1.getD k 0)
        (laneFlags s (fun i => (f (operands s [] srcs i)).2)))
  ∧ ∀ sv u v, checkSlot s o = .ok () → srcs.any (srcRange s) = false → dstRange s d n = false → streamFault s srcs o.dst = none →
      streamSources s srcs = .ok (sv, u) → Ready s o srcs →
      writeDst (noteDead u srcs) d (lat + patLat ([d] ++ o.srcA.toList ++ o.srcB.toList))
        ((upTo n).map (fun k => (upTo 32).map (fun i => (f (operands s sv srcs i)).1.getD k 0))) = .ok v →
      exec i s = .next (retire (orFlags (applyLast v o na nb (dstNames s (some d) n))
        (laneFlags s (fun i => (f (operands s sv srcs i)).2))))

/-- The result of an instruction of the special-function unit (R216): as a lane instruction while the unit is free, which it then
occupies for half a clock for each quad, rounded up; while the unit is busy its quads wait. -/
def SfuResult (i : Instr) (s : State) (o : OpInfo) (srcs : List Src) (na nb : Nat) (d : BitVec 7)
    (f : List Word → List Word × BitVec 5) : Prop :=
  (LaneRuns s o srcs d 1 → (getCore s s.cur.core).sfuFree ≤ s.clock → ∃ t, exec i s = .next t
    ∧ LaneDone s t o na nb d 1 (fun i k => (f (operands s [] srcs i)).1.getD k 0)
        (laneFlags s (fun i => (f (operands s [] srcs i)).2))
    ∧ (getCore t s.cur.core).sfuFree = s.clock + (s.cur.quads.length + 1) / 2)
  ∧ (LaneRuns s o srcs d 1 → s.clock < (getCore s s.cur.core).sfuFree → exec i s = .next (holdIssue s .special))
  ∧ ∀ u, laneOp s o srcs na nb d 1 24 f = .ok u → (getCore s s.cur.core).sfuFree ≤ s.clock →
      exec i s = .next (retire (setCore u s.cur.core { getCore u s.cur.core with sfuFree := s.clock + (s.cur.quads.length + 1) / 2 }))

/-! ### An instruction with a lane result computed from all lanes (R213, R238 to R240) -/

/-- A cross-lane instruction executes normally: as a lane instruction of one word. `f` gives the results of the 32 lanes and the
flags from the values of the sources in all lanes. -/
def CrossResult (i : Instr) (s : State) (o : OpInfo) (srcs : List Src) (na nb : Nat) (d : BitVec 7)
    (f : List Lanes → Lanes × BitVec 5) : Prop :=
  (LaneRuns s o srcs d 1 → ∃ t, exec i s = .next t
    ∧ LaneDone s t o na nb d 1 (fun i _ => laneVal (f (srcs.map (srcLanes s []))).1 i) (f (srcs.map (srcLanes s []))).2)
  ∧ ∀ sv u v, checkSlot s o = .ok () → srcs.any (srcRange s) = false → streamFault s srcs o.dst = none →
      streamSources s srcs = .ok (sv, u) → Ready s o srcs →
      writeDst (noteDead u srcs) d 0 [(f (srcs.map (srcLanes s sv))).1] = .ok v →
      exec i s = .next (retire (orFlags (applyLast v o na nb (dstNames s (some d) 1)) (f (srcs.map (srcLanes s sv))).2))

/-! ### An instruction with predicate results (R235, R236) -/

/-- A P-format instruction with these static facts and sources executes normally. -/
structure PredRuns (s : State) (o : OpInfo) (srcs : List Src) (t f : BitVec 3) : Prop where
  slot  : checkSlot s { o with pBad := pairPred t f } = .ok ()
  range : srcs.any (srcRange s) = false
  plain : noStreams srcs = true
  flow  : streamFault s srcs o.dst = none
  ready : Ready s o srcs
  some_ : ¬ (t = 0 ∧ f = 0)

/-- What a P-format instruction has done: in the active lanes the true predicate holds the condition and the false predicate its
complement, p0 discarding; every other bit of every predicate is as it was, and nothing else changed. -/
structure PredDone (s u : State) (o : OpInfo) (na nb : Nat) (t f : BitVec 3) (c : Nat → Bool) (flags : BitVec 5) : Prop where
  truth  : t ≠ 0 → ∀ i < 32, (predOf u t.toNat).getLsbD i = if i ∈ activeLanes s then c i else (predOf s t.toNat).getLsbD i
  falsity : f ≠ 0 → ∀ i < 32, (predOf u f.toNat).getLsbD i = if i ∈ activeLanes s then !c i else (predOf s f.toNat).getLsbD i
  others : ∀ p, (p ≠ t.toNat ∨ t = 0) → (p ≠ f.toNat ∨ f = 0) → predOf u p = predOf s p
  lanes  : ∀ name j, j < 32 → name ∉ lastNames s o na nb [] → laneOf u name j = laneOf s name j
  flags  : (curGroup u).spec.fpflags = (curGroup s).spec.fpflags ||| flags
  went   : WentTo s u s.cur.nextPc
  unif   : (curGroup u).regs.unif = (curGroup s).regs.unif
  frame  : IssuerOnly s u

/-- The result of a P-format instruction: `c` gives, from the operands of a lane, the condition and the flags. With both
destinations p0 it has no effect; with stream registers among its sources, `sv` is what they supply and `v` the state in which
they have advanced. -/
def PredResult (i : Instr) (s : State) (o : OpInfo) (srcs : List Src) (na nb : Nat) (t f : BitVec 3) (lat : Nat)
    (c : List Word → Bool × BitVec 5) : Prop :=
  (PredRuns s o srcs t f → ∃ u, exec i s = .next u
    ∧ PredDone s u o na nb t f (fun i => (c (operands s [] srcs i)).1) (laneFlags s (fun i => (c (operands s [] srcs i)).2)))
  ∧ (t = 0 ∧ f = 0 → checkSlot s { o with pBad := pairPred t f } = .ok () → exec i s = .next (retire s))
  ∧ ∀ sv v, ¬ (t = 0 ∧ f = 0) → checkSlot s { o with pBad := pairPred t f } = .ok () → srcs.any (srcRange s) = false →
      streamFault s srcs o.dst = none → streamSources s srcs = .ok (sv, v) → Ready s o srcs →
      exec i s = .next (retire (orFlags (applyLast (writeCond (noteDead v srcs) t f (lat + patLat (o.srcA.toList ++ o.srcB.toList))
        (laneMask (fun i => (c (operands s sv srcs i)).1))) { o with pBad := pairPred t f } na nb [])
        (laneFlags s (fun i => (c (operands s sv srcs i)).2))))

/-! ### An instruction with uniform results (R214) -/

/-- What a uniform instruction has done: the value stands in its register, every other register is as it was. -/
structure UnifDone (s t : State) (d : Nat) (v : Word) : Prop where
  value  : lookup (curGroup t).regs.unif d 0 = v
  others : ∀ u, u ≠ d → lookup (curGroup t).regs.unif u 0 = lookup (curGroup s).regs.unif u 0
  lanes  : (curGroup t).regs.lanes = (curGroup s).regs.lanes ∧ (curGroup t).regs.preds = (curGroup s).regs.preds
  flags  : (curGroup t).spec = { (curGroup s).spec with retired := (curGroup s).spec.retired + 1 }
  went   : WentTo s t s.cur.nextPc
  frame  : IssuerOnly s t

/-- A uniform instruction with these static facts and sources: with an active lane register `d` becomes `v`; with none it
has no effect (R214). -/
def UnifResult (i : Instr) (s : State) (o : OpInfo) (srcs : List Src) (d : Nat) (v : Word) : Prop :=
  checkSlot s o = .ok () → checkReady s srcs [] = .ok () →
    ∃ t, exec i s = .next t ∧ if (activeLanes s).isEmpty then t = retire s else UnifDone s t d v

/-! ### Counted instructions (R172) -/

/-- The dependence counter that an instruction names, if any, can take one operation more, or no lane is active. -/
def CountFree (s : State) (ctr : Nat) : Prop :=
  ctr = 0 ∨ (activeLanes s).isEmpty = true ∨ lookup (curGroup s).regs.dcs ctr 0 < 63

/-! ### Instructions that the group executes once (R214, R258) -/

/-- The checks of an instruction that the group executes once pass, and some lane is active. -/
def Once (s : State) (o : OpInfo) (srcs : List Src) : Prop :=
  checkSlot s o = .ok () ∧ checkReady s srcs [] = .ok () ∧ (activeLanes s).isEmpty = false

/-- The same for an instruction that a parted group and the supervisor lane may not execute. -/
def OnceWhole (s : State) (o : OpInfo) (srcs : List Src) : Prop :=
  Once s { o with noLane := true } srcs ∧ isParted (curGroup s) = false

/-- The same for a reed instruction whose registers exist. -/
def ReedOnce (s : State) (zs : List Nat) : Prop :=
  Once s { noLane := true } [] ∧ reedNames s zs = .ok ()

/-- A barrier instruction whose offset register is `a`, with sources `srcs`, finds barrier `b` active at its offset, which is
aligned and inside the allocation (R258). -/
def BarrierAt (s : State) (a : BitVec 5) (srcs : List Src) (b : Barrier) : Prop :=
  OnceWhole s {} (.unif a.toNat :: srcs) ∧ barrierOff s a = .ok b.offset ∧ getBarrier (curTeam s) b.offset = some b

/-- A truss instruction of the launch's own truss `t` executes normally. -/
def TrussOnce (s : State) (o : OpInfo) (srcs : List Src) (t : Truss) : Prop :=
  Once s { o with noLane := true } srcs ∧ ownTruss s = .ok t

/-- A boundary instruction may perform: its region may end, and with `u` the stores and reductions of its own region have
performed (R117, R122, R151). -/
def Releases (s u : State) : Prop := regionsFull s = false ∧ releaseOwn s = .ok u

/-- The outcome of an instruction that retires after an effect and ends its region. -/
def regionEnds (s u : State) : Host.Outcome State Fault Refusal := .next (endRegion (retire u) s.cur.core s.cur.slot)

/-- What a control slot has done: its quads stand where they were put, other quads and all registers are as `u` has them. -/
structure FlowDone (s u t : State) (place : Nat → Quad) : Prop where
  places : ∀ q ∈ s.cur.quads, (getQuad (curGroup t) q).pc = (place q).pc ∧ (getQuad (curGroup t) q).mask = (place q).mask
    ∧ (getQuad (curGroup t) q).stack = (place q).stack
  others : ∀ q, q ∉ s.cur.quads → (getQuad (curGroup t) q).pc = (getQuad (curGroup s) q).pc
    ∧ (getQuad (curGroup t) q).mask = (getQuad (curGroup s) q).mask ∧ (getQuad (curGroup t) q).stack = (getQuad (curGroup s) q).stack
  regs   : (curGroup t).regs = (curGroup u).regs
  memory : SameMemory u t

end Sys2Proof.Machine
end

