-- ==== Sys2Proof/Certificates/Slice0/Obligations.lean ====
section
/-!
DEFINITION. The statements for the provers, from the numbered rules of spec/.
-/

open Sys2Proof Sys2Proof.Machine

/-! ### Lane arithmetic (spec/10) -/

/-- Integer arithmetic and logic of two or three sources: the value in every destination lane (R217, R218, R222), with the frame. -/
def Obligations.IntegerResults : Prop :=
  ∀ (s : State) (d a b : BitVec 7) (sg : BitVec 1) (sh : BitVec 3) (p : BitVec 3),
    let two := fun (i : Instr) (f : Word → Word → Word) =>
      LaneResult i s (intInfo d a b) [.reg a 0, srcB s b 0] 1 1 d 1 2 (fun v => ([f (arg v 0) (arg v 1)], 0))
    two (.add d a b) (fun x y => x + y) ∧ two (.sub d a b) (fun x y => x - y) ∧ two (.mul d a b) (fun x y => x * y)
    ∧ two (.mulhi sg d a b) (mulHigh (sg == 1))
    ∧ two (.min sg d a b) (fun x y => if lessW (sg == 1) y x then y else x)
    ∧ two (.max sg d a b) (fun x y => if lessW (sg == 1) x y then y else x)
    ∧ two (.absdiff sg d a b) (absDiffW (sg == 1))
    ∧ two (.and d a b) (fun x y => x &&& y) ∧ two (.or d a b) (fun x y => x ||| y) ∧ two (.xor d a b) (fun x y => x ^^^ y)
    ∧ two (.andn d a b) (fun x y => x &&& ~~~y)
    ∧ two (.shl d a b) (fun x y => shlW x y.toNat) ∧ two (.shr d a b) (fun x y => shrW x y.toNat)
    ∧ two (.sar d a b) (fun x y => sarW x y.toNat) ∧ two (.rol d a b) (fun x y => rolW x y.toNat)
    ∧ two (.bfx sg d a b) (bfxW (sg == 1))
    ∧ two (.lea sh d a b) (fun x y => x + (y <<< sh.toNat))
    ∧ LaneResult (.mad d a b) s { intInfo d a b with encBad := readDstBad d } [.reg a 0, srcB s b 0, .reg d 0] 1 1 d 1 2
        (fun v => ([arg v 0 * arg v 1 + arg v 2], 0))
    ∧ LaneResult (.bfi d a b) s { intInfo d a b with encBad := readDstBad d } [.reg a 0, srcB s b 0, .reg d 0] 1 1 d 1 2
        (fun v => ([bfiW (arg v 0) (arg v 1) (arg v 2)], 0))
    ∧ LaneResult (.sel p d a b) s (intInfo d a b) [.reg a 0, srcB s b 0, .pred p.toNat] 1 1 d 1 2
        (fun v => ([if arg v 2 = 1 then arg v 0 else arg v 1], 0))

/-- Integer instructions of one source, moves and 64-bit pairs (R217 to R222), with the frame; nop retires and does nothing
else (R179). -/
def Obligations.UnaryAndPairResults : Prop :=
  ∀ (s : State) (d a b : BitVec 7) (i : BitVec 7) (f : BitVec 2) (m : BitVec 14) (g : BitVec 3),
    let one := fun (x : Instr) (h : Word → Word) =>
      LaneResult x s (intInfo1 d a) [.reg a 0] 1 0 d 1 2 (fun v => ([h (arg v 0)], 0))
    let pair := fun (x : Instr) (h : BitVec 64 → BitVec 64 → BitVec 64) =>
      LaneResult x s { intInfo d a b with lit := 64, encBad := pairBad ([d, a] ++ (if s.cur.literal.isSome then [] else [b])) }
        [.reg a 0, .reg a 1, srcB s b 0, srcB s b 1] 2 2 d 2 2
        (fun v => let r := h (arg v 1 ++ arg v 0) (arg v 3 ++ arg v 2); ([r.extractLsb' 0 32, r.extractLsb' 32 32], 0))
    one (.addi d a i) (fun x => x + i.signExtend 32) ∧ one (.abs d a) absW ∧ one (.shi f d a i) (fun x => shiW f x i.toNat)
    ∧ one (.clz d a) clzW ∧ one (.popc d a) popcW ∧ one (.brev d a) brevW
    ∧ LaneResult (.mov d b) s { lit := 32, astr := true, srcB := some b, dst := some d, bUsed := b != 0 } [srcB s b 0] 0 1 d 1 2
        (fun v => ([arg v 0], 0))
    ∧ LaneResult (.movi d m) s { astr := true, dst := some d } [] 0 0 d 1 2 (fun _ => ([m.signExtend 32], 0))
    ∧ pair (.add64 d a b) (fun x y => x + y) ∧ pair (.sub64 d a b) (fun x y => x - y)
    ∧ LaneResult (.sh64 g d a b) s { intInfo d a b with fnBad := decide (2 < g.toNat), encBad := pairBad [d, a] }
        [.reg a 0, .reg a 1, srcB s b 0] 2 1 d 2 2
        (fun v => let r := sh64W g (arg v 1 ++ arg v 0) (arg v 2).toNat; ([r.extractLsb' 0 32, r.extractLsb' 32 32], 0))
    ∧ (slotFault s {} = none → exec .nop s = .next (retire s))

/-- The integer functions of Tables 10-2 to 10-5 as arithmetic on the exact integers (R217 to R220, R222): products, minima,
differences and shifts. -/
def Obligations.IntegerFunctions : Prop :=
  (∀ x y : Word, mulHigh true x y = BitVec.ofInt 32 (x.toInt * y.toInt / 2 ^ 32)
    ∧ mulHigh false x y = BitVec.ofNat 32 (x.toNat * y.toNat / 2 ^ 32))
  ∧ (∀ x y : Word, (minW true x y).toInt = min x.toInt y.toInt ∧ (maxW true x y).toInt = max x.toInt y.toInt
    ∧ (minW false x y).toNat = min x.toNat y.toNat ∧ (maxW false x y).toNat = max x.toNat y.toNat)
  ∧ (∀ x y : Word, (absDiffW true x y).toNat = (x.toInt - y.toInt).natAbs
    ∧ (absDiffW false x y).toNat = ((x.toNat : Int) - y.toNat).natAbs)
  ∧ (∀ x : Word, x ≠ 0x80000000 → (absW x).toNat = x.toInt.natAbs) ∧ absW 0x80000000 = 0x80000000
  ∧ (∀ (x : Word) (c : Nat), shlW x c = BitVec.ofNat 32 (x.toNat * 2 ^ c) ∧ (shrW x c).toNat = x.toNat / 2 ^ c
    ∧ (sarW x c).toInt = x.toInt / 2 ^ c)
  ∧ (∀ (x : Word) (c i : Nat), i < 32 → (rolW x c).getLsbD ((i + c) % 32) = x.getLsbD i)
  ∧ (∀ (x : Word) (i : Nat), i < 32 → (brevW x).getLsbD (31 - i) = x.getLsbD i)
  ∧ (∀ x : Word, x ≠ 0 → x.toNat / 2 ^ (31 - (clzW x).toNat) = 1) ∧ clzW 0 = 32
  ∧ (∀ x y : Word, (bfxW false x y).toNat = x.toNat / 2 ^ fieldPos y % 2 ^ fieldWid y)
  ∧ (∀ (x y z : Word) (i : Nat), i < 32 → (bfiW x y z).getLsbD i
      = if fieldPos y ≤ i ∧ i < fieldPos y + fieldWid y then x.getLsbD (i - fieldPos y) else z.getLsbD i)

/-- FP32 arithmetic outside the special-function unit (R223, R224, R225): the correctly rounded result of each destination lane with its exception
flags, with the frame. The special functions (R226) also occupy their unit. Entry 9 of the log says what is the model's choice here. -/
def Obligations.FloatResults : Prop :=
  (∀ (s : State) (d a b : BitVec 7) (n : BitVec 1) (r : BitVec 2) (g : BitVec 3),
      let two := fun (x : Instr) (h : Nat → Nat → Nat × FFlags) =>
        LaneResult x s (fpInfo d a b) [.reg a 0, srcB s b 0] 1 1 d 1 4 (fun v => fpOut (h (arg v 0).toNat (arg v 1).toNat))
      let one := fun (x : Instr) (h : Nat → Nat × FFlags) =>
        LaneResult x s (fpInfo1 d a) [.reg a 0] 1 0 d 1 4 (fun v => fpOut (h (arg v 0).toNat))
      let three := fun (x : Instr) (h : Nat → Nat → Nat → Nat × FFlags) =>
        LaneResult x s { fpInfo d a b with encBad := readDstBad d } [.reg a 0, srcB s b 0, .reg d 0] 1 1 d 1 4
          (fun v => fpOut (h (arg v 2).toNat (arg v 0).toNat (arg v 1).toNat))
      two (.fadd n r d a b) (fun x y => fpAdd fp32 r.toNat x (flipSign fp32 (n == 1) y))
      ∧ two (.fmul n r d a b) (fun x y => fpMul fp32 r.toNat x (flipSign fp32 (n == 1) y))
      ∧ three (.fma n r d a b) (fun z x y => fpFma fp32 r.toNat (n == 1) z x y)
      ∧ two (.fmin d a b) (fpMinMax fp32 false) ∧ two (.fmax d a b) (fpMinMax fp32 true)
      ∧ LaneResult (.fsgn g d a b) s { fpInfo d a b with fnBad := decide (2 < g.toNat) } [.reg a 0, srcB s b 0] 1 1 d 1 4
          (fun v => ([fsgnW g (arg v 0) (arg v 1)], 0))
      ∧ one (.frnd r d a) (fpRound r.toNat) ∧ one (.fclass d a) (fun x => (fpClass x, 0)) ∧ three (.fclamp d a b) fpClamp)
    ∧ (∀ (s : State) (d a b : BitVec 7),
      let one := fun (x : Instr) (h : Nat → Nat × FFlags) =>
        SfuResult x s (fpInfo1 d a) [.reg a 0] 1 0 d (fun v => fpOut (h (arg v 0).toNat))
      SfuResult (.fdiv d a b) s (fpInfo d a b) [.reg a 0, srcB s b 0] 1 1 d (fun v => fpOut (fpDiv (arg v 0).toNat (arg v 1).toNat))
      ∧ one (.fsqrt d a) fpSqrt ∧ one (.frcp d a) fpRcp ∧ one (.frsq d a) fpRsq ∧ one (.fex2 d a) fpExp2 ∧ one (.flg2 d a) fpLog2
      ∧ one (.fsinpi d a) fpSinPi ∧ one (.fcospi d a) fpCosPi)

/-- Packed 16-bit arithmetic and conversions (R227 to R230), with the frame.
Lane block instructions (R232 to R234). -/
def Obligations.PackedAndConversionResults : Prop :=
  (∀ (s : State) (d a b : BitVec 7) (t sg h : BitVec 1) (r f : BitVec 2),
      let two := fun (x : Instr) (g : Nat → Nat → Nat × FFlags) =>
        LaneResult x s (fpInfo d a b) [.reg a 0, srcB s b 0] 1 1 d 1 4 (fun v => fpOut (g (arg v 0).toNat (arg v 1).toNat))
      let one := fun (x : Instr) (g : Nat → Nat × FFlags) =>
        LaneResult x s (fpInfo1 d a) [.reg a 0] 1 0 d 1 4 (fun v => fpOut (g (arg v 0).toNat))
      two (.hadd2 t d a b) (fun x y => packed (fun j => fpAdd (halfFmt t) 0 (half x j) (half y j)))
      ∧ two (.hmul2 t d a b) (fun x y => packed (fun j => fpMul (halfFmt t) 0 (half x j) (half y j)))
      ∧ LaneResult (.hfma2 t d a b) s { fpInfo d a b with encBad := readDstBad d } [.reg a 0, srcB s b 0, .reg d 0] 1 1 d 1 4
          (fun v => fpOut (packed (fun j =>
            fpFma (halfFmt t) 0 false (half (arg v 2).toNat j) (half (arg v 0).toNat j) (half (arg v 1).toNat j))))
      ∧ two (.hmin2 t d a b) (fun x y => packed (fun j => fpMinMax (halfFmt t) false (half x j) (half y j)))
      ∧ two (.hmax2 t d a b) (fun x y => packed (fun j => fpMinMax (halfFmt t) true (half x j) (half y j)))
      ∧ one (.cvti2f r sg d a) (intToFp (sg == 1) r.toNat) ∧ one (.cvtf2i r sg d a) (fpToInt (sg == 1) r.toNat)
      ∧ two (.cvtpk16 t d a b) (fun x y => ((narrow (halfFmt t) false x).1 + (narrow (halfFmt t) false y).1 * 2 ^ 16,
          (narrow (halfFmt t) false x).2 ||| (narrow (halfFmt t) false y).2))
      ∧ one (.cvtup16 h t d a) (fun x => (widen (halfFmt t) (half x h.toNat), 0))
      ∧ LaneResult (.cvtpk8 sg f d a b) s { fpInfo d a b with fnBad := f == 3 } [.reg a 0, srcB s b 0] 1 1 d 1 4 (fun v =>
          let p := narrow (byteFmt f) (sg == 1) (arg v 0).toNat
          let q := narrow (byteFmt f) (sg == 1) (arg v 1).toNat
          fpOut (p.1 + q.1 * (if f = 2 then 2 ^ 4 else 2 ^ 8), p.2 ||| q.2))
      ∧ LaneResult (.cvtup8 f d a) s { fpInfo1 d a with fnBad := f == 3 } [.reg a 0] 1 0 d 1 4 (fun v =>
          fpOut (widen (byteFmt f) ((arg v 0).toNat % (if f = 2 then 2 ^ 4 else 2 ^ 8)), 0)))
    ∧ (∀ (s : State) (d a b : BitVec 7) (sg : BitVec 1) (f : BitVec 2),
      LaneResult (.qenc sg f d a b) s { fpInfo d a b with fnBad := f == 3 || (f == 2 && sg == 1) } [.reg a 0, srcB s b 0] 1 1 d 1 4
        (fun v => fpOut (qencLane (sg == 1) f (arg v 0).toNat (arg v 1).toNat))
      ∧ LaneResult (.qdec f d a b) s { fpInfo d a b with fnBad := f == 3 } [.reg a 0, srcB s b 0] 1 1 d 1 4
        (fun v => fpOut (qdecLane f (arg v 0).toNat (arg v 1).toNat))
      ∧ let qn := f == 2
        let o : OpInfo := { lit := if qn then 32 else 0, srcA := some a, srcB := if qn then some b else none, dst := some d,
                            bUsed := b != 0, fnBad := f == 3, encBad := (!qn && b != 0) || (qn && isStream a) }
        let srcs : List Src := if qn then [.reg a 0, .reg a 1, srcB s b 0] else [.reg a 0]
        let val := fun (k : Nat) => activeVals s ((srcs.map (srcLanes s [])).getD k [])
        let xs := (val 0 ++ if qn then val 1 else []).map (unpack fp32)
        let r : Nat × FFlags := if qn
          then chooseQn (unpack fp32 (laneVal ((srcs.map (srcLanes s [])).getD 2 []) ((firstLane s).getD 0)).toNat) xs
          else (chooseE8 f.toNat false xs, 0)
        crossCheck s o = .ok () → LaneRuns s o srcs d 1 → ∃ t, exec (.qscal f d a b) s = .next t ∧
          if (activeLanes s).isEmpty then t = retire s
          else LaneDone s t o (if qn then 2 else 1) 1 d 1 (fun _ _ => wordOf r.1) (r.2 ||| nvIf (xs.any isSig)))

/-! ### Predicates and cross-lane data (spec/10) -/

/-- Comparisons, predicate logic and ctest (R235, R236, R237, R273): the pair of predicates, with the frame. -/
def Obligations.PredicateResults : Prop :=
  ∀ (s : State) (c t f : BitVec 3) (a b i : BitVec 7) (o : BitVec 2) (x y : BitVec 3) (k : BitVec 4),
    PredResult (.icmp c t f a b) s { lit := 32, srcA := some a, srcB := some b, bUsed := b != 0, fnBad := decide (5 < c.toNat) }
      [.reg a 0, srcB s b 0] 1 1 t f 2 (fun v => (condW c.toNat (arg v 0) (arg v 1), 0))
    ∧ PredResult (.icmpi c t f a i) s { srcA := some a, fnBad := decide (5 < c.toNat) } [.reg a 0] 1 0 t f 2
      (fun v => (condW c.toNat (arg v 0) (i.signExtend 32), 0))
    ∧ PredResult (.fcmp c t f a b) s { fpInfo 0 a b with dst := none, fnBad := decide (3 < c.toNat) }
      [.reg a 0, srcB s b 0] 1 1 t f 4 (fun v => fpCompare c.toNat (arg v 0).toNat (arg v 1).toNat)
    ∧ PredResult (.plog o t f x y) s {} [.pred x.toNat, .pred y.toNat] 0 0 t f 2
      (fun v => (plogB o (arg v 0 == 1) (arg v 1 == 1), 0))
    ∧ PredResult (.itop t f a) s { srcA := some a } [.reg a 0] 1 0 t f 2 (fun v => (arg v 0 != 0, 0))
    ∧ PredResult (.ctest t f k b) s { srcB := some b } [.reg b 0, .cap k.toNat] 0 1 t f 2
      (fun v => ((capAt (curGroup s) s.clock k.toNat).tag
        && decide ((arg v 0).toNat < capLen (capAt (curGroup s) s.clock k.toNat)), 0))

/-- Cross-lane results (R238 to R241, R213): votes, ballots, matches, reductions and scans over the active lanes, in a group that is not
parted; perm and vget also in a parted group, where a lane outside the issuing candidate is a convergence trap.
vote sets both predicates; vget takes one lane's value into a uniform register, and has no effect with no active lane (R214).
Which quads count as the issuing ones in a parted group is the model's choice (entry 56). -/
def Obligations.CrossLaneResults : Prop :=
  ∀ (s : State) (d a b : BitVec 7) (o : BitVec 3) (p : BitVec 3),
    (crossCheck s { dst := some d } = .ok () → CrossResult (.ballot d p) s { dst := some d } [.pred p.toNat] 0 0 d
      (fun v => (List.replicate 32 (activeSum s (fun j => laneVal (v.getD 0 []) j == 1)), 0)))
    ∧ (crossCheck s { srcA := some a, dst := some d } = .ok () →
        CrossResult (.matchAny d a) s { srcA := some a, dst := some d } [.reg a 0] 1 0 d (fun v =>
          ((upTo 32).map (fun i => activeSum s (fun j => laneVal (v.getD 0 []) j == laneVal (v.getD 0 []) i)), 0))
        ∧ CrossResult (.redux o d a) s { srcA := some a, dst := some d } [.reg a 0] 1 0 d (fun v =>
          (List.replicate 32 (wordOf (reduceTree (reduxStep o.toNat) (0, 0) (reduxIn s o.toNat (v.getD 0 []))).1),
            (reduceTree (reduxStep o.toNat) (0, 0) (reduxIn s o.toNat (v.getD 0 []))).2))
        ∧ CrossResult (.scan o d a) s { srcA := some a, dst := some d } [.reg a 0] 1 0 d (fun v =>
          ((scanSteps (reduxStep o.toNat) (0, 0) (reduxIn s o.toNat (v.getD 0 []))).map (fun x => wordOf x.1),
            (scanSteps (reduxStep o.toNat) (0, 0) (reduxIn s o.toNat (v.getD 0 []))).foldl (fun m x => m ||| x.2) 0)))
    ∧ (let o : OpInfo := { lit := 32, noLane := true, srcA := some a, srcB := some b, dst := some d, bUsed := b != 0 }
       let srcs : List Src := [.reg a 0, srcB s b 0]
       let f := fun (v : List Lanes) => ((upTo 32).map (fun i =>
         positionVal (curGroup s) (v.getD 0 []) ((laneVal (v.getD 1 []) i).toNat % 32)), (0 : BitVec 5))
       let stray := strayRead s a (namedLanes s (srcLanes s [] (srcB s b 0)))
       (isParted (curGroup s) = false → CrossResult (.perm d a b) s o srcs 1 1 d f)
       ∧ (LaneRuns s o srcs d 1 → stray = false → ∃ t, exec (.perm d a b) s = .next t
          ∧ LaneDone s t o 1 1 d 1 (fun i _ => laneVal (f (srcs.map (srcLanes s []))).1 i) 0)
       ∧ (LaneRuns s o srcs d 1 → stray = true → exec (.perm d a b) s = .next (takeTrap s { cls := 4, code := 0x01 })))
    ∧ LaneResult (.ptoi d p) s { dst := some d } [.pred p.toNat] 0 0 d 1 2 (fun v => ([arg v 0], 0))
    ∧ (∀ (u : BitVec 5), LaneResult (.vbcast d u) s { dst := some d } [.unif u.toNat] 0 0 d 1 2 (fun v => ([arg v 0], 0)))
    ∧ (∀ (s : State) (o : BitVec 2) (t f p : BitVec 3) (d : BitVec 5) (a b : BitVec 7),
      (crossCheck s { fnBad := o == 3, pBad := pairPred t f } = .ok () → checkReady s [.pred p.toNat] [] = .ok () →
        ∃ u, exec (.vote o t f p) s = .next u ∧ PredDone s u {} 0 0 t f
          (fun _ => voteB o ((activeLanes s).map (fun i => (readPred (curGroup s) s.clock p.toNat).getLsbD i))) 0)
      ∧ let info : OpInfo := { lit := 32, noLane := true, srcA := some a, srcB := some b, bUsed := b != 0 }
        let srcs : List Src := [.reg a 0, srcB s b 0]
        let n := fun (i : Nat) => (laneVal (srcLanes s [] (srcB s b 0)) i).toNat % 32
        checkSlot s info = .ok () → noStreams srcs = true → srcs.any (srcRange s) = false → streamFault s srcs none = none →
        checkReady s srcs [] = .ok () →
        (firstLane s = none → exec (.vget d a b) s = .next (retire s))
        ∧ ∀ i, firstLane s = some i →
          (strayRead s a [n i] = false → ∃ u, exec (.vget d a b) s = .next u
            ∧ lookup (curGroup u).regs.unif d.toNat 0 = positionVal (curGroup s) (srcLanes s [] (.reg a 0)) (n i)
            ∧ WentTo s u s.cur.nextPc ∧ IssuerOnly s u)
          ∧ (strayRead s a [n i] = true → exec (.vget d a b) s = .next (takeTrap s { cls := 4, code := 0x01 })))

/-! ### Uniform arithmetic (spec/10) -/

/-- Uniform instructions (R242, R214): the value in the uniform register and the frame; no effect with no active lane. -/
def Obligations.UniformResults : Prop :=
  ∀ (s : State) (d a b : BitVec 5) (r : BitVec 1) (c : BitVec 3) (f : BitVec 2) (i : BitVec 7) (m : BitVec 14),
    let x := readUnif (curGroup s) s.clock a.toNat
    let y := unifOrLit s b
    let two := fun (fnBad : Bool) (j : Instr) (v : Word) =>
      UnifResult j s { fnBad := fnBad, lit := 32, astr := true, bUsed := b != 0 } [.unif a.toNat, unifSrc s b] d.toNat v
    two false (.sadd d a b) (x + y) ∧ two false (.ssub d a b) (x - y) ∧ two false (.smul d a b) (x * y)
    ∧ two false (.sand d a b) (x &&& y) ∧ two false (.sor d a b) (x ||| y) ∧ two false (.sxor d a b) (x ^^^ y)
    ∧ two false (.sshl d a b) (shlW x y.toNat)
    ∧ two false (.sshr r d a b) (if r = 1 then sarW x y.toNat else shrW x y.toNat)
    ∧ two (decide (5 < c.toNat)) (.scmp c d a b) (if condW c.toNat x y then 1 else 0)
    ∧ two false (.sminmax f d a b) (if f.getLsbD 0 then maxW (!f.getLsbD 1) x y else minW (!f.getLsbD 1) x y)
    ∧ UnifResult (.saddi d a i) s { astr := true } [.unif a.toNat] d.toNat (x + i.signExtend 32)
    ∧ UnifResult (.smovi d m) s { astr := true } [] d.toNat (m.signExtend 32)
    ∧ UnifResult (.smov d b) s { lit := 32, astr := true, bUsed := b != 0 } [unifSrc s b] d.toNat y
    ∧ UnifResult (.ssel d a b) s { lit := 32, astr := true, bUsed := b != 0 } [.unif a.toNat, .unif d.toNat, unifSrc s b] d.toNat
        (if readUnif (curGroup s) s.clock d.toNat ≠ 0 then x else y)

/-! ### Execution state and control flow (spec/07, spec/11) -/

/-- rds writes the special register it names, and what it leaves in the special registers is what Table 7-5 says: a status register that it reads
is to be cleared when its region commits, in the supervisor lane at once (R174, R175, R256). wbase and setlp change the window base and a pattern
register and nothing else; dcw retires once its counters are at or below its limit and waits before (R257). -/
def Obligations.SpecialRegisterReads : Prop :=
  ∀ (s : State) (d : BitVec 7) (i : BitVec 8),
    (checkSlot s { dst := some d } = .ok () → (specialReg s i.toNat 0).isSome → checkReady s [] [] = .ok () → isStream d = false →
      dstRange s d 1 = false → peakBad s d 1 = false → creditShort s d 1 = false →
      ∃ t, exec (.rds d i) s = .next t ∧ Wrote s t d 1 (fun l _ => (specialReg s i.toNat l).getD 0) ∧ WentTo s t s.cur.nextPc
        ∧ SameMemory s t ∧ SameOthers s t
        ∧ (let bits := if (activeLanes s).isEmpty then 0 else readBits (curGroup s).spec i.toNat
           let g := if isLane s then clearBits (curGroup s) bits else curGroup s
           (curGroup t).spec.fpflags = g.spec.fpflags ∧ (curGroup t).spec.kstat = g.spec.kstat
           ∧ (curGroup t).spec.cpstat = g.spec.cpstat ∧ (curGroup t).spec.regstat = g.spec.regstat
           ∧ (isLane s = false → pendingClears (curGroup t) = pendingClears (curGroup s) ||| bits))
        ∧ (curGroup t).spec.clockHi = (if i.toNat = 0x0B ∧ (activeLanes s).isEmpty = false then wordOf (s.clock / 2 ^ 32)
            else (curGroup s).spec.clockHi))
    ∧ (∀ (s : State) (w : BitVec 14) (f : BitVec 2) (i : BitVec 8) (c : BitVec 13),
      (checkSlot s { p0 := true } = .ok () → w.toNat % 8 = 0 → w.toNat ≤ 224 → (isLane s = true → w.toNat ≤ 32) →
        exec (.wbase w) s = .next (retire (setCur s { curGroup s with regs := { (curGroup s).regs with wb := w.toNat } })))
      ∧ (f ≠ 0 → checkSlot s {} = .ok () → checkReady s [] [] = .ok () → fieldNat i 5 3 ≤ 3 → (fieldNat i 5 3 = 3 → fieldNat i 0 5 ≤ 5) →
        (activeLanes s).isEmpty = false →
        exec (.setlp f i) s = .next (retire (setCur s { curGroup s with regs :=
          { (curGroup s).regs with lps := insertKey (curGroup s).regs.lps f.toNat i } })))
      ∧ (checkSlot s {} = .ok () → checkReady s [] [] = .ok () →
        ((∀ n < 7, c.getLsbD n = true → lookup (curGroup s).regs.dcs (n + 1) 0 ≤ fieldNat c 7 6) → exec (.dcw c) s = .next (retire s))
        ∧ ((∃ n < 7, c.getLsbD n = true ∧ fieldNat c 7 6 < lookup (curGroup s).regs.dcs (n + 1) 0) → (activeLanes s).isEmpty = false →
          exec (.dcw c) s = .next (holdIssue s (.counter (2 * fieldNat c 0 7) (fieldNat c 7 6))))))

/-- Branches (R246, R129, R131): lanes that take a branch and lanes that do not part with the entries that R246 pushes; a uniform
branch and one under p0 push nothing. -/
def Obligations.BranchPlaces : Prop :=
  ∀ (s : State) (h : BitVec 2) (o : BitVec 19) (sl : BitVec 2),
    let target := branchTarget s.cur.pc o sl
    checkSlot s { encBad := targetBad s target } = .ok () → checkReady s [] [] = .ok () →
    (h = 3 → guardSplit s = false) →
    (∀ q ∈ s.cur.quads, (branchQuad s h q target).stack.length ≤ 16) →
    ∃ t, exec (.br h o sl) s = .next t ∧ ∃ place, FlowDone s s t place ∧ ∀ q ∈ s.cur.quads,
      let x := getQuad (curGroup s) q
      let taken := quadActive s q
      let kept := x.mask &&& ~~~taken
      let y := place q
      if plainGuard s = true ∨ h = 3 then y.pc = (if taken ≠ 0 then target else s.cur.nextPc) ∧ y.mask = x.mask ∧ y.stack = x.stack
      else if taken ≠ 0 ∧ kept ≠ 0 then
        (if h = 2 then y.pc = s.cur.nextPc ∧ y.mask = kept ∧ y.stack = ⟨true, target, taken⟩ :: ⟨false, 0, x.mask⟩ :: x.stack
         else y.pc = target ∧ y.mask = taken ∧ y.stack = ⟨true, s.cur.nextPc, kept⟩ :: ⟨false, 0, x.mask⟩ :: x.stack)
      else y.pc = (if taken ≠ 0 then target else s.cur.nextPc) ∧ y.mask = x.mask ∧ y.stack = ⟨false, 0, x.mask⟩ :: x.stack

/-- Indirect branches, calls, returns and joins (R247, R248, R249): every issuing quad goes where they say; call leaves the return
address in s31, and join pops the stack. -/
def Obligations.FlowPlaces : Prop :=
  ∀ (s : State) (h : BitVec 2) (a : BitVec 7) (o : BitVec 19) (sl : BitVec 2),
    let target := branchTarget s.cur.pc o sl
    (∀ vals t, Reads s { srcA := some a } [.reg a 0] vals t →
      ((activeLanes s).map (laneVal (vals.getD 0 []))).any (pcBad s) = false →
      (∀ q ∈ s.cur.quads, allSame (quadValues s (vals.getD 0 []) q) = true) →
      (h = 3 → guardSplit s = false ∧ allSame ((activeLanes s).map (laneVal (vals.getD 0 []))) = true) →
      (∀ q ∈ s.cur.quads, (branchQuad s h q ((quadValues s (vals.getD 0 []) q).headD 0)).stack.length ≤ 16) →
      exec (.brx h a) s = .next (goFlow (applyLast t { srcA := some a } 1 0 []) (s.cur.quads.map (fun q =>
        (q, branchQuad s h q ((quadValues s (vals.getD 0 []) q).headD 0))))))
    ∧ (checkSlot s { p0 := true, encBad := targetBad s target } = .ok () → ∃ t, exec (.call o sl) s = .next t
        ∧ FlowDone s (writeUnif s 31 0 s.cur.nextPc) t (fun q => { getQuad (curGroup s) q with pc := target })
        ∧ lookup (curGroup t).regs.unif 31 0 = s.cur.nextPc)
    ∧ (checkSlot s { p0 := true } = .ok () → checkReady s [.unif 31] [] = .ok () → pcBad s (readUnif (curGroup s) s.clock 31) = false →
        ∃ t, exec .ret s = .next t
          ∧ FlowDone s s t (fun q => { getQuad (curGroup s) q with pc := readUnif (curGroup s) s.clock 31 }))
    ∧ (checkSlot s { p0 := true } = .ok () → ∃ t, exec .join s = .next t
        ∧ FlowDone s s t (fun q => joinQuad s.cur.nextPc (getQuad (curGroup s) q) (getQuad (curGroup s) q).stack))

/-- The gang and exit (R250, R251, R132): regang waits until every quad that has not exited waits at it, and then all go on as one gang; exit
takes its lanes out of every mask. Entries 15 and 57 of the log say what is the model's choice here. -/
def Obligations.GangAndExit : Prop :=
  ∀ (s : State),
    (checkSlot s { p0 := true } = .ok () → isParted (curGroup s) = false → (curGroup s).quads.any (fun e => e.2.waiting) = false →
      exec .regang s = .next (retire s))
    ∧ (∀ g, checkSlot s { p0 := true } = .ok () →
        (isParted (curGroup s) = true ∨ (curGroup s).quads.any (fun e => e.2.waiting) = true) →
        g = s.cur.quads.foldl (fun g q => setQuad g q
          { advanceQuad s.clock (ctlStall s) (ctlAstr s) s.cur.pc (getQuad g q) with waiting := true }) (curGroup s) →
        (allWaiting g = false → exec .regang s = .next (setCur s (countSlot g)))
        ∧ (allWaiting g = true → (waitingPcs g).all (fun pc => pc == s.cur.pc) = true →
            exec .regang s = .next (setCur s (countSlot (formGang g s.cur.nextPc s.clock))))
        ∧ (allWaiting g = true → (waitingPcs g).all (fun pc => pc == s.cur.pc) = false →
            exec .regang s = .next (takeTrap s { cls := 4, code := 0x04 })))
    ∧ (checkSlot s {} = .ok () → checkReady s [] [] = .ok () →
        ∃ t, FlowDone s s t (fun q => exitQuad (quadActive s q) s.cur.nextPc (getQuad (curGroup s) q))
          ∧ ((allWaiting (curGroup t) && gangMismatch (curGroup t) && regionsFull s) = false → exec .exit s = .next (afterExit t))
          ∧ ((allWaiting (curGroup t) && gangMismatch (curGroup t) && regionsFull s) = true →
              exec .exit s = .next (holdIssue s .resource)))

/-- yield, region and trigger (R252, R149, R151): yield holds its quads back for 64 clocks; region ends the region, a new one with
the next serial starts, and the commit of the ended one is due; trigger waits for the commit. -/
def Obligations.YieldRegionTrigger : Prop :=
  ∀ (s : State),
    (checkSlot s { p0 := true } = .ok () → ∃ t, exec .yield s = .next t ∧
      ∀ q ∈ s.cur.quads, (getQuad (curGroup t) q).yieldUntil = s.clock + 64 ∧ (getQuad (curGroup t) q).pc = s.cur.nextPc)
    ∧ (checkSlot s { p0 := true } = .ok () → regionsFull s = false → exec .region s = regionEnds s s)
    ∧ (checkSlot s { p0 := true } = .ok () → regionsFull s = true → exec .region s = .next (holdIssue s .resource))
    ∧ (Once s {} [] → isLane s = false → exec .trigger s = .next (retire (defer s .trigger)))

/-- What ending a region does to a group (R149, R150): the ended region keeps its effects, the new one has the next serial and
a snapshot of the group as it stands, and the commit is due. -/
def Obligations.RegionEnd : Prop :=
  ∀ (s : State) (c slot : Nat), slot ≠ Config.laneSlot → (getGroup s c slot).regions ≠ [] → stopsAtEnd s c slot = none →
    let g := getGroup s c slot
    let t := endRegion s c slot
    let h := getGroup t c slot
    h.regions.length = g.regions.length + 1
    ∧ (∀ r, g.regions.getLast? = some r → h.regions[g.regions.length - 1]? = some { r with ended := true }
        ∧ ∃ n, h.regions.getLast? = some n ∧ n.serial = r.serial + 1 ∧ n.slots = 0 ∧ n.stores = [] ∧ n.deferred = []
          ∧ n.snap.caps = g.regs.caps ∧ n.snap.quads = g.quads ∧ n.snap.wb = g.regs.wb)
    ∧ h.regs = g.regs ∧ h.quads = g.quads ∧ t.due = s.due ++ [⟨.regionCommit, { core := c, unit := slot }⟩]

/-- User interrupts (R253 to R255): usig posts its payload where the target can take one and says so; uhnd sets the handler; uret restores what the
delivery saved and goes on where it interrupted. Entries 15 and 18 of the log say what is the model's choice here. -/
def Obligations.UserInterrupts : Prop :=
  ∀ (s : State) (d a b : BitVec 5) (f : BitVec 7),
    (∀ u, Releases s u → Once s { lit := 32, bUsed := b != 0 } [.unif a.toNat, unifSrc s b] →
      (readUnif (curGroup s) s.clock a.toNat).toNat < 64 →
      Once u { lit := 32, bUsed := b != 0 } [.unif a.toNat, unifSrc u b] →
      let n := (readUnif (curGroup u) u.clock a.toNat).toNat
      n < 64 →
      (canSignal u n = false → exec (.usig d a b) s = regionEnds s (writeUnif u d.toNat 0 0))
      ∧ (canSignal u n = true → exec (.usig d a b) s = regionEnds s (writeUnif (setGroup u u.cur.core n
          { getGroup u u.cur.core n with user := { (getGroup u u.cur.core n).user with payload := some (unifOrLit u b) } }) d.toNat 0 1)))
    ∧ (let o : OpInfo := { lit := 32, p0 := true, srcB := some f, bUsed := f != 0 }
       ∀ vals t i, Reads s o [srcB s f 0] vals t → firstLane s = some i →
         (laneVal (vals.getD 0 []) i = 0xFFFFFFFF ∨ pcBad s (laneVal (vals.getD 0 []) i) = false) →
         let v := applyLast t o 0 1 []
         exec (.uhnd f) s = .next (retire (setCur v { curGroup v with user := { (curGroup v).user with handler := laneVal (vals.getD 0 []) i } })))
    ∧ (checkSlot s { p0 := true } = .ok () → (curGroup s).user.inHandler = true → isParted (curGroup s) = false → regionsFull s = false →
       let g := curGroup s
       let t := writeUnif (setCur s { g with
         quads := g.quads.map (fun e => if e.2.exited then e else (e.1, { e.2 with mask := lookup g.user.masks e.1 0xF &&& liveLanes e.2 }))
         user := { g.user with inHandler := false } }) 30 0 g.user.s30
       exec .uret s = .next (endRegion (goFlow t (gotoAll t g.user.resume)) s.cur.core s.cur.slot))

/-! ### Memory instructions (spec/12) -/

/-- Loads and stores of lane registers (R269, R270, R151): a load writes what it read, held stores included; a store enters the region store buffer; a
release store performs at once and ends its region; an acquire load takes its scope's acquire. Entry 10 of the log says what is the model's choice
here. -/
def Obligations.LoadsAndStores : Prop :=
  ∀ (s : State) (c w : BitVec 3) (d a : BitVec 5) (k : BitVec 4) (o p : BitVec 2),
    let n := widthBytes w
    let m := widthNames n
    let cap := fun (v : State) => capAt (curGroup v) v.clock k.toNat
    let names := fun (v : State) => dstNames v (some (plainField d)) m
    let loads := fun (i : OpInfo) (v : State) => CountFree s c.toNat ∧ ∃ vals t bytes u,
      Reads s { i with rangeBad := dataBad s d m } (memSrcs i [] k) vals t ∧ peakBad t (plainField d) m = false
      ∧ checkLanes t (cap t) vals n 0x01 0 = .ok () ∧ loadLanes t (cap t) vals n = .ok (bytes, u) ∧ writeLoaded u d n bytes = .ok v
    let acquires := fun (i : OpInfo) (v : State) => CountFree s c.toNat ∧ ∃ vals t bs x bytes u,
      Reads s { i with rangeBad := dataBad s d m } (memSrcs i [] k) vals t ∧ peakBad t (plainField d) m = false
      ∧ checkLanes t (cap t) vals n 0x01 0 = .ok () ∧ loadLanes t (cap t) vals n = .ok (bs, x)
      ∧ loggedLanes x (cap t) vals (fun y i => readHeld y i (cap t).obj.toNat (objOff (cap t) (offOf vals i)) n) = .ok (bytes, u)
      ∧ writeLoaded u d n bytes = .ok v
    let stores := fun (i : OpInfo) (perform : State → Cap → List Lanes → List Write → Res State) (x v : State) =>
      CountFree x c.toNat ∧ ∃ vals t u,
      Reads x { i with rangeBad := dataBad x d m } (memSrcs i (dataSrcs d m) k) vals t
      ∧ checkStore t (cap t) vals n 0x02 1 = .ok u ∧ perform u (cap t) vals (storeWrites u (cap t) vals n) = .ok v
    let i := memInfo a true (decide (4 < w.toNat))
    let j := memInfo a false (decide (4 < w.toNat))
    let q := orderInfo a o p w true
    let r := orderInfo a o p w false
    (∀ v, loads i v → exec (.ld c d a k w) s = .next (retire (applyLast v i 1 0 (names s))))
    ∧ (∀ v, acquires q v →
        let x := applyLast v q 1 0 (names s)
        exec (.ldAcq c o d p a k w) s = .next (retire (if (activeLanes s).isEmpty then x else acquireAt x (orderScope o p))))
    ∧ (∀ v, stores j (fun u _ _ ws => holdStore u ws c.toNat) s v →
        exec (.st c d a k w) s = .next (retire (applyLast v j 1 0 (names s))))
    ∧ (∀ u v x, Releases s u → stores r performNow s v → stores r performNow u x →
         exec (.stRel c o d p a k w) s = regionEnds s (applyLast x r 1 0 (names u)))

/-- Scratchpad loads and stores complete (R56, R58, R54, R151, R269, R270). lds gives every active lane the bytes at its offset, little-endian, as the
group's own held stores leave them, and no memory changes; while the bank queues hold the memory unit back, the group waits. sts, for whatever operands
its checks pass, with or without active lanes, goes on to the next slot with its store held, while the group's buffer has room. Entry 3 of the log says
what is the model's choice here. -/
def Obligations.ScratchpadLoad : Prop :=
  (∀ (s : State) (c w : BitVec 3) (d a : BitVec 5),
    let srcs := Src.reg (plainField a) 0 :: dataSrcs d (widthNames (widthBytes w))
    let vals := srcs.map (srcLanes s [])
    CountFree s c.toNat → checkSlot s (memInfo a false (decide (4 < w.toNat))) = .ok () → dataBad s d (widthNames (widthBytes w)) = false →
    srcs.any (srcRange s) = false → noStreams srcs = true → checkReady s srcs [] = .ok () →
    (∀ i ∈ activeLanes s, checkScratch s i (offOf vals i) (widthBytes w) = .ok ()) →
    isLane s = false → heldCount (curGroup s) < Config.storeBuffer →
    ∃ t, exec (.sts c d a w) s = .next t ∧ WentTo s t s.cur.nextPc ∧ SameMemory s t ∧ SameOthers s t
      ∧ ∀ st ∈ (curGroup s).held, st ∈ (curGroup t).held)
  ∧
  ∀ (s : State) (c w : BitVec 3) (d a : BitVec 5),
    let o := memInfo a true (decide (4 < w.toNat))
    let n := widthBytes w
    let off := fun (i : Nat) => (laneVal (srcLanes s [] (.reg (plainField a) 0)) i).toNat
    let free := isLane s = true ∨ (activeLanes s).isEmpty = true ∨ (getCore s s.cur.core).bankHold ≤ s.clock
    CountFree s c.toNat → checkSlot s o = .ok () → dataBad s d (widthNames n) = false → checkReady s [.reg (plainField a) 0] [] = .ok () →
    isStream (plainField a) = false →
    (∀ i ∈ activeLanes s, checkScratch s i (off i) n = .ok ()) →
    (free → (∀ i ∈ activeLanes s, scratchBad s (off i) n = false) →
      peakBad (noteDead s [.reg (plainField a) 0]) (plainField d) (widthNames n) = false →
      creditShort (noteDead s [.reg (plainField a) 0]) (plainField d) (widthNames n) = false →
      ∃ t, exec (.lds c d a w) s = .next t
        ∧ Wrote s t (plainField d) (widthNames n) (fun i k => wordOf (leNat (((readScratch s (off i) n).drop (4 * k)).take 4)))
        ∧ WentTo s t s.cur.nextPc ∧ IssuerOnly s t)
    ∧ (¬free → exec (.lds c d a w) s = .next (holdIssue s (.bank (getCore s s.cur.core).bankHold)))

/-- Scratchpad stores (R151, R56, R172): with room in the buffer the store is held, its writes those of the active lanes, and no byte of any memory
changes before its region commits; a full buffer first drains its oldest store; with no active lane nothing is held; the supervisor lane's store
performs at once. When a store performs, its bytes stand at the team's start plus the offset, but for the words of active barriers (R258), and every
other byte of the scratchpad is as it was. Entry 10 of the log says what is the model's choice here. -/
def Obligations.ScratchpadStore : Prop :=
  (∀ (s : State) (c w : BitVec 3) (d a : BitVec 5),
      let o := memInfo a false (decide (4 < w.toNat))
      let n := widthBytes w
      let srcs := Src.reg (plainField a) 0 :: dataSrcs d (widthNames n)
      let vals := srcs.map (srcLanes s [])
      let ws : List Write := (activeLanes s).map (fun i => ⟨i, Config.scratchObj, offOf vals i, n, 0, 0, datumOf vals n i, false⟩)
      let names := dstNames s (some (plainField d)) (widthNames n)
      CountFree s c.toNat → checkSlot s o = .ok () → dataBad s d (widthNames n) = false → srcs.any (srcRange s) = false →
      noStreams srcs = true → checkReady s srcs [] = .ok () → (∀ i ∈ activeLanes s, checkScratch s i (offOf vals i) n = .ok ()) →
      ((activeLanes s).isEmpty = true → ∃ t, exec (.sts c d a w) s = .next t ∧ IssuerOnly s t ∧ WentTo s t s.cur.nextPc)
      ∧ (isLane s = false → (activeLanes s).isEmpty = false → heldCount (curGroup s) < Config.storeBuffer →
        ∃ t, exec (.sts c d a w) s = .next t ∧ SameMemory s t ∧ SameOthers s t ∧ WentTo s t s.cur.nextPc
          ∧ (curGroup t).held = (curGroup s).held ++ [⟨ws, false, s.cur.pc, (curRegion (curGroup s)).slots, c.toNat, 0⟩]
          ∧ ∀ x, lookup (curGroup t).regs.dcs x 0
              = if x = c.toNat ∧ c ≠ 0 then lookup (curGroup s).regs.dcs x 0 + 1 else lookup (curGroup s).regs.dcs x 0)
      ∧ (∀ v, isLane s = false → (activeLanes s).isEmpty = false → Config.storeBuffer ≤ heldCount (curGroup s) →
        drainOldest (noteDead s srcs) s.cur.core s.cur.slot = .ok v →
        exec (.sts c d a w) s = .next (retire (applyLast (pushStore v ws false c.toNat) o 1 0 names)))
      ∧ (∀ v, isLane s = true → (activeLanes s).isEmpty = false →
        performAll (noteDead s srcs) ws = .ok v →
        exec (.sts c d a w) s = .next (retire (applyLast v o 1 0 names))))
    ∧ (∀ (s t : State) (c slot : Nat) (w : Write), w.obj = Config.scratchObj → slot ≠ Config.laneSlot → performWrite s c slot w = .ok t →
      let m := getTeam s c (getGroup s c slot).team
      ∀ a, memRead (getCore t c).scratch a =
        if m.scratch + w.off ≤ a ∧ a < m.scratch + w.off + w.bytes.length
            ∧ m.barriers.all (fun b => !(decide (b.offset ≤ a - m.scratch) && decide (a - m.scratch < b.offset + 8))) = true
        then w.bytes.getD (a - m.scratch - w.off) 0 else memRead (getCore s c).scratch a)

/-- Capabilities (R8 to R16, R181, R272, R273): cnarrow and crights derive a capability that lies in the old one's bounds and has no right that the old
one lacks, ready two clocks later; cnarrow from k0 mints one of the whole object in supervisor mode and traps in a user group; a cleared tag or bounds
outside the old ones are a fault; cget reads a field. With no active lane nothing changes, and no other capability register does. Entries 52 and
58 of the log say what is the model's choice here. -/
def Obligations.CapabilityDerivation : Prop :=
  (∀ (s : State) (d a : BitVec 4) (b : BitVec 5) (f : BitVec 3) (r : BitVec 7),
    let g := curGroup s
    let cap := capAt g s.clock a.toNat
    let delta := pair44 g s.clock b.toNat
    let len := pair44 g s.clock (b.toNat + 2)
    let id := readUnif g s.clock b.toNat
    let stop := fun (i : Instr) (code lane obj : Nat) =>
      exec i s = .next (takeTrap s { cls := 5, code := code, lane := lane, obj := obj, kind := 0 })
    (checkSlot s { encBad := decide (28 < b.toNat), kBad := decide (d.toNat < 2) } = .ok () →
      checkReady s ((upTo 4).map (fun i => .unif (b.toNat + i)) ++ [.cap a.toNat]) [] = .ok () →
      (firstLane s = none → exec (.cnarrow d a b) s = .next (retire s))
      ∧ ∀ i, firstLane s = some i →
        (a ≠ 0 → cap.tag = true → delta.2 = true → len.2 = true → delta.1 + decLen len.1 ≤ capLen cap →
          exec (.cnarrow d a b) s = .next (retire (setCur s (writeCapLat g s.clock 2 (ctlAstr s) d.toNat
            { cap with base := cap.base + BitVec.ofNat 44 delta.1, len := BitVec.ofNat 44 len.1 }))))
        ∧ (a ≠ 0 → cap.tag = false → stop (.cnarrow d a b) 0x01 i cap.obj.toNat)
        ∧ (a ≠ 0 → cap.tag = true → (delta.2 = false ∨ len.2 = false ∨ capLen cap < delta.1 + decLen len.1) →
            stop (.cnarrow d a b) 0x07 i cap.obj.toNat)
        ∧ (a = 0 → isSuper s = false → stop (.cnarrow d a b) 0x01 i 0)
        ∧ (∀ e t, a = 0 → isSuper s = true → descOf s s.cur.core id.toNat = .ok (e, t) →
            exec (.cnarrow d a b) s = .next (retire (setCur t (writeCap (curGroup t) d.toNat
              ⟨true, id, 0, BitVec.ofNat 44 e.length, 0xFF⟩))))
        ∧ (a = 0 → isSuper s = true → descOf s s.cur.core id.toNat = .error (.cap 0x09) → stop (.cnarrow d a b) 0x09 i id.toNat)
        ∧ (∀ x, a = 0 → isSuper s = true → descOf s s.cur.core id.toNat = .error x →
            exec (.cnarrow d a b) s = .next (stopFor s (memAbort x i id.toNat 0 0))))
    ∧ (checkSlot s { kBad := decide (d.toNat < 2) } = .ok () → checkReady s [.unif b.toNat, .cap a.toNat] [] = .ok () →
      (firstLane s = none → exec (.crights d a b) s = .next (retire s))
      ∧ ∀ i, firstLane s = some i →
        (cap.tag = true → exec (.crights d a b) s = .next (retire (setCur s (writeCapLat g s.clock 2 (ctlAstr s) d.toNat
            { cap with rights := cap.rights &&& (readUnif g s.clock b.toNat).extractLsb' 0 8 }))))
        ∧ (cap.tag = false → stop (.crights d a b) 0x01 i cap.obj.toNat))
    ∧ LaneResult (.cget f r a) s { dst := some r, fnBad := f == 7 } [.cap a.toNat] 0 0 r 1 2 (fun _ => ([capField f cap], 0)))
  ∧ (∀ (cap : Cap) (delta len : Nat), cap.base.toNat + capLen cap ≤ 2 ^ 44 → len < 2 ^ 44 → delta + decLen len ≤ capLen cap →
      let v : Cap := { cap with base := cap.base + BitVec.ofNat 44 delta, len := BitVec.ofNat 44 len }
      cap.base.toNat ≤ v.base.toNat ∧ v.base.toNat + capLen v ≤ cap.base.toNat + capLen cap)
  ∧ (∀ x y : BitVec 8, ∀ i, (x &&& y).getLsbD i = true → x.getLsbD i = true)
  ∧ ∀ (g : Group) (clock lat k j : Nat) (astr : Bool) (v : Cap),
      readCap (writeCapLat g clock lat astr k v) k = (if k = 0 then Cap.null else v)
      ∧ (j ≠ k → readCap (writeCapLat g clock lat astr k v) j = readCap g j)
      ∧ (lat ≠ 0 → k ≠ 0 → (∀ e ∈ g.regs.kpend, e.readyAt ≤ clock) →
          ∀ n, n < clock + lat → capAt (writeCapLat g clock lat astr k v) n k = readCap g k)

/-- ldk and stk (R271, R17 to R19): a load gives the quantum's bits with its tag, and a null capability where the tag is clear; a store holds the
capability's sixteen bytes with its tag, and one without right D is refused. Entries 10 and 12 of the log say what is the model's choice here. -/
def Obligations.CapabilityLoadStore : Prop :=
  ∀ (s : State) (c : BitVec 3) (d : BitVec 4) (a : BitVec 5) (k : BitVec 4) (vals : List Lanes) (t u v : State),
    let o : OpInfo := memInfo a true false
    let cap := capAt (curGroup t) t.clock k.toNat
    let x := capAt (curGroup t) t.clock d.toNat
    let store := checkWrites t cap vals 16 1 (fun i => checkAccess t cap i (offOf vals i) 16 0x02 1 true)
      (fun i => derivable cap x i (offOf vals i))
    (∀ qs, CountFree s c.toNat →
      Reads s { o with kBad := decide (d.toNat < 2) } (memSrcs o [] k) vals t →
      checkLanes t cap vals 16 0x01 0 = .ok () →
      gather (fun s i => loadQuantum s i cap (offOf vals i)) t (activeLanes t) = .ok (qs, u) →
      exec (.ldk c d a k) s = .next (retire (applyLast (qs.foldl (fun t q => takeQuantum t d.toNat q.2.1 q.2.2) u)
        { o with kBad := decide (d.toNat < 2) } 1 0 [])))
    ∧ (CountFree s c.toNat →
      Reads s (memInfo a false false) (memSrcs (memInfo a false false) [.cap d.toNat] k) vals t →
      (store = .ok u → holdStore u ((activeLanes u).map (fun i => ⟨i, cap.obj.toNat, objOff cap (offOf vals i), 16,
          if x.tag then 2 else 1, 0, capBytes x, false⟩)) c.toNat = .ok v →
        exec (.stk c d a k) s = .next (retire (applyLast v (memInfo a false false) 1 0 [])))
      ∧ (∀ e, store = .error e → exec (.stk c d a k) s = .next (stopFor s e)))
    ∧ (∀ lane off, derivable cap x lane off = (if x.tag = true ∧ x.rights.getLsbD 6 = false
        then .error (.trap { cls := 5, code := 0x06, lane := lane, obj := cap.obj.toNat, off := objOff cap off, kind := 1 }) else .ok ()))
    ∧ (∀ (q : Cap) (dropped : Bool), readCap (curGroup (takeQuantum s d.toNat q dropped)) d.toNat = (if d = 0 then Cap.null else q)
      ∧ (∀ j, j ≠ d.toNat → readCap (curGroup (takeQuantum s d.toNat q dropped)) j = readCap (curGroup s) j)
      ∧ (curGroup (takeQuantum s d.toNat q dropped)).spec.kstat
          = (curGroup s).spec.kstat ||| (if q.tag then 0 else if dropped then 3 else 1))
    ∧ ∀ x : BitVec 128, capOf false x = Cap.null

/-- Atomics and reductions (R274 to R277, R120, R122, R172): an atomic with return performs at the home, lane by lane in ascending order, once its
region's own effects have performed; it gives each lane the old value, takes its scope's acquire and ends its region. A reduction is held until its
region commits, an ordered one with an entry of the team's reduction log reserved for it; a full log is a fault; in the supervisor lane a reduction
performs at once. Entries 10, 11 and 70 of the log say what is the model's choice here. -/
def Obligations.AtomicsAndReductions : Prop :=
  ∀ (s s' : State) (op sc : BitVec 3) (d a : BitVec 5) (k : BitVec 4) (w : BitVec 3),
    let cap := fun (v : State) => capAt (curGroup v) v.clock k.toNat
    let names := fun (v : State) (n : Nat) => dstNames v (some (plainField d)) n
    let reads := fun (o : OpInfo) (n : Nat) (v : State) (vals : List Lanes) (t : State) =>
      Reads v { o with rangeBad := dataBad v d n } (memSrcs o (dataSrcs d n) k) vals t
    let atomic := fun (o : OpInfo) (n regs : Nat) (f : Nat → List Word → Nat) (v x : State) =>
      CountFree v 7 ∧ ∃ vals t u p, reads o regs v vals t ∧ checkStore t (cap t) vals n 0x0B 2 = .ok u
      ∧ translateWrites u u.cur.core ((activeLanes u).map (fun i => ⟨i, (cap t).obj.toNat, objOff (cap t) (offOf vals i), n, 3, 0, [], false⟩))
          = .ok p
      ∧ ((activeLanes p).isEmpty = true ∧ x = dropLanes p
        ∨ ∃ olds ws q y,
          loggedLanes p (cap t) vals (fun z i => atomicLane z i (cap t) (offOf vals i) n (fun old => f old (laneArgs (vals.drop 1) i)))
            = .ok (olds, q)
          ∧ olds ≠ [] ∧ ws = olds.map (fun x => (⟨x.1, (cap t).obj.toNat, objOff (cap t) (offOf vals x.1), n, 3, 0,
              leBytes n (f (leNat x.2) (laneArgs (vals.drop 1) x.1)), false⟩ : Write))
          ∧ writeLoaded (pushStore q ws true 0) d n olds = .ok y ∧ x = applyLast (acquireAt y sc.toNat) o 1 0 (names v regs))
    let runs := fun (i : Instr) (o : OpInfo) (n regs : Nat) (f : Nat → List Word → Nat) =>
      ∀ x y, Releases s s' → atomic o n regs f s x → atomic o n regs f s' y → exec i s = regionEnds s y
    let wide := decide (3 < op.toNat)
    let reduces := fun (i : Instr) (o : OpInfo) (n code : Nat) =>
      ∀ vals t u, reads o (widthNames n) s vals t → checkStore t (cap t) vals n 0x0A 2 = .ok u →
        let ws : List Write := (activeLanes u).map (fun i =>
          ⟨i, (cap t).obj.toNat, objOff (cap t) (offOf vals i), n, 4, code, datumOf vals n i, false⟩)
        let full := 32 ≤ code ∧ (curLaunch u).fredlog < (curTeam u).fredlog.length + ws.length
        (full → exec i s = .next (takeTrap s { cls := 5, code := 0x04, lane := (firstLane u).getD 0, kind := 2 }))
        ∧ ∀ x, ¬full → translateWrites u u.cur.core ws = .ok x →
          (isLane x = false → exec i s = .next (retire (applyLast (if ws.isEmpty then x else pushStore (reserveLog x ws) ws false 0)
            o 1 0 (names s (widthNames n)))))
          ∧ ∀ y, isLane x = true → performAll x ws = .ok y →
              exec i s = .next (retire (applyLast y o 1 0 (names s (widthNames n))))
    runs (.atom op d a k sc) (atomInfo a sc false) 4 (if op = 6 then 2 else 1)
        (fun old v => atomNew op.toNat old (arg v 0).toNat (arg v 1).toNat)
    ∧ runs (.atomb op d a k sc) (atomInfo a sc (decide (5 < op.toNat))) (if wide then 8 else 4) (if op = 5 then 4 else if wide then 2 else 1)
        (fun old v => if wide then atombNew op.toNat old (pairNat v 0) (pairNat v 2) else atombNew op.toNat old (arg v 0).toNat 0)
    ∧ runs (.fatom op d a k sc) (atomInfo a sc (decide (3 < op.toNat))) 4 1 (fun old v => fatomOp op.toNat old (arg v 0).toNat)
    ∧ reduces (.ared op d a k w) (memInfo a false (w != 2 && w != 3)) (widthBytes w) op.toNat
    ∧ reduces (.fred op d a k) { memInfo a false false with fnBad := decide (2 < op.toNat) } 4
        ((if !isLane s && (curLaunch s).flags.getLsbD 4 then 32 else 16) + op.toNat)

/-- What the operations of atomics and reductions leave in memory (Tables 12-2 and 12-3), on numbers below 2^32. -/
def Obligations.AtomicFunctions : Prop :=
  ∀ (old v v1 : Nat), old < 2 ^ 32 → v < 2 ^ 32 → v1 < 2 ^ 32 →
    atomNew 0 old v v1 = (old + v) % 2 ^ 32
    ∧ (BitVec.ofNat 32 (atomNew 1 old v v1)).toInt = min (BitVec.ofNat 32 old).toInt (BitVec.ofNat 32 v).toInt
    ∧ (BitVec.ofNat 32 (atomNew 2 old v v1)).toInt = max (BitVec.ofNat 32 old).toInt (BitVec.ofNat 32 v).toInt
    ∧ atomNew 3 old v v1 = min old v ∧ atomNew 4 old v v1 = max old v ∧ atomNew 5 old v v1 = v
    ∧ atomNew 6 old v v1 = (if old = v then v1 else old)
    ∧ atomNew 7 old v v1 = (if v ≤ old then 0 else old + 1)
    ∧ atombNew 0 old v 0 = old &&& v ∧ atombNew 1 old v 0 = old ||| v ∧ atombNew 2 old v 0 = old ^^^ v
    ∧ atombNew 3 old v 0 = (if old = 0 ∨ v < old then v else old - 1)
    ∧ atombNew 4 old v v1 = v ∧ atombNew 5 old v v1 = (if old = v then v1 else old)

/-- Fences, prefetches, zero fills, pins and cache control (R279 to R284). Entries 8 and 13 of the log say what is the model's choice here. -/
def Obligations.FencesAndCaches : Prop :=
  ∀ (s s' u : State) (f sc op c w t p : BitVec 3) (a : BitVec 5) (b : BitVec 7) (k : BitVec 4) (l : BitVec 1) (vals : List Lanes),
    let o := memInfo a false false
    let cap := capAt (curGroup u) u.clock k.toNat
    let reads := fun (o : OpInfo) => Reads s o (memSrcs o [] k) vals u
    (let info : OpInfo := { fnBad := decide (3 < f.toNat), scopeBad := decide (5 < sc.toNat) }
      let ok := fun (v : State) => checkSlot v info = .ok () ∧ checkReady v [] [] = .ok ()
      let done := fun (v : State) => if (activeLanes v).isEmpty || f == 1 then v else acquireAt v sc.toNat
      (f = 0 → ok s → exec (.fence f sc) s = .next (retire (done s)))
      ∧ (f ≠ 0 → Releases s s' → ok s → ok s' → exec (.fence f sc) s = regionEnds s (done s')))
    ∧ (∀ x, reads (memInfo a true (decide (1 < w.toNat))) → prefLanes u cap vals (w == 1) = .ok x →
      exec (.pref a k w) s = .next (retire (applyLast x (memInfo a true (decide (1 < w.toNat))) 1 0 [])))
    ∧ (∀ x y, CountFree s c.toNat → reads o →
      checkWrites u cap vals 128 1 (fun i => match checkAccess u cap i (offOf vals i) 128 0x02 1 true with
        | .error e => .error e
        | .ok () => if objOff cap (offOf vals i) % 128 ≠ 0 then
            .error (.trap { cls := 5, code := 0x05, lane := i, obj := cap.obj.toNat, off := objOff cap (offOf vals i), kind := 1 })
          else .ok ()) (fun _ => .ok ()) = .ok x →
      holdStore x ((activeLanes x).map (fun i => ⟨i, cap.obj.toNat, objOff cap (offOf vals i), 128, 0, 0, List.replicate 128 0, false⟩))
        c.toNat = .ok y →
      exec (.zfill c a k) s = .next (retire (applyLast y o 1 0 [])))
    ∧ (∀ won x, let o : OpInfo := { srcA := some b, pBad := pairPred t p }
      reads o → (∀ j ∈ activeLanes u, checkAccess u cap j (offOf vals j) 1 0x20 0 false = .ok ()) →
      foldRes (fun (acc : List Nat × State) i => match pinLane acc.2 i cap (offOf vals i) (l == 1) with
        | .error e => .error e
        | .ok (b, s) => .ok (if b then acc.1 ++ [i] else acc.1, s)) ([], u) (activeLanes u) = .ok (won, x) →
      exec (.pin t p b l k) s = .next (retire (applyLast (writeCond x t p 0 (laneMask (fun i => won.contains i))) o 1 0 [])))
    ∧ (CountFree s c.toNat → reads o → (∀ j ∈ activeLanes u, checkAccess u cap j (offOf vals j) 1 0x20 0 false = .ok ()) →
      (firstLane u = none → exec (.unpin c a k) s = .next (retire u))
      ∧ ∀ i e x, firstLane u = some i →
        liftMem i cap.obj.toNat (objOff cap (offOf vals i)) 0 (descOf u u.cur.core cap.obj.toNat) = .ok (e, x) →
        exec (.unpin c a k) s = .next (retire (applyLast (unpinLanes x cap vals c.toNat) o 1 0 [])))
    ∧ (let q : OpInfo := { o with fnBad := decide (2 < op.toNat), scopeBad := decide (5 < sc.toNat) }
      reads q →
      (∀ j ∈ activeLanes u, checkAccess u cap j (offOf vals j) 1 (if op = 0 then 0x01 else 0x02) (if op = 0 then 0 else 1) false = .ok ()) →
      (firstLane u = none → exec (.cctl op a k sc) s = .next (retire u))
      ∧ ∀ i e x, firstLane u = some i →
        liftMem i cap.obj.toNat (objOff cap (offOf vals i)) (if op = 0 then 0 else 1) (descOf u u.cur.core cap.obj.toNat) = .ok (e, x) →
        (activeLanes x).find? (fun i => decide (e.length ≤ objOff cap (offOf vals i))) = none →
        exec (.cctl op a k sc) s = .next (retire (applyLast ((activeLanes x).foldl (fun t i =>
          cctlLane t e (objOff cap (offOf vals i)) op.toNat sc.toNat) x) q 1 0 [])))

/-- Streams and uniform memory accesses (R170, R171, R285 to R287, R243). Entry 55 of the log says what a pattern on a stream does. -/
def Obligations.StreamsAndUniformAccess : Prop :=
  ∀ (s : State) (e : BitVec 3) (q : BitVec 2) (o r : BitVec 1) (a d u : BitVec 5) (v : BitVec 7) (c w : BitVec 3) (k : BitVec 4),
    let g := curGroup s
    let words := (upTo 8).map (fun i => readUnif g s.clock (a.toNat + i))
    let n := widthBytes w
    (Once s { astr := true, encBad := decide (24 < a.toNat) } ((upTo 8).map (fun i => .unif (a.toNat + i))) → streamBad words = false →
      exec (.stdef e a) s = .next (retire (setCur s { g with regs := { g.regs with
        streams := (upTo 8).foldl (fun m i => insertKey m (8 * e.toNat + i) (words.getD i 0)) g.regs.streams
        defined := g.regs.defined ||| BitVec.ofNat 8 (2 ^ e.toNat)
        pos := (upTo 8).foldl (fun m q => eraseKey m (8 * q + e.toNat)) g.regs.pos } })))
    ∧ (Once s { astr := true, encBad := o == 1 && e != 0 } [] →
      (o = 1 → exec (.stbind e o q) s = .next (retire (setCur s { g with regs := { g.regs with binds := eraseKey g.regs.binds q.toNat } })))
      ∧ (o = 0 → g.regs.defined.getLsbD e.toNat = true → exec (.stbind e o q) s
          = .next (retire (setCur s { g with regs := { g.regs with binds := insertKey g.regs.binds q.toNat e.toNat } }))))
    ∧ (LaneRuns s { astr := true, dst := some v } [] v 1 → g.regs.defined.getLsbD e.toNat = true →
      ∃ t, exec (.stpos e v r) s = .next t ∧ Wrote s t v 1 (fun i _ => linearPos g e.toNat (i / 4)) ∧ WentTo s t s.cur.nextPc
        ∧ SameMemory s t ∧ (curGroup t).regs.pos = (if r = 0 then g.regs.pos
            else (activeQuads s).foldl (fun m q => eraseKey m (8 * q + e.toNat)) g.regs.pos))
    ∧ (∀ i cap off bs t, CountFree s c.toNat → Once s { astr := true, encBad := unifWidthBad d w } [.unif u.toNat, .cap k.toNat] →
      firstLane s = some i →
      unifAccess s u k n 0x01 0 i = .ok (cap, off) → readHeld s i cap.obj.toNat (objOff cap off) n = .ok (bs, t) →
      exec (.sld c d u k w) s = .next (retire (if w = 3
        then writeUnif (writeUnif t d.toNat 0 (wordOf (leNat bs))) (d.toNat + 1) 0 (wordOf (leNat bs / 2 ^ 32))
        else writeUnif t d.toNat 0 (wordOf (leNat bs)))))
    ∧ (∀ i cap off x t y, CountFree s c.toNat → Once s { encBad := unifWidthBad d w }
        (.unif u.toNat :: (if w = 3 then [.unif d.toNat, .unif (d.toNat + 1)] else [.unif d.toNat]) ++ [.cap k.toNat]) →
      firstLane s = some i → unifAccess s u k n 0x02 1 i = .ok (cap, off) →
      liftMem i cap.obj.toNat (objOff cap off) 1 (descOf s s.cur.core cap.obj.toNat) = .ok (x, t) →
      kindCheck x i cap.obj.toNat (objOff cap off) 1 = .ok () →
      holdStore t [⟨i, cap.obj.toNat, objOff cap off, n, 0, 0, leBytes n ((readUnif g s.clock d.toNat).toNat
        + (readUnif g s.clock (d.toNat + 1)).toNat * 2 ^ 32), false⟩] c.toNat = .ok y →
      exec (.sst c d u k w) s = .next (retire y))

/-! ### Bulk copies, shadows, barriers, queues and messages (spec/10, spec/11, spec/13) -/

/-- The copy channels and batches (R288 to R290): copy starts its channel with the descriptor and capabilities of the issue, and waits while the
channel is busy; the scale areas of an expanding copy, which lie in its source, must be writable (R95); rdwp reads the write pointer of a channel
that the group started; bfence closes the open batch and gives its serial; bwait goes on when the batches up to the serial are done, and takes the
oldest failure once, in the order of the serials modulo 2^32. shadow opens the object's shadow and says whether it did; publish releases, and makes the shadow the object (R291, R292).
Entry 17 of the log says what is the model's choice here. -/
def Obligations.CopiesAndBatches : Prop :=
  ∀ (s : State) (h c : BitVec 3) (a d : BitVec 5) (e : BitVec 7),
    let g := curGroup s
    let ch := getChannel s s.cur.core h.toNat
    let w := (upTo 8).map (fun i => readUnif g s.clock (a.toNat + i))
    let src := capAt g s.clock (srcReg w)
    let dst := capAt g s.clock (dstReg w)
    (∀ lane, CountFree s c.toNat →
      Once s { astr := true, noLane := true, encBad := decide (24 < a.toNat) } ((upTo 8).map (fun i => .unif (a.toNat + i))) →
      firstLane s = some lane →
      (ch.state ≠ 0 → exec (.copy h c a) s = .next (holdIssue s (.channel h.toNat)))
      ∧ (ch.state = 0 → checkReady s (copyCaps w) [] = .ok () →
        ((copyBad w || copyOverlap w src dst) = true → exec (.copy h c a) s = .next (takeTrap s { cls := 3, code := 0x10 }))
        ∧ (copyBad w = false → copyOverlap w src dst = false → (copyKind w < 3 ∨ isSuper s = true) →
          (∀ r ∈ readRanges w, checkRange s (srcScratch w) src lane 0x01 4 r = .ok ()) →
          (∀ r ∈ dstRanges w, checkRange s (dstScratch w) dst lane 0x02 5 r = .ok ()) →
          (copyKind w = 2 → ∀ r ∈ scaleAreas w, checkRange s (srcScratch w) src lane 0x02 4 r = .ok ()) →
          exec (.copy h c a) s = .next (retire (defer (setCur (setChannel s s.cur.core h.toNat
            { Channel.idle with
              desc := w, src := src, dst := dst, group := s.cur.slot, team := g.team, batch := g.batch.opened, state := 1
              nvst := ch.nvst, owner := storerOf s s.cur.core s.cur.slot }) { g with batch := batchJoin g.batch }) (.copy h.toNat))))))
    ∧ LaneResult (.rdwp h e) s { dst := some e } [] 0 0 e 1 0
        (fun _ => ([if !isLane s && ch.owner == storerOf s s.cur.core s.cur.slot then wordOf ch.wp else 0], 0))
    ∧ (Once s {} [] →
      (openBatches g.batch < 8 → exec (.bfence d) s = .next (retire (writeUnif
        (setCur s { g with batch := { g.batch with opened := (g.batch.opened + 1) % 2 ^ 32 } }) d.toNat 0 (wordOf g.batch.opened))))
      ∧ (8 ≤ openBatches g.batch → exec (.bfence d) s = .next (holdIssue s .batches)))
    ∧ (let n := (readUnif g s.clock a.toNat).toNat
       Once s {} [.unif a.toNat] → batchUpTo (g.batch.opened + 2 ^ 32 - 1) n = true →
        (batchesDone g.batch n = false → exec (.bwait a) s = .next (holdIssue s (.batch n)))
        ∧ (batchesDone g.batch n = true → oldestFailed g.batch n = none → exec (.bwait a) s = .next (retire s))
        ∧ ∀ k code, batchesDone g.batch n = true → oldestFailed g.batch n = some (k, code) →
          let t := setCur s { g with batch := { g.batch with failed := eraseKey g.batch.failed k, failedAt := eraseKey g.batch.failedAt k } }
          exec (.bwait a) s = .next (takeTrap t { cls := 0xA, code := code, detail := [wordOf k] }))
    ∧ (∀ (x : Batches) (n : Nat),
      let age := fun (k : Nat) => (x.opened + 2 ^ 32 - k) % 2 ^ 32
      (oldestFailed x n = none ↔ ∀ y ∈ x.failed, batchUpTo n y.1 = false)
      ∧ ∀ k code, oldestFailed x n = some (k, code) → (k, code) ∈ x.failed ∧ batchUpTo n k = true
          ∧ ∀ y ∈ x.failed, batchUpTo n y.1 = true → age y.1 ≤ age k)
    ∧ (∀ (s : State) (t f : BitVec 3) (a k : BitVec 4) (lane : Nat),
      (∀ e u, let x := capAt (curGroup s) s.clock a.toNat
        Once s { pBad := pairPred t f } [.cap a.toNat] → firstLane s = some lane → checkCap s x lane 0x10 = .ok () →
        liftMem lane x.obj.toNat x.base.toNat 1 (descOf s s.cur.core x.obj.toNat) = .ok (e, u) →
        exec (.shadow t f a) s = .next (retire (writeCond (openShadow u x.obj.toNat).2 t f 0
          (if (openShadow u x.obj.toNat).1 then 0xFFFFFFFF else 0))))
      ∧ (∀ s', Releases s s' →
        let cap := fun (v : State) => capAt (curGroup v) v.clock k.toNat
        let ready := fun (v e : State) => CountFree v 7 ∧ Once v {} [.cap k.toNat] ∧ ∃ lane d u, firstLane v = some lane
          ∧ checkCap v (cap v) lane 0x10 = .ok ()
          ∧ liftMem lane (cap v).obj.toNat (cap v).base.toNat 1 (descOf v v.cur.core (cap v).obj.toNat) = .ok (d, u)
          ∧ (getCore u u.cur.core).part = (getCore v v.cur.core).part
          ∧ loggedOp u u.cur.core u.cur.slot (entryHome u (getCore u u.cur.core).part (cap v).obj.toNat).1
              (entryHome u (getCore u u.cur.core).part (cap v).obj.toNat).2 = .ok e
        ∀ x y, ready s x → ready s' y →
          exec (.publish k) s = regionEnds s (publishObject y (getCore s' s'.cur.core).part (cap s').obj.toNat)))

/-- Barriers (R258, R259): initialisation, registration, arrival, waiting and dropping out; the last arrival completes the phase, which wraps at 256;
a drop takes the member out, and completes the phase when all that remain have arrived or none remains; bar.aw executed again after an interrupt only
waits (R255, R266). Entry 18 of the log says what is the model's choice here. -/
def Obligations.Barriers : Prop :=
  ∀ (s u : State) (d a b : BitVec 5) (x y : Barrier),
    (∀ off, let ready := fun (v : State) => OnceWhole v {} [.unif a.toNat, .unif b.toNat] ∧ barrierOff v a = .ok off
      ready s → Releases s u →
      (let fresh := fun (v : State) => getBarrier (curTeam v) off = none ∧ readUnif (curGroup v) v.clock b.toNat = 0
         ∧ (curTeam v).barriers.length < (curLaunch v).barriers
       fresh u → exec (.barInit a b) s = regionEnds s (makeBarrier u u.cur.core (curGroup u).team off))
      ∧ (let ends := fun (v : State) (z : Barrier) => getBarrier (curTeam v) off = some z ∧ readUnif (curGroup v) v.clock b.toNat = 1
           ∧ z.members = []
         ends u y → exec (.barInit a b) s = regionEnds s (retireBarrier u u.cur.core (curGroup u).team y)))
    ∧ (BarrierAt s a [] x → Releases s u → getBarrier (curTeam u) x.offset = some y → exec (.barReg a) s
        = regionEnds s (putBarrier u u.cur.core (curGroup u).team { y with members := insertNat y.members u.cur.slot }))
    ∧ (BarrierAt s a [] x → Releases s u → getBarrier (curTeam u) x.offset = some y → mayArrive u y = true →
      let t := putBarrier u u.cur.core (curGroup u).team (arriveAt y u.cur.slot)
      exec (.barArr d a) s = regionEnds s (writeUnif t d.toNat 0 (wordOf y.phase))
      ∧ (abandoned s = none → exec (.barAw a) s = .next (endRegion (if (arriveAt y u.cur.slot).arrived.contains t.cur.slot
          then retireParked t (.barrier y.offset y.phase s.cur.pc true) else retire t) s.cur.core s.cur.slot)))
    ∧ (∀ p, OnceWhole s {} [.unif a.toNat] → regionsFull s = false → abandoned s = some p →
      let g := curGroup s
      let t := setCur s { g with user := { g.user with waits := g.user.waits.erase p } }
      exec (.barAw a) s = .next (endRegion (if parkOver t t.cur.core t.cur.slot p then retire t else retireParked t p) s.cur.core s.cur.slot))
    ∧ (let ph := fun (v : State) => (readUnif (curGroup v) v.clock b.toNat).toNat % 256
      BarrierAt s a [.unif b.toNat] x → Releases s u → getBarrier (curTeam u) x.offset = some y →
        (y.phase = ph u → exec (.barWait a b) s = .next (holdIssue u (.barrier y.offset (ph u) u.cur.pc false)))
        ∧ (y.phase ≠ ph u → exec (.barWait a b) s = regionEnds s u))
    ∧ (BarrierAt s a [] x → Releases s u → getBarrier (curTeam u) x.offset = some y →
      y.members.contains u.cur.slot = true → exec (.barDrop a) s
        = regionEnds s (putBarrier u u.cur.core (curGroup u).team (dropFrom y u.cur.slot)))
    ∧ (∀ (b : Barrier) (g : Nat), b.members.contains g = true →
      (b.arrived.contains g = false →
        (arriveAt b g).members = b.members
        ∧ (b.arrived.length + 1 = b.members.length → (arriveAt b g).phase = (b.phase + 1) % 256 ∧ (arriveAt b g).arrived = [])
        ∧ (b.arrived.length + 1 ≠ b.members.length → (arriveAt b g).phase = b.phase ∧ (arriveAt b g).arrived.length = b.arrived.length + 1
            ∧ ∀ x, x ∈ (arriveAt b g).arrived ↔ x = g ∨ x ∈ b.arrived))
      ∧ ((dropFrom b g).members = b.members.filter (· != g)
        ∧ ((dropFrom b g).members = [] → (dropFrom b g).phase = (b.phase + 1) % 256 ∧ (dropFrom b g).arrived = [])
        ∧ ((dropFrom b g).members ≠ [] → (b.arrived.filter (· != g)).length = (dropFrom b g).members.length →
            (dropFrom b g).phase = (b.phase + 1) % 256 ∧ (dropFrom b g).arrived = [])
        ∧ ((dropFrom b g).members ≠ [] → (b.arrived.filter (· != g)).length ≠ (dropFrom b g).members.length →
            (dropFrom b g).phase = b.phase ∧ (dropFrom b g).arrived = b.arrived.filter (· != g))))

/-- Stage queues (R260, R261): sqput puts a word behind the others, sqget takes the oldest, sqpeek counts; a full or an empty queue is waited for,
and what the region of a group that waits at an empty queue holds is to commit (R142).
Entry 18 of the log says what is the model's choice here. -/
def Obligations.StageQueues : Prop :=
  ∀ (s u : State) (q : BitVec 2) (a d : BitVec 7) (x : StageQueue),
    (let o : OpInfo := { noLane := true, srcA := some a }
     let takes := fun (v : State) (x : StageQueue) => queueCheck v q.toNat ((curRole v).outq == some q.toNat) = .ok x
     ∀ va ta vals t i x', OnceWhole s o [] → Reads s o [.reg a 0] va ta → takes s x →
       (x.depth ≤ queueCount x → regionsFull s = false → exec (.sqput q a) s = .next (holdIssue s (.queueFull q.toNat)))
       ∧ (queueCount x < x.depth → Releases s u → OnceWhole u o [] → Reads u o [.reg a 0] vals t → takes u x' →
          queueCount x' < x'.depth → firstLane u = some i →
          exec (.sqput q a) s = regionEnds s (applyLast (setQueue (scratchPut t t.cur.core (curGroup t).team
            (x'.offset + 4 * (x'.put % x'.depth)) (leBytes 4 (laneVal (vals.getD 0 []) i).toNat)) q.toNat { x' with put := x'.put + 1 })
            o 1 0 [])))
    ∧ (let o : OpInfo := { noLane := true, dst := some d }
       let holds := fun (v : State) (z : StageQueue) => OnceWhole v o [] ∧ queueCheck v q.toNat ((curRole v).inq == some q.toNat) = .ok z
         ∧ (queueCount z ≠ 0 → scratchBad v (z.offset + 4 * (z.removed % z.depth)) 4 = false)
       let word := fun (v : State) (z : StageQueue) => wordOf (memNat (getCore v v.cur.core).scratch
         ((curTeam v).scratch + z.offset + 4 * (z.removed % z.depth)) 4)
       holds s x →
       (queueCount x = 0 → regionsFull s = false →
          exec (.sqget q d) s = .next (holdIssue (commitParked s) (.queueEmpty q.toNat)))
       ∧ (∀ v x' y, queueCount x ≠ 0 → writeDst s d 0 [List.replicate 32 (word s x)] = .ok v → Releases s u → holds u x' →
          queueCount x' ≠ 0 → writeDst u d 0 [List.replicate 32 (word u x')] = .ok y →
          exec (.sqget q d) s = regionEnds s (setQueue y q.toNat { x' with removed := x'.removed + 1 })))
    ∧ (OnceWhole s { noLane := true, dst := some d } [] → queueCheck s q.toNat true = .ok x →
       writeDst s d 0 [List.replicate 32 (wordOf (queueCount x))] = .ok u → exec (.sqpeek q d) s = .next (retire u))

/-- Messages and the span barrier (R262 to R265): msend copies the payload out of the scratchpad, and its arrival is due; mpost gives the lowest free
handle; mtest says whether the receive is complete; mcancel waits for the commit; spbar arrives for its team. Entries 18 and 19 of the log say what is
the model's choice here. -/
def Obligations.MessagesAndSpans : Prop :=
  ∀ (s u : State) (c : BitVec 1) (d a : BitVec 5) (f : BitVec 7) (t n : BitVec 3),
    (let off := fun (v : State) => (unifQuad v a).getD 3 0
     let len := fun (v : State) => (unifQuad v a).getD 2 0
     let dest := fun (v : State) => (unifQuad v a).getD 0 0
     let ready := fun (v : State) => Once v { noLane := true, encBad := decide (28 < a.toNat) } (unifSrcs a 4) ∧ dest v < 320
       ∧ len v ≤ 256 ∧ off v % 8 = 0 ∧ off v + len v ≤ (curTeam v).size ∧ scratchBad v (off v) (len v) = false
     let m : Message := ⟨u.cur.core, wordOf ((unifQuad u a).getD 1 0), len u, tenantOf u u.cur.core (curGroup u).team,
       memBytes (getCore u u.cur.core).scratch ((curTeam u).scratch + off u) (len u)⟩
     ready s → Releases s u → ready u →
       ((c = 0 ∨ dieOf (dest u) ≠ curDie u) → exec (.msend c a) s = regionEnds s (pushDue u [arrivalOf (dest u) m false]))
       ∧ (c = 1 → dieOf (dest u) = curDie u →
         let e : Event := { die := curDie u, core := u.cur.core, unit := dest u % 40, len := (len u + 8 + 63) / 64 }
         exec (.msend c a) s = regionEnds s (pushDue u [⟨.circuitSetup, e⟩, arrivalOf (dest u) m false, ⟨.circuitRelease, e⟩])))
    ∧ (let w := fun (v : State) (i : Nat) => (unifQuad v a).getD i 0
       let cap := fun (v : State) => w v 0 / 2 ^ 16 % 512
       let ready := fun (v : State) => Once v { noLane := true, encBad := decide (28 < a.toNat) } (unifSrcs a 4) ∧ w v 0 / 2 ^ 25 = 0
         ∧ w v 0 / 2 ^ 10 % 64 = 0 ∧ cap v ≤ 256 ∧ w v 3 % 8 = 0 ∧ w v 3 + 8 + cap v ≤ (curTeam v).size
       let k := getCore u u.cur.core
       ready s → Releases s u → ready u →
       (∀ h, lowestFree k.receives 256 = some h → postedBy k (curGroup u).team < (curLaunch u).receives →
         let r : Receive := ⟨(curGroup u).team, u.cur.slot, cap u, (w u 0).testBit 9, w u 0 % 512, wordOf (w u 1), wordOf (w u 2), w u 3,
           k.rxOrder, none⟩
         let v := writeUnif (setCore u u.cur.core { k with receives := insertKey k.receives h r, rxOrder := k.rxOrder + 1 })
           d.toNat 0 (wordOf h)
         exec (.mpost d a) s = regionEnds s (resend (matchQueued v v.cur.core h) v.cur.core))
       ∧ ((lowestFree k.receives 256 = none ∨ (curLaunch u).receives ≤ postedBy k (curGroup u).team) →
         exec (.mpost d a) s = regionEnds s (writeUnif u d.toNat 0 0xFFFFFFFF)))
    ∧ (let o : OpInfo := { noLane := true, srcA := some f, pBad := pairPred t n }
       ∀ vals i, Reads s o [.reg f 0] vals u → firstLane s = some i → (laneVal (vals.getD 0 []) i).toNat ≤ 255 →
       let done := (ownReceive s (laneVal (vals.getD 0 []) i).toNat).bind (·.done)
       let v := applyLast (writeCond u t n 0 (if done.isSome then 0xFFFFFFFF else 0)) o 1 0 []
       exec (.mtest t n f) s = .next (retire (match done with
         | some c => if dieOf c = curDie s then v else acquireAt v 4
         | none => v)))
    ∧ (Once s { noLane := true } [.unif a.toNat] →
       exec (.mcancel a) s = .next (retire (defer s (.mcancel (readUnif (curGroup s) s.clock a.toNat).toNat))))
    ∧ (∀ (g : BitVec 6) (b : BitVec 2),
       let span := fun (v : State) => getSpan v v.cur.core (curGroup s).team b.toNat
       let ready := fun (v : State) => OnceWhole v { encBad := g == 0 } [] ∧ ((span v).arrivals = [] ∨ (span v).g = g.toNat)
       let l := leaderOf u u.cur.core (curGroup s).team
       let y := arriveSpan (span u) g.toNat ((curTeam u).spanRow * 8 + (curTeam u).spanCol) (spanSize (curLaunch u))
       let v := setTeam u l.1 l.2 { getTeam u l.1 l.2 with spans := insertKey (getTeam u l.1 l.2).spans b.toNat y }
       (abandoned s = none → OnceWhole s { encBad := g == 0 } [] → Releases s u → ready u → exec (.spbar g b) s = .next (endRegion
         (if (span v).phase = (span s).phase then retireParked v (.span b.toNat (span s).phase s.cur.pc) else retire v)
           s.cur.core s.cur.slot))
       ∧ ∀ p, OnceWhole s { encBad := g == 0 } [] → regionsFull s = false → abandoned s = some p →
         let h := curGroup s
         let t := setCur s { h with user := { h.user with waits := h.user.waits.erase p } }
         exec (.spbar g b) s = .next (endRegion (if parkOver t t.cur.core t.cur.slot p then retire t else retireParked t p)
           s.cur.core s.cur.slot))

/-! ### Truss and matrix engine (spec/13, spec/15) -/

/-- Truss instructions (R330 to R338): tnext takes the next tile with a free grain, tdone marks the claimed grains done and counts them, tmap reads or
rewrites a word of the coverage map; trd and twr read and stage the registers; tcommit and thand wait for the commit. Entry 21 of the log says what is
the model's choice here. -/
def Obligations.TrussInstructions : Prop :=
  ∀ (s u x y : State) (p : BitVec 3) (d a : BitVec 5) (i : BitVec 14) (tr tu : Truss),
    (let o : OpInfo := { fnBad := p == 0, encBad := decide (26 < d.toNat) }
     TrussOnce s o [] tr → nextTile s p d.toNat tr = .ok x → Releases s u → TrussOnce u o [] tu → nextTile u p d.toNat tu = .ok y →
       exec (.tnext p d) s = regionEnds s y)
    ∧ (let h := fun (v : State) => (readUnif (curGroup v) v.clock a.toNat).toNat
       let moved := fun (v : State) (t : Truss) (r : List Nat × State) => h v < 64 ∧ ∃ k, find? (curTeam v).claims (h v) = some k
         ∧ (if k.revoked then Except.ok ([], v) else coverMove v v.cur.core v.cur.slot true t (claimGrains t k) 1 3) = .ok r
       ∀ r q, TrussOnce s {} [.unif a.toNat] tr → moved s tr r → Releases s u → TrussOnce u {} [.unif a.toNat] tu → moved u tu q →
         exec (.tdone d a) s = regionEnds s (acquireAt (writeUnif
           (setCurTeam (dropGrains q.2) { curTeam q.2 with claims := eraseKey (curTeam u).claims (h u) }) d.toNat 0
             (wordOf (heldGrains q.2 ++ q.1).length)) 4))
    ∧ (let o : OpInfo := { encBad := decide (29 < a.toNat) }
       let w := fun (v : State) (n : Nat) => (unifQuad v a).getD n 0
       let mapped := fun (v : State) (t : Truss) (r : Nat × State) => w v 0 % 16 = 0 ∧ w v 1 ≤ 1
         ∧ (w v 1 = 1 → coverBad t (w v 0) (w v 2) = false ∧ isSuper v = true) ∧ w v 0 < grainCount t
         ∧ (if w v 1 = 1 then coverUpdate v v.cur.core v.cur.slot true t (w v 0) (fun _ => w v 2)
            else coverRead v v.cur.core t (w v 0)) = .ok r
       ∀ r q, TrussOnce s o (unifSrcs a 3) tr → mapped s tr r → Releases s u → TrussOnce u o (unifSrcs a 3) tu → mapped u tu q →
         exec (.tmap d a) s = regionEnds s (acquireAt (writeUnif q.2 d.toNat 0 (wordOf q.1)) 4))
    ∧ (∀ k t w, (trussTarget s).1 = some (k, t) → Once s { noLane := true } [] →
        (i.toNat ≤ 4 ∨ i.toNat = 8 → exec (.trd d i) s = .next (retire (writeUnif s d.toNat 0 (trussReg t i.toNat))))
        ∧ (5 ≤ i.toNat → i.toNat ≤ 7 → coverCount s.cur.core t (grainCount t / 16 + 1) 0 (0, 0, 0) s = .ok (w, x) →
          exec (.trd d i) s = .next (retire (writeUnif x d.toNat 0
            (wordOf (if i.toNat = 5 then w.1 else if i.toNat = 6 then w.2.1 else w.2.2))))))
    ∧ (∀ k t, trussTarget s = (some (k, t), true) →
        (Once s { noLane := true } [.unif d.toNat] → i.toNat ≤ 3 →
          let regs : FMap Word := if (curGroup s).staging.valid then (curGroup s).staging.regs
            else (upTo 4).map (fun n => (n, (stagedRegs (curGroup s) k ((upTo 4).map (trussReg t))).getD n 0))
          exec (.twr d i) s = .next (retire (setCur s { curGroup s with
            staging := ⟨insertKey regs i.toNat (readUnif (curGroup s) s.clock d.toNat &&& trussMask i.toNat), true⟩ })))
        ∧ (Once s { noLane := true } [] →
          let v := defer s (.tcommit k ((upTo 4).map (fun n => lookup (curGroup s).staging.regs n 0)))
          ((curGroup s).staging.valid = true → exec .tcommit s = .next (retire (setCur v { curGroup v with staging := ⟨[], false⟩ })))
          ∧ ((curGroup s).staging.valid = false → exec .tcommit s = .next (retire s))))
    ∧ (let v := readUnif (curGroup s) s.clock a.toNat
       TrussOnce s {} [.unif a.toNat] tr → fieldNat v 6 25 = 0 →
         exec (.thand a) s = .next (retire (defer s (.thand (fieldNat v 0 6) (v.getLsbD 31)))))

/-- The walk of the tiles (R331): the linear walk's digits lie below the tile counts by place and make the position up again, so
that no two positions below the tile count share a tile. -/
def Obligations.WalkDigits : Prop :=
  ∀ (t : Truss) (w : Nat), let n := fun (k : Nat) => tilesOf t (orderOf t k)
    (∀ k < 4, 0 < n k) → w < n 0 * n 1 * n 2 * n 3 →
    let r := fun (k : Nat) => (walkDigits t w).getD k 0
    (∀ k < 4, r k < n k) ∧ r 0 + n 0 * (r 1 + n 1 * (r 2 + n 2 * r 3)) = w

/-- The instructions of the matrix engine (R294 to R309): each queues one operation of the open batch with the words and the capability of its issue,
at its region's commit, and waits while the team has sixteen operations queued, in its sequencer and in uncommitted regions; mma and mmas need the full gang, mmas the leader; operand words that R297 or the
instruction's own rule refuses are illegal encodings, and ranges past the allocation scratch-bounds faults; mstat reads the status and clears bits at
the commit. With no active lane none of the others has an effect. Entry 22 of the log says what is the model's choice here. -/
def Obligations.MatrixInstructions : Prop :=
  ∀ (s : State) (f : BitVec 3) (m : BitVec 1) (d a b : BitVec 5),
    let g := curGroup s
    let t := curTeam s
    let lane := (firstLane s).getD 0
    let queued := fun (i : Instr) (kind : Nat) (ws : List Word) (cap : Cap) =>
      (queuedOps s s.cur.core g.team < 16 → exec i s = .next (retire (defer (setCur s { g with batch := batchJoin g.batch })
        (.engine ⟨kind, ws, cap, s.cur.core, s.cur.slot, g.team, g.batch.opened, 0, 0⟩))))
      ∧ (16 ≤ queuedOps s s.cur.core g.team → exec i s = .next (holdIssue s .sequencer))
    let refused := fun (i : Instr) => exec i s = .next (takeTrap s { cls := 3, code := 0x10 })
    let outside := fun (i : Instr) (off : Nat) => exec i s = .next (takeTrap s { cls := 6, code := 0x03, lane := lane, obj := off })
    let idle := fun (i : Instr) (o : OpInfo) (srcs : List Src) => checkSlot s { o with noLane := true } = .ok () →
      checkReady s srcs [] = .ok () → (activeLanes s).isEmpty = true → exec i s = .next (retire s)
    (let ws := unifWords s a.toNat 4 ++ unifWords s d.toNat 4 ++ unifWords s b.toNat 2
     let forms := fun (i : Instr) (kind : Nat) =>
       (matBad t ws = true → refused i)
       ∧ (matBad t ws = false → fullGang s = false → exec i s = .next (takeTrap s { cls := 4, code := 0x05 }))
       ∧ (matBad t ws = false → fullGang s = true → t.size < aEnd (matMulOf ws) → outside i (ws.getD 0 0).toNat)
       ∧ (matBad t ws = false → fullGang s = true → aEnd (matMulOf ws) ≤ t.size → queued i kind ws Cap.null)
     checkSlot s { noLane := true, encBad := decide (28 < d.toNat) || decide (28 < a.toNat) || decide (30 < b.toNat) } = .ok () →
     checkReady s (unifSrcs a 4 ++ unifSrcs d 4 ++ unifSrcs b 2) [] = .ok () →
       forms (.mma d a b) 0
       ∧ (t.spanRow = 0 ∧ t.spanCol = 0 → forms (.mmas d a b) 1)
       ∧ (¬ (t.spanRow = 0 ∧ t.spanCol = 0) → exec (.mmas d a b) s = .next (takeTrap s { cls := 3, code := 0x06 })))
    ∧ (idle (.aclr m) {} [] ∧ (Once s { noLane := true } [] →
        (holdsSlot t m.toNat = true → queued (.aclr m) 2 [wordOf m.toNat] Cap.null)
        ∧ (holdsSlot t m.toNat = false → refused (.aclr m))))
    ∧ (let ws := unifWords s a.toNat 4
       let w := acpyWidth f.toNat
       let off := (ws.getD 0 0).toNat
       let stride := (ws.getD 1 0).toNat
       let area := if f = 2 then (readUnif g s.clock d.toNat).toNat else 0
       let box := acpyBox ws
       let rows := box.2.2.2.1
       let cols := box.2.2.2.2
       let good := fieldNat (ws.getD 2 0) 24 8 = 0 ∧ fieldNat (ws.getD 2 0) 1 7 = 0 ∧ boxBad box.2.1 box.2.2.1 rows cols = false
         ∧ holdsSlot t box.1 = true ∧ off % 16 = 0 ∧ stride % 16 = 0 ∧ cols * w ≤ stride ∧ (f = 2 → cols % 32 = 0)
       let o : OpInfo := { noLane := true, fnBad := decide (5 < f.toNat), encBad := decide (28 < a.toNat) || (f != 2 && d != 0) }
       let srcs := unifSrcs a 4 ++ (if f = 2 then [.unif d.toNat] else [])
       idle (.acpy f d a) o srcs
       ∧ (Once s o srcs →
         (¬ good → refused (.acpy f d a))
         ∧ (good → t.size < off + (rows - 1) * stride + cols * w → outside (.acpy f d a) off)
         ∧ (good → off + (rows - 1) * stride + cols * w ≤ t.size → f = 2 → t.size < area + rows * (cols / 32) →
            outside (.acpy f d a) area)
         ∧ (good → off + (rows - 1) * stride + cols * w ≤ t.size → (f = 2 → area + rows * (cols / 32) ≤ t.size) →
            queued (.acpy f d a) 3 ([wordOf f.toNat, wordOf area] ++ ws) Cap.null)))
    ∧ (let ws := unifWords s a.toNat 3
       let off := (ws.getD 0 0).toNat
       let n := (ws.getD 2 0).toNat
       let good := t.weights = true ∧ (ws.getD 1 0).toNat + n ≤ 4096 ∧ n ≠ 0 ∧ off % 4 = 0
       let o : OpInfo := { noLane := true, encBad := decide (29 < a.toNat) }
       idle (.scld a) o (unifSrcs a 3)
       ∧ (Once s o (unifSrcs a 3) →
         (¬ good → refused (.scld a)) ∧ (good → t.size < off + 4 * n → outside (.scld a) off)
         ∧ (good → off + 4 * n ≤ t.size → queued (.scld a) 4 ws Cap.null)))
    ∧ (let ws := unifWords s a.toNat 4
       let w3 := ws.getD 3 0
       let xoff := (ws.getD 0 0).toNat
       let len := (ws.getD 2 0).toNat
       let out := w3.getLsbD 4
       let cap := capAt g s.clock (fieldNat w3 0 4)
       let good := t.weights = true ∧ fieldNat w3 5 27 = 0 ∧ (m = 1 → fieldNat w3 0 4 = 0) ∧ len ≠ 0 ∧ len % 16 = 0 ∧ xoff % 16 = 0
         ∧ (ws.getD 1 0).toNat % 16 = 0 ∧ (ws.getD 1 0).toNat + len ≤ 393216
       let o : OpInfo := { noLane := true, encBad := decide (28 < a.toNat) }
       idle (.wbld m a) o (unifSrcs a 4)
       ∧ (Once s o (unifSrcs a 4) →
         (¬ good → refused (.wbld m a))
         ∧ (good → m = 1 → t.size < xoff + len → outside (.wbld m a) xoff)
         ∧ (good → m = 1 → xoff + len ≤ t.size → queued (.wbld m a) 5 (ws ++ [wordOf m.toNat]) cap)
         ∧ (good → m = 0 → checkReady s [.cap (fieldNat w3 0 4)] [] = .ok () →
            (∀ x, checkAccess s cap lane xoff len (if out then 0x02 else 0x01) (if out then 5 else 4) true = .error x →
              exec (.wbld m a) s = .next (stopFor s x))
            ∧ (checkAccess s cap lane xoff len (if out then 0x02 else 0x01) (if out then 5 else 4) true = .ok () →
              queued (.wbld m a) 5 (ws ++ [wordOf m.toNat]) cap))))
    ∧ (idle (.mstat d a) { encBad := decide (28 < d.toNat) } [.unif a.toNat]
      ∧ (Once s { noLane := true, encBad := decide (28 < d.toNat) } [.unif a.toNat] →
        exec (.mstat d a) s = .next (retire (defer (writeUnifs s d.toNat ((upTo 4).map (fun i => lookup t.status i 0)))
          (.mstatClear (readUnif g s.clock a.toNat) ((upTo 4).map (fun i => lookup t.status i 0)) false)))))

/-! ### The reed engine (spec/14) -/

/-- Reed gates and generators (R316 to R322, R324 to R326): in the active lanes the destination's stream is the gate of the sources' streams, its
class mask follows the gate's rule, a constant stream going with any partner, and the pipe's datapath is occupied; while it is busy the instruction waits; streams that are not independent, or
masks that differ where they must agree, fault; poisoned streams give a machine check for the lowest active lane that reads one. Entry 25 of the log says what is the model's choice here. -/
def Obligations.ReedStreams : Prop :=
  ∀ (s : State) (d a b : BitVec 3) (c : BitVec 4),
    let g := curGroup s
    let x := reedMask g a.toNat
    let y := reedMask g b.toNat
    let l := reedLen s
    let free := reedFreeAt s ≤ s.clock
    let done := fun (n : Nat) (m : BitVec 16) (f : Nat → Nat) =>
      Host.Outcome.next (retire (occupyReed (reedWrite s d.toNat m f) n))
    let gate := fun (m : BitVec 16) (f : Nat → Nat → Nat) =>
      done (reedClocks s 1 256) m (fun i => f (reedRead g a.toNat i) (reedRead g b.toNat i))
    (ReedOnce s [d.toNat, a.toNat, b.toNat] → reedClean s [a.toNat, b.toNat] = .ok () →
      (x &&& y = 0 → free → exec (.zand d a b) s = gate (x ||| y) (fun p q => p &&& q)
          ∧ exec (.zor d a b) s = gate (x ||| y) (fun p q => p ||| q))
      ∧ (x &&& y ≠ 0 → exec (.zand d a b) s
          = .next (takeTrap s { cls := 9, code := 0x01, detail := [x.zeroExtend 32, y.zeroExtend 32] }))
      ∧ (x = y ∨ x = 0 ∨ y = 0 → free → exec (.zandc d a b) s = gate (x ||| y) (fun p q => p &&& q)
          ∧ exec (.zorc d a b) s = gate (x ||| y) (fun p q => p ||| q) ∧ exec (.zxorc d a b) s = gate (x ||| y) (fun p q => p ^^^ q))
      ∧ (x ≠ y → x ≠ 0 → y ≠ 0 → ∀ i, i = Instr.zandc d a b ∨ i = Instr.zorc d a b ∨ i = Instr.zxorc d a b →
          exec i s = .next (takeTrap s { cls := 9, code := 0x02, detail := [x.zeroExtend 32, y.zeroExtend 32] }))
      ∧ (reedMask g d.toNat &&& (x ||| y) = 0 → reedClean s [d.toNat, a.toNat, b.toNat] = .ok () → free → exec (.zmux d a b) s
          = done (reedClocks s 1 256) (reedMask g d.toNat ||| x ||| y) (fun i => (reedRead g b.toNat i &&& reedRead g d.toNat i)
            ||| (reedRead g a.toNat i &&& ((2 ^ l - 1) ^^^ reedRead g d.toNat i)))))
    ∧ (∀ i zs, (activeLanes s).find? (fun i => zs.any (fun z => g.regs.bad.contains (reedKey z i))) = some i →
      let check := Host.Outcome.next (takeTrap s { cls := 1, code := 0x01, lane := i })
      (zs = [a.toNat, b.toNat] → ReedOnce s [d.toNat, a.toNat, b.toNat] → exec (.zand d a b) s = check ∧ exec (.zxorc d a b) s = check)
      ∧ (zs = [a.toNat] → ReedOnce s [d.toNat, a.toNat] → exec (.znot d a) s = check ∧ exec (.zregen d a c) s = check))
    ∧ (ReedOnce s [d.toNat, a.toNat] → reedClean s [a.toNat] = .ok () →
      (free → exec (.znot d a) s = done (reedClocks s 1 256) x (fun i => (2 ^ l - 1) ^^^ reedRead g a.toNat i)
        ∧ exec (.zregen d a c) s = done (classClocks s c.toNat) (BitVec.ofNat 16 (2 ^ c.toNat))
          (fun i => generate s c.toNat i (onesOf l (reedRead g a.toNat i) * (65536 / l))))
      ∧ (s.clock < reedFreeAt s → exec (.znot d a) s = .next (holdIssue s .reed)))
    ∧ (∀ (f : BitVec 7) (k : BitVec 2) vals u, let o : OpInfo := { noLane := true, srcA := some f, encBad := k == 3 || isStream f }
       reedFirst s o [d.toNat] = .ok () → Reads s o [.reg f 0] vals u → (activeLanes s).isEmpty = false → free →
       exec (.zgen d f k c) s = .next (retire (occupyReed (applyLast (reedWrite u d.toNat (BitVec.ofNat 16 (2 ^ c.toNat))
         (fun i => generate s c.toNat i (zgenThreshold k.toNat (laneVal (vals.getD 0 []) i)))) o 1 0 []) (classClocks s c.toNat))))
    ∧ (∀ (z : BitVec 5), Once s { noLane := true } [.unif z.toNat] → reedNames s [0] = .ok () →
       exec (.zseed z) s = .next (retire (setCur s { g with regs := { g.regs with zseed := readUnif g s.clock z.toNat } })))

/-- Reed results in lane registers (R323, R326): the count of ones as a number or as a fraction, a sum of counts, and the class mask; the counts
occupy the pipe's datapath. Entry 25 of the log says what is the model's choice here. -/
def Obligations.ReedResults : Prop :=
  ∀ (s : State) (f : BitVec 1) (n a : BitVec 3) (d : BitVec 7),
    let g := curGroup s
    let count := fun (z i : Nat) => onesOf (reedLen s) (reedRead g z i)
    let done := fun (i : Instr) (o : OpInfo) (zs : List Nat) (busy : Nat) (v : Nat → Word) =>
      let o : OpInfo := { o with noLane := true, dst := some d, encBad := o.encBad || isStream d }
      LaneRuns s o [] d 1 → reedNames s zs = .ok () → (busy ≠ 0 → reedFreeAt s ≤ s.clock ∧ reedClean s zs = .ok ()) →
      ∃ t, exec i s = .next t ∧ LaneDone s t o 0 0 d 1 (fun i _ => v i) 0
        ∧ (busy ≠ 0 → (activeLanes s).isEmpty = false → reedFreeAt t = s.clock + busy)
    done (.zcnt f d a) {} [a.toNat] (reedClocks s 1 256) (fun i => if f = 0 then wordOf (count a.toNat i)
        else wordOf (packFp fp32 0 false (.fin false (count a.toNat i) (-(Nat.log2 (reedLen s) : Int)))).1)
    ∧ done (.zclass d a) {} [a.toNat] 0 (fun _ => (reedMask g a.toNat).zeroExtend 32)
    ∧ (let zs := (upTo (n.toNat + 2)).map (fun k => a.toNat + k)
       done (.zsum n d a) { fnBad := n == 7, encBad := decide (7 < a.toNat + n.toNat + 1) } zs (reedClocks s (n.toNat + 2) 256)
         (fun i => wordOf (zs.foldl (fun m z => m + count z i) 0)))

/-! ### System and debug instructions (spec/16, spec/17, spec/18) -/

/-- System calls, software traps, the return from an interrupt and the supervisor queue (R349 to R352, R362): syscall and trap post a record for each
lane and park at the slot after, syscall once h0 to h5 are ready, and stop the core in the supervisor lane; rfe enables interrupts and goes on at SLEPC; svtake gives pending records
to lanes or waits; svpost defers its resolutions to the commit. Entry 28 of the log says what is the model's choice here. -/
def Obligations.CallsAndRecords : Prop :=
  ∀ (s u : State) (i : BitVec 14) (d a : BitVec 5) (x y : BitVec 7),
    (let hs := fun (n : Nat) => (freeHandles (getCore s s.cur.core)).take n
     let post := fun (v : State) (lanes : List Nat) (cls : Nat) (detail : Nat → List Word) => .next (endRegion (retireParked
       ((upTo lanes.length).foldl (fun t n => laneRecord t ((hs lanes.length).getD n 0) (lanes.getD n 0) cls i.toNat
         (detail (lanes.getD n 0))) v) (.syscall (hs lanes.length))) s.cur.core s.cur.slot)
     let args := (upTo 6).map (Src.reg 0)
     Releases s u → isLane s = false → isLane u = false →
       (Once s {} args → Once u {} args → (activeLanes s).length ≤ (freeHandles (getCore s s.cur.core)).length → exec (.syscall i) s
         = post (noteDead u args) (activeLanes s) 0xE (fun l => (upTo 6).map (fun n => laneVal (nameLanes (curGroup s) s.clock n) l)))
       ∧ (Once s {} [] → Once u {} [] → freeHandles (getCore s s.cur.core) ≠ [] →
           exec (.trap i) s = post u (firstLane s).toList 0xD (fun _ => [])))
    ∧ (Once s {} [] → isLane s = true →
       (checkReady s ((upTo 6).map (Src.reg 0)) [] = .ok () → exec (.syscall i) s = .next (takeTrap s { cls := 0xE, code := 0 }))
       ∧ exec (.trap i) s = .next (takeTrap s { cls := 0xD, code := 0 })
       ∧ exec .rfe s = .next (goFlow (setCore s s.cur.core { getCore s s.cur.core with
           lane := { (getCore s s.cur.core).lane with ie := true } }) (gotoAll s (getCore s s.cur.core).lane.epc)))
    ∧ (checkSlot s {} = .ok () → isLane s = false → exec .rfe s = .next (takeTrap s { cls := 3, code := 0x03 }))
    ∧ (let w := (readUnif (curGroup s) s.clock a.toNat).toNat
       let lanes := if isLane s then (activeLanes s).take 1 else activeLanes s
       let hs := (takeable s (w % 2 ^ 15)).take lanes.length
       let quads := ((lanes.take hs.length).map (· / 4)).eraseDups
       Once s { sup := true } [.unif a.toNat] → w % 2 = 0 → w / 2 ^ 15 % 2 ^ 16 = 0 → takeName s + 15 ≤ 251 →
       (hs = [] → w.testBit 31 = true → exec (.svtake d a) s = .next (retire (writeUnif s d.toNat 0 0)))
       ∧ (hs = [] → w.testBit 31 = false → exec (.svtake d a) s = .next (holdIssue s (.svtake (w % 2 ^ 15))))
       ∧ (hs ≠ [] → (∀ q ∈ quads, takeFresh s q = 0 ∨ liveRegs (curGroup s) q + takeFresh s q ≤ peakOf s) →
          (curGroup s).credit = false →
          let t := (upTo hs.length).foldl (fun t n => giveRecord t (hs.getD n 0) (lanes.getD n 0)) s
          exec (.svtake d a) s = .next (retire (writeUnif (setCore t t.cur.core (noteIdle (getCore t t.cur.core))) d.toNat 0
            (wordOf hs.length)))))
    ∧ (let o : OpInfo := { sup := true, srcA := some x, srcB := some y }
       ∀ vals, Reads s o [.reg x 0, .reg y 0] vals u → isLane s = false →
       let posts := (activeLanes s).map (fun n => (n, (laneVal (vals.getD 0 []) n).toNat % 512, laneVal (vals.getD 1 []) n))
       (∀ p ∈ posts, takenHere s p.2.1 = true ∧ actionBad (getRec (getCore s s.cur.core) p.2.1) p.2.2 = false) →
       exec (.svpost x y) s = .next (retire (applyLast (posts.foldl (fun (acc : List Nat × State) p =>
         if acc.1.contains p.2.1 then acc else (acc.1 ++ [p.2.1], defer acc.2 (.svpost p.2.1 p.2.2)))
         (postedHandles (curGroup s), u)).2 o 1 1 [])))

/-- Control registers (R360, R361, R362): csrr gives the register's value, csrw defers the write to the commit; extinv starts a shoot-down and waits
for it; wfi goes on when something is pending; hlt ends its bundle, or stops the core of a supervisor lane. Entry 28 of the log says what is the
model's choice here. -/
def Obligations.ControlRegisters : Prop :=
  ∀ (s u : State) (d : BitVec 7) (n : BitVec 12) (a : BitVec 5) (i : BitVec 14),
    (∀ v, csrValue s s.cur.core n.toNat = some v → csrDenied s n.toNat false = false → (n.toNat < 0xC00 ∨ 0xCFF < n.toNat) →
      LaneResult (.csrr d n) s { dst := some d } [] 0 0 d 1 0 (fun _ => ([v], 0)))
    ∧ (∀ v, csrValue s s.cur.core n.toNat = some v → csrDenied s n.toNat false = false → 0xC00 ≤ n.toNat → n.toNat ≤ 0xCFF →
      (activeLanes s).isEmpty = false → checkSlot s { dst := some d } = .ok () →
      laneOp s { dst := some d } [] 0 0 d 1 0 (fun _ => ([v], 0)) = .ok u → exec (.csrr d n) s = .next (retire (acquireAt u 5)))
    ∧ (∀ v i, csrValue s s.cur.core n.toNat = some v → csrDenied s n.toNat false = true → firstLane s = some i →
      checkSlot s { dst := some d } = .ok () → exec (.csrr d n) s = .next (takeTrap s { cls := 5, code := 0x03, lane := i }))
    ∧ (∀ v vals l, csrValue s s.cur.core n.toNat = some v → csrDenied s n.toNat true = false →
      Reads s { srcD := some d } [.reg d 0] vals u → firstLane s = some l →
      exec (.csrw d n) s = .next (retire (deferNow u (.csrw n.toNat (laneVal (vals.getD 0 []) l)))))
    ∧ (Once s { sup := true } [.unif a.toNat] →
      let t := retire (startShoot s s.cur.core (readUnif (curGroup s) s.clock a.toNat).toNat)
      exec (.extinv a) s = .next (setCur t (parkOthers (curGroup t) .shootdown)))
    ∧ (Once s { sup := true } [] →
      (wfiReady s = true → exec .wfi s = .next (retire s))
      ∧ (wfiReady s = false → exec .wfi s = .next (retireParked s .wfi))
      ∧ (isLane s = true → exec (.hlt i) s = .next (stopCore s s.cur.core s.cur.pc 0 i.toNat))
      ∧ (isLane s = false →
        let t := setLaunch s (curGroup s).launch { getLaunch s (curGroup s).launch with reason := i.toNat }
        exec (.hlt i) s = .next (pushDue (retire t) [dueAbort (getLaunch t (curGroup s).launch).bundle 0x08 i.toNat])))

/-- What a control register holds after a write (R360, Table 16-10): its writable fields, the others as the table has them. -/
def Obligations.RegisterWriteRead : Prop :=
  ∀ (s : State) (c n : Nat) (v : Word),
    (n = 0x801 → csrValue (writeRegister s c n v) c n = some v)
    ∧ (n = 0x800 ∨ n = 0x810 ∨ n = 0x811 → csrValue (writeRegister s c n v) c n = some (v &&& 0x1FFFFFFF))
    ∧ (n = 0x812 → csrValue (writeRegister s c n v) c n = some (v &&& 0x0FFFFFFF))
    ∧ (0x820 ≤ n → n ≤ 0x82F → csrValue (writeRegister s c n v) c n = some v)
    ∧ (n = 0x841 → csrValue (writeRegister s c n v) c n = some (v &&& 3))
    ∧ (n = 0x868 → csrValue (writeRegister s c n v) c n = some (v &&& 1))
    ∧ (n = 0x869 ∨ n = 0x86A → csrValue (writeRegister s c n v) c n = some v)
    ∧ (n = 0x86C → csrValue (writeRegister s c n v) c n = some (v &&& 0x7F))
    ∧ (∀ w, n = 0x86B → csrValue s c n = some w → csrValue (writeRegister s c n v) c n = some (w &&& ~~~v))
    ∧ (∀ w, n = 0x860 → csrValue s c n = some w → csrValue (writeRegister s c n v) c n = some w)

/-- A privileged instruction in a user group takes illegal-instruction trap 0x03 (R349, Table 16-6), gsave and grest as they issue: not while their
dependence counter is at 63 (R172). -/
def Obligations.PrivilegedTraps : Prop :=
  ∀ (s : State) (i : Instr) (o : OpInfo),
    ((∃ d a, i = .svtake d a ∧ o = {}) ∨ (∃ a b, i = .svpost a b ∧ o = { srcA := some a, srcB := some b }) ∨ (∃ a, i = .extinv a ∧ o = {})
      ∨ (i = .wfi ∧ o = {}) ∨ (∃ c d a k t, i = .gsave c d a k t ∧ CountFree s c.toNat ∧ o = { srcA := some a })
      ∨ (∃ c d a k t, i = .grest c d a k t ∧ CountFree s c.toNat ∧ isStream d = false ∧ o = { srcA := some a, dst := some d }) ∨ (∃ n, i = .hlt n ∧ o = {})) →
    slotFault s o = none → isSuper s = false → exec i s = .next (takeTrap s { cls := 3, code := 0x03 })

/-- qput, gsave and grest (R363, R394, R356 to R359): qput defers the append of the packet, with its capabilities as they stand, and maps the name of its
status, whose readers wait for the commit; gsave saves another group or team once nothing is outstanding for it, and waits until then, its regions
aborted; grest places the saved group or team, and waits
for room. Entries 24, 26, 27 and 61 of the log say what is the model's choice here. -/
def Obligations.QueuesAndSaves : Prop :=
  ∀ (s u : State) (c : BitVec 3) (d a : BitVec 7) (k : BitVec 4) (t : BitVec 1) (vals : List Lanes) (lane : Nat),
    CountFree s c.toNat → firstLane s = some lane →
    (∀ e x y z, let o : OpInfo := { noLane := true, srcA := some a, dst := some d }
       let g := curGroup s
       let capOf := fun (i : Nat) => capAt g s.clock i
       let cap := capOf k.toNat
       let off := (laneVal (vals.getD 0 []) lane).toNat
       let len := headLen (leNat (readScratch x off 4))
       let raw := readScratch x off (Nat.max 4 (4 * len))
       let fields := (packetCaps raw).filter (registerMode raw)
       let image := convertImage g s.clock raw fields
       Reads s o [.reg a 0, .cap k.toNat] vals u → checkCap u cap lane 0x02 = .ok () →
       liftMem lane cap.obj.toNat cap.base.toNat 1 (descOf u u.cur.core cap.obj.toNat) = .ok (e, x) → e.kind = 3 →
       (isSvq x (getCore x x.cur.core).part e.id = true → cap.rights.getLsbD 7 = true) → off + 4 ≤ (curTeam x).size →
       off + 4 * len ≤ (curTeam x).size → scratchBad x off (Nat.max 4 (4 * len)) = false →
       (∀ i ∈ fields, (capOf (imageWord raw (i + 1) % 16)).tag = true → (capOf (imageWord raw (i + 1) % 16)).rights.getLsbD 6 = true) →
       mapDst x d = .ok y →
       z = deferOn (awaitStatus y d) c.toNat (.qput e.id (image.1 ++ List.replicate (Nat.max 16 (roundUp (4 * len) 16) - image.1.length) 0)
         image.2 (nameOf g d) ((activeLanes s).foldl (fun n i => n ||| 2 ^ fieldLane g d i) 0)) →
       exec (.qput c d a k) s = .next (retire (applyLast z o 1 0 (dstNames s (some d) 1))))
    ∧ (∀ ar x y, let o : OpInfo := { sup := true, srcA := some a, srcD := some d }
       let n := (laneVal (vals.getD 1 []) lane).toNat
       let g := getGroup u s.cur.core n
       let idle := if t == 1 then teamSavable x s.cur.core g.team else savable x s.cur.core n
       Reads s o [.reg a 0, .reg d 0, .cap k.toNat] vals u → n < 64 → g.resident = true →
       (isLane s = true ∨ (n ≠ s.cur.slot ∧ (t = 1 → g.team ≠ (curGroup s).team))) →
       saveArea u lane (capAt (curGroup u) s.clock k.toNat) (laneVal (vals.getD 0 []) lane).toNat
         (if t == 1 then teamAreaSize u s.cur.core g.team else groupAreaSize (getLaunch u g.launch)) 5 = .ok (ar, x) →
       (idle = false →
         let slots := if t == 1 then teamSlots s s.cur.core g.team else [n]
         exec (.gsave c d a k t) s
           = .next (holdIssue (abortWaiting s s.cur.core slots) (.saving s.clock (if t == 1 then some g.team else none) slots)))
       ∧ (idle = true →
         liftMem lane ar.desc.id ar.base 5 (if t == 1 then saveTeam x s.cur.core g.team ar else saveGroup x s.cur.core n ar false) = .ok y →
         exec (.gsave c d a k t) s = .next (retire (applyLast y o 1 0 (fieldNames (curGroup s) (some d) 1)))))
    ∧ (∀ ar x hd w y v, let o : OpInfo := { sup := true, srcA := some a, dst := some d }
       let done := .next (retire (applyLast v o 1 0 (dstNames s (some d) 1)))
       isStream d = false → Reads s o [.reg a 0, .cap k.toNat] vals u →
       let cap := capAt (curGroup u) s.clock k.toNat
       saveArea u lane cap (laneVal (vals.getD 0 []) lane).toNat (if t = 1 then 4096 else 0x8E00) 4
         = .ok (ar, x) →
       liftMem lane ar.desc.id ar.base 4 (readHome x ar.part ar.desc ar.base 4096) = .ok (hd, w) →
       (t = 1 → teamValid w ar = true →
         checkAccess w cap lane (laneVal (vals.getD 0 []) lane).toNat (areaEnd w ar) 0x83 4 false = .ok () →
         liftMem lane ar.desc.id ar.base 4 (touchArea w ar (areaEnd w ar)) = .ok y →
         (teamRoom y s.cur.core ar = false →
           exec (.grest c d a k t) s = .next (holdIssue s (.restoring s.clock (areaNat y ar 4 4) (areaKey y ar))))
         ∧ (teamRoom y s.cur.core ar = true →
           writeDst (restoreTeam y s.cur.core ar).2 d 0 [List.replicate 32 (wordOf (restoreTeam y s.cur.core ar).1)] = .ok v →
           exec (.grest c d a k t) s = done))
       ∧ (∀ m, t = 0 → teamFor w s.cur.core (areaNat w ar 0x28 4) (areaNat w ar 0x38 4 / 64) = some m →
         areaValid w (teamKey (getTeam w s.cur.core m)) ar = true →
         checkAccess w cap lane (laneVal (vals.getD 0 []) lane).toNat (groupAreaSize (getLaunch w (areaNat w ar 0x28 4))) 0x83 4 false = .ok () →
         liftMem lane ar.desc.id ar.base 4 (touchArea w ar (groupAreaSize (getLaunch w (areaNat w ar 0x28 4)))) = .ok y →
         (groupRoom y s.cur.core ar = false → exec (.grest c d a k t) s = .next (holdIssue s (.retry s.clock 15)))
         ∧ (groupRoom y s.cur.core ar = true →
           writeDst (restoreGroup y s.cur.core m ar).2 d 0 [List.replicate 32 (wordOf (restoreGroup y s.cur.core m ar).1)] = .ok v →
           exec (.grest c d a k t) s = done)))

/-- The debug instructions (R370, R371): brk stops a debug-enabled group and is otherwise without effect; mark defers its record; cnrd reads a
counter; wcoord gives group, region serial and slot count. Entry 35 of the log says what is the model's choice here. -/
def Obligations.DebugInstructions : Prop :=
  ∀ (s : State) (i : BitVec 14) (d a : BitVec 7) (r : BitVec 5),
    (Once s {} [] →
      (isLane s = true ∨ debugEnabled s s.cur.core s.cur.slot = false ∨ catchingUp (curGroup s) = true → exec (.brk i) s = .next (retire s))
      ∧ (isLane s = false → debugEnabled s s.cur.core s.cur.slot = true → catchingUp (curGroup s) = false →
          let n := (curRegion (curGroup s)).slots + 1
          exec (.brk i) s = .next (pushDue s
            [⟨.debugStop, { core := s.cur.core, unit := s.cur.slot, value := 1, extra := n, obj := i.toNat, off := 0 }⟩]))
      ∧ exec (.mark i) s = .next (retire (if (getDie s (curDie s)).dbg.ctl.getLsbD 1 then deferNow s (.mark i.toNat) else s)))
    ∧ LaneResult (.cnrd d a) s { srcA := some a, dst := some d } [.reg a 0] 1 0 d 1 0
        (fun v => ([counterOf (curGroup s).stats ((arg v 0).toNat % 32)], 0))
    ∧ (Once s { encBad := decide (29 < r.toNat) } [] → ∃ t, exec (.wcoord r) s = .next t
        ∧ lookup (curGroup t).regs.unif r.toNat 0 = (curGroup s).wg
        ∧ lookup (curGroup t).regs.unif (r.toNat + 1) 0 = (curRegion (curGroup s)).serial
        ∧ lookup (curGroup t).regs.unif (r.toNat + 2) 0 = wordOf (curRegion (curGroup s)).slots
        ∧ (∀ u, (u < r.toNat ∨ r.toNat + 2 < u) → lookup (curGroup t).regs.unif u 0 = lookup (curGroup s).regs.unif u 0)
        ∧ IssuerOnly s t ∧ WentTo s t s.cur.nextPc)

/-- Taking a trap (R342 to R346, R150, R152): with a free record among those of its class, the record holds the sixteen words with its own handle and
is pending; every quad of the group waits on it; and the group stands where the snapshot of the region named has it, the capabilities as there and
nothing held after it. Entries 47 and 49 of the log say what is the model's choice here. -/
def Obligations.TrapEntry : Prop :=
  ∀ (s : State) (c slot i h : Nat) (o : Origin) (t : Trap) (r : Region),
    let told := syndrome s t
    let k := getCore (abortRegions told.2 c slot i) c
    let rng := recordRange t.cls 0
    let dest := t.cls == 1 || (o.sup && t.cls == 7)
    let words := recordWords o told.1 dest
    let u := takeGroupTrap s c slot i o t
    let g := getGroup u c slot
    (getGroup s c slot).regions[i]? = some r → freeRecord k rng.1 rng.2 = some h →
    rng.1 ≤ h ∧ h < rng.2
    ∧ (∀ n < 16, wordOf (memNat (getCore u c).reserve (64 * h + 4 * n) 4)
        = if n = 0 then words.headD 0 ||| wordOf h else words.getD n 0)
    ∧ (getRec (getCore u c) h).state = .pending ∧ (getRec (getCore u c) h).dest = dest
    ∧ (∀ q ∈ g.quads, q.2.park = .trap h)
    ∧ g.regions.length = i + 1
    ∧ (∃ x, g.regions.getLast? = some x ∧ x.serial = r.serial ∧ x.snap = r.snap ∧ x.stores = r.stores.take r.snap.stores
        ∧ x.deferred = [] ∧ x.slots = r.snap.slots)
    ∧ g.regs.caps = r.snap.caps
    ∧ ∀ q ∈ g.quads, ∀ x, find? r.snap.quads q.1 = some x → q.2.pc = x.pc ∧ q.2.mask = x.mask ∧ q.2.stack = x.stack

/-! ### The steps that no instruction takes: events of units and of the outside (spec/03 to spec/06, spec/10 to spec/20) -/

/-- Traps that wait, user interrupts, the supervisor lane and the candidates' clocks (R156, R252, R255, R342, R347, R348, R360, R372): each event,
where its condition holds, has the effect that its rule gives; an interrupted wait is to resume at its own instruction. Entries 3, 7 and 48 of the
log say what is the model's choice here. -/
def Obligations.LaneAndClockEvents : Prop :=
  ∀ (s : State), let e := s.ev
    let k := getCore s e.core
    let g := getGroup s e.core e.unit
    let q := getQuad g e.len
    (g.resident = true → e.unit ≠ Config.laneSlot →
      (∀ ws, waitingRecord g = some ws → exec .trapTake s = .next (writeWaiting s e.core e.unit ws))
      ∧ (waitingRecord g = none → abortingClass e.value = true → exec .trapTake s = .next (takeGroupTrap s e.core e.unit
          (g.regions.length - 1) (groupOrigin s e.core e.unit (g.regions.length - 1) (oldestPc s e.core e.unit) (curRegion g).slots)
          { cls := e.value, code := e.extra % 256, lane := e.len % 32, obj := e.obj, off := e.off
            kind := e.aux.getD 0 0 % 8, shadow := e.aux.getD 1 0 == 1 })))
    ∧ (∀ v, g.user.payload = some v → e.unit ≠ Config.laneSlot → canDeliver s e.core e.unit = true → ∃ h : Group,
        exec .userInterruptDelivery s = .next (endRegion (setGroup s e.core e.unit h) e.core e.unit)
        ∧ h.user.inHandler = true ∧ h.user.payload = none ∧ lookup h.regs.unif 30 0 = v ∧ h.user.s30 = lookup g.regs.unif 30 0
        ∧ h.user.resume = waitingPc (getQuad g ((gangOf g).headD 0)) ∧ h.user.masks = g.quads.map (fun x => (x.1, x.2.mask))
        ∧ h.user.waits = g.user.waits ++ arrivedWaits g
        ∧ (∀ x ∈ g.quads, x.2.exited = false → (x.1, { x.2 with pc := g.user.handler, mask := liveLanes x.2, park := .none }) ∈ h.quads)
        ∧ h.regs.lanes = g.regs.lanes ∧ h.regs.preds = g.regs.preds ∧ h.regs.caps = g.regs.caps)
    ∧ (timerCompare k.lane ≤ s.clock → exec .slTimer s = .next (setCore s e.core { k with lane := { k.lane with cause := k.lane.cause ||| 1 } }))
    ∧ (s.clock < timerCompare k.lane → exec .slTimer s = .next s)
    ∧ (2 ≤ e.unit → e.unit ≤ 5 → exec .slDeviceInterrupt s
        = .next (setCore s e.core { k with lane := { k.lane with cause := k.lane.cause ||| BitVec.ofNat 7 (2 ^ e.unit) } }))
    ∧ (let l := getGroup s e.core Config.laneSlot
       l.resident = true → laneInterrupted k = true → ∃ t, exec .slInterruptTake s = .next t
        ∧ (getCore t e.core).lane = { k.lane with ie := false, epc := (getQuad l 0).pc }
        ∧ (getQuad (getGroup t e.core Config.laneSlot) 0).pc = k.lane.vec ∧ (getQuad (getGroup t e.core Config.laneSlot) 0).park = .none
        ∧ SameMemory s t ∧ t.due = s.due)
    ∧ (let w : Nat → LaneRegs := fun n => if n = 0x86D then { k.lane with cmpLo := wordOf e.value } else { k.lane with cmpHi := wordOf e.value }
       (e.unit = 0x86D ∨ e.unit = 0x86E) →
        (s.clock < timerCompare (w e.unit) → exec .sltcmpWrite s = .next (setCore s e.core { k with lane := w e.unit }))
        ∧ (timerCompare (w e.unit) ≤ s.clock → exec .sltcmpWrite s = .next (raiseCause (setCore s e.core { k with lane := w e.unit }) e.core 1)))
    ∧ (e.flag = false → exec .registerWrite s = .next (writeRegister s e.core e.unit (wordOf e.value)))
    ∧ (e.flag = true → exec .registerWrite s = .next (writeDebug s e.die e.off (wordOf e.value)))
    ∧ (g.resident = true → hasKey g.quads e.len = true → q.lastIssue + 1024 ≤ s.clock →
        exec .candidateAging s = .next (setGroup s e.core e.unit (setQuad g e.len { q with aged := true })))
    ∧ (hasKey g.quads e.len = true → q.yieldUntil ≤ s.clock →
        exec .yieldTimeout s = .next (setGroup s e.core e.unit (setQuad g e.len { q with yieldUntil := 0 })))
    ∧ (g.resident = true → e.unit ≠ Config.laneSlot → ∃ t, exec .stallClock s = .next t
        ∧ (getGroup t e.core e.unit).stats.resident = g.stats.resident + 1
        ∧ (getGroup t e.core e.unit).stats.charged = (if g.stats.issuedNow then 0 else stallReason s e.core e.unit e.value)
        ∧ (∀ r, lookup (getGroup t e.core e.unit).stats.stalls r 0
            = if r ≠ 0 ∧ r = stallReason s e.core e.unit e.value ∧ g.stats.issuedNow = false then Nat.min (lookup g.stats.stalls r 0 + 1) (2 ^ 32 - 1) else lookup g.stats.stalls r 0)
        ∧ (getGroup t e.core e.unit).quads = g.quads ∧ (getGroup t e.core e.unit).regs = g.regs)

/-- Debug stops, the debugger's commands and the trace ring (R366 to R369, R374, R377); a group restored while stopped stays so when it has caught
up with its N slots. Entries 7 and 35 of the log say what is the model's choice
here. -/
def Obligations.DebugEvents : Prop :=
  ∀ (s : State), let e := s.ev
    let g := getGroup s e.core e.unit
    let i := if e.off = 1 then 0 else g.regions.length - 1
    let d := getDie s e.die
    (e.unit ≠ Config.laneSlot → g.resident = true → g.stats.stopped = false → 1 ≤ e.value → e.value ≤ 8 →
      (debugEnabled s e.core e.unit = true → e.flag = false → e.extra ≠ 0 →
        exec .debugStop s = .next (beginStop s e.core e.unit i e.extra e.value e.obj))
      ∧ (debugEnabled s e.core e.unit = true → e.flag = false → e.extra = 0 → exec .debugStop s
          = .next (stopLaunch (parkStopped (abortRegions s e.core e.unit i) e.core e.unit i 0 e.value e.obj e.bytes) e.core e.unit))
      ∧ (debugEnabled s e.core e.unit = true → e.flag = true → exec .debugStop s = .next (stopLaunch (parkStopped
          (if e.off = 1 then abortRegions s e.core e.unit 1 else s) e.core e.unit i e.extra e.value e.obj e.bytes) e.core e.unit))
      ∧ (debugEnabled s e.core e.unit = false → e.value < 7 → exec .debugStop s = .next s)
      ∧ (debugEnabled s e.core e.unit = false → 7 ≤ e.value → exec .debugStop s
          = .next (pushDue (stopRecord s e.core e.unit i e.extra e.value e.obj e.bytes) [dueAbort (getLaunch s g.launch).bundle 0x08 0])))
    ∧ (g.resident = true → replayMode (getLaunch s g.launch) = 2 → exec .orderGateTimeout s
        = .next (pushDue (setGroup s e.core e.unit { g with stats := { g.stats with gate := none } })
            [⟨.debugStop, { core := e.core, unit := e.unit, value := 8, extra := e.extra, off := e.off }⟩]))
    ∧ (e.unit ≠ Config.laneSlot → g.resident = true → g.stats.stopped = true → g.stats.limit.isSome = true → 1 ≤ e.value → e.value ≤ 8 →
      debugEnabled s e.core e.unit = true → e.flag = true → e.off ≠ 1 →
        exec .debugStop s = .next (setGroup s e.core e.unit { g with stats := { g.stats with limit := none } }))
    ∧ (let gs := (dieGroups s e.die).filter (fun x => haltable s x.1 x.2)
       exec .dbgctlHalt s = .next (gs.foldl (fun t x => stopLaunch t x.1 x.2) (haltGroups false gs s)))
    ∧ exec .dbgcmdResume s = .next ((targets s e.die).foldl (fun s x => resumeStopped s x.1 x.2 none) s)
    ∧ exec .dbgcmdRunToLimit s = .next ((targets s e.die).foldl (fun s x =>
        if e.value % 2 ^ 24 ≤ (getGroup s x.1 x.2).stats.stopN then s else resumeStopped s x.1 x.2 (some (e.value % 2 ^ 24))) s)
    ∧ exec .dbgcmdEndLaunch s = .next (pushDue s (((targets s e.die).map (fun x =>
        (getLaunch s (getGroup s x.1 x.2).launch).bundle)).eraseDups.map (fun b => dueAbort b 0x08 0)))
    ∧ (∃ t, exec .trsizeWrite s = .next t ∧ (getDie t e.die).dbg = { d.dbg with trsize := wordOf e.value &&& 0x1F, trhead := 0 })
    ∧ (∃ t, exec .trtailWrite s = .next t ∧ (getDie t e.die).dbg = { d.dbg with trtail := wordOf e.value })
    ∧ (∀ n, nextSample s e.core = some n → let t := traceGroup s e.core n 3 (getGroup s e.core n).stats.charged
        let k := getDie t (dieOf e.core)
        exec .pcSample s = .next (setDie t (dieOf e.core) { k with dbg := { k.dbg with sample := insertKey k.dbg.sample e.core (n + 1) } }))

/-- The bulk-copy engine and the matrix sequencer (R96, R99 to R103, R297 to R312): a copy starts, moves its pieces, holds, ends or fails; an
operation completes, aclr's with its accumulators zero, a piece of a span's multiplication once it may run; a held wbld goes on or ends, and
while it is held no operation of the core runs. Entries 7, 17, 22
and 23 of the log say what is the model's choice here. -/
def Obligations.EngineEvents : Prop :=
  ∀ (s : State), let e := s.ev
    let ch := getChannel s e.core e.unit
    let k := getCore s e.core
    let ops := (getTeam s e.core e.unit).ops
    (let u := setChannel s e.core e.unit { ch with state := 2 }
     ch.state = 1 → k.stopped = none →
      ((copyKind ch.desc < 3 ∨ (copyKind ch.desc ≠ 3 ∧ storageRefused u ch = false)) →
        exec .copyStart s = .next (pushDue u (copyCircuit u e.core ch ++ [⟨.copyWriteAck, { core := e.core, unit := e.unit }⟩])))
      ∧ (3 ≤ copyKind ch.desc → storageRefused u ch = true → exec .copyStart s = .next (pushDue u
          [⟨.driveCompletion, { core := e.core, unit := e.unit, flag := true }⟩]))
      ∧ (copyKind ch.desc = 3 → storageRefused u ch = false → exec .copyStart s = .next u))
    ∧ (ch.state = 2 →
        (∀ t nan, copyPiece s e.core e.unit = (t, nan, none) →
          let u := if nan then raiseCp t e.core ch.group 2 else t
          let done := (getChannel u e.core e.unit).wp = copyTotal ch.desc
          (done → exec .copyWriteAck s = .next (pushDue u [⟨.copyComplete, { core := e.core, unit := e.unit }⟩]))
          ∧ (¬ done → copyKind ch.desc < 3 → exec .copyWriteAck s = .next (pushDue u [⟨.copyWriteAck, { core := e.core, unit := e.unit }⟩]))
          ∧ (¬ done → 3 ≤ copyKind ch.desc → exec .copyWriteAck s = .next u))
        ∧ (∀ t nan x, copyPiece s e.core e.unit = (t, nan, some x) →
          exec .copyWriteAck s = .next (stopCopy (if nan then raiseCp t e.core ch.group 2 else t) e.core e.unit x)))
    ∧ (ch.state ≠ 0 → ∃ t u, exec .copyComplete s = .next t ∧ exec .chstatAbort s = .next u
        ∧ getChannel t e.core e.unit = { ch with state := 0, fault := e.flag } ∧ getChannel u e.core e.unit = { ch with state := 0, fault := true }
        ∧ (ch.group < Config.groupSlots → (getGroup t e.core ch.group).batch = batchDone (getGroup s e.core ch.group).batch ch.batch))
    ∧ (ch.state = 2 → exec .copyPageFaultHold s = .next (unitRecord (setChannel s e.core e.unit { ch with state := 3 }) e.core 1 e.unit
        { cls := 7, code := e.value, obj := e.obj, off := e.off, shadow := e.flag, kind := e.extra } (e.unit == fwChannel)))
    ∧ (ch.state = 3 → exec .chstatResume s = .next (pushDue (setChannel s e.core e.unit { ch with state := 2 })
        [⟨.copyWriteAck, { core := e.core, unit := e.unit }⟩]))
    ∧ (2 ≤ ch.state → 3 ≤ copyKind ch.desc →
        (e.flag = true → exec .driveCompletion s = .next (failCopy s e.core e.unit (some 0)))
        ∧ (e.flag = false → e.value ≠ 0 → exec .driveCompletion s = .next (failCopy s e.core e.unit (some (e.value % 2 ^ 16))))
        ∧ (e.flag = false → e.value = 0 → copyKind ch.desc = 4 → copyLen ch.desc ≤ ch.buf.length → exec .driveCompletion s
            = .next (endCopy (setChannel s e.core e.unit { ch with got := copyLen ch.desc, wp := copyLen ch.desc, buf := [] })
                e.core e.unit false none))
        ∧ (e.flag = false → e.value = 0 → copyKind ch.desc ≠ 4 →
            let t := setChannel s e.core e.unit { ch with buf := ch.buf ++ e.bytes.take (copyLen ch.desc - ch.got - ch.buf.length) }
            (ch.state = 2 → exec .driveCompletion s = .next (pushDue t [⟨.copyWriteAck, { core := e.core, unit := e.unit }⟩]))
            ∧ (ch.state ≠ 2 → exec .driveCompletion s = .next t))
        ∧ exec .storageTimeout s = .next (failCopy s e.core e.unit (some 0)))
    ∧ (∀ op r, ops = op :: r → k.stopped = none → op.kind = 2 → e.extra = 0 → k.mseqHeld = false → mayRun s e.core e.unit = true →
        ∃ t, exec .matrixOpComplete s = .next t
        ∧ (getTeam t e.core e.unit).ops = r
        ∧ ∀ n, lookup (getCore t e.core).acc n 0 = if n % 256 / 128 = (op.words.getD 0 0).toNat then 0 else lookup k.acc n 0)
    ∧ (∀ op r, ops = op :: r → op.kind ≤ 1 → e.extra = 0 → opSpoiled (setCore s e.core { k with mseqGroup := op.group % 128 }) e.core e.unit op = none →
        let u := setCore s e.core { k with mseqGroup := op.group % 128 }
        (mayRun s e.core e.unit = true → k.mseqHeld = false → k.stopped = none →
          exec .matrixOpComplete s = .next (popOp (runMatMul u e.core e.unit op) e.core e.unit op))
        ∧ ((mayRun s e.core e.unit = false ∨ k.mseqHeld = true) → exec .matrixOpComplete s = .next s))
    ∧ (∀ op r, ops = op :: r → k.mseqHeld = false → exec .wbldPageFaultHold s
        = .next (unitRecord (setCore s e.core { k with mseqHeld := true, mseqGroup := op.group % 128 }) e.core 2 0
            { cls := 7, code := e.value, obj := e.obj, off := e.off, kind := e.extra } false))
    ∧ (∀ n op, wbldTeam k = some (n, op) →
        (let t := popOp (failOp (setCore s e.core { k with mseqHeld := false }) op 0x06) e.core n op
         exec .mseqAbort s = .next (if k.mseqHeld then restartOps t e.core n else t))
        ∧ (k.mseqHeld = true → exec .mseqResume s = .next (restartOps (pushDue (setCore s e.core { k with mseqHeld := false })
            [⟨.matrixOpComplete, { core := e.core, unit := n }⟩]) e.core n)))

/-- Commits, messages, teams and groups (R50, R84, R141, R142, R146, R147, R149, R161, R251, R263 to R265): a team's admission grants it zeroed
memory; an instantiation waits behind admissions that are due (R162); a group that ends leaves its slot free. Entries 7, 19, 20 and 62 of the log say
what is the model's choice here. -/
def Obligations.RegionAndGroupEvents : Prop :=
  ∀ (s : State), let e := s.ev
    let k := getCore s e.core
    let c := { s with cur := { Issue.none with core := e.core, slot := e.unit } }
    (∀ r t, let h := regionHash (getGroup c e.core e.unit).stats.hash r
      commitParkedAt s e.core e.unit = false → e.unit ≠ Config.laneSlot → e.flag = false → mayCommit c e.core e.unit = some r →
      hashMiss c (getGroup c e.core e.unit) r h = .ok none →
      commitRegion c e.core e.unit r h = .ok t → exec .regionCommit s = .next t)
    ∧ (∀ t, let g := getGroup c e.core e.unit
       commitParkedAt s e.core e.unit = false → e.unit ≠ Config.laneSlot → e.flag = true → waitsHolding g = true → spanHeld c e.core e.unit = false → g.stats.stopped = false →
       commitSoFar c e.core e.unit = .ok t → exec .regionCommit s = .next t)
    ∧ (commitParkedAt s e.core e.unit = true → exec .regionCommit s = .next s)
    ∧ (commitParkedAt s e.core e.unit = false → e.unit = Config.laneSlot → exec .regionCommit s = .next (commitLane c e.core))
    ∧ (let m := messageOf e
       k.refused.any (fun x => x.unit == m.src) = false →
        (∀ h, findReceive s e.core m = some h → exec .messageArrival s = .next (completeReceive s e.core h m))
        ∧ (∀ x, findReceive s e.core m = none → queueMessage k m = some x → exec .messageArrival s = .next (setCore s e.core x))
        ∧ (findReceive s e.core m = none → queueMessage k m = none → let t := setCore s e.core { k with refused := k.refused ++ [{ e with flag := true }] }
            exec .messageArrival s = .next (if e.flag then t else unitRecord t e.core 5 0 { cls := 0xC, code := 0x01 } false)))
    ∧ (∀ a t, (getGroup s e.core e.unit).resident = true → (getGroup s e.core e.unit).credit = true → savable s e.core e.unit = true →
        let g := getGroup s e.core e.unit
        creditArea s g.launch ((getTeam s e.core g.team).tl * 64 + g.wg.toNat % 64) = some a →
        saveGroup s e.core e.unit a true = .ok t → exec .creditEviction s = .next t)
    ∧ (∀ m a, teamFor s e.core e.obj e.value = some m → creditArea s e.obj (e.value * 64 + e.unit) = some a →
        let key := teamKey (getTeam s e.core m)
        (getLaunch s e.obj).away.any (fun x => x.credit && x.member == key && x.g == e.unit) = true → areaValid s key a = true →
        groupRoom s e.core a = true → exec .creditReadmit s = .next (restoreGroup s e.core m a).2)
    ∧ (splitValid (wordOf e.value) = true → k.teams = [] → exec .poolsplitWrite s = .next (setSplit s e.core (wordOf e.value)))
    ∧ ((splitValid (wordOf e.value) = false ∨ k.teams ≠ []) → ∃ t, exec .poolsplitWrite s = .next t
        ∧ (getDie t (dieOf e.core)).splitErrs = (getDie s (dieOf e.core)).splitErrs + 1 ∧ t.cores = s.cores)
    ∧ (hasKey s.launches e.obj = true → canAdmit s e.core (getLaunch s e.obj) (minGroups (getLaunch s e.obj)) = true →
        exec .teamAdmission s = .next (admitTeam s e.core e.obj e.value (e.len / 8) (e.len % 8) e.off))
    ∧ (∀ a n tl row col leader, let r := placeTeam s n e.obj tl row col leader
        let t := getTeam r.2 n r.1
        t.launch = e.obj ∧ t.tl = tl ∧ (t.scratch ≤ a → a < t.scratch + t.size → memRead (getCore r.2 n).scratch a = 0)
        ∧ (t.weights = true → (getCore r.2 n).weights = []))
    ∧ (∀ r, find? (getLaunch s (getTeam s e.core e.unit).launch).roles e.value = some r → hasKey k.teams e.unit = true →
        wantsGroup s e.core e.unit e.value r = true → creditRoom s e.core (getLaunch s (getTeam s e.core e.unit).launch) r = true →
        (∀ x ∈ s.due, admits x.instr = false) → exec .groupInstantiate s = .next (startGroup s e.core e.unit e.value true))
    ∧ (∀ x ∈ s.due, admits x.instr = true → exec .groupInstantiate s = .next (pushDue s [⟨.groupInstantiate, e⟩]))
    ∧ (mayRetire s e.core e.unit = true → ∃ t, exec .groupRetire s = .next t ∧ t = endGroup s e.core e.unit 2
        ∧ (getGroup t e.core e.unit).resident = false)
    ∧ (e.unit < 128 → mayEnd (getGroup s e.core e.unit) = true → ∃ t, exec .groupEnd s = .next t ∧ t = endGroup s e.core e.unit 1
        ∧ (getGroup t e.core e.unit).resident = false)

/-- Launches and bundles on a die (R137, R144, R160, R345, R375 to R378, R392, R393): waves and placements, the blocking limit, the TRIGGER signal,
retirement, abort, the report of a stopped core, and the ordered reductions. Entries 7, 33, 34, 63 and 68 of the log say what is the model's
choice here. -/
def Obligations.BundleEvents : Prop :=
  ∀ (s : State), let e := s.ev
    let b := getBundle s e.unit
    let d := getDie s e.die
    let k := getCore s e.core
    exec .laterWaveAdmission s = .next (dueFirst s (wavesOf s ((bundlesOf s e.die true).flatMap (·.2.launches))).1)
    ∧ exec .bundlePlacement s = .next (placeFirst s (bundlesOf s e.die false))
    ∧ (∀ t, b.since = some t → b.placed = false → b.retired = false →
        (t + 27000000 ≤ s.clock → dependsMet s b = some true →
          exec .placementBlockTimeout s = .next (setBundle s e.unit { b with blocking := true }))
        ∧ ((s.clock < t + 27000000 ∨ dependsMet s b ≠ some true) → exec .placementBlockTimeout s = .next s))
    ∧ (let l := getLaunch s e.unit
       hasKey s.launches e.unit = true → l.trigger.isSome = true → l.trigSent = false → gridTriggered s e.unit = true →
        exec .triggerSignal s = .next (launchSignal (setLaunch s e.unit { l with trigSent := true }) l l.trigger none true))
    ∧ (hasKey s.bundles e.unit = true → b.retired = false → b.placed = true → (∀ i ∈ b.launches, gridComplete s (getLaunch s i) = true) →
        ∃ t, exec .bundleRetire s = .next t ∧ t = forgetBundle (writeDones (b.launches.foldl closeLogs s) e.unit) e.unit false
          ∧ (getBundle t e.unit).retired = true ∧ ∀ i ∈ (getBundle t e.unit).launches, hasKey t.launches i = false)
    ∧ (∀ t, hasKey s.bundles e.obj = true → (getBundle s e.obj).retired = false → exec .bundleAbort s = .next t →
        (getBundle t e.obj).retired = true ∧ (getBundle t e.obj).aborted = true)
    ∧ (∃ t, exec .bundleAbort s = .next t)
    ∧ (let ids := (k.teams.map (fun t => (getLaunch s t.2.launch).bundle)).eraseDups
       k.stopped.isSome = true →
        ((∃ i ∈ ids, hasKey s.bundles i = true ∧ (getBundle s i).retired = false) → exec .coreStop s
          = .next (dueFirst s (ids.map (fun i => dueAbort i 0x08 0) ++ [⟨.coreStop, { core := e.core }⟩])))
        ∧ ((∀ i ∈ ids, hasKey s.bundles i = false ∨ (getBundle s i).retired = true) → ∃ t, exec .coreStop s = .next t
            ∧ (getCore t e.core).poolsplit = 0x3448 ∧ (getCore t e.core).teams = []
            ∧ ∀ x ∈ (getDie t (dieOf e.core)).coreStops, x.1 ≠ e.core))
    ∧ (∀ lid n x r m t, d.fredState ≠ 2 → fredNext s e.die = some lid → (getLaunch s lid).logs = (n, x :: r) :: m →
        (fredOne s (getLaunch s lid) x = .applied t → exec .fredLogApply s = .next (fredGo t e.die lid (popLog ((n, x :: r) :: m))))
        ∧ (fredOne s (getLaunch s lid) x = .dropped → exec .fredLogApply s
            = .next (fredGo (recordStatus s lid 0x0A) e.die lid (popLog ((n, x :: r) :: m))))
        ∧ (∀ y, fredOne s (getLaunch s lid) x = .parked y → exec .fredLogApply s
            = .next (parkAt (setDie s e.die { d with fredState := 1, fredLid := lid, fredLeft := r.length + 1 }) (getLaunch s lid).part y x.off
                ⟨.fredLogApply, { die := e.die }⟩))
        ∧ (∀ code, fredOne s (getLaunch s lid) x = .held code → exec .fredLogApply s = .next (unitRecord (setDie s e.die
            { d with fredState := 2, fredLid := lid, fredLeft := r.length + 1 }) (fwCore e.die) 4 0
            { cls := 7, code := code, obj := x.obj, off := x.off, kind := 2 } true)))
    ∧ (d.fredState = 2 → exec .fredctlAbort s = .next (fredGo (recordStatus s d.fredLid 0x0A) e.die d.fredLid [])
        ∧ exec .fredctlResume s = .next (dueFirst (setDie s e.die { d with fredState := 1 }) [⟨.fredLogApply, { die := e.die }⟩]))

/-- The firmware core of a die and its packets (R385 to R397): a well-formed packet at the head of a lane has its effect and the head goes past it,
HEAD being written at the end of the step;
the watchdog resets the firmware core, the fallback scheduler serves meanwhile, and a reboot goes on. Entries 7, 31 and 32 of the log say what is the
model's choice here. -/
def Obligations.FirmwareEvents : Prop :=
  ∀ (s t : State) (p : Packet) (g : Signal), let e := s.ev
    let d := getDie s e.die
    let here := fun (n : Nat) => packetHere s e.die e.unit n = some p
    (here 1 → exec .nopPacket s = .next (finishPacket s p))
    ∧ (here 0 → exec .padPacket s = .next (finishPacket s p))
    ∧ (here 4 → signalField s p 4 (some (bodyHeader 4)) = .ok g → signalBad p = false →
        (updateSignal s p.ring.die p.ring.area.part g (signalEffect p g) = .ok t → exec .signalPacket s = .next (finishPacket t p))
        ∧ ∀ a b, updateSignal s p.ring.die p.ring.area.part g (signalEffect p g) = .error (.migrating a b) → exec .signalPacket s = .next s)
    ∧ (here 5 → signalField s p 4 (some (bodyHeader 5)) = .ok g → exec .waitPacket s = .next (testWait s p g)
        ∧ ((getFw d e.unit).waiting = true → exec .waitSatisfied s = .next (testWait s p g)))
    ∧ (∀ c, here 6 → publishCap s p = .ok c → (p.w 1 / 2 ^ 31 = 1 → batchUpTo (getStream s (p.w 1 % 256)).wmark.toNat (p.w 2) = true) →
        exec .publishPacket s = .next (finishPacket (publishObject s p.ring.area.part c.obj.toNat) p))
    ∧ (∀ c, here 8 → fieldCap s p 4 0x02 (some (bodyHeader 8)) = .ok c → p.w 6 % 8 = 0 → p.w 6 + 8 ≤ capLen c →
        fwWrite s p.ring.area.part c (p.w 6) (leBytes 8 s.clock) = .ok t → exec .timestampPacket s = .next (finishPacket t p))
    ∧ (here 7 → 3 ≤ p.words.length → p.w 1 ≤ 1 → exec .abortPacket s = .next (dueFirst (finishPacket s p)
        ((s.bundles.filter (fun b => !b.2.retired && (if p.w 1 = 1 then bundleQueue s b.2 == (p.ring.area.part, p.ring.area.desc.id)
          else b.2.launches.contains (p.w 2)))).map (fun b => dueAbort b.1 0x07 0))))
    ∧ (let c := fwCore p.ring.die
       let ch := getChannel s c fwChannel
       ∀ done, here 3 → 36 ≤ p.words.length → copyDone s p = .ok done → ch.state = 0 →
        ((getFw (getDie s p.ring.die) p.ring.lane).copying = true → done = none → exec .copyPacket s = .next (finishPacket s p))
        ∧ (∀ w a b, (getFw (getDie s p.ring.die) p.ring.lane).copying = false → copyOf s p = .ok (w, a, b) →
            (∀ x ∈ (getDie s p.ring.die).lanes, x.2.copying = false) →
            let u := setChannel s c fwChannel { Channel.idle with desc := w, src := a, dst := b, group := 127, state := 1, nvst := ch.nvst }
            exec .copyPacket s = .next (dueFirst (setLane u p.ring.die p.ring.lane (fun x => { x with copying := true }))
              [⟨.copyStart, { core := c, unit := fwChannel }⟩])))
    ∧ (∀ c, here 2 → chainFrom s p.ring (p.ring.avail p.ring.head / 16 + 1) p.ring.head = some c →
        (∀ ls, chainLaunches s c = .ok ls → exec .launchPacket s = .next (acceptChain s p.ring c ls))
        ∧ (∀ x, chainLaunches s c = .error x → exec .launchPacket s = .next (rejectChain s p.ring c x)))
    ∧ (s.boot.safe = false →
        (e.value = 2 → exec .firmwareStep s = .next (writeHeads s e.die))
        ∧ (d.booting = false → d.fallback = false → e.value = 1 → exec .firmwareStep s = .next (laneReject e.die s e.unit))
        ∧ (d.booting = false → d.fallback = false → e.value = 0 → exec .firmwareStep s
          = .next (dueFirst (setDie s e.die { d with heartbeat := s.clock })
              ((sortBy (fun (x y : Nat × Due) => decide (x.1 ≤ y.1)) ((upTo 32).filterMap (laneStep s e.die))).map (·.2) ++ placeSteps e.die))))
    ∧ (s.boot.safe = true → exec .firmwareStep s = .next s)
    ∧ (d.booting = false → d.heartbeat + 2700000 ≤ s.clock → ∃ u, exec .watchdogTimeout s = .next u
        ∧ (getDie u e.die).booting = true ∧ (getDie u e.die).fallback = true)
    ∧ (∀ r h x, d.fallback = true → s.boot.safe = false → headOf s e.die e.unit = some (r, h) → headBad r r.head h = false → fallbackType (packetType h) = true →
        laneStep s e.die e.unit = some x → exec .fallbackTurn s = .next (dueFirst s (x.2 :: placeSteps e.die)))
    ∧ (d.fallback = true → s.boot.safe = false → headOf s e.die e.unit = none → exec .fallbackTurn s = .next (dueFirst s (placeSteps e.die)))
    ∧ (d.booting = true → exec .firmwareRebootDone s = .next (writeHeads ((upTo 32).foldl (skipDone e.die)
        (setDie s e.die { d with booting := false, fallback := false, heartbeat := s.clock })) e.die))

/-- Boot, partitions and the management path (R2, R379, R398 to R403): the stages in order, the codes of failure and the safe state; a partition's
creation and end; attestation, freeze and scan; a reset puts the module back. Entries 7, 37, 38 and 39 of the log say what is the model's choice here.
-/
def Obligations.BootEvents : Prop :=
  ∀ (s : State), let e := s.ev
    (∃ t u, exec .powerCycle s = .next t ∧ exec .managementReset s = .next u ∧ u = t
      ∧ t = { State.reset with due := s.due, free := s.free, boot := { Boot.reset with fuses := s.boot.fuses, plans := s.boot.plans, host := s.boot.host } })
    ∧ (s.boot.stage = 1 → s.boot.safe = false → ∃ t, exec .bootImageCheck s = .next t ∧ t.boot.stage = 2
        ∧ (imageCode s e.value e.off = 0 → t.boot.slot = 0 ∧ t.boot.version = e.off ∧ t.boot.safe = false)
        ∧ (imageCode s e.value e.off ≠ 0 → imageCode s e.extra e.len = 0 → t.boot.slot = 1 ∧ t.boot.version = e.len ∧ t.boot.safe = false)
        ∧ (imageCode s e.value e.off ≠ 0 → imageCode s e.extra e.len ≠ 0 →
            t.boot.code = imageCode s e.extra e.len ∧ t.boot.safe = true ∧ t.linksDown = allLinks))
    ∧ (∀ found version, (imageCode s found version = 0 ↔ found ≠ 1 ∧ found ≠ 2 ∧ s.boot.fuses.rollback ≤ version)
        ∧ (found ≠ 1 → found ≠ 2 → version < s.boot.fuses.rollback → imageCode s found version = 3))
    ∧ (s.boot.stage = 2 → s.boot.safe = false → ∃ t, exec .bootSelfTest s = .next t ∧ t.boot.stage = 3
        ∧ (0x10 ≤ e.value → e.value ≤ 0x14 → t.boot.code = e.value ∧ t.boot.unit = e.unit % 256 ∧ t.boot.safe = true
            ∧ t.boot.failing = ((e.unit % 256, e.value) :: pairsOf e.aux).map (fun x => (x.1, 3, x.2)))
        ∧ ((e.value < 0x10 ∨ 0x14 < e.value) → t.boot = { s.boot with stage := 3 }))
    ∧ (s.boot.stage = 3 → s.boot.safe = false → ∃ t, exec .bootFirmwareLoad s = .next t ∧ t.boot.stage = 4
        ∧ lookup t.boot.measures 1 0 = leNat (e.bytes.take 32))
    ∧ (s.boot.stage = 4 → s.boot.safe = false → ∃ t, exec .bootKernelLoad s = .next t ∧ t.boot.stage = 5
        ∧ ((e.value = 0x20 ∨ e.value = 0x21) → t.boot.code = e.value ∧ t.boot.safe = true)
        ∧ (e.value ≠ 0x20 → e.value ≠ 0x21 → t.boot.safe = false ∧ lookup t.boot.measures 2 0 = leNat (e.bytes.take 32)))
    ∧ (s.boot.stage = 5 → s.boot.safe = false → ∃ t, exec .bootPartitionStart s = .next t ∧ t.boot.stage = 6 ∧ t.boot.ready = true
        ∧ t.boot.fuses.rollback = Nat.max s.boot.fuses.rollback s.boot.version
        ∧ ∀ c < 320, (getCore t c).running = true ∧ (getGroup t c Config.laneSlot).resident = true)
    ∧ (let cs := (upTo (Config.dies * Config.coresPerDie)).filter e.value.testBit
       s.boot.stage = 6 → s.boot.safe = false → e.unit < 8 → (getPart s e.unit).exist = false → cs ≠ [] → coresIdle s cs = true →
       (∀ p ∈ s.partitions, p.2.exist = true → ∀ c ∈ p.2.cores, c ∉ cs) → ∃ t, exec .partitionCreate s = .next t
        ∧ (getPart t e.unit).exist = true ∧ (getPart t e.unit).cores = cs ∧ (getPart t e.unit).tenants = [e.core]
        ∧ (getPart t e.unit).otbase = wordOf e.obj &&& 0x1FFFFFFF ∧ (getPart t e.unit).otlen = wordOf e.len
        ∧ (getPart t e.unit).ports = (upTo 32).filter e.off.testBit
        ∧ ∀ c ∈ cs, (getCore t c).part = e.unit)
    ∧ (let p := getPart s e.unit
       let t := (fun s => eraseKeys s e.unit) <| p.ranges.foldl (fun s r => zeroHbm s r.1 r.2)
         (evictPart (shootDown { s with windows := s.windows.filter (fun w => w.part != e.unit) } e.unit 0) e.unit)
       p.exist = true → coresIdle s p.cores = true → exec .partitionDestroy s = .next
         { t with partitions := eraseKey t.partitions e.unit, boot := { t.boot with keys := t.boot.keys.filter (· != e.unit) } })
    ∧ (e.len ≠ 0 → exec .statusQuery s = .next { s with boot := { s.boot with report := testReport s.boot } })
    ∧ (e.len = 0 → e.off = 0 → ∃ t, exec .statusQuery s = .next t ∧ t.boot.answer = bootst s.boot ∧ t = { s with boot := t.boot })
    ∧ (e.len = 0 → 0x100 ≤ e.off → e.flag = false → ∃ t, exec .statusQuery s = .next t
        ∧ t.boot.answer = wordOf (linkErr (getDie s e.die) ((e.off - 0x100) / 4)) ∧ t = { s with boot := t.boot })
    ∧ (s.boot.safe = false → ∃ t, exec .attestationRequest s = .next t ∧ t.boot.report.take 4 = leBytes 4 0x00010019
        ∧ (t.boot.report.drop 4).take 4 = leBytes 4 e.unit ∧ (∀ i < 32, t.boot.report.getD (8 + i) 0 = e.bytes.getD i 0))
    ∧ exec .freezeAssert s = .next { s with frozen := true }
    ∧ (s.scanned = false → exec .freezeRelease s = .next { s with frozen := false })
    ∧ (s.scanned = true → exec .freezeRelease s = .next s)
    ∧ (s.frozen = true → exec .scanChainShift s = .next { s with scanned := true })
    ∧ (e.unit ∈ allLinks → ∃ t, exec .externalLinkDown s = .next t ∧ ∀ n, n ∈ t.linksDown ↔ n = e.unit ∨ n ∈ s.linksDown)

/-- The memory system's own steps (R33 to R45, R59 to R71, R81 to R83, R404, R405): requests, replies and stores at slices, walks, shoot-downs, atomic
units, memory maintenance, and the CXL port. Entries 4, 7 and 8 of the log say what is the model's choice here. -/
def Obligations.FabricEvents : Prop :=
  ∀ (s : State), let e := s.ev
    let k := getCore s e.core
    let z := getSlice s e.die e.unit
    let d := getDie s e.die
    (∀ x t l u, s.boot.safe = false → e.extra = 0 → descOf s e.core e.obj = .ok (x, t) → homeLine t (getCore t e.core).part x e.off = .ok (l, u) →
      let v := if homeDie x e.off == dieOf e.core && !e.flag && e.obj != 1
        then updateLine u (homeDie x e.off) (homeSlice e.obj e.off) { l with sharers := insertNat l.sharers e.core } else u
      exec .sliceLoadRequest s = .next (pushDue v [replyStep v e x l]))
    ∧ (s.boot.safe = true → exec .sliceLoadRequest s = .next s)
    ∧ (∀ x t u, descOf s e.core e.obj = .ok (x, t) →
        (homeDie x e.off = dieOf e.core → exec .guestSliceRequest s = .next (pushDue t [⟨.sliceLoadRequest, { e with flag := false }⟩]))
        ∧ (homeDie x e.off ≠ dieOf e.core → probe t (dieOf e.core) (homeSlice e.obj e.off) (getCore t e.core).part x (e.off / 128) = (none, u) →
            exec .guestSliceRequest s = .next (pushDue u [⟨.sliceLoadRequest, { e with flag := true }⟩]))
        ∧ (∀ l, homeDie x e.off ≠ dieOf e.core →
            probe t (dieOf e.core) (homeSlice e.obj e.off) (getCore t e.core).part x (e.off / 128) = (some l, u) →
            exec .guestSliceRequest s = .next (pushDue
              (updateLine u (dieOf e.core) (homeSlice e.obj e.off) { l with sharers := insertNat l.sharers e.core })
              [⟨.lineReply, { e with bytes := lineBytes l, flag := false, aux := lineInfo u e.core l }⟩])))
    ∧ (∀ x t, let s0 := if e.value = 0 then s else setCore s e.core { k with asked := eraseKey k.asked e.value }
        let z := homeSlice e.obj e.off
        let die := dieOf e.core
        let info := fun (i : Nat) => e.aux.getD i 0
        let mine := fun (l : Line) => l.part == (getCore t e.core).part && l.obj == e.obj && l.index == e.off / 128
        descOf s0 e.core e.obj = .ok (x, t) →
        (∀ l, e.flag = false → (getSlice t die z).lines.find? (fun l => mine l && l.sharers.contains e.core) = some l →
          exec .lineReply s = .next (fillL1 t e.core l))
        ∧ (∀ o u, e.flag = true → info 2 ≠ 1 → homeDie x e.off ≠ die → info 4 = (getDie t die).epoch →
          probe t die z (getCore t e.core).part x (e.off / 128) = (o, u) → (getSlice u die z).lines.any mine = false →
          let g : Line := ⟨(getCore t e.core).part, 0, e.obj, e.off / 128, info 3 == 1, true, info 4, info 1 == 1, false, false, false,
            BitVec.ofNat 8 (info 0), dropsOf (e.aux.drop 5), [e.core], false, if info 1 = 1 then [] else e.bytes⟩
          exec .lineReply s = .next (fillL1 (insertLine u die z g) e.core g)))
    ∧ exec .pageFaultResponse s = .next (pushDue s [⟨.trapTake,
        { core := e.core, unit := e.unit, value := e.extra, extra := e.value, obj := e.obj, off := e.off, len := e.len, aux := e.aux }⟩])
    ∧ (e.flag = false → hasKey k.outcomes e.value = true → exec .sliceStore s = .next (pushDue s [⟨.storeAck, e⟩]))
    ∧ (e.flag = true → exec .sliceStore s = .next (hwWrite s e.extra e.obj e.off e.bytes))
    ∧ (∀ x t u, e.flag = false → hasKey k.outcomes e.value = false → descOf s e.core e.obj = .ok (x, t) →
        storeLineBy (storerOf t e.core e.unit) t k.part (some e.core) x e.off (e.bytes.take (128 - e.off % 128)) false = .ok u →
        exec .sliceStore s = .next (pushDue (setCore u e.core { getCore u e.core with
          outcomes := insertKey (getCore u e.core).outcomes e.value 0 }) [⟨.storeAck, e⟩]))
    ∧ (∃ t, exec .l1Invalidate s = .next t ∧ ∀ l ∈ (getCore t e.core).l1, l.obj = e.obj → l.index = e.off / 128 →
        l.valid = false ∧ l.pinned = true)
    ∧ (let t := setCore s e.core { k with outcomes := eraseKey k.outcomes e.value, asked := eraseKey k.asked e.value }
       (∀ m, descOf t e.core e.obj = .error m → exec .storeAck s = .next t)
       ∧ ∀ x u, descOf t e.core e.obj = .ok (x, u) → exec .storeAck s = .next (if e.bytes.isEmpty then u
          else ackL1 u e.core k.part x e.off (e.bytes.take (128 - e.off % 128)) false))
    ∧ (∀ l, z.lines.find? (fun l => l.obj == e.obj && l.index == e.off / 128 && !l.guest && l.dirty) = some l →
        exec .portWriteBack s = .next (writeBack (updateLine s e.die e.unit { l with dirty := false }) e.die e.unit l))
    ∧ (let asks := fun (z : Slice) => exec .portExtentMiss s = .next (setSlice s e.die e.unit z)
       (z.walks.any (fun w => samePage s k.part w e) = true → asks { z with walks := z.walks.map (fun w =>
          if samePage s k.part w e then { w with asking := w.asking ++ [e] } else w) })
       ∧ (z.walks.any (fun w => samePage s k.part w e) = false → z.walks.length < 8 →
          asks { z with walks := z.walks ++ [⟨k.part, e.obj, e.off, e.flag, mapgenOf s k.part e.obj, false, [e]⟩] })
       ∧ (z.walks.any (fun w => samePage s k.part w e) = false → 8 ≤ z.walks.length → asks { z with missed := z.missed ++ [e] }))
    ∧ (∀ w, z.walks.find? (fun w => samePage s k.part w e) = some w →
        ((w.stale = true ∨ w.mapgen ≠ mapgenOf s k.part e.obj) → exec .walkComplete s = .next (pushDue (setSlice s e.die e.unit
          { z with walks := z.walks.map (fun x => if x == w then { x with stale := false, mapgen := mapgenOf s k.part e.obj } else x) })
          [⟨.walkComplete, e⟩]))
        ∧ (w.stale = false → w.mapgen = mapgenOf s k.part e.obj →
          let t := setSlice s e.die e.unit (z.missed.foldl (askWalk s) { z with walks := z.walks.filter (· != w), missed := [] })
          let answers := fun (m : MemErr) => exec .walkComplete s = .next (w.asking.foldl (answerWalk m) t)
          (readEntry t k.part e.obj = none → answers (.cap 0x09))
          ∧ ∀ x, readEntry t k.part e.obj = some x →
            (∀ a u, translate t e.die e.unit k.part x e.flag e.off = .ok (a, u) → exec .walkComplete s = .next u)
            ∧ (∀ m, translate t e.die e.unit k.part x e.flag e.off = .error m → answers m)))
    ∧ (e.flag = true → exec .shootdownReceive s
        = .next (pushDue (setCore s e.unit (shootCore e.obj (getCore s e.unit))) [⟨.shootdownAck, { core := e.core }⟩]))
    ∧ (e.flag = false → let t := setSlice s e.die e.unit (shootSlice e.value e.obj z)
       exec .shootdownReceive s = .next (pushDue (setDie t e.die (shootHub e.value e.obj (getDie t e.die)))
         (released e.value e.obj z ++ [⟨.shootdownAck, { core := e.core }⟩])))
    ∧ exec .shootdownAck s = .next (setCore s e.core { k with shoot := k.shoot - 1 })
    ∧ exec .guestEpochStepDone s = .next (epochStep s e.die)
    ∧ (let a : AtomicReq := ⟨e.core, e.aux.getD 0 0, e.aux.getD 1 0, k.part, z.arrivals, e.obj, e.off, if e.len = 8 then 8 else 4, e.value,
         e.extra, triples (e.aux.drop 2), logsOps s e.core (e.aux.getD 0 0)⟩
       let here := setSlice s e.die e.unit { z with arrivals := z.arrivals + 1 }
       e.flag = false →
       (a.tag ≠ 0 → hasKey k.outcomes a.tag = true → exec .atomicUnitRequest s = .next (answerAtomic s a (lookup k.outcomes a.tag 0)))
       ∧ ((a.tag = 0 ∨ hasKey k.outcomes a.tag = false) →
         (∀ g, combineAt (getDie here e.die) (sliceStop e.unit) a = some g → exec .atomicUnitRequest s = .next (setDie here e.die g))
         ∧ (combineAt (getDie here e.die) (sliceStop e.unit) a = none → z.granted.any (fun x => x.1 == e.core) = true →
           exec .atomicUnitRequest s = .next (pushDue (setSlice here e.die e.unit { getSlice here e.die e.unit with
             granted := z.granted.filter (fun x => x.1 != e.core), queue := z.queue ++ [a] })
             [⟨.atomicUnitRequest, { die := e.die, unit := e.unit, flag := true }⟩]))
         ∧ (combineAt (getDie here e.die) (sliceStop e.unit) a = none → z.granted.any (fun x => x.1 == e.core) = false →
           (z.reserved = [] → z.queue.length + z.granted.length < 64 → atomicWaits s e.die e.unit = false →
             exec .atomicUnitRequest s = .next (applyAtomic here a))
           ∧ ((z.reserved ≠ [] ∨ 64 ≤ z.queue.length + z.granted.length) → exec .atomicUnitRequest s
             = .next (setSlice s e.die e.unit (grantNext s.clock { z with reserved := insertNat z.reserved e.core }))))))
    ∧ (let lapsed := z.granted.filter (fun x => decide (x.2 ≤ s.clock))
       (lapsed = [] → exec .atomicGrantLapse s = .next s)
       ∧ (lapsed ≠ [] → exec .atomicGrantLapse s = .next (setSlice s e.die e.unit (lapsed.foldl (fun z _ => grantNext s.clock z)
           { z with granted := z.granted.filter (fun x => !decide (x.2 ≤ s.clock)) }))))
    ∧ (find? k.asked e.extra = none → exec .requestRetryTimeout s = .next s)
    ∧ (∀ a, find? k.asked e.extra = some a → let limit := if a.pool then 4194304 else 65536
       (s.clock < a.since + limit → exec .requestRetryTimeout s = .next s)
       ∧ (a.since + limit ≤ s.clock → a.tries = 0 → exec .requestRetryTimeout s = .next (pushDue (setCore s e.core
           { k with asked := insertKey k.asked e.extra { a with tries := 1, since := s.clock } }) [a.again]))
       ∧ (a.since + limit ≤ s.clock → a.tries ≠ 0 → a.src = 0 → exec .requestRetryTimeout s = .next (pushDue
           (setCore s e.core { k with asked := eraseKey k.asked e.extra })
           [⟨.trapTake, { core := e.core, unit := a.unit, value := 1, extra := 2, obj := a.obj, off := a.off, len := a.lane }⟩]))
       ∧ (a.since + limit ≤ s.clock → a.tries ≠ 0 → a.src = 1 → exec .requestRetryTimeout s
           = .next (stopCopy (setCore s e.core { k with asked := eraseKey k.asked e.extra }) e.core a.unit (.poison a.obj a.off 2))))
    ∧ (∀ row t, find? d.rows e.unit = some (row, t) → t + 2048 ≤ s.clock →
        exec .hbmRowIdleClose s = .next (setDie s e.die { d with rows := eraseKey d.rows e.unit }))
    ∧ exec .hbmRefresh s = .next (setDie s e.die { d with rows := eraseKey d.rows e.unit })
    ∧ (e.flag = true → e.extra = 0 → e.value < 2 ^ 34 → ∃ t, exec .patrolScrub s = .next t ∧ ∀ n, n ∈ t.poison ↔ n = e.value ∨ n ∈ s.poison)
    ∧ (let p := getPart s e.unit
       let r := (reverseEntry s e.die e.unit (e.off / 2 ^ 16)).1
       let u := (reverseEntry s e.die e.unit (e.off / 2 ^ 16)).2
       let off := r % 2 ^ 28 * 2 ^ 16 + e.off % 2 ^ 16
       ∀ x l, e.off / 2 ^ 16 < p.prmlen.toNat % 2 ^ 28 →
        tableOk s e.unit (p.prmbase.toNat % 2 ^ 29 * 4096 + 8 * (e.off / 2 ^ 16)) = true → readEntry u e.unit (r / 2 ^ 32) = some x →
        (getSlice u (homeDie x off) (homeSlice (r / 2 ^ 32) off)).lines.find? (fun l =>
          l.part == e.unit && l.obj == r / 2 ^ 32 && l.index == off / 128 && !l.guest && l.pool) = some l →
        exec .backInvalidateSnoop s = .next (evictLine u (homeDie x off) (homeSlice (r / 2 ^ 32) off) l))
    ∧ (e.flag = true → exec .cxlPortDown s = .next (pushDue s
        [⟨.trapTake, { core := e.core, unit := e.unit, value := 1, extra := 3, obj := e.obj, off := e.off, len := e.len }⟩]))
    ∧ (e.flag = false → e.value < 16 → exec .cxlPortDown s = .next { s with linksDown := insertNat s.linksDown e.value })

/-- The spar loops, the die links and the IO hubs (R46 to R49, R72 to R80, R24, R395, R404, R406): flits hop, circuits are set up and end, link errors
count; streams take their writes in order and the ports apply them, what a disabled stream has released among them, and remote accesses and doorbells
act. Entries 7, 40, 41 and 42 of the log say what is the
model's choice here. -/
def Obligations.LoopAndHubEvents : Prop :=
  ∀ (s : State), let e := s.ev
    let d := getDie s e.die
    let c := getDie s (dieOf e.core)
    let i := e.unit % 256
    let x := getStream s i
    (∀ f, e.die < 8 → e.flag = false → d.flits.find? (fun f => f.id == e.unit) = some f →
      (e.value ≠ 1 → exec .flitHop s = .next (hopFlit s e.die f))
      ∧ (e.value = 1 → exec .flitHop s = .next (dropHeader s e.die f)))
    ∧ (∀ f, (d.flits ++ d.merges.filterMap (·.via)).find? (fun f => f.id == e.unit && !f.onLoop && decide (f.since + 32 ≤ s.clock)) = some f →
        exec .injectionYield s = .next (setDie s e.die { d with yields := insertNat d.yields (placeKey f) }))
    ∧ (let r := routeOf (circuitEnds e).1 (circuitEnds e).2
       let stops := routeStops r 32 r.pos
       let add := fun (phase : Nat) => setDie s (dieOf e.core) { c with
         circuits := c.circuits ++ [⟨circuitId e, r.loop, phase, stops, Nat.max 1 (Nat.min e.len 65536), s.clock⟩] }
       (∀ y ∈ c.circuits, y.id ≠ circuitId e) →
        (phaseFree c r.loop 0 stops = true → exec .circuitSetup s = .next (add 0))
        ∧ (phaseFree c r.loop 0 stops = false → phaseFree c r.loop 1 stops = true → exec .circuitSetup s = .next (add 1)))
    ∧ (∃ t, exec .circuitRelease s = .next t ∧ ∀ y, y ∈ (getDie t (dieOf e.core)).circuits ↔ y ∈ c.circuits ∧ y.id ≠ circuitId e)
    ∧ (∃ t, exec .circuitIdleTimeout s = .next t ∧ ∀ y, y ∈ (getDie t e.die).circuits ↔
        y ∈ d.circuits ∧ ¬ (y.id = e.unit ∧ y.idle + 256 ≤ s.clock))
    ∧ ((8 ≤ e.die ∨ hasNeighbour e.die e.unit = false) → exec .dieLinkCrcRetry s = .next s)
    ∧ (e.die < 8 → hasNeighbour e.die e.unit = true → ∃ t, exec .dieLinkCrcRetry s = .next t
        ∧ lookup (getDie t e.die).linkCrc e.unit 0 = Nat.min (lookup d.linkCrc e.unit 0 + 1) 0xFFFF)
    ∧ (accepts s x = true → s.linksDown.contains (linkOf x) = false →
        (∀ y, fieldNat x.cfg 25 2 = 0 → remoteEntry s (hubDie x) e.obj e.extra 1 = some y →
          exec .externalWriteArrival s = .next (takeWrite s i (e.value % 2 ^ 32, e.obj, e.off, e.bytes)))
        ∧ (∀ w, fieldNat x.cfg 25 2 ≠ 0 → windowAt s e.obj e.off e.bytes.length = some w → w.stream = i →
          exec .externalWriteArrival s = .next (takeWrite s i (e.value % 2 ^ 32, w.obj, w.base + e.off, e.bytes))))
    ∧ (∀ p t, nextPiece x e.extra e.flag = some p → p.obj ≠ 0 →
        applyWrite s (fwPart s (hubDie x)) p.obj p.off p.bytes = .ok t → let u := applied t i p
        exec .externalWriteApply s = .next (if p.state == .parked then pushDue u (applySteps i (getStream u i).released) else u))
    ∧ (let y := getStream s (e.obj % 256)
       accepts s y = true → s.linksDown.contains (linkOf y) = false → exec .doorbellWrite s
        = .next (takeWrite s (e.obj % 256) (e.value % 2 ^ 32, 0, 32 * (e.die % 8) + e.unit % 32, leBytes 4 e.extra)))
    ∧ (∀ y bs t, s.linksDown.contains (24 + e.die) = false → e.flag = false → e.bytes = [] → remoteEntry s e.die e.obj e.extra 0 = some y →
        readHome s (fwPart s e.die) y e.off e.len = .ok (bs, t) → exec .remoteAccessRequest s = .next t)
    ∧ (∀ y, s.linksDown.contains (24 + e.die) = false → e.flag = false → e.bytes ≠ [] → remoteEntry s e.die e.obj e.extra 1 = some y →
        exec .remoteAccessRequest s = .next (pushDue s [⟨.externalWriteArrival, { e with unit := i }⟩]))
    ∧ (∃ t, exec .strcfgEnable s = .next t
        ∧ (e.flag = true → (getStream t i).cfg.getLsbD 31 = false ∧ (getStream t i).buffered = [] ∧ held (getStream t i) = false
            ∧ (∀ p ∈ (getStream t i).released, ∃ q ∈ x.released, q.state ≠ .failed ∧ p = { q with number := 2 ^ 32 }))
        ∧ (e.flag = false → (wordOf e.value).getLsbD 31 = true → x.cfg.getLsbD 31 = false →
            (getStream t i).wmark = 0xFFFFFFFF ∧ (getStream t i).expected = 0 ∧ (getStream t i).cfg.getLsbD 31 = true
            ∧ held (getStream t i) = false))
    ∧ (let y := releaseWrites s 1024 { setHeld x false with
         released := x.released.map (fun p => if p.state == .failed then { p with state := .sent } else p) }
       held x = true → exec .strcfgResume s = .next (pushDue (setStream s i y) (applySteps i y.released)))
    ∧ (∀ w y bs t, windowAt s e.unit e.off e.len = some w → readEntry s w.part w.obj = some y →
        readHome s w.part y (w.base + e.off) e.len = .ok (bs, t) → exec .deviceDmaRead s = .next t)

/-- The writes of a stream are released in the order of their numbers (R47): a write that does not follow WMARK, lies beyond the window or is here
already leaves the stream as it is; the expected write is released at once, its pieces behind those released before, each with the next ordinal of its
port; another is kept. -/
def Obligations.StreamOrder : Prop :=
  ∀ (s : State) (x : Stream) (w : Nat × Nat × Nat × List Byte), w.1 < 2 ^ 32 →
    let ahead := (w.1 + 2 ^ 32 - x.wmark.toNat) % 2 ^ 32
    let fits := follows w.1 x.wmark.toNat = true ∧ ahead ≤ 1024 ∧ taken x w.1 = false
    (follows w.1 x.wmark.toNat = false → receiveWrite s x w = x)
    ∧ (1024 < ahead → receiveWrite s x w = x)
    ∧ (((∃ v ∈ x.buffered, v.1 = w.1) ∨ ∃ p ∈ x.released, p.number = w.1) → receiveWrite s x w = x)
    ∧ (fits → held x = false → x.expected.toNat = w.1 → (∀ v ∈ x.buffered, v.1 ≠ (w.1 + 1) % 2 ^ 32) →
        receiveWrite s x w = { sendWrite s x w with expected := x.expected + 1 })
    ∧ (fits → (held x = true ∨ (x.expected.toNat ≠ w.1 ∧ ∀ v ∈ x.buffered, v.1 ≠ x.expected.toNat)) →
        receiveWrite s x w = { x with buffered := x.buffered ++ [w] })
    ∧ (∃ ps, (sendWrite s x w).released = x.released ++ ps
        ∧ (∀ p ∈ ps, p.number = w.1 ∧ p.obj = w.2.1 ∧ p.state = .sent ∧ lookup x.ordinals p.port 0 ≤ p.ordinal
            ∧ p.ordinal < lookup (sendWrite s x w).ordinals p.port 0)
        ∧ ∀ (i j : Nat) (p q : Sent), ps[i]? = some p → ps[j]? = some q → i < j → p.port = q.port → p.ordinal < q.ordinal)

/-! ### Encodings, the step, reset (spec/07, spec/08, spec/17, spec/19) -/

/-- Every instruction with a word decodes from its word (R178, Table 8-1), an ordered access from the words that are no plain access. -/
def Obligations.DecodeEncodes : Prop :=
  ∀ (i : Instr), i.hasWord = true → i.orderOk = true → ∃ w, encode i = some w ∧ decode w = .ok i

/-- Every word that decodes is the word of the instruction that it names, so that no two words name one instruction and every bit
outside its fields is as the encoding fixes it (R178, R179, R195). -/
def Obligations.EncodeDecodes : Prop := ∀ (w : Word) (i : Instr), decode w = .ok i → encode i = some w ∧ i.hasWord = true

/-- A few words, written out from the encoding tables and the worked examples of the spec, and what they decode to; the all-zero word is nop,
opcode 0x00 has no other word, and opcode 0xFF has none (R179, R195). -/
def Obligations.SpecWords : Prop :=
  decode 0x01044000 = .ok (.add 17 0 0) ∧ decode 0x22251115 = .ok (.fma 0 1 20 34 21)
  ∧ decode 0x704149C2 = .ok (.ld 2 5 19 8 2) ∧ decode 0x7029194A = .ok (.ldAcq 1 1 4 1 18 9 2)
  ∧ decode 0x78C500D4 = .ok (.atom 6 20 1 10 4) ∧ decode 0xB0040A18 = .ok (.mma 16 20 24) ∧ decode 0x40428190 = .ok (.icmp 2 1 2 3 16) ∧ decode 0x1300400C = .ok (.shi 0 1 0 12)
  ∧ decode 0xE0000007 = .ok (.syscall 7) ∧ decode 0xA4000000 = .ok .tcommit ∧ decode 0xC1008001 = .ok (.zand 2 0 1)
  ∧ decode 0x00000000 = .ok .nop ∧ (∀ w : Word, w ≠ 0 → w.toNat < 2 ^ 24 → decode w = .error .opcodeZero)
  ∧ ∀ w : Word, 0xFF000000 ≤ w.toNat → decode w = .error .neverAssigned

/-- A step runs the decoded instruction (R130, R177): where the candidate's course holds at its PC a slot whose word decodes to `i`, the step is exec
of `i` with the issue latch set, after which a candidate that was not ready leaves its pipe's clock to another (R156) and a load
that has issued ahead and overlaps its accesses is to be replayed (R154); where the compute stream waits, the step is exec of the marked slot that
issues ahead of it (R153); a word that decodes to nothing is an illegal-instruction trap; a due step runs at once; a clock passes when no
candidate has a slot left to issue in it. Entries 3, 4 and 51 of the log say what is the model's choice here. -/
def Obligations.StepRunsInstruction : Prop :=
  ∀ (s : State), s.frozen = false →
    (∀ turn x bs v, s.due = [] → parkedDelivery s = none → pick s = some (turn, x) → aheadReady s x = false →
      boundaryEvent s x = none →
      let t := { s with turn := turn }
      let pc := candidatePc t x
      let w := courseWord bs (pc.toNat % 4 + 1)
      fetchCourse t x.core x.slot (pc.toNat / 16 * 16) = .ok (bs, v) → (instrSlots (lmapOf bs)).contains (pc.toNat % 4) = true →
      (∀ i u, decode w = .ok i → exec i { v with cur := latchOf x pc bs } = .next u →
        step s = .next (settle x (replayAhead x i { v with cur := latchOf x pc bs } u)))
      ∧ ∀ e, decode w = .error e → step s = .next (settle x (takeTrap (preLatch t x)
          { cls := 3, code := if e = .reservedScope then scopeCode w (latchOf x pc bs) else decodeCode e })))
    ∧ (∀ turn x a bs v i u, s.due = [] → parkedDelivery s = none → pick s = some (turn, x) → aheadReady s x = true → nextAhead s x = some a →
      fetchCourse { s with turn := turn } x.core x.slot (a.pc.toNat / 16 * 16) = .ok (bs, v) →
      (instrSlots (lmapOf bs)).contains (a.pc.toNat % 4) = true → decode (courseWord bs (a.pc.toNat % 4 + 1)) = .ok i →
      exec i { v with cur := latchOf x a.pc bs } = .next u → step s = takeAhead s x a { v with cur := latchOf x a.pc bs } i (.next u))
    ∧ (∀ e r, s.due = e :: r → step s = exec e.instr { s with due := r, ev := e.event })
    ∧ (∀ e, s.due = [] → parkedDelivery s = some e → step s = exec e.instr { s with ev := e.event })
    ∧ (s.due = [] → parkedDelivery s = none → pick s = none → step s = .next (tick s))

/-- The machine always goes on: a step never faults and is never refused. -/
def Obligations.Progress : Prop := (∀ (i : Instr) (s : State), ∃ t, exec i s = .next t) ∧ ∀ (s : State), ∃ t, step s = .next t

/-- A module whose clocks are frozen and whose scan chain has shifted stays so until a reset (R379). Entry 43 of the log says what is the model's
choice here. -/
def Obligations.LockedKept : Prop :=
  ∀ (s t : State), s.locked = true → step s = .next t → t.locked = true ∧ t.clock = s.clock ∧ t.cores = s.cores ∧ t.hbm = s.hbm

/-- The module right after reset: what the spec's reset values and boot rules say (R2, R50, R398, Tables 2-8 and 3-1), and every memory in its
canonical form; and a way into the locked state. The values that the model chose are no part of this. Entry 2 of the log says what is the model's
choice here. -/
def Obligations.ResetState : Prop :=
  State.reset.clock = 0 ∧ State.reset.memWf = true ∧ (∀ c, (getCore State.reset c).poolsplit = 0x3448 ∧ (getCore State.reset c).running = false)
  ∧ (∀ i, (getStream State.reset i).wmark = 0xFFFFFFFF ∧ (getStream State.reset i).cfg = 0) ∧ State.reset.boot.stage = 1
  ∧ State.reset.boot.ready = false ∧ State.reset.boot.safe = false
  ∧ (∀ s t u, exec .freezeAssert s = .next t → exec .scanChainShift t = .next u → s.due = [] → u.locked = true)

/-! ### Rules stated whole (spec/10, spec/14) -/

/-- clz, popc and brev (R219): the number of leading zeros, the number of ones, and the bits in reverse order; they read a alone,
and a word with a nonzero b field is an illegal encoding. -/
def Obligations.BitCounts : Prop :=
  (∀ (s : State) (d a : BitVec 7),
    let one := fun (i : Instr) (h : Word → Word) => LaneResult i s (intInfo1 d a) [.reg a 0] 1 0 d 1 2 (fun v => ([h (arg v 0)], 0))
    one (.clz d a) clzW ∧ one (.popc d a) popcW ∧ one (.brev d a) brevW)
  ∧ (∀ x : Word, (clzW x).toNat ≤ 32
    ∧ (∀ i, 32 - (clzW x).toNat ≤ i → x.getLsbD i = false)
    ∧ ((clzW x).toNat < 32 → x.getLsbD (31 - (clzW x).toNat) = true))
  ∧ (∀ x : Word, (popcW x).toNat = ((List.range 32).filter (fun i => x.getLsbD i)).length)
  ∧ (∀ (x : Word) (i : Nat), i < 32 → (brevW x).getLsbD (31 - i) = x.getLsbD i)
  ∧ ∀ d a b : BitVec 7,
      (decode (0x14#8 ++ 0#3 ++ d ++ a ++ b) = if b = 0 then .ok (.clz d a) else .error .illegalEncoding)
      ∧ (decode (0x15#8 ++ 0#3 ++ d ++ a ++ b) = if b = 0 then .ok (.popc d a) else .error .illegalEncoding)
      ∧ (decode (0x16#8 ++ 0#3 ++ d ++ a ++ b) = if b = 0 then .ok (.brev d a) else .error .illegalEncoding)

/-- The instructions that read their destination (R210): mad, bfi, fma, fclamp and hfma2 take in each lane that lane's own value of d;
a nonzero pattern select in d, or a stream register there, is an illegal encoding. -/
def Obligations.DestinationSources : Prop :=
  ∀ (s : State) (d a b : BitVec 7) (n t : BitVec 1) (r : BitVec 2),
    let x := fun (i : Nat) => laneVal (srcLanes s [] (.reg a 0)) i
    let y := fun (i : Nat) => laneVal (srcLanes s [] (srcB s b 0)) i
    let own := fun (i : Nat) => laneVal (nameLanes (curGroup s) s.clock (nameOf (curGroup s) d)) i
    let reads := fun (j : Instr) (o : OpInfo) (f : Word → Word → Word → Word) =>
      (LaneRuns s { o with encBad := patOf d != 0 || isStream d } [.reg a 0, srcB s b 0, .reg d 0] d 1 →
        ∃ u, exec j s = .next u ∧ Wrote s u d 1 (fun i _ => f (x i) (y i) (own i)))
      ∧ (patOf d ≠ 0 ∨ (12 ≤ codeOf d ∧ codeOf d ≤ 15) → slotFault s o = none →
        exec j s = .next (takeTrap s { cls := 3, code := 0x10 }))
    reads (.mad d a b) (intInfo d a b) (fun p q z => p * q + z)
    ∧ reads (.bfi d a b) (intInfo d a b) bfiW
    ∧ reads (.fma n r d a b) (fpInfo d a b) (fun p q z => wordOf (fpFma fp32 r.toNat (n == 1) z.toNat p.toNat q.toNat).1)
    ∧ reads (.fclamp d a b) (fpInfo d a b) (fun p q z => wordOf (fpClamp z.toNat p.toNat q.toNat).1)
    ∧ reads (.hfma2 t d a b) (fpInfo d a b) (fun p q z => wordOf (packed (fun j =>
        fpFma (halfFmt t) 0 false (half z.toNat j) (half p.toNat j) (half q.toNat j))).1)

/-- The class mask that a reed instruction writes (R316): the instruction's own mask when every lane of the group is active; joined to
the old mask when some are not, whose streams stay; and nothing when none is. -/
def Obligations.ReedMasks : Prop :=
  ∀ (s : State) (d a b : BitVec 3) (c : BitVec 4) (f : BitVec 7) (k : BitVec 2),
    let g := curGroup s
    let x := reedMask g a.toNat
    let y := reedMask g b.toNat
    let o : OpInfo := { noLane := true, srcA := some f, encBad := k == 3 || isStream f }
    let wrote := fun (i : Instr) (m : BitVec 16) => ∃ t, exec i s = .next t
      ∧ reedMask (curGroup t) d.toNat = (if (activeLanes s).length = 4 * g.nquad then m else reedMask g d.toNat ||| m)
      ∧ (∀ z, z ≠ d.toNat → reedMask (curGroup t) z = reedMask g z)
      ∧ (∀ j, j < 32 → j ∉ activeLanes s → ∀ z, reedRead (curGroup t) z j = reedRead g z j)
    let none_ := fun (i : Instr) => ∃ t, exec i s = .next t ∧ (curGroup t).regs.reeds = g.regs.reeds ∧ (curGroup t).regs.zclass = g.regs.zclass
    (reedFreeAt s ≤ s.clock →
      (ReedOnce s [d.toNat, a.toNat, b.toNat] → reedClean s [a.toNat, b.toNat] = .ok () →
        (x &&& y = 0 → wrote (.zand d a b) (x ||| y) ∧ wrote (.zor d a b) (x ||| y))
        ∧ (x = y ∨ x = 0 ∨ y = 0 → wrote (.zandc d a b) (x ||| y) ∧ wrote (.zorc d a b) (x ||| y) ∧ wrote (.zxorc d a b) (x ||| y))
        ∧ (reedMask g d.toNat &&& (x ||| y) = 0 → reedClean s [d.toNat, a.toNat, b.toNat] = .ok () → wrote (.zmux d a b) (reedMask g d.toNat ||| x ||| y)))
      ∧ (ReedOnce s [d.toNat, a.toNat] → reedClean s [a.toNat] = .ok () → wrote (.znot d a) x ∧ wrote (.zregen d a c) (BitVec.ofNat 16 (2 ^ c.toNat)))
      ∧ (∀ r u, reedFirst s o [d.toNat] = .ok () → Reads s o [.reg f 0] r u → (activeLanes s).isEmpty = false →
          wrote (.zgen d f k c) (BitVec.ofNat 16 (2 ^ c.toNat))))
    ∧ ((activeLanes s).isEmpty = true →
      (checkSlot s { noLane := true } = .ok () → reedNames s [d.toNat, a.toNat, b.toNat] = .ok () → checkReady s [] [] = .ok () →
        none_ (.zand d a b) ∧ none_ (.zor d a b) ∧ none_ (.zandc d a b) ∧ none_ (.zorc d a b) ∧ none_ (.zxorc d a b) ∧ none_ (.zmux d a b)
        ∧ none_ (.znot d a) ∧ none_ (.zregen d a c))
      ∧ (∀ r u, reedFirst s o [d.toNat] = .ok () → Reads s o [.reg f 0] r u → none_ (.zgen d f k c)))
end

