-- ==== Sys2Proof/Laws/Ahead.lean ====
section
/-!
SUPPORT. What an issue of the address stream ahead of the compute stream can do (spec/06 R153, R154).
-/

namespace Sys2Proof.Machine

/-- A slot that may issue ahead exists. -/
theorem aheadReady_slot {s : State} {x : Candidate} (h : aheadReady s x = true) : (nextAhead s x).isSome = true := by
  unfold aheadReady at h
  exact (Bool.and_eq_true_iff.mp h).2

/-- It either issues, with what a load read kept, or is tried again at the next clock; nothing else comes of it. -/
theorem takeAhead_cases (s : State) (x : Candidate) (w : Ahead) (t : State) (i : Instr) (o : Host.Outcome State Fault Refusal) :
    takeAhead s x w t i o = .next (tryLater s x)
    ∨ ∃ u, o = .next u ∧ takeAhead s x w t i o = .next (setGroup u x.core x.slot
        { backToPlace x.quads (getGroup s x.core x.slot) (getGroup u x.core x.slot) with
          ahead := ⟨(getGroup s x.core x.slot).ahead.slots ++ [{ w with spots := if w.load then loadSpots t i else [] }], 0⟩ }) := by
  unfold takeAhead
  cases o with
  | next u =>
    dsimp only
    split
    · exact .inr ⟨u, rfl, rfl⟩
    · exact .inl rfl
  | fault r => exact .inl rfl
  | refused r => exact .inl rfl

/-- With no slot ahead, the compute stream's slot is all that happens. -/
@[simp] theorem replayAhead_none {x : Candidate} {i : Instr} {t u : State} (h : (getGroup u x.core x.slot).ahead.slots = []) :
    replayAhead x i t u = u := by
  unfold replayAhead
  simp [h]

end Sys2Proof.Machine
end

