-- ==== Sys2Proof/Laws/Maps.lean ====
section
/-!
SUPPORT. Laws of the maps and memories of the state: reading after writing, and the canonical form that every memory operation
keeps.
-/

namespace Sys2Proof.Machine

/-! ### Maps -/

theorem lookup_insertKey_self {α : Type} (m : FMap α) (k : Nat) (v d : α) : lookup (insertKey m k v) k d = v := by
  induction m with
  | nil => simp [insertKey, lookup]
  | cons e r ih =>
    obtain ⟨j, w⟩ := e
    unfold insertKey
    split
    · simp [lookup]
    · split
      · simp [lookup]
      · rename_i h
        simp [lookup, h, ih]

theorem lookup_insertKey_ne {α : Type} (m : FMap α) {k k' : Nat} (h : k' ≠ k) (v d : α) :
    lookup (insertKey m k v) k' d = lookup m k' d := by
  induction m with
  | nil => simp [insertKey, lookup, Ne.symm h]
  | cons e r ih =>
    obtain ⟨j, w⟩ := e
    unfold insertKey
    split
    · simp [lookup, Ne.symm h]
    · split
      · rename_i hj
        subst hj
        simp [lookup, Ne.symm h]
      · simp [lookup, ih]

/-- A map read after a write, at any key. -/
theorem lookup_insertKey {α : Type} (m : FMap α) (k k' : Nat) (v d : α) :
    lookup (insertKey m k v) k' d = if k' = k then v else lookup m k' d := by
  split
  · rename_i h
    rw [h, lookup_insertKey_self]
  · rename_i h
    rw [lookup_insertKey_ne m h]

theorem find?_insertKey_self {α : Type} (m : FMap α) (k : Nat) (v : α) : find? (insertKey m k v) k = some v := by
  induction m with
  | nil => simp [insertKey, find?]
  | cons e r ih =>
    obtain ⟨j, w⟩ := e
    unfold insertKey
    split
    · simp [find?]
    · split
      · simp [find?]
      · rename_i h
        simp [find?, h, ih]

theorem find?_insertKey_ne {α : Type} (m : FMap α) {k k' : Nat} (h : k' ≠ k) (v : α) :
    find? (insertKey m k v) k' = find? m k' := by
  induction m with
  | nil => simp [insertKey, find?, Ne.symm h]
  | cons e r ih =>
    obtain ⟨j, w⟩ := e
    unfold insertKey
    split
    · simp [find?, Ne.symm h]
    · split
      · rename_i hj
        subst hj
        simp [find?, Ne.symm h]
      · simp [find?, ih]

/-- Removing a key leaves every other key. -/
theorem lookup_eraseKey_ne {α : Type} (m : FMap α) {k k' : Nat} (h : k' ≠ k) (d : α) :
    lookup (eraseKey m k) k' d = lookup m k' d := by
  induction m with
  | nil => rfl
  | cons e r ih =>
    obtain ⟨j, w⟩ := e
    unfold eraseKey
    split
    · rename_i hj
      subst hj
      simp [lookup, Ne.symm h]
    · simp [lookup, ih]

/-! ### The canonical form of memories -/

/-- Every address of a memory is at least a bound, addresses rise strictly and no byte is the unlisted one. -/
def wfFrom (lo : Nat) : Memory → Bool
  | [] => true
  | (a, b) :: r => decide (lo ≤ a) && b != unlistedByte && wfFrom (a + 1) r

theorem wfFrom_weaken (m : Memory) : ∀ {lo hi : Nat}, lo ≤ hi → wfFrom hi m = true → wfFrom lo m = true := by
  cases m with
  | nil => intros; rfl
  | cons e r =>
    intro lo hi h hw
    simp only [wfFrom, Bool.and_eq_true, decide_eq_true_eq] at hw ⊢
    exact ⟨⟨by omega, hw.1.2⟩, hw.2⟩

theorem wf_cons (a : Nat) (b : Byte) (r : Memory) :
    Memory.wf ((a, b) :: r) = (b != unlistedByte && wfFrom (a + 1) r) := by
  induction r generalizing a b with
  | nil => simp [Memory.wf, wfFrom]
  | cons e r ih =>
    obtain ⟨a', b'⟩ := e
    rw [Memory.wf, ih]
    simp only [wfFrom, Bool.and_assoc]
    rfl

/-- The canonical form, from address 0 on. -/
theorem wf_iff_wfFrom (m : Memory) : Memory.wf m = wfFrom 0 m := by
  cases m with
  | nil => rfl
  | cons e r =>
    obtain ⟨a, b⟩ := e
    rw [wf_cons]
    simp [wfFrom]

theorem wfFrom_insertKey (m : Memory) (k : Nat) (b : Byte) (hb : b ≠ unlistedByte) :
    ∀ lo, lo ≤ k → wfFrom lo m = true → wfFrom lo (insertKey m k b) = true := by
  induction m with
  | nil =>
    intro lo h _
    simp [insertKey, wfFrom, h, hb]
  | cons e r ih =>
    obtain ⟨j, w⟩ := e
    intro lo h hw
    simp only [wfFrom, Bool.and_eq_true, decide_eq_true_eq] at hw
    unfold insertKey
    split
    · rename_i hk
      simp only [wfFrom, Bool.and_eq_true, decide_eq_true_eq]
      exact ⟨⟨h, by simp [hb]⟩, ⟨⟨by omega, hw.1.2⟩, hw.2⟩⟩
    · split
      · rename_i hj
        subst hj
        simp only [wfFrom, Bool.and_eq_true, decide_eq_true_eq]
        exact ⟨⟨h, by simp [hb]⟩, hw.2⟩
      · rename_i h1 h2
        simp only [wfFrom, Bool.and_eq_true, decide_eq_true_eq]
        exact ⟨hw.1, ih (j + 1) (by omega) hw.2⟩

theorem wfFrom_eraseKey (m : Memory) (k : Nat) : ∀ lo, wfFrom lo m = true → wfFrom lo (eraseKey m k) = true := by
  induction m with
  | nil => intros; rfl
  | cons e r ih =>
    obtain ⟨j, w⟩ := e
    intro lo hw
    simp only [wfFrom, Bool.and_eq_true, decide_eq_true_eq] at hw
    unfold eraseKey
    split
    · exact wfFrom_weaken r (by omega) hw.2
    · simp only [wfFrom, Bool.and_eq_true, decide_eq_true_eq]
      exact ⟨hw.1, ih _ hw.2⟩

theorem wfFrom_filter (p : Host.Cell → Bool) (m : Memory) : ∀ lo, wfFrom lo m = true → wfFrom lo (m.filter p) = true := by
  induction m with
  | nil => intros; rfl
  | cons e r ih =>
    obtain ⟨j, w⟩ := e
    intro lo hw
    simp only [wfFrom, Bool.and_eq_true, decide_eq_true_eq] at hw
    rw [List.filter_cons]
    split
    · simp only [wfFrom, Bool.and_eq_true, decide_eq_true_eq]
      exact ⟨hw.1, ih _ hw.2⟩
    · exact wfFrom_weaken _ (by omega) (ih _ hw.2)

/-- Writing a byte keeps the canonical form. -/
theorem memWrite_wf (m : Memory) (a : Nat) (b : Byte) (h : Memory.wf m = true) : Memory.wf (memWrite m a b) = true := by
  rw [wf_iff_wfFrom] at h ⊢
  unfold memWrite
  split
  · exact wfFrom_eraseKey m a 0 h
  · rename_i hb
    exact wfFrom_insertKey m a b hb 0 (Nat.zero_le _) h

/-- Writing bytes keeps the canonical form. -/
theorem memPut_wf (bs : List Byte) : ∀ (m : Memory) (a : Nat), Memory.wf m = true → Memory.wf (memPut m a bs) = true := by
  induction bs with
  | nil => intro m a h; exact h
  | cons b r ih => intro m a h; exact ih _ _ (memWrite_wf m a b h)

/-- Clearing a range keeps the canonical form. -/
theorem memClear_wf (m : Memory) (a n : Nat) (h : Memory.wf m = true) : Memory.wf (memClear m a n) = true := by
  rw [wf_iff_wfFrom] at h ⊢
  exact wfFrom_filter _ m 0 h

/-! ### Reading after writing -/

theorem lookup_above (m : Memory) : ∀ lo, wfFrom lo m = true → ∀ a, a < lo → lookup m a unlistedByte = unlistedByte := by
  induction m with
  | nil => intros; rfl
  | cons e r ih =>
    obtain ⟨j, w⟩ := e
    intro lo hw a ha
    simp only [wfFrom, Bool.and_eq_true, decide_eq_true_eq] at hw
    have hj : j ≠ a := by omega
    simp [lookup, hj, ih _ hw.2 a (by omega)]

theorem lookup_eraseKey_self (m : Memory) (k : Nat) : ∀ lo, wfFrom lo m = true →
    lookup (eraseKey m k) k unlistedByte = unlistedByte := by
  induction m with
  | nil => intros; rfl
  | cons e r ih =>
    obtain ⟨j, w⟩ := e
    intro lo hw
    simp only [wfFrom, Bool.and_eq_true, decide_eq_true_eq] at hw
    unfold eraseKey
    split
    · rename_i hj
      subst hj
      exact lookup_above r _ hw.2 _ (by omega)
    · rename_i hj
      simp [lookup, hj, ih _ hw.2]

/-- A byte read where it was written. -/
theorem memRead_memWrite_self (m : Memory) (a : Nat) (b : Byte) (h : Memory.wf m = true) :
    memRead (memWrite m a b) a = b := by
  rw [wf_iff_wfFrom] at h
  unfold memRead memWrite
  split
  · rename_i hb
    rw [lookup_eraseKey_self m a 0 h, hb]
  · exact lookup_insertKey_self _ _ _ _

/-- A byte read elsewhere. -/
theorem memRead_memWrite_ne (m : Memory) {a a' : Nat} (h : a' ≠ a) (b : Byte) :
    memRead (memWrite m a b) a' = memRead m a' := by
  unfold memRead memWrite
  split
  · exact lookup_eraseKey_ne _ h _
  · exact lookup_insertKey_ne _ h _ _

/-- A byte outside the bytes written. -/
theorem memRead_memPut_outside (bs : List Byte) : ∀ (m : Memory) (a a' : Nat), (a' < a ∨ a + bs.length ≤ a') →
    memRead (memPut m a bs) a' = memRead m a' := by
  induction bs with
  | nil => intros; rfl
  | cons b r ih =>
    intro m a a' h
    simp only [List.length_cons] at h
    rw [memPut, ih _ _ _ (by omega), memRead_memWrite_ne _ (by omega)]

/-- A byte among the bytes written. -/
theorem memRead_memPut_inside (bs : List Byte) : ∀ (m : Memory) (a i : Nat) (h : i < bs.length), Memory.wf m = true →
    memRead (memPut m a bs) (a + i) = bs[i] := by
  induction bs with
  | nil => intro m a i h; simp at h
  | cons b r ih =>
    intro m a i h hw
    cases i with
    | zero =>
      rw [memPut, memRead_memPut_outside r _ _ _ (by omega)]
      exact memRead_memWrite_self m a b hw
    | succ i =>
      have hi : i < r.length := by simpa using h
      have := ih (memWrite m a b) (a + 1) i hi (memWrite_wf m a b hw)
      rw [memPut, show a + (i + 1) = a + 1 + i by omega, this]
      rfl

/-! ### Lists of distinct numbers -/

/-- The lowest numbers. -/
theorem mem_upTo (n i : Nat) : i ∈ upTo n ↔ i < n := by
  simp [upTo]

end Sys2Proof.Machine
end

