-- ==== Sys2Proof/Laws/State.lean ====
section
/-!
SUPPORT. Laws of the state's updates: each update leaves every other field as it was, and what was put under a name is read
under it.
-/

namespace Sys2Proof.Machine

/-! ### setCore -/

@[simp] theorem setCore_clock (s : State) (c : Nat) (k : Core) : (setCore s c k).clock = s.clock := rfl
@[simp] theorem setCore_frozen (s : State) (c : Nat) (k : Core) : (setCore s c k).frozen = s.frozen := rfl
@[simp] theorem setCore_scanned (s : State) (c : Nat) (k : Core) : (setCore s c k).scanned = s.scanned := rfl
@[simp] theorem setCore_boot (s : State) (c : Nat) (k : Core) : (setCore s c k).boot = s.boot := rfl
@[simp] theorem setCore_hbm (s : State) (c : Nat) (k : Core) : (setCore s c k).hbm = s.hbm := rfl
@[simp] theorem setCore_tags (s : State) (c : Nat) (k : Core) : (setCore s c k).tags = s.tags := rfl
@[simp] theorem setCore_pool (s : State) (c : Nat) (k : Core) : (setCore s c k).pool = s.pool := rfl
@[simp] theorem setCore_poison (s : State) (c : Nat) (k : Core) : (setCore s c k).poison = s.poison := rfl
@[simp] theorem setCore_lineKeys (s : State) (c : Nat) (k : Core) : (setCore s c k).lineKeys = s.lineKeys := rfl
@[simp] theorem setCore_partitions (s : State) (c : Nat) (k : Core) : (setCore s c k).partitions = s.partitions := rfl
@[simp] theorem setCore_dies (s : State) (c : Nat) (k : Core) : (setCore s c k).dies = s.dies := rfl
@[simp] theorem setCore_launches (s : State) (c : Nat) (k : Core) : (setCore s c k).launches = s.launches := rfl
@[simp] theorem setCore_bundles (s : State) (c : Nat) (k : Core) : (setCore s c k).bundles = s.bundles := rfl
@[simp] theorem setCore_streams (s : State) (c : Nat) (k : Core) : (setCore s c k).streams = s.streams := rfl
@[simp] theorem setCore_windows (s : State) (c : Nat) (k : Core) : (setCore s c k).windows = s.windows := rfl
@[simp] theorem setCore_linksDown (s : State) (c : Nat) (k : Core) : (setCore s c k).linksDown = s.linksDown := rfl
@[simp] theorem setCore_due (s : State) (c : Nat) (k : Core) : (setCore s c k).due = s.due := rfl
@[simp] theorem setCore_turn (s : State) (c : Nat) (k : Core) : (setCore s c k).turn = s.turn := rfl
@[simp] theorem setCore_free (s : State) (c : Nat) (k : Core) : (setCore s c k).free = s.free := rfl
@[simp] theorem setCore_cur (s : State) (c : Nat) (k : Core) : (setCore s c k).cur = s.cur := rfl
@[simp] theorem setCore_ev (s : State) (c : Nat) (k : Core) : (setCore s c k).ev = s.ev := rfl

/-! ### setDie -/

@[simp] theorem setDie_clock (s : State) (d : Nat) (k : Die) : (setDie s d k).clock = s.clock := rfl
@[simp] theorem setDie_frozen (s : State) (d : Nat) (k : Die) : (setDie s d k).frozen = s.frozen := rfl
@[simp] theorem setDie_scanned (s : State) (d : Nat) (k : Die) : (setDie s d k).scanned = s.scanned := rfl
@[simp] theorem setDie_boot (s : State) (d : Nat) (k : Die) : (setDie s d k).boot = s.boot := rfl
@[simp] theorem setDie_hbm (s : State) (d : Nat) (k : Die) : (setDie s d k).hbm = s.hbm := rfl
@[simp] theorem setDie_tags (s : State) (d : Nat) (k : Die) : (setDie s d k).tags = s.tags := rfl
@[simp] theorem setDie_pool (s : State) (d : Nat) (k : Die) : (setDie s d k).pool = s.pool := rfl
@[simp] theorem setDie_poison (s : State) (d : Nat) (k : Die) : (setDie s d k).poison = s.poison := rfl
@[simp] theorem setDie_lineKeys (s : State) (d : Nat) (k : Die) : (setDie s d k).lineKeys = s.lineKeys := rfl
@[simp] theorem setDie_partitions (s : State) (d : Nat) (k : Die) : (setDie s d k).partitions = s.partitions := rfl
@[simp] theorem setDie_cores (s : State) (d : Nat) (k : Die) : (setDie s d k).cores = s.cores := rfl
@[simp] theorem setDie_launches (s : State) (d : Nat) (k : Die) : (setDie s d k).launches = s.launches := rfl
@[simp] theorem setDie_bundles (s : State) (d : Nat) (k : Die) : (setDie s d k).bundles = s.bundles := rfl
@[simp] theorem setDie_streams (s : State) (d : Nat) (k : Die) : (setDie s d k).streams = s.streams := rfl
@[simp] theorem setDie_windows (s : State) (d : Nat) (k : Die) : (setDie s d k).windows = s.windows := rfl
@[simp] theorem setDie_linksDown (s : State) (d : Nat) (k : Die) : (setDie s d k).linksDown = s.linksDown := rfl
@[simp] theorem setDie_due (s : State) (d : Nat) (k : Die) : (setDie s d k).due = s.due := rfl
@[simp] theorem setDie_turn (s : State) (d : Nat) (k : Die) : (setDie s d k).turn = s.turn := rfl
@[simp] theorem setDie_free (s : State) (d : Nat) (k : Die) : (setDie s d k).free = s.free := rfl
@[simp] theorem setDie_cur (s : State) (d : Nat) (k : Die) : (setDie s d k).cur = s.cur := rfl
@[simp] theorem setDie_ev (s : State) (d : Nat) (k : Die) : (setDie s d k).ev = s.ev := rfl

/-! ### setPart -/

@[simp] theorem setPart_clock (s : State) (p : Nat) (k : Partition) : (setPart s p k).clock = s.clock := rfl
@[simp] theorem setPart_frozen (s : State) (p : Nat) (k : Partition) : (setPart s p k).frozen = s.frozen := rfl
@[simp] theorem setPart_scanned (s : State) (p : Nat) (k : Partition) : (setPart s p k).scanned = s.scanned := rfl
@[simp] theorem setPart_boot (s : State) (p : Nat) (k : Partition) : (setPart s p k).boot = s.boot := rfl
@[simp] theorem setPart_hbm (s : State) (p : Nat) (k : Partition) : (setPart s p k).hbm = s.hbm := rfl
@[simp] theorem setPart_tags (s : State) (p : Nat) (k : Partition) : (setPart s p k).tags = s.tags := rfl
@[simp] theorem setPart_pool (s : State) (p : Nat) (k : Partition) : (setPart s p k).pool = s.pool := rfl
@[simp] theorem setPart_poison (s : State) (p : Nat) (k : Partition) : (setPart s p k).poison = s.poison := rfl
@[simp] theorem setPart_lineKeys (s : State) (p : Nat) (k : Partition) : (setPart s p k).lineKeys = s.lineKeys := rfl
@[simp] theorem setPart_cores (s : State) (p : Nat) (k : Partition) : (setPart s p k).cores = s.cores := rfl
@[simp] theorem setPart_dies (s : State) (p : Nat) (k : Partition) : (setPart s p k).dies = s.dies := rfl
@[simp] theorem setPart_launches (s : State) (p : Nat) (k : Partition) : (setPart s p k).launches = s.launches := rfl
@[simp] theorem setPart_bundles (s : State) (p : Nat) (k : Partition) : (setPart s p k).bundles = s.bundles := rfl
@[simp] theorem setPart_streams (s : State) (p : Nat) (k : Partition) : (setPart s p k).streams = s.streams := rfl
@[simp] theorem setPart_windows (s : State) (p : Nat) (k : Partition) : (setPart s p k).windows = s.windows := rfl
@[simp] theorem setPart_linksDown (s : State) (p : Nat) (k : Partition) : (setPart s p k).linksDown = s.linksDown := rfl
@[simp] theorem setPart_due (s : State) (p : Nat) (k : Partition) : (setPart s p k).due = s.due := rfl
@[simp] theorem setPart_turn (s : State) (p : Nat) (k : Partition) : (setPart s p k).turn = s.turn := rfl
@[simp] theorem setPart_free (s : State) (p : Nat) (k : Partition) : (setPart s p k).free = s.free := rfl
@[simp] theorem setPart_cur (s : State) (p : Nat) (k : Partition) : (setPart s p k).cur = s.cur := rfl
@[simp] theorem setPart_ev (s : State) (p : Nat) (k : Partition) : (setPart s p k).ev = s.ev := rfl

/-! ### setLaunch -/

@[simp] theorem setLaunch_clock (s : State) (l : Nat) (k : Launch) : (setLaunch s l k).clock = s.clock := rfl
@[simp] theorem setLaunch_frozen (s : State) (l : Nat) (k : Launch) : (setLaunch s l k).frozen = s.frozen := rfl
@[simp] theorem setLaunch_scanned (s : State) (l : Nat) (k : Launch) : (setLaunch s l k).scanned = s.scanned := rfl
@[simp] theorem setLaunch_boot (s : State) (l : Nat) (k : Launch) : (setLaunch s l k).boot = s.boot := rfl
@[simp] theorem setLaunch_hbm (s : State) (l : Nat) (k : Launch) : (setLaunch s l k).hbm = s.hbm := rfl
@[simp] theorem setLaunch_tags (s : State) (l : Nat) (k : Launch) : (setLaunch s l k).tags = s.tags := rfl
@[simp] theorem setLaunch_pool (s : State) (l : Nat) (k : Launch) : (setLaunch s l k).pool = s.pool := rfl
@[simp] theorem setLaunch_poison (s : State) (l : Nat) (k : Launch) : (setLaunch s l k).poison = s.poison := rfl
@[simp] theorem setLaunch_lineKeys (s : State) (l : Nat) (k : Launch) : (setLaunch s l k).lineKeys = s.lineKeys := rfl
@[simp] theorem setLaunch_partitions (s : State) (l : Nat) (k : Launch) : (setLaunch s l k).partitions = s.partitions := rfl
@[simp] theorem setLaunch_cores (s : State) (l : Nat) (k : Launch) : (setLaunch s l k).cores = s.cores := rfl
@[simp] theorem setLaunch_dies (s : State) (l : Nat) (k : Launch) : (setLaunch s l k).dies = s.dies := rfl
@[simp] theorem setLaunch_bundles (s : State) (l : Nat) (k : Launch) : (setLaunch s l k).bundles = s.bundles := rfl
@[simp] theorem setLaunch_streams (s : State) (l : Nat) (k : Launch) : (setLaunch s l k).streams = s.streams := rfl
@[simp] theorem setLaunch_windows (s : State) (l : Nat) (k : Launch) : (setLaunch s l k).windows = s.windows := rfl
@[simp] theorem setLaunch_linksDown (s : State) (l : Nat) (k : Launch) : (setLaunch s l k).linksDown = s.linksDown := rfl
@[simp] theorem setLaunch_due (s : State) (l : Nat) (k : Launch) : (setLaunch s l k).due = s.due := rfl
@[simp] theorem setLaunch_turn (s : State) (l : Nat) (k : Launch) : (setLaunch s l k).turn = s.turn := rfl
@[simp] theorem setLaunch_free (s : State) (l : Nat) (k : Launch) : (setLaunch s l k).free = s.free := rfl
@[simp] theorem setLaunch_cur (s : State) (l : Nat) (k : Launch) : (setLaunch s l k).cur = s.cur := rfl
@[simp] theorem setLaunch_ev (s : State) (l : Nat) (k : Launch) : (setLaunch s l k).ev = s.ev := rfl

/-! ### setBundle -/

@[simp] theorem setBundle_clock (s : State) (l : Nat) (k : Bundle) : (setBundle s l k).clock = s.clock := rfl
@[simp] theorem setBundle_frozen (s : State) (l : Nat) (k : Bundle) : (setBundle s l k).frozen = s.frozen := rfl
@[simp] theorem setBundle_scanned (s : State) (l : Nat) (k : Bundle) : (setBundle s l k).scanned = s.scanned := rfl
@[simp] theorem setBundle_boot (s : State) (l : Nat) (k : Bundle) : (setBundle s l k).boot = s.boot := rfl
@[simp] theorem setBundle_hbm (s : State) (l : Nat) (k : Bundle) : (setBundle s l k).hbm = s.hbm := rfl
@[simp] theorem setBundle_tags (s : State) (l : Nat) (k : Bundle) : (setBundle s l k).tags = s.tags := rfl
@[simp] theorem setBundle_pool (s : State) (l : Nat) (k : Bundle) : (setBundle s l k).pool = s.pool := rfl
@[simp] theorem setBundle_poison (s : State) (l : Nat) (k : Bundle) : (setBundle s l k).poison = s.poison := rfl
@[simp] theorem setBundle_lineKeys (s : State) (l : Nat) (k : Bundle) : (setBundle s l k).lineKeys = s.lineKeys := rfl
@[simp] theorem setBundle_partitions (s : State) (l : Nat) (k : Bundle) : (setBundle s l k).partitions = s.partitions := rfl
@[simp] theorem setBundle_cores (s : State) (l : Nat) (k : Bundle) : (setBundle s l k).cores = s.cores := rfl
@[simp] theorem setBundle_dies (s : State) (l : Nat) (k : Bundle) : (setBundle s l k).dies = s.dies := rfl
@[simp] theorem setBundle_launches (s : State) (l : Nat) (k : Bundle) : (setBundle s l k).launches = s.launches := rfl
@[simp] theorem setBundle_streams (s : State) (l : Nat) (k : Bundle) : (setBundle s l k).streams = s.streams := rfl
@[simp] theorem setBundle_windows (s : State) (l : Nat) (k : Bundle) : (setBundle s l k).windows = s.windows := rfl
@[simp] theorem setBundle_linksDown (s : State) (l : Nat) (k : Bundle) : (setBundle s l k).linksDown = s.linksDown := rfl
@[simp] theorem setBundle_due (s : State) (l : Nat) (k : Bundle) : (setBundle s l k).due = s.due := rfl
@[simp] theorem setBundle_turn (s : State) (l : Nat) (k : Bundle) : (setBundle s l k).turn = s.turn := rfl
@[simp] theorem setBundle_free (s : State) (l : Nat) (k : Bundle) : (setBundle s l k).free = s.free := rfl
@[simp] theorem setBundle_cur (s : State) (l : Nat) (k : Bundle) : (setBundle s l k).cur = s.cur := rfl
@[simp] theorem setBundle_ev (s : State) (l : Nat) (k : Bundle) : (setBundle s l k).ev = s.ev := rfl

/-! ### setStream -/

@[simp] theorem setStream_clock (s : State) (i : Nat) (k : Stream) : (setStream s i k).clock = s.clock := rfl
@[simp] theorem setStream_frozen (s : State) (i : Nat) (k : Stream) : (setStream s i k).frozen = s.frozen := rfl
@[simp] theorem setStream_scanned (s : State) (i : Nat) (k : Stream) : (setStream s i k).scanned = s.scanned := rfl
@[simp] theorem setStream_boot (s : State) (i : Nat) (k : Stream) : (setStream s i k).boot = s.boot := rfl
@[simp] theorem setStream_hbm (s : State) (i : Nat) (k : Stream) : (setStream s i k).hbm = s.hbm := rfl
@[simp] theorem setStream_tags (s : State) (i : Nat) (k : Stream) : (setStream s i k).tags = s.tags := rfl
@[simp] theorem setStream_pool (s : State) (i : Nat) (k : Stream) : (setStream s i k).pool = s.pool := rfl
@[simp] theorem setStream_poison (s : State) (i : Nat) (k : Stream) : (setStream s i k).poison = s.poison := rfl
@[simp] theorem setStream_lineKeys (s : State) (i : Nat) (k : Stream) : (setStream s i k).lineKeys = s.lineKeys := rfl
@[simp] theorem setStream_partitions (s : State) (i : Nat) (k : Stream) : (setStream s i k).partitions = s.partitions := rfl
@[simp] theorem setStream_cores (s : State) (i : Nat) (k : Stream) : (setStream s i k).cores = s.cores := rfl
@[simp] theorem setStream_dies (s : State) (i : Nat) (k : Stream) : (setStream s i k).dies = s.dies := rfl
@[simp] theorem setStream_launches (s : State) (i : Nat) (k : Stream) : (setStream s i k).launches = s.launches := rfl
@[simp] theorem setStream_bundles (s : State) (i : Nat) (k : Stream) : (setStream s i k).bundles = s.bundles := rfl
@[simp] theorem setStream_windows (s : State) (i : Nat) (k : Stream) : (setStream s i k).windows = s.windows := rfl
@[simp] theorem setStream_linksDown (s : State) (i : Nat) (k : Stream) : (setStream s i k).linksDown = s.linksDown := rfl
@[simp] theorem setStream_due (s : State) (i : Nat) (k : Stream) : (setStream s i k).due = s.due := rfl
@[simp] theorem setStream_turn (s : State) (i : Nat) (k : Stream) : (setStream s i k).turn = s.turn := rfl
@[simp] theorem setStream_free (s : State) (i : Nat) (k : Stream) : (setStream s i k).free = s.free := rfl
@[simp] theorem setStream_cur (s : State) (i : Nat) (k : Stream) : (setStream s i k).cur = s.cur := rfl
@[simp] theorem setStream_ev (s : State) (i : Nat) (k : Stream) : (setStream s i k).ev = s.ev := rfl

/-! ### setGroup -/

@[simp] theorem setGroup_clock (s : State) (c g : Nat) (k : Group) : (setGroup s c g k).clock = s.clock := rfl
@[simp] theorem setGroup_frozen (s : State) (c g : Nat) (k : Group) : (setGroup s c g k).frozen = s.frozen := rfl
@[simp] theorem setGroup_scanned (s : State) (c g : Nat) (k : Group) : (setGroup s c g k).scanned = s.scanned := rfl
@[simp] theorem setGroup_boot (s : State) (c g : Nat) (k : Group) : (setGroup s c g k).boot = s.boot := rfl
@[simp] theorem setGroup_hbm (s : State) (c g : Nat) (k : Group) : (setGroup s c g k).hbm = s.hbm := rfl
@[simp] theorem setGroup_tags (s : State) (c g : Nat) (k : Group) : (setGroup s c g k).tags = s.tags := rfl
@[simp] theorem setGroup_pool (s : State) (c g : Nat) (k : Group) : (setGroup s c g k).pool = s.pool := rfl
@[simp] theorem setGroup_poison (s : State) (c g : Nat) (k : Group) : (setGroup s c g k).poison = s.poison := rfl
@[simp] theorem setGroup_lineKeys (s : State) (c g : Nat) (k : Group) : (setGroup s c g k).lineKeys = s.lineKeys := rfl
@[simp] theorem setGroup_partitions (s : State) (c g : Nat) (k : Group) : (setGroup s c g k).partitions = s.partitions := rfl
@[simp] theorem setGroup_dies (s : State) (c g : Nat) (k : Group) : (setGroup s c g k).dies = s.dies := rfl
@[simp] theorem setGroup_launches (s : State) (c g : Nat) (k : Group) : (setGroup s c g k).launches = s.launches := rfl
@[simp] theorem setGroup_bundles (s : State) (c g : Nat) (k : Group) : (setGroup s c g k).bundles = s.bundles := rfl
@[simp] theorem setGroup_streams (s : State) (c g : Nat) (k : Group) : (setGroup s c g k).streams = s.streams := rfl
@[simp] theorem setGroup_windows (s : State) (c g : Nat) (k : Group) : (setGroup s c g k).windows = s.windows := rfl
@[simp] theorem setGroup_linksDown (s : State) (c g : Nat) (k : Group) : (setGroup s c g k).linksDown = s.linksDown := rfl
@[simp] theorem setGroup_due (s : State) (c g : Nat) (k : Group) : (setGroup s c g k).due = s.due := rfl
@[simp] theorem setGroup_turn (s : State) (c g : Nat) (k : Group) : (setGroup s c g k).turn = s.turn := rfl
@[simp] theorem setGroup_free (s : State) (c g : Nat) (k : Group) : (setGroup s c g k).free = s.free := rfl
@[simp] theorem setGroup_cur (s : State) (c g : Nat) (k : Group) : (setGroup s c g k).cur = s.cur := rfl
@[simp] theorem setGroup_ev (s : State) (c g : Nat) (k : Group) : (setGroup s c g k).ev = s.ev := rfl

/-! ### setTeam -/

@[simp] theorem setTeam_clock (s : State) (c t : Nat) (k : Team) : (setTeam s c t k).clock = s.clock := rfl
@[simp] theorem setTeam_frozen (s : State) (c t : Nat) (k : Team) : (setTeam s c t k).frozen = s.frozen := rfl
@[simp] theorem setTeam_scanned (s : State) (c t : Nat) (k : Team) : (setTeam s c t k).scanned = s.scanned := rfl
@[simp] theorem setTeam_boot (s : State) (c t : Nat) (k : Team) : (setTeam s c t k).boot = s.boot := rfl
@[simp] theorem setTeam_hbm (s : State) (c t : Nat) (k : Team) : (setTeam s c t k).hbm = s.hbm := rfl
@[simp] theorem setTeam_tags (s : State) (c t : Nat) (k : Team) : (setTeam s c t k).tags = s.tags := rfl
@[simp] theorem setTeam_pool (s : State) (c t : Nat) (k : Team) : (setTeam s c t k).pool = s.pool := rfl
@[simp] theorem setTeam_poison (s : State) (c t : Nat) (k : Team) : (setTeam s c t k).poison = s.poison := rfl
@[simp] theorem setTeam_lineKeys (s : State) (c t : Nat) (k : Team) : (setTeam s c t k).lineKeys = s.lineKeys := rfl
@[simp] theorem setTeam_partitions (s : State) (c t : Nat) (k : Team) : (setTeam s c t k).partitions = s.partitions := rfl
@[simp] theorem setTeam_dies (s : State) (c t : Nat) (k : Team) : (setTeam s c t k).dies = s.dies := rfl
@[simp] theorem setTeam_launches (s : State) (c t : Nat) (k : Team) : (setTeam s c t k).launches = s.launches := rfl
@[simp] theorem setTeam_bundles (s : State) (c t : Nat) (k : Team) : (setTeam s c t k).bundles = s.bundles := rfl
@[simp] theorem setTeam_streams (s : State) (c t : Nat) (k : Team) : (setTeam s c t k).streams = s.streams := rfl
@[simp] theorem setTeam_windows (s : State) (c t : Nat) (k : Team) : (setTeam s c t k).windows = s.windows := rfl
@[simp] theorem setTeam_linksDown (s : State) (c t : Nat) (k : Team) : (setTeam s c t k).linksDown = s.linksDown := rfl
@[simp] theorem setTeam_due (s : State) (c t : Nat) (k : Team) : (setTeam s c t k).due = s.due := rfl
@[simp] theorem setTeam_turn (s : State) (c t : Nat) (k : Team) : (setTeam s c t k).turn = s.turn := rfl
@[simp] theorem setTeam_free (s : State) (c t : Nat) (k : Team) : (setTeam s c t k).free = s.free := rfl
@[simp] theorem setTeam_cur (s : State) (c t : Nat) (k : Team) : (setTeam s c t k).cur = s.cur := rfl
@[simp] theorem setTeam_ev (s : State) (c t : Nat) (k : Team) : (setTeam s c t k).ev = s.ev := rfl

/-! ### setChannel -/

@[simp] theorem setChannel_clock (s : State) (c n : Nat) (k : Channel) : (setChannel s c n k).clock = s.clock := rfl
@[simp] theorem setChannel_frozen (s : State) (c n : Nat) (k : Channel) : (setChannel s c n k).frozen = s.frozen := rfl
@[simp] theorem setChannel_scanned (s : State) (c n : Nat) (k : Channel) : (setChannel s c n k).scanned = s.scanned := rfl
@[simp] theorem setChannel_boot (s : State) (c n : Nat) (k : Channel) : (setChannel s c n k).boot = s.boot := rfl
@[simp] theorem setChannel_hbm (s : State) (c n : Nat) (k : Channel) : (setChannel s c n k).hbm = s.hbm := rfl
@[simp] theorem setChannel_tags (s : State) (c n : Nat) (k : Channel) : (setChannel s c n k).tags = s.tags := rfl
@[simp] theorem setChannel_pool (s : State) (c n : Nat) (k : Channel) : (setChannel s c n k).pool = s.pool := rfl
@[simp] theorem setChannel_poison (s : State) (c n : Nat) (k : Channel) : (setChannel s c n k).poison = s.poison := rfl
@[simp] theorem setChannel_lineKeys (s : State) (c n : Nat) (k : Channel) : (setChannel s c n k).lineKeys = s.lineKeys := rfl
@[simp] theorem setChannel_partitions (s : State) (c n : Nat) (k : Channel) : (setChannel s c n k).partitions = s.partitions := rfl
@[simp] theorem setChannel_dies (s : State) (c n : Nat) (k : Channel) : (setChannel s c n k).dies = s.dies := rfl
@[simp] theorem setChannel_launches (s : State) (c n : Nat) (k : Channel) : (setChannel s c n k).launches = s.launches := rfl
@[simp] theorem setChannel_bundles (s : State) (c n : Nat) (k : Channel) : (setChannel s c n k).bundles = s.bundles := rfl
@[simp] theorem setChannel_streams (s : State) (c n : Nat) (k : Channel) : (setChannel s c n k).streams = s.streams := rfl
@[simp] theorem setChannel_windows (s : State) (c n : Nat) (k : Channel) : (setChannel s c n k).windows = s.windows := rfl
@[simp] theorem setChannel_linksDown (s : State) (c n : Nat) (k : Channel) : (setChannel s c n k).linksDown = s.linksDown := rfl
@[simp] theorem setChannel_due (s : State) (c n : Nat) (k : Channel) : (setChannel s c n k).due = s.due := rfl
@[simp] theorem setChannel_turn (s : State) (c n : Nat) (k : Channel) : (setChannel s c n k).turn = s.turn := rfl
@[simp] theorem setChannel_free (s : State) (c n : Nat) (k : Channel) : (setChannel s c n k).free = s.free := rfl
@[simp] theorem setChannel_cur (s : State) (c n : Nat) (k : Channel) : (setChannel s c n k).cur = s.cur := rfl
@[simp] theorem setChannel_ev (s : State) (c n : Nat) (k : Channel) : (setChannel s c n k).ev = s.ev := rfl

/-! ### setSlice -/

@[simp] theorem setSlice_clock (s : State) (d z : Nat) (k : Slice) : (setSlice s d z k).clock = s.clock := rfl
@[simp] theorem setSlice_frozen (s : State) (d z : Nat) (k : Slice) : (setSlice s d z k).frozen = s.frozen := rfl
@[simp] theorem setSlice_scanned (s : State) (d z : Nat) (k : Slice) : (setSlice s d z k).scanned = s.scanned := rfl
@[simp] theorem setSlice_boot (s : State) (d z : Nat) (k : Slice) : (setSlice s d z k).boot = s.boot := rfl
@[simp] theorem setSlice_hbm (s : State) (d z : Nat) (k : Slice) : (setSlice s d z k).hbm = s.hbm := rfl
@[simp] theorem setSlice_tags (s : State) (d z : Nat) (k : Slice) : (setSlice s d z k).tags = s.tags := rfl
@[simp] theorem setSlice_pool (s : State) (d z : Nat) (k : Slice) : (setSlice s d z k).pool = s.pool := rfl
@[simp] theorem setSlice_poison (s : State) (d z : Nat) (k : Slice) : (setSlice s d z k).poison = s.poison := rfl
@[simp] theorem setSlice_lineKeys (s : State) (d z : Nat) (k : Slice) : (setSlice s d z k).lineKeys = s.lineKeys := rfl
@[simp] theorem setSlice_partitions (s : State) (d z : Nat) (k : Slice) : (setSlice s d z k).partitions = s.partitions := rfl
@[simp] theorem setSlice_cores (s : State) (d z : Nat) (k : Slice) : (setSlice s d z k).cores = s.cores := rfl
@[simp] theorem setSlice_launches (s : State) (d z : Nat) (k : Slice) : (setSlice s d z k).launches = s.launches := rfl
@[simp] theorem setSlice_bundles (s : State) (d z : Nat) (k : Slice) : (setSlice s d z k).bundles = s.bundles := rfl
@[simp] theorem setSlice_streams (s : State) (d z : Nat) (k : Slice) : (setSlice s d z k).streams = s.streams := rfl
@[simp] theorem setSlice_windows (s : State) (d z : Nat) (k : Slice) : (setSlice s d z k).windows = s.windows := rfl
@[simp] theorem setSlice_linksDown (s : State) (d z : Nat) (k : Slice) : (setSlice s d z k).linksDown = s.linksDown := rfl
@[simp] theorem setSlice_due (s : State) (d z : Nat) (k : Slice) : (setSlice s d z k).due = s.due := rfl
@[simp] theorem setSlice_turn (s : State) (d z : Nat) (k : Slice) : (setSlice s d z k).turn = s.turn := rfl
@[simp] theorem setSlice_free (s : State) (d z : Nat) (k : Slice) : (setSlice s d z k).free = s.free := rfl
@[simp] theorem setSlice_cur (s : State) (d z : Nat) (k : Slice) : (setSlice s d z k).cur = s.cur := rfl
@[simp] theorem setSlice_ev (s : State) (d z : Nat) (k : Slice) : (setSlice s d z k).ev = s.ev := rfl

/-! ### setCur -/

@[simp] theorem setCur_clock (s : State) (k : Group) : (setCur s k).clock = s.clock := rfl
@[simp] theorem setCur_frozen (s : State) (k : Group) : (setCur s k).frozen = s.frozen := rfl
@[simp] theorem setCur_scanned (s : State) (k : Group) : (setCur s k).scanned = s.scanned := rfl
@[simp] theorem setCur_boot (s : State) (k : Group) : (setCur s k).boot = s.boot := rfl
@[simp] theorem setCur_hbm (s : State) (k : Group) : (setCur s k).hbm = s.hbm := rfl
@[simp] theorem setCur_tags (s : State) (k : Group) : (setCur s k).tags = s.tags := rfl
@[simp] theorem setCur_pool (s : State) (k : Group) : (setCur s k).pool = s.pool := rfl
@[simp] theorem setCur_poison (s : State) (k : Group) : (setCur s k).poison = s.poison := rfl
@[simp] theorem setCur_lineKeys (s : State) (k : Group) : (setCur s k).lineKeys = s.lineKeys := rfl
@[simp] theorem setCur_partitions (s : State) (k : Group) : (setCur s k).partitions = s.partitions := rfl
@[simp] theorem setCur_dies (s : State) (k : Group) : (setCur s k).dies = s.dies := rfl
@[simp] theorem setCur_launches (s : State) (k : Group) : (setCur s k).launches = s.launches := rfl
@[simp] theorem setCur_bundles (s : State) (k : Group) : (setCur s k).bundles = s.bundles := rfl
@[simp] theorem setCur_streams (s : State) (k : Group) : (setCur s k).streams = s.streams := rfl
@[simp] theorem setCur_windows (s : State) (k : Group) : (setCur s k).windows = s.windows := rfl
@[simp] theorem setCur_linksDown (s : State) (k : Group) : (setCur s k).linksDown = s.linksDown := rfl
@[simp] theorem setCur_due (s : State) (k : Group) : (setCur s k).due = s.due := rfl
@[simp] theorem setCur_turn (s : State) (k : Group) : (setCur s k).turn = s.turn := rfl
@[simp] theorem setCur_free (s : State) (k : Group) : (setCur s k).free = s.free := rfl
@[simp] theorem setCur_cur (s : State) (k : Group) : (setCur s k).cur = s.cur := rfl
@[simp] theorem setCur_ev (s : State) (k : Group) : (setCur s k).ev = s.ev := rfl

/-! ### setCurTeam -/

@[simp] theorem setCurTeam_clock (s : State) (k : Team) : (setCurTeam s k).clock = s.clock := rfl
@[simp] theorem setCurTeam_frozen (s : State) (k : Team) : (setCurTeam s k).frozen = s.frozen := rfl
@[simp] theorem setCurTeam_scanned (s : State) (k : Team) : (setCurTeam s k).scanned = s.scanned := rfl
@[simp] theorem setCurTeam_boot (s : State) (k : Team) : (setCurTeam s k).boot = s.boot := rfl
@[simp] theorem setCurTeam_hbm (s : State) (k : Team) : (setCurTeam s k).hbm = s.hbm := rfl
@[simp] theorem setCurTeam_tags (s : State) (k : Team) : (setCurTeam s k).tags = s.tags := rfl
@[simp] theorem setCurTeam_pool (s : State) (k : Team) : (setCurTeam s k).pool = s.pool := rfl
@[simp] theorem setCurTeam_poison (s : State) (k : Team) : (setCurTeam s k).poison = s.poison := rfl
@[simp] theorem setCurTeam_lineKeys (s : State) (k : Team) : (setCurTeam s k).lineKeys = s.lineKeys := rfl
@[simp] theorem setCurTeam_partitions (s : State) (k : Team) : (setCurTeam s k).partitions = s.partitions := rfl
@[simp] theorem setCurTeam_dies (s : State) (k : Team) : (setCurTeam s k).dies = s.dies := rfl
@[simp] theorem setCurTeam_launches (s : State) (k : Team) : (setCurTeam s k).launches = s.launches := rfl
@[simp] theorem setCurTeam_bundles (s : State) (k : Team) : (setCurTeam s k).bundles = s.bundles := rfl
@[simp] theorem setCurTeam_streams (s : State) (k : Team) : (setCurTeam s k).streams = s.streams := rfl
@[simp] theorem setCurTeam_windows (s : State) (k : Team) : (setCurTeam s k).windows = s.windows := rfl
@[simp] theorem setCurTeam_linksDown (s : State) (k : Team) : (setCurTeam s k).linksDown = s.linksDown := rfl
@[simp] theorem setCurTeam_due (s : State) (k : Team) : (setCurTeam s k).due = s.due := rfl
@[simp] theorem setCurTeam_turn (s : State) (k : Team) : (setCurTeam s k).turn = s.turn := rfl
@[simp] theorem setCurTeam_free (s : State) (k : Team) : (setCurTeam s k).free = s.free := rfl
@[simp] theorem setCurTeam_cur (s : State) (k : Team) : (setCurTeam s k).cur = s.cur := rfl
@[simp] theorem setCurTeam_ev (s : State) (k : Team) : (setCurTeam s k).ev = s.ev := rfl

/-! ### pushDue -/

@[simp] theorem pushDue_clock (s : State) (l : List Due) : (pushDue s l).clock = s.clock := rfl
@[simp] theorem pushDue_frozen (s : State) (l : List Due) : (pushDue s l).frozen = s.frozen := rfl
@[simp] theorem pushDue_scanned (s : State) (l : List Due) : (pushDue s l).scanned = s.scanned := rfl
@[simp] theorem pushDue_boot (s : State) (l : List Due) : (pushDue s l).boot = s.boot := rfl
@[simp] theorem pushDue_hbm (s : State) (l : List Due) : (pushDue s l).hbm = s.hbm := rfl
@[simp] theorem pushDue_tags (s : State) (l : List Due) : (pushDue s l).tags = s.tags := rfl
@[simp] theorem pushDue_pool (s : State) (l : List Due) : (pushDue s l).pool = s.pool := rfl
@[simp] theorem pushDue_poison (s : State) (l : List Due) : (pushDue s l).poison = s.poison := rfl
@[simp] theorem pushDue_lineKeys (s : State) (l : List Due) : (pushDue s l).lineKeys = s.lineKeys := rfl
@[simp] theorem pushDue_partitions (s : State) (l : List Due) : (pushDue s l).partitions = s.partitions := rfl
@[simp] theorem pushDue_cores (s : State) (l : List Due) : (pushDue s l).cores = s.cores := rfl
@[simp] theorem pushDue_dies (s : State) (l : List Due) : (pushDue s l).dies = s.dies := rfl
@[simp] theorem pushDue_launches (s : State) (l : List Due) : (pushDue s l).launches = s.launches := rfl
@[simp] theorem pushDue_bundles (s : State) (l : List Due) : (pushDue s l).bundles = s.bundles := rfl
@[simp] theorem pushDue_streams (s : State) (l : List Due) : (pushDue s l).streams = s.streams := rfl
@[simp] theorem pushDue_windows (s : State) (l : List Due) : (pushDue s l).windows = s.windows := rfl
@[simp] theorem pushDue_linksDown (s : State) (l : List Due) : (pushDue s l).linksDown = s.linksDown := rfl
@[simp] theorem pushDue_turn (s : State) (l : List Due) : (pushDue s l).turn = s.turn := rfl
@[simp] theorem pushDue_free (s : State) (l : List Due) : (pushDue s l).free = s.free := rfl
@[simp] theorem pushDue_cur (s : State) (l : List Due) : (pushDue s l).cur = s.cur := rfl
@[simp] theorem pushDue_ev (s : State) (l : List Due) : (pushDue s l).ev = s.ev := rfl

/-! ### drawFree -/

@[simp] theorem drawFree_clock (s : State) : (drawFree s).2.clock = s.clock := rfl
@[simp] theorem drawFree_frozen (s : State) : (drawFree s).2.frozen = s.frozen := rfl
@[simp] theorem drawFree_scanned (s : State) : (drawFree s).2.scanned = s.scanned := rfl
@[simp] theorem drawFree_boot (s : State) : (drawFree s).2.boot = s.boot := rfl
@[simp] theorem drawFree_hbm (s : State) : (drawFree s).2.hbm = s.hbm := rfl
@[simp] theorem drawFree_tags (s : State) : (drawFree s).2.tags = s.tags := rfl
@[simp] theorem drawFree_pool (s : State) : (drawFree s).2.pool = s.pool := rfl
@[simp] theorem drawFree_poison (s : State) : (drawFree s).2.poison = s.poison := rfl
@[simp] theorem drawFree_lineKeys (s : State) : (drawFree s).2.lineKeys = s.lineKeys := rfl
@[simp] theorem drawFree_partitions (s : State) : (drawFree s).2.partitions = s.partitions := rfl
@[simp] theorem drawFree_cores (s : State) : (drawFree s).2.cores = s.cores := rfl
@[simp] theorem drawFree_dies (s : State) : (drawFree s).2.dies = s.dies := rfl
@[simp] theorem drawFree_launches (s : State) : (drawFree s).2.launches = s.launches := rfl
@[simp] theorem drawFree_bundles (s : State) : (drawFree s).2.bundles = s.bundles := rfl
@[simp] theorem drawFree_streams (s : State) : (drawFree s).2.streams = s.streams := rfl
@[simp] theorem drawFree_windows (s : State) : (drawFree s).2.windows = s.windows := rfl
@[simp] theorem drawFree_linksDown (s : State) : (drawFree s).2.linksDown = s.linksDown := rfl
@[simp] theorem drawFree_due (s : State) : (drawFree s).2.due = s.due := rfl
@[simp] theorem drawFree_turn (s : State) : (drawFree s).2.turn = s.turn := rfl
@[simp] theorem drawFree_cur (s : State) : (drawFree s).2.cur = s.cur := rfl
@[simp] theorem drawFree_ev (s : State) : (drawFree s).2.ev = s.ev := rfl

@[simp] theorem drawFree_free (s : State) : (drawFree s).2.free = s.free + 1 := rfl

/-! ### Reading what was put -/

@[simp] theorem getCore_setCore (s : State) (c : Nat) (k : Core) : getCore (setCore s c k) c = k :=
  lookup_insertKey_self _ _ _ _

theorem getCore_setCore_ne (s : State) {c c' : Nat} (h : c' ≠ c) (k : Core) : getCore (setCore s c k) c' = getCore s c' :=
  lookup_insertKey_ne _ h _ _

@[simp] theorem getDie_setDie (s : State) (d : Nat) (k : Die) : getDie (setDie s d k) d = k :=
  lookup_insertKey_self _ _ _ _

theorem getDie_setDie_ne (s : State) {d d' : Nat} (h : d' ≠ d) (k : Die) : getDie (setDie s d k) d' = getDie s d' :=
  lookup_insertKey_ne _ h _ _

@[simp] theorem getPart_setPart (s : State) (p : Nat) (k : Partition) : getPart (setPart s p k) p = k :=
  lookup_insertKey_self _ _ _ _

@[simp] theorem getLaunch_setLaunch (s : State) (l : Nat) (k : Launch) : getLaunch (setLaunch s l k) l = k :=
  lookup_insertKey_self _ _ _ _

@[simp] theorem getBundle_setBundle (s : State) (l : Nat) (k : Bundle) : getBundle (setBundle s l k) l = k :=
  lookup_insertKey_self _ _ _ _

@[simp] theorem getStream_setStream (s : State) (i : Nat) (k : Stream) : getStream (setStream s i k) i = k :=
  lookup_insertKey_self _ _ _ _

@[simp] theorem getGroup_setGroup (s : State) (c g : Nat) (k : Group) : getGroup (setGroup s c g k) c g = k := by
  simp [getGroup, setGroup, lookup_insertKey_self]

theorem getGroup_setGroup_ne (s : State) (c : Nat) {g g' : Nat} (h : g' ≠ g) (k : Group) :
    getGroup (setGroup s c g k) c g' = getGroup s c g' := by
  simp [getGroup, setGroup, lookup_insertKey_ne _ h]

theorem getGroup_setCore_ne (s : State) {c c' : Nat} (h : c' ≠ c) (k : Core) (g : Nat) :
    getGroup (setCore s c k) c' g = getGroup s c' g := by
  simp [getGroup, getCore_setCore_ne s h]

@[simp] theorem getTeam_setTeam (s : State) (c t : Nat) (k : Team) : getTeam (setTeam s c t k) c t = k := by
  simp [getTeam, setTeam, lookup_insertKey_self]

@[simp] theorem getTeam_setGroup (s : State) (c g t : Nat) (k : Group) : getTeam (setGroup s c g k) c t = getTeam s c t := by
  simp [getTeam, setGroup]

@[simp] theorem getGroup_setTeam (s : State) (c t g : Nat) (k : Team) : getGroup (setTeam s c t k) c g = getGroup s c g := by
  simp [getGroup, setTeam]

@[simp] theorem getChannel_setChannel (s : State) (c n : Nat) (k : Channel) : getChannel (setChannel s c n k) c n = k := by
  simp [getChannel, setChannel, lookup_insertKey_self]

@[simp] theorem getChannel_setGroup (s : State) (c g n : Nat) (k : Group) :
    getChannel (setGroup s c g k) c n = getChannel s c n := by
  simp [getChannel, setGroup]

@[simp] theorem getGroup_setChannel (s : State) (c n g : Nat) (k : Channel) :
    getGroup (setChannel s c n k) c g = getGroup s c g := by
  simp [getGroup, setChannel]

@[simp] theorem getSlice_setSlice (s : State) (d z : Nat) (k : Slice) : getSlice (setSlice s d z k) d z = k := by
  simp [getSlice, setSlice, lookup_insertKey_self]

/-- The issuing group after it is replaced. -/
@[simp] theorem curGroup_setCur (s : State) (g : Group) : curGroup (setCur s g) = g := by
  simp [curGroup, setCur]

/-- The team of the issuing group is found by the group's own field. -/
theorem curTeam_setCur (s : State) (g : Group) (h : g.team = (curGroup s).team) : curTeam (setCur s g) = curTeam s := by
  simp [curTeam, setCur, h, curGroup]

@[simp] theorem curGroup_pushDue (s : State) (l : List Due) : curGroup (pushDue s l) = curGroup s := rfl
@[simp] theorem getCore_pushDue (s : State) (l : List Due) (c : Nat) : getCore (pushDue s l) c = getCore s c := rfl
@[simp] theorem getGroup_pushDue (s : State) (l : List Due) (c g : Nat) : getGroup (pushDue s l) c g = getGroup s c g := rfl

/-- A quad of a group after it is replaced. -/
@[simp] theorem getQuad_setQuad (g : Group) (q : Nat) (k : Quad) : getQuad (setQuad g q k) q = k :=
  lookup_insertKey_self _ _ _ _

theorem getQuad_setQuad_ne (g : Group) {q q' : Nat} (h : q' ≠ q) (k : Quad) : getQuad (setQuad g q k) q' = getQuad g q' :=
  lookup_insertKey_ne _ h _ _

@[simp] theorem setQuad_regs (g : Group) (q : Nat) (k : Quad) : (setQuad g q k).regs = g.regs := rfl
@[simp] theorem setQuad_spec (g : Group) (q : Nat) (k : Quad) : (setQuad g q k).spec = g.spec := rfl
@[simp] theorem setQuad_regions (g : Group) (q : Nat) (k : Quad) : (setQuad g q k).regions = g.regions := rfl
@[simp] theorem setQuad_stats (g : Group) (q : Nat) (k : Quad) : (setQuad g q k).stats = g.stats := rfl
@[simp] theorem setQuad_batch (g : Group) (q : Nat) (k : Quad) : (setQuad g q k).batch = g.batch := rfl
@[simp] theorem setQuad_nquad (g : Group) (q : Nat) (k : Quad) : (setQuad g q k).nquad = g.nquad := rfl
@[simp] theorem setQuad_team (g : Group) (q : Nat) (k : Quad) : (setQuad g q k).team = g.team := rfl
@[simp] theorem setQuad_launch (g : Group) (q : Nat) (k : Quad) : (setQuad g q k).launch = g.launch := rfl

/-- k0 has no storage, and reads as the null capability (R10). -/
@[simp] theorem readCap_zero (g : Group) : readCap g 0 = Cap.null := rfl
@[simp] theorem writeCap_zero (g : Group) (c : Cap) : writeCap g 0 c = g := rfl

theorem readCap_writeCap (g : Group) {k : Nat} (h : k ≠ 0) (c : Cap) : readCap (writeCap g k c) k = c := by
  simp [readCap, writeCap, writeCapLat, h, lookup_insertKey_self]

end Sys2Proof.Machine
end

