-- ==== Sys2Proof/Laws/Lanes.lean ====
section
/-!
SUPPORT. What a lane instruction does, said once: the values it leaves in the destination lanes, what it leaves alone, and where
its quads go on (spec/07 R164, R165, R176, spec/06 R130). The statements about lane instructions cite these definitions.
-/

namespace Sys2Proof.Machine

/-! ### Results that are not ready -/

theorem pendingValue_ready (pend : List Pending) (key clock : Nat) (now : Option QReg)
    (h : pend.all (fun e => decide (e.readyAt ≤ clock)) = true) : pendingValue pend key clock now = now := by
  induction pend with
  | nil => rfl
  | cons e r ih =>
    simp only [List.all_cons, Bool.and_eq_true, decide_eq_true_eq] at h
    unfold pendingValue
    split
    · simp [h.1]
    · exact ih h.2

/-- A result noted for another register leaves what a register reads as. -/
theorem pendingValue_addPending {key k : Nat} (hk : k ≠ key) (pend : List Pending) (clock lat : Nat) (astr : Bool) (old now : Option QReg) :
    pendingValue (addPending pend k clock lat astr old) key clock now = pendingValue pend key clock now := by
  unfold addPending
  simp only [pendingValue, hk, if_false]
  split
  · rename_i h
    rw [pendingValue_ready pend key clock now h]
    rfl
  · rfl

/-- A result that another register's interlocked result supersedes was none of this register's. -/
theorem pendingValue_dropPending {key k : Nat} (hk : k ≠ key) (clock : Nat) (pend : List Pending) :
    ∀ now, pendingValue (dropPending pend k) key clock now = pendingValue pend key clock now := by
  induction pend with
  | nil => intro now; rfl
  | cons e r ih =>
    intro now
    have ih' : ∀ now, pendingValue (r.filter (fun e => e.key != k)) key clock now = pendingValue r key clock now := ih
    unfold dropPending
    by_cases he : e.key = k
    · have hn : e.key ≠ key := fun h => hk (he.symm.trans h)
      simp only [List.filter_cons, he, bne_self_eq_false, Bool.false_eq_true, if_false]
      rw [ih']
      simp only [pendingValue, hn, if_false]
    · simp only [List.filter_cons, bne_iff_ne, ne_eq, he, not_false_eq_true, if_true, pendingValue, ih']

theorem pendingValue_drops (name clock key : Nat) (now : Option QReg) (quads : List Nat)
    (hk : ∀ q ∈ quads, 8 * name + q ≠ key) : ∀ pend, pendingValue (quads.foldl (fun p q => dropPending p (8 * name + q)) pend) key clock now
      = pendingValue pend key clock now := by
  induction quads with
  | nil => intro pend; rfl
  | cons q r ih =>
    intro pend
    rw [List.foldl_cons, ih (fun x hx => hk x (List.mem_cons_of_mem _ hx)),
      pendingValue_dropPending (hk q (List.mem_cons_self ..))]

theorem pendingValue_fold (name lat clock key : Nat) (astr : Bool) (m : FMap QReg) (now : Option QReg) (quads : List Nat)
    (hk : ∀ q ∈ quads, 8 * name + q ≠ key) : ∀ pend, pendingValue (quads.foldl (fun p q =>
      addPending p (8 * name + q) clock lat astr (find? m (8 * name + q))) pend) key clock now = pendingValue pend key clock now := by
  induction quads with
  | nil => intro pend; rfl
  | cons q r ih =>
    intro pend
    rw [List.foldl_cons, ih (fun x hx => hk x (List.mem_cons_of_mem _ hx)),
      pendingValue_addPending (hk q (List.mem_cons_self ..))]

/-! ### What decides the active lanes -/

theorem activeLanes_congr {s t : State} (h1 : t.cur = s.cur) (h2 : (curGroup t).quads = (curGroup s).quads)
    (h3 : readPred (curGroup t) t.clock (ctlGpred s) = readPred (curGroup s) s.clock (ctlGpred s)) :
    activeLanes t = activeLanes s := by
  have hq : quadMask t = quadMask s := by
    unfold quadMask getQuad
    rw [h1, h2]
  have hg : guardMask t = guardMask s := by
    unfold guardMask ctlGpred ctlGneg
    unfold ctlGpred at h3
    rw [h1, h3]
  unfold activeLanes activeMask
  rw [hq, hg]

/-! ### Writing lanes -/

theorem qget_qset_self (q : QReg) (i : Nat) (w : Word) (h : i < 4) : qget (qset q i w) i = w := by
  have : i = 0 ∨ i = 1 ∨ i = 2 ∨ i = 3 := by omega
  rcases this with rfl | rfl | rfl | rfl <;> rfl

theorem qget_qset_ne (q : QReg) (i j : Nat) (w : Word) (hi : i < 4) (hj : j < 4) (h : j ≠ i) :
    qget (qset q i w) j = qget q j := by
  have h1 : i = 0 ∨ i = 1 ∨ i = 2 ∨ i = 3 := by omega
  have h2 : j = 0 ∨ j = 1 ∨ j = 2 ∨ j = 3 := by omega
  rcases h1 with rfl | rfl | rfl | rfl <;> rcases h2 with rfl | rfl | rfl | rfl <;> first | rfl | exact absurd rfl h

/-- Content of a lane of a name in a group. -/
def laneIn (g : Group) (name i : Nat) : Word := qget (lookup g.regs.lanes (8 * name + i / 4) QReg.zero) (i % 4)

theorem laneIn_writeLane (g : Group) (name name' i j : Nat) (w : Word) (hi : i < 32) (hj : j < 32) :
    laneIn (writeLane g name i w) name' j = if name' = name ∧ j = i then w else laneIn g name' j := by
  unfold laneIn writeLane
  simp only [lookup_insertKey]
  by_cases hk : 8 * name' + j / 4 = 8 * name + i / 4
  · have hn : name' = name := by omega
    subst hn
    have hq : j / 4 = i / 4 := by omega
    rw [if_pos hk]
    by_cases hij : j = i
    · subst hij
      rw [qget_qset_self _ _ _ (Nat.mod_lt _ (by decide))]
      simp
    · rw [qget_qset_ne _ _ _ _ (Nat.mod_lt _ (by decide)) (Nat.mod_lt _ (by decide)) (by omega), ← hk]
      simp [hij]
  · rw [if_neg hk]
    have : ¬(name' = name ∧ j = i) := by
      rintro ⟨rfl, rfl⟩
      exact hk rfl
    rw [if_neg this]

theorem writeLane_rest (g : Group) (name i : Nat) (w : Word) :
    (writeLane g name i w).nquad = g.nquad ∧ (writeLane g name i w).quads = g.quads
      ∧ (writeLane g name i w).regs.pend = g.regs.pend ∧ (writeLane g name i w).regs.preds = g.regs.preds
      ∧ (writeLane g name i w).regs.wb = g.regs.wb ∧ (writeLane g name i w).regs.lps = g.regs.lps
      ∧ (writeLane g name i w).regions = g.regions ∧ (writeLane g name i w).spec = g.spec
      ∧ (writeLane g name i w).team = g.team ∧ (writeLane g name i w).launch = g.launch := ⟨rfl, rfl, rfl, rfl, rfl, rfl, rfl, rfl, rfl, rfl⟩

/-- One lane of a write, and what stays. -/
def putLane (g0 : Group) (f : BitVec 7) (name : Nat) (vals : Lanes) (h : Group) (i : Nat) : Group :=
  let j := fieldLane g0 f i
  if j < Nat.min 32 (4 * g0.nquad) then writeLane h name j (laneVal vals i) else h

/-- What a fold of lane writes leaves alone. -/
def SameButLanes (g h : Group) : Prop :=
  h.nquad = g.nquad ∧ h.quads = g.quads ∧ h.regs.pend = g.regs.pend ∧ h.regs.preds = g.regs.preds ∧ h.regs.wb = g.regs.wb
    ∧ h.regs.lps = g.regs.lps ∧ h.regions = g.regions ∧ h.spec = g.spec ∧ h.team = g.team ∧ h.launch = g.launch
    ∧ h.regs.unif = g.regs.unif ∧ h.regs.caps = g.regs.caps

theorem SameButLanes.rfl' (g : Group) : SameButLanes g g := ⟨rfl, rfl, rfl, rfl, rfl, rfl, rfl, rfl, rfl, rfl, rfl, rfl⟩

theorem SameButLanes.trans {f g h : Group} (a : SameButLanes f g) (b : SameButLanes g h) : SameButLanes f h := by
  obtain ⟨a1, a2, a3, a4, a5, a6, a7, a8, a9, a10, a11, a12⟩ := a
  obtain ⟨b1, b2, b3, b4, b5, b6, b7, b8, b9, b10, b11, b12⟩ := b
  exact ⟨b1.trans a1, b2.trans a2, b3.trans a3, b4.trans a4, b5.trans a5, b6.trans a6, b7.trans a7, b8.trans a8, b9.trans a9,
    b10.trans a10, b11.trans a11, b12.trans a12⟩

theorem putLane_same (g0 : Group) (f : BitVec 7) (name : Nat) (vals : Lanes) (h : Group) (i : Nat) :
    SameButLanes h (putLane g0 f name vals h i) := by
  unfold putLane
  dsimp only
  split
  · exact ⟨rfl, rfl, rfl, rfl, rfl, rfl, rfl, rfl, rfl, rfl, rfl, rfl⟩
  · exact SameButLanes.rfl' h

theorem putLanes_same (g0 : Group) (f : BitVec 7) (name : Nat) (vals : Lanes) (l : List Nat) :
    ∀ h, SameButLanes h (l.foldl (putLane g0 f name vals) h) := by
  induction l with
  | nil => intro h; exact SameButLanes.rfl' h
  | cons i r ih => intro h; exact (putLane_same g0 f name vals h i).trans (ih _)

/-- A lane that no element of the list writes keeps its content. -/
theorem putLanes_other (g0 : Group) (f : BitVec 7) (name name' : Nat) (vals : Lanes) (j : Nat) (hj : j < 32) (l : List Nat)
    (hl : ∀ i ∈ l, name' = name → fieldLane g0 f i = j → False) :
    ∀ h, laneIn (l.foldl (putLane g0 f name vals) h) name' j = laneIn h name' j := by
  induction l with
  | nil => intro h; rfl
  | cons i r ih =>
    intro h
    rw [List.foldl_cons, ih (fun x hx => hl x (List.mem_cons_of_mem _ hx))]
    unfold putLane
    dsimp only
    split
    · rename_i hlt
      rw [laneIn_writeLane _ _ _ _ _ _ (Nat.lt_of_lt_of_le hlt (Nat.min_le_left _ _)) hj, if_neg]
      rintro ⟨h1, h2⟩
      exact hl i (List.mem_cons_self ..) h1 h2.symm
    · rfl

/-- The last element that writes a lane decides it. -/
theorem putLanes_last (g0 : Group) (f : BitVec 7) (name : Nat) (vals : Lanes) (i : Nat) (l : List Nat) (hi : i ∈ l)
    (hlt : fieldLane g0 f i < Nat.min 32 (4 * g0.nquad)) (hs : l.Pairwise (· < ·))
    (hl : ∀ x ∈ l, i < x → fieldLane g0 f x ≠ fieldLane g0 f i) :
    ∀ h, laneIn (l.foldl (putLane g0 f name vals) h) name (fieldLane g0 f i) = laneVal vals i := by
  induction l with
  | nil => cases hi
  | cons x r ih =>
    intro h
    rw [List.foldl_cons]
    rw [List.pairwise_cons] at hs
    have h32 : fieldLane g0 f i < 32 := Nat.lt_of_lt_of_le hlt (Nat.min_le_left _ _)
    rcases List.mem_cons.mp hi with rfl | hr
    · rw [putLanes_other g0 f name name vals _ h32 r
        (fun y hy _ he => hl y (List.mem_cons_of_mem _ hy) (hs.1 y hy) he)]
      unfold putLane
      dsimp only
      rw [if_pos hlt, laneIn_writeLane _ _ _ _ _ _ h32 h32]
      simp
    · exact ih hr hs.2 (fun y hy => hl y (List.mem_cons_of_mem _ hy)) _

theorem activeLanes_sorted (s : State) : (activeLanes s).Pairwise (· < ·) := by
  unfold activeLanes upTo
  exact List.Pairwise.filter _ List.pairwise_lt_range

theorem activeLanes_lt {s : State} {i : Nat} (h : i ∈ activeLanes s) : i < 32 := by
  unfold activeLanes at h
  exact (mem_upTo 32 i).mp (List.mem_filter.mp h).1

/-! ### What one step of a lane instruction leaves as it was -/

/-- All that decides which lanes are active and where they write is the same in both states. -/
structure SameLanes (s t : State) : Prop where
  cur   : t.cur = s.cur
  clock : t.clock = s.clock
  quads : (curGroup t).quads = (curGroup s).quads
  nquad : (curGroup t).nquad = (curGroup s).nquad
  wb    : (curGroup t).regs.wb = (curGroup s).regs.wb
  lps   : (curGroup t).regs.lps = (curGroup s).regs.lps
  pred  : ∀ p, readPred (curGroup t) t.clock p = readPred (curGroup s) s.clock p

theorem SameLanes.refl (s : State) : SameLanes s s := ⟨rfl, rfl, rfl, rfl, rfl, rfl, fun _ => rfl⟩

theorem SameLanes.trans {s t u : State} (a : SameLanes s t) (b : SameLanes t u) : SameLanes s u :=
  ⟨b.cur.trans a.cur, b.clock.trans a.clock, b.quads.trans a.quads, b.nquad.trans a.nquad, b.wb.trans a.wb, b.lps.trans a.lps,
    fun p => (b.pred p).trans (a.pred p)⟩

theorem SameLanes.active {s t : State} (h : SameLanes s t) : activeLanes t = activeLanes s :=
  activeLanes_congr h.cur h.quads (h.pred _)

theorem SameLanes.field {s t : State} (h : SameLanes s t) (f : BitVec 7) (i : Nat) :
    fieldLane (curGroup t) f i = fieldLane (curGroup s) f i := by
  unfold fieldLane
  rw [h.lps]

theorem SameLanes.name {s t : State} (h : SameLanes s t) (f : BitVec 7) : nameOf (curGroup t) f = nameOf (curGroup s) f := by
  unfold nameOf
  rw [h.wb]

/-- A state that differs in the issuing group only, and there in what the active lanes do not depend on. -/
theorem sameLanes_setCur (s : State) (g : Group) (h1 : g.quads = (curGroup s).quads) (h2 : g.nquad = (curGroup s).nquad)
    (h3 : g.regs.wb = (curGroup s).regs.wb) (h4 : g.regs.lps = (curGroup s).regs.lps)
    (h5 : ∀ p, readPred g s.clock p = readPred (curGroup s) s.clock p) : SameLanes s (setCur s g) :=
  ⟨rfl, rfl, by simp [h1], by simp [h2], by simp [h3], by simp [h4], by intro p; simp [h5]⟩

theorem sameLanes_noteDead (s : State) (srcs : List Src) : SameLanes s (noteDead s srcs) := by
  unfold noteDead
  split
  · exact sameLanes_setCur s _ rfl rfl rfl rfl (fun _ => rfl)
  · exact SameLanes.refl s

theorem noteDead_lanes (s : State) (srcs : List Src) : (curGroup (noteDead s srcs)).regs = (curGroup s).regs := by
  unfold noteDead
  split
  · rw [curGroup_setCur]
    rfl
  · rfl

/-- A pending result of a lane register leaves the predicates as they read. -/
theorem readPred_pend (g : Group) (clock p name lat : Nat) (astr : Bool) (quads : List Nat) (hn : name ≤ 251) (hq : ∀ q ∈ quads, q < 8) :
    readPred { g with regs := { g.regs with pend := quads.foldl (fun m q =>
      addPending m (8 * name + q) clock lat astr (find? g.regs.lanes (8 * name + q))) g.regs.pend } } clock p = readPred g clock p := by
  unfold readPred
  split
  · rfl
  · dsimp only
    rw [pendingValue_fold name lat clock (predKey p) astr g.regs.lanes _ quads
      (fun q hx => by have := hq q hx; unfold predKey; omega)]

/-- So does an interlocked result of a lane register. -/
theorem readPred_drops (g : Group) (clock p name : Nat) (quads : List Nat) (hn : name ≤ 251) (hq : ∀ q ∈ quads, q < 8) :
    readPred { g with regs := { g.regs with pend := quads.foldl (fun m q => dropPending m (8 * name + q)) g.regs.pend } } clock p
      = readPred g clock p := by
  unfold readPred
  split
  · rfl
  · dsimp only
    rw [pendingValue_drops name clock (predKey p) _ quads (fun q hx => by have := hq q hx; unfold predKey; omega)]

theorem writeQuads_lt {s : State} {f : BitVec 7} {q : Nat} (h : q ∈ writeQuads s f) : q < 8 := by
  unfold writeQuads at h
  exact (mem_upTo 8 q).mp (List.mem_filter.mp h).1

theorem sameLanes_notePending (s : State) (name lat : Nat) (f : BitVec 7) (hn : name ≤ 251) :
    SameLanes s (notePending s name lat (writeQuads s f)) := by
  unfold notePending
  exact sameLanes_setCur s _ rfl rfl rfl rfl (fun p => readPred_pend _ _ _ _ _ _ _ hn (fun q hq => writeQuads_lt hq))

theorem sameLanes_dropPendings (s : State) (name : Nat) (f : BitVec 7) (hn : name ≤ 251) :
    SameLanes s (dropPendings s name (writeQuads s f)) := by
  unfold dropPendings
  exact sameLanes_setCur s _ rfl rfl rfl rfl (fun p => readPred_drops _ _ _ _ _ hn (fun q hq => writeQuads_lt hq))

theorem dropPendings_lanes (s : State) (name : Nat) (quads : List Nat) :
    (curGroup (dropPendings s name quads)).regs.lanes = (curGroup s).regs.lanes := by
  unfold dropPendings
  simp

theorem notePending_lanes (s : State) (name lat : Nat) (quads : List Nat) :
    (curGroup (notePending s name lat quads)).regs.lanes = (curGroup s).regs.lanes := by
  unfold notePending
  simp

/-- The state that writeName writes its lanes in. -/
def beforeWrite (s : State) (f : BitVec 7) (k lat : Nat) : State :=
  if lat = 0 then dropPendings s (nameOf (curGroup s) f + k) (writeQuads s f)
  else notePending s (nameOf (curGroup s) f + k) lat (writeQuads s f)

theorem sameLanes_beforeWrite (s : State) (f : BitVec 7) (k lat : Nat) (hn : nameOf (curGroup s) f + k ≤ 251) :
    SameLanes s (beforeWrite s f k lat) := by
  unfold beforeWrite
  split
  · exact sameLanes_dropPendings s _ f hn
  · exact sameLanes_notePending s _ lat f hn

theorem beforeWrite_lanes (s : State) (f : BitVec 7) (k lat : Nat) :
    (curGroup (beforeWrite s f k lat)).regs.lanes = (curGroup s).regs.lanes := by
  unfold beforeWrite
  split
  · exact dropPendings_lanes s _ _
  · exact notePending_lanes s _ _ _

theorem writeName_eq (s : State) (f : BitVec 7) (k lat : Nat) (vals : Lanes) (hn : nameOf (curGroup s) f + k ≤ 251) :
    writeName s f k lat vals = setCur (beforeWrite s f k lat)
      ((activeLanes s).foldl (putLane (curGroup s) f (nameOf (curGroup s) f + k) vals) (curGroup (beforeWrite s f k lat))) := by
  have h := (sameLanes_beforeWrite s f k lat hn).active
  unfold writeName
  unfold beforeWrite at h ⊢
  dsimp only
  rw [h]
  rfl

theorem sameLanes_writeName (s : State) (f : BitVec 7) (k lat : Nat) (vals : Lanes) (hn : nameOf (curGroup s) f + k ≤ 251) :
    SameLanes s (writeName s f k lat vals) := by
  rw [writeName_eq s f k lat vals hn]
  refine (sameLanes_beforeWrite s f k lat hn).trans ?_
  obtain ⟨h1, h2, h3, h4, h5, h6, -⟩ := putLanes_same (curGroup s) f (nameOf (curGroup s) f + k) vals (activeLanes s)
    (curGroup (beforeWrite s f k lat))
  refine sameLanes_setCur _ _ h2 h1 h5 h6 (fun p => ?_)
  unfold readPred
  rw [h3, h4]

theorem laneOf_eq (s : State) (name j : Nat) : laneOf s name j = laneIn (curGroup s) name j := rfl

theorem laneOf_writeName_other (s : State) (f : BitVec 7) (k lat : Nat) (vals : Lanes) (name' j : Nat) (hj : j < 32)
    (hn : nameOf (curGroup s) f + k ≤ 251)
    (h : ∀ i ∈ activeLanes s, name' = nameOf (curGroup s) f + k → fieldLane (curGroup s) f i = j → False) :
    laneOf (writeName s f k lat vals) name' j = laneOf s name' j := by
  rw [laneOf_eq, writeName_eq s f k lat vals hn, curGroup_setCur, putLanes_other _ _ _ _ _ _ hj _ h]
  unfold laneIn laneOf
  rw [beforeWrite_lanes]

theorem laneOf_writeName_self (s : State) (f : BitVec 7) (k lat : Nat) (vals : Lanes) (i : Nat)
    (hn : nameOf (curGroup s) f + k ≤ 251) (h : writesLane s f i) :
    laneOf (writeName s f k lat vals) (nameOf (curGroup s) f + k) (destLane s f i) = laneVal vals i := by
  rw [laneOf_eq, writeName_eq s f k lat vals hn, curGroup_setCur]
  exact putLanes_last _ _ _ _ _ _ h.1 h.2.1 (activeLanes_sorted s) h.2.2 _

/-! ### Results of several words -/

/-- The words of a result written one after another. -/
def writeNames (f : BitVec 7) (lat : Nat) (words : List Lanes) (s : State) (ks : List Nat) : State :=
  ks.foldl (fun s k => writeName s f k lat (words.getD k [])) s

theorem sameLanes_writeNames (f : BitVec 7) (lat : Nat) (words : List Lanes) (ks : List Nat) :
    ∀ s, (∀ k ∈ ks, nameOf (curGroup s) f + k ≤ 251) → SameLanes s (writeNames f lat words s ks) := by
  induction ks with
  | nil => intro s _; exact SameLanes.refl s
  | cons k r ih =>
    intro s h
    have hk := sameLanes_writeName s f k lat (words.getD k []) (h k (List.mem_cons_self ..))
    refine hk.trans (ih _ (fun x hx => ?_))
    rw [hk.name]
    exact h x (List.mem_cons_of_mem _ hx)

theorem writeNames_other (f : BitVec 7) (lat : Nat) (words : List Lanes) (name' j : Nat) (hj : j < 32) (ks : List Nat) :
    ∀ s, (∀ k ∈ ks, nameOf (curGroup s) f + k ≤ 251) →
      (∀ i ∈ activeLanes s, ∀ k ∈ ks, name' = nameOf (curGroup s) f + k → fieldLane (curGroup s) f i = j → False) →
      laneOf (writeNames f lat words s ks) name' j = laneOf s name' j := by
  induction ks with
  | nil => intro s _ _; rfl
  | cons k r ih =>
    intro s h hk
    have hs := sameLanes_writeName s f k lat (words.getD k []) (h k (List.mem_cons_self ..))
    have h1 := ih (writeName s f k lat (words.getD k []))
      (fun x hx => by rw [hs.name]; exact h x (List.mem_cons_of_mem _ hx))
      (fun i hi x hx => by
        rw [hs.name, hs.field]
        rw [hs.active] at hi
        exact hk i hi x (List.mem_cons_of_mem _ hx))
    have h2 := laneOf_writeName_other s f k lat (words.getD k []) name' j hj (h k (List.mem_cons_self ..))
      (fun i hi => hk i hi k (List.mem_cons_self ..))
    exact h1.trans h2

theorem writeNames_self (f : BitVec 7) (lat : Nat) (words : List Lanes) (i k : Nat) (ks : List Nat) (hd : ks.Nodup)
    (hk : k ∈ ks) : ∀ s, (∀ k ∈ ks, nameOf (curGroup s) f + k ≤ 251) → writesLane s f i →
      laneOf (writeNames f lat words s ks) (nameOf (curGroup s) f + k) (destLane s f i) = laneVal (words.getD k []) i := by
  induction ks with
  | nil => cases hk
  | cons x r ih =>
    intro s h hw
    rw [List.nodup_cons] at hd
    have hs := sameLanes_writeName s f x lat (words.getD x []) (h x (List.mem_cons_self ..))
    have hr : ∀ y ∈ r, nameOf (curGroup (writeName s f x lat (words.getD x []))) f + y ≤ 251 :=
      fun y hy => by rw [hs.name]; exact h y (List.mem_cons_of_mem _ hy)
    have hw' : writesLane (writeName s f x lat (words.getD x [])) f i := by
      unfold writesLane destLane at hw ⊢
      rw [hs.active, hs.nquad]
      simp only [hs.field]
      exact hw
    have hdest : destLane (writeName s f x lat (words.getD x [])) f i = destLane s f i := hs.field f i
    have h32 : destLane s f i < 32 := Nat.lt_of_lt_of_le hw.2.1 (Nat.min_le_left _ _)
    rcases List.mem_cons.mp hk with rfl | hkr
    · have h1 := writeNames_other f lat words (nameOf (curGroup s) f + k) (destLane s f i) h32 r _ hr
        (fun y _ z hz hn _ => by
          rw [hs.name] at hn
          exact hd.1 (by rwa [show k = z by omega]))
      exact h1.trans (laneOf_writeName_self s f k lat _ i (h k (List.mem_cons_self ..)) hw)
    · have := ih hd.2 hkr _ hr hw'
      rw [hs.name, hdest] at this
      exact this

/-! ### Last-read bits, flags and retirement -/

theorem freeName_lanes (s : State) (m name j : Nat) (hj : j < 32) (h : name ≠ m) :
    laneOf (freeName s m) name j = laneOf s name j := by
  rw [laneOf_eq, laneOf_eq]
  unfold freeName
  dsimp only
  rw [curGroup_setCur]
  unfold laneIn
  have hl : ∀ (keys : List Nat), (∀ x ∈ keys, x ≠ 8 * name + j / 4) → ∀ (l : FMap QReg),
      lookup (keys.foldl eraseKey l) (8 * name + j / 4) QReg.zero = lookup l (8 * name + j / 4) QReg.zero := by
    intro keys
    induction keys with
    | nil => intros; rfl
    | cons x r ih =>
      intro hx l
      rw [List.foldl_cons, ih (fun y hy => hx y (List.mem_cons_of_mem _ hy)),
        lookup_eraseKey_ne l (Ne.symm (hx x (List.mem_cons_self ..)))]
  dsimp only
  rw [hl]
  · rfl
  intro x hx
  obtain ⟨q, hq, rfl⟩ := List.mem_map.mp hx
  have : q < 8 := by
    unfold activeQuads at hq
    have h2 := (List.mem_filter.mp hq).2
    rw [List.any_eq_true] at h2
    obtain ⟨i, hi, he⟩ := h2
    have := activeLanes_lt hi
    have : i / 4 = q := by simpa using he
    omega
  omega

theorem curGroup_freeName (s : State) (m : Nat) : (curGroup (freeName s m)).quads = (curGroup s).quads
    ∧ (curGroup (freeName s m)).regs.wb = (curGroup s).regs.wb := by
  unfold freeName
  simp [setCurRegion]

theorem freeNames_lanes (l : List Nat) (name j : Nat) (hj : j < 32) : ∀ s, name ∉ l →
    laneOf (l.foldl freeName s) name j = laneOf s name j := by
  induction l with
  | nil => intros; rfl
  | cons m r ih =>
    intro s h
    rw [List.foldl_cons, ih _ (fun hm => h (List.mem_cons_of_mem _ hm)),
      freeName_lanes s m name j hj (fun he => h (he ▸ List.mem_cons_self ..))]

theorem freeNames_quads (l : List Nat) : ∀ s, (curGroup (l.foldl freeName s)).quads = (curGroup s).quads
    ∧ (l.foldl freeName s).cur = s.cur ∧ (l.foldl freeName s).clock = s.clock := by
  induction l with
  | nil => intro s; exact ⟨rfl, rfl, rfl⟩
  | cons m r ih =>
    intro s
    obtain ⟨a, b, c⟩ := ih (freeName s m)
    exact ⟨a.trans (curGroup_freeName s m).1, b.trans rfl, c.trans rfl⟩

theorem laneOf_orFlags (s : State) (f : BitVec 5) (name j : Nat) : laneOf (orFlags s f) name j = laneOf s name j := by
  rw [laneOf_eq, laneOf_eq]
  unfold orFlags
  rw [curGroup_setCur]
  rfl

/-- Advancing the issuing quads. -/
def advanceAll (clock stall : Nat) (astr : Bool) (pc : Word) (g : Group) (qs : List Nat) : Group :=
  qs.foldl (fun g q => setQuad g q (advanceQuad clock stall astr pc (getQuad g q))) g

theorem advanceAll_rest (clock stall : Nat) (astr : Bool) (pc : Word) (qs : List Nat) : ∀ g,
    (advanceAll clock stall astr pc g qs).regs = g.regs ∧ (advanceAll clock stall astr pc g qs).spec = g.spec
      ∧ (advanceAll clock stall astr pc g qs).regions = g.regions ∧ (advanceAll clock stall astr pc g qs).nquad = g.nquad := by
  induction qs with
  | nil => intro g; exact ⟨rfl, rfl, rfl, rfl⟩
  | cons q r ih =>
    intro g
    obtain ⟨a, b, c, d⟩ := ih (setQuad g q (advanceQuad clock stall astr pc (getQuad g q)))
    exact ⟨a.trans rfl, b.trans rfl, c.trans rfl, d.trans rfl⟩

theorem advanceAll_out (clock stall : Nat) (astr : Bool) (pc : Word) (q : Nat) (qs : List Nat) (h : q ∉ qs) : ∀ g,
    getQuad (advanceAll clock stall astr pc g qs) q = getQuad g q := by
  induction qs with
  | nil => intro g; rfl
  | cons x r ih =>
    intro g
    have hx : q ≠ x := fun he => h (he ▸ List.mem_cons_self ..)
    exact (ih (fun hm => h (List.mem_cons_of_mem _ hm)) _).trans (getQuad_setQuad_ne g hx _)

theorem advanceAll_in (clock stall : Nat) (astr : Bool) (pc : Word) (q : Nat) (qs : List Nat) : q ∈ qs → ∀ g,
    (getQuad (advanceAll clock stall astr pc g qs) q).pc = pc ∧ (getQuad (advanceAll clock stall astr pc g qs) q).park = .none
      ∧ (if astr then (getQuad (advanceAll clock stall astr pc g qs) q).stallAddr
          else (getQuad (advanceAll clock stall astr pc g qs) q).stallUntil) = clock + Nat.max 1 stall := by
  induction qs with
  | nil => intro h; cases h
  | cons x r ih =>
    intro h g
    by_cases hr : q ∈ r
    · exact ih hr _
    · rcases List.mem_cons.mp h with rfl | h'
      · have := advanceAll_out clock stall astr pc q r hr (setQuad g q (advanceQuad clock stall astr pc (getQuad g q)))
        unfold advanceAll at this ⊢
        rw [List.foldl_cons, this, getQuad_setQuad]
        exact ⟨rfl, rfl, by unfold advanceQuad; cases astr <;> rfl⟩
      · exact absurd h' hr

theorem retire_group (s : State) :
    curGroup (retire s) = countSlot (advanceAll s.clock (ctlStall s) (ctlAstr s) s.cur.nextPc (curGroup s) s.cur.quads) := by
  unfold retire advanceAll
  simp

theorem countSlot_rest (g : Group) : (countSlot g).regs = g.regs ∧ (countSlot g).quads = g.quads ∧ (countSlot g).nquad = g.nquad :=
  ⟨rfl, rfl, rfl⟩

theorem laneOf_retire (s : State) (name j : Nat) : laneOf (retire s) name j = laneOf s name j := by
  rw [laneOf_eq, laneOf_eq, retire_group]
  unfold laneIn
  rw [(countSlot_rest _).1, (advanceAll_rest ..).1]

/-- Retiring a slot takes the issuing quads to the next one. -/
theorem retire_went (s : State) (q : Nat) (hq : q ∈ s.cur.quads) :
    (getQuad (curGroup (retire s)) q).pc = s.cur.nextPc ∧ (getQuad (curGroup (retire s)) q).park = .none
      ∧ (if ctlAstr s then (getQuad (curGroup (retire s)) q).stallAddr else (getQuad (curGroup (retire s)) q).stallUntil)
        = s.clock + Nat.max 1 (ctlStall s) := by
  rw [retire_group]
  exact advanceAll_in s.clock (ctlStall s) (ctlAstr s) s.cur.nextPc q s.cur.quads hq (curGroup s)

/-! ### Frames -/

theorem Keeps.refl (g : Group) : Keeps g g := ⟨rfl, rfl, fun _ => ⟨rfl, rfl, rfl, rfl⟩⟩

theorem Keeps.trans {f g h : Group} (a : Keeps f g) (b : Keeps g h) : Keeps f h := by
  refine ⟨b.rest.trans a.rest, b.held.trans a.held, fun q => ?_⟩
  obtain ⟨a1, a2, a3, a4⟩ := a.quads q
  obtain ⟨b1, b2, b3, b4⟩ := b.quads q
  exact ⟨b1.trans a1, b2.trans a2, b3.trans a3, b4.trans a4⟩

/-- A change that leaves quads and regions alone, and the rest with them. -/
theorem Keeps.of {g h : Group} (h1 : h.rest = g.rest) (h2 : h.quads = g.quads) (h3 : h.regions = g.regions) : Keeps g h :=
  ⟨h1, by unfold Group.held; rw [h3], fun q => by unfold getQuad; rw [h2]; exact ⟨rfl, rfl, rfl, rfl⟩⟩

theorem held_setCurRegion (g : Group) (r : Region) (h : r.stores = (curRegion g).stores) : (setCurRegion g r).held = g.held := by
  unfold setCurRegion Group.held
  unfold curRegion at h
  dsimp only
  rcases List.eq_nil_or_concat g.regions with hn | ⟨l, x, hx⟩
  · rw [hn] at h ⊢
    simp only [List.getLast?_nil, Option.getD_none] at h
    simp [h, startRegion]
  · rw [hx] at h ⊢
    simp only [List.concat_eq_append, List.getLast?_append, List.getLast?_singleton, Option.some_or, Option.getD_some] at h
    simp [h]

theorem keeps_setCurRegion (g : Group) (r : Region) (h : r.stores = (curRegion g).stores) : Keeps g (setCurRegion g r) :=
  ⟨rfl, held_setCurRegion g r h, fun _ => ⟨rfl, rfl, rfl, rfl⟩⟩

/-- Keeping newly raised status bits out of the pending clears leaves the held stores. -/
theorem keeps_keepRaised (g : Group) (m : BitVec 10) : Keeps g (keepRaised g m) := by
  refine ⟨rfl, ?_, fun _ => ⟨rfl, rfl, rfl, rfl⟩⟩
  unfold Group.held keepRaised
  simp [List.flatMap_map]

theorem keeps_advanceAll (clock stall : Nat) (astr : Bool) (pc : Word) (qs : List Nat) : ∀ g,
    Keeps g (advanceAll clock stall astr pc g qs) := by
  induction qs with
  | nil => intro g; exact Keeps.refl g
  | cons x r ih =>
    intro g
    have h1 : Keeps g (setQuad g x (advanceQuad clock stall astr pc (getQuad g x))) := by
      refine ⟨rfl, rfl, fun q => ?_⟩
      by_cases hq : q = x
      · subst hq
        rw [getQuad_setQuad]
        exact ⟨rfl, rfl, rfl, rfl⟩
      · rw [getQuad_setQuad_ne g hq _]
        exact ⟨rfl, rfl, rfl, rfl⟩
    exact h1.trans (ih _)

theorem keeps_countSlot (g : Group) : Keeps g (countSlot g) := by
  have h := keeps_setCurRegion g { curRegion g with slots := (curRegion g).slots + 1 } rfl
  exact h.trans (Keeps.of rfl rfl rfl)

theorem keeps_retire (s : State) : Keeps (curGroup s) (curGroup (retire s)) := by
  rw [retire_group]
  exact (keeps_advanceAll ..).trans (keeps_countSlot _)

theorem setCur_setCur (s : State) (g h : Group) : setCur (setCur s g) h = setCur s h := by
  have hi : ∀ {α : Type} (m : FMap α) (k : Nat) (a b : α), insertKey (insertKey m k a) k b = insertKey m k b := by
    intro α m k a b
    induction m with
    | nil => simp [insertKey]
    | cons e r ih =>
      obtain ⟨j, w⟩ := e
      by_cases h1 : k < j
      · simp [insertKey, h1]
      · by_cases h2 : j = k
        · simp [insertKey, h2]
        · simp [insertKey, h1, h2, ih]
  simp [setCur, setGroup, setCore, getCore, lookup_insertKey_self, hi]

/-- A change of the issuing group only is a frame. -/
theorem IssuerOnly.put (s : State) (g : Group) (h : Keeps (curGroup s) g) : IssuerOnly s (setCur s g) := by
  have hc : ∀ c, (getCore (setCur s g) c).scratch = (getCore s c).scratch ∧ (getCore (setCur s g) c).weights = (getCore s c).weights
      ∧ (getCore (setCur s g) c).reserve = (getCore s c).reserve ∧ (getCore (setCur s g) c).teams = (getCore s c).teams := by
    intro c
    by_cases h : c = s.cur.core
    · subst h
      simp [setCur, setGroup]
    · have : getCore (setCur s g) c = getCore s c := getCore_setCore_ne s h _
      rw [this]
      exact ⟨rfl, rfl, rfl, rfl⟩
  refine ⟨⟨fun _ => ⟨rfl, rfl⟩, rfl, ⟨rfl, rfl, rfl⟩, fun c a => ?_, fun c a => ?_, fun c a => ?_, rfl, ⟨rfl, rfl, rfl, rfl⟩, fun c => (hc c).2.2.2⟩,
    ⟨fun c x hx => ?_, rfl⟩, ?_⟩
  · rw [(hc c).1]
  · rw [(hc c).2.1]
  · rw [(hc c).2.2.1]
  · by_cases h : c = s.cur.core
    · subst h
      exact getGroup_setGroup_ne s _ (hx.resolve_left (fun h => h rfl)) g
    · show lookup (getCore (setCur s g) c).groups x _ = _
      rw [show getCore (setCur s g) c = getCore s c from getCore_setCore_ne s h _]
      rfl
  · rw [curGroup_setCur]
    exact h

/-- The state with another issuing group that keeps the rest. -/
def OneGroup (s t : State) : Prop := ∃ g, t = setCur s g ∧ Keeps (curGroup s) g

theorem OneGroup.trans {s t u : State} (a : OneGroup s t) (b : OneGroup t u) : OneGroup s u := by
  obtain ⟨g, rfl, a⟩ := a
  obtain ⟨h, rfl, b⟩ := b
  rw [curGroup_setCur] at b
  exact ⟨h, setCur_setCur s g h, a.trans b⟩

theorem OneGroup.frame {s t : State} (h : OneGroup s t) : IssuerOnly s t := by
  obtain ⟨g, rfl, h⟩ := h
  exact IssuerOnly.put s g h

/-- The state itself, or one change of the issuing group. -/
def AtMostGroup (s t : State) : Prop := t = s ∨ OneGroup s t

theorem AtMostGroup.trans {s t u : State} (a : AtMostGroup s t) (b : AtMostGroup t u) : AtMostGroup s u := by
  rcases a with rfl | a
  · exact b
  · rcases b with rfl | b
    · exact .inr a
    · exact .inr (a.trans b)

theorem AtMostGroup.put (s : State) (g : Group) (h : Keeps (curGroup s) g) : AtMostGroup s (setCur s g) := .inr ⟨g, rfl, h⟩

theorem atMostGroup_fold {α : Type} (f : State → α → State) (l : List α) (h : ∀ s, ∀ x ∈ l, AtMostGroup s (f s x)) :
    ∀ s, AtMostGroup s (l.foldl f s) := by
  induction l with
  | nil => intro s; exact .inl rfl
  | cons x r ih =>
    intro s
    exact (h s x (List.mem_cons_self ..)).trans (ih (fun s x hx => h s x (List.mem_cons_of_mem _ hx)) _)

theorem atMost_noteDead (s : State) (srcs : List Src) : AtMostGroup s (noteDead s srcs) := by
  unfold noteDead
  split
  · refine AtMostGroup.put s _ (Keeps.trans ?_ (keeps_keepRaised _ _))
    exact Keeps.of rfl rfl rfl
  · exact .inl rfl

theorem atMost_beforeWrite (s : State) (f : BitVec 7) (k lat : Nat) : AtMostGroup s (beforeWrite s f k lat) := by
  unfold beforeWrite
  split <;> exact AtMostGroup.put s _ (Keeps.of rfl rfl rfl)

theorem keeps_putLanes (g0 : Group) (f : BitVec 7) (name : Nat) (vals : Lanes) (l : List Nat) :
    ∀ h, Keeps h (l.foldl (putLane g0 f name vals) h) := by
  induction l with
  | nil => intro h; exact Keeps.refl h
  | cons i r ih =>
    intro h
    refine Keeps.trans ?_ (ih _)
    unfold putLane
    dsimp only
    split
    · unfold writeLane
      dsimp only
      split <;> exact Keeps.of rfl rfl rfl
    · exact Keeps.refl h

theorem atMost_writeName (s : State) (f : BitVec 7) (k lat : Nat) (vals : Lanes) (hn : nameOf (curGroup s) f + k ≤ 251) :
    AtMostGroup s (writeName s f k lat vals) := by
  rw [writeName_eq s f k lat vals hn]
  exact (atMost_beforeWrite s f k lat).trans (AtMostGroup.put _ _ (keeps_putLanes ..))

theorem atMost_writeNames (f : BitVec 7) (lat : Nat) (words : List Lanes) (ks : List Nat) :
    ∀ s, (∀ k ∈ ks, nameOf (curGroup s) f + k ≤ 251) → AtMostGroup s (writeNames f lat words s ks) := by
  induction ks with
  | nil => intro s _; exact .inl rfl
  | cons k r ih =>
    intro s h
    have hk := h k (List.mem_cons_self ..)
    have hs := sameLanes_writeName s f k lat (words.getD k []) hk
    exact (atMost_writeName s f k lat _ hk).trans
      (ih _ (fun x hx => by rw [hs.name]; exact h x (List.mem_cons_of_mem _ hx)))

theorem atMost_freeName (s : State) (m : Nat) : AtMostGroup s (freeName s m) := by
  unfold freeName
  refine AtMostGroup.put s _ ?_
  dsimp only
  generalize hr : ({ curRegion (curGroup s) with freed := _ } : Region) = r
  have h : r.stores = (curRegion (curGroup s)).stores := by rw [← hr]
  exact ⟨rfl, held_setCurRegion (curGroup s) r h, fun _ => ⟨rfl, rfl, rfl, rfl⟩⟩

theorem atMost_applyLast (s : State) (o : OpInfo) (na nb : Nat) (w : List Nat) : AtMostGroup s (applyLast s o na nb w) := by
  unfold applyLast
  exact atMostGroup_fold freeName _ (fun s m _ => atMost_freeName s m) s

theorem oneGroup_orFlags (s : State) (f : BitVec 5) : OneGroup s (orFlags s f) := by
  refine ⟨_, rfl, Keeps.trans ?_ (keeps_keepRaised _ _)⟩
  exact Keeps.of rfl rfl rfl

theorem oneGroup_retire (s : State) : OneGroup s (retire s) := by
  have h : retire s = setCur s (countSlot (advanceAll s.clock (ctlStall s) (ctlAstr s) s.cur.nextPc (curGroup s) s.cur.quads)) := rfl
  exact ⟨_, h, (keeps_advanceAll ..).trans (keeps_countSlot _)⟩

/-! ### What a lane result leaves alone in the issuing group -/

/-- The predicates and the uniform registers are as they were. -/
def SamePU (s t : State) : Prop :=
  (curGroup t).regs.preds = (curGroup s).regs.preds ∧ (curGroup t).regs.unif = (curGroup s).regs.unif

theorem SamePU.trans {s t u : State} (a : SamePU s t) (b : SamePU t u) : SamePU s u := ⟨b.1.trans a.1, b.2.trans a.2⟩

theorem samePU_noteDead (s : State) (srcs : List Src) : SamePU s (noteDead s srcs) := by
  unfold SamePU
  rw [noteDead_lanes]
  exact ⟨rfl, rfl⟩

theorem samePU_writeName (s : State) (f : BitVec 7) (k lat : Nat) (vals : Lanes) (hn : nameOf (curGroup s) f + k ≤ 251) :
    SamePU s (writeName s f k lat vals) := by
  rw [writeName_eq s f k lat vals hn]
  obtain ⟨-, -, -, h4, -, -, -, -, -, -, h11, -⟩ := putLanes_same (curGroup s) f (nameOf (curGroup s) f + k) vals
    (activeLanes s) (curGroup (beforeWrite s f k lat))
  unfold SamePU
  rw [curGroup_setCur, h4, h11]
  unfold beforeWrite dropPendings notePending
  split <;> (rw [curGroup_setCur]; exact ⟨rfl, rfl⟩)

theorem samePU_writeNames (f : BitVec 7) (lat : Nat) (words : List Lanes) (ks : List Nat) :
    ∀ s, (∀ k ∈ ks, nameOf (curGroup s) f + k ≤ 251) → SamePU s (writeNames f lat words s ks) := by
  induction ks with
  | nil => intro s _; exact ⟨rfl, rfl⟩
  | cons k r ih =>
    intro s h
    have hk := h k (List.mem_cons_self ..)
    have hs := sameLanes_writeName s f k lat (words.getD k []) hk
    exact (samePU_writeName s f k lat _ hk).trans
      (ih _ (fun x hx => by rw [hs.name]; exact h x (List.mem_cons_of_mem _ hx)))

theorem samePU_freeNames (l : List Nat) : ∀ s, SamePU s (l.foldl freeName s) := by
  induction l with
  | nil => intro s; exact ⟨rfl, rfl⟩
  | cons m r ih =>
    intro s
    refine SamePU.trans ?_ (ih (freeName s m))
    unfold SamePU freeName
    rw [curGroup_setCur]
    exact ⟨rfl, rfl⟩

theorem samePU_retire (s : State) : SamePU s (retire s) := by
  unfold SamePU
  rw [retire_group]
  have h : (countSlot (advanceAll s.clock (ctlStall s) (ctlAstr s) s.cur.nextPc (curGroup s) s.cur.quads)).regs = (curGroup s).regs :=
    (countSlot_rest _).1.trans (advanceAll_rest ..).1
  rw [h]
  exact ⟨rfl, rfl⟩

/-! ### Small facts of the parts -/

theorem applyLast_names {s t : State} (h : SameLanes s t) (o : OpInfo) (na nb : Nat) (w : List Nat) (name j : Nat) (hj : j < 32)
    (hl : name ∉ lastNames s o na nb w) : laneOf (applyLast t o na nb w) name j = laneOf t name j := by
  unfold applyLast
  refine freeNames_lanes _ name j hj t (fun hm => hl ?_)
  have hm := List.mem_eraseDups.mp hm
  unfold lastNames
  have hf : ∀ f m, fieldNames (curGroup t) f m = fieldNames (curGroup s) f m := by
    intro f m
    unfold fieldNames
    simp only [h.name]
  unfold ctlLastA ctlLastB at hm ⊢
  rw [h.cur, hf, hf] at hm
  exact hm

/-- A name that the slot writes is not freed. -/
theorem written_not_last (s : State) (o : OpInfo) (na nb : Nat) (d : BitVec 7) (n k : Nat) (hk : k < n) :
    nameOf (curGroup s) d + k ∉ lastNames s o na nb (destNames s d n) := by
  intro hm
  unfold lastNames at hm
  have := (List.mem_filter.mp hm).2
  simp only [Bool.not_eq_true', List.contains_eq_mem, decide_eq_false_iff_not] at this
  exact this (List.mem_map.mpr ⟨k, (mem_upTo n k).mpr hk, rfl⟩)

theorem applyLast_rest (s : State) (o : OpInfo) (na nb : Nat) (w : List Nat) :
    (curGroup (applyLast s o na nb w)).quads = (curGroup s).quads ∧ (applyLast s o na nb w).cur = s.cur
      ∧ (applyLast s o na nb w).clock = s.clock := by
  unfold applyLast
  exact freeNames_quads _ s

theorem freeNames_spec (l : List Nat) : ∀ s, (curGroup (l.foldl freeName s)).spec = (curGroup s).spec := by
  induction l with
  | nil => intro s; rfl
  | cons m r ih =>
    intro s
    refine (ih (freeName s m)).trans ?_
    unfold freeName
    rw [curGroup_setCur]
    rfl

theorem writeNames_spec (f : BitVec 7) (lat : Nat) (words : List Lanes) (ks : List Nat) :
    ∀ s, (∀ k ∈ ks, nameOf (curGroup s) f + k ≤ 251) →
      (curGroup (writeNames f lat words s ks)).spec = (curGroup s).spec := by
  induction ks with
  | nil => intro s _; rfl
  | cons k r ih =>
    intro s h
    have hk := h k (List.mem_cons_self ..)
    have hs := sameLanes_writeName s f k lat (words.getD k []) hk
    refine (ih _ (fun x hx => by rw [hs.name]; exact h x (List.mem_cons_of_mem _ hx))).trans ?_
    show (curGroup (writeName s f k lat (words.getD k []))).spec = _
    rw [writeName_eq s f k lat _ hk, curGroup_setCur]
    obtain ⟨-, -, -, -, -, -, -, h8, -⟩ := putLanes_same (curGroup s) f (nameOf (curGroup s) f + k) (words.getD k [])
      (activeLanes s) (curGroup (beforeWrite s f k lat))
    rw [h8]
    unfold beforeWrite dropPendings notePending
    split <;> rw [curGroup_setCur]

theorem retire_fpflags (s : State) : (curGroup (retire s)).spec.fpflags = (curGroup s).spec.fpflags := by
  rw [retire_group]
  show (advanceAll s.clock (ctlStall s) (ctlAstr s) s.cur.nextPc (curGroup s) s.cur.quads).spec.fpflags = _
  exact congrArg Specials.fpflags (advanceAll_rest s.clock (ctlStall s) (ctlAstr s) s.cur.nextPc s.cur.quads (curGroup s)).2.1

theorem noteDead_fpflags (s : State) (srcs : List Src) :
    (curGroup (noteDead s srcs)).spec.fpflags = (curGroup s).spec.fpflags := by
  unfold noteDead
  split
  · rw [curGroup_setCur]
    rfl
  · rfl

theorem streamSources_none (s : State) (srcs : List Src) (h : noStreams srcs = true) : streamSources s srcs = .ok ([], s) := by
  unfold noStreams at h
  unfold streamSources
  rw [List.isEmpty_iff.mp h]
  cases isLane s <;> simp [List.eraseDups_nil, streamWords, enterUnit, gather, worstAbort]

theorem dst_names_le {s : State} {d : BitVec 7} {n : Nat} (h : dstRange s d n = false) (hr : isStream d = false) :
    ∀ k ∈ upTo n, nameOf (curGroup s) d + k ≤ 251 := by
  intro k hk
  have hk := (mem_upTo n k).mp hk
  unfold dstRange at h
  simp only [hr, Bool.false_and, Bool.not_false, Bool.true_and, Bool.false_or, decide_eq_false_iff_not, Nat.not_lt] at h
  unfold lastName at h
  split at h <;> omega

/-- The checks of a slot's sources: the waits, then the class of lowest priority. -/
theorem checkReady_ok {s : State} {srcs : List Src} {keys : List Nat} (h : checkReady s srcs keys = .ok ()) :
    checkWait s srcs = .ok () ∧ checkUnder s srcs keys = .ok () := by
  unfold checkReady at h
  split at h
  · cases h
  · exact ⟨by assumption, h⟩

/-! ### The whole instruction -/

/-- The state after a lane result, before it retires: the words in place, last-read names freed, the flags raised. -/
def laneEffect (s : State) (o : OpInfo) (srcs : List Src) (na nb : Nat) (d : BitVec 7) (n lat : Nat) (words : List Lanes)
    (flags : BitVec 5) : State :=
  orFlags (applyLast (writeNames d lat words (noteDead s srcs) (upTo n)) o na nb (destNames s d n)) flags

theorem laneEffect_cur {s : State} {d : BitVec 7} {n : Nat} (hn : ∀ k ∈ upTo n, nameOf (curGroup s) d + k ≤ 251)
    (o : OpInfo) (srcs : List Src) (na nb lat : Nat) (words : List Lanes) (flags : BitVec 5) :
    (laneEffect s o srcs na nb d n lat words flags).cur = s.cur
      ∧ (laneEffect s o srcs na nb d n lat words flags).clock = s.clock := by
  have h0 := sameLanes_noteDead s srcs
  have hn0 : ∀ k ∈ upTo n, nameOf (curGroup (noteDead s srcs)) d + k ≤ 251 := fun k hk => by rw [h0.name]; exact hn k hk
  have h2 := h0.trans (sameLanes_writeNames d lat words (upTo n) (noteDead s srcs) hn0)
  unfold laneEffect
  exact ⟨(applyLast_rest _ o na nb _).2.1.trans h2.cur, (applyLast_rest _ o na nb _).2.2.trans h2.clock⟩

/-- What a lane result says, register by register. -/
theorem laneEffect_done {s : State} {d : BitVec 7} {n : Nat} (hn : ∀ k ∈ upTo n, nameOf (curGroup s) d + k ≤ 251)
    (o : OpInfo) (srcs : List Src) (na nb lat : Nat) (words : List Lanes) (flags : BitVec 5) :
    LaneDone s (retire (laneEffect s o srcs na nb d n lat words flags)) o na nb d n (fun i k => laneVal (words.getD k []) i) flags := by
  have h0 := sameLanes_noteDead s srcs
  have hn0 : ∀ k ∈ upTo n, nameOf (curGroup (noteDead s srcs)) d + k ≤ 251 := fun k hk => by rw [h0.name]; exact hn k hk
  have h1 := sameLanes_writeNames d lat words (upTo n) (noteDead s srcs) hn0
  have h2 := h0.trans h1
  have hcon : ∀ name j, laneOf (retire (laneEffect s o srcs na nb d n lat words flags)) name j
      = laneOf (applyLast (writeNames d lat words (noteDead s srcs) (upTo n)) o na nb (destNames s d n)) name j := by
    intro name j
    rw [laneOf_retire]
    unfold laneEffect
    rw [laneOf_orFlags]
  have hdead : ∀ name j, laneOf (noteDead s srcs) name j = laneOf s name j := by
    intro name j
    unfold laneOf
    rw [noteDead_lanes]
  have hpu : SamePU s (retire (laneEffect s o srcs na nb d n lat words flags)) := by
    refine SamePU.trans ?_ (samePU_retire _)
    have a : SamePU s (applyLast (writeNames d lat words (noteDead s srcs) (upTo n)) o na nb (destNames s d n)) :=
      ((samePU_noteDead s srcs).trans (samePU_writeNames d lat words (upTo n) _ hn0)).trans (samePU_freeNames _ _)
    refine a.trans ?_
    unfold laneEffect SamePU orFlags
    rw [curGroup_setCur]
    exact ⟨rfl, rfl⟩
  have hone : AtMostGroup s (retire (laneEffect s o srcs na nb d n lat words flags)) := by
    refine AtMostGroup.trans ?_ (.inr (oneGroup_retire _))
    exact (((atMost_noteDead s srcs).trans (atMost_writeNames d lat words (upTo n) _ hn0)).trans
      (atMost_applyLast _ o na nb (destNames s d n))).trans (.inr (oneGroup_orFlags _ flags))
  have hframe : IssuerOnly s (retire (laneEffect s o srcs na nb d n lat words flags)) := by
    rcases hone with h | h
    · rw [h]
      exact ⟨⟨fun _ => ⟨rfl, rfl⟩, rfl, ⟨rfl, rfl, rfl⟩, fun _ _ => rfl, fun _ _ => rfl, fun _ _ => rfl, rfl, ⟨rfl, rfl, rfl, rfl⟩, fun _ => rfl⟩,
        ⟨fun _ _ _ => rfl, rfl⟩, Keeps.refl _⟩
    · exact h.frame
  refine ⟨?_, ?_, ?_, ?_, hpu.1, hpu.2, hframe⟩
  · intro i k hw hk
    have h32 : destLane s d i < 32 := Nat.lt_of_lt_of_le hw.2.1 (Nat.min_le_left _ _)
    rw [hcon, applyLast_names h2 o na nb _ _ _ h32 (written_not_last s o na nb d n k hk)]
    have hw' : writesLane (noteDead s srcs) d i := by
      unfold writesLane destLane at hw ⊢
      rw [h0.active, h0.nquad]
      simp only [h0.field]
      exact hw
    have := writeNames_self d lat words i k (upTo n) List.nodup_range ((mem_upTo n k).mpr hk) (noteDead s srcs) hn0 hw'
    rw [h0.name, show destLane (noteDead s srcs) d i = destLane s d i from h0.field d i] at this
    exact this
  · intro name j hj hl hout
    rw [hcon, applyLast_names h2 o na nb _ name j hj hl, ← hdead name j]
    refine writeNames_other d lat words name j hj (upTo n) _ hn0 (fun i hi k hk hname hfield => ?_)
    rw [h0.active] at hi
    rw [h0.name] at hname
    rw [h0.field] at hfield
    exact hout i hi k ((mem_upTo n k).mp hk) hname hfield
  · rw [retire_fpflags]
    unfold laneEffect orFlags
    rw [curGroup_setCur]
    show _ ||| _ = _
    congr 1
    unfold applyLast
    rw [freeNames_spec, writeNames_spec d lat words (upTo n) _ hn0, noteDead_fpflags]
  · obtain ⟨hcur, hclock⟩ := laneEffect_cur hn o srcs na nb lat words flags
    intro q hq
    have := retire_went (laneEffect s o srcs na nb d n lat words flags) q (by rw [hcur]; exact hq)
    rw [hcur, hclock] at this
    have hst : ctlStall (laneEffect s o srcs na nb d n lat words flags) = ctlStall s := by unfold ctlStall; rw [hcur]
    have has : ctlAstr (laneEffect s o srcs na nb d n lat words flags) = ctlAstr s := by unfold ctlAstr; rw [hcur]
    rw [hst, has] at this
    exact this

theorem LaneDone.congr {s t : State} {o : OpInfo} {na nb : Nat} {d : BitVec 7} {n : Nat} {v w : Nat → Nat → Word} {f : BitVec 5}
    (h : LaneDone s t o na nb d n v f) (e : ∀ i < 32, ∀ k < n, v i k = w i k) : LaneDone s t o na nb d n w f :=
  ⟨fun i k hw hk => (h.wrote i k hw hk).trans (e i (activeLanes_lt hw.1) k hk), h.kept, h.flags, h.went, h.preds, h.unif, h.frame⟩

/-- A result written to lane registers that fit. -/
theorem writeDst_reg {t : State} {d : BitVec 7} {lat : Nat} {words : List Lanes} (hr : isStream d = false)
    (hp : peakBad t d words.length = false) (hc : creditShort t d words.length = false) :
    writeDst t d lat words = .ok (writeNames d lat words t (upTo words.length)) := by
  unfold writeDst
  simp only [hr, hp, hc, Bool.false_eq_true, if_false]
  rfl

theorem getD_map_upTo {α : Type} (g : Nat → α) (n i : Nat) (x : α) (hi : i < n) : ((upTo n).map g).getD i x = g i := by
  unfold upTo
  rw [List.getD_eq_getElem?_getD, List.getElem?_map, List.getElem?_range hi]
  rfl

theorem laneFlags_eq (s : State) (g : Nat → List Word × BitVec 5) :
    (activeLanes s).foldl (fun m i => m ||| (((upTo 32).map g).getD i ([], 0)).2) 0 = laneFlags s (fun i => (g i).2) := by
  unfold laneFlags
  have h : ∀ (l : List Nat), (∀ i ∈ l, i < 32) → ∀ m : BitVec 5,
      l.foldl (fun m i => m ||| (((upTo 32).map g).getD i ([], 0)).2) m = l.foldl (fun m i => m ||| (g i).2) m := by
    intro l
    induction l with
    | nil => intros; rfl
    | cons i r ih =>
      intro hl m
      have hi := hl i (List.mem_cons_self ..)
      rw [List.foldl_cons, List.foldl_cons, ih (fun x hx => hl x (List.mem_cons_of_mem _ hx))]
      rw [getD_map_upTo g 32 i _ hi]
  exact h _ (fun i hi => activeLanes_lt hi) 0

/-- laneOp once its sources are read. -/
theorem laneOp_write {s u : State} {o : OpInfo} {srcs : List Src} {d : BitVec 7} {n : Nat} {sv : StreamVals}
    (h1 : checkSlot s o = .ok ()) (h2 : srcs.any (srcRange s) = false) (h3 : dstRange s d n = false)
    (hf : streamFault s srcs o.dst = none) (h4 : streamSources s srcs = .ok (sv, u)) (h5 : Ready s o srcs) (na nb lat : Nat)
    (f : List Word → List Word × BitVec 5) {v : State}
    (h6 : writeDst (noteDead u srcs) d (lat + patLat ([d] ++ o.srcA.toList ++ o.srcB.toList))
        ((upTo n).map (fun k => (upTo 32).map (fun i => (f (operands s sv srcs i)).1.getD k 0))) = .ok v) :
    laneOp s o srcs na nb d n lat f = .ok (orFlags (applyLast v o na nb (dstNames s (some d) n))
      (laneFlags s (fun i => (f (operands s sv srcs i)).2))) := by
  unfold laneOp readSources
  simp only [h2, h3, Bool.or_false, h1, hf, h4, h5.1, h5.2, List.map_map]
  have hw : (upTo n).map (fun k => (upTo 32).map ((fun r : List Word × BitVec 5 => r.1.getD k 0) ∘
      fun i => f (laneArgs (srcs.map (srcLanes s sv)) i)))
      = (upTo n).map (fun k => (upTo 32).map (fun i => (f (operands s sv srcs i)).1.getD k 0)) := rfl
  simp only [hw, h6]
  simp only [after]
  rw [laneFlags_eq s (fun i => f (laneArgs (srcs.map (srcLanes s sv)) i))]
  rfl

/-- The words of a lane result, register operands only. -/
def laneWords (s : State) (srcs : List Src) (n : Nat) (f : List Word → List Word × BitVec 5) : List Lanes :=
  (upTo n).map (fun k => (upTo 32).map (fun i => (f (operands s [] srcs i)).1.getD k 0))

/-- A lane instruction that executes normally has its effect and nothing else. -/
theorem laneOp_runs {s : State} {o : OpInfo} {srcs : List Src} {d : BitVec 7} {n : Nat} (h : LaneRuns s o srcs d n)
    (na nb lat : Nat) (f : List Word → List Word × BitVec 5) :
    laneOp s o srcs na nb d n lat f = .ok (laneEffect s o srcs na nb d n (lat + patLat ([d] ++ o.srcA.toList ++ o.srcB.toList))
      (laneWords s srcs n f) (laneFlags s (fun i => (f (operands s [] srcs i)).2))) := by
  have hl : (laneWords s srcs n f).length = n := by simp [laneWords, upTo]
  refine (laneOp_write h.slot h.range h.dst h.flow (streamSources_none s srcs h.plain) h.ready na nb lat f
    (writeDst_reg h.reg (by simpa [upTo] using h.peak) (by simpa [upTo] using h.credit))).trans ?_
  unfold laneEffect dstNames destNames
  simp only [h.reg, Bool.false_eq_true, if_false]
  have : (upTo ((upTo n).map (fun k => (upTo 32).map (fun i => (f (operands s [] srcs i)).1.getD k 0))).length) = upTo n := by
    simp [upTo]
  rw [this]
  rfl

/-- An instruction of the lanes that executes normally has its whole effect in one step. -/
theorem laneOp_done {s : State} {o : OpInfo} {srcs : List Src} {d : BitVec 7} {n : Nat} (h : LaneRuns s o srcs d n)
    (na nb lat : Nat) (f : List Word → List Word × BitVec 5) :
    ∃ t, finish s (laneOp s o srcs na nb d n lat f) = .next t
      ∧ LaneDone s t o na nb d n (fun i k => (f (operands s [] srcs i)).1.getD k 0)
          (laneFlags s (fun i => (f (operands s [] srcs i)).2)) := by
  refine ⟨_, by rw [laneOp_runs h na nb lat f]; rfl, (laneEffect_done (dst_names_le h.dst h.reg) ..).congr ?_⟩
  intro i hi k hk
  unfold laneVal laneWords
  simp [upTo, List.getD_eq_getElem?_getD, hi, hk]

/-- The result of an instruction whose meaning is a lane operation. -/
theorem laneResult_of {i : Instr} {s : State} {o : OpInfo} {srcs : List Src} {na nb : Nat} {d : BitVec 7} {n lat : Nat}
    {f : List Word → List Word × BitVec 5} (h : exec i s = finish s (laneOp s o srcs na nb d n lat f)) :
    LaneResult i s o srcs na nb d n lat f := by
  refine ⟨fun hr => ?_, fun sv u v h1 h2 h3 hf h4 h5 h6 => ?_⟩
  · rw [h]
    exact laneOp_done hr na nb lat f
  · rw [h, laneOp_write h1 h2 h3 hf h4 h5 na nb lat f h6]
    rfl

end Sys2Proof.Machine
end

