-- ==== Sys2Proof/Laws/Calls.lean ====
section
/-!
SUPPORT. What the answer to a system call does to the group that made it (spec/16 R350, R353).
-/

namespace Sys2Proof.Machine

/-- A change of cores that keeps their numbers and groups keeps the groups of the core looked up. -/
theorem lookup_cores_groups (f : Nat × Core → Nat × Core) (h1 : ∀ e, (f e).1 = e.1) (h2 : ∀ e, (f e).2.groups = e.2.groups)
    (m : FMap Core) (c : Nat) : (lookup (m.map f) c Core.reset).groups = (lookup m c Core.reset).groups := by
  induction m with
  | nil => rfl
  | cons e r ih => simp only [List.map_cons, lookup, h1]; split <;> simp [h2, ih]

/-- An acquire leaves every group as it is (R112). -/
theorem getGroup_epochStep (s : State) (d c g : Nat) : getGroup (epochStep s d) c g = getGroup s c g := by
  unfold epochStep
  by_cases h : (getDie s d).epoch = 255
  · simp only [h, if_true]
    refine congrArg (fun m => lookup m g Group.vacant) (lookup_cores_groups _ ?_ ?_ s.cores c) <;> intro e <;> split <;> rfl
  · simp only [h, if_false]
    rfl

/-- The answer to a system call is h0 of the lane that made it, and every other lane of every name, the predicates, the uniform
registers, the capability registers, the lane-pattern registers and WB are as they were (R353). -/
theorem resolveCall_registers (s : State) (c h : Nat) (m : RecMeta) (v : Word) (hl : m.lane < 32) :
    (∀ name j, j < 32 → laneIn (getGroup (resolveCall s c h m v) c m.slot) name j
        = if name = 0 ∧ j = m.lane then v else laneIn (getGroup s c m.slot) name j)
      ∧ (getGroup (resolveCall s c h m v) c m.slot).regs.preds = (getGroup s c m.slot).regs.preds
      ∧ (getGroup (resolveCall s c h m v) c m.slot).regs.unif = (getGroup s c m.slot).regs.unif
      ∧ (getGroup (resolveCall s c h m v) c m.slot).regs.caps = (getGroup s c m.slot).regs.caps
      ∧ (getGroup (resolveCall s c h m v) c m.slot).regs.lps = (getGroup s c m.slot).regs.lps
      ∧ (getGroup (resolveCall s c h m v) c m.slot).regs.wb = (getGroup s c m.slot).regs.wb := by
  have hg : (getGroup (resolveCall s c h m v) c m.slot).regs = (writeLane (getGroup s c m.slot) 0 m.lane v).regs := by
    unfold resolveCall
    simp only []
    split
    · rw [getGroup_epochStep, getGroup_setGroup]
    · rw [getGroup_setGroup]
  refine ⟨fun name j hj => ?_, by rw [hg]; rfl, by rw [hg]; rfl, by rw [hg]; rfl, by rw [hg]; rfl, by rw [hg]; rfl⟩
  rw [show laneIn (getGroup (resolveCall s c h m v) c m.slot) name j
    = laneIn (writeLane (getGroup s c m.slot) 0 m.lane v) name j from by unfold laneIn; rw [hg]]
  exact laneIn_writeLane _ _ _ _ _ _ hl hj

end Sys2Proof.Machine
end

