-- ==== Sys2Proof/Laws/PerInstr.lean ====
section
/-!
SUPPORT. One lemma per instruction: the encoder gives a word to exactly the instructions that have one (spec/08 Table 8-1); the
steps of spec/95 have none.
-/

namespace Sys2Proof.Laws.Words

/-- The encoder gives the instruction a word if and only if its constructor stands for one. -/
def Statement (i : Instr) : Prop := (encode i).isSome = i.hasWord

theorem nop : Statement .nop := rfl
theorem add : ∀ x0 x1 x2, Statement (.add x0 x1 x2) := fun _ _ _ => rfl
theorem sub : ∀ x0 x1 x2, Statement (.sub x0 x1 x2) := fun _ _ _ => rfl
theorem addi : ∀ x0 x1 x2, Statement (.addi x0 x1 x2) := fun _ _ _ => rfl
theorem mul : ∀ x0 x1 x2, Statement (.mul x0 x1 x2) := fun _ _ _ => rfl
theorem mulhi : ∀ x0 x1 x2 x3, Statement (.mulhi x0 x1 x2 x3) := fun _ _ _ _ => rfl
theorem mad : ∀ x0 x1 x2, Statement (.mad x0 x1 x2) := fun _ _ _ => rfl
theorem min : ∀ x0 x1 x2 x3, Statement (.min x0 x1 x2 x3) := fun _ _ _ _ => rfl
theorem max : ∀ x0 x1 x2 x3, Statement (.max x0 x1 x2 x3) := fun _ _ _ _ => rfl
theorem abs : ∀ x0 x1, Statement (.abs x0 x1) := fun _ _ => rfl
theorem absdiff : ∀ x0 x1 x2 x3, Statement (.absdiff x0 x1 x2 x3) := fun _ _ _ _ => rfl
theorem and : ∀ x0 x1 x2, Statement (.and x0 x1 x2) := fun _ _ _ => rfl
theorem or : ∀ x0 x1 x2, Statement (.or x0 x1 x2) := fun _ _ _ => rfl
theorem xor : ∀ x0 x1 x2, Statement (.xor x0 x1 x2) := fun _ _ _ => rfl
theorem andn : ∀ x0 x1 x2, Statement (.andn x0 x1 x2) := fun _ _ _ => rfl
theorem shl : ∀ x0 x1 x2, Statement (.shl x0 x1 x2) := fun _ _ _ => rfl
theorem shr : ∀ x0 x1 x2, Statement (.shr x0 x1 x2) := fun _ _ _ => rfl
theorem sar : ∀ x0 x1 x2, Statement (.sar x0 x1 x2) := fun _ _ _ => rfl
theorem rol : ∀ x0 x1 x2, Statement (.rol x0 x1 x2) := fun _ _ _ => rfl
theorem shi : ∀ x0 x1 x2 x3, Statement (.shi x0 x1 x2 x3) := fun _ _ _ _ => rfl
theorem clz : ∀ x0 x1, Statement (.clz x0 x1) := fun _ _ => rfl
theorem popc : ∀ x0 x1, Statement (.popc x0 x1) := fun _ _ => rfl
theorem brev : ∀ x0 x1, Statement (.brev x0 x1) := fun _ _ => rfl
theorem bfx : ∀ x0 x1 x2 x3, Statement (.bfx x0 x1 x2 x3) := fun _ _ _ _ => rfl
theorem bfi : ∀ x0 x1 x2, Statement (.bfi x0 x1 x2) := fun _ _ _ => rfl
theorem sel : ∀ x0 x1 x2 x3, Statement (.sel x0 x1 x2 x3) := fun _ _ _ _ => rfl
theorem lea : ∀ x0 x1 x2 x3, Statement (.lea x0 x1 x2 x3) := fun _ _ _ _ => rfl
theorem add64 : ∀ x0 x1 x2, Statement (.add64 x0 x1 x2) := fun _ _ _ => rfl
theorem sub64 : ∀ x0 x1 x2, Statement (.sub64 x0 x1 x2) := fun _ _ _ => rfl
theorem sh64 : ∀ x0 x1 x2 x3, Statement (.sh64 x0 x1 x2 x3) := fun _ _ _ _ => rfl
theorem mov : ∀ x0 x1, Statement (.mov x0 x1) := fun _ _ => rfl
theorem movi : ∀ x0 x1, Statement (.movi x0 x1) := fun _ _ => rfl
theorem fadd : ∀ x0 x1 x2 x3 x4, Statement (.fadd x0 x1 x2 x3 x4) := fun _ _ _ _ _ => rfl
theorem fmul : ∀ x0 x1 x2 x3 x4, Statement (.fmul x0 x1 x2 x3 x4) := fun _ _ _ _ _ => rfl
theorem fma : ∀ x0 x1 x2 x3 x4, Statement (.fma x0 x1 x2 x3 x4) := fun _ _ _ _ _ => rfl
theorem fmin : ∀ x0 x1 x2, Statement (.fmin x0 x1 x2) := fun _ _ _ => rfl
theorem fmax : ∀ x0 x1 x2, Statement (.fmax x0 x1 x2) := fun _ _ _ => rfl
theorem fsgn : ∀ x0 x1 x2 x3, Statement (.fsgn x0 x1 x2 x3) := fun _ _ _ _ => rfl
theorem frnd : ∀ x0 x1 x2, Statement (.frnd x0 x1 x2) := fun _ _ _ => rfl
theorem fclass : ∀ x0 x1, Statement (.fclass x0 x1) := fun _ _ => rfl
theorem fdiv : ∀ x0 x1 x2, Statement (.fdiv x0 x1 x2) := fun _ _ _ => rfl
theorem fsqrt : ∀ x0 x1, Statement (.fsqrt x0 x1) := fun _ _ => rfl
theorem frcp : ∀ x0 x1, Statement (.frcp x0 x1) := fun _ _ => rfl
theorem frsq : ∀ x0 x1, Statement (.frsq x0 x1) := fun _ _ => rfl
theorem fex2 : ∀ x0 x1, Statement (.fex2 x0 x1) := fun _ _ => rfl
theorem flg2 : ∀ x0 x1, Statement (.flg2 x0 x1) := fun _ _ => rfl
theorem fsinpi : ∀ x0 x1, Statement (.fsinpi x0 x1) := fun _ _ => rfl
theorem fcospi : ∀ x0 x1, Statement (.fcospi x0 x1) := fun _ _ => rfl
theorem hadd2 : ∀ x0 x1 x2 x3, Statement (.hadd2 x0 x1 x2 x3) := fun _ _ _ _ => rfl
theorem hmul2 : ∀ x0 x1 x2 x3, Statement (.hmul2 x0 x1 x2 x3) := fun _ _ _ _ => rfl
theorem hfma2 : ∀ x0 x1 x2 x3, Statement (.hfma2 x0 x1 x2 x3) := fun _ _ _ _ => rfl
theorem hmin2 : ∀ x0 x1 x2 x3, Statement (.hmin2 x0 x1 x2 x3) := fun _ _ _ _ => rfl
theorem hmax2 : ∀ x0 x1 x2 x3, Statement (.hmax2 x0 x1 x2 x3) := fun _ _ _ _ => rfl
theorem cvti2f : ∀ x0 x1 x2 x3, Statement (.cvti2f x0 x1 x2 x3) := fun _ _ _ _ => rfl
theorem cvtf2i : ∀ x0 x1 x2 x3, Statement (.cvtf2i x0 x1 x2 x3) := fun _ _ _ _ => rfl
theorem cvtpk16 : ∀ x0 x1 x2 x3, Statement (.cvtpk16 x0 x1 x2 x3) := fun _ _ _ _ => rfl
theorem cvtup16 : ∀ x0 x1 x2 x3, Statement (.cvtup16 x0 x1 x2 x3) := fun _ _ _ _ => rfl
theorem cvtpk8 : ∀ x0 x1 x2 x3 x4, Statement (.cvtpk8 x0 x1 x2 x3 x4) := fun _ _ _ _ _ => rfl
theorem cvtup8 : ∀ x0 x1 x2, Statement (.cvtup8 x0 x1 x2) := fun _ _ _ => rfl
theorem qscal : ∀ x0 x1 x2 x3, Statement (.qscal x0 x1 x2 x3) := fun _ _ _ _ => rfl
theorem qenc : ∀ x0 x1 x2 x3 x4, Statement (.qenc x0 x1 x2 x3 x4) := fun _ _ _ _ _ => rfl
theorem qdec : ∀ x0 x1 x2 x3, Statement (.qdec x0 x1 x2 x3) := fun _ _ _ _ => rfl
theorem fclamp : ∀ x0 x1 x2, Statement (.fclamp x0 x1 x2) := fun _ _ _ => rfl
theorem icmp : ∀ x0 x1 x2 x3 x4, Statement (.icmp x0 x1 x2 x3 x4) := fun _ _ _ _ _ => rfl
theorem icmpi : ∀ x0 x1 x2 x3 x4, Statement (.icmpi x0 x1 x2 x3 x4) := fun _ _ _ _ _ => rfl
theorem fcmp : ∀ x0 x1 x2 x3 x4, Statement (.fcmp x0 x1 x2 x3 x4) := fun _ _ _ _ _ => rfl
theorem plog : ∀ x0 x1 x2 x3 x4, Statement (.plog x0 x1 x2 x3 x4) := fun _ _ _ _ _ => rfl
theorem vote : ∀ x0 x1 x2 x3, Statement (.vote x0 x1 x2 x3) := fun _ _ _ _ => rfl
theorem ballot : ∀ x0 x1, Statement (.ballot x0 x1) := fun _ _ => rfl
theorem ptoi : ∀ x0 x1, Statement (.ptoi x0 x1) := fun _ _ => rfl
theorem itop : ∀ x0 x1 x2, Statement (.itop x0 x1 x2) := fun _ _ _ => rfl
theorem matchAny : ∀ x0 x1, Statement (.matchAny x0 x1) := fun _ _ => rfl
theorem perm : ∀ x0 x1 x2, Statement (.perm x0 x1 x2) := fun _ _ _ => rfl
theorem setlp : ∀ x0 x1, Statement (.setlp x0 x1) := fun _ _ => rfl
theorem redux : ∀ x0 x1 x2, Statement (.redux x0 x1 x2) := fun _ _ _ => rfl
theorem vget : ∀ x0 x1 x2, Statement (.vget x0 x1 x2) := fun _ _ _ => rfl
theorem vbcast : ∀ x0 x1, Statement (.vbcast x0 x1) := fun _ _ => rfl
theorem rds : ∀ x0 x1, Statement (.rds x0 x1) := fun _ _ => rfl
theorem wbase : ∀ x0, Statement (.wbase x0) := fun _ => rfl
theorem dcw : ∀ x0, Statement (.dcw x0) := fun _ => rfl
theorem scan : ∀ x0 x1 x2, Statement (.scan x0 x1 x2) := fun _ _ _ => rfl
theorem br : ∀ x0 x1 x2, Statement (.br x0 x1 x2) := fun _ _ _ => rfl
theorem brx : ∀ x0 x1, Statement (.brx x0 x1) := fun _ _ => rfl
theorem call : ∀ x0 x1, Statement (.call x0 x1) := fun _ _ => rfl
theorem ret : Statement .ret := rfl
theorem join : Statement .join := rfl
theorem regang : Statement .regang := rfl
theorem exit : Statement .exit := rfl
theorem yield : Statement .yield := rfl
theorem region : Statement .region := rfl
theorem trigger : Statement .trigger := rfl
theorem usig : ∀ x0 x1 x2, Statement (.usig x0 x1 x2) := fun _ _ _ => rfl
theorem uhnd : ∀ x0, Statement (.uhnd x0) := fun _ => rfl
theorem uret : Statement .uret := rfl
theorem ld : ∀ x0 x1 x2 x3 x4, Statement (.ld x0 x1 x2 x3 x4) := fun _ _ _ _ _ => rfl
theorem ldAcq : ∀ x0 x1 x2 x3 x4 x5 x6, Statement (.ldAcq x0 x1 x2 x3 x4 x5 x6) := fun _ _ _ _ _ _ _ => rfl
theorem st : ∀ x0 x1 x2 x3 x4, Statement (.st x0 x1 x2 x3 x4) := fun _ _ _ _ _ => rfl
theorem stRel : ∀ x0 x1 x2 x3 x4 x5 x6, Statement (.stRel x0 x1 x2 x3 x4 x5 x6) := fun _ _ _ _ _ _ _ => rfl
theorem ldk : ∀ x0 x1 x2 x3, Statement (.ldk x0 x1 x2 x3) := fun _ _ _ _ => rfl
theorem stk : ∀ x0 x1 x2 x3, Statement (.stk x0 x1 x2 x3) := fun _ _ _ _ => rfl
theorem cnarrow : ∀ x0 x1 x2, Statement (.cnarrow x0 x1 x2) := fun _ _ _ => rfl
theorem crights : ∀ x0 x1 x2, Statement (.crights x0 x1 x2) := fun _ _ _ => rfl
theorem cget : ∀ x0 x1 x2, Statement (.cget x0 x1 x2) := fun _ _ _ => rfl
theorem ctest : ∀ x0 x1 x2 x3, Statement (.ctest x0 x1 x2 x3) := fun _ _ _ _ => rfl
theorem atom : ∀ x0 x1 x2 x3 x4, Statement (.atom x0 x1 x2 x3 x4) := fun _ _ _ _ _ => rfl
theorem atomb : ∀ x0 x1 x2 x3 x4, Statement (.atomb x0 x1 x2 x3 x4) := fun _ _ _ _ _ => rfl
theorem ared : ∀ x0 x1 x2 x3 x4, Statement (.ared x0 x1 x2 x3 x4) := fun _ _ _ _ _ => rfl
theorem fatom : ∀ x0 x1 x2 x3 x4, Statement (.fatom x0 x1 x2 x3 x4) := fun _ _ _ _ _ => rfl
theorem fred : ∀ x0 x1 x2 x3, Statement (.fred x0 x1 x2 x3) := fun _ _ _ _ => rfl
theorem fence : ∀ x0 x1, Statement (.fence x0 x1) := fun _ _ => rfl
theorem pref : ∀ x0 x1 x2, Statement (.pref x0 x1 x2) := fun _ _ _ => rfl
theorem zfill : ∀ x0 x1 x2, Statement (.zfill x0 x1 x2) := fun _ _ _ => rfl
theorem pin : ∀ x0 x1 x2 x3 x4, Statement (.pin x0 x1 x2 x3 x4) := fun _ _ _ _ _ => rfl
theorem unpin : ∀ x0 x1 x2, Statement (.unpin x0 x1 x2) := fun _ _ _ => rfl
theorem cctl : ∀ x0 x1 x2 x3, Statement (.cctl x0 x1 x2 x3) := fun _ _ _ _ => rfl
theorem lds : ∀ x0 x1 x2 x3, Statement (.lds x0 x1 x2 x3) := fun _ _ _ _ => rfl
theorem sts : ∀ x0 x1 x2 x3, Statement (.sts x0 x1 x2 x3) := fun _ _ _ _ => rfl
theorem stdef : ∀ x0 x1, Statement (.stdef x0 x1) := fun _ _ => rfl
theorem stbind : ∀ x0 x1 x2, Statement (.stbind x0 x1 x2) := fun _ _ _ => rfl
theorem stpos : ∀ x0 x1 x2, Statement (.stpos x0 x1 x2) := fun _ _ _ => rfl
theorem copy : ∀ x0 x1 x2, Statement (.copy x0 x1 x2) := fun _ _ _ => rfl
theorem rdwp : ∀ x0 x1, Statement (.rdwp x0 x1) := fun _ _ => rfl
theorem bfence : ∀ x0, Statement (.bfence x0) := fun _ => rfl
theorem bwait : ∀ x0, Statement (.bwait x0) := fun _ => rfl
theorem shadow : ∀ x0 x1 x2, Statement (.shadow x0 x1 x2) := fun _ _ _ => rfl
theorem publish : ∀ x0, Statement (.publish x0) := fun _ => rfl
theorem barInit : ∀ x0 x1, Statement (.barInit x0 x1) := fun _ _ => rfl
theorem barReg : ∀ x0, Statement (.barReg x0) := fun _ => rfl
theorem barArr : ∀ x0 x1, Statement (.barArr x0 x1) := fun _ _ => rfl
theorem barWait : ∀ x0 x1, Statement (.barWait x0 x1) := fun _ _ => rfl
theorem barAw : ∀ x0, Statement (.barAw x0) := fun _ => rfl
theorem barDrop : ∀ x0, Statement (.barDrop x0) := fun _ => rfl
theorem sqput : ∀ x0 x1, Statement (.sqput x0 x1) := fun _ _ => rfl
theorem sqget : ∀ x0 x1, Statement (.sqget x0 x1) := fun _ _ => rfl
theorem sqpeek : ∀ x0 x1, Statement (.sqpeek x0 x1) := fun _ _ => rfl
theorem msend : ∀ x0 x1, Statement (.msend x0 x1) := fun _ _ => rfl
theorem mpost : ∀ x0 x1, Statement (.mpost x0 x1) := fun _ _ => rfl
theorem mtest : ∀ x0 x1 x2, Statement (.mtest x0 x1 x2) := fun _ _ _ => rfl
theorem mcancel : ∀ x0, Statement (.mcancel x0) := fun _ => rfl
theorem spbar : ∀ x0 x1, Statement (.spbar x0 x1) := fun _ _ => rfl
theorem tnext : ∀ x0 x1, Statement (.tnext x0 x1) := fun _ _ => rfl
theorem tdone : ∀ x0 x1, Statement (.tdone x0 x1) := fun _ _ => rfl
theorem trd : ∀ x0 x1, Statement (.trd x0 x1) := fun _ _ => rfl
theorem twr : ∀ x0 x1, Statement (.twr x0 x1) := fun _ _ => rfl
theorem tcommit : Statement .tcommit := rfl
theorem thand : ∀ x0, Statement (.thand x0) := fun _ => rfl
theorem tmap : ∀ x0 x1, Statement (.tmap x0 x1) := fun _ _ => rfl
theorem mma : ∀ x0 x1 x2, Statement (.mma x0 x1 x2) := fun _ _ _ => rfl
theorem mmas : ∀ x0 x1 x2, Statement (.mmas x0 x1 x2) := fun _ _ _ => rfl
theorem aclr : ∀ x0, Statement (.aclr x0) := fun _ => rfl
theorem acpy : ∀ x0 x1 x2, Statement (.acpy x0 x1 x2) := fun _ _ _ => rfl
theorem scld : ∀ x0, Statement (.scld x0) := fun _ => rfl
theorem wbld : ∀ x0 x1, Statement (.wbld x0 x1) := fun _ _ => rfl
theorem mstat : ∀ x0 x1, Statement (.mstat x0 x1) := fun _ _ => rfl
theorem zgen : ∀ x0 x1 x2 x3, Statement (.zgen x0 x1 x2 x3) := fun _ _ _ _ => rfl
theorem zand : ∀ x0 x1 x2, Statement (.zand x0 x1 x2) := fun _ _ _ => rfl
theorem zandc : ∀ x0 x1 x2, Statement (.zandc x0 x1 x2) := fun _ _ _ => rfl
theorem zor : ∀ x0 x1 x2, Statement (.zor x0 x1 x2) := fun _ _ _ => rfl
theorem zorc : ∀ x0 x1 x2, Statement (.zorc x0 x1 x2) := fun _ _ _ => rfl
theorem zmux : ∀ x0 x1 x2, Statement (.zmux x0 x1 x2) := fun _ _ _ => rfl
theorem znot : ∀ x0 x1, Statement (.znot x0 x1) := fun _ _ => rfl
theorem zxorc : ∀ x0 x1 x2, Statement (.zxorc x0 x1 x2) := fun _ _ _ => rfl
theorem zcnt : ∀ x0 x1 x2, Statement (.zcnt x0 x1 x2) := fun _ _ _ => rfl
theorem zsum : ∀ x0 x1 x2, Statement (.zsum x0 x1 x2) := fun _ _ _ => rfl
theorem zregen : ∀ x0 x1 x2, Statement (.zregen x0 x1 x2) := fun _ _ _ => rfl
theorem zseed : ∀ x0, Statement (.zseed x0) := fun _ => rfl
theorem zclass : ∀ x0 x1, Statement (.zclass x0 x1) := fun _ _ => rfl
theorem sadd : ∀ x0 x1 x2, Statement (.sadd x0 x1 x2) := fun _ _ _ => rfl
theorem ssub : ∀ x0 x1 x2, Statement (.ssub x0 x1 x2) := fun _ _ _ => rfl
theorem smul : ∀ x0 x1 x2, Statement (.smul x0 x1 x2) := fun _ _ _ => rfl
theorem sand : ∀ x0 x1 x2, Statement (.sand x0 x1 x2) := fun _ _ _ => rfl
theorem sor : ∀ x0 x1 x2, Statement (.sor x0 x1 x2) := fun _ _ _ => rfl
theorem sxor : ∀ x0 x1 x2, Statement (.sxor x0 x1 x2) := fun _ _ _ => rfl
theorem sshl : ∀ x0 x1 x2, Statement (.sshl x0 x1 x2) := fun _ _ _ => rfl
theorem sshr : ∀ x0 x1 x2 x3, Statement (.sshr x0 x1 x2 x3) := fun _ _ _ _ => rfl
theorem saddi : ∀ x0 x1 x2, Statement (.saddi x0 x1 x2) := fun _ _ _ => rfl
theorem smovi : ∀ x0 x1, Statement (.smovi x0 x1) := fun _ _ => rfl
theorem smov : ∀ x0 x1, Statement (.smov x0 x1) := fun _ _ => rfl
theorem scmp : ∀ x0 x1 x2 x3, Statement (.scmp x0 x1 x2 x3) := fun _ _ _ _ => rfl
theorem ssel : ∀ x0 x1 x2, Statement (.ssel x0 x1 x2) := fun _ _ _ => rfl
theorem sminmax : ∀ x0 x1 x2 x3, Statement (.sminmax x0 x1 x2 x3) := fun _ _ _ _ => rfl
theorem sld : ∀ x0 x1 x2 x3 x4, Statement (.sld x0 x1 x2 x3 x4) := fun _ _ _ _ _ => rfl
theorem sst : ∀ x0 x1 x2 x3 x4, Statement (.sst x0 x1 x2 x3 x4) := fun _ _ _ _ _ => rfl
theorem syscall : ∀ x0, Statement (.syscall x0) := fun _ => rfl
theorem trap : ∀ x0, Statement (.trap x0) := fun _ => rfl
theorem rfe : Statement .rfe := rfl
theorem svtake : ∀ x0 x1, Statement (.svtake x0 x1) := fun _ _ => rfl
theorem svpost : ∀ x0 x1, Statement (.svpost x0 x1) := fun _ _ => rfl
theorem csrr : ∀ x0 x1, Statement (.csrr x0 x1) := fun _ _ => rfl
theorem csrw : ∀ x0 x1, Statement (.csrw x0 x1) := fun _ _ => rfl
theorem extinv : ∀ x0, Statement (.extinv x0) := fun _ => rfl
theorem wfi : Statement .wfi := rfl
theorem qput : ∀ x0 x1 x2 x3, Statement (.qput x0 x1 x2 x3) := fun _ _ _ _ => rfl
theorem gsave : ∀ x0 x1 x2 x3 x4, Statement (.gsave x0 x1 x2 x3 x4) := fun _ _ _ _ _ => rfl
theorem grest : ∀ x0 x1 x2 x3 x4, Statement (.grest x0 x1 x2 x3 x4) := fun _ _ _ _ _ => rfl
theorem hlt : ∀ x0, Statement (.hlt x0) := fun _ => rfl
theorem brk : ∀ x0, Statement (.brk x0) := fun _ => rfl
theorem mark : ∀ x0, Statement (.mark x0) := fun _ => rfl
theorem cnrd : ∀ x0 x1, Statement (.cnrd x0 x1) := fun _ _ => rfl
theorem wcoord : ∀ x0, Statement (.wcoord x0) := fun _ => rfl
theorem powerCycle : Statement .powerCycle := rfl
theorem managementReset : Statement .managementReset := rfl
theorem bootImageCheck : Statement .bootImageCheck := rfl
theorem bootSelfTest : Statement .bootSelfTest := rfl
theorem bootFirmwareLoad : Statement .bootFirmwareLoad := rfl
theorem bootKernelLoad : Statement .bootKernelLoad := rfl
theorem bootPartitionStart : Statement .bootPartitionStart := rfl
theorem freezeAssert : Statement .freezeAssert := rfl
theorem freezeRelease : Statement .freezeRelease := rfl
theorem statusQuery : Statement .statusQuery := rfl
theorem attestationRequest : Statement .attestationRequest := rfl
theorem partitionCreate : Statement .partitionCreate := rfl
theorem partitionDestroy : Statement .partitionDestroy := rfl
theorem sliceLoadRequest : Statement .sliceLoadRequest := rfl
theorem guestSliceRequest : Statement .guestSliceRequest := rfl
theorem sliceStore : Statement .sliceStore := rfl
theorem l1Invalidate : Statement .l1Invalidate := rfl
theorem storeAck : Statement .storeAck := rfl
theorem lineReply : Statement .lineReply := rfl
theorem portWriteBack : Statement .portWriteBack := rfl
theorem portExtentMiss : Statement .portExtentMiss := rfl
theorem walkComplete : Statement .walkComplete := rfl
theorem pageFaultResponse : Statement .pageFaultResponse := rfl
theorem shootdownReceive : Statement .shootdownReceive := rfl
theorem shootdownAck : Statement .shootdownAck := rfl
theorem guestEpochStepDone : Statement .guestEpochStepDone := rfl
theorem atomicUnitRequest : Statement .atomicUnitRequest := rfl
theorem atomicGrantLapse : Statement .atomicGrantLapse := rfl
theorem flitHop : Statement .flitHop := rfl
theorem injectionYield : Statement .injectionYield := rfl
theorem circuitSetup : Statement .circuitSetup := rfl
theorem circuitRelease : Statement .circuitRelease := rfl
theorem circuitIdleTimeout : Statement .circuitIdleTimeout := rfl
theorem dieLinkCrcRetry : Statement .dieLinkCrcRetry := rfl
theorem requestRetryTimeout : Statement .requestRetryTimeout := rfl
theorem hbmRowIdleClose : Statement .hbmRowIdleClose := rfl
theorem hbmRefresh : Statement .hbmRefresh := rfl
theorem patrolScrub : Statement .patrolScrub := rfl
theorem backInvalidateSnoop : Statement .backInvalidateSnoop := rfl
theorem cxlPortDown : Statement .cxlPortDown := rfl
theorem externalWriteArrival : Statement .externalWriteArrival := rfl
theorem externalWriteApply : Statement .externalWriteApply := rfl
theorem remoteAccessRequest : Statement .remoteAccessRequest := rfl
theorem doorbellWrite : Statement .doorbellWrite := rfl
theorem strcfgEnable : Statement .strcfgEnable := rfl
theorem strcfgResume : Statement .strcfgResume := rfl
theorem copyStart : Statement .copyStart := rfl
theorem copyWriteAck : Statement .copyWriteAck := rfl
theorem copyComplete : Statement .copyComplete := rfl
theorem copyPageFaultHold : Statement .copyPageFaultHold := rfl
theorem chstatAbort : Statement .chstatAbort := rfl
theorem chstatResume : Statement .chstatResume := rfl
theorem driveCompletion : Statement .driveCompletion := rfl
theorem storageTimeout : Statement .storageTimeout := rfl
theorem poolsplitWrite : Statement .poolsplitWrite := rfl
theorem teamAdmission : Statement .teamAdmission := rfl
theorem groupInstantiate : Statement .groupInstantiate := rfl
theorem groupRetire : Statement .groupRetire := rfl
theorem creditEviction : Statement .creditEviction := rfl
theorem creditReadmit : Statement .creditReadmit := rfl
theorem bundlePlacement : Statement .bundlePlacement := rfl
theorem laterWaveAdmission : Statement .laterWaveAdmission := rfl
theorem placementBlockTimeout : Statement .placementBlockTimeout := rfl
theorem regionCommit : Statement .regionCommit := rfl
theorem matrixOpComplete : Statement .matrixOpComplete := rfl
theorem wbldPageFaultHold : Statement .wbldPageFaultHold := rfl
theorem mseqAbort : Statement .mseqAbort := rfl
theorem mseqResume : Statement .mseqResume := rfl
theorem groupEnd : Statement .groupEnd := rfl
theorem candidateAging : Statement .candidateAging := rfl
theorem trapTake : Statement .trapTake := rfl
theorem coreStop : Statement .coreStop := rfl
theorem userInterruptDelivery : Statement .userInterruptDelivery := rfl
theorem messageArrival : Statement .messageArrival := rfl
theorem slTimer : Statement .slTimer := rfl
theorem slDeviceInterrupt : Statement .slDeviceInterrupt := rfl
theorem slInterruptTake : Statement .slInterruptTake := rfl
theorem sltcmpWrite : Statement .sltcmpWrite := rfl
theorem registerWrite : Statement .registerWrite := rfl
theorem firmwareStep : Statement .firmwareStep := rfl
theorem nopPacket : Statement .nopPacket := rfl
theorem padPacket : Statement .padPacket := rfl
theorem launchPacket : Statement .launchPacket := rfl
theorem copyPacket : Statement .copyPacket := rfl
theorem signalPacket : Statement .signalPacket := rfl
theorem waitPacket : Statement .waitPacket := rfl
theorem waitSatisfied : Statement .waitSatisfied := rfl
theorem publishPacket : Statement .publishPacket := rfl
theorem abortPacket : Statement .abortPacket := rfl
theorem timestampPacket : Statement .timestampPacket := rfl
theorem watchdogTimeout : Statement .watchdogTimeout := rfl
theorem fallbackTurn : Statement .fallbackTurn := rfl
theorem firmwareRebootDone : Statement .firmwareRebootDone := rfl
theorem triggerSignal : Statement .triggerSignal := rfl
theorem bundleRetire : Statement .bundleRetire := rfl
theorem bundleAbort : Statement .bundleAbort := rfl
theorem fredLogApply : Statement .fredLogApply := rfl
theorem fredctlAbort : Statement .fredctlAbort := rfl
theorem fredctlResume : Statement .fredctlResume := rfl
theorem debugStop : Statement .debugStop := rfl
theorem dbgctlHalt : Statement .dbgctlHalt := rfl
theorem dbgcmdResume : Statement .dbgcmdResume := rfl
theorem dbgcmdRunToLimit : Statement .dbgcmdRunToLimit := rfl
theorem dbgcmdEndLaunch : Statement .dbgcmdEndLaunch := rfl
theorem trsizeWrite : Statement .trsizeWrite := rfl
theorem trtailWrite : Statement .trtailWrite := rfl
theorem pcSample : Statement .pcSample := rfl
theorem orderGateTimeout : Statement .orderGateTimeout := rfl
theorem stallClock : Statement .stallClock := rfl
theorem yieldTimeout : Statement .yieldTimeout := rfl
theorem deviceDmaRead : Statement .deviceDmaRead := rfl
theorem externalLinkDown : Statement .externalLinkDown := rfl
theorem scanChainShift : Statement .scanChainShift := rfl

end Sys2Proof.Laws.Words
end

