-- ==== Sys2Proof/Laws/Preds.lean ====
section
/-!
SUPPORT. What an instruction with predicate results, a cross-lane instruction and a uniform instruction do, said once (spec/10 R235
to R242), by the terms of Sys2Proof/Safety.lean.
-/

namespace Sys2Proof.Machine

/-! ### Predicates -/

theorem laneMask_bit (p : Nat → Bool) (i : Nat) (hi : i < 32) : (laneMask p).getLsbD i = p i := by
  unfold laneMask
  have h : ∀ (l : List Nat), (∀ x ∈ l, x < 32) → l.Nodup → ∀ m : Word, (∀ x ∈ l, m.getLsbD x = false) →
      (l.foldl (fun m i => if p i then m ||| BitVec.ofNat 32 (2 ^ i) else m) m).getLsbD i
        = if i ∈ l then p i else m.getLsbD i := by
    intro l
    induction l with
    | nil => intros; simp
    | cons x r ih =>
      intro hl hd m hm
      rw [List.nodup_cons] at hd
      have hx := hl x (List.mem_cons_self ..)
      have hb : ∀ y, y < 32 → (if p x then m ||| BitVec.ofNat 32 (2 ^ x) else m).getLsbD y
          = if y = x then (p x || m.getLsbD y) else m.getLsbD y := by
        intro y hy
        have h2 : (BitVec.ofNat 32 (2 ^ x)).getLsbD y = decide (y = x) := by
          rw [BitVec.getLsbD_ofNat, Nat.testBit_two_pow]
          simp [hy, eq_comm]
        generalize BitVec.ofNat 32 (2 ^ x) = z at h2 ⊢
        by_cases hp : p x <;> by_cases hyx : y = x <;> simp [hp, hyx, h2]
        all_goals (try subst hyx; simp [h2])
      rw [List.foldl_cons, ih (fun y hy => hl y (List.mem_cons_of_mem _ hy)) hd.2]
      · by_cases hi2 : i ∈ r
        · simp [hi2]
        · by_cases hix : i = x
          · subst hix
            rw [if_neg hi2, hb i hi, hm i (List.mem_cons_self ..)]
            simp
          · rw [if_neg hi2, hb i hi]
            simp [hi2, hix]
      · intro y hy
        rw [hb y (hl y (List.mem_cons_of_mem _ hy)), hm y (List.mem_cons_of_mem _ hy)]
        have : y ≠ x := fun h => hd.1 (h ▸ hy)
        simp [this]
  rw [h (upTo 32) (fun x hx => (mem_upTo 32 x).mp hx) List.nodup_range 0 (by simp)]
  simp [(mem_upTo 32 i).mpr hi]

theorem laneMask_congr {p q : Nat → Bool} (h : ∀ i < 32, p i = q i) : laneMask p = laneMask q := by
  apply BitVec.eq_of_getLsbD_eq
  intro i hi
  rw [laneMask_bit p i hi, laneMask_bit q i hi, h i hi]

theorem predOf_writePred_self (s : State) (m : Word) (p lat : Nat) (v : Word) (hp : p ≠ 0) :
    predOf (writePred s m p lat v) p = (v &&& m) ||| (predOf s p &&& ~~~m) := by
  unfold predOf writePred
  split
  · rename_i h
    rw [h.resolve_left hp]
    generalize lookup (curGroup s).regs.preds p 0 = x
    show x = (v &&& 0#32) ||| (x &&& BitVec.allOnes 32)
    simp only [BitVec.and_zero, BitVec.zero_or, BitVec.and_allOnes]
  · simp [lookup_insertKey]

theorem predOf_writePred_ne (s : State) (m : Word) (p q lat : Nat) (v : Word) (hp : q ≠ p ∨ p = 0) :
    predOf (writePred s m p lat v) q = predOf s q := by
  unfold predOf writePred
  split
  · rfl
  · rename_i h
    simp [lookup_insertKey, hp.resolve_right (fun e => h (.inl e))]

theorem atMost_writePred (s : State) (m : Word) (p lat : Nat) (v : Word) : AtMostGroup s (writePred s m p lat v) := by
  unfold writePred
  split
  · exact .inl rfl
  · exact AtMostGroup.put s _ (Keeps.of rfl rfl rfl)

/-- What a write of predicates leaves: the lane and uniform registers, the quads, the special registers. -/
structure PredOnly (s t : State) : Prop where
  lanes : (curGroup t).regs.lanes = (curGroup s).regs.lanes
  unif  : (curGroup t).regs.unif = (curGroup s).regs.unif
  wb    : (curGroup t).regs.wb = (curGroup s).regs.wb
  quads : (curGroup t).quads = (curGroup s).quads
  spec  : (curGroup t).spec = (curGroup s).spec
  cur   : t.cur = s.cur
  clock : t.clock = s.clock

theorem predOnly_writePred (s : State) (m : Word) (p lat : Nat) (v : Word) : PredOnly s (writePred s m p lat v) := by
  unfold writePred
  split
  · exact ⟨rfl, rfl, rfl, rfl, rfl, rfl, rfl⟩
  · constructor <;> simp

theorem PredOnly.trans {s t u : State} (a : PredOnly s t) (b : PredOnly t u) : PredOnly s u :=
  ⟨b.lanes.trans a.lanes, b.unif.trans a.unif, b.wb.trans a.wb, b.quads.trans a.quads, b.spec.trans a.spec, b.cur.trans a.cur,
    b.clock.trans a.clock⟩

theorem predOnly_writeCond (s : State) (t f : BitVec 3) (lat : Nat) (c : Word) : PredOnly s (writeCond s t f lat c) :=
  (predOnly_writePred ..).trans (predOnly_writePred ..)

theorem freeName_preds (s : State) (m p : Nat) : predOf (freeName s m) p = predOf s p := by
  unfold freeName predOf
  rw [curGroup_setCur]
  rfl

theorem freeNames_preds (l : List Nat) (p : Nat) : ∀ s, predOf (l.foldl freeName s) p = predOf s p := by
  induction l with
  | nil => intro s; rfl
  | cons m r ih => intro s; exact (ih _).trans (freeName_preds s m p)

theorem applyLast_wb {s t : State} (h1 : t.cur = s.cur) (h2 : (curGroup t).regs.wb = (curGroup s).regs.wb) (o : OpInfo)
    (na nb : Nat) (w : List Nat) (name j : Nat) (hj : j < 32) (hl : name ∉ lastNames s o na nb w) :
    laneOf (applyLast t o na nb w) name j = laneOf t name j := by
  unfold applyLast
  refine freeNames_lanes _ name j hj t (fun hm => hl ?_)
  have hm := List.mem_eraseDups.mp hm
  unfold lastNames
  have hf : ∀ f m, fieldNames (curGroup t) f m = fieldNames (curGroup s) f m := by
    intro f m
    unfold fieldNames nameOf
    simp only [h2]
  unfold ctlLastA ctlLastB at hm ⊢
  rw [h1, hf, hf] at hm
  exact hm

theorem activeLanes_bit (s : State) (i : Nat) (hi : i < 32) : (activeMask s).getLsbD i = decide (i ∈ activeLanes s) := by
  have h : i ∈ activeLanes s ↔ (activeMask s).getLsbD i = true := by
    unfold activeLanes
    rw [List.mem_filter]
    exact ⟨fun h => h.2, fun h => ⟨(mem_upTo 32 i).mpr hi, h⟩⟩
  rw [Bool.eq_iff_iff, decide_eq_true_eq]
  exact h.symm

/-- What may follow a condition written to predicates: last-read names freed, flags raised. -/
structure AfterCond (s w u : State) (o : OpInfo) (na nb : Nat) (flags : BitVec 5) : Prop where
  preds : ∀ p, predOf u p = predOf w p
  lanes : ∀ name j, j < 32 → name ∉ lastNames s o na nb [] → laneOf u name j = laneOf w name j
  flags : (curGroup u).spec.fpflags = (curGroup w).spec.fpflags ||| flags
  cur   : u.cur = w.cur
  clock : u.clock = w.clock
  unif  : (curGroup u).regs.unif = (curGroup w).regs.unif
  only  : AtMostGroup w u

/-- A condition written to a pair of predicates, what may follow it, and the slot retired. -/
theorem cond_done (s : State) (o : OpInfo) (srcs : List Src) (na nb : Nat) (t f : BitVec 3) (lat : Nat) (c : Nat → Bool)
    (flags : BitVec 5) (hb : pairPred t f = false) {u : State}
    (h : AfterCond s (writeCond (noteDead s srcs) t f lat (laneMask c)) u o na nb flags) :
    PredDone s (retire u) o na nb t f c flags := by
  have h0 := sameLanes_noteDead s srcs
  have hm : activeMask (noteDead s srcs) = activeMask s := by
    have := h0.active
    apply BitVec.eq_of_getLsbD_eq
    intro i hi
    rw [activeLanes_bit _ i hi, activeLanes_bit _ i hi, this]
  have hpo := predOnly_writeCond (noteDead s srcs) t f lat (laneMask c)
  have hpred : ∀ p, predOf (retire u) p = predOf (writeCond (noteDead s srcs) t f lat (laneMask c)) p := by
    intro p
    rw [← h.preds p]
    unfold predOf
    rw [(samePU_retire u).1]
  have hd : ∀ p, predOf (noteDead s srcs) p = predOf s p := by
    intro p
    unfold predOf
    rw [noteDead_lanes]
  have hne : t ≠ 0 → f ≠ 0 → t.toNat ≠ f.toNat := by
    intro h1 h2 h
    have : t = f := BitVec.eq_of_toNat_eq h
    unfold pairPred at hb
    rw [this] at hb
    simp at hb
    exact h2 hb
  have hnat : ∀ x : BitVec 3, x ≠ 0 → x.toNat ≠ 0 := by
    intro x hx h
    exact hx (BitVec.eq_of_toNat_eq h)
  have hbit : ∀ (v old : Word) (i : Nat), i < 32 → ((v &&& activeMask s) ||| (old &&& ~~~activeMask s)).getLsbD i
      = if i ∈ activeLanes s then v.getLsbD i else old.getLsbD i := by
    intro v old i hi
    simp only [BitVec.getLsbD_or, BitVec.getLsbD_and, BitVec.getLsbD_not, activeLanes_bit s i hi, hi, decide_true, Bool.true_and]
    by_cases h : i ∈ activeLanes s <;> simp [h]
  have hcur : u.cur = s.cur := h.cur.trans (hpo.cur.trans h0.cur)
  have hclock : u.clock = s.clock := h.clock.trans (hpo.clock.trans h0.clock)
  refine ⟨?_, ?_, ?_, ?_, ?_, ?_, ?_, ?_⟩
  · intro ht i hi
    rw [hpred]
    unfold writeCond
    rw [predOf_writePred_ne _ _ _ _ _ _ (by
      by_cases hf : f = 0
      · right; subst hf; rfl
      · left; exact hne ht hf), predOf_writePred_self _ _ _ _ _ (hnat t ht), hm, hd, hbit _ _ i hi, laneMask_bit c i hi]
  · intro hf i hi
    rw [hpred]
    unfold writeCond
    rw [predOf_writePred_self _ _ _ _ _ (hnat f hf), hm, predOf_writePred_ne _ _ _ _ _ _ (by
      by_cases ht : t = 0
      · right; subst ht; rfl
      · left; exact fun h => hne ht hf h.symm), hd, hbit _ _ i hi, BitVec.getLsbD_not, laneMask_bit c i hi]
    simp [hi]
  · intro p hp hq
    rw [hpred]
    have z : ∀ x : BitVec 3, x = 0 → x.toNat = 0 := by
      intro x hx
      subst hx
      rfl
    unfold writeCond
    rw [predOf_writePred_ne _ _ _ _ _ _ (hq.imp id (z f)), predOf_writePred_ne _ _ _ _ _ _ (hp.imp id (z t)), hd]
  · intro name j hj hl
    rw [laneOf_retire, h.lanes name j hj hl]
    unfold laneOf
    rw [hpo.lanes, noteDead_lanes]
  · rw [retire_fpflags, h.flags, hpo.spec, noteDead_fpflags]
  · intro q hq
    have := retire_went u q (by rw [hcur]; exact hq)
    rw [hcur, hclock] at this
    have hst : ctlStall u = ctlStall s := by
      unfold ctlStall
      rw [hcur]
    have has : ctlAstr u = ctlAstr s := by
      unfold ctlAstr
      rw [hcur]
    rw [hst, has] at this
    exact this
  · rw [(samePU_retire _).2, h.unif, hpo.unif, noteDead_lanes]
  · have h : AtMostGroup s (retire u) :=
      (((atMost_noteDead s srcs).trans (atMost_writePred ..)).trans (atMost_writePred ..)).trans
        (h.only.trans (.inr (oneGroup_retire u)))
    rcases h with h | h
    · rw [h]
      exact ⟨⟨fun _ => ⟨rfl, rfl⟩, rfl, ⟨rfl, rfl, rfl⟩, fun _ _ => rfl, fun _ _ => rfl, fun _ _ => rfl, rfl, ⟨rfl, rfl, rfl, rfl⟩, fun _ => rfl⟩,
        ⟨fun _ _ _ => rfl, rfl⟩, Keeps.refl _⟩
    · exact h.frame

/-- A condition written to a pair of predicates, last-read names freed, flags raised and the slot retired. -/
theorem predEffect_done (s : State) (o o' : OpInfo) (srcs : List Src) (na nb : Nat) (t f : BitVec 3) (lat : Nat) (c : Nat → Bool)
    (flags : BitVec 5) (ho : o'.srcA = o.srcA ∧ o'.srcB = o.srcB) (hb : pairPred t f = false) :
    PredDone s (retire (orFlags (applyLast (writeCond (noteDead s srcs) t f lat (laneMask c)) o' na nb []) flags))
      o na nb t f c flags := by
  have h0 := sameLanes_noteDead s srcs
  have hpo := predOnly_writeCond (noteDead s srcs) t f lat (laneMask c)
  have hlast : lastNames s o' na nb [] = lastNames s o na nb [] := by
    unfold lastNames
    rw [ho.1, ho.2]
  refine cond_done s o srcs na nb t f lat c flags hb ⟨fun p => ?_, fun name j hj hl => ?_, ?_, ?_, ?_, ?_, ?_⟩
  · have h2 : ∀ u : State, predOf (orFlags u flags) p = predOf u p := by
      intro u
      unfold predOf orFlags
      rw [curGroup_setCur]
      rfl
    rw [h2]
    unfold applyLast
    exact freeNames_preds _ p _
  · rw [laneOf_orFlags, applyLast_wb (s := s) (hpo.cur.trans h0.cur) (hpo.wb.trans h0.wb) o' na nb [] name j hj
      (by rw [hlast]; exact hl)]
  · unfold orFlags
    rw [curGroup_setCur]
    show _ ||| _ = _
    congr 1
    unfold applyLast
    rw [freeNames_spec]
  · exact (applyLast_rest _ o' na nb []).2.1
  · exact (applyLast_rest _ o' na nb []).2.2
  · unfold orFlags
    rw [curGroup_setCur]
    show (curGroup (applyLast _ _ _ _ _)).regs.unif = _
    unfold applyLast
    rw [(samePU_freeNames _ _).2]
  · exact (atMost_applyLast _ o' na nb []).trans (.inr (oneGroup_orFlags _ flags))

/-- A condition written to a pair of predicates and the slot retired. -/
theorem condOnly_done (s : State) (t f : BitVec 3) (lat : Nat) (c : Nat → Bool) (hb : pairPred t f = false) :
    PredDone s (retire (writeCond s t f lat (laneMask c))) {} 0 0 t f c 0 :=
  cond_done s {} [] 0 0 t f lat c 0 hb (u := writeCond s t f lat (laneMask c))
    ⟨fun _ => rfl, fun _ _ _ _ => rfl, by simp [noteDead], rfl, rfl, rfl, .inl rfl⟩

theorem ite_none {α : Type} {c : Prop} [Decidable c] {x : α} {e : Option α} (h : (if c then some x else e) = none) : ¬c ∧ e = none := by
  by_cases hc : c
  · rw [if_pos hc] at h
    cases h
  · rw [if_neg hc] at h
    exact ⟨hc, h⟩

/-- A slot that Table 7-11 accepts names no pair of equal predicates. -/
theorem pBad_of_checkSlot {s : State} {o : OpInfo} (h : checkSlot s o = .ok ()) : o.pBad = false := by
  have hn : slotFault s o = none := by
    unfold checkSlot at h
    cases hc : slotFault s o with
    | none => rfl
    | some c =>
      rw [hc] at h
      cases h
  unfold slotFault at hn
  exact Bool.eq_false_iff.mpr
    (ite_none (ite_none (ite_none (ite_none (ite_none (ite_none hn).2).2).2).2).2).1

theorem predFlags_eq (s : State) (g : Nat → Bool × BitVec 5) :
    (activeLanes s).foldl (fun m i => m ||| (((upTo 32).map g).getD i (false, 0)).2) 0 = laneFlags s (fun i => (g i).2) := by
  unfold laneFlags
  have h : ∀ (l : List Nat), (∀ i ∈ l, i < 32) → ∀ m : BitVec 5,
      l.foldl (fun m i => m ||| (((upTo 32).map g).getD i (false, 0)).2) m = l.foldl (fun m i => m ||| (g i).2) m := by
    intro l
    induction l with
    | nil => intros; rfl
    | cons i r ih =>
      intro hl m
      have hi := hl i (List.mem_cons_self ..)
      rw [List.foldl_cons, List.foldl_cons, ih (fun x hx => hl x (List.mem_cons_of_mem _ hx))]
      rw [getD_map_upTo g 32 i _ hi]
  exact h _ (fun i hi => activeLanes_lt hi) 0

theorem PredDone.congr {s u : State} {o : OpInfo} {na nb : Nat} {t f : BitVec 3} {c c' : Nat → Bool} {fl : BitVec 5}
    (h : PredDone s u o na nb t f c fl) (e : ∀ i < 32, c i = c' i) : PredDone s u o na nb t f c' fl :=
  ⟨fun ht i hi => by rw [h.truth ht i hi, e i hi], fun hf i hi => by rw [h.falsity hf i hi, e i hi], h.others, h.lanes, h.flags,
    h.went, h.unif, h.frame⟩

/-- The result of an instruction whose meaning is a predicate operation. -/
theorem predResult_of {i : Instr} {s : State} {o : OpInfo} {srcs : List Src} {na nb : Nat} {t f : BitVec 3} {lat : Nat}
    {c : List Word → Bool × BitVec 5} (h : exec i s = finish s (predOp s o srcs na nb t f lat c)) :
    PredResult i s o srcs na nb t f lat c := by
  have hs : ∀ sv v, ¬ (t = 0 ∧ f = 0) → checkSlot s { o with pBad := pairPred t f } = .ok () → srcs.any (srcRange s) = false →
      streamFault s srcs o.dst = none → streamSources s srcs = .ok (sv, v) → Ready s o srcs →
      exec i s = .next (retire (orFlags (applyLast (writeCond (noteDead v srcs) t f (lat + patLat (o.srcA.toList ++ o.srcB.toList))
        (laneMask (fun i => (c (operands s sv srcs i)).1))) { o with pBad := pairPred t f } na nb [])
        (laneFlags s (fun i => (c (operands s sv srcs i)).2)))) := by
    intro sv v h0 h1 h2 hf h3 h4
    rw [h]
    unfold predOp readSources
    simp only [h0, if_false, h2, Bool.or_false, h1, hf, h3, h4.1, h4.2, after]
    rw [predFlags_eq s (fun i => c (laneArgs (srcs.map (srcLanes s sv)) i)),
      laneMask_congr (q := fun i => (c (operands s sv srcs i)).1) (fun i hi => by rw [getD_map_upTo _ 32 i _ hi]; rfl)]
    rfl
  refine ⟨fun r => ?_, fun hz h1 => ?_, hs⟩
  · refine ⟨_, hs [] s r.some_ r.slot r.range r.flow (streamSources_none s srcs r.plain) r.ready, ?_⟩
    have hp := pBad_of_checkSlot r.slot
    exact predEffect_done s o _ srcs na nb t f _ _ _ ⟨rfl, rfl⟩ hp
  · rw [h]
    unfold predOp
    simp only [hz, and_self, if_true]
    have : checkSlot s { o with pBad := pairPred 0 0 } = .ok () := by
      rw [hz.1, hz.2] at h1
      exact h1
    simp only [this]
    rfl

/-! ### Cross-lane results -/

theorem crossOp_write {s u : State} {o : OpInfo} {srcs : List Src} {d : BitVec 7} {sv : StreamVals}
    (h1 : checkSlot s o = .ok ()) (h2 : srcs.any (srcRange s) = false) (hf : streamFault s srcs o.dst = none)
    (h4 : streamSources s srcs = .ok (sv, u)) (h5 : Ready s o srcs) (na nb : Nat)
    (f : List Lanes → Lanes × BitVec 5) {v : State}
    (h6 : writeDst (noteDead u srcs) d 0 [(f (srcs.map (srcLanes s sv))).1] = .ok v) :
    crossOp s o srcs na nb d f = .ok (orFlags (applyLast v o na nb (dstNames s (some d) 1)) (f (srcs.map (srcLanes s sv))).2) := by
  unfold crossOp readSources
  simp only [h2, Bool.or_false, h1, hf, h4, h5.1, h5.2, h6, after]

theorem crossOp_runs {s : State} {o : OpInfo} {srcs : List Src} {d : BitVec 7} (h : LaneRuns s o srcs d 1) (na nb : Nat)
    (f : List Lanes → Lanes × BitVec 5) :
    crossOp s o srcs na nb d f = .ok (laneEffect s o srcs na nb d 1 0 [(f (srcs.map (srcLanes s []))).1]
      (f (srcs.map (srcLanes s []))).2) := by
  refine (crossOp_write h.slot h.range h.flow (streamSources_none s srcs h.plain) h.ready na nb f
    (writeDst_reg h.reg h.peak h.credit)).trans ?_
  unfold laneEffect dstNames destNames
  simp only [h.reg, Bool.false_eq_true, if_false]
  rfl

/-- The result of an instruction whose meaning is a cross-lane operation. -/
theorem crossResult_of {i : Instr} {s : State} {o : OpInfo} {srcs : List Src} {na nb : Nat} {d : BitVec 7}
    {f : List Lanes → Lanes × BitVec 5} (h : exec i s = finish s (crossOp s o srcs na nb d f)) :
    CrossResult i s o srcs na nb d f := by
  refine ⟨fun hr => ?_, fun sv u v h1 h2 hf h3 h4 h5 => ?_⟩
  · rw [h, crossOp_runs hr]
    refine ⟨_, rfl, (laneEffect_done (dst_names_le hr.dst hr.reg) ..).congr ?_⟩
    intro j hj k hk
    have : k = 0 := by omega
    subst this
    rfl
  · rw [h, crossOp_write h1 h2 hf h3 h4 na nb f h5]
    rfl

/-! ### Uniform results -/

/-- A uniform register written and the slot retired. -/
theorem unifEffect_done (s : State) (d lat : Nat) (v : Word) : UnifDone s (retire (writeUnif s d lat v)) d v := by
  have h1 : (curGroup (writeUnif s d lat v)).regs.unif = insertKey (curGroup s).regs.unif d v := by
    unfold writeUnif
    simp
  have hcur : (writeUnif s d lat v).cur = s.cur := rfl
  refine ⟨?_, ?_, ⟨?_, ?_⟩, ?_, ?_, ?_⟩
  · rw [(samePU_retire _).2, h1, lookup_insertKey]
    simp
  · intro u hu
    rw [(samePU_retire _).2, h1, lookup_insertKey]
    simp [hu]
  · rw [retire_group, (countSlot_rest _).1, (advanceAll_rest ..).1]
    unfold writeUnif
    simp
  · rw [(samePU_retire _).1]
    unfold writeUnif
    simp
  · rw [retire_group]
    have h : ∀ g : Group, (countSlot g).spec = { g.spec with retired := g.spec.retired + 1 } := fun _ => rfl
    have h2 : (curGroup (writeUnif s d lat v)).spec = (curGroup s).spec := by
      unfold writeUnif
      simp
    rw [h, (advanceAll_rest ..).2.1, h2]
  · intro q hq
    exact retire_went (writeUnif s d lat v) q hq
  · have : OneGroup s (retire (writeUnif s d lat v)) := by
      refine OneGroup.trans ?_ (oneGroup_retire _)
      exact ⟨_, rfl, Keeps.of rfl rfl rfl⟩
    exact this.frame

/-- The result of an instruction whose meaning writes one uniform register once its checks pass. -/
theorem unifResult_of {i : Instr} {s : State} {o : OpInfo} {srcs : List Src} {d : Nat} {v : Word} (lat : Nat)
    (h : exec i s = finish s (match unifCheck s o srcs with
      | .error e => .error e
      | .ok false => .ok s
      | .ok true => .ok (writeUnif s d lat v))) : UnifResult i s o srcs d v := by
  intro h1 h2
  unfold unifCheck at h
  simp only [h1, (checkReady_ok h2).1, (checkReady_ok h2).2, after] at h
  cases he : (activeLanes s).isEmpty with
  | true =>
    rw [he] at h
    exact ⟨_, h, by simp only [if_true]⟩
  | false =>
    rw [he] at h
    exact ⟨_, h, by simpa using unifEffect_done s d lat v⟩

end Sys2Proof.Machine
end

