-- ==== Sys2Proof/Tests/Slice0.lean ====
section
/-!
SUPPORT. The model's own tests: ill-formed instructions, one word of every encoding, single steps on small states, and for
every statement with hypotheses a state and operands that meet them.
-/

namespace Sys2Proof.Tests

set_option Elab.async false

open Sys2Proof.Machine

/-! ### Ill-formed instructions: one for each check of WellFormed -/

/-- A step of another agent has no word. -/
theorem test_wf_has_word : Instr.hasWord .storeAck = false := by decide
/-- An ordered load whose order field is that of a plain load (R193). -/
theorem test_wf_order : Instr.orderOk (.ldAcq 0 0 1 0 2 3 2) = false := by decide
/-- Two equal predicates other than p0 (R178). -/
theorem test_wf_predicates : Instr.predsOk (.icmp 0 1 1 2 3) = false := by decide
/-- Condition 6 of icmp is reserved. -/
theorem test_wf_fn : Instr.fnOk (.icmp 6 1 2 3 4) = false := by decide
/-- k1 as the destination of a capability load (R16). -/
theorem test_wf_cap : Instr.capOk (.ldk 0 1 2 3) = false := by decide
/-- Scope 6 of an atomic is reserved (R109). -/
theorem test_wf_scope : Instr.scopeOk (.atom 0 1 2 3 6) = false := by decide
/-- Width 5 of a load is reserved (R194). -/
theorem test_wf_width : Instr.widthOk (.ld 0 1 2 3 5) = false := by decide
/-- A well-formed instruction meets every check. -/
theorem test_wf_good : Instr.wf (.fma 0 1 20 34 21) = true := by decide

/-! ### Decoding: one word of every instruction, its fields set from the encoding of Table 8-1 (spec/08) -/

/-- Words of opcodes 0x00 to 0x0F. -/
theorem test_decode_integer :
    decode 0x00000000 = .ok .nop
    ∧ decode 0x010ABD14 = .ok (.add 42 122 20)
    ∧ decode 0x020CEA07 = .ok (.sub 51 84 7)
    ∧ decode 0x0302B545 = .ok (.addi 10 106 69)
    ∧ decode 0x040357CB = .ok (.mul 13 47 75)
    ∧ decode 0x051D609C = .ok (.mulhi 0 117 65 28)
    ∧ decode 0x06014638 = .ok (.mad 5 12 56)
    ∧ decode 0x07224F8C = .ok (.min 1 9 31 12)
    ∧ decode 0x08223549 = .ok (.max 1 8 106 73)
    ∧ decode 0x09043D00 = .ok (.abs 16 122)
    ∧ decode 0x0A1468CB = .ok (.absdiff 0 81 81 75)
    ∧ decode 0x0B1E844A = .ok (.and 122 8 74)
    ∧ decode 0x0C12D987 = .ok (.or 75 51 7)
    ∧ decode 0x0D1F4E86 = .ok (.xor 125 29 6)
    ∧ decode 0x0E123712 = .ok (.andn 72 110 18)
    ∧ decode 0x0F099B13 = .ok (.shl 38 54 19) :=
  ⟨rfl, rfl, rfl, rfl, rfl, rfl, rfl, rfl, rfl, rfl, rfl, rfl, rfl, rfl, rfl, rfl⟩

/-- Words of opcodes 0x10 to 0x1F. -/
theorem test_decode_integer_rest :
    decode 0x1011884A = .ok (.shr 70 16 74)
    ∧ decode 0x110A2469 = .ok (.sar 40 72 105)
    ∧ decode 0x12160C0E = .ok (.rol 88 24 14)
    ∧ decode 0x1372A919 = .ok (.shi 3 74 82 25)
    ∧ decode 0x140C0680 = .ok (.clz 48 13)
    ∧ decode 0x1511EE00 = .ok (.popc 71 92)
    ∧ decode 0x16026480 = .ok (.brev 9 73)
    ∧ decode 0x17140DC0 = .ok (.bfx 0 80 27 64)
    ∧ decode 0x181622B7 = .ok (.bfi 88 69 55)
    ∧ decode 0x19EA5E4B = .ok (.sel 7 41 60 75)
    ∧ decode 0x1A8BD3A0 = .ok (.lea 4 47 39 32)
    ∧ decode 0x1B198C5A = .ok (.add64 102 24 90)
    ∧ decode 0x1C19100B = .ok (.sub64 100 32 11)
    ∧ decode 0x1DA9E240 = .ok (.sh64 5 39 68 64)
    ∧ decode 0x1E1C402C = .ok (.mov 113 44)
    ∧ decode 0x1F179CBA = .ok (.movi 94 7354) :=
  ⟨rfl, rfl, rfl, rfl, rfl, rfl, rfl, rfl, rfl, rfl, rfl, rfl, rfl, rfl, rfl, rfl⟩

/-- Words of opcodes 0x20 to 0x2F. -/
theorem test_decode_fp32 :
    decode 0x20FF8510 = .ok (.fadd 1 3 126 10 16)
    ∧ decode 0x21B85614 = .ok (.fmul 1 1 97 44 20)
    ∧ decode 0x22C1BE56 = .ok (.fma 1 2 6 124 86)
    ∧ decode 0x2302B148 = .ok (.fmin 10 98 72)
    ∧ decode 0x2412B371 = .ok (.fmax 74 102 113)
    ∧ decode 0x25EA5659 = .ok (.fsgn 7 41 44 89)
    ∧ decode 0x26536000 = .ok (.frnd 2 77 64)
    ∧ decode 0x2712F380 = .ok (.fclass 75 103)
    ∧ decode 0x280EC4EC = .ok (.fdiv 59 9 108)
    ∧ decode 0x29033C80 = .ok (.fsqrt 12 121)
    ∧ decode 0x2A08DE80 = .ok (.frcp 35 61)
    ∧ decode 0x2B16AB00 = .ok (.frsq 90 86)
    ∧ decode 0x2C024400 = .ok (.fex2 9 8)
    ∧ decode 0x2D17AD00 = .ok (.flg2 94 90)
    ∧ decode 0x2E0A2980 = .ok (.fsinpi 40 83)
    ∧ decode 0x2F12AC00 = .ok (.fcospi 74 88) :=
  ⟨rfl, rfl, rfl, rfl, rfl, rfl, rfl, rfl, rfl, rfl, rfl, rfl, rfl, rfl, rfl, rfl⟩

/-- Words of opcodes 0x30 to 0x3F. -/
theorem test_decode_packed_and_conversions :
    decode 0x30296E32 = .ok (.hadd2 1 37 92 50)
    ∧ decode 0x3120FCBC = .ok (.hmul2 1 3 121 60)
    ∧ decode 0x3225A78F = .ok (.hfma2 1 22 79 15)
    ∧ decode 0x33220E63 = .ok (.hmin2 1 8 28 99)
    ∧ decode 0x34246FA0 = .ok (.hmax2 1 17 95 32)
    ∧ decode 0x35BDB800 = .ok (.cvti2f 2 1 118 112)
    ∧ decode 0x36859D00 = .ok (.cvtf2i 2 0 22 58)
    ∧ decode 0x3731D272 = .ok (.cvtpk16 1 71 36 114)
    ∧ decode 0x383BE380 = .ok (.cvtup16 0 1 111 71)
    ∧ decode 0x39EDBFAE = .ok (.cvtpk8 1 3 54 127 46)
    ∧ decode 0x3A7C9880 = .ok (.cvtup8 3 114 49)
    ∧ decode 0x3B250597 = .ok (.qscal 1 20 11 23)
    ∧ decode 0x3C354F02 = .ok (.qenc 0 1 85 30 2)
    ∧ decode 0x3D5AE618 = .ok (.qdec 2 107 76 24)
    ∧ decode 0x3E089281 = .ok (.fclamp 34 37 1) :=
  ⟨rfl, rfl, rfl, rfl, rfl, rfl, rfl, rfl, rfl, rfl, rfl, rfl, rfl, rfl, rfl⟩

/-- Words of opcodes 0x40 to 0x4F. -/
theorem test_decode_predicates_and_cross_lane :
    decode 0x4049584F = .ok (.icmp 2 4 5 48 79)
    ∧ decode 0x41A6ACEE = .ok (.icmpi 5 3 2 89 110)
    ∧ decode 0x42ABABDF = .ok (.fcmp 5 5 6 87 95)
    ∧ decode 0x4329C387 = .ok (.plog 1 4 7 7 7)
    ∧ decode 0x446F4200 = .ok (.vote 3 7 5 4)
    ∧ decode 0x450CC200 = .ok (.ballot 51 4)
    ∧ decode 0x460CC080 = .ok (.ptoi 51 1)
    ∧ decode 0x47099A00 = .ok (.itop 4 6 52)
    ∧ decode 0x48020C80 = .ok (.matchAny 8 25) :=
  ⟨rfl, rfl, rfl, rfl, rfl, rfl, rfl, rfl, rfl⟩

/-- Words of opcodes 0x50 to 0x5F. -/
theorem test_decode_cross_lane_and_uniform :
    decode 0x50027F9B = .ok (.perm 9 127 27)
    ∧ decode 0x5140002A = .ok (.setlp 2 42)
    ∧ decode 0x522B2680 = .ok (.redux 1 44 77)
    ∧ decode 0x53008701 = .ok (.vget 2 14 1)
    ∧ decode 0x54124280 = .ok (.vbcast 73 5)
    ∧ decode 0x5511401A = .ok (.rds 69 26)
    ∧ decode 0x56003CBC = .ok (.wbase 15548)
    ∧ decode 0x57001746 = .ok (.dcw 2979)
    ∧ decode 0x58A10500 = .ok (.scan 5 4 10) :=
  ⟨rfl, rfl, rfl, rfl, rfl, rfl, rfl, rfl, rfl⟩

/-- Words of opcodes 0x60 to 0x6F. -/
theorem test_decode_control :
    decode 0x6053A67A = .ok (.br 1 321950 2)
    ∧ decode 0x61202900 = .ok (.brx 1 82)
    ∧ decode 0x62281282 = .ok (.call 132256 2)
    ∧ decode 0x63000000 = .ok .ret
    ∧ decode 0x64000000 = .ok .join
    ∧ decode 0x65000000 = .ok .regang
    ∧ decode 0x66000000 = .ok .exit
    ∧ decode 0x67000000 = .ok .yield
    ∧ decode 0x68000000 = .ok .region
    ∧ decode 0x69000000 = .ok .trigger
    ∧ decode 0x6A050610 = .ok (.usig 20 12 16)
    ∧ decode 0x6B000010 = .ok (.uhnd 16)
    ∧ decode 0x6C000000 = .ok .uret :=
  ⟨rfl, rfl, rfl, rfl, rfl, rfl, rfl, rfl, rfl, rfl, rfl, rfl, rfl⟩

/-- Words of opcodes 0x70 to 0x7F. -/
theorem test_decode_memory :
    decode 0x70270844 = .ok (.ld 1 28 16 8 4)
    ∧ decode 0x7090D263 = .ok (.ldAcq 4 2 3 1 4 12 3)
    ∧ decode 0x71C24876 = .ok (.st 6 9 16 14 6)
    ∧ decode 0x71585FCB = .ok (.stRel 2 3 1 1 31 9 3)
    ∧ decode 0x7243097C = .ok (.ldk 2 12 18 15)
    ∧ decode 0x732348AC = .ok (.stk 1 13 17 5)
    ∧ decode 0x7402C703 = .ok (.cnarrow 11 14 3)
    ∧ decode 0x75030709 = .ok (.crights 12 14 9)
    ∧ decode 0x76ABC780 = .ok (.cget 5 47 15)
    ∧ decode 0x7704C69D = .ok (.ctest 2 3 13 29)
    ∧ decode 0x78A48CCB = .ok (.atom 5 18 25 9 3)
    ∧ decode 0x79C20A6F = .ok (.atomb 6 8 20 13 7)
    ∧ decode 0x7AE703EA = .ok (.ared 7 28 7 13 2)
    ∧ decode 0x7BE34C6A = .ok (.fatom 7 13 24 13 2)
    ∧ decode 0x7C444832 = .ok (.fred 2 17 16 6)
    ∧ decode 0x7DC00001 = .ok (.fence 6 1)
    ∧ decode 0x7E0000EB = .ok (.pref 1 13 3)
    ∧ decode 0x7F8004A0 = .ok (.zfill 4 9 4) :=
  ⟨rfl, rfl, rfl, rfl, rfl, rfl, rfl, rfl, rfl, rfl, rfl, rfl, rfl, rfl, rfl, rfl, rfl, rfl⟩

/-- Words of opcodes 0x80 to 0x8F. -/
theorem test_decode_cache_copy_batch :
    decode 0x800D4F98 = .ok (.pin 6 5 31 1 8)
    ∧ decode 0x81E00F60 = .ok (.unpin 7 30 12)
    ∧ decode 0x82600FB1 = .ok (.cctl 3 31 6 1)
    ∧ decode 0x83410404 = .ok (.lds 2 4 8 4)
    ∧ decode 0x8442C384 = .ok (.sts 2 11 7 4)
    ∧ decode 0x85A00E80 = .ok (.stdef 5 29)
    ∧ decode 0x86A00002 = .ok (.stbind 5 0 2)
    ∧ decode 0x87CB4000 = .ok (.stpos 6 45 0)
    ∧ decode 0x88E18200 = .ok (.copy 7 6 4)
    ∧ decode 0x89994000 = .ok (.rdwp 4 101)
    ∧ decode 0x8A05C000 = .ok (.bfence 23)
    ∧ decode 0x8B000C80 = .ok (.bwait 25)
    ∧ decode 0x8C050780 = .ok (.shadow 2 4 15)
    ∧ decode 0x8D000018 = .ok (.publish 3) :=
  ⟨rfl, rfl, rfl, rfl, rfl, rfl, rfl, rfl, rfl, rfl, rfl, rfl, rfl, rfl⟩

/-- Words of opcodes 0x90 to 0x9F. -/
theorem test_decode_barriers_queues_messages :
    decode 0x9000071A = .ok (.barInit 14 26)
    ∧ decode 0x91000A80 = .ok (.barReg 21)
    ∧ decode 0x9202C180 = .ok (.barArr 11 3)
    ∧ decode 0x93000D1F = .ok (.barWait 26 31)
    ∧ decode 0x94000C00 = .ok (.barAw 24)
    ∧ decode 0x95000680 = .ok (.barDrop 13)
    ∧ decode 0x96401A00 = .ok (.sqput 2 52)
    ∧ decode 0x977E8000 = .ok (.sqget 3 122)
    ∧ decode 0x98374000 = .ok (.sqpeek 1 93)
    ∧ decode 0x99000300 = .ok (.msend 0 6)
    ∧ decode 0x9A014080 = .ok (.mpost 5 1)
    ∧ decode 0x9B057A00 = .ok (.mtest 2 5 116)
    ∧ decode 0x9C000780 = .ok (.mcancel 15)
    ∧ decode 0x9D000343 = .ok (.spbar 52 3) :=
  ⟨rfl, rfl, rfl, rfl, rfl, rfl, rfl, rfl, rfl, rfl, rfl, rfl, rfl, rfl⟩

/-- Words of opcodes 0xA0 to 0xAF. -/
theorem test_decode_truss :
    decode 0xA0450000 = .ok (.tnext 2 20)
    ∧ decode 0xA106CA00 = .ok (.tdone 27 20)
    ∧ decode 0xA2042A11 = .ok (.trd 16 10769)
    ∧ decode 0xA307966E = .ok (.twr 30 5742)
    ∧ decode 0xA4000000 = .ok .tcommit
    ∧ decode 0xA5000280 = .ok (.thand 5)
    ∧ decode 0xA6048900 = .ok (.tmap 18 18) :=
  ⟨rfl, rfl, rfl, rfl, rfl, rfl, rfl⟩

/-- Words of opcodes 0xB0 to 0xBF. -/
theorem test_decode_matrix :
    decode 0xB0014081 = .ok (.mma 5 1 1)
    ∧ decode 0xB1068C15 = .ok (.mmas 26 24 21)
    ∧ decode 0xB2000000 = .ok (.aclr 0)
    ∧ decode 0xB3A60F00 = .ok (.acpy 5 24 30)
    ∧ decode 0xB4000280 = .ok (.scld 5)
    ∧ decode 0xB5200E00 = .ok (.wbld 1 28)
    ∧ decode 0xB601CD80 = .ok (.mstat 7 27) :=
  ⟨rfl, rfl, rfl, rfl, rfl, rfl, rfl⟩

/-- Words of opcodes 0xC0 to 0xCF. -/
theorem test_decode_reed :
    decode 0xC001CE15 = .ok (.zgen 7 28 1 5)
    ∧ decode 0xC1008185 = .ok (.zand 2 3 5)
    ∧ decode 0xC2008385 = .ok (.zandc 2 7 5)
    ∧ decode 0xC300C185 = .ok (.zor 3 3 5)
    ∧ decode 0xC4010382 = .ok (.zorc 4 7 2)
    ∧ decode 0xC5004303 = .ok (.zmux 1 6 3)
    ∧ decode 0xC6010300 = .ok (.znot 4 6)
    ∧ decode 0xC7014385 = .ok (.zxorc 5 7 5)
    ∧ decode 0xC83A8280 = .ok (.zcnt 1 106 5)
    ∧ decode 0xC9514100 = .ok (.zsum 2 69 2)
    ∧ decode 0xCA014281 = .ok (.zregen 5 5 1)
    ∧ decode 0xCB000E00 = .ok (.zseed 28)
    ∧ decode 0xCC0E4380 = .ok (.zclass 57 7) :=
  ⟨rfl, rfl, rfl, rfl, rfl, rfl, rfl, rfl, rfl, rfl, rfl, rfl, rfl⟩

/-- Words of opcodes 0xD0 to 0xDF. -/
theorem test_decode_0xd :
    decode 0xD0018A01 = .ok (.sadd 6 20 1)
    ∧ decode 0xD1064D05 = .ok (.ssub 25 26 5)
    ∧ decode 0xD2018290 = .ok (.smul 6 5 16)
    ∧ decode 0xD3050C04 = .ok (.sand 20 24 4)
    ∧ decode 0xD404810B = .ok (.sor 18 2 11)
    ∧ decode 0xD5058891 = .ok (.sxor 22 17 17)
    ∧ decode 0xD604881A = .ok (.sshl 18 16 26)
    ∧ decode 0xD7074902 = .ok (.sshr 0 29 18 2)
    ∧ decode 0xD80203A4 = .ok (.saddi 8 7 36)
    ∧ decode 0xD900B16D = .ok (.smovi 2 12653)
    ∧ decode 0xDA010011 = .ok (.smov 4 17)
    ∧ decode 0xDB848099 = .ok (.scmp 4 18 1 25)
    ∧ decode 0xDC074F03 = .ok (.ssel 29 30 3)
    ∧ decode 0xDD42CA11 = .ok (.sminmax 2 11 20 17)
    ∧ decode 0xDEA443E3 = .ok (.sld 5 17 7 12 3)
    ∧ decode 0xDF84496C = .ok (.sst 4 17 18 13 4) :=
  ⟨rfl, rfl, rfl, rfl, rfl, rfl, rfl, rfl, rfl, rfl, rfl, rfl, rfl, rfl, rfl, rfl⟩

/-- Words of opcodes 0xE0 to 0xEF. -/
theorem test_decode_system :
    decode 0xE0002080 = .ok (.syscall 8320)
    ∧ decode 0xE1003C42 = .ok (.trap 15426)
    ∧ decode 0xE2000000 = .ok .rfe
    ∧ decode 0xE3020B80 = .ok (.svtake 8 23)
    ∧ decode 0xE40021F1 = .ok (.svpost 67 113)
    ∧ decode 0xE51C4F14 = .ok (.csrr 113 3860)
    ∧ decode 0xE61DC428 = .ok (.csrw 119 1064)
    ∧ decode 0xE7000F00 = .ok (.extinv 30)
    ∧ decode 0xE8000000 = .ok .wfi
    ∧ decode 0xE9BCFCA0 = .ok (.qput 5 115 121 4)
    ∧ decode 0xEAEE8938 = .ok (.gsave 7 58 18 7 0)
    ∧ decode 0xEB8E5490 = .ok (.grest 4 57 41 2 0)
    ∧ decode 0xEC001B6A = .ok (.hlt 7018) :=
  ⟨rfl, rfl, rfl, rfl, rfl, rfl, rfl, rfl, rfl, rfl, rfl, rfl, rfl⟩

/-- Words of opcodes 0xF0 to 0xFF. -/
theorem test_decode_debug :
    decode 0xF00004AF = .ok (.brk 1199)
    ∧ decode 0xF1000D9D = .ok (.mark 3485)
    ∧ decode 0xF2159380 = .ok (.cnrd 86 39)
    ∧ decode 0xF3068000 = .ok (.wcoord 26) :=
  ⟨rfl, rfl, rfl, rfl⟩
/-! ### States -/

/-- Reset with a word in place (entry 6). -/
def placed (w : Nat) : State := State.reset.withFetchWord 32 w

/-- The placed machine at the issue of a nop: one supervisor group of eight quads, every lane active. -/
def base : State := match nextAction (placed 0) with | .slot _ _ t => t | _ => State.reset

/-- The issuing group changed. -/
def withGroup (s : State) (f : Group → Group) : State := setCur s (f (curGroup s))

/-- Uniform registers set. -/
def withUnifs (s : State) (l : List (Nat × Word)) : State :=
  withGroup s (fun g => { g with regs := { g.regs with unif := l.foldl (fun m x => insertKey m x.1 x.2) g.regs.unif } })

/-- A lane register of quad 0 set. -/
def withLane (s : State) (name : Nat) (q : QReg) : State :=
  withGroup s (fun g => { g with regs := { g.regs with lanes := insertKey g.regs.lanes (8 * name) q } })

/-- A capability register set. -/
def withCap (s : State) (k : Nat) (c : Cap) : State := withGroup s (fun g => writeCap g k c)

/-- A predicate set. -/
def withPred (s : State) (p : Nat) (w : Word) : State :=
  withGroup s (fun g => { g with regs := { g.regs with preds := insertKey g.regs.preds p w } })

/-- The issuing group in user mode. -/
def user (s : State) : State := withGroup s (fun g => { g with super := false })

/-- No lane of the issuing quads is active. -/
def quiet (s : State) : State := withGroup s (fun g => { g with quads := g.quads.map (fun e => (e.1, { e.2 with mask := 0 })) })

/-- Every quad on its own, quad 0 issuing. -/
def apart (s : State) : State :=
  let t := withGroup s (fun g => { g with quads := g.quads.map (fun e => (e.1, { e.2 with member := false })) })
  { t with cur := { t.cur with quads := [0] } }

/-- Two regions not committed. -/
def fullRegions (s : State) : State := withGroup s (fun g => { g with regions := g.regions ++ g.regions })

/-- The supervisor lane of core 0 issuing. -/
def inLane (s : State) : State :=
  let g := { freshGroup (getLaunch s 0) 0 0 0 Config.laneSlot 0 0 0 false with nquad := 1, super := true, quads := [(0, { Quad.fresh 0 with mask := 1 })] }
  { setGroup s 0 Config.laneSlot g with cur := { s.cur with slot := Config.laneSlot, quads := [0] } }

/-- 4 KiB of HBM through object 1, which needs no page map: the state and, in k8, a capability to it with every user right. -/
def withObject (s : State) : State :=
  let k := getCore s 0
  let d : Desc := ⟨1, 0, false, 0, false, false, false, false, 2 ^ 40, 0, 0, 0⟩
  let t := setCore (setPart s 0 { getPart s 0 with exist := true, ranges := [(0, 2 ^ 30)] }) 0 { k with descs := k.descs ++ [d] }
  withCap t 8 ⟨true, 1, 0, 4096, 0x7F⟩

/-- The group's team changed. -/
def withTeam (s : State) (f : Team → Team) : State := setCurTeam s (f (curTeam s))

/-- Core 0 changed. -/
def withCore (s : State) (f : Core → Core) : State := setCore s 0 (f (getCore s 0))

/-- The result is a value. -/
def okb {ε α : Type} (r : Except ε α) : Bool := match r with | .ok _ => true | .error _ => false

/-- The value of a result. -/
def val {ε α : Type} (r : Except ε α) (d : α) : α := match r with | .ok x => x | .error _ => d

theorem okb_val {ε α : Type} {r : Except ε α} (h : okb r = true) (d : α) : r = .ok (val r d) := by
  cases r with
  | ok x => rfl
  | error e => cases h

/-- What `Ready` asks for, as a Bool. -/
def readyB (s : State) (o : OpInfo) (srcs : List Src) : Bool :=
  okb (checkWait s (srcs ++ streamCaps (curGroup s) (dstStream o.dst))) && okb (checkUnder s srcs [])

/-- `Reads` holds of some values and state, as a Bool. -/
def readsB (s : State) (o : OpInfo) (srcs : List Src) : Bool := okb (readSources s o srcs) && okb (checkUnder s srcs [])

/-- What LaneRuns asks for, as a Bool. -/
def laneRunsB (s : State) (o : OpInfo) (srcs : List Src) (d : BitVec 7) (n : Nat) : Bool :=
  okb (checkSlot s o) && !srcs.any (srcRange s) && !dstRange s d n && noStreams srcs && (streamFault s srcs o.dst).isNone && !isStream d
    && readyB s o srcs
    && !peakBad (noteDead s srcs) d n && !creditShort (noteDead s srcs) d n

theorem laneRuns_of {s : State} {o : OpInfo} {srcs : List Src} {d : BitVec 7} {n : Nat} (h : laneRunsB s o srcs d n = true) :
    LaneRuns s o srcs d n := by
  simp only [laneRunsB, readyB, Bool.and_eq_true, Bool.not_eq_true', Option.isNone_iff_eq_none] at h
  obtain ⟨⟨⟨⟨⟨⟨⟨⟨h1, h2⟩, h3⟩, h4⟩, hf⟩, h5⟩, h6, h9⟩, h7⟩, h8⟩ := h
  exact ⟨okb_val h1 (), h2, h3, h4, hf, h5, ⟨okb_val h6 (), okb_val h9 ()⟩, h7, h8⟩

/-- The checks of an instruction that the group executes once, as a Bool. -/
def onceB (s : State) (o : OpInfo) (srcs : List Src) : Bool :=
  okb (checkSlot s o) && okb (checkReady s srcs []) && !(activeLanes s).isEmpty

/-- The same with the group whole. -/
def wholeB (s : State) (o : OpInfo) (srcs : List Src) : Bool := onceB s { o with noLane := true } srcs && !isParted (curGroup s)


/-! ### Single steps -/

/-- The state after a step. -/
def stepped (s : State) : State := match step s with | .next t => t | _ => s

/-- A placed instruction, with lane registers of quad 0 (entry 6). -/
def run (i : Instr) (l : List (Nat × Word)) : State :=
  let s := placed ((encode i).getD 0).toNat
  stepped (l.foldl (fun s x => withLane s x.1 ⟨x.2, x.2, x.2, x.2⟩) s)

/-- Lane 0 of a register of group 0. -/
def reg (s : State) (n : Nat) : Word := (lookup (getGroup s 0 0).regs.lanes (8 * n) QReg.zero).l0

/-- Class and pending mark of record 0 of core 0's supervisor queue. -/
def record0 (s : State) : Nat × Bool :=
  let r := getRec (getCore s 0) 0
  (r.cls, r.state == .pending)

/-- Sums are taken modulo 2^32 (R211). -/
theorem test_add_wraps : reg (run (.add 3 1 2) [(1, 0xFFFFFFFF), (2, 2)]) 3 = 1 := by decide +kernel
/-- A destination that is a source. -/
theorem test_sub_in_place : reg (run (.sub 2 1 2) [(1, 3), (2, 5)]) 2 = 0xFFFFFFFE := by decide +kernel
/-- Leading zeros of 0 are 32 (R219). -/
theorem test_clz_zero : reg (run (.clz 3 1) [(1, 0)]) 3 = 32 := by decide +kernel
/-- 1.5 × 2 + 0.25 = 3.25. -/
theorem test_fma_exact : reg (run (.fma 0 0 3 1 2) [(1, 0x3FC00000), (2, 0x40000000), (3, 0x3E800000)]) 3 = 0x40500000 := by decide +kernel
/-- −1 is less than 1 as signed numbers. -/
theorem test_icmp_signed : lookup (getGroup (run (.icmp 2 1 2 1 2) [(1, 0xFFFFFFFF), (2, 1)]) 0 0).regs.preds 1 0 &&& 0xF = 0xF := by decide +kernel
/-- The slot after slot 0 of a course is slot 1, and the next clock begins once nothing more may issue. -/
theorem test_nop_goes_on :
    let s := run .nop []
    (getQuad (getGroup s 0 0) 0).pc = 1 ∧ s.clock = 0 ∧ (stepped s).clock = 1 := by decide +kernel
/-- A word that no instruction has is an illegal-instruction trap (Table 16-1), whose record is pending. -/
theorem test_illegal_word :
    let s := stepped (placed 0xFF000000)
    record0 s = (3, true) := by decide +kernel
/-- A system call of each active lane leaves a record of class 0xE. -/
theorem test_syscall_record :
    let s := run (.syscall 7) []
    record0 s = (0xE, true) ∧ hasKey (getCore s 0).records 31 = true := by decide +kernel
/-- exit ends every lane. -/
theorem test_exit_ends : (getGroup (run .exit []) 0 0).quads.all (fun q => q.2.exited) = true := by decide +kernel
/-- Multi-byte values in memory are little-endian (R6): four bytes at offset 4. -/
theorem test_lds_byte_order :
    let s := withCore (withLane (placed ((encode (.lds 0 3 1 2)).getD 0).toNat) 1 ⟨4, 4, 4, 4⟩) (fun k => { k with scratch := memPut [] 4 [1, 2, 3, 4] })
    reg (stepped s) 3 = 0x04030201 := by decide +kernel
/-- A store waits in its region and has not reached the scratchpad (R151). -/
theorem test_sts_waits :
    let s := run (.sts 0 3 1 2) [(1, 4), (3, 7)]
    (getCore s 0).scratch = [] ∧ ((getGroup s 0 0).regions.headD (curRegion (getGroup s 0 0))).stores.length = 1 := by decide +kernel
/-- Every memory is in its canonical form at reset. -/
theorem test_reset_memories : State.reset.memWf = true := by decide

/-! ### Witnesses: for each statement, states and operands that meet its hypotheses, a clause at a time -/
/-! ### Witnesses: states and operands that meet the hypotheses of each statement -/

/-- A state whose q0 is bound to a stream of the scratchpad: entry 0, words of 4 bytes, 32 elements, one dimension (R170). -/
def withStream (s : State) : State :=
  withGroup s (fun g => { g with regs := { g.regs with
    streams := [(0, BitVec.ofNat 32 (2 ^ 27 + 2 ^ 26 + 2 ^ 20)), (2, 4), (3, 32), (5, 4)], defined := 1, binds := [(0, 0)] } })

/-- A lane instruction's streams, as in the second part of LaneResult: q0 as source a. -/
theorem witness_LaneResult_streams :
    let s := withStream base
    let srcs : List Src := [.reg 12 0, srcB s 3 0]
    (okb (checkSlot s (intInfo 1 12 3)) && !srcs.any (srcRange s) && !dstRange s 1 1 && (streamFault s srcs (some 1)).isNone
      && okb (streamSources s srcs)
      && readyB s (intInfo 1 12 3) srcs && okb (writeDst (noteDead (val (streamSources s srcs) ([], s)).2 srcs) 1 2 [List.replicate 32 7])) = true := by
  decide +kernel

theorem witness_IntegerResults : LaneRuns base (intInfo 1 2 3) [.reg 2 0, srcB base 3 0] 1 1
    ∧ LaneRuns base { intInfo 1 2 3 with encBad := readDstBad 1 } [.reg 2 0, srcB base 3 0, .reg 1 0] 1 1
    ∧ LaneRuns base (intInfo 1 2 3) [.reg 2 0, srcB base 3 0, .pred 7] 1 1 :=
  ⟨laneRuns_of (by decide +kernel), laneRuns_of (by decide +kernel), laneRuns_of (by decide +kernel)⟩

theorem witness_UnaryAndPairResults : LaneRuns base (intInfo1 11 2) [.reg 2 0] 11 1
    ∧ LaneRuns base { intInfo 2 4 6 with lit := 64, encBad := pairBad ([2, 4] ++ [6]) }
        [.reg 4 0, .reg 4 1, srcB base 6 0, srcB base 6 1] 2 2
    ∧ LaneRuns base { intInfo 2 4 6 with fnBad := decide (2 < (2 : BitVec 3).toNat), encBad := pairBad [2, 4] }
        [.reg 4 0, .reg 4 1, srcB base 6 0] 2 2
    ∧ slotFault base {} = none :=
  ⟨laneRuns_of (by decide +kernel), laneRuns_of (by decide +kernel), laneRuns_of (by decide +kernel), by decide +kernel⟩

/-- The bounds of the ranges: the number whose magnitude is no word, a number that is 0, the last lane bit. -/
theorem witness_IntegerFunctions : (0x7FFFFFFF : Word) ≠ 0x80000000 ∧ (1 : Word) ≠ 0 ∧ (31 : Nat) < 32 := by decide

theorem witness_FloatResults : LaneRuns base (fpInfo 1 2 3) [.reg 2 0, srcB base 3 0] 1 1
    ∧ (getCore base base.cur.core).sfuFree ≤ base.clock
    ∧ base.clock < (getCore (withCore base (fun k => { k with sfuFree := 1 })) 0).sfuFree
    ∧ LaneRuns (withCore base (fun k => { k with sfuFree := 1 })) (fpInfo1 1 2) [.reg 2 0] 1 1 :=
  ⟨laneRuns_of (by decide +kernel), by decide +kernel, by decide +kernel, laneRuns_of (by decide +kernel)⟩

/-- qscal to QN4 on the pair h2, h3, with a mean in h6. -/
theorem witness_PackedAndConversionResults : LaneRuns base { fpInfo 1 2 3 with fnBad := (2 : BitVec 2) == 3 } [.reg 2 0, srcB base 3 0] 1 1
    ∧ okb (crossCheck base { lit := 32, srcA := some 2, srcB := some 6, dst := some 1, bUsed := true }) = true
    ∧ LaneRuns base { lit := 32, srcA := some 2, srcB := some 6, dst := some 1, bUsed := true } [.reg 2 0, .reg 2 1, srcB base 6 0] 1 1 :=
  ⟨laneRuns_of (by decide +kernel), by decide +kernel, laneRuns_of (by decide +kernel)⟩

theorem witness_PredicateResults :
    let o : OpInfo := { lit := 32, srcA := some 2, srcB := some 3, bUsed := true, pBad := pairPred 1 2 }
    let o0 : OpInfo := { lit := 32, srcA := some 2, srcB := some 3, bUsed := true, pBad := pairPred 0 0 }
    let srcs : List Src := [.reg 2 0, srcB base 3 0]
    let s := withStream base
    let streamed : List Src := [.reg 12 0, srcB s 3 0]
    (okb (checkSlot base o) && !srcs.any (srcRange base) && noStreams srcs && (streamFault base srcs none).isNone && readyB base o srcs
      && okb (checkSlot base o0)
      && okb (checkSlot s { lit := 32, srcA := some 12, srcB := some 3, bUsed := true, pBad := pairPred 1 2 }) && !streamed.any (srcRange s)
      && (streamFault s streamed none).isNone && okb (streamSources s streamed)
      && readyB s { lit := 32, srcA := some 12, srcB := some 3, bUsed := true, pBad := pairPred 1 2 } streamed) = true := by
  decide +kernel

theorem witness_CrossLaneResults : okb (crossCheck base { srcA := some 2, dst := some 1 }) = true ∧ isParted (curGroup base) = false
    ∧ LaneRuns base { srcA := some 2, dst := some 1 } [.reg 2 0] 1 1
    ∧ okb (crossCheck base { fnBad := (2 : BitVec 2) == 3, pBad := pairPred 1 2 }) = true
    ∧ okb (checkSlot base { lit := 32, noLane := true, srcA := some 2, srcB := some 3, bUsed := true }) = true
    ∧ okb (checkReady base [.reg 2 0, srcB base 3 0] []) = true ∧ streamFault base [.reg 2 0, srcB base 3 0] none = none
    ∧ LaneRuns base { lit := 32, noLane := true, srcA := some 2, srcB := some 3, dst := some 1, bUsed := true } [.reg 2 0, srcB base 3 0] 1 1
    ∧ strayRead base 2 (namedLanes base (srcLanes base [] (srcB base 3 0))) = false
    ∧ (let s := withLane (apart base) 3 ⟨4, 4, 4, 4⟩
       LaneRuns s { lit := 32, noLane := true, srcA := some 2, srcB := some 3, dst := some 1, bUsed := true } [.reg 2 0, srcB s 3 0] 1 1
       ∧ strayRead s 2 (namedLanes s (srcLanes s [] (srcB s 3 0))) = true ∧ strayRead s 2 [4] = true ∧ firstLane s = some 0) :=
  ⟨by decide +kernel, by decide +kernel, laneRuns_of (by decide +kernel), by decide +kernel, by decide +kernel, by decide +kernel,
    by decide +kernel, laneRuns_of (by decide +kernel), by decide +kernel, laneRuns_of (by decide +kernel), by decide +kernel,
    by decide +kernel, by decide +kernel⟩

/-- With every lane active, and with none. -/
theorem witness_UniformResults :
    let o : OpInfo := { fnBad := false, lit := 32, astr := true, bUsed := true }
    (okb (checkSlot base o) && okb (checkReady base [.unif 31, unifSrc base 3] []) && !(activeLanes base).isEmpty
      && okb (checkSlot (quiet base) o) && okb (checkReady (quiet base) [.unif 31, unifSrc base 3] []) && (activeLanes (quiet base)).isEmpty)
      = true := by
  decide +kernel

/-- Reads that clear, in a group and in the supervisor lane, and reads that do not. -/
theorem witness_SpecialRegisterReads :
    (okb (checkSlot base { dst := some 1 }) && (specialReg base 0x0B 0).isSome && okb (checkReady base [] []) && !isStream 1
      && !dstRange base 1 1 && !peakBad base 1 1 && !creditShort base 1 1 && okb (checkSlot base { p0 := true })
      && decide ((224 : BitVec 14).toNat % 8 = 0) && decide (fieldNat (0x65 : BitVec 8) 5 3 = 3) && decide (fieldNat (0x65 : BitVec 8) 0 5 ≤ 5)
      && !(activeLanes base).isEmpty && decide (lookup (curGroup base).regs.dcs 7 0 ≤ 0)
      && decide (1 < lookup (curGroup (withGroup base (fun g => { g with regs := { g.regs with dcs := [(7, 2)] } }))).regs.dcs 7 0)) = true := by
  decide +kernel

/-- A branch to slot 2 of the course under p1, which is 1 in lane 0 alone: taken and kept lanes part; and in every lane or none. -/
theorem witness_BranchPlaces :
    let guarded := fun (w : Word) => let t := withPred base 1 w
      { t with cur := { t.cur with ctl := 64 } }
    let ok := fun (t : State) (h : BitVec 2) =>
      okb (checkSlot t { encBad := targetBad t (branchTarget t.cur.pc 0 2) }) && okb (checkReady t [] []) && (h != 3 || !guardSplit t)
        && t.cur.quads.all (fun q => decide ((branchQuad t h q 2).stack.length ≤ 16))
    (ok base 0 && ok (guarded 1) 0 && ok (guarded 1) 2 && ok (guarded 0) 3 && ok (guarded 0xFFFFFFFF) 0
      && quadActive (guarded 1) 0 == 1 && quadActive (guarded 0) 0 == 0) = true := by
  decide +kernel

theorem witness_FlowPlaces :
    let r := readSources base { srcA := some 2 } [.reg 2 0]
    let v := (val r ([], base)).1
    (readsB base { srcA := some 2 } [.reg 2 0] && !((activeLanes base).map (laneVal (v.getD 0 []))).any (pcBad base)
      && base.cur.quads.all (fun q => allSame (quadValues base (v.getD 0 []) q)) && !guardSplit base
      && allSame ((activeLanes base).map (laneVal (v.getD 0 [])))
      && base.cur.quads.all (fun q => decide ((branchQuad base 3 q ((quadValues base (v.getD 0 []) q).headD 0)).stack.length ≤ 16))
      && okb (checkSlot base { p0 := true, encBad := targetBad base (branchTarget base.cur.pc 0 2) }) && okb (checkSlot base { p0 := true })
      && okb (checkReady base [.unif 31] []) && !pcBad base (readUnif (curGroup base) base.clock 31)) = true := by
  decide +kernel

/-- Whole and parted, with others still going, with every other quad waiting at the same place, and with one waiting elsewhere; an exit
of all lanes, and one that leaves quads waiting at two places while two regions are uncommitted. -/
theorem witness_GangAndExit :
    let p := apart base
    let others := withGroup p (fun g => { g with quads := g.quads.map (fun e => (e.1, { e.2 with waiting := e.1 != 0, pc := p.cur.pc })) })
    let strewn := withGroup others (fun g => setQuad g 5 { getQuad g 5 with pc := 7 })
    let after := fun (t : State) => t.cur.quads.foldl (fun g q => setQuad g q
      { advanceQuad t.clock (ctlStall t) (ctlAstr t) t.cur.pc (getQuad g q) with waiting := true }) (curGroup t)
    let gone := fun (t : State) => t.cur.quads.foldl (fun g q => setQuad g q (exitQuad (quadActive t q) t.cur.nextPc (getQuad g q))) (curGroup t)
    (okb (checkSlot base { p0 := true }) && !isParted (curGroup base) && !(curGroup base).quads.any (fun e => e.2.waiting)
      && okb (checkSlot p { p0 := true }) && isParted (curGroup p) && !allWaiting (after p)
      && okb (checkSlot others { p0 := true }) && allWaiting (after others) && (waitingPcs (after others)).all (fun pc => pc == others.cur.pc)
      && okb (checkSlot strewn { p0 := true }) && allWaiting (after strewn) && !(waitingPcs (after strewn)).all (fun pc => pc == strewn.cur.pc)
      && okb (checkSlot base {}) && okb (checkReady base [] []) && !(allWaiting (gone base) && gangMismatch (gone base))
      && okb (checkSlot strewn {}) && okb (checkReady strewn [] []) && allWaiting (gone strewn) && gangMismatch (gone strewn)
      && regionsFull (fullRegions strewn)) = true := by
  decide +kernel

theorem witness_YieldRegionTrigger :
    (okb (checkSlot base { p0 := true }) && !regionsFull base && regionsFull (fullRegions base) && okb (checkSlot (fullRegions base) { p0 := true })
      && onceB base {} [] && !isLane base) = true := by
  decide +kernel

theorem witness_RegionEnd : 0 ≠ Config.laneSlot ∧ (getGroup base 0 0).regions ≠ [] ∧ stopsAtEnd base 0 0 = none := by decide +kernel

/-- Signals to the last group number, which holds no group, and to a group with a handler; a handler to return from. -/
theorem witness_UserInterrupts :
    let far := withUnifs base [(5, 63)]
    let near := setGroup (withUnifs base [(5, 1)]) 0 1 { curGroup base with user := { (curGroup base).user with handler := 0 } }
    let u := fun (s : State) => val (releaseOwn s) s
    let sig := fun (s : State) => onceB s { lit := 32, bUsed := true } [.unif 5, unifSrc s 6]
      && decide ((readUnif (curGroup s) s.clock 5).toNat < 64)
    let o : OpInfo := { lit := 32, p0 := true, srcB := some 2, bUsed := true }
    let v := (val (readSources base o [srcB base 2 0]) ([], base)).1
    let back := withGroup base (fun g => { g with user := { g.user with inHandler := true } })
    (!regionsFull far && okb (releaseOwn far) && sig far && sig (u far) && !canSignal (u far) 63
      && !regionsFull near && okb (releaseOwn near) && sig near && sig (u near) && canSignal (u near) 1
      && readsB base o [srcB base 2 0] && (firstLane base).isSome && !pcBad base (laneVal (v.getD 0 []) 0)
      && okb (checkSlot back { p0 := true }) && (curGroup back).user.inHandler && !isParted (curGroup back) && !regionsFull back) = true := by
  decide +kernel

/-- A state in which counter 3 stands at 62, one below its bound. -/
def counting (s : State) : State := withGroup s (fun g => { g with regs := { g.regs with dcs := [(3, 62)] } })

/-- Loads and stores of words at the start of an object, plain and ordered, on a counter that can take one more. -/
theorem witness_LoadsAndStores :
    let s := counting (withObject base)
    let i := memInfo 3 true (decide (4 < (2 : BitVec 3).toNat))
    let j := memInfo 3 false (decide (4 < (2 : BitVec 3).toNat))
    let cap := fun (v : State) => capAt (curGroup v) v.clock 8
    let load := fun (o : OpInfo) (acq : Bool) =>
      let o := { o with rangeBad := dataBad s 2 1 }
      let r := val (readSources s o (memSrcs o [] 8)) ([], s)
      let l := loadLanes r.2 (cap r.2) r.1 4
      let x := (val l ([], r.2)).2
      let m := loggedLanes x (cap r.2) r.1 (fun y i => readHeld y i (cap r.2).obj.toNat (objOff (cap r.2) (offOf r.1 i)) 4)
      let z := val (if acq then m else l) ([], r.2)
      readsB s o (memSrcs o [] 8) && !peakBad r.2 2 1 && okb (checkLanes r.2 (cap r.2) r.1 4 0x01 0) && okb l && (!acq || okb m)
        && okb (writeLoaded z.2 2 4 z.1)
    let store := fun (o : OpInfo) (s : State) (f : State → Cap → List Lanes → List Write → Res State) =>
      let o := { o with rangeBad := dataBad s 2 1 }
      let q := val (readSources s o (memSrcs o (dataSrcs 2 1) 8)) ([], s)
      let c := checkStore q.2 (cap q.2) q.1 4 0x02 1
      let u := val c s
      readsB s o (memSrcs o (dataSrcs 2 1) 8) && okb c && okb (f u (cap q.2) q.1 (storeWrites u (cap q.2) q.1 4))
    (decide (lookup (curGroup s).regs.dcs 3 0 < 63) && load i false && load (orderInfo 3 1 1 2 true) true && !(activeLanes s).isEmpty
      && store j s (fun u _ _ ws => holdStore u ws 3)
      && !regionsFull s && okb (releaseOwn s) && store (orderInfo 3 1 1 2 false) s performNow
      && store (orderInfo 3 1 1 2 false) (val (releaseOwn s) s) performNow) = true := by
  decide +kernel

/-- The last word of the allocation, with the bank queues free and with the memory unit held back. -/
theorem witness_ScratchpadLoad :
    let s := withLane base 3 ⟨65532, 0, 4, 8⟩
    let o := memInfo 3 true (decide (4 < (2 : BitVec 3).toNat))
    let x := noteDead s [.reg (plainField 3) 0]
    let held := withCore s (fun k => { k with bankHold := 9 })
    let srcs := Src.reg (plainField 3) 0 :: dataSrcs 2 1
    let stores := fun (s : State) => okb (checkSlot s (memInfo 3 false (decide (4 < (2 : BitVec 3).toNat)))) && !dataBad s 2 1 && !srcs.any (srcRange s)
      && noStreams srcs && okb (checkReady s srcs [])
      && (activeLanes s).all (fun i => okb (checkScratch s i (offOf (srcs.map (srcLanes s [])) i) 4)) && !isLane s
      && decide (heldCount (curGroup s) < Config.storeBuffer)
    (okb (checkSlot s o) && !dataBad s 2 1 && okb (checkReady s [.reg (plainField 3) 0] []) && !isStream (plainField 3)
      && (activeLanes s).all (fun i => okb (checkScratch s i (laneVal (srcLanes s [] (.reg (plainField 3) 0)) i).toNat 4))
      && (activeLanes s).all (fun i => !scratchBad s (laneVal (srcLanes s [] (.reg (plainField 3) 0)) i).toNat 4)
      && decide ((getCore s s.cur.core).bankHold ≤ s.clock) && stores s && stores (quiet s)
      && !peakBad x (plainField 2) 1 && !creditShort x (plainField 2) 1
      && okb (checkSlot held o) && !isLane held && !(activeLanes held).isEmpty && decide (held.clock < (getCore held held.cur.core).bankHold)) = true := by
  decide +kernel

/-- Stores with room in the buffer, with a full one, with no active lane and in the supervisor lane; and one that performs. -/
theorem witness_ScratchpadStore :
    let s := withLane (counting base) 3 ⟨65532, 0, 4, 8⟩
    let srcs := Src.reg (plainField 3) 0 :: dataSrcs 2 1
    let ok := fun (s : State) => let vals := srcs.map (srcLanes s [])
      okb (checkSlot s (memInfo 3 false (decide (4 < (2 : BitVec 3).toNat)))) && !dataBad s 2 1 && !srcs.any (srcRange s) && noStreams srcs
        && okb (checkReady s srcs []) && (activeLanes s).all (fun i => okb (checkScratch s i (offOf vals i) 4))
    let one : StoreOp := ⟨[⟨0, Config.scratchObj, 0, 4, 0, 0, [1, 2, 3, 4], false⟩], false, 0, 0, 0, 0⟩
    let full := withGroup s (fun g => setCurRegion g { curRegion g with stores := List.replicate 16 one })
    let l := withLane (inLane base) 3 ⟨4, 4, 4, 4⟩
    let ws := (activeLanes l).map (fun i => (⟨i, Config.scratchObj, 4, 4, 0, 0, [0, 0, 0, 0], false⟩ : Write))
    (ok s && decide (lookup (curGroup s).regs.dcs 3 0 < 63) && !isLane s && !(activeLanes s).isEmpty
      && decide (heldCount (curGroup s) < Config.storeBuffer)
      && ok (quiet s) && (activeLanes (quiet s)).isEmpty
      && ok full && decide (Config.storeBuffer ≤ heldCount (curGroup full)) && okb (drainOldest (noteDead full srcs) full.cur.core full.cur.slot)
      && ok l && isLane l && !(activeLanes l).isEmpty
      && okb (performAll (noteDead l srcs) ws)
      && okb (performWrite s 0 0 ⟨0, Config.scratchObj, 65532, 4, 0, 0, [1, 2, 3, 4], false⟩)) = true := by
  decide +kernel

/-- Narrowing to the last byte of a capability, past it, from one without a tag and from k0, in a supervisor and in a user group; the rights
of a capability; a field of one; and a pending capability. -/
theorem witness_CapabilityDerivation :
    let s := withUnifs (withObject base) [(28, 4095), (30, 1)]
    let past := withUnifs s [(28, 4096)]
    let mint := withUnifs s [(28, 1)]
    let cap := capAt (curGroup s) s.clock 8
    let ok := fun (s : State) (a : Nat) => okb (checkSlot s { encBad := decide (28 < (28 : BitVec 5).toNat), kBad := decide ((9 : BitVec 4).toNat < 2) })
      && okb (checkReady s ((upTo 4).map (fun i => .unif (28 + i)) ++ [.cap a]) [])
    (ok s 8 && (firstLane s).isSome && cap.tag && (pair44 (curGroup s) s.clock 28).2 && (pair44 (curGroup s) s.clock 30).2
      && decide ((pair44 (curGroup s) s.clock 28).1 + decLen (pair44 (curGroup s) s.clock 30).1 ≤ capLen cap)
      && ok past 8 && decide (capLen cap < (pair44 (curGroup past) past.clock 28).1 + decLen (pair44 (curGroup past) past.clock 30).1)
      && ok (quiet s) 8 && (firstLane (quiet s)).isNone && ok s 7 && !(capAt (curGroup s) s.clock 7).tag
      && ok (user s) 0 && !isSuper (user s) && (firstLane (user s)).isSome
      && ok mint 0 && isSuper mint && okb (descOf mint mint.cur.core (readUnif (curGroup mint) mint.clock 28).toNat)
      && ok s 0 && (match descOf s s.cur.core (readUnif (curGroup s) s.clock 28).toNat with | .error (.cap 0x09) => true | _ => false)
      && okb (checkSlot s { kBad := false }) && okb (checkReady s [.unif 28, .cap 8] []) && okb (checkReady s [.unif 28, .cap 2] [])
      && laneRunsB s { dst := some 1, fnBad := (3 : BitVec 3) == 7 } [.cap 8] 1 1
      && decide (cap.base.toNat + capLen cap ≤ 2 ^ 44) && (curGroup base).regs.kpend.isEmpty) = true := by
  decide +kernel

/-- ldk of one quantum by every lane; stk of k8, which may be stored, in every lane, and of one that may not. -/
theorem witness_CapabilityLoadStore :
    let s := counting (withObject base)
    let o : OpInfo := memInfo 3 true false
    let r := readSources s { o with kBad := false } (memSrcs o [] 8)
    let t := (val r ([], s)).2
    let vals := (val r ([], s)).1
    let cap := capAt (curGroup t) t.clock 8
    let so : OpInfo := memInfo 3 false false
    let bare := withCap s 9 ⟨true, 1, 0, 16, 0x3F⟩
    let store := fun (s : State) (k : Nat) =>
      let q := val (readSources s so (memSrcs so [.cap k] 8)) ([], s)
      checkWrites q.2 cap q.1 16 1 (fun i => checkAccess q.2 cap i (offOf q.1 i) 16 0x02 1 true)
        (fun i => derivable cap (capAt (curGroup q.2) q.2.clock k) i (offOf q.1 i))
    let u := val (store s 8) s
    (readsB s { o with kBad := false } (memSrcs o [] 8) && okb (checkLanes t cap vals 16 0x01 0) && okb (gather (fun s i => loadQuantum s i cap (offOf vals i)) t (activeLanes t))
      && readsB s so (memSrcs so [.cap 8] 8) && okb (store s 8)
      && okb (holdStore u ((activeLanes u).map (fun i => ⟨i, cap.obj.toNat, objOff cap (offOf vals i), 16, 2, 0, capBytes cap, false⟩)) 3)
      && readsB bare so (memSrcs so [.cap 9] 8) && !okb (store bare 9)
      && (capAt (curGroup bare) bare.clock 9).tag && !(capAt (curGroup bare) bare.clock 9).rights.getLsbD 6) = true := by
  decide +kernel

/-- Atomics of four and of eight bytes by every lane, the last at its widest, and with no active lane; reductions, plain and ordered, with room in
the reduction log, with none, and in the supervisor lane. -/
theorem witness_AtomicsAndReductions :
    let s := withObject base
    let cap := fun (v : State) => capAt (curGroup v) v.clock 8
    let reads := fun (o : OpInfo) (n : Nat) (v : State) =>
      (readsB v { o with rangeBad := dataBad v 2 n } (memSrcs o (dataSrcs 2 n) 8),
        val (readSources v { o with rangeBad := dataBad v 2 n } (memSrcs o (dataSrcs 2 n) 8)) ([], v))
    let atomic := fun (o : OpInfo) (n regs : Nat) (f : Nat → List Word → Nat) (v : State) =>
      let (b, vals, t) := reads o regs v
      let c := checkStore t (cap t) vals n 0x0B 2
      let u := val c t
      let p := translateWrites u 0 ((activeLanes u).map (fun i => ⟨i, (cap t).obj.toNat, objOff (cap t) (offOf vals i), n, 3, 0, [], false⟩))
      let w := val p u
      let m := loggedLanes w (cap t) vals (fun z i => atomicLane z i (cap t) (offOf vals i) n (fun old => f old (laneArgs (vals.drop 1) i)))
      let ws := (val m ([], w)).1.map (fun x => (⟨x.1, (cap t).obj.toNat, objOff (cap t) (offOf vals x.1), n, 3, 0,
              leBytes n (f (leNat x.2) (laneArgs (vals.drop 1) x.1)), false⟩ : Write))
      (decide (lookup (curGroup v).regs.dcs 7 0 < 63) && b && okb c && okb p && okb m,
        !(val m ([], w)).1.isEmpty && okb (writeLoaded (pushStore (val m ([], w)).2 ws true 0) 2 n (val m ([], w)).1))
    let full := fun (x : Bool × Bool) => x.1 && x.2
    let a1 := atomic (atomInfo 3 5 false) 4 2 (fun old v => atomNew 6 old (arg v 0).toNat (arg v 1).toNat)
    let a2 := atomic (atomInfo 3 0 (decide (5 < (5 : BitVec 3).toNat))) 8 4 (fun old v => atombNew 5 old (pairNat v 0) (pairNat v 2))
    let a3 := atomic (atomInfo 3 0 (decide (3 < (3 : BitVec 3).toNat))) 4 1 (fun old v => fatomOp 3 old (arg v 0).toNat)
    let none_ := quiet s
    let ordered := fun (n : Nat) => setLaunch s 0 { curLaunch s with flags := 16, fredlog := n }
    let red := fun (o : OpInfo) (n code : Nat) (s : State) =>
      let (b, vals, t) := reads o (widthNames n) s
      let c := checkStore t (cap t) vals n 0x0A 2
      let u := val c t
      let ws : List Write := (activeLanes u).map (fun i => ⟨i, (cap t).obj.toNat, objOff (cap t) (offOf vals i), n, 4, code, datumOf vals n i, false⟩)
      let x := translateWrites u 0 ws
      (b && okb c && okb x, decide (32 ≤ code ∧ (curLaunch u).fredlog < (curTeam u).fredlog.length + ws.length),
        isLane (val x u) && okb (performAll (val x u) ws))
    let fo : OpInfo := { memInfo 3 false false with fnBad := decide (2 < (2 : BitVec 3).toNat) }
    let plain := red fo 4 18 s
    let room := red fo 4 34 (ordered 32)
    let past := red fo 4 34 (ordered 31)
    let lane := red fo 4 18 (withObject (inLane base))
    let wide := red (memInfo 3 false ((3 : BitVec 3) != 2 && (3 : BitVec 3) != 3)) 8 7 s
    (okb (releaseOwn s) && !regionsFull s && full (a1 s) && full (a1 (val (releaseOwn s) s)) && full (a2 s) && full (a3 s)
      && okb (releaseOwn none_) && !regionsFull none_ && (a1 none_).1 && (a1 (val (releaseOwn none_) none_)).1 && (activeLanes none_).isEmpty
      && plain.1 && !plain.2.1 && wide.1 && room.1 && !room.2.1 && past.1 && past.2.1 && lane.1 && lane.2.2) = true := by
  decide +kernel

/-- The largest operands. -/
theorem witness_AtomicFunctions : (0xFFFFFFFF : Nat) < 2 ^ 32 := by decide

theorem witness_FencesAndCaches :
    let s := counting (withObject base)
    let o := memInfo 3 false false
    let of_ : OpInfo := { fnBad := decide (3 < (3 : BitVec 3).toNat), scopeBad := decide (5 < (5 : BitVec 3).toNat) }
    let src := memSrcs o [] 8
    let r := val (readSources s o src) ([], s)
    let u := r.2
    let cap := capAt (curGroup u) u.clock 8
    let x := checkWrites u cap r.1 128 1 (fun i => match checkAccess u cap i (offOf r.1 i) 128 0x02 1 true with
      | .error e => .error e
      | .ok () => if objOff cap (offOf r.1 i) % 128 ≠ 0 then
          .error (.trap { cls := 5, code := 0x05, lane := i, obj := cap.obj.toNat, off := objOff cap (offOf r.1 i), kind := 1 })
        else .ok ()) (fun _ => .ok ())
    let all := fun (size need kind : Nat) (al : Bool) => (activeLanes u).all (fun i => okb (checkAccess u cap i (offOf r.1 i) size need kind al))
    let q : OpInfo := { o with fnBad := decide (2 < (2 : BitVec 3).toNat), scopeBad := decide (5 < (5 : BitVec 3).toNat) }
    let d := liftMem 0 1 0 0 (descOf u u.cur.core 1)
    let p : OpInfo := { srcA := some 3, pBad := pairPred 1 2 }
    let pf := memInfo 3 true (decide (1 < (1 : BitVec 3).toNat))
    let n := val (readSources (quiet s) o src) ([], s)
    (onceB s of_ [] && okb (releaseOwn s) && !regionsFull s && onceB (val (releaseOwn s) s) of_ []
      && readsB s pf (memSrcs pf [] 8) && okb (prefLanes u cap r.1 true)
      && readsB s o src && decide (lookup (curGroup s).regs.dcs 3 0 < 63) && okb x
      && okb (holdStore (val x u) ((activeLanes (val x u)).map (fun i => ⟨i, 1, objOff cap (offOf r.1 i), 128, 0, 0, List.replicate 128 0, false⟩)) 3)
      && readsB s p (memSrcs p [] 8) && all 1 0x20 0 false
      && okb (foldRes (fun (acc : List Nat × State) i => match pinLane acc.2 i cap (offOf r.1 i) true with
        | .error e => .error e
        | .ok (b, s) => .ok (if b then acc.1 ++ [i] else acc.1, s)) ([], u) (activeLanes u))
      && (firstLane u).isSome && (firstLane n.2).isNone && okb d && readsB s q (memSrcs q [] 8) && all 1 0x02 1 false
      && (match d with | .ok (e, _) => (activeLanes u).all (fun i => decide (objOff cap (offOf r.1 i) < e.length)) | .error _ => false)) = true := by
  decide +kernel

theorem witness_StreamsAndUniformAccess :
    let s := counting (withUnifs (withObject base) [(24, BitVec.ofNat 32 (2 ^ 27 + 2 ^ 26 + 2 ^ 20)), (26, 4), (27, 1), (29, 4)])
    let b := withStream base
    let words := (upTo 8).map (fun i => readUnif (curGroup s) s.clock (24 + i))
    let ld := unifAccess s 7 8 8 0x01 0 0
    let st := unifAccess s 7 8 8 0x02 1 0
    let x := liftMem 0 1 0 1 (descOf s s.cur.core 1)
    (onceB s { astr := true, encBad := decide (24 < (24 : BitVec 5).toNat) } ((upTo 8).map (fun i => .unif (24 + i))) && !streamBad words
      && onceB b { astr := true, encBad := false } [] && (curGroup b).regs.defined.getLsbD 0
      && laneRunsB b { astr := true, dst := some 1 } [] 1 1
      && onceB s { astr := true, encBad := unifWidthBad 30 3 } [.unif 7, .cap 8] && (firstLane s).isSome && okb ld && okb (readHeld s 0 1 0 8)
      && onceB s { encBad := unifWidthBad 30 3 } [.unif 7, .unif 30, .unif 31, .cap 8] && okb st && okb x
      && (match x with
        | .ok (e, t) => okb (kindCheck e 0 1 0 1) && okb (holdStore t [⟨0, 1, 0, 8, 0, 0, leBytes 8 7, false⟩] 3)
        | .error _ => false)) = true := by
  decide +kernel
/-- A copy of 64 bytes from the scratchpad to an object, an expanding copy from the object, a descriptor with nothing to copy; a busy channel; a
batch that failed; eight batches outstanding. -/
theorem witness_CopiesAndBatches :
    let s := counting (withUnifs (withObject base) [(24, BitVec.ofNat 32 (2 ^ 23 + 8 * 2 ^ 14)), (27, 64), (7, 1)])
    let expand := withUnifs s [(24, BitVec.ofNat 32 (2 * 2 ^ 28 + 2 ^ 22 + 8 * 2 ^ 18)), (27, 128), (28, 512)]
    let none_ := withUnifs s [(27, 0)]
    let words := fun (s : State) => (upTo 8).map (fun i => readUnif (curGroup s) s.clock (24 + i))
    let once := fun (s : State) =>
      onceB s { astr := true, noLane := true, encBad := decide (24 < (24 : BitVec 5).toNat) } ((upTo 8).map (fun i => .unif (24 + i)))
    let ok := fun (s : State) =>
      let w := words s
      let src := capAt (curGroup s) s.clock (srcReg w)
      let dst := capAt (curGroup s) s.clock (dstReg w)
      once s && decide ((getChannel s 0 7).state = 0) && okb (checkReady s (copyCaps w) []) && !copyBad w && !copyOverlap w src dst
        && decide (copyKind w < 3) && (readRanges w).all (fun r => okb (checkRange s (srcScratch w) src 0 0x01 4 r))
        && (dstRanges w).all (fun r => okb (checkRange s (dstScratch w) dst 0 0x02 5 r))
        && (copyKind w != 2 || (scaleAreas w).all (fun r => okb (checkRange s (srcScratch w) src 0 0x02 4 r)))
    let busy := setChannel s 0 7 { Channel.idle with state := 2 }
    let open3 := withGroup s (fun g => { g with batch := ⟨3, [(1, 1)], [], [], 0⟩ })
    let failed := withGroup s (fun g => { g with batch := ⟨3, [], [(1, 3)], [(1, 0)], 1⟩ })
    let many := withGroup s (fun g => { g with batch := ⟨9, (upTo 8).map (fun i => (i + 1, 1)), [], [], 0⟩ })
    let pk := withCap s 8 ⟨true, 1, 0, 4096, 0x10⟩
    let d := liftMem 0 1 0 1 (descOf pk 0 1)
    let ready := fun (v : State) =>
      let d := liftMem 0 1 0 1 (descOf v 0 1)
      let u := (val d (⟨0, 0, false, 0, false, false, false, false, 0, 0, 0, 0⟩, v)).2
      onceB v {} [.cap 8] && decide (lookup (curGroup v).regs.dcs 7 0 < 63) && (firstLane v).isSome
        && okb (checkCap v (capAt (curGroup v) v.clock 8) 0 0x10) && okb d && ((getCore u 0).part == (getCore v 0).part)
        && okb (loggedOp u 0 0 (entryHome u (getCore u 0).part 1).1 (entryHome u (getCore u 0).part 1).2)
    (ok s && (firstLane s).isSome && ok expand && copyKind (words expand) == 2 && once none_ && copyBad (words none_)
      && okb (checkReady none_ (copyCaps (words none_)) []) && once busy && decide ((getChannel busy 0 7).state ≠ 0)
      && laneRunsB s { dst := some 1 } [] 1 1 && onceB s {} [] && decide (openBatches (curGroup s).batch < 8)
      && onceB many {} [] && decide (8 ≤ openBatches (curGroup many).batch)
      && onceB open3 {} [.unif 7] && batchUpTo ((curGroup open3).batch.opened + 2 ^ 32 - 1) 1 && !batchesDone (curGroup open3).batch 1
      && onceB failed {} [.unif 7] && batchUpTo ((curGroup failed).batch.opened + 2 ^ 32 - 1) 1 && batchesDone (curGroup failed).batch 1
      && oldestFailed (curGroup failed).batch 1 == some (1, 3)
      && (let fine := withGroup failed (fun g => { g with batch := { g.batch with failed := [] } })
          onceB fine {} [.unif 7] && batchesDone (curGroup fine).batch 1 && oldestFailed (curGroup fine).batch 1 == none)
      && onceB pk { pBad := pairPred 1 2 } [.cap 8] && okb (checkCap pk (capAt (curGroup pk) pk.clock 8) 0 0x10) && okb d
      && okb (releaseOwn pk) && !regionsFull pk && ready pk && ready (val (releaseOwn pk) pk)) = true := by
  decide +kernel

/-- A barrier of two members at the last words of the allocation, one of which has arrived. -/
theorem witness_Barriers :
    let s := withUnifs base [(3, 65528), (4, 0), (5, 1)]
    let x : Barrier := ⟨65528, 255, [0, 1], [1]⟩
    let y : Barrier := ⟨65528, 255, [], []⟩
    let t := withTeam s (fun m => { m with barriers := [x] })
    let u := val (releaseOwn t) t
    let at_ := fun (s : State) (srcs : List Src) (b : Barrier) => wholeB s {} (.unif 3 :: srcs)
      && (match barrierOff s 3 with | .ok o => o == 65528 | _ => false) && getBarrier (curTeam s) b.offset == some b
    let again := withGroup t (fun g => { g with user := { g.user with waits := [.barrier 65528 0 t.cur.pc true] } })
    ((let l := setLaunch s 0 { getLaunch s 0 with barriers := 1 }
      decide ((curTeam l).barriers.length < (curLaunch l).barriers) && getBarrier (curTeam l) 65528 == none && wholeB l {} [.unif 3, .unif 4]
        && okb (barrierOff l 3) && !regionsFull l && okb (releaseOwn l) && readUnif (curGroup l) l.clock 4 == 0)
      && wholeB again {} [.unif 3] && !regionsFull again && (abandoned again).isSome && (abandoned t).isNone
      && (let r := withTeam s (fun m => { m with barriers := [y] })
          wholeB r {} [.unif 3, .unif 5] && okb (barrierOff r 3) && !regionsFull r && okb (releaseOwn r)
            && getBarrier (curTeam r) 65528 == some y && readUnif (curGroup r) r.clock 5 == 1)
      && at_ t [] x && !regionsFull t && okb (releaseOwn t) && at_ u [] x && mayArrive t x && mayArrive u x
      && at_ t [.unif 4] x && x.phase != 0 && x.members.contains 0
      && (let w := withUnifs t [(4, 255)]
          at_ w [.unif 4] x && x.phase == (readUnif (curGroup w) w.clock 4).toNat % 256)) = true := by
  decide +kernel

/-- The phases of a barrier of two: the last of two arrivals, the first, and a drop that leaves one, two of three, or none. -/
theorem witness_Barriers_phases :
    (let b : Barrier := ⟨0, 255, [0, 1], [1]⟩
     b.members.contains 0 = true ∧ b.arrived.contains 0 = false ∧ b.arrived.length + 1 = b.members.length)
    ∧ (let b : Barrier := ⟨0, 255, [0, 1], []⟩
       b.arrived.contains 0 = false ∧ b.arrived.length + 1 ≠ b.members.length ∧ (dropFrom b 0).members ≠ []
        ∧ (b.arrived.filter (· != 0)).length ≠ (dropFrom b 0).members.length)
    ∧ (dropFrom ⟨0, 255, [0], []⟩ 0).members = []
    ∧ (let b : Barrier := ⟨0, 255, [0, 1], [1]⟩
       (dropFrom b 0).members ≠ [] ∧ (b.arrived.filter (· != 0)).length = (dropFrom b 0).members.length) := by decide

/-- A queue of one entry, empty and full, which the role may use both ways. -/
theorem witness_StageQueues :
    let l := { getLaunch base 0 with roles := [(0, ⟨0, 8, 1, 1, 240, some 3, some 3⟩)] }
    let q := fun (put : Nat) => withTeam (setLaunch base 0 l) (fun m => { m with queues := [(3, ⟨1, 65532, put, 0⟩)] })
    let put : OpInfo := { noLane := true, srcA := some 2 }
    let get : OpInfo := { noLane := true, dst := some 1 }
    let takes := fun (v : State) (n : Nat) => match queueCheck v 3 ((curRole v).outq == some 3) with | .ok x => queueCount x == n | _ => false
    let u := val (releaseOwn (q 0)) (q 0)
    (wholeB (q 0) put [] && readsB (q 0) put [.reg 2 0] && takes (q 0) 0 && takes (q 1) 1
      && wholeB (q 1) put [] && readsB (q 1) put [.reg 2 0] && !regionsFull (q 1) && !regionsFull (q 0) && okb (releaseOwn (q 0)) && wholeB u put []
      && readsB u put [.reg 2 0] && takes u 0 && (firstLane u).isSome
      && !scratchBad (q 1) 65532 4 && !scratchBad (val (releaseOwn (q 1)) (q 1)) 65532 4
      && wholeB (q 1) get [] && wholeB (q 0) get [] && okb (queueCheck (q 1) 3 ((curRole (q 1)).inq == some 3))
      && okb (queueCheck (q 0) 3 ((curRole (q 0)).inq == some 3)) && okb (queueCheck (q 0) 3 true)
      && okb (writeDst (q 1) 1 0 [List.replicate 32 0]) && okb (releaseOwn (q 1)) && wholeB (val (releaseOwn (q 1)) (q 1)) get []
      && okb (writeDst (val (releaseOwn (q 1)) (q 1)) 1 0 [List.replicate 32 0])) = true := by
  decide +kernel

/-- A message of 256 bytes, the longest, to the last core; a receive of 256 bytes; a full set of receives; a receive to test. -/
theorem witness_MessagesAndSpans :
    let s := withUnifs base [(28, 319), (30, 256), (31, 65280), (20, 256 * 65536), (23, 65272)]
    let u := val (releaseOwn s) s
    let ready := fun (v : State) => onceB v { noLane := true, encBad := decide (28 < (28 : BitVec 5).toNat) } (unifSrcs 28 4)
      && decide ((unifQuad v 28).getD 0 0 < 320) && decide ((unifQuad v 28).getD 2 0 ≤ 256) && decide ((unifQuad v 28).getD 3 0 % 8 = 0)
      && decide ((unifQuad v 28).getD 3 0 + (unifQuad v 28).getD 2 0 ≤ (curTeam v).size)
      && !scratchBad v ((unifQuad v 28).getD 3 0) ((unifQuad v 28).getD 2 0)
    let w := unifQuad s 20
    let cap := w.getD 0 0 / 2 ^ 16 % 512
    let one := setLaunch s 0 { getLaunch s 0 with receives := 1 }
    let r : Receive := ⟨0, 0, 256, false, 0, 0, 0, 0, 0, some 319⟩
    let o : OpInfo := { noLane := true, srcA := some 2, pBad := pairPred 1 2 }
    let v := (val (readSources s o [.reg 2 0]) ([], s)).1
    let span := fun (v : State) => getSpan v v.cur.core (curGroup s).team 3
    let near := withUnifs s [(28, 39)]
    let again := withGroup s (fun g => { g with user := { g.user with waits := [.span 3 0 s.cur.pc] } })
    (ready s && !regionsFull s && okb (releaseOwn s) && ready u && dieOf 319 != curDie u
      && ready near && !regionsFull near && okb (releaseOwn near) && ready (val (releaseOwn near) near) && dieOf 39 == curDie near
      && wholeB again { encBad := (1 : BitVec 6) == 0 } [] && !regionsFull again && (abandoned again).isSome && (abandoned s).isNone
      && onceB s { noLane := true, encBad := decide (28 < (20 : BitVec 5).toNat) } (unifSrcs 20 4)
      && decide (w.getD 0 0 / 2 ^ 25 = 0) && decide (w.getD 0 0 / 2 ^ 10 % 64 = 0) && decide (cap = 256) && decide (w.getD 3 0 % 8 = 0)
      && decide (w.getD 3 0 + 8 + cap ≤ (curTeam s).size)
      && (lowestFree (getCore one 0).receives 256 == some 0) && decide (postedBy (getCore one 0) 0 < (curLaunch one).receives)
      && decide ((curLaunch s).receives ≤ postedBy (getCore s 0) (curGroup s).team)
      && readsB s o [.reg 2 0] && (firstLane s).isSome && decide ((laneVal (v.getD 0 []) 0).toNat ≤ 255)
      && ((ownReceive (withCore s (fun k => { k with receives := [(0, r)] })) 0).bind (·.done)).isSome
      && onceB s { noLane := true } [.unif 3]
      && wholeB s { encBad := (1 : BitVec 6) == 0 } [] && (span s).arrivals == [] && wholeB u { encBad := (1 : BitVec 6) == 0 } []
      && (span u).arrivals == []) = true := by
  decide +kernel

/-- A truss of one tile of two grains, in the first words of an object; the launch both owns it and tunes it. -/
def withTruss (s : State) (claims : FMap Claim) (staged : Bool) : State :=
  let s := withObject s
  let t : Truss := ⟨1, [2, 1, 1, 1], [1, 1, 1, 1], ⟨true, 1, 0, 4096, 0x7F⟩, 0xE4, 0x01010102, 0, 0x0101, 1, false⟩
  let k := getCore s 0
  let s := setCore s 0 { k with descs := k.descs.map (fun d => if d.id = 1 then { d with kind := 4 } else d) }
  let s := setLaunch s 0 { getLaunch s 0 with truss := some t, tuner := some 0 }
  withGroup (withTeam s (fun m => { m with claims := claims })) (fun g => { g with staging := ⟨[], staged⟩ })

theorem witness_TrussInstructions :
    let s := withTruss base [] false
    let u := val (releaseOwn s) s
    let t := val (ownTruss s) ⟨0, [], [], Cap.null, 0, 0, 0, 0, 0, false⟩
    let o : OpInfo := { fnBad := (1 : BitVec 3) == 0, encBad := decide (26 < (26 : BitVec 5).toNat) }
    let once := fun (s : State) (o : OpInfo) (srcs : List Src) => onceB s { o with noLane := true } srcs && okb (ownTruss s)
    let c := withUnifs (withTruss base [(63, ⟨0, [2, 1, 1, 1], 3, 1, false⟩)] true) [(5, 63), (9, 0), (10, 1), (11, 0)]
    let cu := val (releaseOwn c) c
    let k : Claim := lookup (curTeam c).claims 63 ⟨0, [], 0, 0, true⟩
    (once s o [] && okb (nextTile s 1 26 t) && !regionsFull s && okb (releaseOwn s) && once u o [] && okb (nextTile u 1 26 t)
      && once c {} [.unif 5] && once cu {} [.unif 5] && hasKey (curTeam c).claims 63 && okb (coverMove c 0 0 true t (claimGrains t k) 1 3)
      && okb (coverMove cu 0 0 true t (claimGrains t k) 1 3)
      && once c { encBad := decide (29 < (9 : BitVec 5).toNat) } (unifSrcs 9 3) && decide ((unifQuad c 9).getD 0 0 % 16 = 0)
      && decide ((unifQuad c 9).getD 1 0 = 1) && !coverBad t 0 ((unifQuad c 9).getD 2 0) && isSuper c
      && decide ((unifQuad c 9).getD 0 0 < grainCount t) && okb (coverUpdate c 0 0 true t 0 (fun _ => 0)) && okb (coverRead s 0 t 0)
      && (trussTarget c).1.isSome && (trussTarget c).2 && onceB c { noLane := true } []
      && okb (coverCount 0 t (grainCount t / 16 + 1) 0 (0, 0, 0) c) && onceB c { noLane := true } [.unif 31]
      && (curGroup c).staging.valid && !(curGroup s).staging.valid && decide (fieldNat (readUnif (curGroup c) c.clock 5) 6 25 = 0)) = true := by
  decide +kernel

/-- A walk of 6 tiles, at its last position. -/
theorem witness_WalkDigits :
    let t : Truss := ⟨2, [3, 2, 1, 1], [1, 1, 1, 1], Cap.null, 0xE4, 0x01010101, 0, 0x0101, 1, false⟩
    let n := fun (k : Nat) => tilesOf t (orderOf t k)
    (∀ k < 4, 0 < n k) ∧ 5 < n 0 * n 1 * n 2 * n 3 := by decide

/-- A 16 by 16 product over 16 steps at the start of the scratchpad, words that are no product, a group without a lane, a short allocation, a full
queue and a member that does not lead. -/
theorem witness_MatrixInstructions_products :
    let s := withUnifs base [(1, 64), (2, 16), (5, 0x00100010), (6, 16)]
    let ws := fun (s : State) => unifWords s 0 4 ++ unifWords s 4 4 ++ unifWords s 8 2
    let e : OpInfo := { noLane := true, encBad := decide (28 < (4 : BitVec 5).toNat) || decide (28 < (0 : BitVec 5).toNat) || decide (30 < (8 : BitVec 5).toNat) }
    let some_ := let p := withPred s 1 0; { p with cur := { p.cur with ctl := 64 } }
    let short := withTeam s (fun t => { t with size := 16 })
    let m : EngineOp := ⟨2, [0], Cap.null, 0, 0, 0, 1, 0, 0⟩
    let full := withTeam s (fun t => { t with ops := List.replicate 16 m })
    let member := withTeam s (fun t => { t with spanRow := 1 })
    let ready := fun (s : State) => okb (checkSlot s e) && !matBad (curTeam s) (ws s) && fullGang s
      && decide (aEnd (matMulOf (ws s)) ≤ (curTeam s).size) && okb (checkReady s (unifSrcs 0 4 ++ unifSrcs 4 4 ++ unifSrcs 8 2) [])
    (okb (checkSlot base e) && matBad (curTeam base) (ws base)
      && okb (checkSlot some_ e) && !matBad (curTeam some_) (ws some_) && !fullGang some_
      && okb (checkSlot short e) && !matBad (curTeam short) (ws short) && fullGang short
      && decide ((curTeam short).size < aEnd (matMulOf (ws short)))
      && ready s && decide (queuedOps s 0 0 < 16) && ready full && decide (16 ≤ queuedOps full 0 0)
      && decide ((curTeam s).spanRow = 0) && decide ((curTeam s).spanCol = 0) && okb (checkSlot member e) && decide ((curTeam member).spanRow ≠ 0)) = true := by
  decide +kernel

/-- Moves of an accumulator, of the last scale words and of the last 16 weight bytes: in range, out of it, refused, and with no active lane. -/
theorem witness_MatrixInstructions_moves :
    let s := withUnifs (withObject base) [(3, 0), (13, 64), (15, 0x00100010), (17, 4095), (18, 1), (21, 393200), (22, 16), (23, 8)]
    let once := fun (s : State) (o : OpInfo) (srcs : List Src) => onceB s { o with noLane := true } srcs
    let idle := fun (o : OpInfo) (srcs : List Src) =>
      okb (checkSlot (quiet s) { o with noLane := true }) && okb (checkReady (quiet s) srcs []) && (activeLanes (quiet s)).isEmpty
    let ao := fun (f : BitVec 3) => ({ noLane := true, fnBad := decide (5 < f.toNat), encBad := decide (28 < (12 : BitVec 5).toNat) } : OpInfo)
    let good := fun (s : State) (f : BitVec 3) => let ws := unifWords s 12 4
      decide (fieldNat (ws.getD 2 0) 24 8 = 0) && decide (fieldNat (ws.getD 2 0) 1 7 = 0)
        && !boxBad (acpyBox ws).2.1 (acpyBox ws).2.2.1 (acpyBox ws).2.2.2.1 (acpyBox ws).2.2.2.2 && holdsSlot (curTeam s) (acpyBox ws).1
        && decide ((ws.getD 0 0).toNat % 16 = 0) && decide ((ws.getD 1 0).toNat % 16 = 0)
        && decide ((acpyBox ws).2.2.2.2 * acpyWidth f.toNat ≤ (ws.getD 1 0).toNat) && (f != 2 || decide ((acpyBox ws).2.2.2.2 % 32 = 0))
    let need := fun (s : State) (f : BitVec 3) => let ws := unifWords s 12 4
      (ws.getD 0 0).toNat + ((acpyBox ws).2.2.2.1 - 1) * (ws.getD 1 0).toNat + (acpyBox ws).2.2.2.2 * acpyWidth f.toNat
    let scaled := withUnifs s [(15, 0x00200010)]
    let off := withUnifs scaled [(3, 65536)]
    let far := withUnifs s [(12, 65536)]
    let sfar := withUnifs s [(16, 65536)]
    let wgood := fun (s : State) (m : BitVec 1) => let ws := unifWords s 20 4
      (curTeam s).weights && decide (fieldNat (ws.getD 3 0) 5 27 = 0) && (m != 1 || decide (fieldNat (ws.getD 3 0) 0 4 = 0))
        && decide ((ws.getD 2 0).toNat ≠ 0) && decide ((ws.getD 2 0).toNat % 16 = 0) && decide ((ws.getD 0 0).toNat % 16 = 0)
        && decide ((ws.getD 1 0).toNat % 16 = 0) && decide ((ws.getD 1 0).toNat + (ws.getD 2 0).toNat ≤ 393216)
    let near := withUnifs s [(23, 0)]
    let nfar := withUnifs near [(20, 65536)]
    let bare := withUnifs s [(23, 9)]
    let m : EngineOp := ⟨2, [0], Cap.null, 0, 0, 0, 1, 0, 0⟩
    let full := withTeam s (fun t => { t with ops := List.replicate 16 m })
    (idle {} [] && once s {} [] && holdsSlot (curTeam s) 1 && (let t := withTeam s (fun t => { t with acc1 := false }); once t {} [] && !holdsSlot (curTeam t) 1)
      && decide (queuedOps s 0 0 < 16) && decide (16 ≤ queuedOps full 0 0)
      && idle (ao 0) (unifSrcs 12 4) && once s (ao 0) (unifSrcs 12 4) && good s 0 && decide (need s 0 ≤ (curTeam s).size)
      && once base (ao 0) (unifSrcs 12 4) && !good base 0 && once far (ao 0) (unifSrcs 12 4) && good far 0 && decide ((curTeam far).size < need far 0)
      && once scaled (ao 2) (unifSrcs 12 4 ++ [.unif 3]) && good scaled 2 && decide (need scaled 2 ≤ (curTeam scaled).size)
      && once off (ao 2) (unifSrcs 12 4 ++ [.unif 3]) && good off 2 && decide (need off 2 ≤ (curTeam off).size)
      && decide ((curTeam off).size < (readUnif (curGroup off) off.clock 3).toNat + 16)
      && idle { encBad := decide (29 < (16 : BitVec 5).toNat) } (unifSrcs 16 3) && once s { encBad := false } (unifSrcs 16 3) && (curTeam s).weights
      && decide (((unifWords s 16 3).getD 1 0).toNat + ((unifWords s 16 3).getD 2 0).toNat = 4096) && once base { encBad := false } (unifSrcs 16 3)
      && once sfar { encBad := false } (unifSrcs 16 3) && decide ((curTeam sfar).size < ((unifWords sfar 16 3).getD 0 0).toNat + 4)
      && idle { encBad := decide (28 < (20 : BitVec 5).toNat) } (unifSrcs 20 4) && once s { encBad := false } (unifSrcs 20 4) && wgood s 0
      && okb (checkReady s [.cap 8] []) && okb (checkAccess s (capAt (curGroup s) s.clock 8) 0 0 16 0x01 4 true)
      && once base { encBad := false } (unifSrcs 20 4) && !wgood base 0 && once near { encBad := false } (unifSrcs 20 4) && wgood near 1
      && once nfar { encBad := false } (unifSrcs 20 4) && wgood nfar 1 && decide ((curTeam nfar).size < ((unifWords nfar 20 4).getD 0 0).toNat + 16)
      && once bare { encBad := false } (unifSrcs 20 4) && wgood bare 0 && okb (checkReady bare [.cap 9] [])
      && !okb (checkAccess bare (capAt (curGroup bare) bare.clock 9) 0 0 16 0x01 4 true)
      && idle { encBad := decide (28 < (28 : BitVec 5).toNat) } [.unif 3] && once s { encBad := decide (28 < (28 : BitVec 5).toNat) } [.unif 3]) = true := by
  decide +kernel

/-- Streams of disjoint classes, of one class, and of classes that overlap; a datapath that is free and one that is busy. -/
theorem witness_ReedStreams :
    let masks := fun (a b : BitVec 16) => withGroup base (fun g => { g with regs := { g.regs with zclass := [(0, a), (1, b)] } })
    let once := fun (s : State) (zs : List Nat) => onceB s { noLane := true } [] && okb (reedNames s zs)
    let busy := withCore base (fun k => { k with reedFree := [(0, 1)] })
    let o : OpInfo := { noLane := true, srcA := some 2, encBad := (2 : BitVec 2) == 3 || isStream 2 }
    let struck := withGroup (masks 1 2) (fun g => { g with regs := { g.regs with bad := [reedKey 0 3] } })
    (okb (reedClean (masks 1 2) [7, 0, 1]) && okb (reedClean (masks 1 2) [0, 1]) && okb (reedClean (masks 1 1) [0, 1]) && okb (reedClean (masks 1 3) [7, 0, 1])
      && okb (reedClean (masks 1 3) [0, 1]) && okb (reedClean busy [0]) && once struck [7, 0, 1] && once struck [7, 0]
      && (activeLanes struck).find? (fun i => [0, 1].any (fun z => (curGroup struck).regs.bad.contains (reedKey z i))) == some 3
      && (activeLanes struck).find? (fun i => [0].any (fun z => (curGroup struck).regs.bad.contains (reedKey z i))) == some 3
      && once (masks 1 2) [7, 0, 1] && reedMask (curGroup (masks 1 2)) 0 &&& reedMask (curGroup (masks 1 2)) 1 == 0
      && okb (reedClean (masks 0 1) [7, 0, 1]) && once (masks 0 1) [7, 0, 1] && reedMask (curGroup (masks 0 1)) 0 == 0
      && once (masks 1 1) [7, 0, 1] && reedMask (curGroup (masks 1 1)) 0 == reedMask (curGroup (masks 1 1)) 1
      && once (masks 1 3) [7, 0, 1] && reedMask (curGroup (masks 1 3)) 0 &&& reedMask (curGroup (masks 1 3)) 1 != 0
      && reedMask (curGroup (masks 1 3)) 0 != reedMask (curGroup (masks 1 3)) 1
      && reedMask (curGroup (masks 1 3)) 7 &&& (1 ||| 3) == 0 && decide (reedFreeAt base ≤ base.clock) && decide (busy.clock < reedFreeAt busy)
      && once busy [7, 0] && okb (reedFirst base o [7]) && readsB base o [.reg 2 0] && !(activeLanes base).isEmpty
      && onceB base { noLane := true } [.unif 31] && okb (reedNames base [0])) = true := by
  decide +kernel

theorem witness_ReedResults : LaneRuns base { noLane := true, dst := some 1, encBad := false || isStream 1 } [] 1 1
    ∧ LaneRuns base { noLane := true, dst := some 1, fnBad := (6 : BitVec 3) == 7, encBad := decide (7 < (0 : BitVec 3).toNat + 7) || isStream 1 } [] 1 1
    ∧ okb (reedNames base ((upTo 8).map (fun k => 0 + k))) = true
    ∧ okb (reedClean base ((upTo 8).map (fun k => 0 + k))) = true ∧ reedFreeAt base ≤ base.clock ∧ (activeLanes base).isEmpty = false :=
  ⟨laneRuns_of (by decide +kernel), laneRuns_of (by decide +kernel), by decide +kernel, by decide +kernel, by decide +kernel, by decide +kernel⟩

theorem witness_BitCounts : LaneRuns base (intInfo1 1 2) [.reg 2 0] 1 1 ∧ (clzW 1).toNat = 31 ∧ (clzW 0).toNat = 32 :=
  ⟨laneRuns_of (by decide +kernel), by decide, by decide⟩

/-- A plain d; a pattern select in d; the last stream register in d. -/
theorem witness_DestinationSources : LaneRuns base { intInfo 1 2 3 with encBad := patOf 1 != 0 || isStream 1 } [.reg 2 0, srcB base 3 0, .reg 1 0] 1 1
    ∧ patOf 33 ≠ 0 ∧ slotFault base (intInfo 33 2 3) = none ∧ 12 ≤ codeOf 15 ∧ codeOf 15 ≤ 15 ∧ slotFault base (fpInfo 15 2 3) = none :=
  ⟨laneRuns_of (by decide +kernel), by decide, by decide +kernel, by decide, by decide, by decide +kernel⟩

/-- Every lane active, some lanes, and none. -/
theorem witness_ReedMasks :
    let q := quiet base
    let o : OpInfo := { noLane := true, srcA := some 2, encBad := (2 : BitVec 2) == 3 || isStream 2 }
    (onceB base { noLane := true } [] && okb (reedNames base [7, 0, 1]) && okb (reedClean base [7, 0, 1]) && okb (reedClean base [0, 1])
      && okb (reedClean base [0]) && okb (reedClean (apart base) [7, 0, 1]) && decide (reedFreeAt base ≤ base.clock)
      && (activeLanes base).length == 4 * (curGroup base).nquad && onceB (apart base) { noLane := true } []
      && (activeLanes (apart base)).length != 4 * (curGroup base).nquad && readsB base o [.reg 2 0] && okb (reedFirst base o [7])
      && (activeLanes q).isEmpty && okb (checkSlot q { noLane := true }) && okb (reedNames q [7, 0, 1]) && okb (checkReady q [] [])
      && readsB q o [.reg 2 0] && okb (reedFirst q o [7])) = true := by
  decide +kernel

/-- A system call in a group and in the supervisor lane; records to take and none; a record to resolve. -/
theorem witness_CallsAndRecords :
    let u := val (releaseOwn base) base
    let rec_ := fun (st : RecState) => withCore base (fun k => { k with records := [(0, ⟨st, 0, 0xE, 0, 0, 0, 0, false⟩)] })
    let pend := withUnifs (rec_ .pending) [(3, 0x4000)]
    let none_ := withUnifs base [(3, 0x80004000), (4, 0x4000)]
    let taken := withGroup (rec_ (.taken 0 0)) (fun g => g)
    let o : OpInfo := { sup := true, srcA := some 2, srcB := some 3 }
    let v := (val (readSources taken o [.reg 2 0, .reg 3 0]) ([], taken)).1
    let args := (upTo 6).map (Src.reg 0)
    (onceB base {} [] && onceB base {} args && onceB u {} args && !regionsFull base && okb (releaseOwn base) && onceB u {} [] && !isLane base && !isLane u
      && decide ((activeLanes base).length ≤ (freeHandles (getCore base 0)).length) && !(freeHandles (getCore base 0)).isEmpty
      && onceB (inLane base) {} [] && isLane (inLane base) && okb (checkSlot base {}) && okb (checkReady (inLane base) args [])
      && okb (checkSlot base {}) && onceB (inLane base) {} []
      && onceB pend { sup := true } [.unif 3] && takeable pend 0x4000 == [0] && decide (takeName pend + 15 ≤ 251)
      && decide (liveRegs (curGroup pend) 0 + takeFresh pend 0 ≤ peakOf pend) && !(curGroup pend).credit && decide ((0x4000 : Nat) % 2 = 0)
      && onceB none_ { sup := true } [.unif 3] && takeable none_ 0x4000 == [] && (readUnif (curGroup none_) none_.clock 3).getLsbD 31
      && onceB none_ { sup := true } [.unif 4] && !(readUnif (curGroup none_) none_.clock 4).getLsbD 31
      && readsB taken o [.reg 2 0, .reg 3 0] && takenHere taken ((laneVal (v.getD 0 []) 0).toNat % 512)
      && !actionBad (getRec (getCore taken 0) 0) (laneVal (v.getD 1 []) 0)) = true := by
  decide +kernel

/-- An open register, the watermark of the last stream, and a register that user mode may not read. -/
theorem witness_ControlRegisters :
    let u := user base
    let l := inLane (withCore base (fun k => { k with lane := { k.lane with ie := true, cause := 1, ien := 1 } }))
    ((csrValue base 0 0x840).isSome && !csrDenied base 0x840 false && laneRunsB base { dst := some 1 } [] 1 1
      && (csrValue base 0 0xCFF).isSome && !csrDenied base 0xCFF false && !(activeLanes base).isEmpty && okb (checkSlot base { dst := some 1 })
      && okb (laneOp base { dst := some 1 } [] 0 0 1 1 0 (fun _ => ([7], 0)))
      && (csrValue u 0 0x868).isSome && csrDenied u 0x868 false && (firstLane u).isSome && okb (checkSlot u { dst := some 1 })
      && !csrDenied base 0x868 true && readsB base {} [.reg 1 0] && (firstLane base).isSome
      && onceB base { sup := true } [.unif 3] && onceB base { sup := true } [] && !wfiReady base && !isLane base
      && onceB l { sup := true } [] && wfiReady l && isLane l) = true := by
  decide +kernel

/-- The first and the last of a range of registers. -/
theorem witness_RegisterWriteRead : (0x820 : Nat) ≤ 0x82F ∧ (csrValue base 0 0x86B).isSome = true ∧ (csrValue base 0 0x860).isSome = true := by
  decide +kernel

theorem witness_PrivilegedTraps :
    slotFault (user base) { srcA := some 2, dst := some 1 } = none ∧ slotFault (user base) {} = none ∧ isSuper (user base) = false ∧ isStream 1 = false := by
  decide +kernel

/-- A packet of one word for a queue object. -/
theorem witness_QueuesAndSaves_qput :
    let q := counting (withCap (withCore base (fun k => { k with descs := k.descs ++ [⟨9, 3, false, 0, false, false, false, false, 4096, 0, 0, 0⟩] }))
      8 ⟨true, 9, 0, 4096, 0x02⟩)
    let o : OpInfo := { noLane := true, srcA := some 2, dst := some 1 }
    let r := val (readSources q o [.reg 2 0, .cap 8]) ([], q)
    let d := liftMem 0 9 0 1 (descOf r.2 0 9)
    let x := (val d (⟨0, 0, false, 0, false, false, false, false, 0, 0, 0, 0⟩, q)).2
    let raw := readScratch x 0 (Nat.max 4 (4 * headLen (leNat (readScratch x 0 4))))
    (readsB q o [.reg 2 0, .cap 8] && (firstLane q).isSome && decide (lookup (curGroup q).regs.dcs 3 0 < 63)
      && okb (checkCap r.2 (capAt (curGroup r.2) r.2.clock 8) 0 0x02) && okb d
      && (match d with | .ok (e, _) => e.kind == 3 | _ => false) && !isSvq x (getCore x 0).part 9
      && decide (4 * headLen (leNat (readScratch x 0 4)) ≤ (curTeam x).size)&& !scratchBad x 0 (Nat.max 4 (4 * headLen (leNat (readScratch x 0 4)))) && (packetCaps raw).isEmpty && okb (mapDst x 1)) = true := by
  decide +kernel

/-- The supervisor lane, with an area in object 1, beside a group of one quad of a launch without reed registers, its team without engine
memories. -/
def saver (s : State) : State :=
  let s := setLaunch (withObject s) 0 { getLaunch s 0 with nz := 0 }
  let s := setPart s 0 { getPart s 0 with cores := [0] }
  let s := withTeam (withGroup s (fun g => { g with nquad := 1, quads := g.quads.take 1 }))
    (fun t => { t with size := 64, acc0 := false, acc1 := false, weights := false })
  withCap (inLane s) 8 ⟨true, 1, 0, 2 ^ 20, 0xFF⟩

/-- An area of nothing. -/
def noArea : Area := ⟨0, ⟨0, 0, false, 0, false, false, false, false, 0, 0, 0, 0⟩, 0⟩

/-- A group to save, one whose region has ended and is to commit, and a team. -/
theorem witness_QueuesAndSaves_gsave :
    let so : OpInfo := { sup := true, srcA := some 2, srcD := some 1 }
    let srcs : List Src := [.reg 2 0, .reg 1 0, .cap 8]
    let area := fun (s : State) (n : Nat) =>
      let u := (val (readSources s so srcs) ([], s)).2
      saveArea u 0 (capAt (curGroup u) u.clock 8) 0 n 5
    let s := saver base
    let a := area s (groupAreaSize (getLaunch s 0))
    let ax := val a (noArea, s)
    let b := area s (teamAreaSize s 0 0)
    let bx := val b (noArea, s)
    let due := setGroup s 0 0 { getGroup s 0 0 with regions := (getGroup s 0 0).regions.map (fun r => { r with ended := true }) }
    let d := area due (groupAreaSize (getLaunch due 0))
    (readsB s so srcs && (firstLane s).isSome && (getGroup s 0 0).resident && isLane s && okb a && savable ax.2 0 0
      && okb (liftMem 0 ax.1.desc.id ax.1.base 5 (saveGroup ax.2 0 0 ax.1 false)) && okb b && teamSavable bx.2 0 0
      && okb (liftMem 0 bx.1.desc.id bx.1.base 5 (saveTeam bx.2 0 0 bx.1))
      && readsB due so srcs && okb d && !savable (val d (noArea, due)).2 0 0) = true := by
  decide +kernel

/-- An area with its header alone written: one quad of a launch from which group 0 of team 0, or all of team 0, is away. -/
def saved (format n : Nat) (a : Away) : State :=
  let z := saver base
  let z := { z with hbm := memPut (memPut z.hbm 0 (leBytes 4 format)) 4 (leBytes 4 n) }
  setLaunch z 0 { getLaunch z 0 with away := [a] }

/-- A group to restore beside its team, with a free slot on its pipe and with none; a team to restore on an empty core, and on one that is full. -/
theorem witness_QueuesAndSaves_grest :
    let ro : OpInfo := { sup := true, srcA := some 2, dst := some 1 }
    let srcs : List Src := [.reg 2 0, .cap 8]
    let area := fun (s : State) (n : Nat) =>
      let v := (val (readSources s ro srcs) ([], s)).2
      saveArea v 0 (capAt (curGroup v) v.clock 8) 0 n 4
    let head := fun (s : State) (a : Res (Area × State)) =>
      let b := val a (noArea, s)
      liftMem 0 b.1.desc.id b.1.base 4 (readHome b.2 b.1.part b.1.desc b.1.base 4096)
    let none_ : Batches := ⟨0, [], [], [], 0⟩
    let z := saved 0x53560001 1 ⟨0, 0, 0, 0, 0, 0, 0, false, none_, false, false⟩
    let a := area z 0x8E00
    let ar := (val a (noArea, z)).1
    let t := (val (head z a) ([], z)).2
    let crowd := (upTo 16).foldl (fun s i => setGroup s 0 (4 * i + 1) { getGroup s 0 0 with pipe := 0 }) t
    let y := saved 0x53560002 0 ⟨0, 0, 0, 0, 0, 0, 0, false, none_, false, true⟩
    let b := area y 4096
    let br := (val b (noArea, y)).1
    let u := (val (head y b) ([], y)).2
    let free := setCore u 0 { getCore u 0 with teams := [], groups := (getCore u 0).groups.filter (fun e => e.1 == Config.laneSlot) }
    let cap := capAt (curGroup z) z.clock 8
    (okb (checkAccess t cap 0 0 (groupAreaSize (getLaunch t (areaNat t ar 0x28 4))) 0x83 4 false)
      && okb (checkAccess u cap 0 0 (areaEnd u br) 0x83 4 false) && okb (checkAccess free cap 0 0 (areaEnd free br) 0x83 4 false)
      && readsB z ro srcs && (firstLane z).isSome && okb a && okb (head z a) && teamFor t 0 (areaNat t ar 0x28 4) (areaNat t ar 0x38 4 / 64) == some 0
      && okb (touchArea t ar (groupAreaSize (getLaunch t (areaNat t ar 0x28 4)))) && okb (touchArea u br (areaEnd u br)) && okb (touchArea free br (areaEnd free br))
      && areaValid t (teamKey (getTeam t 0 0)) ar && groupRoom t 0 ar && okb (writeDst (restoreGroup t 0 0 ar).2 1 0 [List.replicate 32 0])
      && areaValid crowd (teamKey (getTeam crowd 0 0)) ar && !groupRoom crowd 0 ar
      && readsB y ro srcs && okb b && okb (head y b) && teamValid free br && teamRoom free 0 br
      && okb (writeDst (restoreTeam free 0 br).2 1 0 [List.replicate 32 0])
      && (let full := setCore u 0 { getCore u 0 with stopped := some (0, 0, 0) }
          teamValid full br && !teamRoom full 0 br)) = true := by
  decide +kernel

theorem witness_DebugInstructions :
    let l := { getLaunch base 0 with flags := 0x208 }
    let d := setDie (setLaunch base 0 l) 0 { getDie base 0 with dbg := { (getDie base 0).dbg with ctl := 1 } }
    (onceB base {} [] && !debugEnabled base 0 0 && onceB d {} [] && !isLane d && debugEnabled d 0 0 && !catchingUp (curGroup d)
      && (let c := withGroup d (fun g => { g with stats := { g.stats with limit := some 9 } }); debugEnabled c 0 0 && catchingUp (curGroup c))
      && laneRunsB base { srcA := some 2, dst := some 1 } [.reg 2 0] 1 1 && onceB base { encBad := decide (29 < (29 : BitVec 5).toNat) } []) = true := by
  decide +kernel

/-- A trap of the only region, with every record free and with the last free record of its range. -/
theorem witness_TrapEntry :
    let k := getCore (abortRegions base 0 0 0) 0
    let full := { k with records := (upTo 479).map (fun h => (h, ⟨.pending, h, 3, 0, 0, 1, 0, false⟩)) }
    ((getGroup base 0 0).regions[0]?.isSome && freeRecord k 0 480 == some 0 && freeRecord full 0 480 == some 479
      && freeRecord k 480 512 == some 480) = true := by
  decide +kernel


/-- An event at a state. -/
def occur (s : State) (e : Event) : State := { s with ev := e }

/-- Every quad of the issuing group parked. -/
def parked (s : State) (p : Park) : State :=
  withGroup s (fun g => { g with quads := g.quads.map (fun e => (e.1, { e.2 with park := p })) })

/-- The launch of the issuing group. -/
def withLaunch (s : State) (f : Launch → Launch) : State := setLaunch s 0 (f (getLaunch s 0))

theorem witness_LaneAndClockEvents :
    let w := parked base (.trapQueue [7])
    let u := withGroup base (fun g => { g with user := { g.user with payload := some 9 } })
    let l := inLane (withCore base (fun k => { k with lane := { k.lane with ie := true, cause := 1, ien := 1, cmpLo := 0, cmpHi := 0 } }))
    let a := withGroup base (fun g => { g with quads := g.quads.map (fun e => (e.1, { e.2 with lastIssue := 0, yieldUntil := 5 })) })
    let late := { a with clock := 1024 }
    ((getGroup w 0 0).resident && waitingRecord (getGroup w 0 0) == some [7] && waitingRecord (getGroup base 0 0) == none && abortingClass 0xB
      && (getGroup u 0 0).user.payload == some 9 && canDeliver u 0 0 && decide (timerCompare (getCore l 0).lane ≤ l.clock)
      && decide (base.clock < timerCompare (getCore base 0).lane) && (getGroup l 0 Config.laneSlot).resident && laneInterrupted (getCore l 0)
      && decide (base.clock < timerCompare { (getCore base 0).lane with cmpLo := wordOf 1 })
      && decide (l.clock ≥ timerCompare { (getCore l 0).lane with cmpHi := wordOf 0 })
      && (getGroup late 0 0).resident && hasKey (getGroup late 0 0).quads 7
      && decide ((getQuad (getGroup late 0 0) 7).lastIssue + 1024 ≤ late.clock) && decide ((getQuad (getGroup late 0 0) 7).yieldUntil ≤ late.clock)
      && decide ((0 : Nat) ≠ Config.laneSlot)) = true := by
  decide +kernel

/-- The issuing group with a debugger, with none, under record and under replay; and a core with one to sample. -/
theorem witness_DebugEvents :
    let d := setDie (withLaunch base (fun l => { l with flags := 0x208 })) 0
      { getDie base 0 with dbg := { (getDie base 0).dbg with ctl := 1 } }
    let r := withLaunch base (fun l => { l with flags := 0x40 })
    let again := withGroup d (fun g => { g with stats := { g.stats with stopped := true, limit := some 3 } })
    (debugEnabled d 0 0 && (getGroup d 0 0).resident && !(getGroup d 0 0).stats.stopped && !debugEnabled base 0 0
      && (getGroup base 0 0).resident && !(getGroup base 0 0).stats.stopped && (getGroup r 0 0).resident && replayMode (getLaunch r 0) == 2
      && debugEnabled again 0 0 && (getGroup again 0 0).stats.stopped && (getGroup again 0 0).stats.limit.isSome && haltable d 0 0
      && (nextSample base 0).isSome) = true := by
  decide +kernel

/-- Channel 7 in each of its states, a copy that ends with its piece, one that does not, and one that stops at a page; each kind of operation at the
head of a queue, one of a span's that may not run yet, and a held load. -/
theorem witness_EngineEvents :
    let ch : Channel := { Channel.idle with desc := [BitVec.ofNat 32 (2 ^ 23 + 2 ^ 22), 0, 1024, 64], group := 0, batch := 1 }
    let at_ := fun (c : Channel) => setChannel base 0 7 c
    let rd := { ch with desc := [BitVec.ofNat 32 (3 * 2 ^ 28 + 2 ^ 22), 0, 0, 512] }
    let wr := { ch with desc := [BitVec.ofNat 32 (4 * 2 ^ 28 + 2 ^ 23), 0, 0, 512] }
    let long := { ch with desc := [BitVec.ofNat 32 (2 ^ 23 + 2 ^ 22), 0, 1024, 1024] }
    let far := { ch with desc := [0, 0, 0, 64], src := ⟨true, 5, 0, 64, 1⟩, dst := ⟨true, 6, 0, 64, 2⟩ }
    let piece := fun (c : Channel) => copyPiece (at_ { c with state := 2 }) 0 7
    let op := fun (k : Nat) => ({ kind := k, words := [1], cap := Cap.null, core := 0, group := 0, team := 0, batch := 1, done := 0, order := 0 } : EngineOp)
    let ops := fun (k : Nat) => withTeam base (fun t => { t with ops := [op k] })
    let held := withCore (ops 5) (fun k => { k with mseqHeld := true })
    let member := setCore (withTeam base (fun t => { t with ops := [op 0, op 1] })) 1 { getCore (ops 1) 0 with teams := [(0, { getTeam (ops 1) 0 0 with spanCol := 1 })] }
    ((getCore base 0).stopped.isNone && (getCore (ops 1) 0).stopped.isNone
      && ((upTo 2).all (fun k => (opSpoiled (setCore (ops k) 0 { getCore (ops k) 0 with mseqGroup := 0 }) 0 0 (op k)).isNone))
      && (opSpoiled (setCore member 1 { getCore member 1 with mseqGroup := 0 }) 1 0 (op 1)).isNone
      && (getChannel (at_ { ch with state := 1 }) 0 7).state == 1 && decide (copyKind ch.desc < 3) && storageRefused base { rd with desc := [rd.desc.getD 0 0, 0, 0, 7] }
      && decide (3 ≤ copyKind rd.desc) && copyKind wr.desc == 4 && copyKind rd.desc == 3 && !storageRefused base wr && !storageRefused base rd
      && (piece ch).2.2.isNone && (getChannel (piece ch).1 0 7).wp == copyTotal ch.desc
      && (piece long).2.2.isNone && (getChannel (piece long).1 0 7).wp != copyTotal long.desc
      && (piece rd).2.2.isNone && (getChannel (piece rd).1 0 7).wp != copyTotal rd.desc && (piece far).2.2.isSome
      && decide (copyLen wr.desc ≤ ({ wr with buf := List.replicate 512 7 } : Channel).buf.length)
      && decide (ch.group < Config.groupSlots) && (getTeam (ops 2) 0 0).ops == [op 2] && (getTeam (ops 1) 0 0).ops == [op 1]
      && (getTeam (ops 0) 0 0).ops == [op 0] && mayRun (ops 1) 0 0 && mayRun (ops 0) 0 0
      && (getTeam member 1 0).ops == [op 1] && !mayRun member 1 0 && (getTeam (ops 5) 0 0).ops != [] && !(getCore (ops 5) 0).mseqHeld
      && wbldTeam (getCore held 0) == some (0, op 5) && (getCore held 0).mseqHeld) = true := by
  decide +kernel


/-- Objects 3 (a queue), 4 (data) and 5 (code) of 1 MiB in partition 0, each in the 4 MiB frame of its number; lane 0 of die 0 serves
object 3, whose ring holds some words; the words at the indices of `caps` begin a capability with its tag. -/
def withQueue (s : State) (ws : List Nat) (caps : List Nat) : State :=
  let words := fun (a : Nat) (l : List Nat) (m : Memory) => memPut m a (l.flatMap (leBytes 4))
  let entry := fun (m : Memory) (o : Nat × Nat) =>
    memPut (memPut (memPut m (0x100000 + 64 * o.1) (leBytes 8 (2 ^ 63 + o.2 * 2 ^ 60 + 2 ^ 55 + 2 ^ 20)))
      (0x100010 + 64 * o.1) (leBytes 8 (0x200000 + 0x1000 * o.1))) (0x200000 + 0x1000 * o.1) (leBytes 8 (2 ^ 63 + 2 ^ 57 + 2 ^ 56 + o.1))
  let m := words 0xC00040 ws (words 0xC00000 [0, roundUp (4 * ws.length) 16, 0, 8] ([(3, 3), (4, 0), (5, 1)].foldl entry []))
  let s := setPart s 0 { getPart s 0 with exist := true, cores := [0], ranges := [(0, 2 ^ 30)], otbase := 0x100, otlen := 16 }
  let s := setDie s 0 { getDie s 0 with lanes := [(0, { FwLane.unmapped with qid := 3, cfg := 0x18 })] }
  { s with hbm := m, tags := caps.map (fun i => 0xC0004 + i / 4) }

/-- Header of a packet or a field: type, M, LEN. -/
def head (t n : Nat) : Nat := t * 2 ^ 20 + 2 ^ 19 + n

/-- A capability field of some type, immediate: AUX0, the value, then a capability of 4 KiB. -/
def capWords (t aux v obj rights : Nat) : List Nat :=
  let c := capBits ⟨true, BitVec.ofNat 32 obj, 0, 4096, BitVec.ofNat 8 rights⟩
  [head t 8, 2 ^ 30, aux, v] ++ (upTo 4).map (fun i => c.toNat / 2 ^ (32 * i) % 2 ^ 32)

/-- A launch of one group of one quad, with a word of its role. -/
def launchWords (r : Nat) : List Nat :=
  [head 2 21, head 0x104 3, 0x3448, 0] ++ capWords 0x101 0 0 5 0x05 ++ [head 0x102 4, 0, r, 0x44, head 0x103 5, 1, 1, 1, 0x11]

/-- The packet that a state's lane 0 of die 0 holds. -/
def packetIn (s : State) (t : Nat) : Packet := (packetHere s 0 0 t).getD ⟨⟨0, 0, ⟨0, ⟨0, 0, false, 0, false, false, false, false, 0, 0, 0, 0⟩, 0⟩, 0, 0, 0⟩, 0, []⟩

def noSignal : Signal := ⟨Cap.null, 0, 0⟩

theorem witness_FirmwareEvents_packets :
    let q := fun (t : Nat) (l : List Nat) => withQueue base l (if t = 4 || t = 5 || t = 6 || t = 8 then [8] else [])
    let nop := q 1 [head 1 1]
    let sig := q 4 ([head 4 12, 0, 0, 0] ++ capWords 4 16 7 4 0x0B)
    let wait := q 5 ([head 5 12, 0, 0, 0] ++ capWords 5 16 7 4 0x0B)
    let pub := q 6 ([head 6 12, 0, 0, 0] ++ capWords 6 0 0 4 0x10)
    let ts := q 8 ([head 8 12, 0, 0, 0] ++ capWords 8 4088 0 4 0x02)
    let locked := memPut sig.hbm 0x100100 (leBytes 8 (2 ^ 63 + 2 ^ 55 + 2 ^ 51 + 2 ^ 20))
    let moving := { sig with hbm := memPut locked 0x204000 (leBytes 8 (2 ^ 63 + 3 * 2 ^ 61 + 2 ^ 57 + 2 ^ 56 + 4)) }
    let g := val (signalField sig (packetIn sig 4) 4 (some (bodyHeader 4))) noSignal
    let c := val (fieldCap ts (packetIn ts 8) 4 0x02 (some (bodyHeader 8))) Cap.null
    let held := setLane wait 0 0 (fun x => { x with waiting := true })
    ((packetHere nop 0 0 1).isSome && (packetHere (q 0 [0x00000004, 0, 0, 0]) 0 0 0).isSome && (packetHere sig 0 0 4).isSome
      && okb (signalField sig (packetIn sig 4) 4 (some (bodyHeader 4))) && !signalBad (packetIn sig 4)
      && okb (updateSignal sig (packetIn sig 4).ring.die (packetIn sig 4).ring.area.part g (signalEffect (packetIn sig 4) g))
      && (match updateSignal moving (packetIn moving 4).ring.die (packetIn moving 4).ring.area.part g (signalEffect (packetIn moving 4) g) with
        | .error (.migrating ..) => true | _ => false)
      && okb (signalField moving (packetIn moving 4) 4 (some (bodyHeader 4)))
      && (packetHere wait 0 0 5).isSome && okb (signalField wait (packetIn wait 5) 4 (some (bodyHeader 5))) && (getFw (getDie held 0) 0).waiting
      && (packetHere held 0 0 5).isSome && (packetHere pub 0 0 6).isSome && okb (publishCap pub (packetIn pub 6))
      && decide ((packetIn pub 6).w 1 / 2 ^ 31 = 0) && (packetHere ts 0 0 8).isSome
      && okb (fieldCap ts (packetIn ts 8) 4 0x02 (some (bodyHeader 8)))
      && decide ((packetIn ts 8).w 6 % 8 = 0) && decide ((packetIn ts 8).w 6 + 8 ≤ capLen c)
      && okb (fwWrite ts (packetIn ts 8).ring.area.part c ((packetIn ts 8).w 6) (leBytes 8 ts.clock))
      && (packetHere (q 7 [head 7 3, 1, 0]) 0 0 7).isSome && decide ((packetIn (q 7 [head 7 3, 1, 0]) 7).w 1 ≤ 1)) = true := by
  decide +kernel

theorem witness_FirmwareEvents_copy :
    let d := [0, 0, 0, 64, 0, 0, 0, 0]
    let s := withQueue base ([head 3 36, 0, 0, 0] ++ List.replicate 8 0 ++ d ++ capWords 3 0 0 4 0x01 ++ capWords 3 0 0 5 0x02) [24, 32]
    let busy := setLane s 0 0 (fun x => { x with copying := true })
    ((packetHere s 0 0 3).isSome && decide (36 ≤ (packetIn s 3).words.length) && (match copyDone s (packetIn s 3) with | .ok none => true | _ => false)
      && okb (copyOf s (packetIn s 3)) && decide ((getChannel s 34 fwChannel).state = 0)
      && (getDie s 0).lanes.all (fun x => !x.2.copying) && (getFw (getDie busy 0) 0).copying && (packetHere busy 0 0 3).isSome
      && (match copyDone busy (packetIn busy 3) with | .ok none => true | _ => false)) = true := by
  decide +kernel

theorem witness_FirmwareEvents_launch :
    let good := withQueue base (launchWords 0x01010101) [8]
    let bad := withQueue base (launchWords 0x00010101) [8]
    let chain := fun (s : State) => let r := (packetIn s 2).ring; (chainFrom s r (r.avail r.head / 16 + 1) r.head).getD ⟨[], 0, none⟩
    ((packetHere good 0 0 2).isSome && !(chain good).packets.isEmpty && okb (chainLaunches good (chain good)) && (packetHere bad 0 0 2).isSome
      && !(chain bad).packets.isEmpty && !okb (chainLaunches bad (chain bad))) = true := by
  decide +kernel

theorem witness_FirmwareEvents_die :
    let s := withQueue base [head 1 1] []
    let f := setDie s 0 { getDie s 0 with booting := true, fallback := true }
    let late := { s with clock := 2700000 }
    (!(getDie s 0).booting && !(getDie s 0).fallback && decide ((getDie late 0).heartbeat + 2700000 ≤ late.clock) && (getDie f 0).fallback
      && (match headOf f 0 0 with | some (r, h) => !headBad r r.head h && fallbackType (packetType h) | none => false)
      && (laneStep f 0 0).isSome && (headOf f 0 1).isNone && !f.boot.safe && (getDie f 0).booting) = true := by
  decide +kernel

theorem witness_RegionAndGroupEvents :
    let e := withGroup base (fun g => { g with regions := g.regions.map (fun r => { r with ended := true }) })
    let c := { e with cur := { Issue.none with core := 0, slot := 0 } }
    let r := ((getGroup c 0 0).regions[0]?).getD (curRegion (getGroup base 0 0))
    let h := regionHash (getGroup c 0 0).stats.hash r
    let ev : Event := { core := 0, unit := 9, value := 5, len := 4, bytes := [1, 2, 3, 4] }
    let got := withCore base (fun k => { k with receives := [(0, ⟨0, 0, 64, true, 0, 5, 0xFFFFFFFF, 0, 0, none⟩)] })
    let full := withCore base (fun k => { k with overflow := (upTo 64).map (fun i => (i, i)) })
    let none_ := withCore base (fun k => { k with teams := [] })
    let enter := setPart (setCore (setLaunch base 1 { placedLaunch Cap.null with scratch := 0, matrix := 0, admitted := 0 }) 1 { getCore base 1 with running := true })
      0 { getPart base 0 with exist := true, cores := [1] }
    let role : Role := ⟨0, 1, 4, 1, 1, some 0, none⟩
    let other : Role := ⟨0, 8, 4, 1, 252, some 1, none⟩
    let two := withTeam (withLaunch base (fun l => { l with roles := [(0, role), (1, other)], nz := 0 }))
      (fun t => { t with queues := [(0, ⟨4, 0, 4, 0⟩), (1, ⟨4, 16, 4, 0⟩)] })
    let twin := fun (s : State) => let g := { getGroup s 0 0 with nquad := 1, quads := [(0, { Quad.fresh 0 with park := .queueEmpty 0 })] }
      (upTo 64).foldl (fun s i => setGroup s 0 i g) s
    let ret := twin (withTeam two (fun t => { t with queues := [(0, ⟨4, 0, 0, 0⟩), (1, ⟨4, 16, 4, 0⟩)] }))
    let e0 : Event := { core := 0 }
    let done := withGroup base (fun g => { g with quads := g.quads.map (fun x => (x.1, { x.2 with exited := true })), regions := [] })
    let one : StoreOp := ⟨[⟨0, Config.scratchObj, 0, 4, 0, 0, [1, 2, 3, 4], false⟩], false, 0, 0, 0, 0⟩
    let waits := withGroup (parked base (.queueEmpty 0)) (fun g => setCurRegion g { curRegion g with stores := [one] })
    let wc := { waits with cur := { Issue.none with core := 0, slot := 0 } }
    let busy := pushDue two [⟨.teamAdmission, e0⟩]
    (waitsHolding (getGroup wc 0 0) && !spanHeld wc 0 0 && !(getGroup wc 0 0).stats.stopped && okb (commitSoFar wc 0 0)
      && busy.due.any (fun x => admits x.instr) && !two.due.any (fun x => admits x.instr)
      && mayCommit c 0 0 == some r && (match hashMiss c (getGroup c 0 0) r h with | .ok none => true | _ => false) && okb (commitRegion c 0 0 r h)
      && (getCore base 0).refused.isEmpty && findReceive got 0 (messageOf ev) == some 0 && findReceive base 0 (messageOf ev) == none
      && (queueMessage (getCore base 0) (messageOf ev)).isSome && findReceive full 0 (messageOf ev) == none
      && queueMessage (getCore full 0) (messageOf ev) == none
      && splitValid (wordOf 0x3448) && (getCore none_ 0).teams == [] && !splitValid (wordOf 0) && (getCore base 0).teams != []
      && hasKey enter.launches 1 && canAdmit enter 1 (getLaunch enter 1) (minGroups (getLaunch enter 1))
      && decide ((getTeam (placeTeam base 0 0 3 0 0 0).2 0 (placeTeam base 0 0 3 0 0 0).1).scratch ≤ 65536)
      && find? (getLaunch two (getTeam two 0 0).launch).roles 0 == some role && hasKey (getCore two 0).teams 0
      && wantsGroup two 0 0 0 role && creditRoom two 0 (getLaunch two (getTeam two 0 0).launch) role
      && mayRetire ret 0 5 && mayEnd (getGroup done 0 0)) = true := by
  decide +kernel

/-- A credit group of one quad, with a save area in object 4. -/
def credit (s : State) : State :=
  let s := withLaunch (withQueue s [] []) (fun l => { l with nz := 0, save := some (⟨true, 4, 0, 2 ^ 20, 0x83⟩, 4096) })
  withGroup s (fun g => { g with credit := true, nquad := 1, quads := g.quads.take 1 })

theorem witness_RegionAndGroupEvents_eviction :
    let s := credit base
    let a := (creditArea s 0 0).getD noArea
    ((getGroup s 0 0).resident && (getGroup s 0 0).credit && savable s 0 0 && (creditArea s 0 0).isSome && okb (saveGroup s 0 0 a true)) = true := by
  decide +kernel

theorem witness_RegionAndGroupEvents_readmission :
    let s := credit base
    let s := { s with hbm := memPut (memPut (memPut s.hbm 0x1000000 (leBytes 4 0x53560001)) 0x1000004 (leBytes 4 1)) 0x1000028 (leBytes 4 0) }
    let s := withLaunch s (fun l => { l with away := [⟨0, 0, 0, 0, 0, 0, 0, false, ⟨0, [], [], [], 0⟩, true, false⟩] })
    let a := (creditArea s 0 0).getD noArea
    (teamFor s 0 0 0 == some 0 && (creditArea s 0 0).isSome && (getLaunch s 0).away.any (fun x => x.credit && x.member == teamKey (getTeam s 0 0) && x.g == 0)
      && areaValid s (teamKey (getTeam s 0 0)) a && groupRoom s 0 a) = true := by
  decide +kernel

theorem witness_BundleEvents :
    let b : Bundle := { Bundle.empty with launches := [0] }
    let at_ := fun (b : Bundle) => setBundle base 7 b
    let g : Signal := ⟨⟨true, 4, 0, 4096, 0x0B⟩, 0, 1⟩
    let trig := withGroup (withLaunch base (fun l => { l with trigger := some g })) (fun g => { g with trigger := true })
    let ended := withLaunch (at_ { b with placed := true }) (fun l => { l with finished := gridMembers l })
    let stop := withCore (withLaunch (at_ b) (fun l => { l with bundle := 7 })) (fun k => { k with stopped := some (0, 1, 2) })
    let rest := setBundle stop 7 { b with retired := true }
    let x : FredEntry := ⟨4, 64, 0, 9, true, 0, 0⟩
    let logs := withLaunch (withQueue base [] []) (fun l => { l with finished := gridMembers l, logs := [(0, [x])] })
    let locked := memPut logs.hbm 0x100100 (leBytes 8 (2 ^ 63 + 2 ^ 55 + 2 ^ 51 + 2 ^ 20))
    let moving := { logs with hbm := memPut locked 0x204000 (leBytes 8 (2 ^ 63 + 3 * 2 ^ 61 + 2 ^ 57 + 2 ^ 56 + 4)) }
    let absent := { logs with hbm := memPut logs.hbm 0x204000 (leBytes 8 0) }
    let d := setDie base 0 { getDie base 0 with fredState := 2 }
    (dependsMet { base with clock := 27000000 } { b with since := some 0 } == some true && (getBundle (at_ { b with since := some 0 }) 7).since == some 0 && decide (base.clock < 27000000)
      && decide (27000000 ≤ { base with clock := 27000000 }.clock) && hasKey trig.launches 0 && (getLaunch trig 0).trigger.isSome
      && !(getLaunch trig 0).trigSent && gridTriggered trig 0 && hasKey ended.bundles 7 && (getBundle ended 7).placed && !(getBundle ended 7).retired
      && (getBundle ended 7).launches.all (fun i => gridComplete ended (getLaunch ended i))
      && (match exec .bundleAbort (occur (at_ b) { obj := 7, value := 8 }) with | .next _ => true | _ => false)
      && (getCore stop 0).stopped.isSome && (((getCore stop 0).teams.map (fun t => (getLaunch stop t.2.launch).bundle)).eraseDups == [7])
      && hasKey stop.bundles 7 && !(getBundle stop 7).retired && (getCore rest 0).stopped.isSome && (getBundle rest 7).retired
      && (((getCore rest 0).teams.map (fun t => (getLaunch rest t.2.launch).bundle)).eraseDups == [7])
      && (getDie logs 0).fredState != 2 && fredNext logs 0 == some 0 && (getLaunch logs 0).logs == [(0, [x])]
      && (match fredOne logs (getLaunch logs 0) x with | .applied _ => true | _ => false)
      && (match fredOne logs (getLaunch logs 0) ⟨7, 64, 0, 9, true, 0, 0⟩ with | .dropped => true | _ => false)
      && (match fredOne moving (getLaunch moving 0) x with | .parked _ => true | _ => false)
      && (match fredOne absent (getLaunch absent 0) x with | .held _ => true | _ => false) && (getDie d 0).fredState == 2) = true := by
  decide +kernel

theorem witness_BootEvents :
    let at_ := fun (n : Nat) => { State.reset with boot := { Boot.reset with stage := n } }
    let e : Event := { unit := 7, value := 2 ^ 319 + 1 }
    let p := setPart (at_ 6) 7 { Partition.reset with exist := true, cores := [3] }
    let old := { at_ 1 with boot := { (at_ 1).boot with fuses := { (at_ 1).boot.fuses with rollback := 5 } } }
    let r := { at_ 6 with frozen := true, scanned := true }
    ((upTo 6).all (fun n => (at_ (n + 1)).boot.stage == n + 1 && !(at_ (n + 1)).boot.safe)
      && imageCode (at_ 1) 0 0 == 0 && imageCode (at_ 1) 1 0 == 1 && imageCode old 0 4 == 3 && imageCode old 0 5 == 0 && decide ((e.unit : Nat) < 8) && !(getPart (at_ 6) 7).exist
      && ((upTo (Config.dies * Config.coresPerDie)).filter e.value.testBit == [0, 319]) && coresIdle (at_ 6) [0, 319]
      && (at_ 6).partitions.isEmpty && allLinks.contains 16 && !(List.contains (getPart p 7).cores 0) && (getPart p 7).exist && coresIdle p (getPart p 7).cores && !(at_ 6).scanned && r.frozen && r.scanned) = true := by
  decide +kernel

/-- Objects 3 to 5, with the data object's entry in the descriptor cache of core 0. -/
def withData (s : State) : State := withQueue s [] []

/-- A line of object 4, with core 40 among its sharers where it is a guest copy and core 0 where it is at its home. -/
def dataLine (dirty pool guest : Bool) : Line :=
  ⟨0, 0, 4, 0, false, guest, 0, false, dirty, false, pool, 0, [], [if guest then 40 else 0], false, List.replicate 128 7⟩

/-- The home of object 4's first line: its entry and the state in which it is in the descriptor cache. -/
def dataHome (s : State) (c : Nat) : Desc × State :=
  val (descOf s c 4) (⟨0, 0, false, 0, false, false, false, false, 0, 0, 0, 0⟩, s)

/-- Loads at the home, from another die with and without a guest line there, and their replies; a store, its repeat and its acknowledgement. -/
theorem witness_FabricEvents_lines :
    let s := withData base
    let d := dataHome s 0
    let hz := homeSlice 4 0
    let h := homeDie d.1 0
    let away := setCore s 40 { getCore s 0 with part := 0 }
    let ad := dataHome away 40
    let near := setSlice away 1 hz { getSlice away 1 hz with lines := [dataLine false false true] }
    let nd := dataHome near 40
    let cached := setSlice s h hz { getSlice s h hz with lines := [dataLine true false false] }
    let again := withCore s (fun k => { k with outcomes := [(9, 0)] })
    let mine := fun (c : Nat) (l : Line) => l.part == 0 && l.obj == 4 && l.index == 0 && l.sharers.contains c
    (okb (descOf s 0 4) && okb (homeLine d.2 0 d.1 0) && decide (h = dieOf 0) && decide (h ≠ dieOf 40) && okb (descOf away 40 4)
      && (probe ad.2 (dieOf 40) hz 0 ad.1 0).1.isNone && okb (descOf near 40 4) && (probe nd.2 (dieOf 40) hz 0 nd.1 0).1.isSome
      && okb (descOf cached 0 4) && ((getSlice (dataHome cached 0).2 h hz).lines.find? (mine 0)).isSome
      && ((getSlice nd.2 1 hz).lines.find? (mine 40)).isSome && decide ((getDie ad.2 1).epoch = 0)
      && !((getSlice (probe ad.2 (dieOf 40) hz 0 ad.1 0).2 1 hz).lines.any (fun l => l.part == 0 && l.obj == 4 && l.index == 0))
      && hasKey (getCore again 0).outcomes 9 && !hasKey (getCore s 0).outcomes 9
      && okb (storeLineBy (storerOf d.2 0 0) d.2 0 (some 0) d.1 0 [1, 2] false) && !okb (descOf s 0 7)
      && ((getSlice cached h hz).lines.find? (fun l => l.obj == 4 && l.index == 0 && !l.guest && l.dirty)).isSome) = true := by
  decide +kernel

/-- A walk that another joins, one that it may start, and one that waits behind eight; a walk that is stale, one that ends with its page, one that
ends with a fault, and one whose object has gone. -/
theorem witness_FabricEvents_walks :
    let s := withData base
    let x0 := (dataHome s 0).1
    let hz := homeSlice 4 0
    let h := homeDie x0 0
    let e : Event := { die := h, unit := hz, obj := 4, off := 0 }
    let walk : Walk := ⟨0, 4, 0, false, 0, false, []⟩
    let walks := fun (ws : List Walk) => setSlice s h hz { getSlice s h hz with walks := ws }
    let w := walks [walk]
    let stale := walks [{ walk with stale := true }]
    let other := walks (List.replicate 8 { walk with obj := 5 })
    let t := setSlice w h hz ((getSlice w h hz).missed.foldl (askWalk w) { getSlice w h hz with walks := [], missed := [] })
    let x := (readEntry t 0 4).getD x0
    let gone := { t with hbm := memPut t.hbm 0x204000 (leBytes 8 0) }
    let none_ := { t with hbm := memPut t.hbm 0x100100 (leBytes 8 0) }
    ((getSlice w h hz).walks.any (fun y => samePage w 0 y e) && !(getSlice s h hz).walks.any (fun y => samePage s 0 y e)
      && decide ((getSlice s h hz).walks.length < 8) && !(getSlice other h hz).walks.any (fun y => samePage other 0 y e)
      && decide (8 ≤ (getSlice other h hz).walks.length)
      && ((getSlice w h hz).walks.find? (fun y => samePage w 0 y e)) == some walk && walk.mapgen == mapgenOf w 0 4
      && ((getSlice stale h hz).walks.find? (fun y => samePage stale 0 y e)).isSome
      && (readEntry t 0 4).isSome && okb (translate t h hz 0 x false 0) && (readEntry gone 0 4).isSome && !okb (translate gone h hz 0 x false 0)
      && (readEntry none_ 0 4).isNone) = true := by
  decide +kernel

/-- A reduction whose outcome its unit has, one that meets an entry of its key, one that finds the unit free and one that finds it full; a grant that
lapses; a request that goes out again and one that has; rows, and a pool line at its hub. -/
theorem witness_FabricEvents_units :
    let s := withData base
    let x0 := (dataHome s 0).1
    let hz := homeSlice 4 0
    let h := homeDie x0 0
    let a : AtomicReq := ⟨0, 0, 0, 0, 0, 4, 0, 4, 0, 1, [], false⟩
    let met := setDie s h { getDie s h with merges := [⟨sliceStop hz, a, none⟩] }
    let full := setSlice s h hz { getSlice s h hz with queue := List.replicate 64 { a with core := 3 } }
    let again := withCore s (fun k => { k with outcomes := [(9, 0)] })
    let grant := setSlice s 0 0 { getSlice s 0 0 with granted := [(3, 0)] }
    let sent := fun (n src : Nat) => withCore s (fun k => { k with asked := [(9, ⟨n, 0, false, src, 7, 4, 0, 31, ⟨.sliceStore, {}⟩⟩)] })
    let row := setDie { s with clock := 2048 } 0 { getDie s 0 with rows := [(2, (5, 0))] }
    let pool := setPart (setSlice s h hz { getSlice s h hz with lines := [dataLine false true false] }) 0
      { getPart s 0 with prmbase := 0x300, prmlen := 1 }
    let pool := { pool with hbm := memPut pool.hbm 0x300000 (leBytes 8 (4 * 2 ^ 32)) }
    let r := reverseEntry pool 0 0 0
    (hasKey (getCore again 0).outcomes 9 && (combineAt (getDie met h) (sliceStop hz) a).isSome && (combineAt (getDie s h) (sliceStop hz) a).isNone
      && (getSlice s h hz).reserved.isEmpty && decide ((getSlice s h hz).queue.length + (getSlice s h hz).granted.length < 64)
      && !atomicWaits s h hz && decide (64 ≤ (getSlice full h hz).queue.length + (getSlice full h hz).granted.length)
      && (combineAt (getDie full h) (sliceStop hz) a).isNone
      && (getSlice grant 0 0).granted.filter (fun x => decide (x.2 ≤ grant.clock)) == [(3, 0)] && (getSlice grant 0 0).granted.any (fun x => x.1 == 3)
      && [(0, 0), (1, 0), (1, 1)].all (fun n => match find? (getCore (sent n.1 n.2) 0).asked 9 with
        | some x => decide (x.tries = n.1) && decide (x.src = n.2) && decide (x.since + 65536 ≤ { sent n.1 n.2 with clock := 65536 }.clock)
          && decide ((sent n.1 n.2).clock < x.since + 65536)
        | none => false)
      && find? (getDie row 0).rows 2 == some (5, 0) && decide ((0 : Nat) + 2048 ≤ row.clock) && decide (2 ^ 34 - 1 < 2 ^ 34)
      && decide (0 / 2 ^ 16 < (getPart pool 0).prmlen.toNat % 2 ^ 28) && tableOk pool 0 ((getPart pool 0).prmbase.toNat % 2 ^ 29 * 4096 + 8 * (0 / 2 ^ 16)) && r.1 == 4 * 2 ^ 32 && (readEntry r.2 0 4).isSome
      && ((getSlice r.2 h hz).lines.find? (fun l => l.part == 0 && l.obj == 4 && l.index == 0 && !l.guest && l.pool)).isSome) = true := by
  decide +kernel

theorem witness_LoopAndHubEvents :
    let f : Flit := ⟨5, 1, 0, 0, 0, 0, 4, 0, 64, 0, 0, 0, [], 0, 1, 9, 0, 1, 0, 9, false, 0, none, none, 0, []⟩
    let k := setDie { base with clock := 32 } 0 { getDie base 0 with flits := [f] }
    let r := routeOf (coreStop 0) (coreStop 39)
    let stops := routeStops r 32 r.pos
    let c : Circuit := ⟨99, r.loop, 0, stops, 1, 0⟩
    let busy := setDie base 0 { getDie base 0 with circuits := [c] }
    let x := { Stream.reset with cfg := 0x88000000 }
    let y := { Stream.reset with cfg := 0x82000000 }
    let p : Sent := ⟨0, 4, 0, [1, 2], 3, 0, .sent⟩
    let s := withData base
    let s := { s with hbm := memPut (memPut s.hbm (0x100000 + 64 * 4 + 8) (leBytes 4 11)) (0x100000 + 64 * 4 + 0x20) [3] }
    let net := setStream s 255 x
    let dev := setStream { s with windows := [⟨0, 4, 0, 4096, 255⟩] } 255 y
    let go := setStream s 255 { x with released := [p] }
    let parked := { x with released := [{ p with state := .parked }] }
    let stop := setStream s 255 (setHeld x true)
    ((getDie k 0).flits.find? (fun f => f.id == 5) == some f
      && (getDie k 0).flits.find? (fun f => f.id == 5 && !f.onLoop && decide (f.since + 32 ≤ k.clock)) == some f
      && ((getDie k 0).flits ++ (getDie k 0).merges.filterMap (·.via)).find? (fun f => f.id == 5 && !f.onLoop && decide (f.since + 32 ≤ k.clock)) == some f
      && hasNeighbour 0 15 && hasNeighbour 7 7 && !hasNeighbour 3 15 && (getDie base 0).circuits.isEmpty && phaseFree (getDie base 0) r.loop 0 stops && !phaseFree (getDie busy 0) r.loop 0 stops
      && phaseFree (getDie busy 0) r.loop 1 stops && decide (circuitId { core := 0, unit := 39 } ≠ 99)
      && accepts base x && accepts base y && !base.linksDown.contains (linkOf x) && !base.linksDown.contains (linkOf y) && fieldNat x.cfg 25 2 == 0
      && fieldNat y.cfg 25 2 != 0 && (remoteEntry net (hubDie x) 4 11 1).isSome && (remoteEntry net 0 4 11 0).isSome
      && windowAt dev 0 16 8 == some ⟨0, 4, 0, 4096, 255⟩ && nextPiece (getStream go 255) 3 false == some p
      && (nextPiece parked 3 true).isSome && (nextPiece parked 3 false).isNone
      && okb (applyWrite go (fwPart go (hubDie x)) 4 0 [1, 2]) && !held (getStream go 255) && held (getStream stop 255)
      && (match remoteEntry net 0 4 11 0 with | some y => okb (readHome net (fwPart net 0) y 4092 4) | none => false)
      && (match windowAt dev 0 4092 4 with
          | some w => (match readEntry dev w.part w.obj with | some y => okb (readHome dev w.part y (w.base + 4092) 4) | none => false)
          | none => false)
      && !base.linksDown.contains 24 && !(Stream.reset.cfg.getLsbD 31) && (wordOf 0x80000000).getLsbD 31) = true := by
  decide +kernel

/-- WMARK before the wrap of the numbers: the number after it, the last of the window, one beyond it, one before WMARK, and one that is here already. -/
theorem witness_StreamOrder :
    let x := { Stream.reset with wmark := 0xFFFFFFFE, expected := 0xFFFFFFFF }
    let w := fun (n : Nat) => ((n, 4, 0, []) : Nat × Nat × Nat × List Byte)
    let here := { x with buffered := [w 5] }
    (!follows (w 0xFFFFFFFE).1 x.wmark.toNat && decide (1024 < ((w 1023).1 + 2 ^ 32 - x.wmark.toNat) % 2 ^ 32)
      && ({ x with released := [⟨0xFFFFFFFF, 4, 0, [], 0, 0, .sent⟩] } : Stream).released.any (fun v => v.number == 0xFFFFFFFF)
      && here.buffered.any (fun v => v.1 == 5) && follows (w 5).1 here.wmark.toNat && taken here 5 && !held x && held (setHeld x true)
      && follows (w 0xFFFFFFFF).1 x.wmark.toNat && decide (((w 0xFFFFFFFF).1 + 2 ^ 32 - x.wmark.toNat) % 2 ^ 32 ≤ 1024)
      && !taken x 0xFFFFFFFF && decide (x.expected.toNat = (w 0xFFFFFFFF).1) && follows (w 1022).1 x.wmark.toNat && !taken x 1022
      && decide (((w 1022).1 + 2 ^ 32 - x.wmark.toNat) % 2 ^ 32 ≤ 1024) && decide (x.expected.toNat ≠ (w 1022).1)) = true := by
  decide +kernel

theorem witness_DecodeEncodes : (Instr.add 17 0 0).hasWord = true ∧ (Instr.add 17 0 0).orderOk = true := by decide

theorem witness_EncodeDecodes : decode 0x01044000 = .ok (.add 17 0 0) := rfl

theorem witness_SpecWords : (0x00FFFFFF : Word) ≠ 0 ∧ (0x00FFFFFF : Word).toNat < 2 ^ 24 ∧ 0xFF000000 ≤ (0xFF000000 : Word).toNat := by decide

/-- A slot that decodes; one that does not; an interrupt of a parked group; and no candidate. -/
theorem witness_StepRunsInstruction :
    let s := placed 0x01044000
    let x := ((pick s).getD (0, ⟨0, 0, []⟩)).2
    let t := { s with turn := ((pick s).getD (0, x)).1 }
    let bs := (val (fetchCourse t x.core x.slot 0) ([], t)).1
    let b := placed 0xFF000000
    let cs := (val (fetchCourse { b with turn := t.turn } x.core x.slot 0) ([], t)).1
    let called := withGroup (parked base (.queueEmpty 0)) (fun g => { g with user := { g.user with handler := 0, payload := some 9 } })
    let far := withGroup (withCore (placed 0) (fun k => { k with
      icache := insertKey k.icache (2 * 2 ^ 37) (leBytes 16 (0x01044000 * 2 ^ 64 + 2 ^ 15) ++ List.replicate 112 0) }))
      (fun g => { g with quads := g.quads.map (fun e => (e.1, { e.2 with stallUntil := 100 })) })
    let y := ((pick far).getD (0, ⟨0, 0, []⟩)).2
    let a := (nextAhead far y).getD ⟨0, 0, false, []⟩
    let ds := (val (fetchCourse { far with turn := ((pick far).getD (0, y)).1 } y.core y.slot 0) ([], t)).1
    (far.due.isEmpty && !far.frozen && (parkedDelivery far).isNone && (pick far).isSome && aheadReady far y && (nextAhead far y).isSome && a.pc == 1
      && okb (fetchCourse { far with turn := ((pick far).getD (0, y)).1 } y.core y.slot 0) && (instrSlots (lmapOf ds)).contains 1
      && okb (decode (courseWord ds 2)) && !aheadReady s x && !aheadReady b x
      && s.due.isEmpty && !s.frozen && (parkedDelivery s).isNone && called.due.isEmpty && (parkedDelivery called).isSome && (pick s).isSome && (boundaryEvent s x).isNone && decide ((candidatePc t x).toNat = 0)
      && okb (fetchCourse t x.core x.slot 0) && (instrSlots (lmapOf bs)).contains 0 && okb (decode (courseWord bs 1))
      && b.due.isEmpty && (parkedDelivery b).isNone && (pick b).isSome && (boundaryEvent b x).isNone && okb (fetchCourse { b with turn := t.turn } x.core x.slot 0)
      && (instrSlots (lmapOf cs)).contains 0 && !okb (decode (courseWord cs 1))
      && (pick State.reset).isNone && (parkedDelivery State.reset).isNone && State.reset.due.isEmpty && !State.reset.frozen) = true := by
  decide +kernel

theorem witness_LockedKept :
    let s := { State.reset with frozen := true, scanned := true }
    (s.locked && (match step s with | .next _ => true | _ => false)) = true := by
  decide +kernel

theorem witness_ResetState :
    (match exec .freezeAssert State.reset with
      | .next t => (match exec .scanChainShift t with | .next _ => State.reset.due.isEmpty | _ => false)
      | _ => false) = true := by
  decide +kernel

end Sys2Proof.Tests
end

/-!
PROOFS. The fields of a slot word read back (spec/07 R178), and clz, popc and brev: what the counts and the reversal say of the
bits of their operand, and their b field (spec/10 R219).
-/

namespace Sys2Proof.Machine

/-! ### The fields of a slot word -/

section
variable (op : BitVec 8) (fn : BitVec 3) (d a b : BitVec 7)

@[simp] theorem bits_slotWord_op : bits (slotWord op fn d a b) 24 8 = op := by
  unfold bits slotWord
  rw [BitVec.extractLsb'_append_eq_of_le (by decide), BitVec.extractLsb'_append_eq_of_le (by decide),
    BitVec.extractLsb'_append_eq_of_le (by decide)]
  exact BitVec.extractLsb'_append_eq_left

@[simp] theorem bits_slotWord_fn : bits (slotWord op fn d a b) 21 3 = fn := by
  unfold bits slotWord
  rw [BitVec.extractLsb'_append_eq_of_le (by decide), BitVec.extractLsb'_append_eq_of_le (by decide),
    BitVec.extractLsb'_append_eq_of_le (by decide)]
  exact BitVec.extractLsb'_append_eq_right

@[simp] theorem bits_slotWord_d : bits (slotWord op fn d a b) 14 7 = d := by
  unfold bits slotWord
  rw [BitVec.extractLsb'_append_eq_of_le (by decide), BitVec.extractLsb'_append_eq_of_le (by decide)]
  exact BitVec.extractLsb'_append_eq_right

@[simp] theorem bits_slotWord_a : bits (slotWord op fn d a b) 7 7 = a := by
  unfold bits slotWord
  rw [BitVec.extractLsb'_append_eq_of_le (by decide)]
  exact BitVec.extractLsb'_append_eq_right

@[simp] theorem bits_slotWord_b : bits (slotWord op fn d a b) 0 7 = b :=
  BitVec.extractLsb'_append_eq_right

end

/-- A word whose fields name an instruction decodes to it. -/
theorem decode_slotWord_of_ok {op : BitVec 8} {fn : BitVec 3} {d a b : BitVec 7} {i : Instr} (h : decodeFields op fn d a b = .ok i) :
    decode (slotWord op fn d a b) = .ok i := by
  simp [decode, h]

/-- A word with a bad field is an illegal encoding where its opcode leaves no value of fn and no scope unassigned (R190, R109). -/
theorem decode_slotWord_of_illegal {op : BitVec 8} {fn : BitVec 3} {d a b : BitVec 7}
    (h : decodeFields op fn d a b = .error .illegalEncoding) (hf : fnUnassigned op fn = false)
    (hs : ∀ sc, scopeUnassigned op sc = false) : decode (slotWord op fn d a b) = .error .illegalEncoding := by
  simp [decode, h, hf, hs]

/-- An opcode whose b field must be 0 names its instruction exactly then (R190). -/
theorem decode_slotWord_of_zero_b {op : BitVec 8} {fn : BitVec 3} {d a b : BitVec 7} {i : Instr}
    (h : decodeFields op fn d a b = if ¬ b = 0 then .error .illegalEncoding else .ok i) (hf : fnUnassigned op fn = false)
    (hs : ∀ sc, scopeUnassigned op sc = false) :
    decode (slotWord op fn d a b) = if b = 0 then .ok i else .error .illegalEncoding := by
  by_cases hb : b = 0
  · rw [if_pos hb]
    exact decode_slotWord_of_ok (h.trans (if_neg (not_not_intro hb)))
  · rw [if_neg hb]
    exact decode_slotWord_of_illegal (h.trans (if_pos hb)) hf hs

/-! ### Counts and reversal (R219) -/

@[simp] theorem clzW_zero : clzW 0 = 32 := rfl

theorem log2_toNat_lt {x : Word} (hx : x ≠ 0) : Nat.log2 x.toNat < 32 :=
  (Nat.log2_lt (fun h => hx (BitVec.eq_of_toNat_eq h))).mpr x.isLt

/-- Of a word that is not 0, clz counts the places above its highest one bit. -/
theorem clzW_toNat {x : Word} (hx : x ≠ 0) : (clzW x).toNat = 31 - Nat.log2 x.toNat := by
  unfold clzW wordOf
  rw [if_neg hx, BitVec.toNat_ofNat, Nat.mod_eq_of_lt (by omega)]

theorem clzW_le (x : Word) : (clzW x).toNat ≤ 32 := by
  by_cases hx : x = 0
  · subst hx
    decide
  · rw [clzW_toNat hx]
    omega

/-- The bits that clz counts are 0. -/
theorem getLsbD_of_clzW_le (x : Word) (i : Nat) (hi : 32 - (clzW x).toNat ≤ i) : x.getLsbD i = false := by
  by_cases hx : x = 0
  · subst hx
    exact BitVec.getLsbD_zero
  · have hlog := log2_toNat_lt hx
    rw [clzW_toNat hx] at hi
    have hpow : 2 ^ (Nat.log2 x.toNat + 1) ≤ 2 ^ i := Nat.pow_le_pow_right (by decide) (by omega)
    exact Nat.testBit_lt_two_pow (Nat.lt_of_lt_of_le Nat.lt_log2_self hpow)

/-- The bit below those that clz counts is 1. -/
theorem getLsbD_clzW (x : Word) (h : (clzW x).toNat < 32) : x.getLsbD (31 - (clzW x).toNat) = true := by
  have hx : x ≠ 0 := by
    rintro rfl
    exact absurd h (by decide)
  have hlog := log2_toNat_lt hx
  have hplace : 31 - (clzW x).toNat = Nat.log2 x.toNat := by
    rw [clzW_toNat hx]
    omega
  rw [hplace]
  exact Nat.testBit_log2 (fun h0 => hx (BitVec.eq_of_toNat_eq h0))

theorem popcW_toNat (x : Word) : (popcW x).toNat = ((List.range 32).filter (fun i => x.getLsbD i)).length := by
  have hle : ((List.range 32).filter (fun i => x.getLsbD i)).length ≤ 32 :=
    Nat.le_trans (List.length_filter_le _ _) (Nat.le_of_eq List.length_range)
  unfold popcW wordOf upTo
  rw [BitVec.toNat_ofNat, Nat.mod_eq_of_lt (by omega)]

/-- One step of the reversal: bit `i` of `x`, moved to bit 31 − i of `r`. -/
def putReversed (x r : Word) (i : Nat) : Word := if x.getLsbD i then r ||| BitVec.ofNat 32 (2 ^ (31 - i)) else r

theorem brevW_eq_foldl (x : Word) : brevW x = (upTo 32).foldl (putReversed x) 0 := rfl

theorem getLsbD_putReversed (x r : Word) {i j : Nat} (hi : i < 32) (hj : j < 32) :
    (putReversed x r i).getLsbD (31 - j) = (r.getLsbD (31 - j) || (decide (i = j) && x.getLsbD i)) := by
  have hplace : 31 - i = 31 - j ↔ i = j := by omega
  have hlt : 31 - j < 32 := by omega
  unfold putReversed
  split
  · next hx =>
    rw [BitVec.getLsbD_or, BitVec.getLsbD_ofNat, Nat.testBit_two_pow]
    simp [hplace, hlt, hx]
  · next hx => simp [hx]

/-- Once the bits of a list are moved, bit 31 − j is that of `x` at `j` where the list holds `j`. -/
theorem getLsbD_foldl_putReversed (x : Word) {j : Nat} (hj : j < 32) (l : List Nat) (hl : ∀ i ∈ l, i < 32) :
    ∀ r : Word, (l.foldl (putReversed x) r).getLsbD (31 - j) = (r.getLsbD (31 - j) || (decide (j ∈ l) && x.getLsbD j)) := by
  induction l with
  | nil => simp
  | cons i l ih =>
    intro r
    rw [List.foldl_cons, ih (fun k hk => hl k (List.mem_cons_of_mem _ hk)), getLsbD_putReversed x r (hl i List.mem_cons_self) hj]
    by_cases hij : j = i
    · subst hij
      cases x.getLsbD j <;> simp
    · simp [hij, Ne.symm hij]

theorem getLsbD_brevW (x : Word) (i : Nat) (hi : i < 32) : (brevW x).getLsbD (31 - i) = x.getLsbD i := by
  rw [brevW_eq_foldl, getLsbD_foldl_putReversed x hi (upTo 32) (fun k hk => (mem_upTo 32 k).mp hk)]
  simp [(mem_upTo 32 i).mpr hi]

/-- Settles O58: each instruction is one lane operation on a, and its function is read off bit by bit. -/
theorem bitCounts : Obligations.BitCounts := by
  unfold Obligations.BitCounts
  refine ⟨fun s d a => ⟨laneResult_of rfl, laneResult_of rfl, laneResult_of rfl⟩,
    fun x => ⟨clzW_le x, getLsbD_of_clzW_le x, getLsbD_clzW x⟩, popcW_toNat, getLsbD_brevW, fun d a b => ?_⟩
  exact ⟨decode_slotWord_of_zero_b rfl rfl (fun _ => rfl), decode_slotWord_of_zero_b rfl rfl (fun _ => rfl),
    decode_slotWord_of_zero_b rfl rfl (fun _ => rfl)⟩

end Sys2Proof.Machine

/-!
PROOFS. The instructions that read their destination: the d operand is the lane's own value, and a d field with a pattern or a
stream register is an illegal encoding (spec/07 R210, Table 7-11).
-/

namespace Sys2Proof.Machine

/-! ### The rows of Table 7-11 -/

theorem slotFault_of_checkSlot {s : State} {o : OpInfo} (h : checkSlot s o = .ok ()) : slotFault s o = none := by
  unfold checkSlot at h
  cases hc : slotFault s o with
  | none => rfl
  | some c =>
    rw [hc] at h
    cases h

/-- A row of the table that a slot does not meet is passed over. -/
theorem row_passed {c : Prop} [Decidable c] {k : Nat} {x y : Option Nat} {z : Option Nat}
    (h : (if c then some k else x) = none) (next : x = none → y = z) : (if c then some k else y) = z :=
  (if_neg (ite_none h).1).trans (next (ite_none h).2)

/-- A malformed field is reported for a slot that meets no other row of the table, whatever its name ranges are. -/
theorem slotFault_encBad {s : State} {o : OpInfo} (h : slotFault s o = none) (r : Bool) :
    slotFault s { o with encBad := true, rangeBad := r } = some 0x10 := by
  unfold slotFault at h ⊢
  exact row_passed h fun h => row_passed h fun h => row_passed h fun h => row_passed h fun h => row_passed h fun h =>
    row_passed h fun h => row_passed h fun h => row_passed h fun h => row_passed h fun _ => rfl

/-- A slot that Table 7-11 accepts has no malformed field: with one, the slot would meet its row. -/
theorem encBad_of_slotFault {s : State} {o : OpInfo} (h : slotFault s o = none) : o.encBad = false := by
  rw [← Bool.not_eq_true]
  intro hb
  have ho : { o with encBad := true, rangeBad := o.rangeBad } = o := by
    rw [← hb]
  have hf := slotFault_encBad h o.rangeBad
  rw [ho, h] at hf
  cases hf

/-- A lane instruction with a malformed field and no other fault takes an illegal-encoding trap. -/
theorem laneOp_encBad {s : State} {o : OpInfo} (h : slotFault s o = none) (srcs : List Src) (na nb : Nat) (d : BitVec 7) (n lat : Nat)
    (f : List Word → List Word × BitVec 5) :
    laneOp s { o with encBad := true } srcs na nb d n lat f = illegal 0x10 := by
  unfold laneOp readSources checkSlot
  simp only [slotFault_encBad h]
  rfl

/-! ### The d operand (R210) -/

theorem readDstBad_eq_false_iff (d : BitVec 7) : readDstBad d = false ↔ patOf d = 0 ∧ isStream d = false := by
  simp [readDstBad]

theorem readDstBad_of_pattern_or_stream {d : BitVec 7} (h : patOf d ≠ 0 ∨ (12 ≤ codeOf d ∧ codeOf d ≤ 15)) : readDstBad d = true := by
  rcases h with hp | ⟨h12, h15⟩
  · simp [readDstBad, hp]
  · simp [readDstBad, isStream, h12, h15]

/-- A field with neither a pattern nor a stream register reads each lane's own value. -/
theorem srcLanes_of_plain {d : BitVec 7} (h : readDstBad d = false) (s : State) (sv : StreamVals) :
    srcLanes s sv (.reg d 0) = nameLanes (curGroup s) s.clock (nameOf (curGroup s) d) := by
  obtain ⟨hp, hs⟩ := (readDstBad_eq_false_iff d).mp h
  simp [srcLanes, permute, hp, hs]

/-- An instruction that reads its destination, as a lane operation on a, b and d, writes the function `g` of a, b and the lane's
own value of d. -/
theorem wrote_of_reads_destination {i : Instr} {s : State} {o : OpInfo} {x y : Src} {na nb lat : Nat} {d : BitVec 7}
    {f : List Word → List Word × BitVec 5} {g : Word → Word → Word → Word}
    (he : exec i s = finish s (laneOp s { o with encBad := readDstBad d } [x, y, .reg d 0] na nb d 1 lat f))
    (hf : ∀ p q z, (f [p, q, z]).1 = [g p q z]) (h : LaneRuns s { o with encBad := readDstBad d } [x, y, .reg d 0] d 1) :
    ∃ u, exec i s = .next u
      ∧ Wrote s u d 1 (fun j _ => g (laneVal (srcLanes s [] x) j) (laneVal (srcLanes s [] y) j)
          (laneVal (nameLanes (curGroup s) s.clock (nameOf (curGroup s) d)) j)) := by
  have hown := srcLanes_of_plain (encBad_of_slotFault (slotFault_of_checkSlot h.slot)) s []
  obtain ⟨u, hu, hdone⟩ := laneOp_done h na nb lat f
  refine ⟨u, he.trans hu, fun j k hw hk => (hdone.wrote j k hw hk).trans ?_⟩
  obtain rfl : k = 0 := by omega
  show (f [laneVal (srcLanes s [] x) j, laneVal (srcLanes s [] y) j, laneVal (srcLanes s [] (.reg d 0)) j]).1.getD 0 0 = _
  rw [hf, hown]
  rfl

/-- Such an instruction with a pattern or a stream register in d takes an illegal-encoding trap. -/
theorem trap_of_bad_destination {i : Instr} {s : State} {o : OpInfo} {srcs : List Src} {na nb lat : Nat} {d : BitVec 7}
    {f : List Word → List Word × BitVec 5}
    (he : exec i s = finish s (laneOp s { o with encBad := readDstBad d } srcs na nb d 1 lat f))
    (hd : patOf d ≠ 0 ∨ (12 ≤ codeOf d ∧ codeOf d ≤ 15)) (h : slotFault s o = none) :
    exec i s = .next (takeTrap s { cls := 3, code := 0x10 }) := by
  rw [he, readDstBad_of_pattern_or_stream hd, laneOp_encBad h]
  rfl

/-- Settles O59: each of the five is one lane operation on a, b and d, whose d operand is the lane's own value. -/
theorem destinationSources : Obligations.DestinationSources := by
  unfold Obligations.DestinationSources
  intro s d a b n t r x y own reads
  have reads_of : ∀ {j : Instr} {o : OpInfo} {lat : Nat} {f : List Word → List Word × BitVec 5} {g : Word → Word → Word → Word},
      exec j s = finish s (laneOp s { o with encBad := readDstBad d } [.reg a 0, srcB s b 0, .reg d 0] 1 1 d 1 lat f) →
      (∀ p q z, (f [p, q, z]).1 = [g p q z]) → reads j o g :=
    fun he hf => ⟨wrote_of_reads_destination he hf, trap_of_bad_destination he⟩
  clear_value reads
  exact ⟨reads_of rfl (fun _ _ _ => rfl), reads_of rfl (fun _ _ _ => rfl), reads_of rfl (fun _ _ _ => rfl),
    reads_of rfl (fun _ _ _ => rfl), reads_of rfl (fun _ _ _ => rfl)⟩

end Sys2Proof.Machine

/-!
PROOFS. Reed instructions and the class masks: what a write of a reed register leaves, what follows it on the way to the next slot,
and the outcome of each instruction that writes one (spec/14 R314, R316, R317).
-/

namespace Sys2Proof.Machine

/-! ### A write of a reed register (R316) -/

/-- A map read at a key that no write of a list touches. -/
theorem lookup_foldl_insertKey_ne {α : Type} (key : Nat → Nat) (v : Nat → α) (k : Nat) (d : α) (l : List Nat) (h : ∀ i ∈ l, k ≠ key i) :
    ∀ m : FMap α, lookup (l.foldl (fun m i => insertKey m (key i) (v i)) m) k d = lookup m k d := by
  induction l with
  | nil => intro m; rfl
  | cons i r ih =>
    intro m
    rw [List.foldl_cons, ih (fun x hx => h x (List.mem_cons_of_mem _ hx)), lookup_insertKey_ne _ (h i List.mem_cons_self)]

section
variable (s : State) (z : Nat) (m : BitVec 16) (f : Nat → Nat)

theorem reedWrite_of_idle (h : (activeLanes s).isEmpty = true) : reedWrite s z m f = s := by
  simp [reedWrite, h]

theorem reeds_reedWrite : (curGroup (reedWrite s z m f)).regs.reeds
    = (activeLanes s).foldl (fun m i => insertKey m (32 * z + i) (f i)) (curGroup s).regs.reeds := by
  cases h : (activeLanes s).isEmpty with
  | true => rw [reedWrite_of_idle s z m f h, List.isEmpty_iff.mp h, List.foldl_nil]
  | false => simp [reedWrite, h]

theorem zclass_reedWrite (h : (activeLanes s).isEmpty = false) : (curGroup (reedWrite s z m f)).regs.zclass
    = insertKey (curGroup s).regs.zclass z (if allActive s then m else reedMask (curGroup s) z ||| m) := by
  simp [reedWrite, h]

end

/-- The mask of a written reed register by R316, `m` being the instruction's own; other masks and the streams of inactive lanes stay. -/
structure ReedWrote (s t : State) (z : Nat) (m : BitVec 16) : Prop where
  mask   : reedMask (curGroup t) z = if (activeLanes s).length = 4 * (curGroup s).nquad then m else reedMask (curGroup s) z ||| m
  others : ∀ x, x ≠ z → reedMask (curGroup t) x = reedMask (curGroup s) x
  idle   : ∀ j, j < 32 → j ∉ activeLanes s → ∀ x, reedRead (curGroup t) x j = reedRead (curGroup s) x j

theorem reedWrite_wrote {s : State} (h : (activeLanes s).isEmpty = false) (z : Nat) (m : BitVec 16) (f : Nat → Nat) :
    ReedWrote s (reedWrite s z m f) z m := by
  refine ⟨?_, fun x hx => ?_, fun j hj hout x => ?_⟩
  · unfold reedMask
    rw [zclass_reedWrite s z m f h, lookup_insertKey_self]
    simp [allActive, reedMask]
  · unfold reedMask
    rw [zclass_reedWrite s z m f h, lookup_insertKey_ne _ hx]
  · have hkey : ∀ i ∈ activeLanes s, 32 * x + j ≠ 32 * z + i := by
      intro i hi he
      have hi32 := activeLanes_lt hi
      have hij : j = i := by omega
      exact hout (hij ▸ hi)
    unfold reedRead
    rw [reeds_reedWrite, lookup_foldl_insertKey_ne (fun i => 32 * z + i) f _ _ _ hkey]

/-! ### Steps that leave reed registers alone -/

/-- The streams and the masks of the issuing group are as they were. -/
def SameReeds (s t : State) : Prop :=
  (curGroup t).regs.reeds = (curGroup s).regs.reeds ∧ (curGroup t).regs.zclass = (curGroup s).regs.zclass

theorem SameReeds.refl (s : State) : SameReeds s s := ⟨rfl, rfl⟩

theorem SameReeds.trans {s t u : State} (a : SameReeds s t) (b : SameReeds t u) : SameReeds s u := ⟨b.1.trans a.1, b.2.trans a.2⟩

theorem SameReeds.mask {s t : State} (h : SameReeds s t) (z : Nat) : reedMask (curGroup t) z = reedMask (curGroup s) z := by
  unfold reedMask
  rw [h.2]

theorem SameReeds.read {s t : State} (h : SameReeds s t) (z i : Nat) : reedRead (curGroup t) z i = reedRead (curGroup s) z i := by
  unfold reedRead
  rw [h.1]

theorem sameReeds_reedWrite_of_idle {s : State} (h : (activeLanes s).isEmpty = true) (z : Nat) (m : BitVec 16) (f : Nat → Nat) :
    SameReeds s (reedWrite s z m f) := by
  rw [reedWrite_of_idle s z m f h]
  exact SameReeds.refl s

theorem sameReeds_retire (s : State) : SameReeds s (retire s) := by
  have hregs : (curGroup (retire s)).regs = (curGroup s).regs := by
    rw [retire_group, (countSlot_rest _).1, (advanceAll_rest ..).1]
  exact ⟨by rw [hregs], by rw [hregs]⟩

theorem curGroup_occupyReed (s : State) (n : Nat) : curGroup (occupyReed s n) = curGroup s := by
  simp [occupyReed, curGroup, getGroup]

theorem sameReeds_occupyReed (s : State) (n : Nat) : SameReeds s (occupyReed s n) := by
  unfold SameReeds
  rw [curGroup_occupyReed]
  exact ⟨rfl, rfl⟩

theorem sameReeds_noteDead (s : State) (srcs : List Src) : SameReeds s (noteDead s srcs) := by
  unfold SameReeds
  rw [noteDead_lanes]
  exact ⟨rfl, rfl⟩

theorem sameReeds_freeName (s : State) (name : Nat) : SameReeds s (freeName s name) := by
  unfold SameReeds freeName
  rw [curGroup_setCur]
  exact ⟨rfl, rfl⟩

theorem sameReeds_freeNames (l : List Nat) : ∀ s, SameReeds s (l.foldl freeName s) := by
  induction l with
  | nil => exact SameReeds.refl
  | cons name r ih => intro s; exact (sameReeds_freeName s name).trans (ih _)

theorem sameReeds_applyLast (s : State) (o : OpInfo) (na nb : Nat) (w : List Nat) : SameReeds s (applyLast s o na nb w) := by
  unfold applyLast
  exact sameReeds_freeNames _ s

/-- What follows a write and leaves reed registers alone keeps what the write did. -/
theorem ReedWrote.followed {s t u : State} {z : Nat} {m : BitVec 16} (w : ReedWrote s t z m) (h : SameReeds t u) : ReedWrote s u z m :=
  ⟨(h.mask z).trans w.mask, fun x hx => (h.mask x).trans (w.others x hx), fun j hj hout x => (h.read x j).trans (w.idle j hj hout x)⟩

/-- So does what comes before it and changes neither reed registers nor the active lanes. -/
theorem ReedWrote.preceded {s t u : State} {z : Nat} {m : BitVec 16} (w : ReedWrote t u z m) (h : SameReeds s t) (hl : SameLanes s t) :
    ReedWrote s u z m := by
  refine ⟨?_, fun x hx => (w.others x hx).trans (h.mask x), fun j hj hout x => ?_⟩
  · rw [w.mask, hl.active, hl.nquad, h.mask]
  · exact (w.idle j hj (by rwa [hl.active]) x).trans (h.read x j)

/-! ### Issue on the datapath (R326) -/

theorem onReed_of_free {s : State} (hfree : reedFreeAt s ≤ s.clock) (hact : (activeLanes s).isEmpty = false) (n : Nat) (t : State) :
    onReed s n (.ok t) = .next (retire (occupyReed t n)) := by
  unfold onReed
  simp only [hact, Bool.false_eq_true, if_false, if_neg (Nat.not_lt.mpr hfree)]
  rfl

theorem onReed_of_idle {s : State} (hidle : (activeLanes s).isEmpty = true) (n : Nat) (t : State) :
    onReed s n (.ok t) = .next (retire t) := by
  unfold onReed
  simp only [hidle, if_true]
  rfl

/-- An instruction whose write issues on a free datapath has written. -/
theorem next_of_reedWrote {i : Instr} {s t : State} {n z : Nat} {m : BitVec 16} (he : exec i s = onReed s n (.ok t))
    (hfree : reedFreeAt s ≤ s.clock) (hact : (activeLanes s).isEmpty = false) (w : ReedWrote s t z m) :
    ∃ u, exec i s = .next u ∧ ReedWrote s u z m :=
  ⟨_, he.trans (onReed_of_free hfree hact n t), w.followed ((sameReeds_occupyReed t n).trans (sameReeds_retire _))⟩

/-- An instruction that issues with no active lane and has left reed registers alone leaves them so. -/
theorem next_of_sameReeds {i : Instr} {s t : State} {n : Nat} (he : exec i s = onReed s n (.ok t))
    (hidle : (activeLanes s).isEmpty = true) (h : SameReeds s t) : ∃ u, exec i s = .next u ∧ SameReeds s u :=
  ⟨_, he.trans (onReed_of_idle hidle n t), h.trans (sameReeds_retire t)⟩

/-! ### The checks of a reed instruction -/

/-- Registers that exist among others exist. -/
theorem reedNames_subset {s : State} {zs ys : List Nat} (h : reedNames s zs = .ok ()) (hsub : ys ⊆ zs) : reedNames s ys = .ok () := by
  unfold reedNames at h ⊢
  split at h
  · rename_i hall
    exact if_pos (List.all_eq_true.mpr fun z hz => List.all_eq_true.mp hall z (hsub hz))
  · cases h

/-- The checks, once the slot, its registers and its results pass. -/
theorem reedCheck_of_ready {s : State} {zs : List Nat} (hslot : checkSlot s { noLane := true } = .ok ()) (hnames : reedNames s zs = .ok ())
    (hready : checkReady s [] [] = .ok ()) : reedCheck s zs = .ok (!(activeLanes s).isEmpty) := by
  obtain ⟨hwait, hunder⟩ := checkReady_ok hready
  unfold reedCheck
  rw [hslot, hnames, hwait, hunder]
  rfl

theorem reedCheck_of_idle {s : State} {zs : List Nat} (hslot : checkSlot s { noLane := true } = .ok ()) (hnames : reedNames s zs = .ok ())
    (hready : checkReady s [] [] = .ok ()) (hidle : (activeLanes s).isEmpty = true) : reedCheck s zs = .ok false := by
  rw [reedCheck_of_ready hslot hnames hready, hidle]
  rfl

theorem ReedOnce.check {s : State} {zs : List Nat} (h : ReedOnce s zs) : reedCheck s zs = .ok true := by
  obtain ⟨⟨hslot, hready, hact⟩, hnames⟩ := h
  rw [reedCheck_of_ready hslot hnames hready, hact]
  rfl

theorem ReedOnce.active {s : State} {zs : List Nat} (h : ReedOnce s zs) : (activeLanes s).isEmpty = false := h.1.2.2

/-- Without an active lane no poisoned stream is read. -/
theorem reedClean_of_idle {s : State} (h : (activeLanes s).isEmpty = true) (zs : List Nat) : reedClean s zs = .ok () := by
  unfold reedClean
  rw [List.isEmpty_iff.mp h]
  rfl

/-! ### The gates (R317, Table 14-3) -/

section
variable {s : State} {d a b : BitVec 3}

theorem gateOp_apart (hk : reedCheck s [d.toNat, a.toNat, b.toNat] = .ok true) (hc : reedClean s [a.toNat, b.toNat] = .ok ())
    (hm : reedMask (curGroup s) a.toNat &&& reedMask (curGroup s) b.toNat = 0) (f : Nat → Nat → Nat) :
    gateOp s .apart d a b f = onReed s (reedClocks s 1 256)
      (.ok (reedWrite s d.toNat (reedMask (curGroup s) a.toNat ||| reedMask (curGroup s) b.toNat)
        (fun i => f (reedRead (curGroup s) a.toNat i) (reedRead (curGroup s) b.toNat i)))) := by
  unfold gateOp
  rw [hk]
  simp only [hc, hm, bne_self_eq_false, Bool.false_eq_true, if_false]

theorem gateOp_same (hk : reedCheck s [d.toNat, a.toNat, b.toNat] = .ok true) (hc : reedClean s [a.toNat, b.toNat] = .ok ())
    (hm : reedMask (curGroup s) a.toNat = reedMask (curGroup s) b.toNat ∨ reedMask (curGroup s) a.toNat = 0
      ∨ reedMask (curGroup s) b.toNat = 0) (f : Nat → Nat → Nat) :
    gateOp s .same d a b f = onReed s (reedClocks s 1 256)
      (.ok (reedWrite s d.toNat (reedMask (curGroup s) a.toNat ||| reedMask (curGroup s) b.toNat)
        (fun i => f (reedRead (curGroup s) a.toNat i) (reedRead (curGroup s) b.toNat i)))) := by
  have hpass : (reedMask (curGroup s) a.toNat != reedMask (curGroup s) b.toNat && reedMask (curGroup s) a.toNat != 0
      && reedMask (curGroup s) b.toNat != 0) = false := by
    rcases hm with h | h | h <;> simp [h]
  unfold gateOp
  rw [hk]
  simp only [hc, hpass, Bool.false_eq_true, if_false]

theorem gateOp_of_idle (hk : reedCheck s [d.toNat, a.toNat, b.toNat] = .ok false) (rule : MaskRule) (f : Nat → Nat → Nat) :
    gateOp s rule d a b f = onReed s (reedClocks s 1 256) (.ok s) := by
  unfold gateOp
  rw [hk]

theorem execZmux_of_apart (hk : reedCheck s [d.toNat, a.toNat, b.toNat] = .ok true)
    (hc : reedClean s [d.toNat, a.toNat, b.toNat] = .ok ())
    (hm : reedMask (curGroup s) d.toNat &&& (reedMask (curGroup s) a.toNat ||| reedMask (curGroup s) b.toNat) = 0) :
    execZmux d a b s = onReed s (reedClocks s 1 256) (.ok (reedWrite s d.toNat
      (reedMask (curGroup s) d.toNat ||| reedMask (curGroup s) a.toNat ||| reedMask (curGroup s) b.toNat)
      (fun i => (reedRead (curGroup s) b.toNat i &&& reedRead (curGroup s) d.toNat i)
        ||| (reedRead (curGroup s) a.toNat i &&& ((2 ^ reedLen s - 1) ^^^ reedRead (curGroup s) d.toNat i))))) := by
  unfold execZmux
  rw [hk]
  simp only [hc, hm, bne_self_eq_false, Bool.false_eq_true, if_false]

theorem execZmux_of_idle (hk : reedCheck s [d.toNat, a.toNat, b.toNat] = .ok false) :
    execZmux d a b s = onReed s (reedClocks s 1 256) (.ok s) := by
  unfold execZmux
  rw [hk]

theorem execZnot_of_check {w : Bool} (hk : reedCheck s [d.toNat, a.toNat] = .ok w) (hc : reedClean s [a.toNat] = .ok ()) :
    execZnot d a s = onReed s (reedClocks s 1 256) (.ok (reedWrite s d.toNat (reedMask (curGroup s) a.toNat)
      (fun i => (2 ^ reedLen s - 1) ^^^ reedRead (curGroup s) a.toNat i))) := by
  unfold execZnot
  rw [hk]
  simp only [hc]

theorem execZregen_of_check {w : Bool} (hk : reedCheck s [d.toNat, a.toNat] = .ok w) (hc : reedClean s [a.toNat] = .ok ()) (c : BitVec 4) :
    execZregen d a c s = onReed s (classClocks s c.toNat) (.ok (reedWrite s d.toNat (BitVec.ofNat 16 (2 ^ c.toNat))
      (fun i => generate s c.toNat i (onesOf (reedLen s) (reedRead (curGroup s) a.toNat i) * (65536 / reedLen s))))) := by
  unfold execZregen
  rw [hk]
  simp only [hc]

end

/-! ### zgen (R321) -/

theorem slotFault_of_reedFirst {s : State} {o : OpInfo} {zs : List Nat} (h : reedFirst s o zs = .ok ()) : slotFault s o = none := by
  unfold reedFirst at h
  cases hf : slotFault s o with
  | none => rfl
  | some c => rw [hf] at h; cases h

/-- Sources without stream registers are read in the state itself, but for the note of dead ones. -/
theorem Reads.state_eq {s t : State} {o : OpInfo} {srcs : List Src} {vals : List Lanes} (h : Reads s o srcs vals t)
    (hplain : noStreams srcs = true) : t = noteDead s srcs := by
  obtain ⟨hr, -⟩ := h
  unfold readSources at hr
  rw [streamSources_none s srcs hplain] at hr
  split at hr
  · cases hr
  · split at hr
    · cases hr
    · split at hr
      · cases hr
      · exact (Prod.mk.inj (Except.ok.inj hr)).2.symm

/-- The static facts of zgen's slot. -/
def zgenInfo (f : BitVec 7) (k : BitVec 2) : OpInfo := { noLane := true, srcA := some f, encBad := k == 3 || isStream f }

/-- zgen's source is no stream register where its slot is accepted. -/
theorem zgen_source_plain {s : State} {d : BitVec 3} {f : BitVec 7} {k : BitVec 2} (h : reedFirst s (zgenInfo f k) [d.toNat] = .ok ()) :
    noStreams [.reg f 0] = true := by
  have henc : (k == 3 || isStream f) = false := encBad_of_slotFault (slotFault_of_reedFirst h)
  simp [noStreams, streamCode, (Bool.or_eq_false_iff.mp henc).2]

theorem execZgen_of_reads {s u : State} {d : BitVec 3} {f : BitVec 7} {k : BitVec 2} {vals : List Lanes}
    (h : reedFirst s (zgenInfo f k) [d.toNat] = .ok ()) (hr : Reads s (zgenInfo f k) [.reg f 0] vals u) (c : BitVec 4) :
    execZgen d f k c s = onReed s (classClocks s c.toNat) (.ok (applyLast (reedWrite u d.toNat (BitVec.ofNat 16 (2 ^ c.toNat))
      (fun i => generate s c.toNat i (zgenThreshold k.toNat (laneVal (vals.getD 0 []) i)))) (zgenInfo f k) 1 0 [])) := by
  obtain ⟨hsrc, hunder⟩ := hr
  unfold zgenInfo at h hsrc ⊢
  unfold execZgen
  simp only [h, hsrc, hunder]
  rfl

section
variable {s u : State} {d : BitVec 3} {f : BitVec 7} {k : BitVec 2} {vals : List Lanes}

theorem zgen_reedWrote (h : reedFirst s (zgenInfo f k) [d.toNat] = .ok ()) (hr : Reads s (zgenInfo f k) [.reg f 0] vals u)
    (hfree : reedFreeAt s ≤ s.clock) (hact : (activeLanes s).isEmpty = false) (c : BitVec 4) :
    ∃ t, exec (.zgen d f k c) s = .next t ∧ ReedWrote s t d.toNat (BitVec.ofNat 16 (2 ^ c.toNat)) := by
  obtain rfl := hr.state_eq (zgen_source_plain h)
  have hl := sameLanes_noteDead s [.reg f 0]
  have hwrite := reedWrite_wrote (by rwa [hl.active]) d.toNat (BitVec.ofNat 16 (2 ^ c.toNat))
    (fun i => generate s c.toNat i (zgenThreshold k.toNat (laneVal (vals.getD 0 []) i)))
  exact next_of_reedWrote (i := .zgen d f k c) (execZgen_of_reads h hr c) hfree hact
    ((hwrite.preceded (sameReeds_noteDead s _) hl).followed (sameReeds_applyLast _ _ 1 0 []))

theorem zgen_sameReeds (h : reedFirst s (zgenInfo f k) [d.toNat] = .ok ()) (hr : Reads s (zgenInfo f k) [.reg f 0] vals u)
    (hidle : (activeLanes s).isEmpty = true) (c : BitVec 4) : ∃ t, exec (.zgen d f k c) s = .next t ∧ SameReeds s t := by
  obtain rfl := hr.state_eq (zgen_source_plain h)
  have hidle' : (activeLanes (noteDead s [.reg f 0])).isEmpty = true := by rwa [(sameLanes_noteDead s _).active]
  exact next_of_sameReeds (i := .zgen d f k c) (execZgen_of_reads h hr c) hidle
    (((sameReeds_noteDead s _).trans (sameReeds_reedWrite_of_idle hidle' _ _ _)).trans (sameReeds_applyLast _ _ 1 0 []))

end

/-! ### The obligation -/

/-- Settles O60: each instruction issues one write of its destination on the datapath, by the rule of R316; with no active lane that write,
or the instruction itself, leaves the state as it is. -/
theorem reedMasks : Obligations.ReedMasks := by
  unfold Obligations.ReedMasks
  intro s d a b c f k g x y o wrote none_
  have wrote_of : ∀ {i : Instr} {n : Nat} {m : BitVec 16} {v : Nat → Nat}, reedFreeAt s ≤ s.clock → (activeLanes s).isEmpty = false →
      exec i s = onReed s n (.ok (reedWrite s d.toNat m v)) → wrote i m := by
    intro i n m v hfree hact he
    obtain ⟨t, ht, w⟩ := next_of_reedWrote he hfree hact (reedWrite_wrote hact d.toNat m v)
    exact ⟨t, ht, w.mask, w.others, w.idle⟩
  refine ⟨fun hfree => ⟨fun h hc => ⟨fun hm => ⟨?_, ?_⟩, fun hm => ⟨?_, ?_, ?_⟩, fun hm hcd => ?_⟩, fun h hc => ⟨?_, ?_⟩,
    fun r u h hr hact => ?_⟩, fun hidle => ⟨fun hslot hnames hready => ?_, fun r u h hr => ?_⟩⟩
  · exact wrote_of hfree h.active (gateOp_apart h.check hc hm _)
  · exact wrote_of hfree h.active (gateOp_apart h.check hc hm _)
  · exact wrote_of hfree h.active (gateOp_same h.check hc hm _)
  · exact wrote_of hfree h.active (gateOp_same h.check hc hm _)
  · exact wrote_of hfree h.active (gateOp_same h.check hc hm _)
  · exact wrote_of hfree h.active (execZmux_of_apart h.check hcd hm)
  · exact wrote_of hfree h.active (execZnot_of_check h.check hc)
  · exact wrote_of hfree h.active (execZregen_of_check h.check hc c)
  · obtain ⟨t, ht, w⟩ := zgen_reedWrote h hr hfree hact c
    exact ⟨t, ht, w.mask, w.others, w.idle⟩
  · have hgate := reedCheck_of_idle hslot hnames hready hidle
    have hone := reedCheck_of_idle hslot (reedNames_subset hnames (ys := [d.toNat, a.toNat]) (by simp)) hready hidle
    have hclean := reedClean_of_idle hidle [a.toNat]
    have gate_none : ∀ {i : Instr} {n : Nat}, exec i s = onReed s n (.ok s) → none_ i :=
      fun he => next_of_sameReeds he hidle (SameReeds.refl s)
    exact ⟨gate_none (gateOp_of_idle hgate .apart _), gate_none (gateOp_of_idle hgate .apart _),
      gate_none (gateOp_of_idle hgate .same _), gate_none (gateOp_of_idle hgate .same _), gate_none (gateOp_of_idle hgate .same _),
      gate_none (execZmux_of_idle hgate),
      next_of_sameReeds (i := .znot d a) (execZnot_of_check hone hclean) hidle (sameReeds_reedWrite_of_idle hidle _ _ _),
      next_of_sameReeds (i := .zregen d a c) (execZregen_of_check hone hclean c) hidle (sameReeds_reedWrite_of_idle hidle _ _ _)⟩
  · exact zgen_sameReeds h hr hidle c

end Sys2Proof.Machine

/-!
PROOFS. The decoder and the encoder agree (spec/08 Table 8-1, spec/07 R178, R179, R193, R195): an instruction decodes from its word, and a
word that decodes is the word of its instruction. Both go field by field: what the encoder joins the decoder takes apart, and a field that
the decoder checks is the constant that the encoder writes.
-/

namespace Sys2Proof.Machine

/-! ### Fields joined and taken apart -/

section
variable {k m n lo hi : Nat}

theorem bits_append_low (x : BitVec m) (y : BitVec n) : bits (x ++ y) 0 n = y := BitVec.extractLsb'_append_eq_right

theorem bits_append_high (x : BitVec m) (y : BitVec n) : bits (x ++ y) n m = x := BitVec.extractLsb'_append_eq_left

theorem bits_append_middle (x : BitVec m) (y : BitVec n) (z : BitVec k) : bits (x ++ y ++ z) k n = y := by
  unfold bits
  rw [BitVec.extractLsb'_append_eq_of_le (Nat.le_refl k), Nat.sub_self]
  exact bits_append_low x y

theorem bits_append_top (x : BitVec m) (y : BitVec n) (z : BitVec k) (h : lo = k + n) : bits (x ++ y ++ z) lo m = x := by
  subst h
  unfold bits
  rw [BitVec.extractLsb'_append_eq_of_le (Nat.le_add_right k n), Nat.add_sub_cancel_left]
  exact bits_append_high x y

theorem bits_append_bits (x : BitVec k) (h : hi = lo + n) : bits x hi m ++ bits x lo n = bits x lo (m + n) :=
  BitVec.extractLsb'_append_extractLsb'_eq_extractLsb' h

theorem bits_self (x : BitVec n) : bits x 0 n = x := BitVec.extractLsb'_eq_self

end

/-! ### From the instruction to its word and back (R178) -/

/-- A field that the decoder checks and that holds the constant of the encoding lets the word pass. -/
theorem field_passed {c : Prop} [Decidable c] {e : DecodeError} {x y : Except DecodeError Instr} (h : c) (next : x = y) :
    (if ¬ c then .error e else x) = y := (if_neg (not_not_intro h)).trans next


/-- The order field of an ordered access tells its word from a plain access's (R193). -/
theorem not_plain_of_ordered {o p : BitVec 2} (d a : BitVec 5) (h : (o ++ p != 0#4) = true) :
    ¬ (bits (o ++ d) 5 2 = 0#2 ∧ bits (p ++ a) 5 2 = 0#2) := by
  rw [bits_append_high, bits_append_high]
  rintro ⟨rfl, rfl⟩
  exact absurd h (by decide)

/-- An instruction is read back from the word that the encoder gives it, field by field. -/
theorem decode_of_encode (i : Instr) : ∀ w, encode i = some w → i.orderOk = true → decode w = .ok i := by
  cases i
  all_goals rintro w ⟨⟩ ho
  all_goals apply decode_slotWord_of_ok
  case ld => exact (if_pos ⟨bits_append_high _ _, bits_append_high _ _⟩).trans (by simp only [bits_append_low, bits_append_high])
  case st => exact (if_pos ⟨bits_append_high _ _, bits_append_high _ _⟩).trans (by simp only [bits_append_low, bits_append_high])
  case ldAcq => exact (if_neg (not_plain_of_ordered _ _ ho)).trans (by simp only [bits_append_low, bits_append_high])
  case stRel => exact (if_neg (not_plain_of_ordered _ _ ho)).trans (by simp only [bits_append_low, bits_append_high])
  all_goals (repeat' apply field_passed)
  any_goals apply congrArg (Except.ok (ε := DecodeError))
  all_goals simp only [bits_append_low, bits_append_high, bits_append_middle, bits_append_top, bits_append_bits, bits_self]

theorem encode_isSome (i : Instr) : (encode i).isSome = i.hasWord := by
  cases i <;> rfl

/-- Settles O51: the encoder gives the instruction a word, whose fields the decoder reads back. -/
theorem decodeEncodes : Obligations.DecodeEncodes := by
  intro i hw ho
  obtain ⟨w, h⟩ := Option.isSome_iff_exists.mp ((encode_isSome i).trans hw)
  exact ⟨w, h, decode_of_encode i w h ho⟩

/-! ### From a word to its instruction and back (R178, R190) -/

section
variable {k m n lo hi : Nat}

/-- A checked constant above a field, and the field: together they are the field that they were read from. -/
theorem append_bits_high {x : BitVec k} {h : BitVec m} (hx : bits x (lo + n) m = h) : h ++ bits x lo n = bits x lo (m + n) := by
  rw [← hx, bits_append_bits x rfl]

theorem bits_append_of_low {x : BitVec k} {l : BitVec n} (hx : bits x 0 n = l) : bits x n m ++ l = bits x 0 (m + n) := by
  rw [← hx, bits_append_bits x (Nat.zero_add n).symm]

theorem bits_append_of_middle {x : BitVec k} {h : BitVec m} {l : Nat} (hx : bits x n m = h) (e : hi = n + m) :
    bits x hi l ++ h ++ bits x 0 n = bits x 0 (l + m + n) := by
  rw [← hx, bits_append_bits x e, bits_append_bits x (Nat.zero_add n).symm]
end

theorem slotWord_bits (w : Word) : slotWord (bits w 24 8) (bits w 21 3) (bits w 14 7) (bits w 7 7) (bits w 0 7) = w := by
  unfold slotWord
  simp only [bits_append_bits, bits_self]

/-- A word passes the check of a field exactly if the field holds its constant. -/
theorem field_read {c : Prop} [Decidable c] {e : DecodeError} {x : Except DecodeError Instr} {i : Instr} :
    (if ¬ c then .error e else x) = .ok i ↔ c ∧ x = .ok i := by
  by_cases hc : c <;> simp [hc]


/-- An opcode from its high half, the row of Table 8-1, and its low half. -/
theorem opcode_of_halves (op : BitVec 8) : op = BitVec.ofNat 8 (16 * (bits op 4 4).toNat + (bits op 0 4).toNat) := by
  apply BitVec.eq_of_toNat_eq
  simp only [bits, BitVec.extractLsb'_toNat, BitVec.toNat_ofNat, Nat.shiftRight_eq_div_pow]
  omega



section
variable {fn : BitVec 3} {d a b : BitVec 7} {i : Instr}

theorem encode_of_zero_word {op : BitVec 8} (hw : encode .nop = some (slotWord op 0#3 0#7 0#7 0#7))
    (h : (if fn = 0#3 ∧ d = 0#7 ∧ a = 0#7 ∧ b = 0#7 then .ok .nop else .error .opcodeZero : Except DecodeError Instr) = .ok i) :
    encode i = some (slotWord op fn d a b) := by
  split at h
  · next hz =>
    obtain ⟨rfl, rfl, rfl, rfl⟩ := hz
    cases h
    exact hw
  · cases h

/-- A memory access, `x` plain and `y` ordered: its word tells which by the order field (R193). -/
theorem encode_of_access {op : BitVec 8} {x y : Instr}
    (hx : encode x = some (slotWord op fn (0#2 ++ bits d 0 5) (0#2 ++ bits a 0 5) (bits b 3 4 ++ bits b 0 3)))
    (hy : encode y = some (slotWord op fn (bits d 5 2 ++ bits d 0 5) (bits a 5 2 ++ bits a 0 5) (bits b 3 4 ++ bits b 0 3)))
    (h : (if bits d 5 2 = 0#2 ∧ bits a 5 2 = 0#2 then .ok x else .ok y : Except DecodeError Instr) = .ok i) :
    encode i = some (slotWord op fn d a b) := by
  split at h
  · next hp =>
    obtain ⟨hd, ha⟩ := hp
    cases h
    rw [hx]
    simp (disch := trivial) only [append_bits_high, bits_self]
  · cases h
    rw [hy]
    simp (disch := trivial) only [bits_append_bits, bits_self]

end

/-- Fields that name an instruction are those of the word that the encoder gives it. -/
theorem encode_of_decodeFields {op : BitVec 8} {fn : BitVec 3} {d a b : BitVec 7} {i : Instr} : decodeFields op fn d a b = .ok i →
    encode i = some (slotWord op fn d a b) := by
  have hop := opcode_of_halves op
  have hlt : (bits op 4 4).toNat < 16 := (bits op 4 4).isLt
  unfold decodeFields
  generalize (bits op 4 4).toNat = hi at hop hlt ⊢
  generalize (bits op 0 4).toNat = lo at hop ⊢
  subst hop
  have hrows : hi = 0 ∨ hi = 1 ∨ hi = 2 ∨ hi = 3 ∨ hi = 4 ∨ hi = 5 ∨ hi = 6 ∨ hi = 7 ∨ hi = 8 ∨ hi = 9 ∨ hi = 10 ∨ hi = 11 ∨ hi = 12
      ∨ hi = 13 ∨ hi = 14 ∨ hi = 15 := by omega
  obtain rfl | rfl | rfl | rfl | rfl | rfl | rfl | rfl | rfl | rfl | rfl | rfl | rfl | rfl | rfl | rfl := hrows
  all_goals simp only [decodeRow0, decodeRow1, decodeRow2, decodeRow3, decodeRow4, decodeRow5, decodeRow6, decodeRow7, decodeRow8,
     decodeRow9, decodeRowA, decodeRowB, decodeRowC, decodeRowD, decodeRowE, decodeRowF]
  all_goals split
  any_goals (with_reducible refine encode_of_zero_word ?_) <;> rfl
  any_goals (with_reducible refine encode_of_access ?_ ?_) <;> rfl
  all_goals simp only [field_read, Except.ok.injEq, and_imp, reduceCtorEq, false_imp_iff]
  all_goals intros; subst_vars
  all_goals refine congrArg some ?_
  all_goals simp (disch := trivial) only [append_bits_high, bits_append_of_low, bits_append_of_middle, bits_append_low,
    bits_append_high, bits_append_middle, bits_append_top, bits_self]

theorem decodeFields_of_decode {w : Word} {i : Instr} (h : decode w = .ok i) :
    decodeFields (bits w 24 8) (bits w 21 3) (bits w 14 7) (bits w 7 7) (bits w 0 7) = .ok i := by
  unfold decode at h
  split at h
  · cases h
  · exact h

/-- Settles O52: the fields of the word are those that the encoder gives the instruction, and a word is its fields. -/
theorem encodeDecodes : Obligations.EncodeDecodes := by
  intro w i h
  have hw : encode i = some w := by rw [encode_of_decodeFields (decodeFields_of_decode h), slotWord_bits]
  refine ⟨hw, ?_⟩
  rw [← encode_isSome, hw]
  rfl


/-! ### Words written out (R179, R195) -/

theorem toNat_opcode (w : Word) : (bits w 24 8).toNat = w.toNat / 2 ^ 24 := by
  have := w.isLt
  rw [BitVec.extractLsb'_toNat, Nat.shiftRight_eq_div_pow, Nat.mod_eq_of_lt (by omega)]

/-- Opcode 0x00 has no word but the all-zero one. -/
theorem decode_of_opcode_zero {w : Word} (hw : w ≠ 0) (h : bits w 24 8 = 0x00#8) : decode w = .error .opcodeZero := by
  have hfields : ¬ (bits w 21 3 = 0#3 ∧ bits w 14 7 = 0#7 ∧ bits w 7 7 = 0#7 ∧ bits w 0 7 = 0#7) := by
    rintro ⟨hfn, hd, ha, hb⟩
    have := slotWord_bits w
    rw [h, hfn, hd, ha, hb] at this
    exact hw this.symm
  have : decodeFields 0x00#8 (bits w 21 3) (bits w 14 7) (bits w 7 7) (bits w 0 7) = .error .opcodeZero := if_neg hfields
  unfold decode
  rw [h, this]

theorem decode_of_opcode_ff {w : Word} (h : bits w 24 8 = 0xFF#8) : decode w = .error .neverAssigned := by
  have : decodeFields 0xFF#8 (bits w 21 3) (bits w 14 7) (bits w 7 7) (bits w 0 7) = .error .neverAssigned := rfl
  unfold decode
  rw [h, this]

/-- Settles O53: the named words by evaluation, the words of opcodes 0x00 and 0xFF by their opcode. -/
theorem specWords : Obligations.SpecWords := by
  refine ⟨rfl, rfl, rfl, rfl, rfl, rfl, rfl, rfl, rfl, rfl, rfl, rfl, fun w hw hlt => ?_, fun w hle => ?_⟩
  · refine decode_of_opcode_zero hw (BitVec.eq_of_toNat_eq ?_)
    rw [toNat_opcode, BitVec.toNat_ofNat]
    omega
  · have := w.isLt
    refine decode_of_opcode_ff (BitVec.eq_of_toNat_eq ?_)
    rw [toNat_opcode, BitVec.toNat_ofNat]
    omega

end Sys2Proof.Machine

/-!
PROOFS. A module whose clocks are frozen and whose chain has shifted runs only the steps that need no clock, and none of them but a
reset unlocks it (R379).
-/

namespace Sys2Proof.Machine

/-- `t` is as frozen and scanned as `s` is, its clock, cores and HBM are those of `s`, and what has become due is no reset. -/
structure StaysLocked (s t : State) : Prop where
  frozen  : t.frozen = s.frozen
  scanned : t.scanned = s.scanned
  due     : ∀ e ∈ t.due, e ∈ s.due ∨ e.instr = .trapTake
  clock   : t.clock = s.clock
  cores   : t.cores = s.cores
  hbm     : t.hbm = s.hbm

theorem State.locked_iff (s : State) : s.locked = true ↔
    s.frozen = true ∧ s.scanned = true ∧ ∀ e ∈ s.due, e.instr ≠ .managementReset ∧ e.instr ≠ .powerCycle := by
  simp [State.locked, and_assoc]

theorem StaysLocked.of_due_eq {s t : State} (hf : t.frozen = s.frozen) (hs : t.scanned = s.scanned) (hd : t.due = s.due)
    (hk : t.clock = s.clock) (hc : t.cores = s.cores) (hh : t.hbm = s.hbm) : StaysLocked s t :=
  ⟨hf, hs, fun _ he => .inl (hd ▸ he), hk, hc, hh⟩

theorem StaysLocked.locked {s t : State} (h : StaysLocked s t) (hs : s.locked = true) : t.locked = true := by
  obtain ⟨hf, hc, hd⟩ := s.locked_iff.1 hs
  refine t.locked_iff.2 ⟨h.frozen ▸ hf, h.scanned ▸ hc, fun e he => ?_⟩
  rcases h.due e he with he | he
  · exact hd e he
  · simp [he]

/-- The steps that run while the clocks are frozen, but for the resets, leave a scanned module locked (R379). -/
theorem staysLocked_of_whileFrozen {s t : State} {i : Instr} (hf : s.frozen = true) (hc : s.scanned = true)
    (hi : whileFrozen i = true) (hr : i ≠ .managementReset ∧ i ≠ .powerCycle) (h : exec i s = .next t) : StaysLocked s t := by
  have next {u : State} (hu : exec i s = .next u) : t = u := Host.Outcome.next.inj (h.symm.trans hu)
  cases i <;> simp only [whileFrozen, Bool.false_eq_true] at hi
  case cxlPortDown =>
    rw [next (show _ = execCxlPortDown s from rfl)]
    split
    · exact ⟨rfl, rfl, fun e he => (List.mem_append.1 he).imp_right (fun he => by simp [List.mem_singleton.1 he]), rfl, rfl, rfl⟩
    · split <;> exact .of_due_eq rfl rfl rfl rfl rfl rfl
  case freezeRelease =>
    rw [next (show _ = execFreezeRelease s from rfl), if_pos hc]
    exact .of_due_eq rfl rfl rfl rfl rfl rfl
  case scanChainShift =>
    rw [next (show _ = execScanChainShift s from rfl), if_pos hf]
    exact .of_due_eq rfl hc.symm rfl rfl rfl rfl
  case externalLinkDown =>
    rw [next (show _ = execExternalLinkDown s from rfl)]
    split <;> exact .of_due_eq rfl rfl rfl rfl rfl rfl
  case statusQuery =>
    rw [next (show _ = execStatusQuery s from rfl)]
    dsimp only
    repeat' split
    all_goals exact .of_due_eq rfl rfl rfl rfl rfl rfl
  case managementReset => exact absurd rfl hr.1
  case powerCycle => exact absurd rfl hr.2

/-- A frozen module takes a due step that runs while the clocks are frozen, or none. -/
theorem takeDue_of_frozen {s : State} (hf : s.frozen = true) : takeDue s = none ∨
    ∃ e ∈ s.due, whileFrozen e.instr = true ∧ takeDue s = some (e, { s with due := s.due.erase e }) := by
  rw [takeDue, if_pos hf]
  cases hd : s.due.find? (fun e => whileFrozen e.instr) with
  | none => exact .inl rfl
  | some e => exact .inr ⟨e, List.mem_of_find?_eq_some hd, List.find?_some (p := fun e : Due => whileFrozen e.instr) hd, rfl⟩

/-- Settles O56: a locked module takes no step but those that run while the clocks are frozen, and none of them unlocks it. -/
theorem lockedKept : Obligations.LockedKept := by
  intro s t hs h
  obtain ⟨hf, hc, hd⟩ := s.locked_iff.1 hs
  rcases takeDue_of_frozen hf with hn | ⟨e, he, hw, hn⟩ <;> rw [step, nextAction, hn] at h
  · simp only [hf, if_true, Host.Outcome.next.injEq] at h
    subst h
    exact ⟨hs, rfl, rfl, rfl⟩
  · have k := staysLocked_of_whileFrozen (s := { s with due := s.due.erase e, ev := e.event }) hf hc hw (hd e he) h
    have k : StaysLocked s t :=
      ⟨k.frozen, k.scanned, fun x hx => (k.due x hx).imp_left List.mem_of_mem_erase, k.clock, k.cores, k.hbm⟩
    exact ⟨k.locked hs, k.clock, k.cores, k.hbm⟩

end Sys2Proof.Machine

/-!
PROOFS. Results in lane registers and predicates (spec/10 R217 to R237): a meaning that is a lane or predicate operation has the
result that the operation gives. The special-function unit is occupied beside it (R216).
-/

namespace Sys2Proof.Machine

/-! ### Integer instructions (R217 to R222) -/

/-- Settles O1: each is the lane operation of its function. -/
theorem integerResults : Obligations.IntegerResults :=
  fun _ _ _ _ _ _ _ => ⟨laneResult_of rfl, laneResult_of rfl, laneResult_of rfl, laneResult_of rfl, laneResult_of rfl, laneResult_of rfl,
    laneResult_of rfl, laneResult_of rfl, laneResult_of rfl, laneResult_of rfl, laneResult_of rfl, laneResult_of rfl, laneResult_of rfl,
    laneResult_of rfl, laneResult_of rfl, laneResult_of rfl, laneResult_of rfl, laneResult_of rfl, laneResult_of rfl, laneResult_of rfl⟩

theorem exec_nop_of_slotFault {s : State} (h : slotFault s {} = none) : exec .nop s = .next (retire s) := by
  change execNop s = _
  rw [execNop, h]
  rfl

/-- Settles O2: each is the lane operation of its function; nop has no operand. -/
theorem unaryAndPairResults : Obligations.UnaryAndPairResults :=
  fun _ _ _ _ _ _ _ _ => ⟨laneResult_of rfl, laneResult_of rfl, laneResult_of rfl, laneResult_of rfl, laneResult_of rfl, laneResult_of rfl,
    laneResult_of rfl, laneResult_of rfl, laneResult_of rfl, laneResult_of rfl, laneResult_of rfl, exec_nop_of_slotFault⟩

/-! ### States with the same groups and memories -/

/-- `t` has the groups, the memories, the due steps and the issuing candidate of `s`. -/
structure SameButUnits (s t : State) : Prop where
  memory : SameMemory s t
  groups : ∀ c g, getGroup t c g = getGroup s c g
  due    : t.due = s.due
  cur    : t.cur = s.cur
  clock  : t.clock = s.clock

theorem SameMemory.trans {s t u : State} (h : SameMemory s t) (k : SameMemory t u) : SameMemory s u where
  bytes a := ⟨(k.bytes a).1.trans (h.bytes a).1, (k.bytes a).2.trans (h.bytes a).2⟩
  tags := k.tags.trans h.tags
  marks := ⟨k.marks.1.trans h.marks.1, k.marks.2.1.trans h.marks.2.1, k.marks.2.2.trans h.marks.2.2⟩
  scratch c a := (k.scratch c a).trans (h.scratch c a)
  weights c a := (k.weights c a).trans (h.weights c a)
  reserve c a := (k.reserve c a).trans (h.reserve c a)
  dies := k.dies.trans h.dies
  runs := ⟨k.runs.1.trans h.runs.1, k.runs.2.1.trans h.runs.2.1, k.runs.2.2.1.trans h.runs.2.2.1, k.runs.2.2.2.trans h.runs.2.2.2⟩
  teams c := (k.teams c).trans (h.teams c)

theorem SameMemory.refl (s : State) : SameMemory s s :=
  ⟨fun _ => ⟨rfl, rfl⟩, rfl, ⟨rfl, rfl, rfl⟩, fun _ _ => rfl, fun _ _ => rfl, fun _ _ => rfl, rfl, ⟨rfl, rfl, rfl, rfl⟩, fun _ => rfl⟩

theorem SameMemory.symm {s t : State} (h : SameMemory s t) : SameMemory t s where
  bytes a := ⟨(h.bytes a).1.symm, (h.bytes a).2.symm⟩
  tags := h.tags.symm
  marks := ⟨h.marks.1.symm, h.marks.2.1.symm, h.marks.2.2.symm⟩
  scratch c a := (h.scratch c a).symm
  weights c a := (h.weights c a).symm
  reserve c a := (h.reserve c a).symm
  dies := h.dies.symm
  runs := ⟨h.runs.1.symm, h.runs.2.1.symm, h.runs.2.2.1.symm, h.runs.2.2.2.symm⟩
  teams c := (h.teams c).symm

/-- What holds of a field of a core's new value and of its old one holds of every core. -/
theorem getCore_setCore_congr {α : Type} (p : Core → α) (s : State) {c : Nat} {k : Core} (h : p k = p (getCore s c)) (x : Nat) :
    p (getCore (setCore s c k) x) = p (getCore s x) := by
  by_cases hx : x = c
  · rw [hx, getCore_setCore, h]
  · rw [getCore_setCore_ne s hx]

theorem sameMemory_setCore (s : State) (c : Nat) {k : Core} (hs : k.scratch = (getCore s c).scratch)
    (hw : k.weights = (getCore s c).weights) (hr : k.reserve = (getCore s c).reserve) (ht : k.teams = (getCore s c).teams) :
    SameMemory s (setCore s c k) :=
  ⟨fun _ => ⟨rfl, rfl⟩, rfl, ⟨rfl, rfl, rfl⟩, fun x a => congrArg (memRead · a) (getCore_setCore_congr Core.scratch s hs x),
    fun x a => congrArg (memRead · a) (getCore_setCore_congr Core.weights s hw x),
    fun x a => congrArg (memRead · a) (getCore_setCore_congr Core.reserve s hr x), rfl, ⟨rfl, rfl, rfl, rfl⟩,
    getCore_setCore_congr Core.teams s ht⟩

theorem sameMemory_setGroup (s : State) (c x : Nat) (g : Group) : SameMemory s (setGroup s c x g) :=
  sameMemory_setCore s c rfl rfl rfl rfl

theorem sameMemory_setCur (s : State) (g : Group) : SameMemory s (setCur s g) := sameMemory_setGroup s _ _ g

theorem getGroup_setCur (s : State) (g : Group) (c x : Nat) :
    getGroup (setCur s g) c x = if c = s.cur.core ∧ x = s.cur.slot then g else getGroup s c x := by
  split
  · next h =>
    obtain ⟨rfl, rfl⟩ := h
    exact getGroup_setGroup s _ _ g
  · next h =>
    by_cases hc : c = s.cur.core
    · subst hc
      exact getGroup_setGroup_ne s _ (fun hx => h ⟨rfl, hx⟩) g
    · exact getGroup_setCore_ne s hc _ x

theorem SameButUnits.curGroup {s t : State} (h : SameButUnits s t) : curGroup t = curGroup s := by
  unfold Machine.curGroup
  rw [h.cur, h.groups]

/-- A core's units change without its memories, teams and groups. -/
theorem sameButUnits_setCore (s : State) (c : Nat) {k : Core} (hg : k.groups = (getCore s c).groups)
    (hs : k.scratch = (getCore s c).scratch) (hw : k.weights = (getCore s c).weights) (hr : k.reserve = (getCore s c).reserve)
    (ht : k.teams = (getCore s c).teams) : SameButUnits s (setCore s c k) :=
  ⟨sameMemory_setCore s c hs hw hr ht,
    fun x g => congrArg (fun m => lookup m g Group.vacant) (getCore_setCore_congr Core.groups s hg x), rfl, rfl, rfl⟩

/-- A state with one group written shares everything else with one in which other units and the same group were written. -/
theorem SameButUnits.setCur {s t : State} (h : SameButUnits s t) (g : Group) : SameButUnits (setCur s g) (setCur t g) := by
  refine ⟨(sameMemory_setCur s g).symm.trans (h.memory.trans (sameMemory_setCur t g)), fun c x => ?_, h.due, h.cur, h.clock⟩
  rw [getGroup_setCur, getGroup_setCur, h.cur, h.groups]

theorem SameButUnits.retire {s t : State} (h : SameButUnits s t) : SameButUnits (retire s) (retire t) := by
  unfold Machine.retire ctlStall ctlAstr
  rw [h.cur, h.clock, h.curGroup]
  exact h.setCur _

theorem IssuerOnly.trans_units {s t u : State} (h : IssuerOnly s t) (k : SameButUnits t u) : IssuerOnly s u where
  memory := h.memory.trans k.memory
  others := ⟨fun c g hc => (k.groups c g).trans (h.others.groups c g hc), k.due.trans h.others.due⟩
  group := k.curGroup ▸ h.group

theorem LaneDone.trans_units {s t u : State} {o : OpInfo} {na nb : Nat} {d : BitVec 7} {n : Nat} {v : Nat → Nat → Word} {f : BitVec 5}
    (h : LaneDone s t o na nb d n v f) (k : SameButUnits t u) : LaneDone s u o na nb d n v f := by
  have hg := k.curGroup
  have hl (name j : Nat) : laneOf u name j = laneOf t name j := by unfold laneOf; rw [hg]
  exact ⟨fun i j hi hj => (hl _ _).trans (h.wrote i j hi hj), fun name j hj hn ho => (hl _ _).trans (h.kept name j hj hn ho),
    hg ▸ h.flags, fun q hq => hg ▸ h.went q hq, hg ▸ h.preds, hg ▸ h.unif, h.frame.trans_units k⟩

/-! ### FP32 instructions (R223 to R226) -/

/-- The special-function unit of the issuing core, occupied until a clock. -/
def setSfu (s : State) (n : Nat) : State := setCore s s.cur.core { getCore s s.cur.core with sfuFree := n }

theorem sameButUnits_setSfu (s : State) (n : Nat) : SameButUnits s (setSfu s n) :=
  sameButUnits_setCore s s.cur.core rfl rfl rfl rfl rfl

theorem laneOp_keeps {s u : State} {o : OpInfo} {srcs : List Src} {na nb n lat : Nat} {d : BitVec 7}
    {f : List Word → List Word × BitVec 5} (h : LaneRuns s o srcs d n) (hu : laneOp s o srcs na nb d n lat f = .ok u) :
    u.cur = s.cur := by
  rw [laneOp_runs h] at hu
  cases hu
  exact (laneEffect_cur (dst_names_le h.dst h.reg) ..).1

/-- The result of an instruction whose meaning is a lane operation on the special-function unit. -/
theorem sfuResult_of {i : Instr} {s : State} {o : OpInfo} {srcs : List Src} {na nb : Nat} {d : BitVec 7}
    {f : List Word → List Word × BitVec 5} (h : exec i s = onSfu s (laneOp s o srcs na nb d 1 24 f)) :
    SfuResult i s o srcs na nb d f := by
  have free {u : State} (hu : laneOp s o srcs na nb d 1 24 f = .ok u) (hf : (getCore s s.cur.core).sfuFree ≤ s.clock) :
      exec i s = .next (retire (setCore u s.cur.core { getCore u s.cur.core with sfuFree := s.clock + (s.cur.quads.length + 1) / 2 })) := by
    rw [h, hu, onSfu, if_neg (Nat.not_lt.2 hf)]
    rfl
  refine ⟨fun hr hf => ?_, fun hr hb => ?_, fun u hu hf => free hu hf⟩
  · obtain ⟨t, ht, hd⟩ := laneOp_done hr na nb 24 f
    cases hu : laneOp s o srcs na nb d 1 24 f with
    | error a => rw [laneOp_runs hr] at hu; exact absurd hu nofun
    | ok u =>
      rw [hu] at ht
      cases ht
      have hc := laneOp_keeps hr hu
      have k := (sameButUnits_setSfu u (s.clock + (s.cur.quads.length + 1) / 2)).retire
      rw [setSfu, hc] at k
      refine ⟨_, free hu hf, hd.trans_units k, ?_⟩
      simp [retire, hc, setCur, setGroup]
  · rw [h, laneOp_runs hr, onSfu, if_pos hb]
    rfl

/-- Settles O4: each is the lane operation of its function, the special functions on their unit. -/
theorem floatResults : Obligations.FloatResults :=
  ⟨fun _ _ _ _ _ _ _ => ⟨laneResult_of rfl, laneResult_of rfl, laneResult_of rfl, laneResult_of rfl, laneResult_of rfl, laneResult_of rfl,
      laneResult_of rfl, laneResult_of rfl, laneResult_of rfl⟩,
    fun _ _ _ _ => ⟨sfuResult_of rfl, sfuResult_of rfl, sfuResult_of rfl, sfuResult_of rfl, sfuResult_of rfl, sfuResult_of rfl,
      sfuResult_of rfl, sfuResult_of rfl⟩⟩

/-! ### Packed, conversion and block instructions (R227 to R234) -/

/-- A lane instruction whose sources are plain registers, literals or predicates reads them. -/
theorem readSources_of_runs {s : State} {o : OpInfo} {srcs : List Src} {d : BitVec 7} {n : Nat} (h : LaneRuns s o srcs d n) :
    readSources s o srcs = .ok (srcs.map (srcLanes s []), noteDead s srcs) := by
  unfold readSources
  simp only [h.range, Bool.or_false, h.slot, h.ready.1, h.flow, streamSources_none s srcs h.plain]

/-- Static facts and sources of qscal (R232). -/
def qscalInfo (f : BitVec 2) (d a b : BitVec 7) : OpInfo :=
  { lit := if f == 2 then 32 else 0, srcA := some a, srcB := if f == 2 then some b else none, dst := some d,
    bUsed := b != 0, fnBad := f == 3, encBad := (!(f == 2) && b != 0) || ((f == 2) && isStream a) }

def qscalSrcs (s : State) (f : BitVec 2) (a b : BitVec 7) : List Src := if f == 2 then [.reg a 0, .reg a 1, srcB s b 0] else [.reg a 0]

/-- The scale of a block with its flags, from the values of the sources. -/
def qscalScale (s : State) (f : BitVec 2) (vals : List Lanes) : Nat × FFlags :=
  let xs := (activeVals s (vals.getD 0 []) ++ if f == 2 then activeVals s (vals.getD 1 []) else []).map (unpack fp32)
  let r : Nat × FFlags := if f == 2 then chooseQn (unpack fp32 (laneVal (vals.getD 2 []) ((firstLane s).getD 0)).toNat) xs
    else (chooseE8 f.toNat false xs, 0)
  (r.1, r.2 ||| nvIf (xs.any isSig))

/-- The meaning of qscal, `o` being its static facts. -/
def qscalOp (s : State) (o : OpInfo) (f : BitVec 2) (d a b : BitVec 7) : Res State :=
  match crossCheck s o with
  | .error e => .error e
  | .ok () =>
    match readSources s o (qscalSrcs s f a b) with
    | .error e => .error e
    | .ok (vals, t) => after (checkUnder s (qscalSrcs s f a b) []) <|
      if (activeLanes s).isEmpty then .ok s
      else match writeDst t d 0 [List.replicate 32 (wordOf (qscalScale s f vals).1)] with
        | .error e => .error e
        | .ok u => .ok (orFlags (applyLast u o (if f == 2 then 2 else 1) 1 (dstNames s (some d) 1)) (qscalScale s f vals).2)

theorem exec_qscal (s : State) (f : BitVec 2) (d a b : BitVec 7) : exec (.qscal f d a b) s
    = finish s (qscalOp s { qscalInfo f d a b with rangeBad := (f == 2) && srcRange s (.reg a 1) } f d a b) := by
  change execQscal f d a b s = _
  rfl

theorem qscalOp_of_runs {s : State} {o : OpInfo} {f : BitVec 2} {d a b : BitVec 7} (hc : crossCheck s o = .ok ())
    (h : LaneRuns s o (qscalSrcs s f a b) d 1) :
    qscalOp s o f d a b = if (activeLanes s).isEmpty then .ok s
      else .ok (laneEffect s o (qscalSrcs s f a b) (if f == 2 then 2 else 1) 1 d 1 0
        [List.replicate 32 (wordOf (qscalScale s f ((qscalSrcs s f a b).map (srcLanes s []))).1)]
        (qscalScale s f ((qscalSrcs s f a b).map (srcLanes s []))).2) := by
  unfold qscalOp
  simp only [hc, readSources_of_runs h, h.ready.2]
  split
  · rfl
  · rw [writeDst_reg (words := [_]) h.reg h.peak h.credit]
    unfold laneEffect dstNames destNames
    simp only [h.reg, Bool.false_eq_true, if_false]
    rfl

/-- The second word of a pair source of qscal exists where the pair does. -/
theorem qscal_range {s : State} {o : OpInfo} {f : BitVec 2} {d a b : BitVec 7} (h : LaneRuns s o (qscalSrcs s f a b) d 1) :
    ((f == 2) && srcRange s (.reg a 1)) = false := by
  have := h.range
  unfold qscalSrcs at this
  split at this <;> simp_all

theorem laneVal_replicate {n i : Nat} (h : i < n) (w : Word) : laneVal (List.replicate n w) i = w := by
  simp [laneVal, h]

/-- What qscal does once its checks pass: nothing with no active lane, else the block's scale stands in every active lane (R232). -/
theorem qscal_done {s : State} {f : BitVec 2} {d a b : BitVec 7} (hc : crossCheck s (qscalInfo f d a b) = .ok ())
    (h : LaneRuns s (qscalInfo f d a b) (qscalSrcs s f a b) d 1) :
    ∃ t, exec (.qscal f d a b) s = .next t ∧
      if (activeLanes s).isEmpty then t = retire s
      else LaneDone s t (qscalInfo f d a b) (if f == 2 then 2 else 1) 1 d 1
        (fun _ _ => wordOf (qscalScale s f ((qscalSrcs s f a b).map (srcLanes s []))).1)
        (qscalScale s f ((qscalSrcs s f a b).map (srcLanes s []))).2 := by
  rw [exec_qscal, qscal_range h, show { qscalInfo f d a b with rangeBad := false } = qscalInfo f d a b from rfl, qscalOp_of_runs hc h]
  split
  · exact ⟨_, rfl, rfl⟩
  · refine ⟨_, rfl, (laneEffect_done (dst_names_le h.dst h.reg) ..).congr fun i hi k hk => ?_⟩
    obtain rfl : k = 0 := by omega
    exact laneVal_replicate hi _

/-- Settles O5: each is the lane operation of its function, but for qscal, whose scale is that of the whole block. -/
theorem packedAndConversionResults : Obligations.PackedAndConversionResults :=
  ⟨fun _ _ _ _ _ _ _ _ _ => ⟨laneResult_of rfl, laneResult_of rfl, laneResult_of rfl, laneResult_of rfl, laneResult_of rfl,
      laneResult_of rfl, laneResult_of rfl, laneResult_of rfl, laneResult_of rfl, laneResult_of rfl, laneResult_of rfl⟩,
    fun _ _ _ _ _ _ => ⟨laneResult_of rfl, laneResult_of rfl, qscal_done⟩⟩

/-! ### Predicates (R235 to R237, R273) -/

/-- Settles O6: each is the predicate operation of its condition. -/
theorem predicateResults : Obligations.PredicateResults :=
  fun _ _ _ _ _ _ _ _ _ _ _ => ⟨predResult_of rfl, predResult_of rfl, predResult_of rfl, predResult_of rfl, predResult_of rfl,
    predResult_of rfl⟩

/-! ### Uniform registers (R242) -/

/-- Settles O8: each writes its function of the registers it reads. -/
theorem uniformResults : Obligations.UniformResults :=
  fun _ _ _ _ _ _ _ _ _ => ⟨unifResult_of 2 rfl, unifResult_of 2 rfl, unifResult_of 2 rfl, unifResult_of 2 rfl, unifResult_of 2 rfl,
    unifResult_of 2 rfl, unifResult_of 2 rfl, unifResult_of 2 rfl, unifResult_of 2 rfl, unifResult_of 2 rfl, unifResult_of 2 rfl,
    unifResult_of 2 rfl, unifResult_of 2 rfl, unifResult_of 2 rfl⟩
end Sys2Proof.Machine

/-!
PROOFS. A permutation reads its source in lanes that need not be active (spec/10 R239), and waits for what is late there (spec/07
R173): the statement on cross-lane results, whose checks are those of the active lanes, does not hold.
-/

namespace Sys2Proof.Machine

/-- A group of one quad with lane 0 alone active, whose h2 a qput has yet to write in lane 1; the slot's literal is 1. -/
def lateLane : State :=
  let g := { Group.vacant with
    quads := [(0, { Quad.fresh 0 with mask := 1 })], regs := { Regs.fresh with late := [(32 * 2 + 1, (0, 0))] } }
  { setGroup State.reset 0 0 g with cur := { State.reset.cur with quads := [0], literal := some 1 } }

theorem lateLane_runs : LaneRuns lateLane { lit := 32, noLane := true, srcA := some 2, srcB := some 0, dst := some 1, bUsed := (0 : BitVec 7) != 0 }
    [.reg 2 0, srcB lateLane 0 0] 1 1 where
  slot := rfl
  range := rfl
  dst := rfl
  plain := rfl
  flow := rfl
  reg := rfl
  ready := ⟨rfl, rfl⟩
  peak := rfl
  credit := rfl

theorem lateLane_waits : exec (.perm 1 2 0) lateLane = .next (holdIssue lateLane (.register 65)) := rfl

/-- Refutes O7: perm reads source a in the lanes that source b names, and waits for a register that is late in one of them, though that
lane is not active and no active lane waits for anything (R239, R173). -/
theorem not_crossLaneResults : ¬ Obligations.CrossLaneResults := by
  intro h
  obtain ⟨-, -, ⟨hp, -, -⟩, -⟩ := h lateLane 1 2 0 0 0
  obtain ⟨t, ht, hd⟩ := (hp rfl).1 lateLane_runs
  cases lateLane_waits.symm.trans ht
  exact absurd (hd.went 0 (List.mem_singleton.2 rfl)).2.1 nofun

end Sys2Proof.Machine

/-!
PROOFS. Control flow (spec/11 R246 to R252, spec/06 R129 to R132): where the quads of a control slot stand once it has retired, what
the gang and exit do, and what ends a region.
-/

namespace Sys2Proof.Machine

/-! ### Maps whose entries keep their keys -/

theorem lookup_map_congr {α β : Type} (f : Nat × α → Nat × α) (hk : ∀ e, (f e).1 = e.1) (p : α → β) (hp : ∀ e, p (f e).2 = p e.2)
    (m : FMap α) (k : Nat) (d : α) : p (lookup (m.map f) k d) = p (lookup m k d) := by
  induction m with
  | nil => rfl
  | cons e r ih =>
    simp only [List.map_cons, lookup, hk]
    split
    · exact hp e
    · exact ih

theorem lookup_map_keyed {α : Type} (v : Nat → α) {l : List Nat} {k : Nat} (h : k ∈ l) (d : α) :
    lookup (l.map (fun i => (i, v i))) k d = v k := by
  induction l with
  | nil => exact absurd h List.not_mem_nil
  | cons i r ih =>
    simp only [List.map_cons, lookup]
    split
    · next hi => rw [hi]
    · next hi => exact ih ((List.mem_cons.1 h).resolve_left (Ne.symm hi))

/-! ### Quads -/

section
variable (v : Group → Nat → Quad) {P : Quad → Prop} {q : Nat}

theorem getQuad_foldl_setQuad_ne (l : List Nat) (hq : q ∉ l) (g : Group) :
    getQuad (l.foldl (fun g q => setQuad g q (v g q)) g) q = getQuad g q := by
  induction l generalizing g with
  | nil => rfl
  | cons i r ih =>
    rw [List.foldl_cons, ih (fun h => hq (List.mem_cons_of_mem _ h)), getQuad_setQuad_ne g (fun h => hq (List.mem_cons.2 (.inl h)))]

/-- What each write of a quad keeps of it holds of it in the end. -/
theorem foldl_setQuad_keeps (l : List Nat) (hv : ∀ g, P (getQuad g q) → P (v g q)) (g : Group) (hg : P (getQuad g q)) :
    P (getQuad (l.foldl (fun g q => setQuad g q (v g q)) g) q) := by
  induction l generalizing g with
  | nil => exact hg
  | cons i r ih =>
    refine ih _ ?_
    by_cases hi : q = i
    · subst hi
      rw [getQuad_setQuad]
      exact hv g hg
    · rw [getQuad_setQuad_ne g hi]
      exact hg

/-- What every write of a quad gives it holds of it in the end. -/
theorem foldl_setQuad_gives (l : List Nat) (hq : q ∈ l) (hv : ∀ g, P (v g q)) (g : Group) :
    P (getQuad (l.foldl (fun g q => setQuad g q (v g q)) g) q) := by
  induction l generalizing g with
  | nil => exact absurd hq List.not_mem_nil
  | cons i r ih =>
    by_cases hr : q ∈ r
    · exact ih hr _
    · obtain rfl := (List.mem_cons.1 hq).resolve_right hr
      rw [List.foldl_cons, getQuad_foldl_setQuad_ne v r hr, getQuad_setQuad]
      exact hv g

theorem foldl_setQuad_regs (l : List Nat) (g : Group) : (l.foldl (fun g q => setQuad g q (v g q)) g).regs = g.regs := by
  induction l generalizing g with
  | nil => rfl
  | cons i r ih => exact ih _

end

/-- Where a quad stands: its PC, mask and stack. -/
def Quad.place (x : Quad) : Word × BitVec 4 × List StackEntry := (x.pc, x.mask, x.stack)

theorem part_place (g : Group) (q : Nat) : (getQuad (part g) q).place = (getQuad g q).place := by
  unfold part
  split
  · rfl
  · exact lookup_map_congr _ (fun e => by split <;> rfl) Quad.place (fun e => by split <;> rfl) _ _ _

theorem part_regs (g : Group) : (part g).regs = g.regs := by
  unfold part
  split <;> rfl

/-- The quads `qs` put in places and then advanced to the PCs of those places. -/
def flowGroup (s : State) (place : Nat → Quad) : Group :=
  s.cur.quads.foldl (fun g q => setQuad g q (advanceQuad s.clock (ctlStall s) false (place q).pc (getQuad g q)))
    (s.cur.quads.foldl (fun g q => setQuad g q (place q)) (curGroup s))

theorem flowGroup_place {s : State} {q : Nat} (hq : q ∈ s.cur.quads) (place : Nat → Quad) :
    (getQuad (flowGroup s place) q).place = (place q).place := by
  have hp := foldl_setQuad_gives (fun _ q => place q) (P := fun x => x.place = (place q).place) s.cur.quads hq (fun _ => rfl) (curGroup s)
  refine foldl_setQuad_keeps _ (P := fun x => x.place = (place q).place) s.cur.quads (fun g hg => ?_) _ hp
  simp only [Quad.place, advanceQuad, Prod.mk.injEq, true_and] at hg ⊢
  exact hg.2

theorem flowGroup_out {s : State} {q : Nat} (hq : q ∉ s.cur.quads) (place : Nat → Quad) :
    getQuad (flowGroup s place) q = getQuad (curGroup s) q :=
  (getQuad_foldl_setQuad_ne _ _ hq _).trans (getQuad_foldl_setQuad_ne _ _ hq _)

theorem foldl_congr_mem {α β : Type} {f g : β → α → β} {l : List α} (h : ∀ b, ∀ a ∈ l, f b a = g b a) (b : β) :
    l.foldl f b = l.foldl g b := by
  induction l generalizing b with
  | nil => rfl
  | cons a r ih =>
    rw [List.foldl_cons, List.foldl_cons, h b a (List.mem_cons_self ..)]
    exact ih (fun b x hx => h b x (List.mem_cons_of_mem _ hx)) _

theorem goFlow_group (s : State) (place : Nat → Quad) :
    ∃ f : Nat × Quad → Nat × Quad, (∀ e, (f e).1 = e.1) ∧ (∀ e, (f e).2.place = e.2.place) ∧
      curGroup (goFlow s (s.cur.quads.map (fun q => (q, place q))))
        = let g := countSlot (part (flowGroup s place)); { g with quads := g.quads.map f } := by
  refine ⟨fun e => if s.cur.quads.contains e.1 && e.2.pc != s.cur.nextPc then (e.1, holdQuad (s.clock + 2) e.2) else e,
    fun e => by dsimp only; split <;> rfl, fun e => by dsimp only; split <;> rfl, ?_⟩
  unfold goFlow retireFlow flowGroup
  simp only [curGroup_setCur, setCur_cur, setCur_clock, List.foldl_map, List.map_map]
  rw [foldl_congr_mem (g := fun g q => setQuad g q (advanceQuad s.clock (ctlStall s) false (place q).pc (getQuad g q)))]
  intro g q hq
  exact congrArg (fun pc => setQuad g q (advanceQuad s.clock (ctlStall s) false pc (getQuad g q)))
    (lookup_map_keyed (fun q => (place q).pc) hq _)

theorem goFlow_sameMemory (s : State) (qs : FMap Quad) : SameMemory s (goFlow s qs) :=
  ((sameMemory_setCur s _).trans (sameMemory_setCur _ _)).trans (sameMemory_setCur _ _)

/-- A control slot that puts its quads in places leaves them there. -/
theorem goFlow_done {s u : State} (hc : u.cur = s.cur) (hq : (curGroup u).quads = (curGroup s).quads) (place : Nat → Quad) :
    FlowDone s u (goFlow u (s.cur.quads.map (fun q => (q, place q)))) place := by
  rw [← hc]
  obtain ⟨f, hk, hp, hg⟩ := goFlow_group u place
  have hplace (q : Nat) : (getQuad (curGroup (goFlow u (u.cur.quads.map (fun q => (q, place q))))) q).place
      = (getQuad (flowGroup u place) q).place := by
    rw [hg]
    exact (lookup_map_congr f hk Quad.place hp ..).trans (part_place ..)
  simp only [Quad.place, Prod.mk.injEq] at hplace
  refine ⟨fun q hm => ?_, fun q hm => ?_, ?_, goFlow_sameMemory ..⟩
  · have h := flowGroup_place (hc ▸ hm) place
    simp only [Quad.place, Prod.mk.injEq, ← hplace] at h
    exact h
  · have h := hplace q
    rw [flowGroup_out (hc ▸ hm) place, show getQuad (curGroup u) q = getQuad (curGroup s) q from congrArg (lookup · q _) hq] at h
    exact h
  · rw [hg]
    exact (part_regs _).trans ((foldl_setQuad_regs ..).trans (foldl_setQuad_regs ..))

/-! ### Branches, calls, returns and joins (R246 to R249) -/

theorem branchAll_of_stacks {s : State} {h : BitVec 2} {target : Nat → Word}
    (hs : ∀ q ∈ s.cur.quads, (branchQuad s h q (target q)).stack.length ≤ 16) :
    branchAll s h target = .ok (s, s.cur.quads.map (fun q => (q, branchQuad s h q (target q)))) := by
  unfold branchAll
  rw [if_neg]
  simpa using hs

theorem exec_br {s : State} {h : BitVec 2} {o : BitVec 19} {sl : BitVec 2}
    (hc : checkSlot s { encBad := targetBad s (branchTarget s.cur.pc o sl) } = .ok ()) (hr : checkReady s [] [] = .ok ())
    (hg : h = 3 → guardSplit s = false)
    (hs : ∀ q ∈ s.cur.quads, (branchQuad s h q (branchTarget s.cur.pc o sl)).stack.length ≤ 16) :
    exec (.br h o sl) s = .next (goFlow s (s.cur.quads.map (fun q => (q, branchQuad s h q (branchTarget s.cur.pc o sl))))) := by
  change execBr h o sl s = _
  have hd : (h == 3 && guardSplit s) = false := by
    by_cases h3 : h = 3
    · rw [hg h3, Bool.and_false]
    · rw [beq_false_of_ne h3, Bool.false_and]
  unfold execBr
  simp only [hc, (checkReady_ok hr).1, (checkReady_ok hr).2, hd, Bool.false_eq_true, if_false, branchAll_of_stacks hs]
  rfl

theorem branchQuad_of_uniform {s : State} {h : BitVec 2} (hp : plainGuard s = true ∨ h = 3) (q : Nat) (target : Word) :
    branchQuad s h q target
      = { getQuad (curGroup s) q with pc := if quadActive s q ≠ 0 then target else s.cur.nextPc } := by
  have hb : (plainGuard s || h == 3) = true := by simpa using hp
  unfold branchQuad
  simp only [hb, if_true, bne_iff_ne]

theorem branchQuad_of_guarded {s : State} {h : BitVec 2} (hp : ¬ (plainGuard s = true ∨ h = 3)) (q : Nat) (target : Word) :
    branchQuad s h q target = divergeQuad (getQuad (curGroup s) q) (quadActive s q) (h == 2) target s.cur.nextPc := by
  have hb : (plainGuard s || h == 3) = false := Bool.eq_false_iff.2 (by simpa using hp)
  unfold branchQuad
  simp only [hb, Bool.false_eq_true, if_false]

theorem divergeQuad_of_mixed {q : Quad} {t : BitVec 4} (h : t ≠ 0 ∧ q.mask &&& ~~~t ≠ 0) (unlikely : Bool) (target next : Word) :
    divergeQuad q t unlikely target next
      = if unlikely then { q with stack := ⟨true, target, t⟩ :: ⟨false, 0, q.mask⟩ :: q.stack, mask := q.mask &&& ~~~t, pc := next }
        else { q with stack := ⟨true, next, q.mask &&& ~~~t⟩ :: ⟨false, 0, q.mask⟩ :: q.stack, mask := t, pc := target } := by
  unfold divergeQuad
  rw [if_pos (by simpa using h)]

theorem divergeQuad_of_agreed {q : Quad} {t : BitVec 4} (h : ¬ (t ≠ 0 ∧ q.mask &&& ~~~t ≠ 0)) (unlikely : Bool) (target next : Word) :
    divergeQuad q t unlikely target next
      = { q with stack := ⟨false, 0, q.mask⟩ :: q.stack, pc := if t ≠ 0 then target else next } := by
  unfold divergeQuad
  rw [if_neg (by simpa using h)]
  simp only [bne_iff_ne]

/-- Settles O10: the places are those of `branchQuad`, by its cases. -/
theorem branchPlaces : Obligations.BranchPlaces := by
  intro s h o sl target hc hr hg hs
  refine ⟨_, exec_br hc hr hg hs, _, goFlow_done rfl rfl _, fun q _ => ?_⟩
  dsimp only
  by_cases hp : plainGuard s = true ∨ h = 3
  · rw [if_pos hp, branchQuad_of_uniform hp]
    exact ⟨rfl, rfl, rfl⟩
  · rw [if_neg hp, branchQuad_of_guarded hp]
    by_cases hm : quadActive s q ≠ 0 ∧ (getQuad (curGroup s) q).mask &&& ~~~quadActive s q ≠ 0
    · rw [if_pos hm, divergeQuad_of_mixed hm]
      by_cases h2 : h = 2
      · rw [if_pos h2, if_pos (beq_iff_eq.2 h2)]
        exact ⟨rfl, rfl, rfl⟩
      · rw [if_neg h2, if_neg (mt beq_iff_eq.1 h2)]
        exact ⟨rfl, rfl, rfl⟩
    · rw [if_neg hm, divergeQuad_of_agreed hm]
      exact ⟨rfl, rfl, rfl⟩

theorem writeUnif_cur (s : State) (u lat : Nat) (v : Word) : (writeUnif s u lat v).cur = s.cur := rfl

theorem curGroup_writeUnif_quads (s : State) (u lat : Nat) (v : Word) : (curGroup (writeUnif s u lat v)).quads = (curGroup s).quads := by
  simp [writeUnif]

theorem lookup_writeUnif (s : State) (u lat : Nat) (v : Word) : lookup (curGroup (writeUnif s u lat v)).regs.unif u 0 = v := by
  simp [writeUnif, lookup_insertKey_self]

/-- Settles O11: each puts the issuing quads where its rule says. -/
theorem flowPlaces : Obligations.FlowPlaces := by
  intro s h a o sl target
  refine ⟨fun vals t hr hb hq hu hs => ?_, fun hc => ?_, fun hc hr hb => ?_, fun hc => ?_⟩
  · have hq' : (s.cur.quads.any fun q => !allSame (quadValues s (vals.getD 0 []) q)) = false := by simpa using hq
    have hu' : (h == 3 && (guardSplit s || !allSame ((activeLanes s).map (laneVal (vals.getD 0 []))))) = false := by
      by_cases h3 : h = 3
      · simp only [hu h3, Bool.not_true, Bool.or_false, Bool.and_false]
      · rw [beq_false_of_ne h3, Bool.false_and]
    change execBrx h a s = _
    unfold execBrx
    simp only [hr.1, hr.2, hb, hq', hu', Bool.false_eq_true, if_false, branchAll_of_stacks hs]
    rfl
  · have hd := goFlow_done (s := s) (writeUnif_cur s 31 0 s.cur.nextPc) (curGroup_writeUnif_quads ..)
      (fun q => { getQuad (curGroup s) q with pc := target })
    refine ⟨_, ?_, hd, by rw [hd.regs, lookup_writeUnif]⟩
    change execCall o sl s = _
    unfold execCall
    simp only [target] at hc
    simp only [hc]
    rfl
  · refine ⟨_, ?_, goFlow_done rfl rfl _⟩
    change execRet s = _
    unfold execRet
    simp only [hc, (checkReady_ok hr).1, (checkReady_ok hr).2, hb, Bool.false_eq_true, if_false]
    rfl
  · refine ⟨_, ?_, goFlow_done rfl rfl _⟩
    change execJoin s = _
    unfold execJoin
    simp only [hc]
    rfl

/-! ### The gang and exit (R250, R251) -/

/-- Settles O12: regang goes by whether every quad waits, and at which slots; exit places its quads by `exitQuad`. -/
theorem gangAndExit : Obligations.GangAndExit := by
  intro s
  refine ⟨fun hc hp hw => ?_, fun g hc hpw hg => ?_, fun hc hr => ?_⟩
  · change execRegang s = _
    unfold execRegang
    simp only [hc, hp, hw, Bool.not_false, Bool.and_self, if_true]
    rfl
  · have hn : (!isParted (curGroup s) && !((curGroup s).quads.any (fun e => e.2.waiting))) = false := by
      rcases hpw with h | h <;> simp only [h, Bool.not_true, Bool.false_and, Bool.and_false]
    have hx : exec .regang s = if allWaiting g then
        if (waitingPcs g).all (fun pc => pc == s.cur.pc) then .next (setCur s (countSlot (formGang g s.cur.nextPc s.clock)))
        else finish s (trapNow 4 0x04)
      else .next (setCur s (countSlot g)) := by
      change execRegang s = _
      unfold execRegang
      simp only [hc, hn, ← hg, Bool.false_eq_true, if_false]
    refine ⟨fun ha => ?_, fun ha he => ?_, fun ha he => ?_⟩
    · rw [hx, if_neg (Bool.not_eq_true _ ▸ ha)]
    · rw [hx, if_pos ha, if_pos he]
    · rw [hx, if_pos ha, if_neg (Bool.not_eq_true _ ▸ he)]
      rfl
  · have hx : exec .exit s = 
        let t := goFlow s (s.cur.quads.map (fun q => (q, exitQuad (quadActive s q) s.cur.nextPc (getQuad (curGroup s) q))))
        if allWaiting (curGroup t) && gangMismatch (curGroup t) && regionsFull s then .next (holdIssue s .resource)
        else .next (afterExit t) := by
      change execExit s = _
      unfold execExit
      simp only [hc, hr]
    exact ⟨_, goFlow_done rfl rfl _, fun h => hx.trans (if_neg (Bool.not_eq_true _ ▸ h)), fun h => hx.trans (if_pos h)⟩

/-! ### The end of a region (R149 to R151) -/

/-- Settles O14. -/
theorem regionEnd : Obligations.RegionEnd := by
  intro s c slot hl hr hs
  obtain ⟨l, r, hg⟩ : ∃ l r, (getGroup s c slot).regions = l ++ [r] := by
    obtain ⟨l, r, h⟩ := List.eq_nil_or_concat (getGroup s c slot).regions |>.resolve_left hr
    exact ⟨l, r, by simpa using h⟩
  have hcur : curRegion (getGroup s c slot) = r := by simp [curRegion, hg]
  simp only [endRegion, if_neg hl, getGroup_pushDue, getGroup_setGroup, hg, hcur, endStep, hs]
  simp [startRegion, takeSnapshot, pushDue, setGroup]

/-! ### yield, region and trigger (R252, R149, R151) -/

theorem finishRegion_of_ok {s t : State} (h : regionsFull s = false) : finishRegion s (.ok t) = regionEnds s t := by
  unfold finishRegion finishRegionBy
  rw [h]
  rfl

/-- A boundary instruction that finds nothing against it, at its issue and after its own region's effects, performs and ends its region. -/
theorem finishRelease_of_ok {s u v w : State} {r : State → Res State} (hu : Releases s u) (hv : r s = .ok v) (hw : r u = .ok w) :
    finishRelease s r = regionEnds s w := by
  unfold finishRelease finishReleaseBy finishReleaseWith finishRegionBy
  simp only [hu.1, hv, hu.2, hw, issueCheck, Bool.false_eq_true, if_false]
  rfl

/-- Settles O13. -/
theorem yieldRegionTrigger : Obligations.YieldRegionTrigger := by
  intro s
  refine ⟨fun hc => ?_, fun hc hf => ?_, fun hc hf => ?_, fun ho hl => ?_⟩
  · refine ⟨setCur (retire s) (s.cur.quads.foldl (fun g q => setQuad g q { getQuad g q with yieldUntil := s.clock + 64 }) (curGroup (retire s))),
      ?_, fun q hq => ?_⟩
    · change execYield s = _
      unfold execYield
      simp only [hc]
    · rw [curGroup_setCur]
      exact ⟨foldl_setQuad_gives _ (P := fun x => x.yieldUntil = s.clock + 64) _ hq (fun _ => rfl) _,
        foldl_setQuad_keeps (fun g q => { getQuad g q with yieldUntil := s.clock + 64 }) (P := fun x => x.pc = s.cur.nextPc)
          _ (fun _ h => h) _ (retire_went s q hq).1⟩
  · change execRegion s = _
    unfold execRegion
    simp only [hc, finishRegion_of_ok hf]
  · change execRegion s = _
    unfold execRegion finishRegion finishRegionBy
    rw [if_pos hf]
  · obtain ⟨hc, hr, ha⟩ := ho
    change execTrigger s = _
    unfold execTrigger
    simp only [hc, (checkReady_ok hr).1, (checkReady_ok hr).2, ha, deferNow, deferNowOn, hl, Bool.false_eq_true, if_false]
    rfl

/-! ### User interrupts (R253 to R255) -/

/-- The effect of usig once its checks have passed. -/
def usigOp (d a b : BitVec 5) (s : State) : Res State :=
  match checkSlot s { lit := 32, bUsed := b != 0 } with
  | .error e => .error e
  | .ok () =>
    match checkWait s [.unif a.toNat, unifSrc s b] with
    | .error e => .error e
    | .ok () => after (checkUnder s [.unif a.toNat, unifSrc s b] []) <|
      let x := readUnif (curGroup s) s.clock a.toNat
      if (activeLanes s).isEmpty then .ok s
      else if 64 ≤ x.toNat then illegal 0x10
      else if canSignal s x.toNat then
        let g := getGroup s s.cur.core x.toNat
        .ok (writeUnif (setGroup s s.cur.core x.toNat { g with user := { g.user with payload := some (unifOrLit s b) } }) d.toNat 0 1)
      else .ok (writeUnif s d.toNat 0 0)

theorem usigOp_of_once {s : State} {d a b : BitVec 5} (h : Once s { lit := 32, bUsed := b != 0 } [.unif a.toNat, unifSrc s b])
    (hx : (readUnif (curGroup s) s.clock a.toNat).toNat < 64) :
    usigOp d a b s = .ok (if canSignal s (readUnif (curGroup s) s.clock a.toNat).toNat then
        let n := (readUnif (curGroup s) s.clock a.toNat).toNat
        writeUnif (setGroup s s.cur.core n
          { getGroup s s.cur.core n with user := { (getGroup s s.cur.core n).user with payload := some (unifOrLit s b) } }) d.toNat 0 1
      else writeUnif s d.toNat 0 0) := by
  obtain ⟨hc, hr, ha⟩ := h
  unfold usigOp
  simp only [hc, (checkReady_ok hr).1, (checkReady_ok hr).2, ha, Nat.not_le.2 hx, Bool.false_eq_true, if_false]
  split <;> rfl

/-- Settles O15. -/
theorem userInterrupts : Obligations.UserInterrupts := by
  intro s d a b f
  refine ⟨?_, ?_, fun hc hi hp hf => ?_⟩
  · intro u hu ho hx ho' n hn
    have hx : exec (.usig d a b) s = _ := finishRelease_of_ok (r := usigOp d a b) hu (usigOp_of_once ho hx) (usigOp_of_once ho' hn)
    exact ⟨fun h => by rw [hx, if_neg (Bool.not_eq_true _ ▸ h)], fun h => by rw [hx, if_pos h]⟩
  · intro o vals t i hr hl hv
    have hb : (laneVal (vals.getD 0 []) i != 0xFFFFFFFF && pcBad s (laneVal (vals.getD 0 []) i)) = false := by
      rcases hv with h | h
      · rw [h]
        rfl
      · rw [h, Bool.and_false]
    change execUhnd f s = _
    unfold execUhnd
    simp only [o] at hr
    simp only [hr.1, hr.2, hl, hb, Bool.false_eq_true, if_false]
    rfl
  · change execUret s = _
    unfold execUret
    simp only [hc, hi, hp, finishRegionBy, hf, Bool.not_true, Bool.false_eq_true, if_false]

end Sys2Proof.Machine

/-!
PROOFS. Reads of special registers and the status bits that they leave to be cleared (spec/07 R174, R175), wbase, setlp and dcw
(spec/11 R256, R257).
-/

namespace Sys2Proof.Machine

/-! ### What a lane result leaves of the group and of the rest -/

theorem beforeWrite_regions (s : State) (f : BitVec 7) (k lat : Nat) :
    (curGroup (beforeWrite s f k lat)).regions = (curGroup s).regions := by
  unfold beforeWrite dropPendings notePending
  split <;> rw [curGroup_setCur]

theorem writeName_regions (s : State) (f : BitVec 7) (k lat : Nat) (vals : Lanes) (hn : nameOf (curGroup s) f + k ≤ 251) :
    (curGroup (writeName s f k lat vals)).regions = (curGroup s).regions := by
  obtain ⟨-, -, -, -, -, -, hr, -⟩ := putLanes_same (curGroup s) f (nameOf (curGroup s) f + k) vals (activeLanes s)
    (curGroup (beforeWrite s f k lat))
  rw [writeName_eq s f k lat vals hn, curGroup_setCur, hr, beforeWrite_regions]

theorem AtMostGroup.sameMemory {s t : State} (h : AtMostGroup s t) : SameMemory s t := by
  rcases h with rfl | ⟨g, rfl, -⟩
  · exact .refl _
  · exact sameMemory_setCur s g

theorem AtMostGroup.sameOthers {s t : State} (h : AtMostGroup s t) : SameOthers s t := by
  rcases h with rfl | h
  · exact ⟨fun _ _ _ => rfl, rfl⟩
  · exact h.frame.others

theorem sameOthers_setCur {s t : State} (h : SameOthers s t) (hc : t.cur = s.cur) (g : Group) : SameOthers s (setCur t g) := by
  refine ⟨fun c x hx => ?_, h.due⟩
  rw [getGroup_setCur, hc, if_neg (fun he => hx.elim (fun h => h he.1) (fun h => h he.2))]
  exact h.groups c x hx

/-! ### Pending clears (R175) -/

theorem pendingClears_concat (g : Group) (l : List Region) (r : Region) :
    pendingClears { g with regions := l ++ [r] } = pendingClears { g with regions := l } ||| r.clears := by
  simp [pendingClears]

theorem regions_eq_dropLast (g : Group) : g.regions = [] ∨ g.regions = g.regions.dropLast ++ [curRegion g] := by
  rcases List.eq_nil_or_concat g.regions with h | ⟨l, r, h⟩
  · exact .inl h
  · exact .inr (by simp [curRegion, h])

/-- The current region with more bits to clear has those to be cleared at the commit. -/
theorem pendingClears_setCurRegion (g : Group) (r : Region) (b : BitVec 10) (h : r.clears = (curRegion g).clears ||| b)
    (h0 : g.regions = [] → (curRegion g).clears = 0) : pendingClears (setCurRegion g r) = pendingClears g ||| b := by
  rcases regions_eq_dropLast g with hn | hn
  · have hg : pendingClears g = 0 := by simp [pendingClears, hn]
    unfold setCurRegion
    rw [pendingClears_concat, h, h0 hn, hn, hg]
    simp [pendingClears]
  · have hg : pendingClears g = pendingClears { g with regions := g.regions.dropLast } ||| (curRegion g).clears := by
      rw [← pendingClears_concat, ← hn]
    unfold setCurRegion
    rw [pendingClears_concat, h, hg, BitVec.or_assoc]

theorem curRegion_clears_of_nil {g : Group} (h : g.regions = []) : (curRegion g).clears = 0 := by
  simp [curRegion, h, startRegion]

theorem pendingClears_countSlot (g : Group) : pendingClears (countSlot g) = pendingClears g := by
  have h := pendingClears_setCurRegion g { curRegion g with slots := (curRegion g).slots + 1 } 0 (by simp) curRegion_clears_of_nil
  exact h.trans (BitVec.or_zero)

theorem pendingClears_congr {g h : Group} (e : h.regions = g.regions) : pendingClears h = pendingClears g := by
  unfold pendingClears
  rw [e]

theorem curGroup_retire_spec (s : State) :
    (curGroup (retire s)).spec = { (curGroup s).spec with retired := (curGroup s).spec.retired + 1 } := by
  rw [retire_group]
  exact congrArg (fun p : Specials => { p with retired := p.retired + 1 }) (advanceAll_rest ..).2.1

theorem pendingClears_retire (s : State) : pendingClears (curGroup (retire s)) = pendingClears (curGroup s) := by
  rw [retire_group, pendingClears_countSlot]
  exact pendingClears_congr (advanceAll_rest ..).2.2.1

theorem wentTo_retire {s u : State} (hc : u.cur = s.cur) (hk : u.clock = s.clock) : WentTo s (retire u) s.cur.nextPc := by
  intro q hq
  have h := retire_went u q (hc ▸ hq)
  unfold ctlAstr ctlStall at h
  rw [hc, hk] at h
  exact h

/-! ### rds (R174, R175) -/

/-- The group whose CLOCKHI a read of special register `n` latches. -/
def latchClock (s : State) (n : Nat) : Group :=
  if n = 0x0B then { curGroup s with spec := { (curGroup s).spec with clockHi := wordOf (s.clock / 2 ^ 32) } } else curGroup s

theorem latchClock_eq (s : State) (n : Nat) : latchClock s n = { curGroup s with spec := { (curGroup s).spec with
    clockHi := if n = 0x0B then wordOf (s.clock / 2 ^ 32) else (curGroup s).spec.clockHi } } := by
  unfold latchClock
  split <;> rfl

theorem specialEffect_eq (s : State) (n : Nat) : specialEffect s n = setCur s (if isLane s
    then clearBits (latchClock s n) (readBits (curGroup s).spec n)
    else setCurRegion (latchClock s n) { curRegion (latchClock s n) with
      clears := (curRegion (latchClock s n)).clears ||| readBits (curGroup s).spec n }) := by
  unfold specialEffect latchClock
  dsimp only
  split <;> rfl

theorem clearBits_zero (g : Group) : clearBits g 0 = g := by
  have h5 : ~~~((0 : BitVec 10).extractLsb' 0 5) = BitVec.allOnes 5 := by decide
  have h2 (k : Nat) : ~~~((0 : BitVec 10).extractLsb' k 2) = BitVec.allOnes 2 := by simp
  have h1 : (0 : BitVec 10).getLsbD 9 = false := by decide
  unfold clearBits
  simp only [h5, h2, h1, BitVec.and_allOnes, Bool.not_false, Bool.and_true]

theorem clearBits_spec_congr {g h : Group} (e : h.spec = g.spec) (b : BitVec 10) : (clearBits h b).spec = (clearBits g b).spec := by
  unfold clearBits
  rw [e]

/-- What reading special register `n` leaves of the group, with the bits `b` to be cleared (R175). -/
structure SpecialRead (s t : State) (n : Nat) (b : BitVec 10) : Prop where
  regs  : (curGroup t).regs = (curGroup s).regs
  quads : (curGroup t).quads = (curGroup s).quads
  flags : let g := if isLane s then clearBits (curGroup s) b else curGroup s
    (curGroup t).spec.fpflags = g.spec.fpflags ∧ (curGroup t).spec.kstat = g.spec.kstat ∧ (curGroup t).spec.cpstat = g.spec.cpstat
      ∧ (curGroup t).spec.regstat = g.spec.regstat
  bits  : isLane s = false → pendingClears (curGroup t) = pendingClears (curGroup s) ||| b

theorem specialEffect_read (s : State) (n : Nat) : SpecialRead s (specialEffect s n) n (readBits (curGroup s).spec n) := by
  rw [specialEffect_eq, latchClock_eq]
  cases hl : isLane s with
  | true => constructor <;> simp [hl, clearBits]
  | false =>
    constructor
    · simp [setCurRegion]
    · simp [setCurRegion]
    · simp [hl, setCurRegion]
    · intro _
      simp only [Bool.false_eq_true, if_false, curGroup_setCur]
      exact pendingClears_setCurRegion _ _ _ rfl curRegion_clears_of_nil

theorem specialEffect_clockHi (s : State) (n : Nat) : (curGroup (specialEffect s n)).spec.clockHi
    = if n = 0x0B then wordOf (s.clock / 2 ^ 32) else (curGroup s).spec.clockHi := by
  rw [specialEffect_eq, latchClock_eq, curGroup_setCur]
  split <;> rfl

/-- The state after rds has written its destination. -/
def rdsWritten (s : State) (d : BitVec 7) (n : Nat) : State :=
  writeNames d (2 + patLat [d]) [(upTo 32).map (fun l => (specialReg s n l).getD 0)] s (upTo 1)

/-- The same after what the read leaves in the special registers. -/
def rdsEffect (s : State) (d : BitVec 7) (n : Nat) : State :=
  if (activeLanes s).isEmpty then rdsWritten s d n else specialEffect (rdsWritten s d n) n

theorem exec_rds {s : State} {d : BitVec 7} {i : BitVec 8} (hc : checkSlot s { dst := some d } = .ok ())
    (hn : (specialReg s i.toNat 0).isSome) (hr : checkReady s [] [] = .ok ()) (hd : isStream d = false)
    (hp : peakBad s d 1 = false) (hf : creditShort s d 1 = false) :
    exec (.rds d i) s = .next (retire (rdsEffect s d i.toNat)) := by
  have hsrc : readSources s { dst := some d } [] = .ok ([], s) := by
    unfold readSources
    simp only [List.any_nil, Bool.or_false, hc, dstStream, hd, Bool.false_eq_true, if_false, streamCaps, List.filterMap_nil,
      List.append_nil, (checkReady_ok hr).1, streamFault, List.eraseDups_nil, List.map_nil, streamFaults, worstAbort,
      streamSources_none s [] rfl, noteDead]
  change execRds d i s = _
  unfold execRds
  simp only [hc, Option.isNone_eq_false_iff.2 hn, hsrc, (checkReady_ok hr).2, Bool.false_eq_true, if_false]
  rw [writeDst_reg (words := [_]) hd hp hf]
  rfl

section
variable {s : State} {d : BitVec 7} (hd : ∀ k ∈ upTo 1, nameOf (curGroup s) d + k ≤ 251) (n : Nat)
include hd

theorem rdsWritten_lanes : SameLanes s (rdsWritten s d n) := sameLanes_writeNames d _ _ _ s hd

theorem rdsWritten_regions : (curGroup (rdsWritten s d n)).regions = (curGroup s).regions :=
  writeName_regions s d 0 _ _ (hd 0 ((mem_upTo 1 0).2 (by decide)))

/-- Reading special register `n` with no active lane leaves no bit to be cleared. -/
theorem rdsEffect_read : SpecialRead (rdsWritten s d n) (rdsEffect s d n) n
    (if (activeLanes s).isEmpty then 0 else readBits (curGroup s).spec n) := by
  unfold rdsEffect
  split
  · refine ⟨rfl, rfl, ?_, fun _ => (BitVec.or_zero).symm⟩
    simp only [clearBits_zero, ite_self, and_self]
  · rw [← writeNames_spec d _ _ _ s hd]
    exact specialEffect_read _ n

theorem rdsEffect_frame : (rdsEffect s d n).cur = s.cur ∧ (rdsEffect s d n).clock = s.clock ∧ SameMemory s (rdsEffect s d n)
    ∧ SameOthers s (rdsEffect s d n) := by
  have hw : AtMostGroup s (rdsWritten s d n) := atMost_writeNames d _ _ _ s hd
  have hl := rdsWritten_lanes hd n
  unfold rdsEffect
  split
  · exact ⟨hl.cur, hl.clock, hw.sameMemory, hw.sameOthers⟩
  · rw [specialEffect_eq]
    exact ⟨hl.cur, hl.clock, hw.sameMemory.trans (sameMemory_setCur _ _), sameOthers_setCur hw.sameOthers hl.cur _⟩

theorem rdsEffect_wrote : Wrote s (retire (rdsEffect s d n)) d 1 (fun l _ => (specialReg s n l).getD 0) := by
  intro i k hi hk
  have hv := writeNames_self d (2 + patLat [d]) [(upTo 32).map (fun l => (specialReg s n l).getD 0)] i k (upTo 1) List.nodup_range
    ((mem_upTo 1 k).2 hk) s hd hi
  obtain rfl : k = 0 := by omega
  rw [laneOf_retire, laneOf_eq, laneIn, (rdsEffect_read hd n).regs]
  exact hv.trans (getD_map_upTo (fun l => (specialReg s n l).getD 0) 32 i 0 (activeLanes_lt hi.1))

theorem rdsEffect_clockHi : (curGroup (rdsEffect s d n)).spec.clockHi
    = if n = 0x0B ∧ (activeLanes s).isEmpty = false then wordOf (s.clock / 2 ^ 32) else (curGroup s).spec.clockHi := by
  have hs : (curGroup (rdsWritten s d n)).spec = (curGroup s).spec := writeNames_spec d _ _ _ s hd
  unfold rdsEffect
  cases he : (activeLanes s).isEmpty with
  | true => simp [hs]
  | false => simp [specialEffect_clockHi, hs, (rdsWritten_lanes hd n).clock]

end

/-- Settles O9: `exec_rds` with what its effect leaves, and the checks of wbase, setlp and dcw. -/
theorem specialRegisterReads : Obligations.SpecialRegisterReads := by
  intro s d i
  refine ⟨fun hc hn hr hd hg hp hf => ?_, fun s w f i c => ⟨fun hc h8 h224 hl => ?_, fun hf hc hr h3 h5 ha => ?_, fun hc hr => ⟨fun hb => ?_,
    fun hb ha => ?_⟩⟩⟩
  · have hd' := dst_names_le hg hd
    obtain ⟨hcur, hclock, hm, ho⟩ := rdsEffect_frame hd' i.toNat
    refine ⟨_, exec_rds hc hn hr hd hp hf, rdsEffect_wrote hd' _, wentTo_retire hcur hclock, hm.trans (sameMemory_setCur _ _),
      sameOthers_setCur ho hcur _, ?_, ?_⟩
    · have hx := rdsEffect_read hd' i.toNat
      have hl : isLane (rdsWritten s d i.toNat) = isLane s := by
        unfold isLane
        rw [(rdsWritten_lanes hd' i.toNat).cur]
      have hw : (curGroup (rdsWritten s d i.toNat)).spec = (curGroup s).spec := writeNames_spec d _ _ _ s hd'
      have hb := hx.bits
      rw [hl, ← pendingClears_retire, pendingClears_congr (rdsWritten_regions hd' _)] at hb
      have hg : (if isLane s then clearBits (curGroup (rdsWritten s d i.toNat))
            (if (activeLanes s).isEmpty then 0 else readBits (curGroup s).spec i.toNat) else curGroup (rdsWritten s d i.toNat)).spec
          = (if isLane s then clearBits (curGroup s) (if (activeLanes s).isEmpty then 0 else readBits (curGroup s).spec i.toNat)
            else curGroup s).spec := by
        split
        · exact clearBits_spec_congr hw _
        · exact hw
      obtain ⟨h1, h2, h3, h4⟩ := hl ▸ hx.flags
      simp only [curGroup_retire_spec]
      exact ⟨h1.trans (congrArg Specials.fpflags hg), h2.trans (congrArg Specials.kstat hg), h3.trans (congrArg Specials.cpstat hg),
        h4.trans (congrArg Specials.regstat hg), hb⟩
    · rw [curGroup_retire_spec]
      exact rdsEffect_clockHi hd' _
  · have h1 : (isLane s && decide (32 < w.toNat)) = false := by
      cases h : isLane s
      · rfl
      · simpa using hl h
    change execWbase w s = _
    unfold execWbase
    simp only [hc, h8, ne_eq, not_true, decide_false, Bool.false_or, h1, Nat.not_lt.2 h224, Bool.false_eq_true, if_false]
    rfl
  · have hf' : (f == 0) = false := beq_false_of_ne hf
    have h : (decide (3 < fieldNat i 5 3) || (fieldNat i 5 3 == 3 && decide (5 < fieldNat i 0 5))) = false := by
      simp only [Bool.or_eq_false_iff, decide_eq_false_iff_not, Nat.not_lt, Bool.and_eq_false_iff, beq_eq_false_iff_ne]
      exact ⟨h3, (Decidable.em (fieldNat i 5 3 = 3)).symm.imp_right h5⟩
    change execSetlp f i s = _
    unfold execSetlp
    simp only [hf', hc, h, (checkReady_ok hr).1, (checkReady_ok hr).2, ha, Bool.false_eq_true, if_false]
    rfl
  · have h : ((upTo 7).any fun n => c.getLsbD n && decide (fieldNat c 7 6 < lookup (curGroup s).regs.dcs (n + 1) 0)) = false := by
      simp only [List.any_eq_false, Bool.and_eq_true, decide_eq_true_eq, not_and, Nat.not_lt]
      exact fun n hn => hb n ((mem_upTo 7 n).1 hn)
    change execDcw c s = _
    unfold execDcw
    simp only [hc, (checkReady_ok hr).1, (checkReady_ok hr).2, h, Bool.and_false, Bool.false_eq_true, if_false]
    rfl
  · have h : ((upTo 7).any fun n => c.getLsbD n && decide (fieldNat c 7 6 < lookup (curGroup s).regs.dcs (n + 1) 0)) = true := by
      obtain ⟨n, hn, hc, hl⟩ := hb
      exact List.any_eq_true.2 ⟨n, (mem_upTo 7 n).2 hn, by simp [hc, hl]⟩
    change execDcw c s = _
    unfold execDcw
    simp only [hc, (checkReady_ok hr).1, (checkReady_ok hr).2, h, ha, Bool.not_false, Bool.and_self, if_true]
    rfl

end Sys2Proof.Machine

/-!
PROOFS. The functions of integer instructions and of atomics as exact arithmetic (spec/10 R217 to R220, spec/12 Table 12-2), and the
digits of a walk position (spec/15 R331).
-/

namespace Sys2Proof.Machine

/-! ### Products, minima and differences (R217) -/

/-- The upper half of a 64-bit value is its floor quotient by 2^32. -/
theorem extractLsb'_high_eq_ofInt (z : BitVec 64) : z.extractLsb' 32 32 = BitVec.ofInt 32 (z.toInt / 2 ^ 32) := by
  have hz := z.isLt
  apply BitVec.eq_of_toNat_eq
  rw [BitVec.extractLsb'_toNat, BitVec.toNat_ofInt, BitVec.toInt_eq_toNat_cond, Nat.shiftRight_eq_div_pow]
  split <;> omega

theorem toInt_bounds (x : Word) : -2 ^ 31 ≤ x.toInt ∧ x.toInt < 2 ^ 31 := ⟨BitVec.le_toInt x, BitVec.toInt_lt⟩

theorem toInt_signExtend_mul (x y : Word) : (x.signExtend 64 * y.signExtend 64).toInt = x.toInt * y.toInt := by
  obtain ⟨hx, hx'⟩ := toInt_bounds x
  obtain ⟨hy, hy'⟩ := toInt_bounds y
  rw [BitVec.toInt_mul, BitVec.toInt_signExtend_of_le (by decide), BitVec.toInt_signExtend_of_le (by decide)]
  have h1 := Int.mul_nonneg (Int.sub_nonneg.2 (Int.le_of_lt hx')) (Int.sub_nonneg.2 (Int.le_of_lt hy'))
  have h2 := Int.mul_nonneg (Int.sub_nonneg.2 hx) (Int.sub_nonneg.2 hy)
  have h3 := Int.mul_nonneg (Int.sub_nonneg.2 (Int.le_of_lt hx')) (Int.sub_nonneg.2 hy)
  have h4 := Int.mul_nonneg (Int.sub_nonneg.2 hx) (Int.sub_nonneg.2 (Int.le_of_lt hy'))
  simp only [Int.sub_mul, Int.mul_sub] at h1 h2 h3 h4
  refine Int.bmod_eq_of_le ?_ ?_ <;> omega

theorem mulHigh_signed (x y : Word) : mulHigh true x y = BitVec.ofInt 32 (x.toInt * y.toInt / 2 ^ 32) := by
  rw [← toInt_signExtend_mul, ← extractLsb'_high_eq_ofInt]
  rfl

theorem mulHigh_unsigned (x y : Word) : mulHigh false x y = BitVec.ofNat 32 (x.toNat * y.toNat / 2 ^ 32) := by
  have hp : x.toNat * y.toNat < 2 ^ 32 * 2 ^ 32 := Nat.mul_lt_mul'' x.isLt y.isLt
  have hx : x.toNat < 18446744073709551616 := by have := x.isLt; omega
  have hy : y.toNat < 18446744073709551616 := by have := y.isLt; omega
  apply BitVec.eq_of_toNat_eq
  unfold mulHigh
  rw [if_neg Bool.false_ne_true, BitVec.extractLsb'_toNat, BitVec.toNat_mul_of_lt, BitVec.toNat_ofNat, Nat.shiftRight_eq_div_pow]
  · simp [Nat.mod_eq_of_lt hx, Nat.mod_eq_of_lt hy]
  · simpa [Nat.mod_eq_of_lt hx, Nat.mod_eq_of_lt hy] using hp

theorem lessW_signed (x y : Word) : lessW true x y = decide (x.toInt < y.toInt) := rfl
theorem lessW_unsigned (x y : Word) : lessW false x y = decide (x.toNat < y.toNat) := rfl

theorem minW_toInt (x y : Word) : (minW true x y).toInt = min x.toInt y.toInt := by
  simp only [minW, lessW_signed, decide_eq_true_eq, apply_ite BitVec.toInt]
  omega
theorem maxW_toInt (x y : Word) : (maxW true x y).toInt = max x.toInt y.toInt := by
  simp only [maxW, lessW_signed, decide_eq_true_eq, apply_ite BitVec.toInt]
  omega
theorem minW_toNat (x y : Word) : (minW false x y).toNat = min x.toNat y.toNat := by
  simp only [minW, lessW_unsigned, decide_eq_true_eq, apply_ite BitVec.toNat]
  split <;> omega
theorem maxW_toNat (x y : Word) : (maxW false x y).toNat = max x.toNat y.toNat := by
  simp only [maxW, lessW_unsigned, decide_eq_true_eq, apply_ite BitVec.toNat]
  split <;> omega

theorem absDiffW_signed (x y : Word) : (absDiffW true x y).toNat = (x.toInt - y.toInt).natAbs := by
  have hx := x.isLt
  have hy := y.isLt
  simp only [absDiffW, lessW_signed, decide_eq_true_eq, apply_ite BitVec.toNat, BitVec.toNat_sub, BitVec.toInt_eq_toNat_cond]
  split <;> split at * <;> split <;> omega

theorem absDiffW_unsigned (x y : Word) : (absDiffW false x y).toNat = ((x.toNat : Int) - y.toNat).natAbs := by
  have hx := x.isLt
  have hy := y.isLt
  simp only [absDiffW, lessW_unsigned, decide_eq_true_eq, apply_ite BitVec.toNat, BitVec.toNat_sub]
  split <;> omega

theorem absW_toNat {x : Word} (hx : x ≠ 0x80000000) : (absW x).toNat = x.toInt.natAbs := by
  have h := x.isLt
  have hn : x.toNat ≠ 0x80000000 := fun he => hx (BitVec.eq_of_toNat_eq he)
  simp only [absW, BitVec.msb_eq_decide, decide_eq_true_eq, apply_ite BitVec.toNat, BitVec.toNat_sub, BitVec.toInt_eq_toNat_cond]
  simp only [BitVec.ofNat_eq_ofNat, BitVec.toNat_ofNat]
  split <;> split <;> omega

/-! ### Shifts and rotation (R218) -/

theorem shlW_eq (x : Word) (c : Nat) : shlW x c = BitVec.ofNat 32 (x.toNat * 2 ^ c) := by
  unfold shlW
  split
  · apply BitVec.eq_of_toNat_eq
    rw [BitVec.toNat_shiftLeft, BitVec.toNat_ofNat, Nat.shiftLeft_eq]
  · next h =>
    obtain ⟨k, rfl⟩ := Nat.exists_eq_add_of_le (Nat.le_of_not_lt h)
    apply BitVec.eq_of_toNat_eq
    rw [BitVec.toNat_ofNat, Nat.pow_add, Nat.mul_left_comm, Nat.mul_mod_right]
    rfl

theorem shrW_toNat (x : Word) (c : Nat) : (shrW x c).toNat = x.toNat / 2 ^ c := by
  unfold shrW
  split
  · rw [BitVec.toNat_ushiftRight, Nat.shiftRight_eq_div_pow]
  · next h =>
    have hp : 2 ^ 32 ≤ 2 ^ c := Nat.pow_le_pow_right (by decide) (Nat.le_of_not_lt h)
    rw [Nat.div_eq_of_lt (Nat.lt_of_lt_of_le x.isLt hp)]
    rfl

theorem sarW_toInt (x : Word) (c : Nat) : (sarW x c).toInt = x.toInt / 2 ^ c := by
  unfold sarW
  split
  · rw [BitVec.toInt_sshiftRight, Int.shiftRight_eq_div_pow]
    norm_cast
  · next h =>
    have hp : (2 : Int) ^ 32 ≤ 2 ^ c := by exact_mod_cast Nat.pow_le_pow_right (by decide : 0 < 2) (Nat.le_of_not_lt h)
    obtain ⟨hx, hx'⟩ := toInt_bounds x
    have hn := BitVec.msb_eq_toInt (x := x)
    cases hm : x.msb with
    | true =>
      have h0 : x.toInt < 0 := by simpa [hm] using hn
      rw [if_pos rfl]
      have hpos : (0 : Int) < 2 ^ c := by omega
      have hlo : -1 ≤ x.toInt / 2 ^ c := (Int.le_ediv_iff_mul_le hpos).2 (by omega)
      have hhi : x.toInt / 2 ^ c < 0 := Int.ediv_neg_of_neg_of_pos h0 hpos
      exact Int.le_antisymm hlo (by change _ ≤ -1; omega)
    | false =>
      have h0 : 0 ≤ x.toInt := by simpa [hm] using hn
      rw [if_neg Bool.false_ne_true, Int.ediv_eq_zero_of_lt h0 (by omega)]
      rfl

theorem getLsbD_rolW (x : Word) (c : Nat) {i : Nat} (hi : i < 32) : (rolW x c).getLsbD ((i + c) % 32) = x.getLsbD i := by
  unfold rolW
  have hc : c % 32 < 32 := Nat.mod_lt _ (by decide)
  rw [BitVec.getLsbD_rotateLeft, Nat.mod_mod]
  by_cases h : (i + c) % 32 < c % 32
  · simp only [h, decide_true, cond_true]
    rw [show 32 - c % 32 + (i + c) % 32 = i by omega]
  · have hlt : (i + c) % 32 < 32 := Nat.mod_lt _ (by decide)
    simp only [h, decide_false, cond_false, hlt, decide_true, Bool.true_and]
    rw [show (i + c) % 32 - c % 32 = i by omega]

/-! ### Fields (R219, R220) -/

theorem clzW_div {x : Word} (hx : x ≠ 0) : x.toNat / 2 ^ (31 - (clzW x).toNat) = 1 := by
  have hlog := log2_toNat_lt hx
  have h0 : x.toNat ≠ 0 := fun h => hx (BitVec.eq_of_toNat_eq h)
  rw [clzW_toNat hx, show 31 - (31 - Nat.log2 x.toNat) = Nat.log2 x.toNat by omega]
  have hl := Nat.log2_self_le h0
  have hu := Nat.lt_log2_self (n := x.toNat)
  rw [Nat.pow_succ] at hu
  exact Nat.div_eq_of_lt_le (by omega) (by omega)

theorem field_fits (y : Word) : fieldPos y + fieldWid y ≤ 32 := by
  have hp : fieldPos y < 2 ^ 5 := BitVec.isLt _
  have hw : fieldWid y ≤ 32 - fieldPos y := Nat.min_le_right _ _
  omega

theorem bfxW_unsigned_toNat (x y : Word) : (bfxW false x y).toNat = x.toNat / 2 ^ fieldPos y % 2 ^ fieldWid y := by
  have hw : 2 ^ fieldWid y ≤ 2 ^ 32 := Nat.pow_le_pow_right (by decide) (by have := field_fits y; omega)
  have hm : x.toNat / 2 ^ fieldPos y % 2 ^ fieldWid y < 2 ^ fieldWid y := Nat.mod_lt _ (Nat.two_pow_pos _)
  simp only [bfxW, Bool.false_and, Bool.false_eq_true, if_false, wordOf, BitVec.toNat_ofNat]
  exact Nat.mod_eq_of_lt (by omega)

/-- The mask of a field has the bits of the field. -/
theorem getLsbD_fieldMask (y : Word) {i : Nat} (hi : i < 32) : (wordOf ((2 ^ fieldWid y - 1) * 2 ^ fieldPos y)).getLsbD i
    = decide (fieldPos y ≤ i ∧ i < fieldPos y + fieldWid y) := by
  rw [wordOf, BitVec.getLsbD_ofNat, Nat.testBit_mul_two_pow, Nat.testBit_two_pow_sub_one]
  simp only [hi, decide_true, Bool.true_and, Bool.decide_and]
  by_cases h : fieldPos y ≤ i <;> simp [h]
  omega

theorem getLsbD_bfiW (x y z : Word) {i : Nat} (hi : i < 32) : (bfiW x y z).getLsbD i
    = if fieldPos y ≤ i ∧ i < fieldPos y + fieldWid y then x.getLsbD (i - fieldPos y) else z.getLsbD i := by
  unfold bfiW
  rw [BitVec.getLsbD_or, BitVec.getLsbD_and, BitVec.getLsbD_and, BitVec.getLsbD_not, getLsbD_fieldMask y hi, BitVec.getLsbD_shiftLeft]
  by_cases h : fieldPos y ≤ i ∧ i < fieldPos y + fieldWid y
  · simp [h, hi, Nat.not_lt.2 h.1]
  · simp [h, hi]

/-- Settles O3: each clause is the lemma on its function. -/
theorem integerFunctions : Obligations.IntegerFunctions :=
  ⟨fun x y => ⟨mulHigh_signed x y, mulHigh_unsigned x y⟩,
    fun x y => ⟨minW_toInt x y, maxW_toInt x y, minW_toNat x y, maxW_toNat x y⟩,
    fun x y => ⟨absDiffW_signed x y, absDiffW_unsigned x y⟩,
    fun _ => absW_toNat, rfl,
    fun x c => ⟨shlW_eq x c, shrW_toNat x c, sarW_toInt x c⟩,
    fun x c _ => getLsbD_rolW x c, getLsbD_brevW, fun _ => clzW_div, clzW_zero, bfxW_unsigned_toNat,
    fun x y z _ => getLsbD_bfiW x y z⟩

/-! ### The numbers that atomics leave (Table 12-2) -/

theorem toInt_ofNat_eq_signed32 {n : Nat} (h : n < 2 ^ 32) : (BitVec.ofNat 32 n).toInt = signed32 n := by
  unfold signed32
  rw [BitVec.toInt_eq_toNat_cond, BitVec.toNat_ofNat, Nat.mod_eq_of_lt h]
  split <;> split <;> omega

theorem sless_iff (x y : Nat) : sless x y = true ↔ signed32 x < signed32 y := decide_eq_true_iff

theorem atomNew_min_signed {old v : Nat} (ho : old < 2 ^ 32) (hv : v < 2 ^ 32) (v1 : Nat) :
    (BitVec.ofNat 32 (atomNew 1 old v v1)).toInt = min (BitVec.ofNat 32 old).toInt (BitVec.ofNat 32 v).toInt := by
  change (BitVec.ofNat 32 (if sless v old then v else old)).toInt = _
  rw [toInt_ofNat_eq_signed32 ho, toInt_ofNat_eq_signed32 hv]
  split
  · next h => rw [toInt_ofNat_eq_signed32 hv, Int.min_eq_right (Int.le_of_lt ((sless_iff _ _).1 h))]
  · next h => rw [toInt_ofNat_eq_signed32 ho, Int.min_eq_left (Int.not_lt.1 (mt (sless_iff _ _).2 h))]

theorem atomNew_max_signed {old v : Nat} (ho : old < 2 ^ 32) (hv : v < 2 ^ 32) (v1 : Nat) :
    (BitVec.ofNat 32 (atomNew 2 old v v1)).toInt = max (BitVec.ofNat 32 old).toInt (BitVec.ofNat 32 v).toInt := by
  change (BitVec.ofNat 32 (if sless old v then v else old)).toInt = _
  rw [toInt_ofNat_eq_signed32 ho, toInt_ofNat_eq_signed32 hv]
  split
  · next h => rw [toInt_ofNat_eq_signed32 hv, Int.max_eq_right (Int.le_of_lt ((sless_iff _ _).1 h))]
  · next h => rw [toInt_ofNat_eq_signed32 ho, Int.max_eq_left (Int.not_lt.1 (mt (sless_iff _ _).2 h))]

/-- Settles O22: each operation is its case of `atomNew` or `atombNew`. -/
theorem atomicFunctions : Obligations.AtomicFunctions := by
  intro old v v1 ho hv _
  refine ⟨rfl, atomNew_min_signed ho hv v1, atomNew_max_signed ho hv v1, rfl, rfl, rfl, rfl, rfl, rfl, rfl, rfl, ?_, rfl, rfl⟩
  simp [atombNew]

/-! ### The walk of the tiles (R331) -/

/-- Settles O30: the digits are the remainders and quotients of the position by the counts, one place after another. -/
theorem obligation_walkDigits : Obligations.WalkDigits := by
  intro t w n hn hw r
  have hmax (k : Nat) (hk : k < 4) : Nat.max 1 (n k) = n k := Nat.max_eq_right (hn k hk)
  have hr : walkDigits t w = [w % n 0, w / n 0 % n 1, w / n 0 / n 1 % n 2, w / n 0 / n 1 / n 2] := by
    rw [← hmax 0 (by decide), ← hmax 1 (by decide), ← hmax 2 (by decide)]
    rfl
  have h3 : w / n 0 / n 1 / n 2 < n 3 := by
    rw [Nat.div_div_eq_div_mul, Nat.div_div_eq_div_mul]
    exact Nat.div_lt_of_lt_mul (by rwa [← Nat.mul_assoc])
  refine ⟨fun k hk => ?_, ?_⟩
  · simp only [r, hr]
    match k, hk with
    | 0, _ => exact Nat.mod_lt _ (hn 0 (by decide))
    | 1, _ => exact Nat.mod_lt _ (hn 1 (by decide))
    | 2, _ => exact Nat.mod_lt _ (hn 2 (by decide))
    | 3, _ => exact h3
  · simp only [r, hr]
    change w % n 0 + n 0 * (w / n 0 % n 1 + n 1 * (w / n 0 / n 1 % n 2 + n 2 * (w / n 0 / n 1 / n 2))) = w
    rw [Nat.mod_add_div, Nat.mod_add_div, Nat.mod_add_div]

end Sys2Proof.Machine

/-!
PROOFS. Lane memory instructions (spec/12 R267 to R284): an instruction whose reads, checks and accesses succeed retires with their
effect.
-/

namespace Sys2Proof.Machine

/-! ### Checks that pass -/

theorem after_ok {α : Type} (r : Res α) : after (.ok ()) r = r := by
  cases r with
  | ok x => rfl
  | error a => cases a with
    | hold p => cases p <;> rfl
    | lateHold u p => cases p <;> rfl
    | trap t => rfl
    | lateTrap u t => rfl

theorem counted_of_free {s : State} {ctr : Nat} (h : CountFree s ctr) (r : Res State) : counted s ctr r = r := by
  unfold counted
  rw [if_neg]
  rcases h with h | h | h
  · simp [h]
  · simp [h]
  · simp [Nat.not_le.2 h]

theorem foldRes_unit_ok {f : Nat → Res Unit} {l : List Nat} (h : ∀ i ∈ l, f i = .ok ()) : foldRes (fun _ i => f i) () l = .ok () := by
  induction l with
  | nil => rfl
  | cons i r ih =>
    unfold foldRes
    rw [h i (List.mem_cons_self ..)]
    exact ih (fun j hj => h j (List.mem_cons_of_mem _ hj))

/-- Lanes whose accesses pass meet no data watch. -/
theorem checkWatch_of_checkLanes {s : State} {c : Cap} {vals : List Lanes} {size need kind : Nat}
    (h : checkLanes s c vals size need kind = .ok ()) : checkWatch s c vals size kind = .ok () := by
  unfold checkLanes at h
  cases hw : checkWatch s c vals size kind with
  | ok => rfl
  | error e => rw [hw] at h; cases h

/-! ### Loads and stores (R269, R270) -/

/-- A load whose data are read and written to their names. -/
theorem loadOp_of_ok {s t u v : State} {o : OpInfo} {d : BitVec 5} {k : BitVec 4} {n : Nat} {vals : List Lanes}
    {bytes : List (Nat × List Byte)} {read : State → Cap → List Lanes → Res (List (Nat × List Byte) × State)}
    (hr : Reads s { o with rangeBad := dataBad s d (widthNames n) } (memSrcs o [] k) vals t)
    (hp : peakBad t (plainField d) (widthNames n) = false)
    (hc : checkLanes t (capAt (curGroup t) t.clock k.toNat) vals n 0x01 0 = .ok ())
    (hb : read t (capAt (curGroup t) t.clock k.toNat) vals = .ok (bytes, u)) (hw : writeLoaded u d n bytes = .ok v)
    (post : State → State) : loadOp s o d k n read post = .ok (post (applyLast v o 1 0 (dstNames s (some (plainField d)) (widthNames n)))) := by
  unfold loadOp
  simp only [hr.1, hr.2, after_ok, checkWatch_of_checkLanes hc, hp, hc, hb, hw, Bool.false_eq_true, if_false]

/-- A store whose checks pass and whose writes perform. -/
theorem storeOp_of_ok {s t u v : State} {o : OpInfo} {d : BitVec 5} {k : BitVec 4} {n : Nat} {vals : List Lanes}
    {perform : State → Cap → List Lanes → List Write → Res State}
    (hr : Reads s { o with rangeBad := dataBad s d (widthNames n) } (memSrcs o (dataSrcs d (widthNames n)) k) vals t)
    (hc : checkStore t (capAt (curGroup t) t.clock k.toNat) vals n 0x02 1 = .ok u)
    (hp : perform u (capAt (curGroup t) t.clock k.toNat) vals (storeWrites u (capAt (curGroup t) t.clock k.toNat) vals n) = .ok v) :
    storeOp s o d k n perform = .ok (applyLast v o 1 0 (dstNames s (some (plainField d)) (widthNames n))) := by
  unfold storeOp
  simp only [hr.1, hr.2, after_ok, hc, hp]

/-- The data of an acquire load: each lane's request is answered, and then each lane's access is a logged operation (R375). -/
def acquireLanes (n : Nat) (t : State) (c : Cap) (vals : List Lanes) : Res (List (Nat × List Byte) × State) :=
  match loadLanes t c vals n with
  | .error e => .error e
  | .ok (_, t) => loggedLanes t c vals (fun t i => readHeld t i c.obj.toNat (objOff c (offOf vals i)) n)

/-- Settles O16: each is its load or store operation. -/
theorem loadsAndStores : Obligations.LoadsAndStores := by
  intro s c w d a k o p n m cap names loads acquires stores i j q r
  refine ⟨fun v h => ?_, fun v h => ?_, fun v h => ?_, fun u v x hu hv hx => ?_⟩
  · obtain ⟨hc, vals, t, bytes, u, hr, hp, hl, hb, hw⟩ := h
    change execLd c d a k w s = _
    unfold execLd
    rw [counted_of_free hc, loadOp_of_ok hr hp hl hb hw]
    rfl
  · obtain ⟨hc, vals, t, bs, x, bytes, u, hr, hp, hl, hb, hg, hw⟩ := h
    change execLdAcq c o d p a k w s = _
    unfold execLdAcq
    have hx : acquireLanes (widthBytes w) t (capAt (curGroup t) t.clock k.toNat) vals = .ok (bytes, u) := by
      unfold acquireLanes
      rw [hb]
      exact hg
    exact congrArg (finish s) ((counted_of_free hc _).trans (loadOp_of_ok (read := acquireLanes (widthBytes w)) hr hp hl hx hw _))
  · obtain ⟨hc, vals, t, u, hr, hs, hp⟩ := h
    change execSt c d a k w s = _
    unfold execSt
    rw [counted_of_free hc, storeOp_of_ok hr hs hp]
    rfl
  · obtain ⟨hcv, valsv, tv, uv, hrv, hsv, hpv⟩ := hv
    obtain ⟨hcx, valsx, tx, ux, hrx, hsx, hpx⟩ := hx
    exact finishRelease_of_ok (r := fun s => counted s c.toNat (storeOp s r d k n performNow)) hu
      ((counted_of_free hcv _).trans (storeOp_of_ok hrv hsv hpv))
      ((counted_of_free hcx _).trans (storeOp_of_ok hrx hsx hpx))

/-! ### Capability registers (R8 to R16, R181, R272) -/

theorem readCap_writeCapLat_self (g : Group) (clock lat k : Nat) (astr : Bool) (v : Cap) :
    readCap (writeCapLat g clock lat astr k v) k = if k = 0 then Cap.null else v := by
  unfold writeCapLat readCap
  by_cases h : k = 0
  · simp only [h, if_true]
  · simp only [h, if_false, lookup_insertKey_self]

theorem readCap_writeCapLat_ne (g : Group) {clock lat k j : Nat} {astr : Bool} {v : Cap} (hj : j ≠ k) :
    readCap (writeCapLat g clock lat astr k v) j = readCap g j := by
  unfold writeCapLat readCap
  by_cases h : k = 0
  · rw [if_pos h]
  · simp only [h, if_false, lookup_insertKey_ne _ hj]

/-- A result that is not ready leaves the register as it was to a read before its clock. -/
theorem capAt_writeCapLat_early {g : Group} {clock lat k n : Nat} {astr : Bool} {v : Cap} (hl : lat ≠ 0) (hk : k ≠ 0)
    (hp : ∀ e ∈ g.regs.kpend, e.readyAt ≤ clock) (hn : n < clock + lat) : capAt (writeCapLat g clock lat astr k v) n k = readCap g k := by
  have hf : g.regs.kpend.filter (fun e => !(e.key == k && lat == 0) && decide (clock < e.readyAt)) = [] := by
    simp only [List.filter_eq_nil_iff, Bool.and_eq_true, decide_eq_true_eq, not_and, Nat.not_lt]
    exact fun e he _ => hp e he
  unfold capAt writeCapLat
  simp only [hk, if_false, hl, hf, List.append_nil, pendingCap, if_true, Nat.not_le.2 hn]

/-- A derived range lies in the old one (R15). -/
theorem narrowed_range {c : Cap} {delta len : Nat} (hb : c.base.toNat + capLen c ≤ 2 ^ 44) (hl : len < 2 ^ 44)
    (hd : delta + decLen len ≤ capLen c) :
    c.base.toNat ≤ (c.base + BitVec.ofNat 44 delta).toNat
      ∧ (c.base + BitVec.ofNat 44 delta).toNat + capLen { c with len := BitVec.ofNat 44 len } ≤ c.base.toNat + capLen c := by
  have hlen : capLen { c with len := BitVec.ofNat 44 len } = decLen len := by
    have hz : (BitVec.ofNat 44 len).toNat = len := by rw [BitVec.toNat_ofNat, Nat.mod_eq_of_lt hl]
    unfold capLen decLen
    by_cases h : len = 0
    · subst h
      rfl
    · rw [if_neg (fun he => h (by rw [← hz]; exact congrArg BitVec.toNat he)), if_neg h, hz]
  have hpos : 0 < decLen len := by unfold decLen; split <;> omega
  have hsum : (c.base + BitVec.ofNat 44 delta).toNat = c.base.toNat + delta := by
    rw [BitVec.toNat_add, BitVec.toNat_ofNat, Nat.mod_eq_of_lt (show delta < 2 ^ 44 by omega), Nat.mod_eq_of_lt (by omega)]
  rw [hlen, hsum]
  omega

/-- What cnarrow does with a lane active, `i` being the lowest. -/
def narrowOp (s : State) (d a : BitVec 4) (b : BitVec 5) (i : Nat) : Res State :=
  if a = 0 then
    if !isSuper s then capFault 0x01 i 0 0
    else match liftMem i (readUnif (curGroup s) s.clock b.toNat).toNat 0 0
        (descOf s s.cur.core (readUnif (curGroup s) s.clock b.toNat).toNat) with
      | .error e => .error e
      | .ok (e, t) => .ok (setCur t (writeCap (curGroup t) d.toNat
          ⟨true, readUnif (curGroup s) s.clock b.toNat, 0, BitVec.ofNat 44 e.length, 0xFF⟩))
  else
    let c := capAt (curGroup s) s.clock a.toNat
    let x := pair44 (curGroup s) s.clock b.toNat
    let y := pair44 (curGroup s) s.clock (b.toNat + 2)
    if !c.tag then capFault 0x01 i c.obj.toNat 0
    else if !x.2 || !y.2 || decide (capLen c < x.1 + decLen y.1) then capFault 0x07 i c.obj.toNat 0
    else .ok (writeDerived s d { c with base := c.base + BitVec.ofNat 44 x.1, len := BitVec.ofNat 44 y.1 })

section
variable {s : State} {d a : BitVec 4} {b : BitVec 5} (hc : checkSlot s { encBad := decide (28 < b.toNat), kBad := decide (d.toNat < 2) } = .ok ())
  (hr : checkReady s ((upTo 4).map (fun i => .unif (b.toNat + i)) ++ [.cap a.toNat]) [] = .ok ())
include hc hr

theorem exec_cnarrow_of_none (hf : firstLane s = none) : exec (.cnarrow d a b) s = finish s (.ok s) := by
  change execCnarrow d a b s = _
  unfold execCnarrow
  simp only [hc, (checkReady_ok hr).1, (checkReady_ok hr).2, after_ok, hf]

theorem exec_cnarrow_of_lane {i : Nat} (hf : firstLane s = some i) : exec (.cnarrow d a b) s = finish s (narrowOp s d a b i) := by
  change execCnarrow d a b s = _
  unfold execCnarrow
  simp only [hc, (checkReady_ok hr).1, (checkReady_ok hr).2, after_ok, hf]
  rfl

end

/-- What crights does for the lane that gives its operands. -/
def rightsOp (s : State) (d a : BitVec 4) (b : BitVec 5) (i : Nat) : Res State :=
  let c := capAt (curGroup s) s.clock a.toNat
  if !c.tag then capFault 0x01 i c.obj.toNat 0
  else .ok (writeDerived s d { c with rights := c.rights &&& (readUnif (curGroup s) s.clock b.toNat).extractLsb' 0 8 })

section
variable {s : State} {d a : BitVec 4} {b : BitVec 5} (hc : checkSlot s { kBad := decide (d.toNat < 2) } = .ok ())
  (hr : checkReady s [.unif b.toNat, .cap a.toNat] [] = .ok ())
include hc hr

theorem exec_crights_of_none (hf : firstLane s = none) : exec (.crights d a b) s = finish s (.ok s) := by
  change execCrights d a b s = _
  unfold execCrights
  simp only [hc, (checkReady_ok hr).1, (checkReady_ok hr).2, after_ok, hf]

theorem exec_crights_of_lane {i : Nat} (hf : firstLane s = some i) : exec (.crights d a b) s = finish s (rightsOp s d a b i) := by
  change execCrights d a b s = _
  unfold execCrights
  simp only [hc, (checkReady_ok hr).1, (checkReady_ok hr).2, after_ok, hf]
  rfl

end

/-- Settles O19: the cases of cnarrow and crights, and what their writes leave. -/
theorem capabilityDerivation : Obligations.CapabilityDerivation := by
  refine ⟨fun s d a b f r => ⟨fun hc hr => ?_, fun hc hr => ?_, laneResult_of rfl⟩, fun c delta len hb hl hd => narrowed_range hb hl hd,
    fun x y i h => ?_, fun g clock lat k j astr v =>
    ⟨readCap_writeCapLat_self .., readCap_writeCapLat_ne g, fun hl hk hp n hn => capAt_writeCapLat_early hl hk hp hn⟩⟩
  · refine ⟨fun hf => exec_cnarrow_of_none hc hr hf, fun i hf => ?_⟩
    have hx : exec (.cnarrow d a b) s = finish s (narrowOp s d a b i) := exec_cnarrow_of_lane hc hr hf
    unfold narrowOp at hx
    refine ⟨fun ha ht h1 h2 hl => hx.trans ?_, fun ha ht => hx.trans ?_, fun ha ht hb => hx.trans ?_, fun ha hs => hx.trans ?_,
      fun e t ha hs hd => hx.trans ?_, fun ha hs hd => hx.trans ?_, fun x ha hs hd => hx.trans ?_⟩
    · simp only [ha, ht, h1, h2, Nat.not_lt.2 hl, Bool.not_true, Bool.or_self, decide_false, Bool.false_eq_true, if_false]
      rfl
    · simp only [ha, ht, Bool.not_false, if_true, if_false]
      rfl
    · have hb : (!(pair44 (curGroup s) s.clock b.toNat).2 || !(pair44 (curGroup s) s.clock (b.toNat + 2)).2
          || decide (capLen (capAt (curGroup s) s.clock a.toNat) < (pair44 (curGroup s) s.clock b.toNat).1
            + decLen (pair44 (curGroup s) s.clock (b.toNat + 2)).1)) = true := by
        rcases hb with h | h | h <;> simp [h]
      simp only [ha, ht, hb, Bool.not_true, Bool.false_eq_true, if_true, if_false]
      rfl
    · simp only [ha, hs, Bool.not_false, if_true]
      rfl
    all_goals
      simp only [ha, hs, hd, liftMem, Bool.not_true, Bool.false_eq_true, if_true, if_false]
      rfl
  · refine ⟨fun hf => exec_crights_of_none hc hr hf, fun i hf => ⟨fun ht => (exec_crights_of_lane hc hr hf).trans ?_,
      fun ht => (exec_crights_of_lane hc hr hf).trans ?_⟩⟩
    all_goals
      simp only [rightsOp, ht, Bool.not_true, Bool.not_false, Bool.false_eq_true, if_true, if_false]
      rfl
  · rw [BitVec.getLsbD_and, Bool.and_eq_true] at h
    exact h.1

/-! ### ldk and stk (R271, R17 to R19) -/

theorem readCap_congr {g h : Group} (e : h.regs.caps = g.regs.caps) (k : Nat) : readCap h k = readCap g k := by
  unfold readCap
  rw [e]

theorem readCap_takeQuantum (s : State) (k j : Nat) (q : Cap) (dropped : Bool) :
    readCap (curGroup (takeQuantum s k q dropped)) j = readCap (writeCap (curGroup s) k q) j := by
  unfold takeQuantum
  rw [curGroup_setCur]
  exact readCap_congr rfl j

/-- Settles O20: the operations of ldk and stk, and what a loaded capability leaves. -/
theorem capabilityLoadStore : Obligations.CapabilityLoadStore := by
  intro s c d a k vals t u v o cap x store
  refine ⟨fun qs hc hr hl hg => ?_, fun hc hr => ?_, fun lane off => ?_, fun q dropped => ⟨?_, fun j hj => ?_, ?_⟩, fun _ => rfl⟩
  · change execLdk c d a k s = _
    unfold execLdk
    have hr : Reads s { memInfo a true false with kBad := decide (d.toNat < 2) }
      (memSrcs { memInfo a true false with kBad := decide (d.toNat < 2) } [] k) vals t := hr
    simp only [cap] at hl hg
    simp only [counted_of_free hc, hr.1, hr.2, after_ok, hl, hg]
    rfl
  · have hx : exec (.stk c d a k) s = finish s (match store with
      | .error e => .error e
      | .ok t => match holdStore t ((activeLanes t).map (fun i =>
          ⟨i, cap.obj.toNat, objOff cap (offOf vals i), 16, if x.tag then 2 else 1, 0, capBytes x, false⟩)) c.toNat with
        | .error e => .error e
        | .ok t => .ok (applyLast t (memInfo a false false) 1 0 [])) := by
      change execStk c d a k s = _
      unfold execStk
      simp only [counted_of_free hc, hr.1, hr.2, after_ok]
      rfl
    refine ⟨fun hs hh => ?_, fun e hs => ?_⟩
    · rw [hx, hs]
      simp only [hh]
      rfl
    · rw [hx, hs]
      rfl
  · unfold derivable
    by_cases h : x.tag = true ∧ x.rights.getLsbD 6 = false
    · rw [if_pos h, if_pos (by rw [h.1, h.2]; rfl)]
    · rw [if_neg h, if_neg (by simpa using h)]
  · rw [readCap_takeQuantum, writeCap, readCap_writeCapLat_self]
    by_cases h : d = 0
    · subst h; rfl
    · rw [if_neg h, if_neg (fun he : d.toNat = 0 => h (BitVec.eq_of_toNat_eq he))]
  · rw [readCap_takeQuantum, writeCap, readCap_writeCapLat_ne _ hj]
  · unfold takeQuantum
    rw [curGroup_setCur]
    unfold writeCap writeCapLat
    split <;> rfl

end Sys2Proof.Machine

/-!
PROOFS. Atomics and reductions (spec/12 R274 to R277), fences, prefetches, fills, pins and cache control (R279 to R284), stream
definitions (R285 to R287) and uniform accesses (spec/10 R243).
-/

namespace Sys2Proof.Machine

/-! ### Atomics (R274, R275) -/

theorem loggedLanes_of_idle {s : State} (h : (activeLanes s).isEmpty = true) (c : Cap) (vals : List Lanes)
    (f : State → Nat → Res (List Byte × State)) : loggedLanes s c vals f = .ok ([], dropLanes s) := by
  unfold loggedLanes
  rw [List.isEmpty_iff.1 h]
  rfl

/-- The static facts of an atomic's slot, its data registers checked. -/
def atomicReads (o : OpInfo) (d : BitVec 5) (k : BitVec 4) (regs : Nat) (s : State) (vals : List Lanes) (t : State) : Prop :=
  Reads s { o with rangeBad := dataBad s d regs } (memSrcs o (dataSrcs d regs) k) vals t

section
variable {s t u p : State} {o : OpInfo} {d : BitVec 5} {k : BitVec 4} {n regs : Nat} {vals : List Lanes}
  (hr : atomicReads o d k regs s vals t) (hs : checkStore t (capAt (curGroup t) t.clock k.toNat) vals n 0x0B 2 = .ok u)
  (hp : translateWrites u u.cur.core ((activeLanes u).map (fun i => ⟨i, (capAt (curGroup t) t.clock k.toNat).obj.toNat,
    objOff (capAt (curGroup t) t.clock k.toNat) (offOf vals i), n, 3, 0, [], false⟩)) = .ok p)
include hr hs hp

/-- An atomic of which no lane is active performs nothing. -/
theorem atomicOp_of_idle (hc : CountFree s 7) (he : (activeLanes p).isEmpty = true) (scope : Nat) (f : Nat → List Word → Nat) :
    atomicOp o d k scope n regs f s = .ok (dropLanes p) := by
  unfold atomicOp
  simp only [counted_of_free hc, hr.1, hr.2, after_ok, hs, hp, loggedLanes_of_idle he, List.isEmpty_nil, if_true]

/-- An atomic whose lanes have performed gives them the old values. -/
theorem atomicOp_of_lanes {q y : State} {olds : List (Nat × List Byte)} {f : Nat → List Word → Nat} (hc : CountFree s 7)
    (hl : loggedLanes p (capAt (curGroup t) t.clock k.toNat) vals (fun z i => atomicLane z i (capAt (curGroup t) t.clock k.toNat)
      (offOf vals i) n (fun old => f old (laneArgs (vals.drop 1) i))) = .ok (olds, q))
    (ho : olds ≠ [])
    (hw : writeLoaded (pushStore q (olds.map (fun x => (⟨x.1, (capAt (curGroup t) t.clock k.toNat).obj.toNat,
      objOff (capAt (curGroup t) t.clock k.toNat) (offOf vals x.1), n, 3, 0,
      leBytes n (f (leNat x.2) (laneArgs (vals.drop 1) x.1)), false⟩ : Write))) true 0) d n olds = .ok y) (scope : Nat) :
    atomicOp o d k scope n regs f s = .ok (applyLast (acquireAt y scope) o 1 0 (dstNames s (some (plainField d)) regs)) := by
  have he : olds.isEmpty = false := by simpa using ho
  unfold atomicOp
  simp only [counted_of_free hc, hr.1, hr.2, after_ok, hs, hp, hl, he, hw, Bool.false_eq_true, if_false]

end

/-! ### Reductions (R276, R277) -/

/-- The writes of a reduction's active lanes, ascending. -/
def reductionWrites (s : State) (c : Cap) (vals : List Lanes) (n code : Nat) : List Write :=
  (activeLanes s).map (fun i => ⟨i, c.obj.toNat, objOff c (offOf vals i), n, 4, code, datumOf vals n i, false⟩)

/-- An ordered reduction for which the team's log has no room (R277). -/
def logFull (s : State) (code : Nat) (ws : List Write) : Prop :=
  32 ≤ code ∧ (curLaunch s).fredlog < (curTeam s).fredlog.length + ws.length

section
variable {s t u : State} {o : OpInfo} {d : BitVec 5} {k : BitVec 4} {n code : Nat} {vals : List Lanes} {ws : List Write}
  (hr : atomicReads o d k (widthNames n) s vals t) (hc : checkStore t (capAt (curGroup t) t.clock k.toNat) vals n 0x0A 2 = .ok u)
  (hw : reductionWrites u (capAt (curGroup t) t.clock k.toNat) vals n code = ws)
include hr hc hw

theorem reductionOp_of_full (hf : logFull u code ws) : reductionOp s o d k n code
    = .error (.trap { cls := 5, code := 0x04, lane := (firstLane u).getD 0, kind := 2 }) := by
  have hb : (decide (32 ≤ code) && decide ((curLaunch u).fredlog < (curTeam u).fredlog.length + ws.length)) = true := by
    rw [decide_eq_true hf.1, decide_eq_true hf.2, Bool.and_self]
  rw [← hw, reductionWrites] at hb
  unfold reductionOp
  simp only [hr.1, hr.2, after_ok, hc, hb, if_true]

theorem reductionOp_of_room {x : State} (hf : ¬ logFull u code ws) (ht : translateWrites u u.cur.core ws = .ok x) :
    reductionOp s o d k n code = (if isLane x then performAll x ws
      else .ok (if ws.isEmpty then x else pushStore (reserveLog x ws) ws false 0)).map
        (fun y => applyLast y o 1 0 (dstNames s (some (plainField d)) (widthNames n))) := by
  have hb : (decide (32 ≤ code) && decide ((curLaunch u).fredlog < (curTeam u).fredlog.length + ws.length)) = false := by
    rw [Bool.eq_false_iff, Ne, Bool.and_eq_true, decide_eq_true_iff, decide_eq_true_iff]
    exact hf
  rw [← hw, reductionWrites] at hb ht ⊢
  unfold reductionOp
  simp only [hr.1, hr.2, after_ok, hc, hb, ht, Bool.false_eq_true, if_false]
  split <;> rename_i h <;> rw [h] <;> rfl

end

/-- Settles O21: each is its atomic or its reduction operation. -/
theorem atomicsAndReductions : Obligations.AtomicsAndReductions := by
  intro s s' op sc d a k w cap names reads atomic runs wide reduces
  have run (i : Instr) (o : OpInfo) (n regs : Nat) (f : Nat → List Word → Nat)
      (hx : exec i s = finishRelease s (atomicOp o d k sc.toNat n regs f)) : runs i o n regs f := by
    have ok (v x : State) (h : atomic o n regs f v x) : atomicOp o d k sc.toNat n regs f v = .ok x := by
      obtain ⟨hc, vals, t, u, p, hr, hs, hp, ⟨he, rfl⟩ | ⟨olds, ws, q, y, hl, ho, rfl, hw, rfl⟩⟩ := h
      · exact atomicOp_of_idle hr hs hp hc he _ _
      · exact atomicOp_of_lanes hr hs hp hc hl ho hw _
    exact fun x y hu hs hs' => hx.trans (finishRelease_of_ok hu (ok s x hs) (ok s' y hs'))
  have reduce (i : Instr) (o : OpInfo) (n code : Nat) (hx : exec i s = finish s (reductionOp s o d k n code)) : reduces i o n code := by
    refine fun vals t u hr hc => ⟨fun hf => ?_, fun x hf ht => ⟨fun hl => ?_, fun y hl hy => ?_⟩⟩
    · rw [hx, reductionOp_of_full hr hc rfl hf]
      rfl
    · rw [hx, reductionOp_of_room hr hc rfl hf ht, hl]
      rfl
    · rw [hx, reductionOp_of_room hr hc rfl hf ht, if_pos hl]
      rw [show performAll x (reductionWrites u (capAt (curGroup t) t.clock k.toNat) vals n code) = .ok y from hy]
      rfl
  exact ⟨run (.atom op d a k sc) (atomInfo a sc false) 4 (if op = 6 then 2 else 1)
      (fun old v => atomNew op.toNat old (arg v 0).toNat (arg v 1).toNat) rfl,
    run (.atomb op d a k sc) (atomInfo a sc (decide (5 < op.toNat))) (if wide then 8 else 4) (if op = 5 then 4 else if wide then 2 else 1)
      (fun old v => if wide then atombNew op.toNat old (pairNat v 0) (pairNat v 2) else atombNew op.toNat old (arg v 0).toNat 0) rfl,
    run (.fatom op d a k sc) (atomInfo a sc (decide (3 < op.toNat))) 4 1 (fun old v => fatomOp op.toNat old (arg v 0).toNat) rfl,
    reduce (.ared op d a k w) (memInfo a false (w != 2 && w != 3)) (widthBytes w) op.toNat rfl,
    reduce (.fred op d a k) { memInfo a false false with fnBad := decide (2 < op.toNat) } 4
      ((if !isLane s && (curLaunch s).flags.getLsbD 4 then 32 else 16) + op.toNat) rfl⟩

/-! ### Fences, fills, pins and cache control (R279 to R284) -/

/-- A fence whose checks pass: an acquire at its scope, but of a release form or with no active lane. -/
def fenceDone (f sc : BitVec 3) (s : State) : State := if (activeLanes s).isEmpty || f == 1 then s else acquireAt s sc.toNat

/-- What a fence checks, and what it then does. -/
def fenceOp (f sc : BitVec 3) (s : State) : Res State :=
  match checkSlot s { fnBad := decide (3 < f.toNat), scopeBad := decide (5 < sc.toNat) } with
  | .error e => .error e
  | .ok () => match checkWait s [] with
    | .error e => .error e
    | .ok () => after (checkUnder s [] []) <| .ok (fenceDone f sc s)

theorem fenceOp_of_ok {f sc : BitVec 3} {s : State}
    (h : checkSlot s { fnBad := decide (3 < f.toNat), scopeBad := decide (5 < sc.toNat) } = .ok () ∧ checkReady s [] [] = .ok ()) :
    fenceOp f sc s = .ok (fenceDone f sc s) := by
  unfold fenceOp
  simp only [h.1, (checkReady_ok h.2).1, (checkReady_ok h.2).2, after_ok]

theorem exec_fence (f sc : BitVec 3) (s : State) :
    exec (.fence f sc) s = if f = 0 then finish s (fenceOp f sc s) else finishRelease s (fenceOp f sc) := rfl

/-- The access check of one lane of zfill, whose offset is a whole line's (R281). -/
def zfillCheck (s : State) (c : Cap) (vals : List Lanes) (i : Nat) : Res Unit :=
  match checkAccess s c i (offOf vals i) 128 0x02 1 true with
  | .error e => .error e
  | .ok () => if objOff c (offOf vals i) % 128 ≠ 0 then
      .error (.trap { cls := 5, code := 0x05, lane := i, obj := c.obj.toNat, off := objOff c (offOf vals i), kind := 1 })
    else .ok ()

theorem exec_zfill {s u x y : State} {c : BitVec 3} {a : BitVec 5} {k : BitVec 4} {vals : List Lanes} (hc : CountFree s c.toNat)
    (hr : Reads s (memInfo a false false) (memSrcs (memInfo a false false) [] k) vals u)
    (hw : checkWrites u (capAt (curGroup u) u.clock k.toNat) vals 128 1 (zfillCheck u (capAt (curGroup u) u.clock k.toNat) vals)
      (fun _ => .ok ()) = .ok x)
    (hh : holdStore x ((activeLanes x).map (fun i => ⟨i, (capAt (curGroup u) u.clock k.toNat).obj.toNat,
      objOff (capAt (curGroup u) u.clock k.toNat) (offOf vals i), 128, 0, 0, List.replicate 128 0, false⟩)) c.toNat = .ok y) :
    exec (.zfill c a k) s = .next (retire (applyLast y (memInfo a false false) 1 0 [])) := by
  change finish s (counted s c.toNat (match readSources s (memInfo a false false) (memSrcs (memInfo a false false) [] k) with
    | .error e => .error e
    | .ok (vals, t) => after (checkUnder s (memSrcs (memInfo a false false) [] k) []) <|
      match checkWrites t (capAt (curGroup t) t.clock k.toNat) vals 128 1 (zfillCheck t (capAt (curGroup t) t.clock k.toNat) vals)
          (fun _ => .ok ()) with
      | .error e => .error e
      | .ok z => match holdStore z ((activeLanes z).map (fun i => ⟨i, (capAt (curGroup t) t.clock k.toNat).obj.toNat,
          objOff (capAt (curGroup t) t.clock k.toNat) (offOf vals i), 128, 0, 0, List.replicate 128 0, false⟩)) c.toNat with
        | .error e => .error e
        | .ok t => .ok (applyLast t (memInfo a false false) 1 0 []))) = _
  simp only [counted_of_free hc, hr.1, hr.2, after_ok, hw, hh]
  rfl

/-- The pin of one lane, after those of the lanes below it (R282). -/
def pinStep (c : Cap) (vals : List Lanes) (l1 : Bool) (acc : List Nat × State) (i : Nat) : Res (List Nat × State) :=
  match pinLane acc.2 i c (offOf vals i) l1 with
  | .error e => .error e
  | .ok (b, s) => .ok (if b then acc.1 ++ [i] else acc.1, s)

theorem exec_pin {s u x : State} {t f : BitVec 3} {b : BitVec 7} {l : BitVec 1} {k : BitVec 4} {vals : List Lanes} {won : List Nat}
    {o : OpInfo} (hi : o = { srcA := some b, pBad := pairPred t f }) (hr : Reads s o (memSrcs o [] k) vals u)
    (ha : ∀ j ∈ activeLanes u, checkAccess u (capAt (curGroup u) u.clock k.toNat) j (offOf vals j) 1 0x20 0 false = .ok ())
    (hp : foldRes (pinStep (capAt (curGroup u) u.clock k.toNat) vals (l == 1)) ([], u) (activeLanes u) = .ok (won, x)) :
    exec (.pin t f b l k) s = .next (retire (applyLast (writeCond x t f 0 (laneMask (fun i => won.contains i))) o 1 0 [])) := by
  subst hi
  change finish s (match readSources s { srcA := some b, pBad := pairPred t f } (memSrcs { srcA := some b, pBad := pairPred t f } [] k) with
    | .error e => .error e
    | .ok (vals, u) => after (checkUnder s (memSrcs { srcA := some b, pBad := pairPred t f } [] k) []) <|
      match foldRes (fun _ i => checkAccess u (capAt (curGroup u) u.clock k.toNat) i (offOf vals i) 1 0x20 0 false) () (activeLanes u) with
      | .error e => .error e
      | .ok () =>
        match foldRes (pinStep (capAt (curGroup u) u.clock k.toNat) vals (l == 1)) ([], u) (activeLanes u) with
        | .error e => .error e
        | .ok (won, u) => .ok (applyLast (writeCond u t f 0 (laneMask (fun i => won.contains i)))
          { srcA := some b, pBad := pairPred t f } 1 0 [])) = _
  simp only [hr.1, hr.2, after_ok, foldRes_unit_ok ha, hp]
  rfl

/-- Settles O23: each retires with the effect of its operation, fences of a release form by way of their region's end. -/
theorem fencesAndCaches : Obligations.FencesAndCaches := by
  intro s s' u f sc op c w t p a b k l vals o cap reads
  refine ⟨⟨fun hf hs => ?_, fun hf hu hs hs' => ?_⟩, fun x hr hp => ?_, fun x y hc hr hw hh => exec_zfill hc hr hw hh,
    fun won x => exec_pin rfl, fun hc hr ha => ?_, fun hr ha => ?_⟩
  · rw [exec_fence, if_pos hf, fenceOp_of_ok hs]
    rfl
  · rw [exec_fence, if_neg hf, finishRelease_of_ok hu (fenceOp_of_ok hs) (fenceOp_of_ok hs')]
    rfl
  · change execPref a k w s = _
    unfold execPref
    simp only [hr.1, hr.2, after_ok, cap] at hp ⊢
    simp only [hp]
    rfl
  · have hx : exec (.unpin c a k) s = finish s (match firstLane u with
      | none => .ok u
      | some i =>
        match liftMem i cap.obj.toNat (objOff cap (offOf vals i)) 0 (descOf u u.cur.core cap.obj.toNat) with
        | .error e => .error e
        | .ok (_, t) => .ok (applyLast (unpinLanes t cap vals c.toNat) o 1 0 [])) := by
      change execUnpin c a k s = _
      unfold execUnpin
      have hr : Reads s (memInfo a false false) (memSrcs (memInfo a false false) [] k) vals u := hr
      simp only [cap] at ha
      simp only [counted_of_free hc, hr.1, hr.2, after_ok, foldRes_unit_ok ha]
      rfl
    refine ⟨fun hf => by rw [hx, hf]; rfl, fun i e x hf hl => ?_⟩
    rw [hx, hf]
    simp only [hl]
    rfl
  · have hx : exec (.cctl op a k sc) s = finish s (match firstLane u with
      | none => .ok u
      | some i =>
        match liftMem i cap.obj.toNat (objOff cap (offOf vals i)) (if op = 0 then 0 else 1) (descOf u u.cur.core cap.obj.toNat) with
        | .error e => .error e
        | .ok (e, t) =>
          match (activeLanes t).find? (fun i => decide (e.length ≤ objOff cap (offOf vals i))) with
          | some i => .error (memAbort (.cap 0x0B) i cap.obj.toNat (objOff cap (offOf vals i)) (if op = 0 then 0 else 1))
          | none =>
            .ok (applyLast ((activeLanes t).foldl (fun t i => cctlLane t e (objOff cap (offOf vals i)) op.toNat sc.toNat) t)
              { o with fnBad := decide (2 < op.toNat), scopeBad := decide (5 < sc.toNat) } 1 0 [])) := by
      change execCctl op a k sc s = _
      unfold execCctl
      have hr : Reads s { memInfo a false false with fnBad := decide (2 < op.toNat), scopeBad := decide (5 < sc.toNat) }
        (memSrcs { memInfo a false false with fnBad := decide (2 < op.toNat), scopeBad := decide (5 < sc.toNat) } [] k) vals u := hr
      simp only [cap] at ha
      simp only [hr.1, hr.2, after_ok, foldRes_unit_ok ha]
      rfl
    refine ⟨fun hf => by rw [hx, hf]; rfl, fun i e x hf hl hn => ?_⟩
    rw [hx, hf]
    simp only [hl, hn]
    rfl

/-! ### Streams and uniform accesses (R285 to R287, R243) -/

theorem unifCheck_of_once {s : State} {o : OpInfo} {srcs : List Src} (h : Once s o srcs) : unifCheck s o srcs = .ok true := by
  obtain ⟨hc, hr, ha⟩ := h
  unfold unifCheck
  simp only [hc, (checkReady_ok hr).1, (checkReady_ok hr).2, after_ok, ha, Bool.not_false]

/-- Streams keep their positions while results are written. -/
theorem AtMostGroup.pos {s t : State} (h : AtMostGroup s t) : (curGroup t).regs.pos = (curGroup s).regs.pos := by
  rcases h with rfl | ⟨g, rfl, hk⟩
  · rfl
  · rw [curGroup_setCur]
    have h := congrArg (fun x : Group => x.regs.pos) hk.rest
    exact h

theorem retire_regs (s : State) : (curGroup (retire s)).regs = (curGroup s).regs := by
  rw [retire_group, (countSlot_rest _).1, (advanceAll_rest ..).1]

/-- The state after stpos has written the positions. -/
def stposWritten (s : State) (e : Nat) (d : BitVec 7) : State :=
  writeNames d (2 + patLat [d]) [(upTo 32).map (fun i => linearPos (curGroup s) e (i / 4))] s (upTo 1)

/-- The same with the active quads' positions back at the start, where stpos resets them. -/
def stposEffect (s : State) (e : Nat) (d : BitVec 7) (r : BitVec 1) : State :=
  if r = 0 then stposWritten s e d
  else setCur (stposWritten s e d) { curGroup (stposWritten s e d) with regs := { (curGroup (stposWritten s e d)).regs with
    pos := (activeQuads s).foldl (fun m q => eraseKey m (8 * q + e)) (curGroup (stposWritten s e d)).regs.pos } }

theorem exec_stpos {s : State} {e : BitVec 3} {d : BitVec 7} (r : BitVec 1) (h : LaneRuns s { astr := true, dst := some d } [] d 1)
    (he : (curGroup s).regs.defined.getLsbD e.toNat = true) :
    exec (.stpos e d r) s = .next (retire (stposEffect s e.toNat d r)) := by
  have hw : writeDst s d (2 + patLat [d]) [(upTo 32).map (fun i => linearPos (curGroup s) e.toNat (i / 4))]
      = .ok (stposWritten s e.toNat d) := writeDst_reg h.reg h.peak h.credit
  change execStpos e d r s = _
  unfold execStpos stposEffect
  simp only [h.slot, he, laneOp_runs h, hw, Bool.not_true, Bool.false_eq_true, if_false]
  split <;> rfl

theorem stposEffect_lanes (s : State) (e : Nat) (d : BitVec 7) (r : BitVec 1) :
    (curGroup (stposEffect s e d r)).regs.lanes = (curGroup (stposWritten s e d)).regs.lanes := by
  unfold stposEffect
  split
  · rfl
  · rw [curGroup_setCur]

section
variable {s : State} {d : BitVec 7} (hd : ∀ k ∈ upTo 1, nameOf (curGroup s) d + k ≤ 251) (e : Nat) (r : BitVec 1)
include hd

theorem stposWritten_atMost : AtMostGroup s (stposWritten s e d) := atMost_writeNames d _ _ _ s hd

theorem stposEffect_pos : (curGroup (stposEffect s e d r)).regs.pos = if r = 0 then (curGroup s).regs.pos
    else (activeQuads s).foldl (fun m q => eraseKey m (8 * q + e)) (curGroup s).regs.pos := by
  rw [← (stposWritten_atMost hd e).pos]
  unfold stposEffect
  split
  · rfl
  · rw [curGroup_setCur]

theorem stposEffect_frame : (stposEffect s e d r).cur = s.cur ∧ (stposEffect s e d r).clock = s.clock
    ∧ SameMemory s (stposEffect s e d r) := by
  have hl : SameLanes s (stposWritten s e d) := sameLanes_writeNames d _ _ _ s hd
  have hm := (stposWritten_atMost hd e).sameMemory
  unfold stposEffect
  split
  · exact ⟨hl.cur, hl.clock, hm⟩
  · exact ⟨hl.cur, hl.clock, hm.trans (sameMemory_setCur _ _)⟩

theorem stposEffect_wrote : Wrote s (retire (stposEffect s e d r)) d 1 (fun i _ => linearPos (curGroup s) e (i / 4)) := by
  intro i k hi hk
  have hv := writeNames_self d (2 + patLat [d]) [(upTo 32).map (fun i => linearPos (curGroup s) e (i / 4))] i k (upTo 1) List.nodup_range
    ((mem_upTo 1 k).2 hk) s hd hi
  obtain rfl : k = 0 := by omega
  rw [laneOf_retire, laneOf_eq, laneIn, stposEffect_lanes]
  exact hv.trans (getD_map_upTo (fun i => linearPos (curGroup s) e (i / 4)) 32 i 0 (activeLanes_lt hi.1))

end

/-- Settles O24: the operations of streams and of uniform accesses, and what stpos leaves. -/
theorem streamsAndUniformAccess : Obligations.StreamsAndUniformAccess := by
  intro s e q o r a d u v c w k g words n
  refine ⟨fun ho hb => ?_, fun ho => ⟨fun h1 => ?_, fun h0 hd => ?_⟩, fun hr hd => ?_, fun i cap off bs t hc ho hf ha hb => ?_,
    fun i cap off x t y hc ho hf ha hd hk hh => ?_⟩
  · obtain ⟨hc, hr, ha⟩ := ho
    simp only [words, g] at hb
    change execStdef e a s = _
    unfold execStdef
    simp only [hc, (checkReady_ok hr).1, (checkReady_ok hr).2, after_ok, ha, hb, Bool.false_eq_true, if_false]
    rfl
  · subst h1
    obtain ⟨hc, hr, ha⟩ := ho
    change execStbind e 1 q s = _
    unfold execStbind
    simp only [hc, (checkReady_ok hr).1, (checkReady_ok hr).2, after_ok, ha, Bool.false_eq_true, if_false, if_true]
    rfl
  · obtain ⟨hc, hr, ha⟩ := ho
    change execStbind e o q s = _
    unfold execStbind
    simp only [g] at hd
    have h1 : o ≠ 1 := h0 ▸ (by decide)
    simp only [hc, (checkReady_ok hr).1, (checkReady_ok hr).2, after_ok, ha, h1, hd, Bool.not_true, Bool.false_eq_true, if_false]
    rfl
  · have hn := dst_names_le hr.dst hr.reg
    obtain ⟨hcur, hclock, hm⟩ := stposEffect_frame hn e.toNat r
    exact ⟨_, exec_stpos r hr hd, stposEffect_wrote hn _ r, wentTo_retire hcur hclock, hm.trans (sameMemory_setCur _ _),
      (congrArg Regs.pos (retire_regs _)).trans (stposEffect_pos hn _ r)⟩
  · simp only [n] at ha hb
    change execSld c d u k w s = _
    unfold execSld
    simp only [counted_of_free hc, unifCheck_of_once ho, hf, Option.getD_some, ha, hb]
    rfl
  · simp only [n, g] at ha hk hh
    change execSst c d u k w s = _
    unfold execSst
    simp only [counted_of_free hc, unifCheck_of_once ho, hf, Option.getD_some, ha, hd, hk, hh]
    rfl
end Sys2Proof.Machine

/-!
PROOFS. Every instruction and step goes on (O55), what a step runs (spec/06 R130, R153, R154, R156, O54), and the reset state (O57).
-/

namespace Sys2Proof.Machine

/-! ### Every outcome is a next state (O55) -/

/-- The machine goes on: the outcome is a next state. -/
def Goes (o : Out) : Prop := ∃ t, o = .next t

theorem goes_next (s : State) : Goes (.next s) := ⟨s, rfl⟩

theorem goes_finish (s : State) (r : Res State) : Goes (finish s r) := by
  cases r with
  | ok t => exact goes_next _
  | error a => exact goes_next _

theorem goes_ite {c : Prop} [Decidable c] {a b : Out} (ha : Goes a) (hb : Goes b) : Goes (if c then a else b) := by
  split
  · exact ha
  · exact hb

theorem goes_onSfu (s : State) (r : Res State) : Goes (onSfu s r) := by
  cases r with
  | ok t => exact goes_ite (goes_finish _ _) (goes_finish _ _)
  | error e => exact goes_finish _ (.error e)

theorem goes_finishFlow (s : State) (r : Res (State × FMap Quad)) : Goes (finishFlow s r) := by
  cases r with
  | ok x => exact goes_next _
  | error e => exact goes_finish _ (.error e)

theorem goes_finishRegionBy (s : State) (ret : State → State) (r : Res State) : Goes (finishRegionBy s ret r) := by
  refine goes_ite (goes_next _) ?_
  cases r with
  | ok t => exact goes_next _
  | error e => exact goes_finish _ (.error e)

theorem goes_finishReleaseWith (s : State) (ret : State → State) (check : Res Unit) (r : State → Res State) :
    Goes (finishReleaseWith s ret check r) := by
  refine goes_ite (goes_next _) ?_
  cases check with
  | ok u => exact goes_finishRegionBy _ _ _
  | error e => exact goes_finish _ (.error e)

theorem goes_exit (s : State) : Goes (execExit s) := by
  unfold execExit
  cases checkSlot s {} with
  | error e => exact goes_finish _ _
  | ok u =>
    cases checkReady s [] [] with
    | error e => exact goes_finish _ _
    | ok u => exact goes_ite (goes_next _) (goes_next _)

theorem goes_regang (s : State) : Goes (execRegang s) := by
  unfold execRegang
  cases checkSlot s { p0 := true } with
  | error e => exact goes_finish _ _
  | ok u => exact goes_ite (goes_finish _ _) (goes_ite (goes_ite (goes_next _) (goes_finish _ _)) (goes_next _))

theorem goes_yield (s : State) : Goes (execYield s) := by
  unfold execYield
  cases checkSlot s { p0 := true } with
  | error e => exact goes_finish _ _
  | ok u => exact goes_next _

theorem goes_bwait (a : BitVec 5) (s : State) : Goes (execBwait a s) := by
  unfold execBwait
  cases unifCheck s {} [.unif a.toNat] with
  | error e => exact goes_finish _ _
  | ok act =>
    cases act with
    | false => exact goes_finish _ _
    | true =>
      refine goes_ite (goes_finish _ _) (goes_ite (goes_finish _ _) ?_)
      dsimp only
      cases oldestFailed (curGroup s).batch (readUnif (curGroup s) s.clock a.toNat).toNat with
      | none => exact goes_finish _ _
      | some x => exact goes_finish _ _

theorem goes_barAw (a : BitVec 5) (s : State) : Goes (execBarAw a s) := by
  unfold execBarAw
  cases abandoned s with
  | some p => exact goes_finishRegionBy _ _ _
  | none => exact goes_finishReleaseWith _ _ _ _

theorem goes_spbar (g : BitVec 6) (b : BitVec 2) (s : State) : Goes (execSpbar g b s) := by
  unfold execSpbar
  cases abandoned s with
  | some p => exact goes_finishRegionBy _ _ _
  | none => exact goes_finishReleaseWith _ _ _ _

theorem goes_extinv (a : BitVec 5) (s : State) : Goes (execExtinv a s) := by
  unfold execExtinv
  cases unifCheck s { sup := true } [.unif a.toNat] with
  | error e => exact goes_finish _ _
  | ok act =>
    cases act with
    | false => exact goes_next _
    | true => exact goes_next _

theorem goes_wfi (s : State) : Goes (execWfi s) := by
  unfold execWfi
  cases unifCheck s { sup := true } [] with
  | error e => exact goes_finish _ _
  | ok act => exact goes_next _

theorem goes_hlt (i : BitVec 14) (s : State) : Goes (execHlt i s) := by
  unfold execHlt
  cases unifCheck s { sup := true } [] with
  | error e => exact goes_finish _ _
  | ok act =>
    cases act with
    | false => exact goes_next _
    | true => exact goes_ite (goes_next _) (goes_next _)

/-- Instructions end in `finish` or in what ends a region, a flow or the special-function unit; events end in a next state. -/
theorem exec_goes (i : Instr) (s : State) : Goes (exec i s) := by
  cases i with
  | fdiv | fsqrt | frcp | frsq | fex2 | flg2 | fsinpi | fcospi => exact goes_onSfu _ _
  | br | brx | call | ret | join | rfe => exact goes_finishFlow _ _
  | region | uret => exact goes_finishRegionBy _ _ _
  | usig | stRel | atom | atomb | fatom | publish | sqput | sqget | msend | mpost | tnext | tdone | tmap | barInit | barReg | barArr
  | barWait | barDrop | syscall | trap => exact goes_finishReleaseWith _ _ _ _
  | fence => exact goes_ite (goes_finish _ _) (goes_finishReleaseWith _ _ _ _)
  | regang => exact goes_regang s
  | exit => exact goes_exit s
  | yield => exact goes_yield s
  | bwait a => exact goes_bwait a s
  | barAw a => exact goes_barAw a s
  | spbar g b => exact goes_spbar g b s
  | extinv a => exact goes_extinv a s
  | wfi => exact goes_wfi s
  | hlt i => exact goes_hlt i s
  | dieLinkCrcRetry | regionCommit | waitSatisfied => exact goes_ite (goes_next _) (goes_next _)
  | powerCycle | managementReset | bootImageCheck | bootSelfTest | bootFirmwareLoad | bootKernelLoad | bootPartitionStart
  | freezeAssert | freezeRelease | statusQuery | attestationRequest | partitionCreate | partitionDestroy | sliceLoadRequest
  | guestSliceRequest | sliceStore | l1Invalidate | storeAck | lineReply | portWriteBack | portExtentMiss | walkComplete
  | pageFaultResponse | shootdownReceive | shootdownAck | guestEpochStepDone | atomicUnitRequest | atomicGrantLapse | flitHop
  | injectionYield | circuitSetup | circuitRelease | circuitIdleTimeout | requestRetryTimeout | hbmRowIdleClose | hbmRefresh
  | patrolScrub | backInvalidateSnoop | cxlPortDown | externalWriteArrival | externalWriteApply | remoteAccessRequest | doorbellWrite
  | strcfgEnable | strcfgResume | copyStart | copyWriteAck | copyComplete | copyPageFaultHold | chstatAbort | chstatResume
  | driveCompletion | storageTimeout | poolsplitWrite | teamAdmission | groupInstantiate | groupRetire | creditEviction
  | creditReadmit | bundlePlacement | laterWaveAdmission | placementBlockTimeout | matrixOpComplete | wbldPageFaultHold | mseqAbort
  | mseqResume | groupEnd | candidateAging | trapTake | coreStop | userInterruptDelivery | messageArrival | slTimer
  | slDeviceInterrupt | slInterruptTake | sltcmpWrite | registerWrite | firmwareStep | nopPacket | padPacket | launchPacket
  | copyPacket | signalPacket | waitPacket | publishPacket | abortPacket | timestampPacket | watchdogTimeout | fallbackTurn
  | firmwareRebootDone | triggerSignal | bundleRetire | bundleAbort | fredLogApply | fredctlAbort | fredctlResume | debugStop
  | dbgctlHalt | dbgcmdResume | dbgcmdRunToLimit | dbgcmdEndLaunch | trsizeWrite | trtailWrite | pcSample | orderGateTimeout
  | stallClock | yieldTimeout | deviceDmaRead | externalLinkDown | scanChainShift => exact goes_next _
  | _ => exact goes_finish _ _

theorem goes_afterwards {o : Out} (f : State → State) (h : Goes o) : Goes (afterwards o f) := by
  obtain ⟨t, rfl⟩ := h
  exact goes_next _

theorem step_goes (s : State) : Goes (step s) := by
  unfold step
  cases nextAction s with
  | event e t => exact exec_goes _ _
  | slot i x t => exact goes_afterwards _ (exec_goes _ _)
  | ahead i x w t =>
    rcases takeAhead_cases s x w t i (exec i t) with h | ⟨u, hu, h⟩
    · exact ⟨_, h⟩
    · exact ⟨_, h⟩
  | aheadFails x => exact goes_next _
  | abort a x t => exact goes_afterwards _ (goes_finish _ _)
  | idle => exact goes_next _
  | stopped => exact goes_next _

/-- Settles O55: no exit of an instruction, an event or a step is a fault or a refusal. -/
theorem progress : Obligations.Progress := ⟨exec_goes, step_goes⟩
/-! ### What a step runs (O54) -/

theorem takeDue_cons {s : State} (hf : s.frozen = false) {e : Due} {r : List Due} (hd : s.due = e :: r) :
    takeDue s = some (e, { s with due := r }) := by
  simp only [takeDue, hf, hd, Bool.false_eq_true, if_false]

theorem takeDue_nil {s : State} (hf : s.frozen = false) (hd : s.due = []) : takeDue s = none := by
  simp only [takeDue, hf, hd, Bool.false_eq_true, if_false]

theorem nextAction_of_pick {s : State} (hf : s.frozen = false) (hd : s.due = []) (hp : parkedDelivery s = none) {turn : Nat} {x : Candidate}
    (hk : pick s = some (turn, x)) : nextAction s = candidateAction s turn x := by
  rw [nextAction, takeDue_nil hf hd, hp, hk]
  simp only [hf, Bool.false_eq_true, if_false]

theorem candidateAction_of_slot {s : State} {turn : Nat} {x : Candidate} (ha : aheadReady s x = false) :
    candidateAction s turn x = slotAction s turn x := by
  unfold candidateAction
  rw [if_neg (Bool.eq_false_iff.1 ha)]

section
variable {s : State} {turn : Nat} {x : Candidate} (hb : boundaryEvent s x = none)
include hb

theorem slotAction_of_ok {i : Instr} {t : State} (hf : fetchInstr { s with turn := turn } x = .ok (i, t)) :
    slotAction s turn x = .slot i x t := by
  simp only [slotAction, hb, hf]

theorem slotAction_of_error {a : Abort} (hf : fetchInstr { s with turn := turn } x = .error a) :
    slotAction s turn x = .abort a x (preLatch { s with turn := turn } x) := by
  simp only [slotAction, hb, hf]

end

theorem candidateAction_of_ahead {s : State} {turn : Nat} {x : Candidate} {a : Ahead} (ha : aheadReady s x = true)
    (hn : nextAhead s x = some a) : candidateAction s turn x = aheadAction s turn x a := by
  unfold candidateAction
  rw [if_pos ha, hn]

section
variable {s v : State} {x : Candidate} {pc : Word} {bs : List Byte} (hc : fetchCourse s x.core x.slot (pc.toNat / 16 * 16) = .ok (bs, v))
  (hs : (instrSlots (lmapOf bs)).contains (pc.toNat % 4) = true)
include hc hs

theorem fetchAt_of_decode {i : Instr} (hd : decode (courseWord bs (pc.toNat % 4 + 1)) = .ok i) :
    fetchAt s x pc = .ok (i, { v with cur := latchOf x pc bs }) := by
  simp only [fetchAt, hc, hs, hd, Bool.not_true, Bool.false_eq_true, if_false]

theorem fetchAt_of_refused {e : DecodeError} (hd : decode (courseWord bs (pc.toNat % 4 + 1)) = .error e) :
    fetchAt s x pc = illegal (if e = .reservedScope then scopeCode (courseWord bs (pc.toNat % 4 + 1)) (latchOf x pc bs) else decodeCode e) := by
  simp only [fetchAt, hc, hs, hd, Bool.not_true, Bool.false_eq_true, if_false]
  cases e <;> rfl

end

/-- Settles O54: what a step runs, by what the machine does next. -/
theorem stepRunsInstruction : Obligations.StepRunsInstruction := by
  intro s hf
  refine ⟨fun turn x bs v hd hp hk ha hb => ?_, fun turn x a bs v i u hd hp hk ha hn hc hs hw he => ?_, fun e r hd => ?_,
    fun e hd hp => ?_, fun hd hp hk => ?_⟩
  · intro t pc w hc hs
    have hact := (nextAction_of_pick hf hd hp hk).trans (candidateAction_of_slot ha)
    refine ⟨fun i u hw he => ?_, fun e hw => ?_⟩
    · rw [step, hact, slotAction_of_ok hb (fetchAt_of_decode hc hs hw)]
      simp only [he, afterwards]
    · rw [step, hact, slotAction_of_error hb (fetchAt_of_refused hc hs hw)]
      rfl
  · rw [step, nextAction_of_pick hf hd hp hk, candidateAction_of_ahead ha hn, aheadAction, fetchAt_of_decode hc hs hw]
    simp only [he]
  · rw [step, nextAction, takeDue_cons hf hd]
  · rw [step, nextAction, takeDue_nil hf hd]
    simp only [hf, hp, Bool.false_eq_true, if_false]
  · rw [step, nextAction, takeDue_nil hf hd]
    simp only [hf, hp, hk, Bool.false_eq_true, if_false]

/-! ### Reset (O57) -/

theorem locked_of_freeze_scan {s t u : State} (ht : exec .freezeAssert s = .next t) (hu : exec .scanChainShift t = .next u)
    (hd : s.due = []) : u.locked = true := by
  obtain rfl : { s with frozen := true } = t := Host.Outcome.next.inj ht
  obtain rfl : { s with frozen := true, scanned := true } = u := Host.Outcome.next.inj hu
  simp only [State.locked, hd, List.all_nil, Bool.and_true]

/-- Settles O57: the values of the reset state, and the way into the locked state. -/
theorem resetState : Obligations.ResetState :=
  ⟨rfl, rfl, fun _ => ⟨rfl, rfl⟩, fun _ => ⟨rfl, rfl⟩, rfl, rfl, rfl, fun _ _ _ => locked_of_freeze_scan⟩
end Sys2Proof.Machine

/-!
PROOFS. System and debug instructions (spec/16 R349 to R363, spec/17 R370, R371, spec/18 R394): control registers, privileged traps, calls and
records, queues and saves.
-/

namespace Sys2Proof.Machine

/-! ### Control registers read back (O36) -/

/-- The low bits of a word are its bits under a mask of ones. -/
theorem zeroExtend_truncate_eq_and (v : Word) (k : Nat) : (v.truncate k).zeroExtend 32 = v &&& BitVec.ofNat 32 (2 ^ k - 1) := by
  apply BitVec.eq_of_getLsbD_eq
  intro i hi
  simp only [BitVec.truncate_eq_setWidth, BitVec.getLsbD_setWidth, BitVec.getLsbD_and, BitVec.getLsbD_ofNat, Nat.testBit_two_pow_sub_one, hi,
    decide_true, Bool.true_and]
  exact Bool.and_comm _ _

theorem ite_bit_eq_and_one (v : Word) : (if v.getLsbD 0 then (1 : Word) else 0) = v &&& 1 := by
  rw [show (1 : Word) = 1#32 from rfl, BitVec.and_one_eq_setWidth_ofBool_getLsbD]
  cases v.getLsbD 0 <;> rfl

theorem zeroExtend_and_not_truncate (c : BitVec 7) (v : Word) :
    (c &&& ~~~(v.truncate 7)).zeroExtend 32 = c.zeroExtend 32 &&& ~~~v := by
  apply BitVec.eq_of_getLsbD_eq
  intro i hi
  by_cases h : i < 7
  · simp [h, hi]
  · simp [h, BitVec.getLsbD_of_ge c i (Nat.le_of_not_lt h)]

/-- A partition's register after a write through a core: the core's partition has the field as written. -/
theorem getPart_writePart (s : State) (c : Nat) (f : Partition → Partition) :
    getPart (writePart s c f) (getCore (writePart s c f) c).part = f (getPart s (getCore s c).part) :=
  getPart_setPart _ _ _

/-- The lane registers of a core after a write of one of them. -/
theorem getCore_setLane (s : State) (c : Nat) (r : LaneRegs) :
    (getCore (setCore s c { getCore s c with lane := r }) c).lane = r := by
  rw [getCore_setCore]

section
variable (s : State) (c : Nat) (v : Word)

theorem csrValue_pinquota {n : Nat} (h : 0x820 ≤ n) (k : n ≤ 0x82F) : csrValue s c n
    = some (lookup (getPart s (getCore s c).part).pinquota (n - 0x820) 0) := by
  have ha : n ≠ 0x800 ∧ n ≠ 0x801 ∧ n ≠ 0x810 ∧ n ≠ 0x811 ∧ n ≠ 0x812 := by omega
  simp [csrValue, ha, h, k]

theorem writeRegister_pinquota {n : Nat} (h : 0x820 ≤ n) (k : n ≤ 0x82F) : writeRegister s c n v
    = writePart s c (fun p => { p with pinquota := insertKey p.pinquota (n - 0x820) v }) := by
  have ha : n ≠ 0x800 ∧ n ≠ 0x801 ∧ n ≠ 0x810 ∧ n ≠ 0x811 ∧ n ≠ 0x812 := by omega
  simp [writeRegister, ha, h, k]

end

/-- Settles O36: register by register, what a write leaves and a read finds. -/
theorem registerWriteRead : Obligations.RegisterWriteRead := by
  intro s c n v
  refine ⟨?_, ?_, ?_, ?_, ?_, ?_, ?_, ?_, ?_, ?_⟩
  · rintro rfl
    exact congrArg (fun p : Partition => some p.otlen) (getPart_writePart s c (fun p => { p with otlen := v }))
  · rintro (rfl | rfl | rfl)
    · exact congrArg (fun p : Partition => some p.otbase) (getPart_writePart s c (fun p => { p with otbase := v &&& 0x1FFFFFFF }))
    · exact congrArg (fun p : Partition => some p.zbbase) (getPart_writePart s c (fun p => { p with zbbase := v &&& 0x1FFFFFFF }))
    · exact congrArg (fun p : Partition => some p.prmbase) (getPart_writePart s c (fun p => { p with prmbase := v &&& 0x1FFFFFFF }))
  · rintro rfl
    exact congrArg (fun p : Partition => some p.prmlen) (getPart_writePart s c (fun p => { p with prmlen := v &&& 0x0FFFFFFF }))
  · intro h k
    rw [csrValue_pinquota _ _ h k, writeRegister_pinquota s c v h k, getPart_writePart]
    exact congrArg some (lookup_insertKey_self _ _ _ _)
  · rintro rfl
    refine (congrArg (fun k : Core => some (k.sbcheck.zeroExtend 32)) (getCore_setCore s c _)).trans (congrArg some ?_)
    exact zeroExtend_truncate_eq_and v 2
  · rintro rfl
    refine (congrArg (fun r => some (laneReg r 0)) (getCore_setLane s c _)).trans (congrArg some ?_)
    exact ite_bit_eq_and_one v
  · rintro (rfl | rfl)
    · exact congrArg (fun r => some (laneReg r 1)) (getCore_setLane s c _)
    · exact congrArg (fun r => some (laneReg r 2)) (getCore_setLane s c _)
  · rintro rfl
    refine (congrArg (fun r => some (laneReg r 4)) (getCore_setLane s c _)).trans (congrArg some ?_)
    exact zeroExtend_truncate_eq_and v 7
  · rintro w rfl hw
    obtain rfl : laneReg (getCore s c).lane 3 = w := Option.some.inj hw
    refine (congrArg (fun r => some (laneReg r 3)) (getCore_setLane s c _)).trans (congrArg some ?_)
    exact zeroExtend_and_not_truncate _ v
  · rintro w rfl hw
    exact hw

/-! ### Privileged instructions in a user group (O37) -/

/-- A slot that meets no row of Table 7-11 but is for the supervisor alone meets that row in a user group. -/
theorem slotFault_sup {s : State} {o : OpInfo} (h : slotFault s o = none) (hs : isSuper s = false) (f : Option (BitVec 7)) (r : Bool)
    (hr : r = o.rangeBad) : slotFault s { o with sup := true, srcD := f, rangeBad := r } = some 0x03 := by
  subst hr
  unfold slotFault at h ⊢
  exact row_passed h fun h => row_passed h fun h => row_passed h fun h => row_passed h fun h => row_passed h fun h =>
    row_passed h fun h => row_passed h fun h => row_passed h fun h => row_passed h fun h => row_passed h fun h =>
    row_passed h fun h => row_passed h fun h => row_passed h fun _ => if_pos (by rw [hs]; rfl)

theorem checkSlot_of_slotFault {s : State} {o : OpInfo} {c : Nat} (h : slotFault s o = some c) : checkSlot s o = illegal c := by
  rw [checkSlot, h]

theorem unifCheck_of_slotFault {s : State} {o : OpInfo} {c : Nat} (h : slotFault s o = some c) (srcs : List Src) :
    unifCheck s o srcs = illegal c := by
  rw [unifCheck, checkSlot_of_slotFault h]
  rfl

theorem readSources_of_slotFault {s : State} {o : OpInfo} {c : Nat} {srcs : List Src}
    (h : slotFault s { o with rangeBad := o.rangeBad || srcs.any (srcRange s) } = some c) : readSources s o srcs = illegal c := by
  rw [readSources, checkSlot_of_slotFault h]
  rfl

/-- Settles O37: the row of Table 7-11 for the supervisor is met first, and ends the check of the slot. -/
theorem privilegedTraps : Obligations.PrivilegedTraps := by
  intro s i o hi h hs
  have hsup := fun f => slotFault_sup h hs f o.rangeBad rfl
  rcases hi with ⟨d, a, rfl, rfl⟩ | ⟨a, b, rfl, rfl⟩ | ⟨a, rfl, rfl⟩ | ⟨rfl, rfl⟩ | ⟨c, d, a, k, t, rfl, hc, rfl⟩
    | ⟨c, d, a, k, t, rfl, hc, hd, rfl⟩ | ⟨n, rfl, rfl⟩
  · change execSvtake d a s = _
    rw [execSvtake, unifCheck_of_slotFault (hsup none)]
    rfl
  · change execSvpost a b s = _
    rw [execSvpost, readSources_of_slotFault (hsup none)]
    rfl
  · change execExtinv a s = _
    rw [execExtinv, unifCheck_of_slotFault (hsup none)]
    rfl
  · change execWfi s = _
    rw [execWfi, unifCheck_of_slotFault (hsup none)]
    rfl
  · change execGsave c d a k t s = _
    unfold execGsave
    have hr := readSources_of_slotFault (o := { sup := true, srcA := some a, srcD := some d }) (srcs := [.reg a 0, .reg d 0, .cap k.toNat])
      (hsup (some d))
    simp only [counted_of_free hc, hr]
    rfl
  · change execGrest c d a k t s = _
    unfold execGrest
    have hr := readSources_of_slotFault (o := { sup := true, srcA := some a, dst := some d }) (srcs := [.reg a 0, .cap k.toNat]) (hsup none)
    simp only [hd, Bool.false_eq_true, if_false, counted_of_free hc, hr]
    rfl
  · change execHlt n s = _
    rw [execHlt, unifCheck_of_slotFault (hsup none)]
    rfl

/-! ### Debug instructions (O39) -/

theorem oneGroup_writeUnif (s : State) (d lat : Nat) (v : Word) : OneGroup s (writeUnif s d lat v) := ⟨_, rfl, Keeps.of rfl rfl rfl⟩

theorem lookup_writeUnif_ne (s : State) {d u : Nat} (h : u ≠ d) (lat : Nat) (v : Word) :
    lookup (curGroup (writeUnif s d lat v)).regs.unif u 0 = lookup (curGroup s).regs.unif u 0 := by
  unfold writeUnif
  rw [curGroup_setCur]
  exact lookup_insertKey_ne _ h _ _

theorem takeTrap_debug {s : State} (h : isLane s = false) {t : Trap} (hc : t.cls = 2) (h1 : t.code = 1) (hp : t.place = none) :
    takeTrap s t = pushDue s [⟨.debugStop,
      { core := s.cur.core, unit := s.cur.slot, value := 1, extra := (curRegion (curGroup s)).slots + 1, obj := t.number, off := 0 }⟩] := by
  have h8 : (1 : Nat) ≠ 8 := by decide
  simp only [takeTrap, h, hc, hp, debugSteps, h1, h8, Option.getD_none, Nat.lt_irrefl, beq_self_eq_true, Bool.false_eq_true, if_false, if_true]

/-- What wcoord leaves. -/
def coordWritten (s : State) (d : Nat) : State :=
  writeUnif (writeUnif (writeUnif s d 2 (curGroup s).wg) (d + 1) 2 (curRegion (curGroup s)).serial) (d + 2) 2
    (wordOf (curRegion (curGroup s)).slots)

theorem unif_retire (s : State) (u : Nat) : lookup (curGroup (retire s)).regs.unif u 0 = lookup (curGroup s).regs.unif u 0 := by
  rw [retire_regs]

/-- Settles O39: each debug instruction, with its group's checks passed. -/
theorem debugInstructions : Obligations.DebugInstructions := by
  intro s i d a r
  refine ⟨fun ho => ⟨fun hb => ?_, fun hl hd hn => ?_, ?_⟩, laneResult_of rfl, fun ho => ⟨retire (coordWritten s r.toNat), ?_, ?_⟩⟩
  · change execBrk i s = _
    have hb : (!isLane s && debugEnabled s s.cur.core s.cur.slot && !catchingUp (curGroup s)) = false := by
      rcases hb with h | h | h <;> simp [h]
    simp only [execBrk, unifCheck_of_once ho, Bool.true_and, hb, Bool.false_eq_true, if_false]
    rfl
  · change execBrk i s = _
    have hb : (!isLane s && debugEnabled s s.cur.core s.cur.slot && !catchingUp (curGroup s)) = true := by simp [hl, hd, hn]
    simp only [execBrk, unifCheck_of_once ho, Bool.true_and, hb, if_true]
    exact congrArg Host.Outcome.next (takeTrap_debug hl rfl rfl rfl)
  · change execMark i s = _
    simp only [execMark, unifCheck_of_once ho, Bool.true_and]
    rfl
  · change execWcoord r s = _
    simp only [execWcoord, unifCheck_of_once ho]
    rfl
  · refine ⟨?_, ?_, ?_, fun u hu => ?_, ?_, wentTo_retire rfl rfl⟩
    · rw [unif_retire, coordWritten, lookup_writeUnif_ne _ (by omega), lookup_writeUnif_ne _ (by omega), lookup_writeUnif]
    · rw [unif_retire, coordWritten, lookup_writeUnif_ne _ (by omega), lookup_writeUnif]
    · rw [unif_retire, coordWritten, lookup_writeUnif]
    · rw [unif_retire, coordWritten, lookup_writeUnif_ne _ (by omega), lookup_writeUnif_ne _ (by omega), lookup_writeUnif_ne _ (by omega)]
    · exact ((((oneGroup_writeUnif s _ _ _).trans (oneGroup_writeUnif _ _ _ _)).trans (oneGroup_writeUnif _ _ _ _)).trans
        (oneGroup_retire _)).frame

/-! ### Control registers (O35) -/

theorem checkSlot_of_readSources {s : State} {o : OpInfo} {srcs : List Src} {r : List Lanes × State} (hr : srcs.any (srcRange s) = false)
    (h : readSources s o srcs = .ok r) : checkSlot s o = .ok () := by
  unfold readSources at h
  rw [hr, Bool.or_false] at h
  cases hc : checkSlot s o with
  | ok u => rfl
  | error e =>
    simp only [hc] at h
    cases h

/-- A lane instruction whose own checks come after those of its slot. -/
theorem laneResult_of_slot {i : Instr} {s : State} {o : OpInfo} {srcs : List Src} {na nb : Nat} {d : BitVec 7} {n lat : Nat}
    {f : List Word → List Word × BitVec 5} (h : checkSlot s o = .ok () → exec i s = finish s (laneOp s o srcs na nb d n lat f)) :
    LaneResult i s o srcs na nb d n lat f := by
  cases hc : checkSlot s o with
  | ok u => exact laneResult_of (h hc)
  | error e =>
    refine ⟨fun hr => ?_, fun sv u v hs => ?_⟩
    · exact absurd (hc.symm.trans hr.slot) (by simp)
    · exact absurd (hc.symm.trans hs) (by simp)

/-- A WMARK register: an access to one is a module-scope acquire. -/
def isMark (n : Nat) : Bool := decide (0xC00 ≤ n) && decide (n ≤ 0xCFF)

theorem exec_csrr {s : State} {d : BitVec 7} {n : BitVec 12} {v : Word} (hc : checkSlot s { dst := some d } = .ok ())
    (hv : csrValue s s.cur.core n.toNat = some v) (hd : csrDenied s n.toNat false = false) :
    exec (.csrr d n) s = finish s ((laneOp s { dst := some d } [] 0 0 d 1 0 (fun _ => ([v], 0))).map
      (fun t => if isMark n.toNat && !(activeLanes s).isEmpty then acquireAt t 5 else t)) := by
  change execCsrr d n s = _
  simp only [execCsrr, hc, hv, hd, Bool.false_and, Bool.false_eq_true, if_false]
  cases laneOp s { dst := some d } [] 0 0 d 1 0 (fun _ => ([v], 0)) <;> rfl

theorem exec_csrr_of_plain {s : State} {d : BitVec 7} {n : BitVec 12} {v : Word} (hc : checkSlot s { dst := some d } = .ok ())
    (hv : csrValue s s.cur.core n.toNat = some v) (hd : csrDenied s n.toNat false = false) (hn : isMark n.toNat = false) :
    exec (.csrr d n) s = finish s (laneOp s { dst := some d } [] 0 0 d 1 0 (fun _ => ([v], 0))) := by
  simp only [exec_csrr hc hv hd, hn, Bool.false_and, Bool.false_eq_true, if_false]
  cases laneOp s { dst := some d } [] 0 0 d 1 0 (fun _ => ([v], 0)) <;> rfl

/-- Settles O35: reads, writes, and the instructions that wait. -/
theorem controlRegisters : Obligations.ControlRegisters := by
  intro s u d n a i
  refine ⟨fun v hv hd hn => laneResult_of_slot fun hc => ?_, fun v hv hd hlo hhi ha hc hu => ?_, fun v l hv hd hl hc => ?_,
    fun v vals l hv hd hr hl => ?_, fun ho => ?_, fun ho => ⟨fun hw => ?_, fun hw => ?_, fun hl => ?_, fun hl => ?_⟩⟩
  · have hm : isMark n.toNat = false := by
      rw [isMark, Bool.and_eq_false_iff, decide_eq_false_iff_not, decide_eq_false_iff_not]
      omega
    exact exec_csrr_of_plain hc hv hd hm
  · have hm : isMark n.toNat = true := by simp [isMark, hlo, hhi]
    rw [exec_csrr hc hv hd, hu, hm, ha]
    rfl
  · change execCsrr d n s = _
    simp only [execCsrr, hc, hv, hd, hl, Option.isSome_some, Bool.and_true, if_true]
    rfl
  · obtain ⟨hs, hk⟩ := hr
    change execCsrw d n s = _
    simp only [execCsrw, checkSlot_of_readSources rfl hs, hv, hs, hk, after_ok, hl, hd, Bool.false_eq_true, if_false]
    rfl
  · change execExtinv a s = _
    simp only [execExtinv, unifCheck_of_once ho]
  · change execWfi s = _
    simp only [execWfi, unifCheck_of_once ho, hw, Bool.not_true, Bool.false_or, if_true]
  · change execWfi s = _
    simp only [execWfi, unifCheck_of_once ho, hw, Bool.not_true, Bool.false_or, Bool.false_eq_true, if_false]
  · change execHlt i s = _
    simp only [execHlt, unifCheck_of_once ho, hl, if_true]
  · change execHlt i s = _
    simp only [execHlt, unifCheck_of_once ho, hl, Bool.false_eq_true, if_false]

/-! ### Calls and records (O34) -/

theorem finishReleaseWith_of_ok {s u w : State} {r : State → Res State} (ret : State → State) (hu : Releases s u) (hw : r u = .ok w) :
    finishReleaseWith s ret (.ok ()) r = .next (endRegion (ret w) s.cur.core s.cur.slot) := by
  obtain ⟨hf, hu⟩ := hu
  simp only [finishReleaseWith, finishRegionBy, hf, hu, hw, Bool.false_eq_true, if_false]
  rfl

theorem finishReleaseBy_of_ok {s u v w : State} {r : State → Res State} (ret : State → State) (hu : Releases s u) (hv : r s = .ok v)
    (hw : r u = .ok w) : finishReleaseBy s ret r = .next (endRegion (ret w) s.cur.core s.cur.slot) := by
  rw [finishReleaseBy, hv]
  exact finishReleaseWith_of_ok ret hu hw

/-- A boundary instruction whose checks come to a trap. -/
theorem finishReleaseBy_of_trap {s : State} {r : State → Res State} {t : Trap} (ret : State → State) (hf : regionsFull s = false)
    (hr : r s = .error (.trap t)) : finishReleaseBy s ret r = .next (takeTrap s t) := by
  simp only [finishReleaseBy, finishReleaseWith, hf, hr, Bool.false_eq_true, if_false]
  rfl

theorem regionsFull_of_lane {s : State} (h : isLane s = true) : regionsFull s = false := by
  rw [regionsFull, h]
  rfl

/-- The records that syscall and trap post: one for each of some lanes. -/
def posted (t : State) (hs lanes : List Nat) (cls number : Nat) (detail : Nat → List Word) : State :=
  (upTo lanes.length).foldl (fun t i => laneRecord t (hs.getD i 0) (lanes.getD i 0) cls number (detail (lanes.getD i 0))) t

/-- What posting does once its region's own effects have performed. -/
def postOp (hs : List Nat) (cls number : Nat) (srcs : List Src) (lanes : List Nat) (detail : Nat → List Word) (t : State) : Res State :=
  match checkSlot t {} with
  | .error e => .error e
  | .ok () => match checkWait t srcs with
    | .error e => .error e
    | .ok () => after (checkUnder t srcs []) <|
      let t := noteDead t srcs
      if lanes.isEmpty then .ok t
      else if isLane t then trapNow cls 0
      else if hs.length < lanes.length then .error (.hold (.retry t.clock 12))
      else .ok (posted t hs lanes cls number detail)

theorem postRecords_eq (s : State) (cls number : Nat) (srcs : List Src) (lanes : List Nat) (detail : Nat → List Word) :
    postRecords s cls number srcs lanes detail
      = finishReleaseBy s (fun t => if lanes.isEmpty then retire t
          else retireParked t (.syscall ((freeHandles (getCore s s.cur.core)).take lanes.length)))
        (postOp ((freeHandles (getCore s s.cur.core)).take lanes.length) cls number srcs lanes detail) := rfl

theorem isLane_noteDead (s : State) (srcs : List Src) : isLane (noteDead s srcs) = isLane s := by
  unfold noteDead
  split <;> rfl

section
variable {t : State} {srcs : List Src} (hc : checkSlot t {} = .ok ()) (hr : checkReady t srcs [] = .ok ()) {lanes : List Nat}
  (hn : lanes.isEmpty = false) (cls number : Nat) (detail : Nat → List Word)
include hc hr hn

theorem postOp_of_lane (hs : List Nat) (hl : isLane t = true) : postOp hs cls number srcs lanes detail t = trapNow cls 0 := by
  simp only [postOp, hc, (checkReady_ok hr).1, (checkReady_ok hr).2, after_ok, hn, isLane_noteDead, hl, Bool.false_eq_true, if_false, if_true]

theorem postOp_of_free {hs : List Nat} (hl : isLane t = false) (hh : lanes.length ≤ hs.length) :
    postOp hs cls number srcs lanes detail t = .ok (posted (noteDead t srcs) hs lanes cls number detail) := by
  simp only [postOp, hc, (checkReady_ok hr).1, (checkReady_ok hr).2, after_ok, hn, isLane_noteDead, hl, Nat.not_lt.2 hh, Bool.false_eq_true,
    if_false]

end

/-- Enough records are free: a record for each lane is posted, and the candidate parks on them. -/
theorem postRecords_of_free {s u : State} {srcs : List Src} {lanes : List Nat} (hu : Releases s u) (hl : isLane s = false)
    (hm : isLane u = false) (hs : Once s {} srcs) (hw : Once u {} srcs) (hn : lanes.isEmpty = false)
    (hh : lanes.length ≤ (freeHandles (getCore s s.cur.core)).length) (cls number : Nat) (detail : Nat → List Word) :
    postRecords s cls number srcs lanes detail
      = .next (endRegion (retireParked (posted (noteDead u srcs) ((freeHandles (getCore s s.cur.core)).take lanes.length) lanes cls number detail)
          (.syscall ((freeHandles (getCore s s.cur.core)).take lanes.length))) s.cur.core s.cur.slot) := by
  obtain ⟨hc, hr, ha⟩ := hs
  obtain ⟨hd, hq, hb⟩ := hw
  have hk : lanes.length ≤ ((freeHandles (getCore s s.cur.core)).take lanes.length).length := by
    rw [List.length_take]
    omega
  rw [postRecords_eq, finishReleaseBy_of_ok _ hu (postOp_of_free hc hr hn cls number detail hl hk)
    (postOp_of_free hd hq hn cls number detail hm hk)]
  simp only [hn, Bool.false_eq_true, if_false]

/-- The supervisor lane traps in place of posting, which stops its core. -/
theorem postRecords_of_lane {s : State} {srcs : List Src} {lanes : List Nat} (hc : checkSlot s {} = .ok ()) (hr : checkReady s srcs [] = .ok ())
    (hl : isLane s = true) (hn : lanes.isEmpty = false) (cls number : Nat) (detail : Nat → List Word) :
    postRecords s cls number srcs lanes detail = .next (takeTrap s { cls := cls, code := 0 }) := by
  rw [postRecords_eq]
  exact finishReleaseBy_of_trap _ (regionsFull_of_lane hl) (postOp_of_lane hc hr hn cls number detail _ hl)

theorem firstLane_toList {s : State} (h : (activeLanes s).isEmpty = false) :
    (firstLane s).toList.isEmpty = false ∧ (firstLane s).toList.length = 1 := by
  unfold firstLane
  cases hl : activeLanes s with
  | nil => rw [hl] at h; cases h
  | cons i r => exact ⟨rfl, rfl⟩

/-- Lanes that svtake serves, the records that it takes for a word, and the quads that it writes. -/
def takeLanes (s : State) : List Nat := if isLane s then (activeLanes s).take 1 else activeLanes s
def takeHandles (s : State) (w : Nat) : List Nat := (takeable s (w % 2 ^ 15)).take (takeLanes s).length
def takeQuads (s : State) (w : Nat) : List Nat := (((takeLanes s).take (takeHandles s w).length).map (· / 4)).eraseDups

/-- A quad that svtake writes would pass its role's peak. -/
def takePast (s : State) (q : Nat) : Bool := decide (0 < takeFresh s q) && decide (peakOf s < liveRegs (curGroup s) q + takeFresh s q)

/-- The records given, each to its lane. -/
def takenBy (s : State) (w : Nat) : State :=
  (upTo (takeHandles s w).length).foldl (fun t i => giveRecord t ((takeHandles s w).getD i 0) ((takeLanes s).getD i 0)) s

/-- What svtake does with a well-formed word. -/
def svtakeOp (s : State) (d w : Nat) : Res State :=
  if (takeHandles s w).isEmpty then
    if w.testBit 31 then .ok (writeUnif s d 0 0) else .error (.hold (.svtake (w % 2 ^ 15)))
  else if (takeQuads s w).any (takePast s) then illegal 0x04
  else if (curGroup s).credit && decide (freeRegs s s.cur.core < (takeQuads s w).foldl (fun n q => n + takeFresh s q) 0) then
    .error (.hold (.noRegister s.clock))
  else .ok (writeUnif (setCore (takenBy s w) (takenBy s w).cur.core (noteIdle (getCore (takenBy s w) (takenBy s w).cur.core))) d 0
    (wordOf (takeHandles s w).length))

theorem exec_svtake {s : State} {d a : BitVec 5} {w : Nat} (hw : (readUnif (curGroup s) s.clock a.toNat).toNat = w)
    (ho : Once s { sup := true } [.unif a.toNat]) (h2 : w % 2 = 0) (hm : w / 2 ^ 15 % 2 ^ 16 = 0) (hk : takeName s + 15 ≤ 251) :
    exec (.svtake d a) s = finish s (svtakeOp s d.toNat w) := by
  have hbad : (decide (w % 2 = 1) || decide (w / 2 ^ 15 % 2 ^ 16 ≠ 0) || decide (251 < takeName s + 15)) = false := by
    rw [decide_eq_false (by omega), decide_eq_false (not_not_intro hm), decide_eq_false (Nat.not_lt.2 hk)]
    rfl
  change execSvtake d a s = _
  unfold execSvtake
  simp only [unifCheck_of_once ho, hw, hbad, Bool.not_true, Bool.false_eq_true, if_false]
  rfl

theorem takePast_of_room {s : State} {q : Nat} (h : takeFresh s q = 0 ∨ liveRegs (curGroup s) q + takeFresh s q ≤ peakOf s) :
    takePast s q = false := by
  rw [takePast, Bool.and_eq_false_iff, decide_eq_false_iff_not, decide_eq_false_iff_not]
  omega

theorem find?_eq_none_of_all {α : Type} {p : α → Bool} {l : List α} (h : ∀ x ∈ l, p x = false) : l.find? p = none :=
  List.find?_eq_none.2 fun x hx => Bool.eq_false_iff.1 (h x hx)

/-- Settles O34: calls and traps post, rfe and the supervisor's queue. -/
theorem callsAndRecords : Obligations.CallsAndRecords := by
  intro s u i d a x y
  refine ⟨?_, fun ho hl => ⟨fun hr => ?_, ?_, ?_⟩, fun hc hl => ?_, ?_, ?_⟩
  · intro hs post args hu hl hm
    refine ⟨fun h k hn => ?_, fun h k hn => ?_⟩
    · change execSyscall i s = _
      rw [execSyscall, h.2.2]
      exact postRecords_of_free hu hl hm h k h.2.2 hn 0xE i.toNat _
    · change execTrap i s = _
      obtain ⟨h0, h1⟩ := firstLane_toList h.2.2
      exact postRecords_of_free hu hl hm h k h0 (by rw [h1]; exact List.length_pos_iff.2 hn) 0xD i.toNat _
  · change execSyscall i s = _
    rw [execSyscall, ho.2.2]
    exact postRecords_of_lane ho.1 hr hl ho.2.2 0xE i.toNat _
  · change execTrap i s = _
    exact postRecords_of_lane ho.1 ho.2.1 hl (firstLane_toList ho.2.2).1 0xD i.toNat _
  · change execRfe s = _
    simp only [execRfe, ho.1, hl, ho.2.2, Bool.not_true, Bool.false_eq_true, if_false]
    rfl
  · change execRfe s = _
    simp only [execRfe, hc, hl, Bool.not_false, if_true]
    rfl
  · intro w lanes hs quads ho h2 hm hk
    refine ⟨fun he ht => ?_, fun he ht => ?_, fun hn hq hcr => ?_⟩
    · have he : takeHandles s w = [] := he
      rw [exec_svtake rfl ho h2 hm hk, svtakeOp, he, if_pos List.isEmpty_nil, if_pos ht]
      rfl
    · have he : takeHandles s w = [] := he
      rw [exec_svtake rfl ho h2 hm hk, svtakeOp, he, if_pos List.isEmpty_nil, if_neg (Bool.eq_false_iff.1 ht)]
      rfl
    · have hn : (takeHandles s w).isEmpty = false := List.isEmpty_eq_false_iff.2 hn
      have hp : (takeQuads s w).any (takePast s) = false := List.any_eq_false.2 fun q hx => Bool.eq_false_iff.1 (takePast_of_room (hq q hx))
      rw [exec_svtake rfl ho h2 hm hk, svtakeOp, hn, hp, hcr]
      rfl
  · intro o vals hr hl posts hp
    obtain ⟨hs, hk⟩ := hr
    have hf : posts.find? (fun p => !takenHere s p.2.1 || actionBad (getRec (getCore s s.cur.core) p.2.1) p.2.2) = none :=
      find?_eq_none_of_all fun p hm => by simp [hp p hm]
    change execSvpost x y s = _
    unfold execSvpost
    simp only [posts] at hf
    simp only [o] at hs
    simp only [hs, hk, after_ok, hf, hl, Bool.false_and, Bool.false_eq_true, if_false]
    rfl

/-! ### Queues and saves (O38) -/

/-- What grest leaves once the saved group or team is placed: its number in d. -/
def restoredTo (s : State) (a d : BitVec 7) (p : Nat × State) : Res State :=
  (writeDst p.2 d 0 [List.replicate 32 (wordOf p.1)]).map (fun u =>
    applyLast u { sup := true, srcA := some a, dst := some d } 1 0 (dstNames s (some d) 1))

theorem restoredTo_of_ok {s v : State} (a : BitVec 7) {d : BitVec 7} {p : Nat × State}
    (h : writeDst p.2 d 0 [List.replicate 32 (wordOf p.1)] = .ok v) :
    restoredTo s a d p = .ok (applyLast v { sup := true, srcA := some a, dst := some d } 1 0 (dstNames s (some d) 1)) := by
  rw [restoredTo, h]
  rfl

/-- Settles O38: qput's packet, gsave's area and its wait, grest's place and its wait for room. -/
theorem queuesAndSaves : Obligations.QueuesAndSaves := by
  intro s u c d a k t vals lane hc hl
  refine ⟨?_, ?_, ?_⟩
  · intro e x y z o g capOf cap off len raw fields image hr hcap hm hk hsv ho hlen hsb hf hmap hz
    subst hz
    obtain ⟨hs, hu⟩ := hr
    have hd : (isSvq x (getCore x x.cur.core).part e.id && !cap.rights.getLsbD 7) = false := by
      rw [Bool.and_eq_false_iff, Bool.not_eq_false']
      exact (Bool.eq_false_or_eq_true _).symm.imp_right hsv
    have hg : (fields.any (fun i => (capOf (imageWord raw (i + 1) % 16)).tag && !(capOf (imageWord raw (i + 1) % 16)).rights.getLsbD 6)) = false :=
      List.any_eq_false.2 fun i hi => by
        rw [Bool.and_eq_true_iff, Bool.not_eq_true', not_and, Bool.not_eq_false]
        exact hf i hi
    have ho := Nat.not_lt.2 ho
    have hlen := Nat.not_lt.2 hlen
    simp only [o, g, capOf, cap, off, len, raw, fields] at hs hcap hm hd hg ho hlen hsb
    change execQput c d a k s = _
    unfold execQput
    simp only [counted_of_free hc, hs, hu, after_ok, hl, hcap, hm, hk, ne_eq, not_true_eq_false, if_false, hd, hg, ho, hlen, hsb, hmap,
      Bool.false_eq_true]
    rfl
  · intro ar x y o n g idle hr hn hg hw ha
    obtain ⟨hs, hu⟩ := hr
    have hbad : (decide (63 < n) || !g.resident || (!isLane s && (n == s.cur.slot || (t == 1 && g.team == (curGroup s).team)))) = false := by
      rw [decide_eq_false (by omega), hg]
      rcases hw with h | ⟨h, k⟩
      · rw [h]; rfl
      · have h1 : (t == 1 && g.team == (curGroup s).team) = false := by
          by_cases ht : t = 1
          · simp [k ht]
          · rw [beq_eq_false_iff_ne.2 ht]
            rfl
        rw [h1, beq_eq_false_iff_ne.2 h]
        simp
    simp only [o] at hs
    simp only [n, g] at ha hbad
    refine ⟨fun hi => ?_, fun hi hy => ?_⟩
    · simp only [idle, g, n] at hi
      change execGsave c d a k t s = _
      unfold execGsave
      simp only [counted_of_free hc, hs, hu, after_ok, hl, hbad, ha, hi, Bool.not_false, Bool.false_eq_true, if_false, if_true]
      rfl
    · simp only [idle, g, n] at hi hy
      change execGsave c d a k t s = _
      unfold execGsave
      simp only [counted_of_free hc, hs, hu, after_ok, hl, hbad, ha, hi, hy, Bool.not_true, Bool.false_eq_true, if_false]
      rfl
  · intro ar x hd w y v o done hst hr cap ha hh
    obtain ⟨hs, hu⟩ := hr
    simp only [o] at hs
    simp only [cap] at ha
    refine ⟨fun ht hv hk hy => ?_, fun m ht hm hv hk hy => ?_⟩
    · subst ht
      rw [if_pos rfl] at ha
      simp only [cap] at hk
      have hx : exec (.grest c d a k 1) s = finish s (if !teamRoom y s.cur.core ar then
          .error (.hold (.restoring s.clock (areaNat y ar 4 4) (areaKey y ar)))
          else restoredTo s a d (restoreTeam y s.cur.core ar)) := by
        change execGrest c d a k 1 s = _
        unfold execGrest
        simp only [hst, counted_of_free hc, hs, hu, after_ok, hl, ha, hh, hv, hk, hy, Bool.not_true, Bool.false_eq_true, if_false, if_true]
        rfl
      refine ⟨fun hroom => ?_, fun hroom hw => ?_⟩
      · rw [hx, hroom]
        rfl
      · rw [hx, hroom, restoredTo_of_ok a hw]
        rfl
    · subst ht
      have h01 : (0 : BitVec 1) ≠ 1 := by decide
      rw [if_neg h01] at ha
      simp only [cap] at hk
      have hx : exec (.grest c d a k 0) s = finish s (if !groupRoom y s.cur.core ar then .error (.hold (.retry s.clock 15))
          else restoredTo s a d (restoreGroup y s.cur.core m ar)) := by
        change execGrest c d a k 0 s = _
        unfold execGrest
        simp only [hst, counted_of_free hc, hs, hu, after_ok, hl, h01, ha, hh, hm, hv, hk, hy, Bool.not_true, Bool.false_eq_true, if_false]
        rfl
      refine ⟨fun hroom => ?_, fun hroom hw => ?_⟩
      · rw [hx, hroom]
        rfl
      · rw [hx, hroom, restoredTo_of_ok a hw]
        rfl

end Sys2Proof.Machine

/-!
PROOFS. Copies, batches and shadows (spec/12 R288 to R292), barriers, stage queues, messages and the span barrier (spec/11 R258 to R265).
-/

namespace Sys2Proof.Machine

/-! ### Batches and copies (O25) -/

theorem foldRes_forall_ok {α : Type} {f : α → Res Unit} {l : List α} (h : ∀ x ∈ l, f x = .ok ()) :
    foldRes (fun _ x => f x) () l = .ok () := by
  induction l with
  | nil => rfl
  | cons x r ih =>
    rw [foldRes, h x (List.mem_cons_self ..)]
    exact ih fun y hy => h y (List.mem_cons_of_mem _ hy)

theorem leastBy_eq_none {α : Type} {before : α → α → Bool} {l : List α} : leastBy before l = none ↔ l = [] := by
  cases l with
  | nil => exact ⟨fun _ => rfl, fun _ => rfl⟩
  | cons x r =>
    refine ⟨fun h => ?_, fun h => by cases h⟩
    rw [leastBy] at h
    split at h
    · cases h
    · split at h <;> cases h

/-- What leads a list by a number: a member, and no member's number is greater. -/
theorem leastBy_greatest {α : Type} {f : α → Nat} {l : List α} {x : α} (h : leastBy (fun x y => decide (f y < f x)) l = some x) :
    x ∈ l ∧ ∀ y ∈ l, f y ≤ f x := by
  induction l generalizing x with
  | nil => cases h
  | cons z r ih =>
    rw [leastBy] at h
    cases hr : leastBy (fun x y => decide (f y < f x)) r with
    | none =>
      rw [hr] at h
      obtain rfl : z = x := Option.some.inj h
      rw [leastBy_eq_none.1 hr]
      exact ⟨List.mem_singleton_self _, fun y hy => Nat.le_of_eq (by rw [List.mem_singleton.1 hy])⟩
    | some w =>
      obtain ⟨hw, hm⟩ := ih hr
      simp only [hr] at h
      by_cases hc : f z < f w
      · rw [if_pos (decide_eq_true hc)] at h
        obtain rfl : w = x := Option.some.inj h
        refine ⟨List.mem_cons_of_mem _ hw, fun y hy => ?_⟩
        rcases List.mem_cons.1 hy with rfl | hy
        · exact Nat.le_of_lt hc
        · exact hm y hy
      · rw [if_neg (by simpa using hc)] at h
        obtain rfl : z = x := Option.some.inj h
        refine ⟨List.mem_cons_self .., fun y hy => ?_⟩
        rcases List.mem_cons.1 hy with rfl | hy
        · exact Nat.le_refl _
        · exact Nat.le_trans (hm y hy) (Nat.not_lt.1 hc)

/-- Age of a batch serial, in the order of the serials modulo 2^32. -/
def batchAge (b : Batches) (k : Nat) : Nat := (b.opened + 2 ^ 32 - k) % 2 ^ 32

theorem oldestFailed_eq_none {b : Batches} {n : Nat} : oldestFailed b n = none ↔ ∀ y ∈ b.failed, batchUpTo n y.1 = false := by
  rw [oldestFailed, leastBy_eq_none, List.filter_eq_nil_iff]
  simp only [Bool.not_eq_true]

theorem oldestFailed_spec {b : Batches} {n k code : Nat} (h : oldestFailed b n = some (k, code)) : (k, code) ∈ b.failed
    ∧ batchUpTo n k = true ∧ ∀ y ∈ b.failed, batchUpTo n y.1 = true → batchAge b y.1 ≤ batchAge b k := by
  obtain ⟨hm, hg⟩ := leastBy_greatest (f := fun x : Nat × Nat => batchAge b x.1) h
  obtain ⟨hf, hn⟩ := List.mem_filter.1 hm
  exact ⟨hf, hn, fun y hy hu => hg y (List.mem_filter.2 ⟨hy, hu⟩)⟩

/-- The descriptor of a copy, as it stands in the uniform registers at the issue. -/
def copyDesc (s : State) (a : BitVec 5) : List Word := (upTo 8).map (fun i => readUnif (curGroup s) s.clock (a.toNat + i))

/-- The capability registers of a copy's source and destination. -/
def copySrc (s : State) (a : BitVec 5) : Cap := capAt (curGroup s) s.clock (srcReg (copyDesc s a))
def copyDst (s : State) (a : BitVec 5) : Cap := capAt (curGroup s) s.clock (dstReg (copyDesc s a))

/-- The channel that copy starts, and what it leaves. -/
def copyStarted (s : State) (h : Nat) (a : BitVec 5) : State :=
  let g := curGroup s
  defer (setCur (setChannel s s.cur.core h
    { Channel.idle with
      desc := copyDesc s a, src := copySrc s a, dst := copyDst s a, group := s.cur.slot, team := g.team, batch := g.batch.opened, state := 1
      nvst := (getChannel s s.cur.core h).nvst, owner := storerOf s s.cur.core s.cur.slot }) { g with batch := batchJoin g.batch }) (.copy h)

/-- copy after the checks of its slot and its descriptor's registers. -/
def copyOp (s : State) (h : Nat) (a : BitVec 5) (lane : Nat) : Res State :=
  let d := copyDesc s a
  if (getChannel s s.cur.core h).state ≠ 0 then .error (.hold (.channel h))
  else match checkWait s (copyCaps d) with
  | .error e => .error e
  | .ok () => after (checkUnder s (copyCaps d) []) <|
    if copyBad d || copyOverlap d (copySrc s a) (copyDst s a) then illegal 0x10
    else if decide (3 ≤ copyKind d) && !isSuper s then capFault 0x03 lane 0 0
    else
      match foldRes (fun _ r => checkRange s (srcScratch d) (copySrc s a) lane 0x01 4 r) () (readRanges d) with
      | .error e => .error e
      | .ok () =>
        match foldRes (fun _ r => checkRange s (dstScratch d) (copyDst s a) lane 0x02 5 r) () (dstRanges d) with
        | .error e => .error e
        | .ok () =>
          match foldRes (fun _ r => checkRange s (srcScratch d) (copySrc s a) lane 0x02 4 r) () (if copyKind d = 2 then scaleAreas d else []) with
          | .error e => .error e
          | .ok () => .ok (copyStarted s h a)

section
variable {s : State} {h c : BitVec 3} {a : BitVec 5} {lane : Nat}

theorem exec_copy (hc : CountFree s c.toNat) (ho : Once s { astr := true, noLane := true, encBad := decide (24 < a.toNat) }
    ((upTo 8).map (fun i => .unif (a.toNat + i)))) (hl : firstLane s = some lane) :
    exec (.copy h c a) s = finish s (copyOp s h.toNat a lane) := by
  obtain ⟨hs, hr, ha⟩ := ho
  change execCopy h c a s = _
  unfold execCopy
  simp only [counted_of_free hc, hs, (checkReady_ok hr).1, (checkReady_ok hr).2, after_ok, hl]
  rfl

theorem copyOp_of_busy (hb : (getChannel s s.cur.core h.toNat).state ≠ 0) : copyOp s h.toNat a lane = .error (.hold (.channel h.toNat)) :=
  if_pos hb

variable (hb : (getChannel s s.cur.core h.toNat).state = 0) (hr : checkReady s (copyCaps (copyDesc s a)) [] = .ok ())
include hb hr

theorem copyOp_of_bad (hd : (copyBad (copyDesc s a) || copyOverlap (copyDesc s a) (copySrc s a) (copyDst s a)) = true) :
    copyOp s h.toNat a lane = illegal 0x10 := by
  simp only [copyOp, hb, (checkReady_ok hr).1, (checkReady_ok hr).2, after_ok, hd, ne_eq, not_true_eq_false, if_false, if_true]

theorem copyOp_of_good (hd : copyBad (copyDesc s a) = false) (ho : copyOverlap (copyDesc s a) (copySrc s a) (copyDst s a) = false)
    (hk : copyKind (copyDesc s a) < 3 ∨ isSuper s = true)
    (h1 : ∀ r ∈ readRanges (copyDesc s a), checkRange s (srcScratch (copyDesc s a)) (copySrc s a) lane 0x01 4 r = .ok ())
    (h2 : ∀ r ∈ dstRanges (copyDesc s a), checkRange s (dstScratch (copyDesc s a)) (copyDst s a) lane 0x02 5 r = .ok ())
    (h3 : copyKind (copyDesc s a) = 2 → ∀ r ∈ scaleAreas (copyDesc s a),
      checkRange s (srcScratch (copyDesc s a)) (copySrc s a) lane 0x02 4 r = .ok ()) :
    copyOp s h.toNat a lane = .ok (copyStarted s h.toNat a) := by
  have hp : (decide (3 ≤ copyKind (copyDesc s a)) && !isSuper s) = false := by
    rcases hk with hk | hk
    · rw [decide_eq_false (Nat.not_le.2 hk), Bool.false_and]
    · rw [hk, Bool.not_true, Bool.and_false]
  have h3 : ∀ r ∈ (if copyKind (copyDesc s a) = 2 then scaleAreas (copyDesc s a) else []),
      checkRange s (srcScratch (copyDesc s a)) (copySrc s a) lane 0x02 4 r = .ok () := by
    split
    · exact h3 ‹_›
    · simp
  simp only [copyOp, hb, (checkReady_ok hr).1, (checkReady_ok hr).2, after_ok, hd, ho, hp, foldRes_forall_ok h1, foldRes_forall_ok h2,
    foldRes_forall_ok h3, Bool.false_or, Bool.false_eq_true, ne_eq, not_true_eq_false, if_false]

end

/-- What publish does once its region's own effects have performed. -/
def publishOp (k : BitVec 4) (s : State) : Res State :=
  counted s 7 (match checkSlot s {} with
    | .error e => .error e
    | .ok () =>
      match checkWait s [.cap k.toNat] with
      | .error e => .error e
      | .ok () => after (checkUnder s [.cap k.toNat] []) <|
        match firstLane s with
        | none => .ok s
        | some lane =>
          let c := capAt (curGroup s) s.clock k.toNat
          match checkCap s c lane 0x10 with
          | .error e => .error e
          | .ok () =>
            match liftMem lane c.obj.toNat c.base.toNat 1 (descOf s s.cur.core c.obj.toNat) with
            | .error e => .error e
            | .ok (_, u) =>
              let p := (getCore u u.cur.core).part
              let h := entryHome u p c.obj.toNat
              match loggedOp u u.cur.core u.cur.slot h.1 h.2 with
              | .error e => .error e
              | .ok u => .ok (publishObject u p c.obj.toNat))

theorem exec_publish (s : State) (k : BitVec 4) : exec (.publish k) s = finishRelease s (publishOp k) := rfl

/-- publish finds nothing against it: `e` is the state after its logged operation. -/
def publishReady (k : BitVec 4) (v e : State) : Prop :=
  CountFree v 7 ∧ Once v {} [.cap k.toNat] ∧ ∃ lane d u, firstLane v = some lane
    ∧ checkCap v (capAt (curGroup v) v.clock k.toNat) lane 0x10 = .ok ()
    ∧ liftMem lane (capAt (curGroup v) v.clock k.toNat).obj.toNat (capAt (curGroup v) v.clock k.toNat).base.toNat 1
        (descOf v v.cur.core (capAt (curGroup v) v.clock k.toNat).obj.toNat) = .ok (d, u)
    ∧ (getCore u u.cur.core).part = (getCore v v.cur.core).part
    ∧ loggedOp u u.cur.core u.cur.slot (entryHome u (getCore u u.cur.core).part (capAt (curGroup v) v.clock k.toNat).obj.toNat).1
        (entryHome u (getCore u u.cur.core).part (capAt (curGroup v) v.clock k.toNat).obj.toNat).2 = .ok e

theorem publishOp_of_ready {k : BitVec 4} {v e : State} (h : publishReady k v e) :
    publishOp k v = .ok (publishObject e (getCore v v.cur.core).part (capAt (curGroup v) v.clock k.toNat).obj.toNat) := by
  obtain ⟨hc, ⟨hs, hr, ha⟩, lane, d, u, hl, hcap, hm, hp, he⟩ := h
  rw [hp] at he
  simp only [publishOp, counted_of_free hc, hs, (checkReady_ok hr).1, (checkReady_ok hr).2, after_ok, hl, hcap, hm, hp, he]

/-- Settles O25: copies, batches, shadows. -/
theorem copiesAndBatches : Obligations.CopiesAndBatches := by
  intro s h c a d e g ch w src dst
  refine ⟨fun lane hc ho hl => ⟨fun hb => ?_, fun hb hr => ⟨fun hd => ?_, fun hd hv hk h1 h2 h3 => ?_⟩⟩, laneResult_of rfl,
    fun ho => ⟨fun hb => ?_, fun hb => ?_⟩, fun ho hu => ⟨fun hd => ?_, fun hd hf => ?_, fun k code hd hf => ?_⟩,
    fun x n => ⟨oldestFailed_eq_none, fun k code hf => oldestFailed_spec hf⟩,
    fun s t f a k lane => ⟨fun e u ho hl hcap hm => ?_, fun s' hu => ?_⟩⟩
  · rw [exec_copy hc ho hl, copyOp_of_busy hb]
    rfl
  · rw [exec_copy hc ho hl, copyOp_of_bad hb hr hd]
    rfl
  · rw [exec_copy hc ho hl, copyOp_of_good hb hr hd hv hk h1 h2 h3]
    rfl
  · simp only [g] at hb
    change execBfence d s = _
    simp only [execBfence, unifCheck_of_once ho, Nat.not_le.2 hb, if_false]
    rfl
  · simp only [g] at hb
    change execBfence d s = _
    simp only [execBfence, unifCheck_of_once ho, hb, if_true]
    rfl
  · simp only [g] at hu hd
    change execBwait a s = _
    simp only [execBwait, unifCheck_of_once ho, hu, hd, Bool.not_true, Bool.not_false, Bool.false_eq_true, if_false, if_true]
    rfl
  · simp only [g] at hu hd hf
    change execBwait a s = _
    simp only [execBwait, unifCheck_of_once ho, hu, hd, hf, Bool.not_true, Bool.false_eq_true, if_false]
    rfl
  · simp only [g] at hu hd hf
    change execBwait a s = _
    simp only [execBwait, unifCheck_of_once ho, hu, hd, hf, Bool.not_true, Bool.false_eq_true, if_false]
    rfl
  · obtain ⟨hs, hr, ha⟩ := ho
    change execShadow t f a s = _
    simp only [execShadow, hs, (checkReady_ok hr).1, (checkReady_ok hr).2, after_ok, hl, hcap, hm]
    rfl
  · intro cap ready x y hx hy
    have hx : publishReady k s x := hx
    have hy : publishReady k s' y := hy
    rw [exec_publish]
    exact finishRelease_of_ok hu (publishOp_of_ready hx) (publishOp_of_ready hy)

/-! ### Instructions that a whole group executes once (R214, R258) -/

theorem onceCheck_of_whole {s : State} {o : OpInfo} {srcs : List Src} (h : OnceWhole s o srcs) : onceCheck s o srcs = .ok true := by
  obtain ⟨⟨hs, hr, ha⟩, hp⟩ := h
  simp only [onceCheck, hs, hp, (checkReady_ok hr).1, (checkReady_ok hr).2, after_ok, ha, Bool.false_eq_true, if_false, Bool.not_false]

/-- A boundary instruction that its check at issue lets perform, and whose performing fails: what its region's own effects left stays. -/
theorem finishReleaseWith_of_hold {s u : State} {p : Park} {r : State → Res State} (ret : State → State) (hu : Releases s u)
    (hr : r u = .error (.hold p)) : finishReleaseWith s ret (.ok ()) r = .next (holdIssue u p) := by
  obtain ⟨hf, hu⟩ := hu
  simp only [finishReleaseWith, finishRegionBy, hf, hu, hr, Bool.false_eq_true, if_false]
  rfl

/-- A boundary instruction that finds at issue that it must wait. -/
theorem finishRelease_of_hold {s : State} {p : Park} {r : State → Res State} (hf : regionsFull s = false) (hr : r s = .error (.hold p))
    (hp : issueCheck (.error (.hold p) : Res State) = .error (.hold p)) : finishRelease s r = .next (holdIssue s p) := by
  simp only [finishRelease, finishReleaseBy, finishReleaseWith, hf, hr, hp, Bool.false_eq_true, if_false]
  rfl

theorem finishRelease_of_lateHold {s t : State} {p : Park} {r : State → Res State} (hf : regionsFull s = false) (hr : r s = .error (.lateHold t p))
    (hp : issueCheck (.error (.lateHold t p) : Res State) = .error (.lateHold t p)) : finishRelease s r = .next (holdIssue t p) := by
  simp only [finishRelease, finishReleaseBy, finishReleaseWith, hf, hr, hp, Bool.false_eq_true, if_false]
  rfl

/-! ### Barriers (O26) -/

theorem barrierCheck_of_ready {s : State} {a : BitVec 5} {srcs : List Src} {off : Nat} (h : OnceWhole s {} (.unif a.toNat :: srcs))
    (ho : barrierOff s a = .ok off) : barrierCheck s a srcs = .ok (some off) := by
  simp only [barrierCheck, onceCheck_of_whole h, ho]
  rfl

/-- A barrier instruction that its check lets perform. -/
theorem finishBarrier_of_ready {s : State} {a : BitVec 5} {srcs : List Src} {off : Nat} (h : OnceWhole s {} (.unif a.toNat :: srcs))
    (ho : barrierOff s a = .ok off) (ret : State → State) (f : State → Nat → Res State) :
    finishBarrier s ret a srcs f = finishReleaseWith s ret (.ok ()) (fun t => f t off) := by
  simp only [finishBarrier, barrierCheck_of_ready h ho]
  rfl

theorem finishBarrier_of_ok {s u w : State} {a : BitVec 5} {srcs : List Src} {off : Nat} {f : State → Nat → Res State} {ret : State → State}
    (h : OnceWhole s {} (.unif a.toNat :: srcs)) (ho : barrierOff s a = .ok off) (hu : Releases s u) (hw : f u off = .ok w) :
    finishBarrier s ret a srcs f = .next (endRegion (ret w) s.cur.core s.cur.slot) := by
  rw [finishBarrier_of_ready h ho]
  exact finishReleaseWith_of_ok ret hu hw

theorem onBarrier_of_some {s : State} {off : Nat} {b : Barrier} (h : getBarrier (curTeam s) off = some b) (f : State → Barrier → Res State) :
    onBarrier f s off = f s b := by
  simp only [onBarrier, h]

theorem getBarrier_offset {t : Team} {off : Nat} {b : Barrier} (h : getBarrier t off = some b) : b.offset = off :=
  beq_iff_eq.1 (List.find?_some (p := fun b : Barrier => b.offset == off) h)

/-- The barrier at an offset after another with that offset was put in its place. -/
theorem find?_replaced {off : Nat} {b b' : Barrier} {l : List Barrier} (h : l.find? (fun x => x.offset == off) = some b) (ho : b'.offset = off) :
    (l.map (fun x => if x.offset == b'.offset then b' else x)).find? (fun x => x.offset == off) = some b' := by
  subst ho
  induction l with
  | nil => cases h
  | cons x r ih =>
    rw [List.map_cons, List.find?_cons]
    by_cases hx : x.offset = b'.offset
    · rw [if_pos (beq_iff_eq.2 hx), beq_self_eq_true]
    · rw [if_neg (by simpa using hx), beq_eq_false_iff_ne.2 hx]
      rw [List.find?_cons, beq_eq_false_iff_ne.2 hx] at h
      exact ih h

theorem curGroup_setCore {s : State} {k : Core} (h : k.groups = (getCore s s.cur.core).groups) :
    curGroup (setCore s s.cur.core k) = curGroup s := by
  unfold curGroup getGroup
  rw [setCore_cur, getCore_setCore, h]

theorem putBarrier_eq (s : State) (c team : Nat) (b : Barrier) : putBarrier s c team b
    = setTeam (setCore s c (putScratch (getCore s c) ((getTeam s c team).scratch + b.offset) (leBytes 8 (barrierWord b true)))) c team
        { getTeam s c team with barriers := (getTeam s c team).barriers.map (fun x => if x.offset == b.offset then b else x) } := rfl

theorem curGroup_setTeam {s : State} {c : Nat} (h : c = s.cur.core) (n : Nat) (t : Team) : curGroup (setTeam s c n t) = curGroup s := by
  subst h
  unfold curGroup
  rw [setTeam_cur, getGroup_setTeam]

theorem putScratch_groups (k : Core) (a : Nat) (bs : List Byte) : (putScratch k a bs).groups = k.groups := rfl

theorem curGroup_putBarrier (s : State) (n : Nat) (b : Barrier) : curGroup (putBarrier s s.cur.core n b) = curGroup s := by
  rw [putBarrier_eq, curGroup_setTeam (by rw [setCore_cur])]
  exact curGroup_setCore (putScratch_groups _ _ _)

theorem curTeam_putBarrier (s : State) (b : Barrier) : curTeam (putBarrier s s.cur.core (curGroup s).team b)
    = { curTeam s with barriers := (curTeam s).barriers.map (fun x => if x.offset == b.offset then b else x) } := by
  rw [curTeam, curGroup_putBarrier, putBarrier_eq, setTeam_cur, setCore_cur, getTeam_setTeam]
  rfl

theorem getBarrier_putBarrier {s : State} {off : Nat} {b b' : Barrier} (h : getBarrier (curTeam s) off = some b) (ho : b'.offset = off) :
    getBarrier (curTeam (putBarrier s s.cur.core (curGroup s).team b')) off = some b' := by
  rw [curTeam_putBarrier]
  exact find?_replaced h ho

theorem arriveAt_offset (b : Barrier) (g : Nat) : (arriveAt b g).offset = b.offset := by
  unfold arriveAt testPhase
  split <;> rfl

/-- While an arrival is still noted, the phase that it belongs to has not completed. -/
theorem arriveAt_phase {b : Barrier} {g x : Nat} (h : (arriveAt b g).arrived.contains x = true) : (arriveAt b g).phase = b.phase := by
  unfold arriveAt testPhase at h ⊢
  split at h
  · cases h
  · rw [if_neg ‹_›]

theorem mem_insertNat {l : List Nat} {n x : Nat} : x ∈ insertNat l n ↔ x = n ∨ x ∈ l := by
  induction l with
  | nil => simp [insertNat]
  | cons m r ih =>
    rw [insertNat]
    split
    · simp
    · split
      · next h => simp [h]
      · simp only [List.mem_cons, ih]
        exact or_left_comm

theorem length_insertNat {l : List Nat} {n : Nat} (h : n ∉ l) : (insertNat l n).length = l.length + 1 := by
  induction l with
  | nil => rfl
  | cons m r ih =>
    obtain ⟨hm, hr⟩ := not_or.1 (fun k => h (List.mem_cons.2 k))
    rw [insertNat]
    by_cases hlt : n < m
    · rw [if_pos hlt]
      rfl
    · rw [if_neg hlt, if_neg hm, List.length_cons, ih hr, List.length_cons]

theorem testPhase_complete {b : Barrier} {d : Bool}
    (h : (0 < b.members.length ∧ b.arrived.length = b.members.length) ∨ (d = true ∧ b.members = [])) :
    testPhase b d = { b with phase := (b.phase + 1) % 256, arrived := [] } :=
  if_pos (by simpa using h)

theorem testPhase_pending {b : Barrier} {d : Bool}
    (h : ¬ ((0 < b.members.length ∧ b.arrived.length = b.members.length) ∨ (d = true ∧ b.members = []))) : testPhase b d = b :=
  if_neg (by simpa using h)

theorem testPhase_members (b : Barrier) (d : Bool) : (testPhase b d).members = b.members := by
  unfold testPhase
  split <;> rfl

/-- The last arrival completes the phase, another is noted. -/
theorem arriveAt_spec {b : Barrier} {g : Nat} (hm : b.members.contains g = true) (ha : b.arrived.contains g = false) :
    (arriveAt b g).members = b.members
    ∧ (b.arrived.length + 1 = b.members.length → (arriveAt b g).phase = (b.phase + 1) % 256 ∧ (arriveAt b g).arrived = [])
    ∧ (b.arrived.length + 1 ≠ b.members.length → (arriveAt b g).phase = b.phase ∧ (arriveAt b g).arrived.length = b.arrived.length + 1
        ∧ ∀ x, x ∈ (arriveAt b g).arrived ↔ x = g ∨ x ∈ b.arrived) := by
  have hl : (insertNat b.arrived g).length = b.arrived.length + 1 := length_insertNat (by simpa using ha)
  have hc : arriveAt b g = testPhase { b with arrived := insertNat b.arrived g } false := rfl
  have hpos : 0 < b.members.length := List.length_pos_of_mem (by simpa using hm)
  refine ⟨testPhase_members _ _, fun h => ?_, fun h => ?_⟩
  · rw [hc, testPhase_complete (b := { b with arrived := insertNat b.arrived g }) (.inl ⟨hpos, hl.trans h⟩)]
    exact ⟨rfl, rfl⟩
  · rw [hc, testPhase_pending (b := { b with arrived := insertNat b.arrived g })
      (fun k => k.elim (fun k => h (hl.symm.trans k.2)) fun k => Bool.noConfusion k.1)]
    exact ⟨rfl, hl, fun x => mem_insertNat⟩

/-- A drop completes the phase where none is left, or all that are left have arrived. -/
theorem dropFrom_spec (b : Barrier) (g : Nat) :
    (dropFrom b g).members = b.members.filter (· != g)
    ∧ ((dropFrom b g).members = [] → (dropFrom b g).phase = (b.phase + 1) % 256 ∧ (dropFrom b g).arrived = [])
    ∧ ((dropFrom b g).members ≠ [] → (b.arrived.filter (· != g)).length = (dropFrom b g).members.length →
        (dropFrom b g).phase = (b.phase + 1) % 256 ∧ (dropFrom b g).arrived = [])
    ∧ ((dropFrom b g).members ≠ [] → (b.arrived.filter (· != g)).length ≠ (dropFrom b g).members.length →
        (dropFrom b g).phase = b.phase ∧ (dropFrom b g).arrived = b.arrived.filter (· != g)) := by
  have hm : (dropFrom b g).members = b.members.filter (· != g) := testPhase_members _ _
  rw [hm]
  refine ⟨rfl, fun h => ?_, fun h k => ?_, fun h k => ?_⟩
  · rw [dropFrom, testPhase_complete (.inr ⟨rfl, h⟩)]
    exact ⟨rfl, rfl⟩
  · rw [dropFrom, testPhase_complete (.inl ⟨List.length_pos_iff.2 h, k⟩)]
    exact ⟨rfl, rfl⟩
  · rw [dropFrom, testPhase_pending (fun hk => hk.elim (fun hk => k hk.2) fun hk => h hk.2)]
    exact ⟨rfl, rfl⟩

/-- A wait abandoned for an interrupt is over, or its group parks on it again. -/
def retireOrPark (s : State) (p : Park) : State := if parkOver s s.cur.core s.cur.slot p then retire s else retireParked s p

/-- The group without a wait that it had abandoned. -/
def dropWait (s : State) (p : Park) : State :=
  setCur s { curGroup s with user := { (curGroup s).user with waits := (curGroup s).user.waits.erase p } }

theorem acquireAt_of_lt {scope : Nat} (h : scope < 4) (s : State) : acquireAt s scope = s := if_neg (Nat.not_le.2 h)

/-- An arrival that was interrupted in its wait only waits when it is executed again. -/
theorem waitAgain_of_ok {s : State} {w : Bool} (hf : regionsFull s = false) (p : Park) {scope : Nat} (hs : scope < 4) :
    waitAgain s p scope (.ok w) = .next (endRegion (retireOrPark (dropWait s p) p) s.cur.core s.cur.slot) := by
  simp only [waitAgain, finishRegionBy, hf, acquireAt_of_lt hs, Bool.false_eq_true, if_false]
  rfl

/-- What bar.init does to the word at an offset. -/
def barInitOp (b : BitVec 5) (s : State) (off : Nat) : Res State :=
  let n := (curGroup s).team
  match readUnif (curGroup s) s.clock b.toNat, getBarrier (curTeam s) off with
  | 0, none => if (curLaunch s).barriers ≤ (curTeam s).barriers.length then illegal 0x06 else .ok (makeBarrier s s.cur.core n off)
  | 1, some x => if x.members.isEmpty then .ok (retireBarrier s s.cur.core n x) else illegal 0x06
  | _, _ => illegal 0x06

theorem exec_barInit (a b : BitVec 5) (s : State) : exec (.barInit a b) s = finishBarrier s retire a [.unif b.toNat] (barInitOp b) := rfl

theorem barInitOp_of_free {s : State} {b : BitVec 5} {off : Nat} (hn : getBarrier (curTeam s) off = none)
    (hb : readUnif (curGroup s) s.clock b.toNat = 0) (hl : (curTeam s).barriers.length < (curLaunch s).barriers) :
    barInitOp b s off = .ok (makeBarrier s s.cur.core (curGroup s).team off) := by
  unfold barInitOp
  rw [hn, hb]
  exact if_neg (Nat.not_le.2 hl)

theorem barInitOp_of_ended {s : State} {b : BitVec 5} {off : Nat} {x : Barrier} (hn : getBarrier (curTeam s) off = some x)
    (hb : readUnif (curGroup s) s.clock b.toNat = 1) (hm : x.members = []) :
    barInitOp b s off = .ok (retireBarrier s s.cur.core (curGroup s).team x) := by
  unfold barInitOp
  rw [hn, hb]
  exact if_pos (by rw [hm]; rfl)

theorem barrierOff_unif {s : State} {a : BitVec 5} {off : Nat} (h : barrierOff s a = .ok off) :
    (readUnif (curGroup s) s.clock a.toNat).toNat = off := by
  unfold barrierOff at h
  dsimp only at h
  split at h
  · cases h
  · exact Except.ok.inj h

/-- An operation on the barrier at its offset performs. -/
theorem barrierOp_done {s u w : State} {a : BitVec 5} {srcs : List Src} {x y : Barrier} {f : State → Barrier → Res State} {ret : State → State}
    (hb : BarrierAt s a srcs x) (hu : Releases s u) (hy : getBarrier (curTeam u) x.offset = some y) (hw : f u y = .ok w) :
    finishBarrier s ret a srcs (onBarrier f) = .next (endRegion (ret w) s.cur.core s.cur.slot) :=
  finishBarrier_of_ok hb.1 hb.2.1 hu ((onBarrier_of_some hy f).trans hw)

/-- Settles O26: every barrier operation, and what arrivals and drops leave. -/
theorem barriers : Obligations.Barriers := by
  intro s u d a b x y
  refine ⟨fun off => ?_, fun hb hu hy => barrierOp_done hb hu hy rfl, fun hb hu hy hm => ⟨?_, fun ha => ?_⟩, fun p ho hf hp => ?_, ?_,
    fun hb hu hy hm => barrierOp_done hb hu hy ?_, fun b g hm => ⟨arriveAt_spec hm, dropFrom_spec b g⟩⟩
  · intro ready hr hu
    obtain ⟨ho, hoff⟩ := hr
    refine ⟨?_, ?_⟩
    · rintro fresh ⟨hn, hz, hl⟩
      exact finishBarrier_of_ok ho hoff hu (barInitOp_of_free hn hz hl)
    · rintro ends ⟨hn, hz, hl⟩
      exact finishBarrier_of_ok ho hoff hu (barInitOp_of_ended hn hz hl)
  · exact barrierOp_done hb hu hy (if_neg (by rw [hm]; decide))
  · change execBarAw a s = _
    rw [execBarAw, ha]
    refine (barrierOp_done hb hu hy (if_neg (by rw [hm]; decide))).trans ?_
    obtain ⟨⟨⟨hs, hr, hact⟩, hp⟩, hoff, hx⟩ := hb
    have hyo := getBarrier_offset hy
    rw [barrierOff_unif hoff, getBarrier_putBarrier hy ((arriveAt_offset y _).trans hyo), hact, hyo]
    have hcur : (putBarrier u u.cur.core (curGroup u).team (arriveAt y u.cur.slot)).cur = u.cur := rfl
    rw [hcur]
    cases hc : (arriveAt y u.cur.slot).arrived.contains u.cur.slot with
    | true =>
      rw [← arriveAt_phase hc]
      simp only [hc, Bool.not_false, Bool.and_true, if_true]
    | false =>
      simp only [hc, Bool.false_and, Bool.false_eq_true, if_false]
      rfl
  · change execBarAw a s = _
    rw [execBarAw, hp, onceCheck_of_whole ho]
    exact waitAgain_of_ok hf p (by decide)
  · intro ph hb hu hy
    refine ⟨fun he => ?_, fun he => barrierOp_done hb hu hy (if_neg he)⟩
    change execBarWait a b s = _
    rw [execBarWait, finishBarrier_of_ready hb.1 hb.2.1]
    exact finishReleaseWith_of_hold _ hu ((onBarrier_of_some hy _).trans (if_pos he))
  · exact if_neg (by rw [hm]; decide)


/-! ### Stage queues (O27) -/

/-- What sqput does once its region's own effects have performed. -/
def sqputOp (q : BitVec 2) (a : BitVec 7) (s : State) : Res State :=
  match onceCheck s { noLane := true, srcA := some a } [] with
  | .error e => .error e
  | .ok _ =>
    match readSources s { noLane := true, srcA := some a } [.reg a 0] with
    | .error e => .error e
    | .ok (vals, t) => after (checkUnder s [.reg a 0] []) <|
      match firstLane s with
      | none => .ok s
      | some i =>
        match queueCheck s q.toNat ((curRole s).outq == some q.toNat) with
        | .error e => .error e
        | .ok x =>
          if x.depth ≤ queueCount x then .error (.hold (.queueFull q.toNat))
          else .ok (applyLast (setQueue (scratchPut t t.cur.core (curGroup t).team (x.offset + 4 * (x.put % x.depth))
            (leBytes 4 (laneVal (vals.getD 0 []) i).toNat)) q.toNat { x with put := x.put + 1 }) { noLane := true, srcA := some a } 1 0 [])

theorem exec_sqput (q : BitVec 2) (a : BitVec 7) (s : State) : exec (.sqput q a) s = finishRelease s (sqputOp q a) := rfl

theorem firstLane_isSome {s : State} (h : (activeLanes s).isEmpty = false) : ∃ i, firstLane s = some i := by
  unfold firstLane
  cases hl : activeLanes s with
  | nil => rw [hl] at h; cases h
  | cons i r => exact ⟨i, rfl⟩

section
variable {q : BitVec 2} {a : BitVec 7} {s t : State} {x : StageQueue} {vals : List Lanes}
  (hw : OnceWhole s { noLane := true, srcA := some a } []) (hr : Reads s { noLane := true, srcA := some a } [.reg a 0] vals t)
  (hx : queueCheck s q.toNat ((curRole s).outq == some q.toNat) = .ok x)
include hw hr hx

theorem sqputOp_of_full (hd : x.depth ≤ queueCount x) : sqputOp q a s = .error (.hold (.queueFull q.toNat)) := by
  obtain ⟨i, hi⟩ := firstLane_isSome hw.1.2.2
  simp only [sqputOp, onceCheck_of_whole hw, hr.1, hr.2, after_ok, hi, hx, hd, if_true]

theorem sqputOp_of_room {i : Nat} (hd : queueCount x < x.depth) (hi : firstLane s = some i) : sqputOp q a s
    = .ok (applyLast (setQueue (scratchPut t t.cur.core (curGroup t).team (x.offset + 4 * (x.put % x.depth))
        (leBytes 4 (laneVal (vals.getD 0 []) i).toNat)) q.toNat { x with put := x.put + 1 }) { noLane := true, srcA := some a } 1 0 []) := by
  simp only [sqputOp, onceCheck_of_whole hw, hr.1, hr.2, after_ok, hi, hx, Nat.not_le.2 hd, if_false]

end

/-- The oldest word of a stage queue. -/
def queueWord (s : State) (x : StageQueue) : Word :=
  wordOf (memNat (getCore s s.cur.core).scratch ((curTeam s).scratch + x.offset + 4 * (x.removed % x.depth)) 4)

/-- What sqget does once its region's own effects have performed. -/
def sqgetOp (q : BitVec 2) (d : BitVec 7) (s : State) : Res State :=
  match onceCheck s { noLane := true, dst := some d } [] with
  | .error e => .error e
  | .ok false => .ok s
  | .ok true =>
    match queueCheck s q.toNat ((curRole s).inq == some q.toNat) with
    | .error e => .error e
    | .ok x =>
      if queueCount x = 0 then .error (.lateHold (commitParked s) (.queueEmpty q.toNat))
      else if scratchBad s (x.offset + 4 * (x.removed % x.depth)) 4 then spoiledTrap s (x.offset + 4 * (x.removed % x.depth))
      else
        match writeDst s d 0 [List.replicate 32 (queueWord s x)] with
        | .error e => .error e
        | .ok t => .ok (acquireAt (setQueue t q.toNat { x with removed := x.removed + 1 }) 2)

theorem exec_sqget (q : BitVec 2) (d : BitVec 7) (s : State) : exec (.sqget q d) s = finishRelease s (sqgetOp q d) := rfl

section
variable {q : BitVec 2} {d : BitVec 7} {s : State} {x : StageQueue} (hw : OnceWhole s { noLane := true, dst := some d } [])
  (hx : queueCheck s q.toNat ((curRole s).inq == some q.toNat) = .ok x)
include hw hx

theorem sqgetOp_of_empty (h0 : queueCount x = 0) : sqgetOp q d s = .error (.lateHold (commitParked s) (.queueEmpty q.toNat)) := by
  simp only [sqgetOp, onceCheck_of_whole hw, hx, h0, if_true]

theorem sqgetOp_of_word {t : State} (h0 : queueCount x ≠ 0) (hb : scratchBad s (x.offset + 4 * (x.removed % x.depth)) 4 = false)
    (ht : writeDst s d 0 [List.replicate 32 (queueWord s x)] = .ok t) :
    sqgetOp q d s = .ok (setQueue t q.toNat { x with removed := x.removed + 1 }) := by
  simp only [sqgetOp, onceCheck_of_whole hw, hx, h0, hb, ht, acquireAt_of_lt (show 2 < 4 by decide), Bool.false_eq_true, if_false]

end

/-- Settles O27: a queue that has room, or a word, and one that must be waited for. -/
theorem stageQueues : Obligations.StageQueues := by
  intro s u q a d x
  refine ⟨?_, ?_, fun hw hx hd => ?_⟩
  · intro o takes va ta vals t i x' hw hr hx
    refine ⟨fun hd hf => finishRelease_of_hold hf (sqputOp_of_full hw hr hx hd) rfl, fun hd hu hw' hr' hx' hd' hi => ?_⟩
    obtain ⟨j, hj⟩ := firstLane_isSome hw.1.2.2
    exact finishRelease_of_ok hu (sqputOp_of_room hw hr hx hd hj) (sqputOp_of_room hw' hr' hx' hd' hi)
  · intro o holds word hs
    obtain ⟨hw, hx, hb⟩ := hs
    refine ⟨fun h0 hf => finishRelease_of_lateHold hf (sqgetOp_of_empty hw hx h0) rfl, fun v x' y h0 hv hu hs' h0' hy => ?_⟩
    obtain ⟨hw', hx', hb'⟩ := hs'
    exact finishRelease_of_ok hu (sqgetOp_of_word hw hx h0 (hb h0) hv) (sqgetOp_of_word hw' hx' h0' (hb' h0') hy)
  · change execSqpeek q d s = _
    simp only [execSqpeek, onceCheck_of_whole hw, hx, hd]
    rfl

/-! ### Messages and the span barrier (O28) -/

/-- The message that msend sends, and the circuit that it may take. -/
def sentMessage (s : State) (a : BitVec 5) : Message :=
  ⟨s.cur.core, wordOf ((unifQuad s a).getD 1 0), (unifQuad s a).getD 2 0, tenantOf s s.cur.core (curGroup s).team,
    memBytes (getCore s s.cur.core).scratch ((curTeam s).scratch + (unifQuad s a).getD 3 0) ((unifQuad s a).getD 2 0)⟩
def sentCircuit (s : State) (a : BitVec 5) : Event :=
  { die := curDie s, core := s.cur.core, unit := (unifQuad s a).getD 0 0 % 40, len := ((unifQuad s a).getD 2 0 + 8 + 63) / 64 }

/-- The steps that msend makes due. -/
def sentSteps (c : BitVec 1) (a : BitVec 5) (s : State) : List Due :=
  if c = 1 && dieOf ((unifQuad s a).getD 0 0) == curDie s
  then [⟨.circuitSetup, sentCircuit s a⟩, arrivalOf ((unifQuad s a).getD 0 0) (sentMessage s a) false, ⟨.circuitRelease, sentCircuit s a⟩]
  else [arrivalOf ((unifQuad s a).getD 0 0) (sentMessage s a) false]

/-- What msend does once its region's own effects have performed. -/
def msendOp (c : BitVec 1) (a : BitVec 5) (s : State) : Res State :=
  match checkSlot s { noLane := true, encBad := decide (28 < a.toNat) } with
  | .error e => .error e
  | .ok () =>
    match checkWait s (unifSrcs a 4) with
    | .error e => .error e
    | .ok () => after (checkUnder s (unifSrcs a 4) []) <|
      if (activeLanes s).isEmpty then .ok s
      else
        let w := unifQuad s a
        if 319 < w.getD 0 0 || 256 < w.getD 2 0 then illegal 0x10
        else if w.getD 3 0 % 8 ≠ 0 || decide ((curTeam s).size < w.getD 3 0 + w.getD 2 0) then scratchFault s (w.getD 3 0)
        else if scratchBad s (w.getD 3 0) (w.getD 2 0) then spoiledTrap s (w.getD 3 0)
        else .ok (pushDue s (sentSteps c a s))

theorem exec_msend (c : BitVec 1) (a : BitVec 5) (s : State) : exec (.msend c a) s = finishRelease s (msendOp c a) := rfl

/-- msend finds nothing against its operands. -/
def msendReady (a : BitVec 5) (v : State) : Prop :=
  Once v { noLane := true, encBad := decide (28 < a.toNat) } (unifSrcs a 4) ∧ (unifQuad v a).getD 0 0 < 320 ∧ (unifQuad v a).getD 2 0 ≤ 256
    ∧ (unifQuad v a).getD 3 0 % 8 = 0 ∧ (unifQuad v a).getD 3 0 + (unifQuad v a).getD 2 0 ≤ (curTeam v).size
    ∧ scratchBad v ((unifQuad v a).getD 3 0) ((unifQuad v a).getD 2 0) = false

theorem msendOp_of_ready {a : BitVec 5} {v : State} (h : msendReady a v) (c : BitVec 1) : msendOp c a v = .ok (pushDue v (sentSteps c a v)) := by
  obtain ⟨⟨hs, hr, ha⟩, hd, hl, ho, he, hb⟩ := h
  have h1 : (decide (319 < (unifQuad v a).getD 0 0) || decide (256 < (unifQuad v a).getD 2 0)) = false := by
    rw [decide_eq_false (by omega), decide_eq_false (by omega)]
    rfl
  have h2 : (decide ((unifQuad v a).getD 3 0 % 8 ≠ 0)
      || decide ((curTeam v).size < (unifQuad v a).getD 3 0 + (unifQuad v a).getD 2 0)) = false := by
    rw [decide_eq_false (not_not_intro ho), decide_eq_false (Nat.not_lt.2 he)]
    rfl
  simp only [msendOp, hs, (checkReady_ok hr).1, (checkReady_ok hr).2, after_ok, ha, h1, h2, hb, Bool.false_eq_true, if_false]

/-- The receive that mpost posts. -/
def postedReceive (s : State) (a : BitVec 5) : Receive :=
  ⟨(curGroup s).team, s.cur.slot, (unifQuad s a).getD 0 0 / 2 ^ 16 % 512, ((unifQuad s a).getD 0 0).testBit 9, (unifQuad s a).getD 0 0 % 512,
    wordOf ((unifQuad s a).getD 1 0), wordOf ((unifQuad s a).getD 2 0), (unifQuad s a).getD 3 0, (getCore s s.cur.core).rxOrder, none⟩

/-- A receive posted under a handle, before it takes a queued message. -/
def withReceive (s : State) (d a : BitVec 5) (h : Nat) : State :=
  let k := getCore s s.cur.core
  writeUnif (setCore s s.cur.core { k with receives := insertKey k.receives h (postedReceive s a), rxOrder := k.rxOrder + 1 }) d.toNat 0 (wordOf h)

/-- What mpost does once its region's own effects have performed. -/
def mpostOp (d a : BitVec 5) (s : State) : Res State :=
  match checkSlot s { noLane := true, encBad := decide (28 < a.toNat) } with
  | .error e => .error e
  | .ok () =>
    match checkWait s (unifSrcs a 4) with
    | .error e => .error e
    | .ok () => after (checkUnder s (unifSrcs a 4) []) <|
      if (activeLanes s).isEmpty then .ok s
      else
        let w := unifQuad s a
        let cap := w.getD 0 0 / 2 ^ 16 % 512
        let k := getCore s s.cur.core
        if w.getD 0 0 / 2 ^ 25 ≠ 0 || w.getD 0 0 / 2 ^ 10 % 64 ≠ 0 || decide (256 < cap) then illegal 0x10
        else if w.getD 3 0 % 8 ≠ 0 || decide ((curTeam s).size < w.getD 3 0 + 8 + cap) then scratchFault s (w.getD 3 0)
        else
          match lowestFree k.receives 256, decide (postedBy k (curGroup s).team < (curLaunch s).receives) with
          | some h, true =>
            let v := withReceive s d a h
            .ok (resend (matchQueued v v.cur.core h) v.cur.core)
          | _, _ => .ok (writeUnif s d.toNat 0 0xFFFFFFFF)

theorem exec_mpost (d a : BitVec 5) (s : State) : exec (.mpost d a) s = finishRelease s (mpostOp d a) := rfl

/-- mpost finds nothing against its operands. -/
def mpostReady (a : BitVec 5) (v : State) : Prop :=
  Once v { noLane := true, encBad := decide (28 < a.toNat) } (unifSrcs a 4) ∧ (unifQuad v a).getD 0 0 / 2 ^ 25 = 0
    ∧ (unifQuad v a).getD 0 0 / 2 ^ 10 % 64 = 0 ∧ (unifQuad v a).getD 0 0 / 2 ^ 16 % 512 ≤ 256 ∧ (unifQuad v a).getD 3 0 % 8 = 0
    ∧ (unifQuad v a).getD 3 0 + 8 + (unifQuad v a).getD 0 0 / 2 ^ 16 % 512 ≤ (curTeam v).size

/-- What mpost leaves: a receive under the lowest free handle, or none where the core or the team has no room. -/
def mpostDone (d a : BitVec 5) (s : State) : State :=
  match lowestFree (getCore s s.cur.core).receives 256, decide (postedBy (getCore s s.cur.core) (curGroup s).team < (curLaunch s).receives) with
  | some h, true => resend (matchQueued (withReceive s d a h) (withReceive s d a h).cur.core h) (withReceive s d a h).cur.core
  | _, _ => writeUnif s d.toNat 0 0xFFFFFFFF

theorem mpostOp_of_ready {a : BitVec 5} {v : State} (h : mpostReady a v) (d : BitVec 5) : mpostOp d a v = .ok (mpostDone d a v) := by
  obtain ⟨⟨hs, hr, ha⟩, h1, h2, h3, h4, h5⟩ := h
  have hb : (decide ((unifQuad v a).getD 0 0 / 2 ^ 25 ≠ 0) || decide ((unifQuad v a).getD 0 0 / 2 ^ 10 % 64 ≠ 0)
      || decide (256 < (unifQuad v a).getD 0 0 / 2 ^ 16 % 512)) = false := by
    rw [decide_eq_false (not_not_intro h1), decide_eq_false (not_not_intro h2), decide_eq_false (Nat.not_lt.2 h3)]
    rfl
  have hf : (decide ((unifQuad v a).getD 3 0 % 8 ≠ 0)
      || decide ((curTeam v).size < (unifQuad v a).getD 3 0 + 8 + (unifQuad v a).getD 0 0 / 2 ^ 16 % 512)) = false := by
    rw [decide_eq_false (not_not_intro h4), decide_eq_false (Nat.not_lt.2 h5)]
    rfl
  simp only [mpostOp, hs, (checkReady_ok hr).1, (checkReady_ok hr).2, after_ok, ha, hb, hf, Bool.false_eq_true, if_false, mpostDone]
  cases lowestFree (getCore v v.cur.core).receives 256 with
  | none => rfl
  | some h => cases decide (postedBy (getCore v v.cur.core) (curGroup v).team < (curLaunch v).receives) <;> rfl

theorem mpostDone_of_free {s : State} {h : Nat} (hl : lowestFree (getCore s s.cur.core).receives 256 = some h)
    (hp : postedBy (getCore s s.cur.core) (curGroup s).team < (curLaunch s).receives) (d a : BitVec 5) :
    mpostDone d a s = resend (matchQueued (withReceive s d a h) (withReceive s d a h).cur.core h) (withReceive s d a h).cur.core := by
  simp only [mpostDone, hl, hp, decide_true]

theorem mpostDone_of_full {s : State} (hl : lowestFree (getCore s s.cur.core).receives 256 = none
    ∨ (curLaunch s).receives ≤ postedBy (getCore s s.cur.core) (curGroup s).team) (d a : BitVec 5) :
    mpostDone d a s = writeUnif s d.toNat 0 0xFFFFFFFF := by
  unfold mpostDone
  rcases hl with hl | hl
  · rw [hl]
  · rw [decide_eq_false (Nat.not_lt.2 hl)]
    cases lowestFree (getCore s s.cur.core).receives 256 <;> rfl

/-- The span barrier of the issuing team. -/
def ownSpan (s : State) (n : Nat) (b : BitVec 2) : SpanBarrier := getSpan s s.cur.core n b.toNat

/-- A member's arrival at the span barrier `b` of team `n`. -/
def spanArrived (s : State) (n : Nat) (g : BitVec 6) (b : BitVec 2) : State :=
  let l := leaderOf s s.cur.core n
  let y := arriveSpan (ownSpan s n b) g.toNat ((curTeam s).spanRow * 8 + (curTeam s).spanCol) (spanSize (curLaunch s))
  setTeam s l.1 l.2 { getTeam s l.1 l.2 with spans := insertKey (getTeam s l.1 l.2).spans b.toNat y }

/-- What spbar does once its region's own effects have performed. -/
def spbarOp (n : Nat) (g : BitVec 6) (b : BitVec 2) (s : State) : Res State :=
  match onceCheck s { encBad := g == 0 } [] with
  | .error e => .error e
  | .ok false => .ok s
  | .ok true => if !(ownSpan s n b).arrivals.isEmpty && (ownSpan s n b).g != g.toNat then illegal 0x06 else .ok (spanArrived s n g b)

/-- What comes after an arrival: the next slot if it completed the phase, a wait if not. -/
def afterSpan (s : State) (n : Nat) (b : BitVec 2) (v : State) : State :=
  if (ownSpan v n b).phase = (ownSpan s n b).phase && !(activeLanes s).isEmpty then
    retireParked v (.span b.toNat (ownSpan s n b).phase s.cur.pc)
  else retire (acquireAt v 3)

theorem exec_spbar {s : State} (ha : abandoned s = none) (g : BitVec 6) (b : BitVec 2) : exec (.spbar g b) s
    = finishReleaseWith s (afterSpan s (curGroup s).team b) ((onceCheck s { encBad := g == 0 } []).map (fun _ => ()))
        (spbarOp (curGroup s).team g b) := by
  change execSpbar g b s = _
  simp only [execSpbar, ha]
  rfl

theorem spbarOp_of_ready {s : State} {n : Nat} {g : BitVec 6} {b : BitVec 2} (h : OnceWhole s { encBad := g == 0 } [])
    (hs : (ownSpan s n b).arrivals = [] ∨ (ownSpan s n b).g = g.toNat) : spbarOp n g b s = .ok (spanArrived s n g b) := by
  have hb : (!(ownSpan s n b).arrivals.isEmpty && (ownSpan s n b).g != g.toNat) = false := by
    rcases hs with hs | hs <;> simp [hs]
  simp only [spbarOp, onceCheck_of_whole h, hb, Bool.false_eq_true, if_false]

/-- Settles O28: messages sent, posted, tested and cancelled, and the span barrier. -/
theorem messagesAndSpans : Obligations.MessagesAndSpans := by
  intro s u c d a f t n
  refine ⟨?_, ?_, ?_, fun ho => ?_, fun g b => ?_⟩
  · intro off len dest ready m hs hu hr
    have hx : exec (.msend c a) s = regionEnds s (pushDue u (sentSteps c a u)) :=
      finishRelease_of_ok hu (msendOp_of_ready hs c) (msendOp_of_ready hr c)
    refine ⟨fun h => hx.trans ?_, fun h hd => hx.trans ?_⟩
    · have hb : (decide (c = 1) && dieOf ((unifQuad u a).getD 0 0) == curDie u) = false := by
        rcases h with h | h
        · rw [h]; rfl
        · rw [beq_eq_false_iff_ne.2 h, Bool.and_false]
      rw [sentSteps, hb]
      rfl
    · have hb : (decide (c = 1) && dieOf ((unifQuad u a).getD 0 0) == curDie u) = true := by
        rw [decide_eq_true h, Bool.true_and, beq_iff_eq]
        exact hd
      rw [sentSteps, hb]
      rfl
  · intro w cap ready k hs hu hr
    have hx : exec (.mpost d a) s = regionEnds s (mpostDone d a u) :=
      finishRelease_of_ok hu (mpostOp_of_ready hs d) (mpostOp_of_ready hr d)
    refine ⟨fun h hl hp => hx.trans ?_, fun hf => hx.trans ?_⟩
    · rw [mpostDone_of_free hl hp]
      rfl
    · rw [mpostDone_of_full hf]
  · intro o vals i hr hl hh done v
    obtain ⟨hs, hk⟩ := hr
    have hh : ¬ 255 < (laneVal (vals.getD 0 []) i).toNat := Nat.not_lt.2 hh
    change execMtest t n f s = _
    unfold execMtest
    simp only [o] at hs
    simp only [hs, hk, after_ok, hl, hh, if_false]
    rfl
  · change execMcancel a s = _
    simp only [execMcancel, unifCheck_of_once ho]
    rfl
  · intro span ready l y v
    refine ⟨fun ha hw hu hr => ?_, fun p hw hf hp => ?_⟩
    · rw [exec_spbar ha, onceCheck_of_whole hw]
      refine (finishReleaseWith_of_ok _ hu (spbarOp_of_ready hr.1 hr.2)).trans ?_
      simp only [afterSpan, hw.1.2.2, acquireAt_of_lt (show 3 < 4 by decide), Bool.not_false, Bool.and_true, decide_eq_true_eq]
      rfl
    · change execSpbar g b s = _
      simp only [execSpbar, hp, onceCheck_of_whole hw]
      exact waitAgain_of_ok hf p (by decide)

end Sys2Proof.Machine

/-!
PROOFS. Truss instructions (spec/15 R330 to R338) and matrix instructions (spec/13 R294 to R309).
-/

namespace Sys2Proof.Machine

/-! ### Truss instructions (O29) -/

theorem trussCheck_of_once {s : State} {o : OpInfo} {srcs : List Src} {t : Truss} (h : TrussOnce s o srcs t) :
    trussCheck s o srcs = .ok (some t) := by
  obtain ⟨hs, ht⟩ := h
  simp only [trussCheck, unifCheck_of_once hs, ht]
  rfl

/-- What tnext does once its region's own effects have performed. -/
def tnextOp (p : BitVec 3) (d : BitVec 5) (s : State) : Res State :=
  match trussCheck s { fnBad := p == 0, encBad := decide (26 < d.toNat) } [] with
  | .error e => .error e
  | .ok none => .ok s
  | .ok (some t) => nextTile s p d.toNat t

theorem exec_tnext (p : BitVec 3) (d : BitVec 5) (s : State) : exec (.tnext p d) s = finishRelease s (tnextOp p d) := rfl

theorem tnextOp_of_once {p : BitVec 3} {d : BitVec 5} {s : State} {t : Truss}
    (h : TrussOnce s { fnBad := p == 0, encBad := decide (26 < d.toNat) } [] t) : tnextOp p d s = nextTile s p d.toNat t := by
  simp only [tnextOp, trussCheck_of_once h]

/-- The claim that tdone names. -/
def doneHandle (s : State) (a : BitVec 5) : Nat := (readUnif (curGroup s) s.clock a.toNat).toNat

/-- What moving a claim's grains to done gives: the grains that moved, and the state. -/
def doneMoved (s : State) (t : Truss) (k : Claim) : Res (List Nat × State) :=
  if k.revoked then .ok ([], s) else coverMove s s.cur.core s.cur.slot true t (claimGrains t k) 1 3

/-- What tdone leaves after its grains moved. -/
def doneLeft (s : State) (d a : BitVec 5) (r : List Nat × State) : State :=
  acquireAt (writeUnif (setCurTeam (dropGrains r.2) { curTeam r.2 with claims := eraseKey (curTeam s).claims (doneHandle s a) }) d.toNat 0
    (wordOf (heldGrains r.2 ++ r.1).length)) 4

/-- What tdone does once its region's own effects have performed. -/
def tdoneOp (d a : BitVec 5) (s : State) : Res State :=
  match trussCheck s {} [.unif a.toNat] with
  | .error e => .error e
  | .ok none => .ok s
  | .ok (some t) =>
    if 64 ≤ doneHandle s a then illegal 0x10
    else match find? (curTeam s).claims (doneHandle s a) with
      | none => illegal 0x06
      | some k => match doneMoved s t k with
        | .error e => .error e
        | .ok (new, u) => .ok (doneLeft s d a (new, u))

theorem exec_tdone (d a : BitVec 5) (s : State) : exec (.tdone d a) s = finishRelease s (tdoneOp d a) := rfl

theorem tdoneOp_of_moved {d a : BitVec 5} {s : State} {t : Truss} {k : Claim} {r : List Nat × State} (h : TrussOnce s {} [.unif a.toNat] t)
    (hl : doneHandle s a < 64) (hk : find? (curTeam s).claims (doneHandle s a) = some k) (hr : doneMoved s t k = .ok r) :
    tdoneOp d a s = .ok (doneLeft s d a r) := by
  simp only [tdoneOp, trussCheck_of_once h, Nat.not_le.2 hl, if_false, hk, hr]

/-- The word of the coverage map that tmap reads or rewrites. -/
def mapMoved (s : State) (a : BitVec 5) (t : Truss) : Res (Nat × State) :=
  if (unifQuad s a).getD 1 0 = 1 then coverUpdate s s.cur.core s.cur.slot true t ((unifQuad s a).getD 0 0) (fun _ => (unifQuad s a).getD 2 0)
  else coverRead s s.cur.core t ((unifQuad s a).getD 0 0)

/-- What tmap does once its region's own effects have performed. -/
def tmapOp (d a : BitVec 5) (s : State) : Res State :=
  match trussCheck s { encBad := decide (29 < a.toNat) } (unifSrcs a 3) with
  | .error e => .error e
  | .ok none => .ok s
  | .ok (some t) =>
    let w := unifQuad s a
    if w.getD 0 0 % 16 ≠ 0 || decide (1 < w.getD 1 0) || (w.getD 1 0 == 1 && coverBad t (w.getD 0 0) (w.getD 2 0)) then illegal 0x10
    else if w.getD 1 0 = 1 && !isSuper s then illegal 0x06
    else if grainCount t ≤ w.getD 0 0 then
      .error (.trap { cls := 5, code := 4, obj := t.coverage.obj.toNat, off := coverOff t (w.getD 0 0), kind := 2 })
    else match mapMoved s a t with
      | .error e => .error e
      | .ok (old, u) => .ok (acquireAt (writeUnif u d.toNat 0 (wordOf old)) 4)

theorem exec_tmap (d a : BitVec 5) (s : State) : exec (.tmap d a) s = finishRelease s (tmapOp d a) := rfl

/-- tmap finds nothing against its operands. -/
structure MapReady (s : State) (a : BitVec 5) (t : Truss) : Prop where
  grain   : (unifQuad s a).getD 0 0 % 16 = 0
  action  : (unifQuad s a).getD 1 0 ≤ 1
  rewrite : (unifQuad s a).getD 1 0 = 1 → coverBad t ((unifQuad s a).getD 0 0) ((unifQuad s a).getD 2 0) = false ∧ isSuper s = true
  inside  : (unifQuad s a).getD 0 0 < grainCount t

theorem tmapOp_of_ready {d a : BitVec 5} {s : State} {t : Truss} {r : Nat × State}
    (h : TrussOnce s { encBad := decide (29 < a.toNat) } (unifSrcs a 3) t) (hr : MapReady s a t) (hm : mapMoved s a t = .ok r) :
    tmapOp d a s = .ok (acquireAt (writeUnif r.2 d.toNat 0 (wordOf r.1)) 4) := by
  have hb : (decide ((unifQuad s a).getD 0 0 % 16 ≠ 0) || decide (1 < (unifQuad s a).getD 1 0)
      || ((unifQuad s a).getD 1 0 == 1 && coverBad t ((unifQuad s a).getD 0 0) ((unifQuad s a).getD 2 0))) = false := by
    rw [decide_eq_false (not_not_intro hr.grain), decide_eq_false (Nat.not_lt.2 hr.action)]
    by_cases h1 : (unifQuad s a).getD 1 0 = 1
    · rw [(hr.rewrite h1).1, Bool.and_false]
      rfl
    · rw [beq_eq_false_iff_ne.2 h1]
      rfl
  have hp : (decide ((unifQuad s a).getD 1 0 = 1) && !isSuper s) = false := by
    by_cases h1 : (unifQuad s a).getD 1 0 = 1
    · rw [(hr.rewrite h1).2, Bool.not_true, Bool.and_false]
    · rw [decide_eq_false h1, Bool.false_and]
  simp only [tmapOp, trussCheck_of_once h, hb, hp, Nat.not_le.2 hr.inside, hm, Bool.false_eq_true, if_false]

/-- What trd reads: a register of the truss, or one of the three counts. -/
def trdOp (s : State) (d : BitVec 5) (n : Nat) (t : Truss) : Res State :=
  if 8 < n then illegal 0x06
  else if decide (5 ≤ n) && decide (n ≤ 7) then
    (coverCount s.cur.core t (grainCount t / 16 + 1) 0 (0, 0, 0) s).map (fun r =>
      writeUnif r.2 d.toNat 0 (wordOf (if n = 5 then r.1.1 else if n = 6 then r.1.2.1 else r.1.2.2)))
  else .ok (writeUnif s d.toNat 0 (trussReg t n))

theorem exec_trd {s : State} {k : Nat} {t : Truss} (ht : (trussTarget s).1 = some (k, t)) (ho : Once s { noLane := true } []) (d : BitVec 5)
    (i : BitVec 14) : exec (.trd d i) s = finish s (trdOp s d i.toNat t) := by
  change execTrd d i s = _
  simp only [execTrd, unifCheck_of_once ho, ht, trdOp, Bool.not_true, Bool.false_eq_true, if_false]
  congr 4
  funext r
  by_cases h5 : i.toNat = 5
  · simp [h5]
  · by_cases h6 : i.toNat = 6
    · simp [h6]
    · simp [h5, h6]

/-- Settles O29: the instructions on the launch's own truss, and those on the truss that it tunes. -/
theorem trussInstructions : Obligations.TrussInstructions := by
  intro s u x y p d a i tr tu
  refine ⟨?_, ?_, ?_, fun k t w ht ho => ⟨fun hi => ?_, fun hlo hhi hc => ?_⟩, fun k t ht => ⟨fun ho hi => ?_, fun ho => ?_⟩, ?_⟩
  · intro o ht hx hu ht' hy
    exact finishRelease_of_ok hu ((tnextOp_of_once ht).trans hx) ((tnextOp_of_once ht').trans hy)
  · rintro h moved r q ht ⟨hl, k, hk, hr⟩ hu ht' ⟨hl', k', hk', hr'⟩
    exact finishRelease_of_ok hu (tdoneOp_of_moved ht hl hk hr) (tdoneOp_of_moved ht' hl' hk' hr')
  · rintro o w mapped r q ht ⟨h1, h2, h3, h4, hr⟩ hu ht' ⟨h1', h2', h3', h4', hr'⟩
    exact finishRelease_of_ok hu (tmapOp_of_ready ht ⟨h1, h2, h3, h4⟩ hr) (tmapOp_of_ready ht' ⟨h1', h2', h3', h4'⟩ hr')
  · have h8 : ¬ 8 < i.toNat := by omega
    have hb : (decide (5 ≤ i.toNat) && decide (i.toNat ≤ 7)) = false := by
      rw [Bool.and_eq_false_iff, decide_eq_false_iff_not, decide_eq_false_iff_not]
      omega
    rw [exec_trd ht ho, trdOp, if_neg h8, hb]
    rfl
  · have h8 : ¬ 8 < i.toNat := by omega
    rw [exec_trd ht ho, trdOp, if_neg h8, decide_eq_true hlo, decide_eq_true hhi, hc]
    rfl
  · change execTwr d i s = _
    simp only [execTwr, unifCheck_of_once ho, ht, Nat.not_lt.2 hi, Bool.not_true, Bool.false_eq_true, if_false]
    rfl
  · refine ⟨fun hv => ?_, fun hv => ?_⟩
    · change execTcommit s = _
      simp only [execTcommit, unifCheck_of_once ho, ht, hv, Bool.not_true, Bool.or_false, Bool.false_eq_true, if_false]
      rfl
    · change execTcommit s = _
      simp only [execTcommit, unifCheck_of_once ho, ht, hv, Bool.not_true, Bool.not_false, Bool.or_true, if_true]
      rfl
  · intro v ht hf
    change execThand a s = _
    simp only [v] at hf
    simp only [execThand, trussCheck_of_once ht, hf, ne_eq, not_true_eq_false, if_false]
    rfl

/-! ### Matrix instructions (O31) -/

theorem le_foldl_max {α : Type} (f : α → Nat) (l : List α) (n : Nat) : n ≤ l.foldl (fun m x => Nat.max m (f x)) n := by
  induction l generalizing n with
  | nil => exact Nat.le_refl _
  | cons x r ih => exact Nat.le_trans (Nat.le_max_left n (f x)) (ih _)

/-- A slot that waits for none of its sources waits for nothing without them. -/
theorem checkWait_nil {s : State} {srcs : List Src} (h : checkWait s srcs = .ok ()) : checkWait s [] = .ok () := by
  have hg : guardWait s = 0 := by
    unfold checkWait at h
    split at h
    · cases h
    · by_cases hc : crossWait s (withCaps s srcs) = 0
      · exact Nat.le_zero.1 (hc ▸ le_foldl_max (srcWait s) _ _)
      · rw [if_pos hc] at h
        cases h
  have hc : crossWait s (withCaps s []) = 0 := hg
  simp only [checkWait, List.findSome?_nil, hc, List.any_nil, ne_eq, not_true_eq_false, Bool.false_eq_true, if_false]

theorem checkUnder_nil {s : State} {srcs : List Src} (h : checkUnder s srcs [] = .ok ()) : checkUnder s [] [] = .ok () := by
  have hg : (stallChk s s.cur.core s.cur.slot && guardStalls s) = false := by
    refine Bool.eq_false_iff.2 fun hb => ?_
    obtain ⟨hs, hg⟩ := Bool.and_eq_true_iff.1 hb
    rw [checkUnder, hs, hg] at h
    cases h
  have hn : withCaps s [] = [] := rfl
  simp only [checkUnder, hn, List.any_nil, Bool.or_false, hg, Bool.and_false, Bool.false_eq_true, if_false]

theorem checkReady_nil {s : State} {srcs : List Src} (h : checkReady s srcs [] = .ok ()) : checkReady s [] [] = .ok () := by
  rw [checkReady, checkWait_nil (checkReady_ok h).1]
  exact checkUnder_nil (checkReady_ok h).2

theorem unifCheck_of_idle {s : State} {o : OpInfo} {srcs : List Src} (hs : checkSlot s o = .ok ()) (hr : checkReady s srcs [] = .ok ())
    (ha : (activeLanes s).isEmpty = true) : unifCheck s o srcs = .ok false := by
  simp only [unifCheck, hs, (checkReady_ok hr).1, (checkReady_ok hr).2, after_ok, ha, Bool.not_true]

section
variable {s : State} (kind : Nat) (ws : List Word) (cap : Cap)

/-- What an operation leaves when it is queued. -/
def opQueued (s : State) (kind : Nat) (ws : List Word) (cap : Cap) : State :=
  defer (setCur s { curGroup s with batch := batchJoin (curGroup s).batch })
    (.engine ⟨kind, ws, cap, s.cur.core, s.cur.slot, (curGroup s).team, (curGroup s).batch.opened, 0, 0⟩)

theorem queueOp_of_room (h : queuedOps s s.cur.core (curGroup s).team < 16) : queueOp s kind ws cap = .ok (opQueued s kind ws cap) :=
  if_neg (Nat.not_le.2 h)

theorem queueOp_of_full (h : 16 ≤ queuedOps s s.cur.core (curGroup s).team) : queueOp s kind ws cap = .error (.hold .sequencer) := if_pos h

/-- An instruction that queues an operation: it is queued, or waits for room. -/
theorem queued_of {i : Instr} (h : exec i s = finish s (queueOp s kind ws cap)) :
    (queuedOps s s.cur.core (curGroup s).team < 16 → exec i s = .next (retire (opQueued s kind ws cap)))
    ∧ (16 ≤ queuedOps s s.cur.core (curGroup s).team → exec i s = .next (holdIssue s .sequencer)) := by
  refine ⟨fun hq => ?_, fun hq => ?_⟩
  · rw [h, queueOp_of_room kind ws cap hq]
    rfl
  · rw [h, queueOp_of_full kind ws cap hq]
    rfl

end

/-- The operand words of a multiplication. -/
def mmaWords (s : State) (d a b : BitVec 5) : List Word := unifWords s a.toNat 4 ++ unifWords s d.toNat 4 ++ unifWords s b.toNat 2

/-- A multiplication after the checks of its slot and its operand registers. -/
def mmaOp (s : State) (kind : Nat) (ws : List Word) (leader : Bool) : Res State :=
  if leader && !((curTeam s).spanRow == 0 && (curTeam s).spanCol == 0) then illegal 0x06
  else if matBad (curTeam s) ws then illegal 0x10
  else if !fullGang s then trapNow 4 0x05
  else if (curTeam s).size < aEnd (matMulOf ws) then scratchFault s (matMulOf ws).aoff
  else queueOp s kind ws Cap.null

theorem mmaIssue_of_ready {s : State} {d a b : BitVec 5}
    (hs : checkSlot s { noLane := true, encBad := decide (28 < d.toNat) || decide (28 < a.toNat) || decide (30 < b.toNat) } = .ok ())
    (hr : checkReady s (unifSrcs a 4 ++ unifSrcs d 4 ++ unifSrcs b 2) [] = .ok ()) (kind : Nat) (leader : Bool) :
    mmaIssue s kind d a b leader = mmaOp s kind (mmaWords s d a b) leader := by
  simp only [mmaIssue, hs, (checkReady_ok hr).1, (checkReady_ok hr).2, after_ok]
  rfl

/-- The core and the team of a multiplication lead its span, or it needs no leader. -/
def leads (s : State) (leader : Bool) : Prop := leader = true → (curTeam s).spanRow = 0 ∧ (curTeam s).spanCol = 0

section
variable {s : State} {leader : Bool} (hl : leads s leader) (kind : Nat) {ws : List Word}
include hl

theorem leaderCheck_of_leads : (leader && !((curTeam s).spanRow == 0 && (curTeam s).spanCol == 0)) = false := by
  cases leader with
  | false => rfl
  | true =>
    obtain ⟨hr, hc⟩ := hl rfl
    rw [hr, hc]
    rfl

theorem mmaOp_of_bad (hb : matBad (curTeam s) ws = true) : mmaOp s kind ws leader = illegal 0x10 := by
  simp only [mmaOp, leaderCheck_of_leads hl, hb, Bool.false_eq_true, if_false, if_true]

variable (hb : matBad (curTeam s) ws = false)
include hb

theorem mmaOp_of_partGang (hg : fullGang s = false) : mmaOp s kind ws leader = trapNow 4 0x05 := by
  simp only [mmaOp, leaderCheck_of_leads hl, hb, hg, Bool.not_false, Bool.false_eq_true, if_false, if_true]

variable (hg : fullGang s = true)
include hg

theorem mmaOp_of_outside (ho : (curTeam s).size < aEnd (matMulOf ws)) : mmaOp s kind ws leader = scratchFault s (ws.getD 0 0).toNat := by
  simp only [mmaOp, leaderCheck_of_leads hl, hb, hg, ho, Bool.not_true, Bool.false_eq_true, if_false, if_true]
  rfl

theorem mmaOp_of_inside (ho : aEnd (matMulOf ws) ≤ (curTeam s).size) : mmaOp s kind ws leader = queueOp s kind ws Cap.null := by
  simp only [mmaOp, leaderCheck_of_leads hl, hb, hg, Nat.not_lt.2 ho, Bool.not_true, Bool.false_eq_true, if_false]

end

/-- A multiplication that its team may issue, by the faults of its operand words. -/
theorem mma_forms {i : Instr} {s : State} {kind : Nat} {ws : List Word} {leader : Bool} (hl : leads s leader)
    (h : exec i s = finish s (mmaOp s kind ws leader)) :
    (matBad (curTeam s) ws = true → exec i s = .next (takeTrap s { cls := 3, code := 0x10 }))
    ∧ (matBad (curTeam s) ws = false → fullGang s = false → exec i s = .next (takeTrap s { cls := 4, code := 0x05 }))
    ∧ (matBad (curTeam s) ws = false → fullGang s = true → (curTeam s).size < aEnd (matMulOf ws) →
        exec i s = .next (takeTrap s { cls := 6, code := 0x03, lane := (firstLane s).getD 0, obj := (ws.getD 0 0).toNat }))
    ∧ (matBad (curTeam s) ws = false → fullGang s = true → aEnd (matMulOf ws) ≤ (curTeam s).size →
        (queuedOps s s.cur.core (curGroup s).team < 16 → exec i s = .next (retire (opQueued s kind ws Cap.null)))
        ∧ (16 ≤ queuedOps s s.cur.core (curGroup s).team → exec i s = .next (holdIssue s .sequencer))) := by
  refine ⟨fun hb => ?_, fun hb hg => ?_, fun hb hg ho => ?_, fun hb hg ho => ?_⟩
  · rw [h, mmaOp_of_bad hl kind hb]
    rfl
  · rw [h, mmaOp_of_partGang hl kind hb hg]
    rfl
  · rw [h, mmaOp_of_outside hl kind hb hg ho]
    rfl
  · exact queued_of kind ws Cap.null (by rw [h, mmaOp_of_inside hl kind hb hg ho])

/-- The sizes and steps of an acpy: bytes of an element, start, row step, and start of the scale area. -/
def acpyArea (s : State) (f : BitVec 3) (d : BitVec 5) : Nat := if f = 2 then (readUnif (curGroup s) s.clock d.toNat).toNat else 0

/-- The end of the elements of an acpy, and of its scales. -/
def acpyEnd (f : BitVec 3) (ws : List Word) : Nat :=
  (ws.getD 0 0).toNat + ((acpyBox ws).2.2.2.1 - 1) * (ws.getD 1 0).toNat + (acpyBox ws).2.2.2.2 * acpyWidth f.toNat
def acpyScaleEnd (s : State) (f : BitVec 3) (d : BitVec 5) (ws : List Word) : Nat :=
  acpyArea s f d + (acpyBox ws).2.2.2.1 * ((acpyBox ws).2.2.2.2 / 32)

/-- The operand words of an acpy are malformed. -/
def acpyBad (s : State) (f : BitVec 3) (ws : List Word) : Bool :=
  fieldNat (ws.getD 2 0) 24 8 ≠ 0 || fieldNat (ws.getD 2 0) 1 7 ≠ 0
    || boxBad (acpyBox ws).2.1 (acpyBox ws).2.2.1 (acpyBox ws).2.2.2.1 (acpyBox ws).2.2.2.2
    || !holdsSlot (curTeam s) (acpyBox ws).1 || (ws.getD 0 0).toNat % 16 != 0 || (ws.getD 1 0).toNat % 16 != 0
    || decide ((ws.getD 1 0).toNat < (acpyBox ws).2.2.2.2 * acpyWidth f.toNat) || (f == 2 && (acpyBox ws).2.2.2.2 % 32 != 0)

/-- An acpy after the checks of its slot and its operand registers. -/
def acpyOp (s : State) (f : BitVec 3) (d : BitVec 5) (ws : List Word) : Res State :=
  if acpyBad s f ws then illegal 0x10
  else if (curTeam s).size < acpyEnd f ws then scratchFault s (ws.getD 0 0).toNat
  else if f = 2 && decide ((curTeam s).size < acpyScaleEnd s f d ws) then scratchFault s (acpyArea s f d)
  else queueOp s 3 ([wordOf f.toNat, wordOf (acpyArea s f d)] ++ ws) Cap.null

theorem exec_acpy {s : State} {f : BitVec 3} {d a : BitVec 5}
    (ho : Once s { noLane := true, fnBad := decide (5 < f.toNat), encBad := decide (28 < a.toNat) || (f != 2 && d != 0) }
      (unifSrcs a 4 ++ (if f = 2 then [.unif d.toNat] else []))) :
    exec (.acpy f d a) s = finish s (acpyOp s f d (unifWords s a.toNat 4)) := by
  change execAcpy f d a s = _
  simp only [execAcpy, unifCheck_of_once ho]
  rfl

/-- An scld after the checks of its slot and its operand registers. -/
def scldBad (s : State) (ws : List Word) : Bool :=
  4096 < (ws.getD 1 0).toNat + (ws.getD 2 0).toNat || (ws.getD 2 0).toNat = 0 || (ws.getD 0 0).toNat % 4 ≠ 0 || !(curTeam s).weights
def scldOp (s : State) (ws : List Word) : Res State :=
  if scldBad s ws then illegal 0x10
  else if (curTeam s).size < (ws.getD 0 0).toNat + 4 * (ws.getD 2 0).toNat then scratchFault s (ws.getD 0 0).toNat
  else queueOp s 4 ws Cap.null

theorem exec_scld {s : State} {a : BitVec 5} (ho : Once s { noLane := true, encBad := decide (29 < a.toNat) } (unifSrcs a 3)) :
    exec (.scld a) s = finish s (scldOp s (unifWords s a.toNat 3)) := by
  change execScld a s = _
  simp only [execScld, unifCheck_of_once ho]
  rfl

/-- The object capability of a wbld. -/
def wbldCap (s : State) (ws : List Word) : Cap := capAt (curGroup s) s.clock (fieldNat (ws.getD 3 0) 0 4)

/-- The operand words of a wbld are malformed. -/
def wbldBad (s : State) (m : BitVec 1) (ws : List Word) : Bool :=
  fieldNat (ws.getD 3 0) 5 27 ≠ 0 || (m == 1 && fieldNat (ws.getD 3 0) 0 4 != 0) || (ws.getD 2 0).toNat = 0 || (ws.getD 2 0).toNat % 16 ≠ 0
    || (ws.getD 0 0).toNat % 16 ≠ 0 || (ws.getD 1 0).toNat % 16 ≠ 0 || decide (393216 < (ws.getD 1 0).toNat + (ws.getD 2 0).toNat)
    || !(curTeam s).weights

/-- The check of the range that a wbld moves. -/
def wbldRange (s : State) (m : BitVec 1) (ws : List Word) : Res Unit :=
  if m = 1 then checkRange s true (wbldCap s ws) ((firstLane s).getD 0) 0 0 ((ws.getD 0 0).toNat, (ws.getD 2 0).toNat)
  else checkAccess s (wbldCap s ws) ((firstLane s).getD 0) (ws.getD 0 0).toNat (ws.getD 2 0).toNat
    (if (ws.getD 3 0).getLsbD 4 then 0x02 else 0x01) (if (ws.getD 3 0).getLsbD 4 then 5 else 4) true

/-- A wbld after the checks of its slot and its operand registers. -/
def wbldOp (s : State) (m : BitVec 1) (ws : List Word) : Res State :=
  if wbldBad s m ws then illegal 0x10
  else
    match checkWait s (if m = 1 then [] else [.cap (fieldNat (ws.getD 3 0) 0 4)]) with
    | .error e => .error e
    | .ok () => after (checkUnder s (if m = 1 then [] else [.cap (fieldNat (ws.getD 3 0) 0 4)]) []) <|
    match wbldRange s m ws with
    | .error e => .error e
    | .ok () => queueOp s 5 (ws ++ [wordOf m.toNat]) (wbldCap s ws)

theorem exec_wbld {s : State} {m : BitVec 1} {a : BitVec 5} (ho : Once s { noLane := true, encBad := decide (28 < a.toNat) } (unifSrcs a 4)) :
    exec (.wbld m a) s = finish s (wbldOp s m (unifWords s a.toNat 4)) := by
  change execWbld m a s = _
  simp only [execWbld, unifCheck_of_once ho]
  rfl

section
variable {s : State} {m : BitVec 1} {ws : List Word} (hb : wbldBad s m ws = false)
  (hr : checkReady s (if m = 1 then [] else [.cap (fieldNat (ws.getD 3 0) 0 4)]) [] = .ok ())
include hb hr

theorem wbldOp_of_refused {e : Abort} (he : wbldRange s m ws = .error e) : wbldOp s m ws = .error e := by
  simp only [wbldOp, hb, (checkReady_ok hr).1, (checkReady_ok hr).2, after_ok, he, Bool.false_eq_true, if_false]

theorem wbldOp_of_range (hx : wbldRange s m ws = .ok ()) : wbldOp s m ws = queueOp s 5 (ws ++ [wordOf m.toNat]) (wbldCap s ws) := by
  simp only [wbldOp, hb, (checkReady_ok hr).1, (checkReady_ok hr).2, after_ok, hx, Bool.false_eq_true, if_false]

end

theorem checkRange_scratch {s : State} {c : Cap} {lane need kind : Nat} {r : Nat × Nat} : checkRange s true c lane need kind r
    = if (curTeam s).size < r.1 + r.2 then .error (.trap { cls := 6, code := 0x03, lane := lane, obj := r.1 }) else .ok () := rfl

/-- Settles O31: each operation by the faults of its operands, and the status. -/
theorem matrixInstructions : Obligations.MatrixInstructions := by
  intro s f m d a b g t lane queued refused outside idle
  refine ⟨?_, ⟨?_, fun ho => ⟨?_, ?_⟩⟩, ?_, ?_, ?_, ?_, ?_⟩
  · intro ws forms hs hr
    refine ⟨mma_forms (fun h => by cases h) (congrArg (finish s) (mmaIssue_of_ready hs hr 0 false)),
      fun h => mma_forms (fun _ => h) (congrArg (finish s) (mmaIssue_of_ready hs hr 1 true)), fun h => ?_⟩
    have hb : (!((curTeam s).spanRow == 0 && (curTeam s).spanCol == 0)) = true := by
      simpa only [Bool.not_eq_true', Bool.and_eq_false_iff, beq_eq_false_iff_ne, Classical.not_and_iff_not_or_not] using h
    refine (congrArg (finish s) (mmaIssue_of_ready hs hr 1 true)).trans ?_
    rw [mmaOp, Bool.true_and, if_pos hb]
    rfl
  · intro hs hr ha
    change execAclr m s = _
    simp only [execAclr, unifCheck_of_idle hs hr ha]
    rfl
  · intro hh
    refine queued_of 2 _ Cap.null ?_
    change execAclr m s = _
    simp only [execAclr, unifCheck_of_once ho, (show holdsSlot (curTeam s) m.toNat = true from hh), if_true]
  · intro hh
    change execAclr m s = _
    simp only [execAclr, unifCheck_of_once ho, (show holdsSlot (curTeam s) m.toNat = false from hh), Bool.false_eq_true, if_false]
    rfl
  · intro ws w off stride area box rows cols good o srcs
    have hgood : good ↔ acpyBad s f ws = false := by
      simp only [good, acpyBad, Bool.or_eq_false_iff, Bool.and_eq_false_iff, decide_eq_false_iff_not, Classical.not_not, bne_eq_false_iff_eq,
        Bool.not_eq_false', beq_eq_false_iff_ne, Nat.not_lt, and_assoc, ne_eq, Decidable.imp_iff_not_or]
      rfl
    refine ⟨fun hs hr ha => ?_, fun ho => ?_⟩
    · change execAcpy f d a s = _
      simp only [o] at hs
      simp only [srcs] at hr
      simp only [execAcpy, unifCheck_of_idle hs hr ha]
      rfl
    · have hx : exec (.acpy f d a) s = finish s (acpyOp s f d ws) := exec_acpy ho
      refine ⟨fun hg => hx.trans ?_, fun hg h => hx.trans ?_, fun hg h hf k => hx.trans ?_, fun hg h k => queued_of 3 _ Cap.null (hx.trans ?_)⟩
      · rw [acpyOp, if_pos (Bool.not_eq_false _ ▸ mt hgood.2 hg)]
        rfl
      · rw [acpyOp, hgood.1 hg, if_neg Bool.false_ne_true, if_pos (show (curTeam s).size < acpyEnd f ws from h)]
        rfl
      · have h : ¬ (curTeam s).size < acpyEnd f ws := Nat.not_lt.2 h
        have k : (curTeam s).size < acpyScaleEnd s f d ws := k
        rw [acpyOp, hgood.1 hg, if_neg Bool.false_ne_true, if_neg h, decide_eq_true hf, decide_eq_true k]
        rfl
      · have h : ¬ (curTeam s).size < acpyEnd f ws := Nat.not_lt.2 h
        have k : ¬ (decide (f = 2) && decide ((curTeam s).size < acpyScaleEnd s f d ws)) = true := by
          rw [Bool.and_eq_true_iff, decide_eq_true_iff, decide_eq_true_iff, not_and, Nat.not_lt]
          exact k
        rw [acpyOp, hgood.1 hg, if_neg Bool.false_ne_true, if_neg h, if_neg k]
        rfl
  · intro ws off n good o
    have hgood : good ↔ scldBad s ws = false := by
      simp only [good, scldBad, Bool.or_eq_false_iff, decide_eq_false_iff_not, Classical.not_not, Bool.not_eq_false', Nat.not_lt, ne_eq]
      grind
    refine ⟨fun hs hr ha => ?_, fun ho => ?_⟩
    · change execScld a s = _
      simp only [o] at hs
      simp only [execScld, unifCheck_of_idle hs hr ha]
      rfl
    · have hx : exec (.scld a) s = finish s (scldOp s ws) := exec_scld ho
      refine ⟨fun hg => hx.trans ?_, fun hg h => hx.trans ?_, fun hg h => queued_of 4 _ Cap.null (hx.trans ?_)⟩
      · rw [scldOp, if_pos (Bool.not_eq_false _ ▸ mt hgood.2 hg)]
        rfl
      · rw [scldOp, hgood.1 hg, if_neg Bool.false_ne_true, if_pos (show (curTeam s).size < _ from h)]
        rfl
      · rw [scldOp, hgood.1 hg, if_neg Bool.false_ne_true, if_neg (Nat.not_lt.2 h)]
  · intro ws w3 xoff len out cap good o
    have hgood : good ↔ wbldBad s m ws = false := by
      simp only [good, wbldBad, Bool.or_eq_false_iff, Bool.and_eq_false_iff, decide_eq_false_iff_not, Classical.not_not, bne_eq_false_iff_eq,
        Bool.not_eq_false', beq_eq_false_iff_ne, Nat.not_lt, ne_eq, Decidable.imp_iff_not_or]
      grind
    refine ⟨fun hs hr ha => ?_, fun ho => ?_⟩
    · change execWbld m a s = _
      simp only [o] at hs
      simp only [execWbld, unifCheck_of_idle hs hr ha]
      rfl
    · have hx : exec (.wbld m a) s = finish s (wbldOp s m ws) := exec_wbld ho
      refine ⟨fun hg => hx.trans ?_, fun hg h k => hx.trans ?_, fun hg h k => queued_of 5 _ _ (hx.trans ?_), fun hg h hr => ?_⟩
      · rw [wbldOp, if_pos (Bool.not_eq_false _ ▸ mt hgood.2 hg)]
        rfl
      · rw [wbldOp_of_refused (hgood.1 hg) (by rw [if_pos h]; exact checkReady_nil ho.2.1) ((if_pos h).trans (checkRange_scratch.trans (if_pos k)))]
        rfl
      · rw [wbldOp_of_range (hgood.1 hg) (by rw [if_pos h]; exact checkReady_nil ho.2.1)
          ((if_pos h).trans (checkRange_scratch.trans (if_neg (Nat.not_lt.2 k))))]
        rfl
      · have h1 : ¬ m = 1 := by rw [h]; decide
        have hr : checkReady s (if m = 1 then [] else [.cap (fieldNat (ws.getD 3 0) 0 4)]) [] = .ok () := by rw [if_neg h1]; exact hr
        refine ⟨fun x he => hx.trans ?_, fun he => queued_of 5 _ _ (hx.trans ?_)⟩
        · rw [wbldOp_of_refused (hgood.1 hg) hr ((if_neg h1).trans he)]
          rfl
        · rw [wbldOp_of_range (hgood.1 hg) hr ((if_neg h1).trans he)]
          rfl
  · intro hs hr ha
    change execMstat d a s = _
    simp only [execMstat, unifCheck_of_idle hs hr ha]
    rfl
  · intro ho
    change execMstat d a s = _
    simp only [execMstat, unifCheck_of_once ho]
    rfl

end Sys2Proof.Machine

/-!
PROOFS. The reed engine: gates, generators and results in lane registers (O32, O33).
-/

namespace Sys2Proof.Machine

/-! ### Faults on the datapath -/

theorem reedClean_of_poisoned {s : State} {zs : List Nat} {i : Nat}
    (h : (activeLanes s).find? (fun i => zs.any (fun z => (curGroup s).regs.bad.contains (reedKey z i))) = some i) :
    reedClean s zs = .error (.trap { cls := 1, code := 0x01, lane := i }) := by
  unfold reedClean
  rw [h]

section
variable {s : State} {d a b : BitVec 3}

theorem gateOp_of_dependent (hk : reedCheck s [d.toNat, a.toNat, b.toNat] = .ok true) (hc : reedClean s [a.toNat, b.toNat] = .ok ())
    (hm : reedMask (curGroup s) a.toNat &&& reedMask (curGroup s) b.toNat ≠ 0) (f : Nat → Nat → Nat) :
    gateOp s .apart d a b f = .next (takeTrap s { cls := 9, code := 0x01, detail := [(reedMask (curGroup s) a.toNat).zeroExtend 32,
      (reedMask (curGroup s) b.toNat).zeroExtend 32] }) := by
  unfold gateOp
  rw [hk]
  simp only [hc, bne_iff_ne, ne_eq, hm, not_false_eq_true, if_true]
  rfl

theorem gateOp_of_unequal (hk : reedCheck s [d.toNat, a.toNat, b.toNat] = .ok true) (hc : reedClean s [a.toNat, b.toNat] = .ok ())
    (hm : reedMask (curGroup s) a.toNat ≠ reedMask (curGroup s) b.toNat) (hx : reedMask (curGroup s) a.toNat ≠ 0)
    (hy : reedMask (curGroup s) b.toNat ≠ 0) (f : Nat → Nat → Nat) :
    gateOp s .same d a b f = .next (takeTrap s { cls := 9, code := 0x02, detail := [(reedMask (curGroup s) a.toNat).zeroExtend 32,
      (reedMask (curGroup s) b.toNat).zeroExtend 32] }) := by
  have hbad : (reedMask (curGroup s) a.toNat != reedMask (curGroup s) b.toNat && reedMask (curGroup s) a.toNat != 0
      && reedMask (curGroup s) b.toNat != 0) = true := by
    simp only [Bool.and_eq_true, bne_iff_ne]
    exact ⟨⟨hm, hx⟩, hy⟩
  unfold gateOp
  rw [hk]
  simp only [hc, hbad, if_true]
  rfl

theorem gateOp_of_poisoned {l : Nat} (hk : reedCheck s [d.toNat, a.toNat, b.toNat] = .ok true)
    (hc : reedClean s [a.toNat, b.toNat] = .error (.trap { cls := 1, code := 0x01, lane := l })) (rule : MaskRule) (f : Nat → Nat → Nat) :
    gateOp s rule d a b f = .next (takeTrap s { cls := 1, code := 0x01, lane := l }) := by
  unfold gateOp
  rw [hk, hc]
  rfl

theorem execZnot_of_poisoned {w : Bool} {l : Nat} (hk : reedCheck s [d.toNat, a.toNat] = .ok w)
    (hc : reedClean s [a.toNat] = .error (.trap { cls := 1, code := 0x01, lane := l })) :
    execZnot d a s = .next (takeTrap s { cls := 1, code := 0x01, lane := l }) := by
  unfold execZnot
  rw [hk, hc]
  rfl

theorem execZregen_of_poisoned {w : Bool} {l : Nat} (hk : reedCheck s [d.toNat, a.toNat] = .ok w)
    (hc : reedClean s [a.toNat] = .error (.trap { cls := 1, code := 0x01, lane := l })) (c : BitVec 4) :
    execZregen d a c s = .next (takeTrap s { cls := 1, code := 0x01, lane := l }) := by
  unfold execZregen
  rw [hk, hc]
  rfl

end

theorem onReed_of_busy {s : State} (hbusy : s.clock < reedFreeAt s) (hact : (activeLanes s).isEmpty = false) (n : Nat) (t : State) :
    onReed s n (.ok t) = .next (holdIssue s .reed) := by
  unfold onReed
  simp only [hact, Bool.false_eq_true, if_false, if_pos hbusy]
  rfl

theorem execZseed_of_once {s : State} {z : BitVec 5} (h : Once s { noLane := true } [.unif z.toNat]) (hn : reedNames s [0] = .ok ()) :
    execZseed z s = .next (retire (setCur s { curGroup s with
      regs := { (curGroup s).regs with zseed := readUnif (curGroup s) s.clock z.toNat } })) := by
  obtain ⟨hslot, hready, hact⟩ := h
  obtain ⟨hwait, hunder⟩ := checkReady_ok hready
  unfold execZseed
  simp only [hslot, hn, hwait, hunder, hact]
  rfl

/-- Settles O32: every gate and generator is one write on the datapath, behind the checks of its masks and of poison. -/
theorem reedStreams : Obligations.ReedStreams := by
  unfold Obligations.ReedStreams
  intro s d a b c g x y l free done gate
  refine ⟨fun h hc => ⟨fun hm hfree => ⟨?_, ?_⟩, fun hm => ?_, fun hm hfree => ⟨?_, ?_, ?_⟩, fun hm hx hy i hi => ?_,
      fun hm hcd hfree => ?_⟩,
    fun i zs hfind => ⟨fun hzs h => ?_, fun hzs h => ?_⟩, fun h hc => ⟨fun hfree => ⟨?_, ?_⟩, fun hbusy => ?_⟩,
    fun f k vals u => ?_, fun z h hn => execZseed_of_once h hn⟩
  · exact (gateOp_apart h.check hc hm _).trans (onReed_of_free hfree h.active _ _)
  · exact (gateOp_apart h.check hc hm _).trans (onReed_of_free hfree h.active _ _)
  · exact gateOp_of_dependent h.check hc hm _
  · exact (gateOp_same h.check hc hm _).trans (onReed_of_free hfree h.active _ _)
  · exact (gateOp_same h.check hc hm _).trans (onReed_of_free hfree h.active _ _)
  · exact (gateOp_same h.check hc hm _).trans (onReed_of_free hfree h.active _ _)
  · obtain rfl | rfl | rfl := hi
    · exact gateOp_of_unequal h.check hc hm hx hy _
    · exact gateOp_of_unequal h.check hc hm hx hy _
    · exact gateOp_of_unequal h.check hc hm hx hy _
  · exact (execZmux_of_apart h.check hcd hm).trans (onReed_of_free hfree h.active _ _)
  · subst hzs
    have hc := reedClean_of_poisoned hfind
    exact ⟨gateOp_of_poisoned h.check hc .apart (fun x y => x &&& y), gateOp_of_poisoned h.check hc .same (fun x y => x ^^^ y)⟩
  · subst hzs
    have hc := reedClean_of_poisoned hfind
    exact ⟨execZnot_of_poisoned h.check hc, execZregen_of_poisoned h.check hc c⟩
  · exact (execZnot_of_check h.check hc).trans (onReed_of_free hfree h.active _ _)
  · exact (execZregen_of_check h.check hc c).trans (onReed_of_free hfree h.active _ _)
  · exact (execZnot_of_check h.check hc).trans (onReed_of_busy hbusy h.active _ _)
  · intro o h hr hact hfree
    exact (execZgen_of_reads h hr c).trans (onReed_of_free hfree hact _ _)

/-! ### Lane results without register sources -/

/-- An instruction that names no register has no last-read name. -/
theorem applyLast_nil (s : State) (o : OpInfo) (written : List Nat) : applyLast s o 0 0 written = s := by
  have h (f : Option (BitVec 7)) : fieldNames (curGroup s) f 0 = [] := by cases f <;> rfl
  simp [applyLast, h]

theorem keepRaised_zero (g : Group) : keepRaised g 0 = g := by
  have h (r : Region) : { r with clears := r.clears &&& ~~~(0 : BitVec 10) } = r := by
    have hclears : r.clears &&& ~~~0#10 = r.clears := by rw [BitVec.not_zero, BitVec.and_allOnes]
    exact congrArg (fun m : BitVec 10 => { r with clears := m }) hclears
  simp only [keepRaised, h, List.map_id']

theorem sameButUnits_curGroup (s : State) : SameButUnits (setCur s (curGroup s)) s :=
  ⟨(sameMemory_setCur s _).symm, fun c x => by
    rw [getGroup_setCur]
    split
    · rename_i h
      rw [h.1, h.2, curGroup]
    · rfl, rfl, rfl, rfl⟩

theorem sameButUnits_orFlags_zero (s : State) : SameButUnits (orFlags s 0) s := by
  have h : orFlags s 0 = setCur s (curGroup s) := by
    unfold orFlags
    refine congrArg (setCur s) ((keepRaised_zero _).trans ?_)
    simp
  rw [h]
  exact sameButUnits_curGroup s

/-- Words written to names that fit, with no source and no flag, are a lane result. -/
theorem laneDone_writeNames {s : State} {d : BitVec 7} {n : Nat} (hn : ∀ k ∈ upTo n, nameOf (curGroup s) d + k ≤ 251) (o : OpInfo) (lat : Nat)
    (words : List Lanes) :
    LaneDone s (retire (writeNames d lat words s (upTo n))) o 0 0 d n (fun i k => laneVal (words.getD k []) i) 0 := by
  refine (laneEffect_done hn o [] 0 0 lat words 0).trans_units (SameButUnits.retire ?_)
  unfold laneEffect
  rw [applyLast_nil]
  exact sameButUnits_orFlags_zero _

theorem sameButUnits_occupyReed (s : State) (n : Nat) : SameButUnits s (occupyReed s n) :=
  sameButUnits_setCore s s.cur.core rfl rfl rfl rfl rfl

theorem reedFreeAt_occupyReed (s : State) (n : Nat) : reedFreeAt (retire (occupyReed s n)) = s.clock + n := by
  have hpipe : (curGroup (retire (occupyReed s n))).pipe = (curGroup s).pipe := by
    have h := congrArg Group.pipe ((oneGroup_retire (occupyReed s n)).frame.group.rest)
    rwa [curGroup_occupyReed] at h
  unfold reedFreeAt
  rw [hpipe]
  simp [retire, occupyReed, setCur, setGroup, lookup_insertKey_self]

/-! ### Reed results in lane registers (R323) -/

/-- The static facts of an instruction that writes lane register `d` from reed registers. -/
def reedOutInfo (o : OpInfo) (d : BitVec 7) : OpInfo := { o with noLane := true, dst := some d, encBad := o.encBad || isStream d }

/-- The word of each lane, written to its destination. -/
def reedOutState (s : State) (d : BitVec 7) (v : Nat → Word) : State := writeNames d 0 [(upTo 32).map v] s (upTo 1)

section
variable {s : State} {o : OpInfo} {d : BitVec 7} {zs rs : List Nat}

theorem reedOut_of_runs (h : LaneRuns s (reedOutInfo o d) [] d 1) (hn : reedNames s zs = .ok ()) (hc : reedClean s rs = .ok ())
    (v : Nat → Word) : reedOut s o d zs rs v = .ok (reedOutState s d v) := by
  have hfirst : reedFirst s (reedOutInfo o d) zs = .ok () := by
    unfold reedFirst
    rw [slotFault_of_checkSlot h.slot]
    exact hn
  have hread := readSources_of_runs h
  have hwrite := writeDst_reg (words := [(upTo 32).map v]) (lat := 0) h.reg h.peak h.credit
  unfold reedOut
  unfold reedOutInfo at hfirst hread
  simp only [hfirst, hread, h.ready.2, hc, after_ok]
  exact hwrite

theorem reedOutState_done (h : LaneRuns s (reedOutInfo o d) [] d 1) (v : Nat → Word) :
    LaneDone s (retire (reedOutState s d v)) (reedOutInfo o d) 0 0 d 1 (fun i _ => v i) 0 := by
  refine (laneDone_writeNames (dst_names_le h.dst h.reg) _ 0 _).congr fun i hi k hk => ?_
  obtain rfl : k = 0 := by omega
  exact getD_map_upTo v 32 i 0 hi

/-- A result on the datapath, which an active lane occupies. -/
theorem onReed_reedOut_done (h : LaneRuns s (reedOutInfo o d) [] d 1) (hn : reedNames s zs = .ok ()) (hc : reedClean s zs = .ok ())
    (hfree : reedFreeAt s ≤ s.clock) (n : Nat) (v : Nat → Word) :
    ∃ t, onReed s n (reedOut s o d zs zs v) = .next t ∧ LaneDone s t (reedOutInfo o d) 0 0 d 1 (fun i _ => v i) 0
      ∧ ((activeLanes s).isEmpty = false → reedFreeAt t = s.clock + n) := by
  have hdone := reedOutState_done h v
  rw [reedOut_of_runs h hn hc]
  cases hact : (activeLanes s).isEmpty with
  | true => exact ⟨_, onReed_of_idle hact n _, hdone, nofun⟩
  | false =>
    have hclock : (reedOutState s d v).clock = s.clock :=
      (sameLanes_writeNames d 0 _ (upTo 1) s (dst_names_le h.dst h.reg)).clock
    refine ⟨_, onReed_of_free hfree hact n _, hdone.trans_units (sameButUnits_occupyReed _ n).retire, fun _ => ?_⟩
    rw [reedFreeAt_occupyReed, hclock]

end

theorem reedClocks_ne_zero (s : State) (n bits : Nat) : reedClocks s n bits ≠ 0 := by
  have h : 1 ≤ reedClocks s n bits := Nat.le_max_left ..
  omega

/-- Settles O33: each result is one lane write, the counts on the datapath. -/
theorem reedResults : Obligations.ReedResults := by
  unfold Obligations.ReedResults
  intro s f n a d g count done
  refine ⟨fun h hn hbusy => ?_, fun h hn _ => ?_, fun h hn hbusy => ?_⟩
  · obtain ⟨hfree, hc⟩ := hbusy (reedClocks_ne_zero s _ _)
    obtain ⟨t, ht, hdone, hfreeAt⟩ := onReed_reedOut_done h hn hc hfree (reedClocks s 1 256) _
    exact ⟨t, ht, hdone, fun _ => hfreeAt⟩
  · refine ⟨_, ?_, reedOutState_done h _, fun h0 => absurd rfl h0⟩
    have hc : reedClean s [] = .ok () := by
      have hnone : (activeLanes s).find? (fun _ => false) = none := find?_eq_none_of_all fun _ _ => rfl
      simp only [reedClean, List.any_nil, hnone]
    change finish s (reedOut s {} d [a.toNat] [] _) = _
    rw [reedOut_of_runs h hn hc]
    rfl
  · obtain ⟨hfree, hc⟩ := hbusy (reedClocks_ne_zero s _ _)
    obtain ⟨t, ht, hdone, hfreeAt⟩ := onReed_reedOut_done h hn hc hfree (reedClocks s (n.toNat + 2) 256) _
    refine ⟨t, Eq.trans ?_ ht, hdone, fun _ => hfreeAt⟩
    have hlen : ((upTo (n.toNat + 2)).map (fun k => a.toNat + k)).length = n.toNat + 2 := by simp [upTo]
    change execZsum n d a s = _
    unfold execZsum
    simp only [hlen]
    rfl

end Sys2Proof.Machine

/-!
PROOFS. Scratchpad loads and stores: frames, folds that succeed, bank queues (O17).
-/

namespace Sys2Proof.Machine

/-! ### Frames, one after another -/

theorem SameOthers.trans {s t u : State} (h : SameOthers s t) (hc : t.cur = s.cur) (k : SameOthers t u) : SameOthers s u :=
  ⟨fun c g hx => (k.groups c g (by rwa [hc])).trans (h.groups c g hx), k.due.trans h.due⟩

theorem IssuerOnly.trans {s t u : State} (h : IssuerOnly s t) (hc : t.cur = s.cur) (k : IssuerOnly t u) : IssuerOnly s u :=
  ⟨h.memory.trans k.memory, h.others.trans hc k.others, h.group.trans k.group⟩

theorem IssuerOnly.refl (s : State) : IssuerOnly s s :=
  ⟨SameMemory.refl s, ⟨fun _ _ _ => rfl, rfl⟩, Keeps.refl _⟩

theorem AtMostGroup.frame {s t : State} (h : AtMostGroup s t) : IssuerOnly s t := by
  rcases h with rfl | h
  · exact IssuerOnly.refl _
  · exact h.frame

theorem held_pushStore (s : State) (ws : List Write) (drained : Bool) (ctr : Nat) {st : StoreOp} (h : st ∈ (curGroup s).held) :
    st ∈ (curGroup (pushStore s ws drained ctr)).held := by
  unfold pushStore
  split
  · exact h
  · have hregions (g : Group) (n : Nat) : (countUp g n).regions = g.regions := by
      unfold countUp
      split <;> rfl
    rw [curGroup_setCur]
    unfold Group.held at h ⊢
    rw [hregions]
    unfold setCurRegion curRegion
    rcases List.eq_nil_or_concat (curGroup s).regions with hn | ⟨l, x, hx⟩
    · rw [hn] at h
      cases h
    · rw [hx] at h ⊢
      simp only [List.concat_eq_append, List.flatMap_append, List.mem_append, List.dropLast_concat, List.getLast?_append, List.flatMap_cons,
        List.getLast?_singleton, Option.some_or, Option.getD_some] at h ⊢
      rcases h with h | h | h
      · exact .inl h
      · exact .inr (.inl (.inl h))
      · exact .inr (.inr h)

/-! ### Folds that succeed -/

theorem foldl_collect {α β γ δ : Type} {f : List β × γ × δ → α → List β × γ × δ} {v : α → β} {c : γ} {d : δ} (l : List α)
    (h : ∀ acc, ∀ x ∈ l, f (acc, c, d) x = (acc ++ [v x], c, d)) : ∀ acc, l.foldl f (acc, c, d) = (acc ++ l.map v, c, d) := by
  induction l with
  | nil => intro acc; simp
  | cons x r ih =>
    intro acc
    rw [List.foldl_cons, h acc x (List.mem_cons_self ..), ih fun acc y hy => h acc y (List.mem_cons_of_mem _ hy)]
    simp

/-- Requests that all succeed and leave the state as it is. -/
theorem gather_ok {α β : Type} {f : State → β → Res (α × State)} {v : β → α} {xs : List β} {s : State}
    (h : ∀ x ∈ xs, f s x = .ok (v x, s)) : gather f s xs = .ok (xs.map (fun x => (x, v x)), s) := by
  simp only [gather]
  rw [foldl_collect (v := fun x => (x, v x)) xs fun acc x hx => by rw [h x hx]]
  rfl

theorem foldRes_collect {α β : Type} {f : List β → α → Res (List β)} {v : α → β} (l : List α)
    (h : ∀ acc, ∀ x ∈ l, f acc x = .ok (acc ++ [v x])) : ∀ acc, foldRes f acc l = .ok (acc ++ l.map v) := by
  induction l with
  | nil => intro acc; simp [foldRes]
  | cons x r ih =>
    intro acc
    rw [foldRes, h acc x (List.mem_cons_self ..)]
    simp only [ih fun acc y hy => h acc y (List.mem_cons_of_mem _ hy), List.map_cons, List.append_assoc, List.singleton_append]

theorem lookup_map_of_mem {α : Type} (f : Nat → α) (d : α) {l : List Nat} {i : Nat} (h : i ∈ l) :
    lookup (l.map (fun x => (x, f x))) i d = f i := by
  induction l with
  | nil => cases h
  | cons x r ih =>
    rw [List.map_cons, lookup]
    split
    · next hx => rw [hx]
    · next hx =>
      rcases List.mem_cons.1 h with rfl | h
      · exact absurd rfl hx
      · exact ih h

/-- Scratchpad writes need no translation. -/
theorem translateWrites_scratch {s : State} {c : Nat} {ws : List Write} (h : ∀ w ∈ ws, w.obj = Config.scratchObj) :
    translateWrites s c ws = .ok s := by
  unfold translateWrites
  rw [gather_ok (v := fun _ => ()) (s := s) fun w hw => ?_]
  simp only [translateWrite, h w hw, decide_true, Bool.true_or, if_true, liftMem]

/-! ### Plain sources -/

theorem streamFault_of_plain {s : State} {srcs : List Src} (h : noStreams srcs = true) : streamFault s srcs none = none := by
  unfold noStreams at h
  unfold streamFault
  rw [List.isEmpty_iff.1 h]
  rfl

/-- Registers that are no stream are read as they stand. -/
theorem readSources_of_plain {s : State} {o : OpInfo} {srcs : List Src} (hslot : checkSlot s o = .ok ())
    (hrange : srcs.any (srcRange s) = false) (hdst : o.dst = none) (hplain : noStreams srcs = true) (hready : checkReady s srcs [] = .ok ()) :
    readSources s o srcs = .ok (srcs.map (srcLanes s []), noteDead s srcs) := by
  have hs : checkSlot s { o with rangeBad := o.rangeBad || srcs.any (srcRange s) } = .ok () := by
    rw [hrange, Bool.or_false]
    exact hslot
  have hw : checkWait s (srcs ++ streamCaps (curGroup s) (dstStream o.dst)) = .ok () := by
    rw [hdst]
    simpa [dstStream, streamCaps] using (checkReady_ok hready).1
  unfold readSources
  rw [hs]
  simp only [hw]
  simp only [hdst, streamFault_of_plain hplain, streamSources_none s srcs hplain]

/-! ### Bank queues (R54, R55) -/

/-- The issuing core with its bank queues changed. -/
def setBanks (s : State) (b : FMap Nat) (h : Nat) : State :=
  setCore s s.cur.core { getCore s s.cur.core with banks := b, bankHold := h }

theorem enterBanks_eq (clock : Nat) (words : List Nat) (k : Core) :
    ∃ b h, enterBanks k clock words = { k with banks := b, bankHold := h } := by
  unfold enterBanks
  generalize words.eraseDups = l
  induction l generalizing k with
  | nil => exact ⟨k.banks, k.bankHold, rfl⟩
  | cons w r ih =>
    obtain ⟨b, h, he⟩ := ih _
    exact ⟨b, h, he⟩

section
variable (s : State) (b : FMap Nat) (h : Nat)

theorem sameButUnits_setBanks : SameButUnits s (setBanks s b h) :=
  sameButUnits_setCore s s.cur.core rfl rfl rfl rfl rfl

@[simp] theorem curGroup_setBanks : curGroup (setBanks s b h) = curGroup s := (sameButUnits_setBanks s b h).curGroup

theorem sameLanes_setBanks : SameLanes s (setBanks s b h) :=
  ⟨rfl, rfl, by rw [curGroup_setBanks], by rw [curGroup_setBanks], by rw [curGroup_setBanks], by rw [curGroup_setBanks],
    fun _ => by rw [curGroup_setBanks]; rfl⟩

@[simp] theorem activeLanes_setBanks : activeLanes (setBanks s b h) = activeLanes s := (sameLanes_setBanks s b h).active

theorem writeQuads_setBanks (f : BitVec 7) : writeQuads (setBanks s b h) f = writeQuads s f := by
  unfold writeQuads
  rw [curGroup_setBanks, activeLanes_setBanks]

theorem peakBad_setBanks (f : BitVec 7) (n : Nat) : peakBad (setBanks s b h) f n = peakBad s f n := by
  unfold peakBad peakOf curLaunch
  rw [curGroup_setBanks, writeQuads_setBanks]
  rfl

theorem creditShort_setBanks (f : BitVec 7) (n : Nat) : creditShort (setBanks s b h) f n = creditShort s f n := by
  have hfree : freeRegs (setBanks s b h) s.cur.core = freeRegs s s.cur.core := by
    unfold freeRegs setBanks
    rw [getCore_setCore]
    rfl
  unfold creditShort
  rw [curGroup_setBanks, writeQuads_setBanks]
  change (_ && decide (freeRegs (setBanks s b h) s.cur.core < _)) = _
  rw [hfree]

theorem curTeam_setBanks : curTeam (setBanks s b h) = curTeam s := by
  unfold curTeam getTeam
  rw [curGroup_setBanks]
  unfold setBanks
  rw [setCore_cur, getCore_setCore]

theorem scratchBad_setBanks (off n : Nat) : scratchBad (setBanks s b h) off n = scratchBad s off n := by
  unfold scratchBad
  rw [curTeam_setBanks]
  unfold setBanks
  rw [setCore_cur, getCore_setCore]
  rfl

theorem readScratch_setBanks (off n : Nat) : readScratch (setBanks s b h) off n = readScratch s off n := by
  unfold readScratch
  rw [curTeam_setBanks, curGroup_setBanks]
  unfold setBanks
  rw [setCore_cur, getCore_setCore]
  rfl

end

/-- An access that no bank queue holds back passes, and leaves nothing but the queues changed. -/
theorem throughBanks_of_free {s : State} {n : Nat} {offs : List Nat}
    (h : isLane s = true ∨ offs = [] ∨ (getCore s s.cur.core).bankHold ≤ s.clock) :
    throughBanks s n offs = .ok s ∨ ∃ b k, throughBanks s n offs = .ok (setBanks s b k) := by
  unfold throughBanks enterUnit
  split
  · exact .inl rfl
  · next hl =>
    split
    · exact .inl rfl
    · next hw =>
      rcases h with h | rfl | h
      · exact absurd h hl
      · exact absurd rfl hw
      · rw [if_neg (Nat.not_lt.2 h)]
        obtain ⟨b, k, he⟩ := enterBanks_eq s.clock (bankWords n offs) (getCore s s.cur.core)
        exact .inr ⟨b, k, by rw [he, setBanks]⟩

theorem throughBanks_of_held {s : State} {n : Nat} {offs : List Nat} (hl : isLane s = false) (ho : offs ≠ []) (hn : 0 < n)
    (h : s.clock < (getCore s s.cur.core).bankHold) :
    throughBanks s n offs = .error (.hold (.bank (getCore s s.cur.core).bankHold)) := by
  have hw : (bankWords n offs).isEmpty = false := by
    obtain ⟨x, r, rfl⟩ := List.exists_cons_of_ne_nil ho
    have hk : 0 < (x % 8 + n + 7) / 8 := by omega
    obtain ⟨m, hm⟩ := Nat.exists_eq_succ_of_ne_zero (Nat.pos_iff_ne_zero.1 hk)
    simp [bankWords, hm, upTo]
  unfold throughBanks enterUnit
  simp only [hl, hw, Bool.false_eq_true, if_false, if_pos h]

/-! ### The note of a dead source leaves the scratchpad's view alone -/

section
variable (s : State) (srcs : List Src)

theorem curTeam_noteDead : curTeam (noteDead s srcs) = curTeam s := by
  unfold noteDead
  split
  · exact curTeam_setCur s _ rfl
  · rfl

theorem heldWrites_keepRaised (g : Group) (m : BitVec 10) : heldWrites (keepRaised g m) = heldWrites g := by
  simp [heldWrites, keepRaised, List.flatMap_map]

theorem heldWrites_noteDead : heldWrites (curGroup (noteDead s srcs)) = heldWrites (curGroup s) := by
  unfold noteDead
  split
  · rw [curGroup_setCur]
    exact heldWrites_keepRaised _ _
  · rfl

theorem heldCount_noteDead : heldCount (curGroup (noteDead s srcs)) = heldCount (curGroup s) := by
  unfold noteDead
  split
  · rw [curGroup_setCur]
    simp [heldCount, keepRaised, List.foldl_map]
  · rfl

theorem checkScratch_noteDead (lane off n : Nat) : checkScratch (noteDead s srcs) lane off n = checkScratch s lane off n := by
  unfold checkScratch
  rw [curTeam_noteDead, isLane_noteDead]

/-- The core of a state in which a group was written, but for its groups. -/
theorem getCore_noteDead : ∃ g, getCore (noteDead s srcs) s.cur.core = { getCore s s.cur.core with groups := g } := by
  unfold noteDead
  split
  · exact ⟨_, getCore_setCore ..⟩
  · exact ⟨_, rfl⟩

theorem scratchBad_noteDead (off n : Nat) : scratchBad (noteDead s srcs) off n = scratchBad s off n := by
  obtain ⟨g, hg⟩ := getCore_noteDead s srcs
  unfold scratchBad
  rw [curTeam_noteDead, isLane_noteDead, (sameLanes_noteDead s srcs).cur, hg]
  rfl

theorem readScratch_noteDead (off n : Nat) : readScratch (noteDead s srcs) off n = readScratch s off n := by
  obtain ⟨g, hg⟩ := getCore_noteDead s srcs
  unfold readScratch overlay
  rw [curTeam_noteDead, isLane_noteDead, heldWrites_noteDead, (sameLanes_noteDead s srcs).cur, hg]

end

/-! ### Scratchpad instructions -/

/-- The data of the active lanes' loads. -/
def scratchData (s : State) (off : Nat → Nat) (n : Nat) : List (Nat × List Byte) := (activeLanes s).map (fun i => (i, readScratch s (off i) n))

theorem widthBytes_pos (w : BitVec 3) : 0 < widthBytes w := Nat.two_pow_pos _

theorem dataBad_eq_false {s : State} {d : BitVec 5} {n : Nat} (h : dataBad s d n = false) :
    isStream (plainField d) = false ∧ nameOf (curGroup s) (plainField d) + (n - 1) ≤ 251 := by
  unfold dataBad lastName at h
  rw [Bool.or_eq_false_iff, decide_eq_false_iff_not] at h
  refine ⟨h.1, ?_⟩
  have h := h.2
  split at h <;> omega

theorem widthNames_pos (n : Nat) : 0 < widthNames n := by
  unfold widthNames
  split
  · omega
  · split <;> omega

theorem loaded_names_le {s : State} {d : BitVec 5} {n : Nat} (h : dataBad s d (widthNames n) = false) :
    ∀ k ∈ upTo (widthNames n), nameOf (curGroup s) (plainField d) + k ≤ 251 := by
  intro k hk
  have hk := (mem_upTo _ k).1 hk
  have h := (dataBad_eq_false h).2
  omega

/-- A lane result written in a state `u` that shares with `s` all that lane instructions read, from sources already read there. -/
theorem laneDone_write {s u : State} {d : BitVec 7} {n : Nat} (hn : ∀ k ∈ upTo n, nameOf (curGroup s) d + k ≤ 251) (hl : SameLanes s u)
    (o : OpInfo) (na nb lat : Nat) (words : List Lanes) :
    LaneDone u (retire (applyLast (writeNames d lat words u (upTo n)) o na nb (destNames s d n))) o na nb d n
      (fun i k => laneVal (words.getD k []) i) 0 := by
  have hn' : ∀ k ∈ upTo n, nameOf (curGroup u) d + k ≤ 251 := fun k hk => by rw [hl.name]; exact hn k hk
  have hd : destNames u d n = destNames s d n := by simp only [destNames, hl.name]
  refine (laneEffect_done hn' o [] na nb lat words 0).trans_units (SameButUnits.retire ?_)
  unfold laneEffect
  rw [hd]
  exact sameButUnits_orFlags_zero _

theorem Wrote.of_sameLanes {s u t : State} {d : BitVec 7} {n : Nat} {v : Nat → Nat → Word} (hl : SameLanes s u) (h : Wrote u t d n v) :
    Wrote s t d n v := by
  intro i k hw hk
  have hdest (j : Nat) : destLane u d j = destLane s d j := hl.field d j
  have hw' : writesLane u d i := by
    unfold writesLane at hw ⊢
    rw [hl.active, hl.nquad]
    simp only [hdest]
    exact hw
  have hr := h i k hw' hk
  rwa [hl.name, hdest] at hr

theorem WentTo.of_sameLanes {s u t : State} {pc : Word} (hl : SameLanes s u) (h : WentTo u t pc) : WentTo s t pc := by
  unfold WentTo ctlStall ctlAstr at h ⊢
  rw [hl.cur, hl.clock] at h
  exact h

section
variable {s : State} {c w : BitVec 3} {d a : BitVec 5}

/-- The source of lds's offsets, and their values. -/
def ldsOff (s : State) (a : BitVec 5) (i : Nat) : Nat := (laneVal (srcLanes s [] (.reg (plainField a) 0)) i).toNat

/-- The meaning of lds behind the reading of its offsets: in a state `t`, with offsets `off`. -/
def ldsOp (s t : State) (o : OpInfo) (d : BitVec 5) (n : Nat) (off : Nat → Nat) : Res State :=
  match foldRes (fun _ i => checkScratch t i (off i) n) () (activeLanes t) with
  | .error e => .error e
  | .ok () =>
    match throughBanks t n ((activeLanes t).map off) with
    | .error e => .error e
    | .ok t =>
      match foldRes (fun (acc : List (Nat × List Byte)) i => match loadScratch t i (off i) n with
          | .error e => (.error e : Res (List (Nat × List Byte)))
          | .ok bs => .ok (acc ++ [(i, bs)])) [] (activeLanes t) with
      | .error e => .error e
      | .ok bytes =>
        match writeLoaded t d n bytes with
        | .error e => .error e
        | .ok t => .ok (applyLast t o 1 0 (dstNames s (some (plainField d)) (widthNames n)))

theorem exec_lds (hf : CountFree s c.toNat) (hslot : checkSlot s (memInfo a true (decide (4 < w.toNat))) = .ok ())
    (hd : dataBad s d (widthNames (widthBytes w)) = false) (hready : checkReady s [.reg (plainField a) 0] [] = .ok ())
    (hplain : isStream (plainField a) = false) :
    exec (.lds c d a w) s = finish s (ldsOp s (noteDead s [.reg (plainField a) 0]) (memInfo a true (decide (4 < w.toNat))) d (widthBytes w)
      (ldsOff s a)) := by
  have hread := readSources_of_plain (o := memInfo a true (decide (4 < w.toNat))) hslot (by simp [srcRange]) rfl
    (by simp [noStreams, streamCode, hplain]) hready
  change execLds c d a w s = _
  unfold execLds
  simp only [hd, counted_of_free hf]
  change finish s (match readSources s (memInfo a true (decide (4 < w.toNat))) [.reg (plainField a) 0] with
    | .error e => .error e
    | .ok (vals, t) => _) = _
  rw [hread]
  simp only [(checkReady_ok hready).2, after_ok]
  rfl

/-- The state in which the data are written: the sources read, the access past the banks. -/
theorem ldsOp_of_free {t u : State} {o : OpInfo} {n : Nat} {off : Nat → Nat} (hcheck : ∀ i ∈ activeLanes t, checkScratch t i (off i) n = .ok ())
    (hb : throughBanks t n ((activeLanes t).map off) = .ok u) (hl : SameLanes t u)
    (hbad : ∀ i ∈ activeLanes t, scratchBad u (off i) n = false) (hs : isStream (plainField d) = false)
    (hpeak : peakBad u (plainField d) (widthNames n) = false) (hcredit : creditShort u (plainField d) (widthNames n) = false) :
    ldsOp s t o d n off = .ok (applyLast (writeNames (plainField d) 0 ((upTo (widthNames n)).map (wordsOf (scratchData u off n))) u
      (upTo (widthNames n))) o 1 0 (destNames s (plainField d) (widthNames n))) := by
  have hload : ∀ i ∈ activeLanes u, loadScratch u i (off i) n = .ok (readScratch u (off i) n) := by
    intro i hi
    rw [loadScratch, hbad i (hl.active ▸ hi), if_neg Bool.false_ne_true]
  have hlen : ((upTo (widthNames n)).map (wordsOf (scratchData u off n))).length = widthNames n := by simp [upTo]
  have hwrite : writeLoaded u d n (scratchData u off n) = .ok (writeNames (plainField d) 0
      ((upTo (widthNames n)).map (wordsOf (scratchData u off n))) u (upTo (widthNames n))) := by
    unfold writeLoaded
    rw [writeDst_reg hs (by rwa [hlen]) (by rwa [hlen]), hlen]
  have hdst : dstNames s (some (plainField d)) (widthNames n) = destNames s (plainField d) (widthNames n) := by
    simp only [dstNames, hs, Bool.false_eq_true, if_false, destNames]
  unfold ldsOp
  rw [foldRes_forall_ok hcheck, hb]
  simp only
  rw [foldRes_collect (v := fun i => (i, readScratch u (off i) n)) _ fun acc i hi => by rw [hload i hi]]
  simp only [List.nil_append]
  rw [show (activeLanes u).map (fun i => (i, readScratch u (off i) n)) = scratchData u off n from rfl, hwrite, hdst]

theorem ldsOp_of_held {t : State} {o : OpInfo} {n : Nat} {off : Nat → Nat} (hcheck : ∀ i ∈ activeLanes t, checkScratch t i (off i) n = .ok ())
    (hl : isLane t = false) (hact : (activeLanes t).isEmpty = false) (hn : 0 < n) (h : t.clock < (getCore t t.cur.core).bankHold) :
    ldsOp s t o d n off = .error (.hold (.bank (getCore t t.cur.core).bankHold)) := by
  unfold ldsOp
  rw [foldRes_forall_ok hcheck, throughBanks_of_held hl (by simpa using hact) hn h]

end

theorem wordsOf_scratchData {s : State} {off : Nat → Nat} {n i : Nat} (h : i ∈ activeLanes s) (k : Nat) :
    laneVal (wordsOf (scratchData s off n) k) i = wordOf (leNat (((readScratch s (off i) n).drop (4 * k)).take 4)) := by
  have hi : i < 32 := activeLanes_lt h
  unfold wordsOf laneVal scratchData
  rw [getD_map_upTo _ 32 i _ hi, lookup_map_of_mem (fun i => readScratch s (off i) n) [] h]

/-- A load completes: its words written, its quads gone on, nothing else changed. -/
theorem lds_done {s t u : State} {o : OpInfo} {d : BitVec 5} {n : Nat} {off : Nat → Nat} (hd : dataBad s d (widthNames n) = false)
    (ht : AtMostGroup s t) (hlt : SameLanes s t) (hu : SameButUnits t u) (hlu : SameLanes t u)
    (hread : ∀ i, readScratch u (off i) n = readScratch s (off i) n) :
    let x := retire (applyLast (writeNames (plainField d) 0 ((upTo (widthNames n)).map (wordsOf (scratchData u off n))) u
      (upTo (widthNames n))) o 1 0 (destNames s (plainField d) (widthNames n)))
    Wrote s x (plainField d) (widthNames n) (fun i k => wordOf (leNat (((readScratch s (off i) n).drop (4 * k)).take 4)))
      ∧ WentTo s x s.cur.nextPc ∧ IssuerOnly s x := by
  have hl := hlt.trans hlu
  have h := laneDone_write (loaded_names_le hd) hl o 1 0 0 ((upTo (widthNames n)).map (wordsOf (scratchData u off n)))
  refine ⟨fun i k hw hk => ?_, (hl.cur ▸ h.went).of_sameLanes hl, (ht.frame.trans_units hu).trans hl.cur h.frame⟩
  have hi : i ∈ activeLanes u := hl.active ▸ hw.1
  refine (h.wrote.of_sameLanes hl i k hw hk).trans ?_
  rw [getD_map_upTo _ _ k [] hk, wordsOf_scratchData hi k, hread]

/-! ### sts -/

/-- The writes of the active lanes. -/
def stsWrites (s : State) (vals : List Lanes) (n : Nat) : List Write :=
  (activeLanes s).map (fun i => ⟨i, Config.scratchObj, offOf vals i, n, 0, 0, datumOf vals n i, false⟩)

/-- The state in which the store is held, if a lane is active. -/
def stsState (s : State) (vals : List Lanes) (n ctr : Nat) : State :=
  if (stsWrites s vals n).isEmpty then s else pushStore s (stsWrites s vals n) false ctr

theorem holdStore_of_room {s : State} {ws : List Write} {ctr : Nat} (hs : ∀ w ∈ ws, w.obj = Config.scratchObj) (hl : isLane s = false)
    (hroom : heldCount (curGroup s) < Config.storeBuffer) :
    holdStore s ws ctr = .ok (if ws.isEmpty then s else pushStore s ws false ctr) := by
  unfold holdStore
  rw [translateWrites_scratch hs]
  simp only [hl, Bool.false_eq_true, if_false, if_pos hroom]
  split
  · rfl
  · rfl

theorem pushStore_eq {s : State} (hl : isLane s = false) (ws : List Write) (drained : Bool) (ctr : Nat) :
    ∃ g, pushStore s ws drained ctr = setCur s g := by
  unfold pushStore
  rw [hl]
  exact ⟨_, rfl⟩

/-- A group keeps its stores through a change of the lanes. -/
theorem IssuerOnly.mem_held {s t : State} (h : IssuerOnly s t) {st : StoreOp} (hm : st ∈ (curGroup s).held) : st ∈ (curGroup t).held := by
  rw [h.group.held]
  exact hm

/-- What a store does to its group before it retires: it may enter the buffer, and its last-read names are freed. -/
theorem sts_done {s t : State} (ht : AtMostGroup s t) (hlt : SameLanes s t) (hl : isLane t = false) (vals : List Lanes) (n ctr : Nat)
    (o : OpInfo) (names : List Nat) :
    let x := retire (applyLast (stsState t vals n ctr) o 1 0 names)
    WentTo s x s.cur.nextPc ∧ SameMemory s x ∧ SameOthers s x ∧ ∀ st ∈ (curGroup s).held, st ∈ (curGroup x).held := by
  obtain ⟨u, hu, hheld, hmem, hoth, hcur, hclock⟩ : ∃ u, u = stsState t vals n ctr
      ∧ (∀ st ∈ (curGroup t).held, st ∈ (curGroup u).held) ∧ SameMemory t u ∧ SameOthers t u ∧ u.cur = t.cur ∧ u.clock = t.clock := by
    refine ⟨_, rfl, ?_⟩
    unfold stsState
    split
    · exact ⟨fun _ h => h, SameMemory.refl _, ⟨fun _ _ _ => rfl, rfl⟩, rfl, rfl⟩
    · obtain ⟨g, hg⟩ := pushStore_eq hl (stsWrites t vals n) false ctr
      refine ⟨fun st h => held_pushStore t _ false ctr h, ?_⟩
      rw [hg]
      exact ⟨sameMemory_setCur t g, sameOthers_setCur ⟨fun _ _ _ => rfl, rfl⟩ rfl g, rfl, rfl⟩
  have hlast := atMost_applyLast u o 1 0 names
  have hrest := applyLast_rest u o 1 0 names
  have hend := (hlast.trans (.inr (oneGroup_retire _))).frame
  rw [← hu]
  have hf := ht.frame
  refine ⟨wentTo_retire (hrest.2.1.trans (hcur.trans hlt.cur)) (hrest.2.2.trans (hclock.trans hlt.clock)), ?_, ?_, fun st h => ?_⟩
  · exact hf.memory.trans (hmem.trans hend.memory)
  · exact (hf.others.trans hlt.cur hoth).trans (hcur.trans hlt.cur) hend.others
  · exact hend.mem_held (hheld st (hf.mem_held h))

theorem exec_sts {s : State} {c w : BitVec 3} {d a : BitVec 5} {srcs : List Src}
    (hsrcs : Src.reg (plainField a) 0 :: dataSrcs d (widthNames (widthBytes w)) = srcs) (hf : CountFree s c.toNat)
    (hslot : checkSlot s (memInfo a false (decide (4 < w.toNat))) = .ok ()) (hd : dataBad s d (widthNames (widthBytes w)) = false)
    (hrange : srcs.any (srcRange s) = false) (hplain : noStreams srcs = true) (hready : checkReady s srcs [] = .ok ())
    (hcheck : ∀ i ∈ activeLanes s, checkScratch s i (offOf (srcs.map (srcLanes s [])) i) (widthBytes w) = .ok ()) (hl : isLane s = false)
    (hroom : heldCount (curGroup s) < Config.storeBuffer) :
    exec (.sts c d a w) s = .next (retire (applyLast (stsState (noteDead s srcs) (srcs.map (srcLanes s [])) (widthBytes w) c.toNat)
      (memInfo a false (decide (4 < w.toNat))) 1 0 (dstNames s (some (plainField d)) (widthNames (widthBytes w))))) := by
  have hread := readSources_of_plain (o := memInfo a false (decide (4 < w.toNat))) hslot hrange rfl hplain hready
  have hlanes : scratchLanes (noteDead s srcs) (srcs.map (srcLanes s [])) (widthBytes w) = .ok () := by
    refine foldRes_forall_ok fun i hi => ?_
    rw [(sameLanes_noteDead s srcs).active] at hi
    exact (checkScratch_noteDead s srcs _ _ _).trans (hcheck i hi)
  have hobj : ∀ x ∈ stsWrites (noteDead s srcs) (srcs.map (srcLanes s [])) (widthBytes w), x.obj = Config.scratchObj := by
    intro x hx
    obtain ⟨i, -, rfl⟩ := List.mem_map.1 hx
    rfl
  have hstore := holdStore_of_room (s := noteDead s srcs) (ctr := c.toNat) hobj (by rw [isLane_noteDead, hl]) (by rwa [heldCount_noteDead])
  have hinfo : { memInfo a false (decide (4 < w.toNat)) with rangeBad := false } = memInfo a false (decide (4 < w.toNat)) := rfl
  change execSts c d a w s = _
  unfold execSts
  simp only [hd, hinfo, counted_of_free hf, hsrcs, hread, (checkReady_ok hready).2, after_ok, hlanes]
  unfold stsWrites at hstore
  rw [hstore]
  rfl

/-- Settles O17: lds reads through the banks, sts enters the buffer. -/
theorem scratchpadLoad : Obligations.ScratchpadLoad := by
  unfold Obligations.ScratchpadLoad
  refine ⟨fun s c w d a => ?_, fun s c w d a => ?_⟩
  · intro srcs vals hf hslot hd hrange hplain hready hcheck hl hroom
    exact ⟨_, exec_sts (srcs := srcs) rfl hf hslot hd hrange hplain hready hcheck hl hroom,
      sts_done (atMost_noteDead s srcs) (sameLanes_noteDead s srcs) (by rw [isLane_noteDead, hl]) _ _ _ _ _⟩
  intro o n off free hf hslot hd hready hplain hcheck
  refine ⟨fun hfree hbad hpeak hcredit => ?_, fun hheld => ?_⟩
  · generalize ht : noteDead s [.reg (plainField a) 0] = t at hpeak hcredit
    have hlt : SameLanes s t := ht ▸ sameLanes_noteDead s _
    have hat : AtMostGroup s t := ht ▸ atMost_noteDead s _
    have hread (i : Nat) : readScratch t (off i) n = readScratch s (off i) n := ht ▸ readScratch_noteDead s _ _ _
    have hspoil (i : Nat) : scratchBad t (off i) n = scratchBad s (off i) n := ht ▸ scratchBad_noteDead s _ _ _
    have hchk : ∀ i ∈ activeLanes t, checkScratch t i (off i) n = .ok () := by
      intro i hi
      rw [hlt.active] at hi
      rw [← ht, checkScratch_noteDead]
      exact hcheck i hi
    obtain ⟨u, hb, hu, hlu, hru, hsu, hpu, hcu⟩ : ∃ u, throughBanks t n ((activeLanes t).map off) = .ok u ∧ SameButUnits t u ∧ SameLanes t u
        ∧ (∀ i, readScratch u (off i) n = readScratch t (off i) n) ∧ (∀ i, scratchBad u (off i) n = scratchBad t (off i) n)
        ∧ peakBad u (plainField d) (widthNames n) = false ∧ creditShort u (plainField d) (widthNames n) = false := by
      have hpass : isLane t = true ∨ (activeLanes t).map off = [] ∨ (getCore t t.cur.core).bankHold ≤ t.clock := by
        obtain ⟨g, hg⟩ := getCore_noteDead s [.reg (plainField a) 0]
        rw [hlt.active, hlt.cur, hlt.clock, ← ht, isLane_noteDead, hg]
        rcases hfree with h | h | h
        · exact .inl h
        · exact .inr (.inl (by simpa using h))
        · exact .inr (.inr h)
      rcases throughBanks_of_free hpass with h | ⟨b, k, h⟩
      · exact ⟨t, h, ⟨SameMemory.refl t, fun _ _ => rfl, rfl, rfl, rfl⟩, SameLanes.refl t, fun _ => rfl, fun _ => rfl, hpeak, hcredit⟩
      · exact ⟨_, h, sameButUnits_setBanks t b k, sameLanes_setBanks t b k, fun _ => readScratch_setBanks .., fun _ => scratchBad_setBanks ..,
          (peakBad_setBanks ..).trans hpeak, (creditShort_setBanks ..).trans hcredit⟩
    have hop := ldsOp_of_free (s := s) (o := o) hchk hb hlu (fun i hi => by rw [hsu, hspoil, hbad i (hlt.active ▸ hi)])
      (dataBad_eq_false hd).1 hpu hcu
    refine ⟨_, ?_, lds_done (o := o) hd hat hlt hu hlu fun i => (hru i).trans (hread i)⟩
    rw [exec_lds hf hslot hd hready hplain, ht]
    exact congrArg (finish s) hop
  · simp only [free, not_or, Nat.not_le, Bool.not_eq_true] at hheld
    obtain ⟨hl, hact, hbusy⟩ := hheld
    obtain ⟨g, hg⟩ := getCore_noteDead s [.reg (plainField a) 0]
    have hlt := sameLanes_noteDead s [.reg (plainField a) 0]
    have hbank : (getCore (noteDead s [.reg (plainField a) 0]) (noteDead s [.reg (plainField a) 0]).cur.core).bankHold
        = (getCore s s.cur.core).bankHold := by
      rw [hlt.cur, hg]
    have hop := ldsOp_of_held (s := s) (t := noteDead s [.reg (plainField a) 0]) (d := d) (o := o) (n := n) (off := off) (fun i hi => by
      rw [hlt.active] at hi
      exact (checkScratch_noteDead ..).trans (hcheck i hi)) (by rw [isLane_noteDead, hl]) (by rw [hlt.active, hact]) (widthBytes_pos w)
      (by rw [hbank, hlt.clock]; exact hbusy)
    rw [exec_lds hf hslot hd hready hplain]
    exact (congrArg (finish s) hop).trans (by rw [hbank]; rfl)

end Sys2Proof.Machine

/-!
PROOFS. The writes of an external stream and the order of their release (O50).
-/

namespace Sys2Proof.Machine

/-! ### The pieces that a write sends (R47) -/

/-- From stream `x` to stream `y` pieces of one write have gone out: behind those released before, each with the next ordinal of its port. -/
structure SendsPieces (n obj : Nat) (x y : Stream) (ps : List Sent) : Prop where
  released : y.released = x.released ++ ps
  pieces   : ∀ p ∈ ps, p.number = n ∧ p.obj = obj ∧ p.state = .sent ∧ lookup x.ordinals p.port 0 ≤ p.ordinal
    ∧ p.ordinal < lookup y.ordinals p.port 0
  ordered  : ps.Pairwise fun p q => p.port = q.port → p.ordinal < q.ordinal
  grows    : ∀ port, lookup x.ordinals port 0 ≤ lookup y.ordinals port 0

theorem SendsPieces.refl (n obj : Nat) (x : Stream) : SendsPieces n obj x x [] :=
  ⟨(List.append_nil _).symm, nofun, List.Pairwise.nil, fun _ => Nat.le_refl _⟩

theorem SendsPieces.trans {n obj : Nat} {x y z : Stream} {ps qs : List Sent} (h : SendsPieces n obj x y ps) (k : SendsPieces n obj y z qs) :
    SendsPieces n obj x z (ps ++ qs) where
  released := by rw [k.released, h.released, List.append_assoc]
  pieces p hp := by
    rcases List.mem_append.1 hp with hp | hp
    · obtain ⟨hn, ho, hs, hl, hg⟩ := h.pieces p hp
      exact ⟨hn, ho, hs, hl, Nat.lt_of_lt_of_le hg (k.grows _)⟩
    · obtain ⟨hn, ho, hs, hl, hg⟩ := k.pieces p hp
      exact ⟨hn, ho, hs, Nat.le_trans (h.grows _) hl, hg⟩
  ordered := by
    refine List.pairwise_append.2 ⟨h.ordered, k.ordered, fun p hp q hq hport => ?_⟩
    obtain ⟨-, -, -, -, hp⟩ := h.pieces p hp
    obtain ⟨-, -, -, hq, -⟩ := k.pieces q hq
    rw [hport] at hp
    exact Nat.lt_of_lt_of_le hp hq
  grows port := Nat.le_trans (h.grows port) (k.grows port)

theorem sendsPieces_sendPiece (s : State) (x : Stream) (n obj off : Nat) (bs : List Byte) :
    ∃ ps, SendsPieces n obj x (sendPiece s x n obj off bs) ps := by
  refine ⟨[⟨n, obj, off, bs, portOf s x obj off, lookup x.ordinals (portOf s x obj off) 0, .sent⟩], rfl, fun p hp => ?_,
    List.pairwise_singleton _ _, fun port => ?_⟩
  · rw [List.mem_singleton.1 hp]
    refine ⟨rfl, rfl, rfl, Nat.le_refl _, ?_⟩
    simp [sendPiece, lookup_insertKey_self]
  · simp only [sendPiece, lookup_insertKey]
    split
    · next h =>
      rw [h]
      exact Nat.le_succ _
    · exact Nat.le_refl _

/-- The pieces of a write, one for each line. -/
def sendPieces (s : State) (n obj off : Nat) (bs : List Byte) (x : Stream) (l : List (Nat × Nat)) : Stream :=
  l.foldl (fun x pc => sendPiece s x n obj pc.1 ((bs.drop (pc.1 - off)).take pc.2)) x

theorem sendsPieces_sendPieces (s : State) (n obj off : Nat) (bs : List Byte) (l : List (Nat × Nat)) :
    ∀ x, ∃ ps, SendsPieces n obj x (sendPieces s n obj off bs x l) ps := by
  induction l with
  | nil => exact fun x => ⟨[], SendsPieces.refl n obj x⟩
  | cons pc r ih =>
    intro x
    obtain ⟨ps, hp⟩ := sendsPieces_sendPiece s x n obj pc.1 ((bs.drop (pc.1 - off)).take pc.2)
    obtain ⟨qs, hq⟩ := ih (sendPiece s x n obj pc.1 ((bs.drop (pc.1 - off)).take pc.2))
    exact ⟨ps ++ qs, hp.trans hq⟩

theorem sendWrite_eq (s : State) (x : Stream) (w : Nat × Nat × Nat × List Byte) :
    sendWrite s x w = if w.2.1 = 0 || w.2.2.2.isEmpty then sendPiece s x w.1 w.2.1 w.2.2.1 w.2.2.2
      else sendPieces s w.1 w.2.1 w.2.2.1 w.2.2.2 x (linePieces (w.2.2.2.length / 128 + 2) w.2.2.1 w.2.2.2.length) := rfl

theorem sendsPieces_sendWrite (s : State) (x : Stream) (w : Nat × Nat × Nat × List Byte) :
    ∃ ps, SendsPieces w.1 w.2.1 x (sendWrite s x w) ps := by
  rw [sendWrite_eq]
  split
  · exact sendsPieces_sendPiece ..
  · exact sendsPieces_sendPieces ..

/-! ### What a write sends does not depend on what is buffered -/

theorem sendPiece_buffered (s : State) (x : Stream) (b : List (Nat × Nat × Nat × List Byte)) (n obj off : Nat) (bs : List Byte) :
    sendPiece s { x with buffered := b } n obj off bs = { sendPiece s x n obj off bs with buffered := b } := rfl

theorem sendPieces_buffered (s : State) (b : List (Nat × Nat × Nat × List Byte)) (n obj off : Nat) (bs : List Byte) (l : List (Nat × Nat)) :
    ∀ x, sendPieces s n obj off bs { x with buffered := b } l = { sendPieces s n obj off bs x l with buffered := b } := by
  induction l with
  | nil => exact fun _ => rfl
  | cons pc r ih => exact fun x => ih (sendPiece s x n obj pc.1 ((bs.drop (pc.1 - off)).take pc.2))

theorem sendWrite_buffered (s : State) (x : Stream) (b : List (Nat × Nat × Nat × List Byte)) (w : Nat × Nat × Nat × List Byte) :
    sendWrite s { x with buffered := b } w = { sendWrite s x w with buffered := b } := by
  rw [sendWrite_eq, sendWrite_eq]
  split
  · exact sendPiece_buffered ..
  · exact sendPieces_buffered ..

theorem buffered_sendWrite (s : State) (x : Stream) (w : Nat × Nat × Nat × List Byte) : (sendWrite s x w).buffered = x.buffered := by
  have h : (sendWrite s { x with buffered := x.buffered } w).buffered = x.buffered := by rw [sendWrite_buffered]
  exact h

/-! ### The order of release (R47) -/

section
variable {s : State} {x : Stream} {w : Nat × Nat × Nat × List Byte}

theorem receiveWrite_of_stale (h : follows w.1 x.wmark.toNat = false ∨ 1024 < (w.1 + 2 ^ 32 - x.wmark.toNat) % 2 ^ 32 ∨ taken x w.1 = true) :
    receiveWrite s x w = x := by
  have hc : (!follows w.1 x.wmark.toNat || decide (1024 < (w.1 + 2 ^ 32 - x.wmark.toNat) % 2 ^ 32) || taken x w.1) = true := by
    rcases h with h | h | h
    · rw [h]
      rfl
    · rw [decide_eq_true h, Bool.or_true, Bool.true_or]
    · rw [h, Bool.or_true]
  simp only [receiveWrite, hc, if_true]

/-- A write that the hub takes is buffered, and released as far as the order allows. -/
theorem receiveWrite_of_fits (hf : follows w.1 x.wmark.toNat = true) (ha : (w.1 + 2 ^ 32 - x.wmark.toNat) % 2 ^ 32 ≤ 1024)
    (ht : taken x w.1 = false) : receiveWrite s x w = if held x then { x with buffered := x.buffered ++ [w] }
      else releaseWrites s 1024 { x with buffered := x.buffered ++ [w] } := by
  have hc : (!follows w.1 x.wmark.toNat || decide (1024 < (w.1 + 2 ^ 32 - x.wmark.toNat) % 2 ^ 32) || taken x w.1) = false := by
    rw [hf, ht, decide_eq_false (Nat.not_lt.2 ha)]
    rfl
  simp only [receiveWrite, hc, Bool.false_eq_true, if_false]
  rfl

theorem buffered_ne_of_taken (ht : taken x w.1 = false) : ∀ v ∈ x.buffered, v.1 ≠ w.1 := by
  intro v hv he
  have h := List.any_eq_false.1 (Bool.or_eq_false_iff.1 ht).1 v hv
  exact h (beq_iff_eq.2 he)

/-- Nothing is released while the expected write is not here. -/
theorem releaseWrites_of_missing {n : Nat} (h : ∀ v ∈ x.buffered, v.1 ≠ x.expected.toNat) : releaseWrites s n x = x := by
  cases n with
  | zero => rfl
  | succ n =>
    have hnone : x.buffered.find? (fun w => w.1 == x.expected.toNat) = none :=
      find?_eq_none_of_all fun v hv => beq_eq_false_iff_ne.2 (h v hv)
    rw [releaseWrites, hnone]

/-- The expected write, just buffered, is released at once; the next one is not here. -/
theorem releaseWrites_of_next {n : Nat} (ht : taken x w.1 = false) (he : x.expected.toNat = w.1)
    (hn : ∀ v ∈ x.buffered, v.1 ≠ (w.1 + 1) % 2 ^ 32) :
    releaseWrites s (n + 1) { x with buffered := x.buffered ++ [w] } = { sendWrite s x w with expected := x.expected + 1 } := by
  have hne := buffered_ne_of_taken ht
  have hfind : (x.buffered ++ [w]).find? (fun v => v.1 == x.expected.toNat) = some w := by
    rw [List.find?_append, find?_eq_none_of_all fun v hv => beq_eq_false_iff_ne.2 (he ▸ hne v hv)]
    simp [he]
  have hfilter : (x.buffered ++ [w]).filter (fun v => v.1 != w.1) = x.buffered := by
    rw [List.filter_append, List.filter_eq_self.2 fun v hv => bne_iff_ne.2 (hne v hv)]
    simp
  have hsend : { sendWrite s { x with buffered := x.buffered ++ [w] } w with expected := x.expected + 1, buffered := x.buffered }
      = { sendWrite s x w with expected := x.expected + 1 } := by
    rw [sendWrite_buffered]
    exact congrArg (fun b => { sendWrite s x w with expected := x.expected + 1, buffered := b }) (buffered_sendWrite s x w).symm
  rw [releaseWrites]
  simp only [hfind, hfilter]
  rw [hsend, releaseWrites_of_missing]
  intro v hv hv1
  rw [buffered_sendWrite] at hv
  refine hn v hv (hv1.trans ?_)
  simp [BitVec.toNat_add, he]

end

/-- Settles O50: the expected write is released at once, its pieces in the order of their ports; another is kept or dropped. -/
theorem streamOrder : Obligations.StreamOrder := by
  unfold Obligations.StreamOrder
  intro s x w _ ahead fits
  refine ⟨fun h => receiveWrite_of_stale (.inl h), fun h => receiveWrite_of_stale (.inr (.inl h)), fun h => ?_, fun h hh he hn => ?_,
    fun h hk => ?_, ?_⟩
  · refine receiveWrite_of_stale (.inr (.inr ?_))
    rcases h with ⟨v, hv, he⟩ | ⟨p, hp, he⟩
    · exact Bool.or_eq_true_iff.2 (.inl (List.any_eq_true.2 ⟨v, hv, beq_iff_eq.2 he⟩))
    · exact Bool.or_eq_true_iff.2 (.inr (List.any_eq_true.2 ⟨p, hp, beq_iff_eq.2 he⟩))
  · obtain ⟨hf, ha, ht⟩ := h
    rw [receiveWrite_of_fits hf ha ht, hh]
    exact releaseWrites_of_next ht he hn
  · obtain ⟨hf, ha, ht⟩ := h
    rw [receiveWrite_of_fits hf ha ht]
    split
    · rfl
    · next hh =>
      rcases hk with hk | ⟨hw, hb⟩
      · exact absurd hk hh
      · refine releaseWrites_of_missing fun v hv => ?_
        rcases List.mem_append.1 hv with hv | hv
        · exact hb v hv
        · rw [List.mem_singleton.1 hv]
          exact hw.symm
  · obtain ⟨ps, h⟩ := sendsPieces_sendWrite s x w
    refine ⟨ps, h.released, h.pieces, fun i j p q hp hq hij hport => ?_⟩
    obtain ⟨hi, rfl⟩ := List.getElem?_eq_some_iff.1 hp
    obtain ⟨hj, rfl⟩ := List.getElem?_eq_some_iff.1 hq
    exact List.pairwise_iff_getElem.1 h.ordered i j hi hj hij hport

end Sys2Proof.Machine

/-!
PROOFS. Traps, interrupts, the clock's marks and debug stops (O41, O42).
-/

namespace Sys2Proof.Machine

/-! ### Traps and interrupts (R255, R342, R348) -/

section
variable {s : State}

theorem exec_trapTake_of_waiting {ws : List Word} (hr : (getGroup s s.ev.core s.ev.unit).resident = true) (hl : s.ev.unit ≠ Config.laneSlot)
    (hw : waitingRecord (getGroup s s.ev.core s.ev.unit) = some ws) :
    exec .trapTake s = .next (writeWaiting s s.ev.core s.ev.unit ws) := by
  change execTrapTake s = _
  simp only [execTrapTake, hr, hl, hw, Bool.not_true, decide_false, Bool.or_self, Bool.false_eq_true, if_false]

theorem exec_trapTake_of_fault (hr : (getGroup s s.ev.core s.ev.unit).resident = true) (hl : s.ev.unit ≠ Config.laneSlot)
    (hw : waitingRecord (getGroup s s.ev.core s.ev.unit) = none) (hc : abortingClass s.ev.value = true) :
    exec .trapTake s = .next (takeGroupTrap s s.ev.core s.ev.unit ((getGroup s s.ev.core s.ev.unit).regions.length - 1)
      (groupOrigin s s.ev.core s.ev.unit ((getGroup s s.ev.core s.ev.unit).regions.length - 1) (oldestPc s s.ev.core s.ev.unit)
        (curRegion (getGroup s s.ev.core s.ev.unit)).slots)
      { cls := s.ev.value, code := s.ev.extra % 256, lane := s.ev.len % 32, obj := s.ev.obj, off := s.ev.off
        kind := s.ev.aux.getD 0 0 % 8, shadow := s.ev.aux.getD 1 0 == 1 }) := by
  change execTrapTake s = _
  simp only [execTrapTake, hr, hl, hw, hc, Bool.not_true, decide_false, Bool.or_self, Bool.false_eq_true, if_false]

theorem exec_userInterruptDelivery {v : Word} (hv : (getGroup s s.ev.core s.ev.unit).user.payload = some v) (hl : s.ev.unit ≠ Config.laneSlot)
    (hd : canDeliver s s.ev.core s.ev.unit = true) : exec .userInterruptDelivery s
      = .next (endRegion (setGroup s s.ev.core s.ev.unit (enterHandler (getGroup s s.ev.core s.ev.unit) v)) s.ev.core s.ev.unit) := by
  change execUserInterruptDelivery s = _
  simp only [execUserInterruptDelivery, hv, hl, hd, Bool.not_true, decide_false, Bool.or_self, Bool.false_eq_true, if_false]

/-- The state after the supervisor lane has taken an interrupt. -/
def laneTaken (s : State) (c : Nat) : State :=
  let k := getCore s c
  let g := getGroup s c Config.laneSlot
  setGroup (setCore s c { k with lane := { k.lane with ie := false, epc := (getQuad g 0).pc } }) c Config.laneSlot
    (setQuad g 0 { getQuad g 0 with pc := k.lane.vec, park := .none })

theorem exec_slInterruptTake (hr : (getGroup s s.ev.core Config.laneSlot).resident = true)
    (hi : laneInterrupted (getCore s s.ev.core) = true) : exec .slInterruptTake s = .next (laneTaken s s.ev.core) := by
  change execSlInterruptTake s = _
  simp only [execSlInterruptTake, hr, hi, Bool.not_true, Bool.or_self, Bool.false_eq_true, if_false]
  rfl

theorem lane_laneTaken (s : State) (c : Nat) : (getCore (laneTaken s c) c).lane
    = { (getCore s c).lane with ie := false, epc := (getQuad (getGroup s c Config.laneSlot) 0).pc } := by
  simp only [laneTaken, setGroup, getCore_setCore]

theorem getGroup_laneTaken (s : State) (c : Nat) : getGroup (laneTaken s c) c Config.laneSlot
    = setQuad (getGroup s c Config.laneSlot) 0 { getQuad (getGroup s c Config.laneSlot) 0 with pc := (getCore s c).lane.vec, park := .none } :=
  getGroup_setGroup ..

theorem sameMemory_laneTaken (s : State) (c : Nat) : SameMemory s (laneTaken s c) :=
  (sameMemory_setCore s c
    (k := { getCore s c with lane := { (getCore s c).lane with ie := false, epc := (getQuad (getGroup s c Config.laneSlot) 0).pc } })
    rfl rfl rfl rfl).trans (sameMemory_setGroup _ _ _ _)

/-! ### SLTCMP (R347) -/

/-- The lane's registers after a write of one half of SLTCMP. -/
def cmpWritten (r : LaneRegs) (n : Nat) (v : Word) : LaneRegs := if n = 0x86D then { r with cmpLo := v } else { r with cmpHi := v }

theorem exec_sltcmpWrite (h : s.ev.unit = 0x86D ∨ s.ev.unit = 0x86E) : exec .sltcmpWrite s
    = .next (if timerCompare (cmpWritten (getCore s s.ev.core).lane s.ev.unit (wordOf s.ev.value)) ≤ s.clock
      then raiseCause (setCore s s.ev.core { getCore s s.ev.core with
        lane := cmpWritten (getCore s s.ev.core).lane s.ev.unit (wordOf s.ev.value) }) s.ev.core 1
      else setCore s s.ev.core { getCore s s.ev.core with lane := cmpWritten (getCore s s.ev.core).lane s.ev.unit (wordOf s.ev.value) }) := by
  have hn : ¬ (s.ev.unit ≠ 0x86D ∧ s.ev.unit ≠ 0x86E) := by omega
  change execSltcmpWrite s = _
  unfold execSltcmpWrite
  simp only [if_neg hn]
  rfl

/-! ### The stall counters (R372) -/

/-- The reason charged to a group in a clock: none if it issued. -/
def chargedReason (s : State) (c slot next : Nat) : Nat := if (getGroup s c slot).stats.issuedNow then 0 else stallReason s c slot next

theorem chargeGroup_eq {c slot : Nat} (hr : (getGroup s c slot).resident = true) (hl : slot ≠ Config.laneSlot) (next : Nat) :
    getGroup (chargeGroup s c slot next) c slot = { getGroup s c slot with stats := { (getGroup s c slot).stats with
      resident := (getGroup s c slot).stats.resident + 1, issuedNow := false, charged := chargedReason s c slot next
      stalls := if chargedReason s c slot next = 0 then (getGroup s c slot).stats.stalls
        else bump (getGroup s c slot).stats.stalls (chargedReason s c slot next) } } := by
  have hc : (!(getGroup s c slot).resident || decide (slot = Config.laneSlot)) = false := by
    rw [hr, decide_eq_false hl]
    rfl
  unfold chargeGroup
  simp only [hc, Bool.false_eq_true, if_false, getGroup_setGroup]
  rfl

theorem lookup_bump (m : FMap Nat) (k r : Nat) :
    lookup (bump m k) r 0 = if r = k then Nat.min (lookup m r 0 + 1) (2 ^ 32 - 1) else lookup m r 0 := by
  unfold bump
  rw [lookup_insertKey]
  split
  · next h => rw [h]
  · rfl

theorem lookup_charged (m : FMap Nat) (issued : Bool) (reason r : Nat) :
    lookup (if (if issued then 0 else reason) = 0 then m else bump m (if issued then 0 else reason)) r 0
      = if r ≠ 0 ∧ r = reason ∧ issued = false then Nat.min (lookup m r 0 + 1) (2 ^ 32 - 1) else lookup m r 0 := by
  cases issued with
  | true => simp
  | false =>
    simp only [Bool.false_eq_true, if_false, and_true]
    by_cases hz : reason = 0
    · have hr : ¬ (r ≠ 0 ∧ r = reason) := by omega
      rw [if_pos hz, if_neg hr]
    · rw [if_neg hz, lookup_bump]
      by_cases hr : r = reason
      · rw [if_pos hr, if_pos ⟨by omega, hr⟩]
      · rw [if_neg hr, if_neg fun h => hr h.2]

end

/-- Settles O41: each event by the equation of its step. -/
theorem laneAndClockEvents : Obligations.LaneAndClockEvents := by
  unfold Obligations.LaneAndClockEvents
  intro s e k g q
  refine ⟨fun hr hl => ⟨fun ws hw => exec_trapTake_of_waiting hr hl hw, fun hw hc => exec_trapTake_of_fault hr hl hw hc⟩,
    fun v hv hl hd => ⟨enterHandler g v, exec_userInterruptDelivery hv hl hd, rfl, rfl, lookup_insertKey_self .., rfl, rfl, rfl, rfl,
      fun x hx hexit => ?_, rfl, rfl, rfl⟩, fun h => congrArg _ (if_pos h), fun h => congrArg _ (if_neg (Nat.not_le.2 h)),
    fun h2 h5 => congrArg _ (if_pos ⟨h2, h5⟩), ?_, ?_, fun hf => ?_, fun hf => ?_, fun hr hk ha => ?_, fun hk hy => ?_, fun hr hl => ?_⟩
  · exact List.mem_map.2 ⟨x, hx, by rw [hexit]; rfl⟩
  · intro l hr hi
    refine ⟨_, exec_slInterruptTake hr hi, lane_laneTaken s _, ?_, ?_, sameMemory_laneTaken s _, rfl⟩
    · rw [getGroup_laneTaken, getQuad_setQuad]
    · rw [getGroup_laneTaken, getQuad_setQuad]
  · intro w hu
    exact ⟨fun h => (exec_sltcmpWrite hu).trans (congrArg _ (if_neg (Nat.not_le.2 h))),
      fun h => (exec_sltcmpWrite hu).trans (congrArg _ (if_pos h))⟩
  · change execRegisterWrite s = _
    simp only [execRegisterWrite, show s.ev.flag = false from hf, Bool.false_eq_true, if_false]
    rfl
  · change execRegisterWrite s = _
    simp only [execRegisterWrite, show s.ev.flag = true from hf, if_true]
    rfl
  · change execCandidateAging s = _
    have hc : (g.resident && hasKey g.quads e.len && decide (q.lastIssue + 1024 ≤ s.clock)) = true := by
      rw [hr, hk, decide_eq_true ha]
      rfl
    exact congrArg _ (if_pos hc)
  · change execYieldTimeout s = _
    have hc : (hasKey g.quads e.len && decide (q.yieldUntil ≤ s.clock)) = true := by
      rw [hk, decide_eq_true hy]
      rfl
    exact congrArg _ (if_pos hc)
  · have hg := chargeGroup_eq hr hl e.value
    refine ⟨_, rfl, ?_, ?_, fun r => ?_, ?_, ?_⟩
    · rw [hg]
    · rw [hg]
      rfl
    · rw [hg]
      exact lookup_charged ..
    · rw [hg]
    · rw [hg]

/-! ### Debug stops (R368, R369) -/

/-- The region that a debug stop names. -/
def stopRegion (s : State) : Nat := if s.ev.off = 1 then 0 else (getGroup s s.ev.core s.ev.unit).regions.length - 1

/-- The meaning of DEBUG_STOP for a group that may stop. -/
def debugStopped (s : State) : State :=
  let e := s.ev
  let c := e.core
  let g := getGroup s c e.unit
  let i := stopRegion s
  if !debugEnabled s c e.unit then
    if e.value = 7 || e.value = 8 then
      pushDue (stopRecord s c e.unit i e.extra e.value e.obj e.bytes) [dueAbort (getLaunch s g.launch).bundle 0x08 0]
    else s
  else if e.flag then
    let s := if e.off = 1 then abortRegions s c e.unit 1 else s
    if g.stats.stopped then
      let h := getGroup s c e.unit
      setGroup s c e.unit { h with stats := { h.stats with limit := none } }
    else stopLaunch (parkStopped s c e.unit i e.extra e.value e.obj e.bytes) c e.unit
  else if e.extra = 0 then
    stopLaunch (parkStopped (abortRegions s c e.unit i) c e.unit i 0 e.value e.obj e.bytes) c e.unit
  else beginStop s c e.unit i e.extra e.value e.obj

section
variable {s : State}

theorem exec_debugStop (hl : s.ev.unit ≠ Config.laneSlot) (hr : (getGroup s s.ev.core s.ev.unit).resident = true)
    (hs : (getGroup s s.ev.core s.ev.unit).stats.stopped = true → (getGroup s s.ev.core s.ev.unit).stats.limit.isSome = true)
    (h1 : 1 ≤ s.ev.value) (h8 : s.ev.value ≤ 8) : exec .debugStop s = .next (debugStopped s) := by
  have hstop : ((getGroup s s.ev.core s.ev.unit).stats.stopped && (getGroup s s.ev.core s.ev.unit).stats.limit.isNone) = false := by
    cases hp : (getGroup s s.ev.core s.ev.unit).stats.stopped with
    | false => rfl
    | true => rw [Bool.true_and, ← Option.not_isSome, hs hp]; rfl
  have hc : (decide (s.ev.unit = Config.laneSlot) || !(getGroup s s.ev.core s.ev.unit).resident
      || ((getGroup s s.ev.core s.ev.unit).stats.stopped && (getGroup s s.ev.core s.ev.unit).stats.limit.isNone)
      || decide (8 < s.ev.value) || decide (s.ev.value = 0)) = false := by
    rw [decide_eq_false hl, hr, hstop, decide_eq_false (Nat.not_lt.2 h8), decide_eq_false (by omega)]
    rfl
  change execDebugStop s = _
  simp only [execDebugStop, hc, Bool.false_eq_true, if_false]
  rfl

theorem debugStopped_of_begin (hd : debugEnabled s s.ev.core s.ev.unit = true) (hf : s.ev.flag = false) (hx : s.ev.extra ≠ 0) :
    debugStopped s = beginStop s s.ev.core s.ev.unit (stopRegion s) s.ev.extra s.ev.value s.ev.obj := by
  simp only [debugStopped, hd, hf, hx, Bool.not_true, Bool.false_eq_true, if_false]

theorem debugStopped_of_start (hd : debugEnabled s s.ev.core s.ev.unit = true) (hf : s.ev.flag = false) (hx : s.ev.extra = 0) :
    debugStopped s = stopLaunch (parkStopped (abortRegions s s.ev.core s.ev.unit (stopRegion s)) s.ev.core s.ev.unit (stopRegion s) 0
      s.ev.value s.ev.obj s.ev.bytes) s.ev.core s.ev.unit := by
  simp only [debugStopped, hd, hf, hx, Bool.not_true, Bool.false_eq_true, if_false, if_true]

theorem debugStopped_of_here (hd : debugEnabled s s.ev.core s.ev.unit = true) (hf : s.ev.flag = true)
    (hs : (getGroup s s.ev.core s.ev.unit).stats.stopped = false) :
    debugStopped s = stopLaunch (parkStopped (if s.ev.off = 1 then abortRegions s s.ev.core s.ev.unit 1 else s) s.ev.core s.ev.unit (stopRegion s)
      s.ev.extra s.ev.value s.ev.obj s.ev.bytes) s.ev.core s.ev.unit := by
  simp only [debugStopped, hd, hf, hs, Bool.not_true, Bool.false_eq_true, if_false, if_true]

theorem debugStopped_of_restored (hd : debugEnabled s s.ev.core s.ev.unit = true) (hf : s.ev.flag = true)
    (hs : (getGroup s s.ev.core s.ev.unit).stats.stopped = true) (ho : s.ev.off ≠ 1) :
    debugStopped s = setGroup s s.ev.core s.ev.unit { getGroup s s.ev.core s.ev.unit with
      stats := { (getGroup s s.ev.core s.ev.unit).stats with limit := none } } := by
  simp only [debugStopped, hd, hf, hs, ho, Bool.not_true, Bool.false_eq_true, if_false, if_true]

theorem debugStopped_of_ignored (hd : debugEnabled s s.ev.core s.ev.unit = false) (hv : s.ev.value < 7) : debugStopped s = s := by
  have hc : (decide (s.ev.value = 7) || decide (s.ev.value = 8)) = false := by
    rw [decide_eq_false (by omega), decide_eq_false (by omega)]
    rfl
  simp only [debugStopped, hd, hc, Bool.not_false, Bool.false_eq_true, if_false, if_true]

theorem debugStopped_of_ended (hd : debugEnabled s s.ev.core s.ev.unit = false) (hv : 7 ≤ s.ev.value) (h8 : s.ev.value ≤ 8) :
    debugStopped s = pushDue (stopRecord s s.ev.core s.ev.unit (stopRegion s) s.ev.extra s.ev.value s.ev.obj s.ev.bytes)
      [dueAbort (getLaunch s (getGroup s s.ev.core s.ev.unit).launch).bundle 0x08 0] := by
  have hc : (decide (s.ev.value = 7) || decide (s.ev.value = 8)) = true := by
    rw [Bool.or_eq_true_iff, decide_eq_true_iff, decide_eq_true_iff]
    omega
  simp only [debugStopped, hd, hc, Bool.not_false, if_true]

/-- The state after the time-out of an order gate. -/
theorem exec_orderGateTimeout (hr : (getGroup s s.ev.core s.ev.unit).resident = true)
    (hm : replayMode (getLaunch s (getGroup s s.ev.core s.ev.unit).launch) = 2) : exec .orderGateTimeout s
      = .next (pushDue (setGroup s s.ev.core s.ev.unit { getGroup s s.ev.core s.ev.unit with
          stats := { (getGroup s s.ev.core s.ev.unit).stats with gate := none } })
        [⟨.debugStop, { core := s.ev.core, unit := s.ev.unit, value := 8, extra := s.ev.extra, off := s.ev.off }⟩]) := by
  have hc : (!(getGroup s s.ev.core s.ev.unit).resident
      || decide (replayMode (getLaunch s (getGroup s s.ev.core s.ev.unit).launch) ≠ 2)) = false := by
    rw [hr, hm]
    rfl
  change execOrderGateTimeout s = _
  simp only [execOrderGateTimeout, hc, Bool.false_eq_true, if_false]

theorem exec_pcSample {n : Nat} (hn : nextSample s s.ev.core = some n) : exec .pcSample s
    = .next (setDie (traceGroup s s.ev.core n 3 (getGroup s s.ev.core n).stats.charged) (dieOf s.ev.core)
      { getDie (traceGroup s s.ev.core n 3 (getGroup s s.ev.core n).stats.charged) (dieOf s.ev.core) with
        dbg := { (getDie (traceGroup s s.ev.core n 3 (getGroup s s.ev.core n).stats.charged) (dieOf s.ev.core)).dbg with
          sample := insertKey (getDie (traceGroup s s.ev.core n 3 (getGroup s s.ev.core n).stats.charged) (dieOf s.ev.core)).dbg.sample
            s.ev.core (n + 1) } }) := by
  change execPcSample s = _
  simp only [execPcSample, hn]

end

/-- Settles O42: each stop and command by the equation of its step. -/
theorem debugEvents : Obligations.DebugEvents := by
  unfold Obligations.DebugEvents
  intro s e g i d
  refine ⟨fun hl hr hs h1 h8 => ?_, fun hr hm => exec_orderGateTimeout hr hm, fun hl hr hs hlim h1 h8 hd hf ho => ?_, rfl, rfl, rfl, rfl,
    ⟨_, rfl, congrArg Die.dbg (getDie_setDie ..)⟩, ⟨_, rfl, congrArg Die.dbg (getDie_setDie ..)⟩, fun n hn => exec_pcSample hn⟩
  · have hx := exec_debugStop hl hr (fun h => absurd (h.symm.trans hs) (by simp)) h1 h8
    exact ⟨fun hd hf h => hx.trans (congrArg _ (debugStopped_of_begin hd hf h)),
      fun hd hf h => hx.trans (congrArg _ (debugStopped_of_start hd hf h)),
      fun hd hf => hx.trans (congrArg _ (debugStopped_of_here hd hf hs)), fun hd hv => hx.trans (congrArg _ (debugStopped_of_ignored hd hv)),
      fun hd hv => hx.trans (congrArg _ (debugStopped_of_ended hd hv h8))⟩
  · exact (exec_debugStop hl hr (fun _ => hlim) h1 h8).trans (congrArg _ (debugStopped_of_restored hd hf hs ho))

end Sys2Proof.Machine

/-!
PROOFS. The steps of a copy channel and of the matrix sequencer (O43).
-/

namespace Sys2Proof.Machine

/-! ### The steps of a copy channel (R96 to R103) -/

section
variable {s : State}

/-- A channel that moves data. -/
def channelMoving (s : State) : State := setChannel s s.ev.core s.ev.unit { getChannel s s.ev.core s.ev.unit with state := 2 }

/-- The meaning of COPY_START for a queued channel of a running core, `s` being the state in which it moves data. -/
def startedCopy (s : State) (c n : Nat) (ch : Channel) : State :=
  if decide (2 < copyKind ch.desc) && storageRefused s ch then pushDue s [⟨.driveCompletion, { core := c, unit := n, flag := true }⟩]
  else if copyKind ch.desc = 3 then s
  else pushDue s (copyCircuit s c ch ++ [copyOn c n])

theorem exec_copyStart (h : (getChannel s s.ev.core s.ev.unit).state = 1) (hr : (getCore s s.ev.core).stopped = none) :
    exec .copyStart s = .next (startedCopy (channelMoving s) s.ev.core s.ev.unit (getChannel s s.ev.core s.ev.unit)) := by
  have hc : (decide ((getChannel s s.ev.core s.ev.unit).state ≠ 1) || (getCore s s.ev.core).stopped.isSome) = false := by
    rw [h, hr]
    rfl
  change execCopyStart s = _
  simp only [execCopyStart, hc, Bool.false_eq_true, if_false]
  rfl

theorem startedCopy_of_data {c n : Nat} {ch : Channel} (h : copyKind ch.desc < 3 ∨ (copyKind ch.desc ≠ 3 ∧ storageRefused s ch = false)) :
    startedCopy s c n ch = pushDue s (copyCircuit s c ch ++ [copyOn c n]) := by
  have hr : (decide (2 < copyKind ch.desc) && storageRefused s ch) = false := by
    rcases h with h | h
    · rw [decide_eq_false (by omega), Bool.false_and]
    · rw [h.2, Bool.and_false]
  have hk : copyKind ch.desc ≠ 3 := by omega
  simp only [startedCopy, hr, hk, Bool.false_eq_true, if_false]

theorem startedCopy_of_refused {c n : Nat} {ch : Channel} (hk : 3 ≤ copyKind ch.desc) (h : storageRefused s ch = true) :
    startedCopy s c n ch = pushDue s [⟨.driveCompletion, { core := c, unit := n, flag := true }⟩] := by
  have hr : (decide (2 < copyKind ch.desc) && storageRefused s ch) = true := by rw [h, decide_eq_true (by omega), Bool.true_and]
  simp only [startedCopy, hr, if_true]

theorem startedCopy_of_read {c n : Nat} {ch : Channel} (hk : copyKind ch.desc = 3) (h : storageRefused s ch = false) :
    startedCopy s c n ch = s := by
  simp only [startedCopy, h, hk, Bool.and_false, Bool.false_eq_true, if_false, if_true]

/-- The meaning of COPY_WRITE_ACK once a piece has moved. -/
def pieceMoved (s : State) (c n : Nat) (ch : Channel) : State :=
  if (getChannel s c n).wp = copyTotal ch.desc then pushDue s [⟨.copyComplete, { core := c, unit := n }⟩]
  else if 2 < copyKind ch.desc then s
  else pushDue s [copyOn c n]

theorem exec_copyWriteAck_of_moved (h : (getChannel s s.ev.core s.ev.unit).state = 2) {t : State} {nan : Bool}
    (hp : copyPiece s s.ev.core s.ev.unit = (t, nan, none)) : exec .copyWriteAck s
      = .next (pieceMoved (if nan then raiseCp t s.ev.core (getChannel s s.ev.core s.ev.unit).group 2 else t) s.ev.core s.ev.unit
        (getChannel s s.ev.core s.ev.unit)) := by
  change execCopyWriteAck s = _
  simp only [execCopyWriteAck, h, hp, ne_eq, not_true_eq_false, if_false]
  rfl

theorem exec_copyWriteAck_of_stopped (h : (getChannel s s.ev.core s.ev.unit).state = 2) {t : State} {nan : Bool} {x : CopyStop}
    (hp : copyPiece s s.ev.core s.ev.unit = (t, nan, some x)) : exec .copyWriteAck s
      = .next (stopCopy (if nan then raiseCp t s.ev.core (getChannel s s.ev.core s.ev.unit).group 2 else t) s.ev.core s.ev.unit x) := by
  change execCopyWriteAck s = _
  simp only [execCopyWriteAck, h, hp, ne_eq, not_true_eq_false, if_false]

theorem getChannel_raiseCp (s : State) (c slot n : Nat) (b : BitVec 2) : getChannel (raiseCp s c slot b) c n = getChannel s c n := by
  unfold raiseCp
  split
  · rfl
  · exact getChannel_setGroup ..

theorem batch_raiseCp (s : State) (c slot : Nat) (b : BitVec 2) : (getGroup (raiseCp s c slot b) c slot).batch = (getGroup s c slot).batch := by
  unfold raiseCp
  split
  · rfl
  · rw [getGroup_setGroup]
    rfl

theorem getChannel_endCopy (s : State) (c n : Nat) (fail : Bool) :
    getChannel (endCopy s c n fail none) c n = { getChannel s c n with state := 0, fault := fail } := by
  unfold endCopy
  dsimp only
  split
  · exact getChannel_setChannel ..
  · split
    · exact getChannel_setChannel ..
    · split
      · rw [getChannel_raiseCp, getChannel_setGroup, getChannel_setChannel]
        rfl
      · rw [getChannel_setGroup, getChannel_setChannel]
        rfl

theorem batch_endCopy {c n : Nat} (h : (getChannel s c n).group < Config.groupSlots) (fail : Bool) :
    (getGroup (endCopy s c n fail none) c (getChannel s c n).group).batch
      = batchDone (getGroup s c (getChannel s c n).group).batch (getChannel s c n).batch := by
  have h64 : (getChannel s c n).group < 64 := h
  have h128 : ¬ 128 ≤ (getChannel s c n).group := by omega
  unfold endCopy
  simp only [h128, if_false, if_neg (Nat.not_le.2 h)]
  split
  · rw [batch_raiseCp, getGroup_setGroup, getGroup_setChannel]
  · rw [getGroup_setGroup, getGroup_setChannel]

theorem getChannel_unqueueCopy (s : State) (c n : Nat) : getChannel (unqueueCopy s c n) c n = getChannel s c n := by
  unfold unqueueCopy
  dsimp only
  split
  · rfl
  · exact getChannel_setGroup ..

theorem exec_copyComplete (h : (getChannel s s.ev.core s.ev.unit).state ≠ 0) :
    exec .copyComplete s = .next (endCopy s s.ev.core s.ev.unit s.ev.flag none) := congrArg _ (if_neg h)

theorem failCopy_of_live {c n : Nat} (h : (getChannel s c n).state ≠ 0) (nvst : Option Nat) :
    failCopy s c n nvst = endCopy (unqueueCopy s c n) c n true nvst := if_neg h

theorem exec_chstatAbort (h : (getChannel s s.ev.core s.ev.unit).state ≠ 0) :
    exec .chstatAbort s = .next (endCopy (unqueueCopy s s.ev.core s.ev.unit) s.ev.core s.ev.unit true none) := by
  change Host.Outcome.next (failCopy s s.ev.core s.ev.unit none) = _
  rw [failCopy_of_live h]

theorem exec_copyPageFaultHold (h : (getChannel s s.ev.core s.ev.unit).state = 2) : exec .copyPageFaultHold s
    = .next (unitRecord (setChannel s s.ev.core s.ev.unit { getChannel s s.ev.core s.ev.unit with state := 3 }) s.ev.core 1 s.ev.unit
      { cls := 7, code := s.ev.value, obj := s.ev.obj, off := s.ev.off, shadow := s.ev.flag, kind := s.ev.extra } (s.ev.unit == fwChannel)) := by
  change execCopyPageFaultHold s = _
  simp only [execCopyPageFaultHold, h, ne_eq, not_true_eq_false, if_false]

theorem exec_chstatResume (h : (getChannel s s.ev.core s.ev.unit).state = 3) : exec .chstatResume s
    = .next (pushDue (setChannel s s.ev.core s.ev.unit { getChannel s s.ev.core s.ev.unit with state := 2 }) [copyOn s.ev.core s.ev.unit]) := by
  change execChstatResume s = _
  simp only [execChstatResume, h, ne_eq, not_true_eq_false, if_false]

/-! ### The end of a storage command (R101) -/

/-- The meaning of DRIVE_COMPLETION for a started storage copy. -/
def driveAnswered (s : State) : State :=
  let e := s.ev
  let ch := getChannel s e.core e.unit
  if e.flag then failCopy s e.core e.unit (some 0)
  else if e.value ≠ 0 then failCopy s e.core e.unit (some (e.value % 2 ^ 16))
  else if copyKind ch.desc = 4 then
    (if ch.buf.length < copyLen ch.desc then s
    else endCopy (setChannel s e.core e.unit { ch with got := copyLen ch.desc, wp := copyLen ch.desc, buf := [] }) e.core e.unit false none)
  else
    let t := setChannel s e.core e.unit { ch with buf := ch.buf ++ e.bytes.take (copyLen ch.desc - ch.got - ch.buf.length) }
    if ch.state = 2 then pushDue t [copyOn e.core e.unit] else t

theorem exec_driveCompletion (h : 2 ≤ (getChannel s s.ev.core s.ev.unit).state) (hk : 3 ≤ copyKind (getChannel s s.ev.core s.ev.unit).desc) :
    exec .driveCompletion s = .next (driveAnswered s) := by
  have hc : (decide ((getChannel s s.ev.core s.ev.unit).state < 2) || decide (copyKind (getChannel s s.ev.core s.ev.unit).desc < 3)) = false := by
    rw [decide_eq_false (by omega), decide_eq_false (by omega)]
    rfl
  change execDriveCompletion s = _
  simp only [execDriveCompletion, hc, Bool.false_eq_true, if_false]
  rfl

theorem driveAnswered_of_status (hf : s.ev.flag = false) (hv : s.ev.value ≠ 0) :
    driveAnswered s = failCopy s s.ev.core s.ev.unit (some (s.ev.value % 2 ^ 16)) := by
  simp only [driveAnswered, hf, if_pos hv, Bool.false_eq_true, if_false]

theorem driveAnswered_of_written (hf : s.ev.flag = false) (hv : s.ev.value = 0) (hk : copyKind (getChannel s s.ev.core s.ev.unit).desc = 4)
    (hl : copyLen (getChannel s s.ev.core s.ev.unit).desc ≤ (getChannel s s.ev.core s.ev.unit).buf.length) :
    driveAnswered s = endCopy (setChannel s s.ev.core s.ev.unit { getChannel s s.ev.core s.ev.unit with
        got := copyLen (getChannel s s.ev.core s.ev.unit).desc, wp := copyLen (getChannel s s.ev.core s.ev.unit).desc, buf := [] })
      s.ev.core s.ev.unit false none := by
  have hv' : ¬ s.ev.value ≠ 0 := not_not_intro hv
  simp only [driveAnswered, hf, if_neg hv', if_pos hk, if_neg (Nat.not_lt.2 hl), Bool.false_eq_true, if_false]

/-- A channel with the bytes that its drive has delivered. -/
def delivered (s : State) : State :=
  let e := s.ev
  let ch := getChannel s e.core e.unit
  setChannel s e.core e.unit { ch with buf := ch.buf ++ e.bytes.take (copyLen ch.desc - ch.got - ch.buf.length) }

theorem driveAnswered_of_read (hf : s.ev.flag = false) (hv : s.ev.value = 0) (hk : copyKind (getChannel s s.ev.core s.ev.unit).desc ≠ 4) :
    driveAnswered s = if (getChannel s s.ev.core s.ev.unit).state = 2 then pushDue (delivered s) [copyOn s.ev.core s.ev.unit]
      else delivered s := by
  have hv' : ¬ s.ev.value ≠ 0 := not_not_intro hv
  simp only [driveAnswered, hf, if_neg hv', if_neg hk, Bool.false_eq_true, if_false]
  rfl

theorem exec_storageTimeout (h : 2 ≤ (getChannel s s.ev.core s.ev.unit).state) (hk : 3 ≤ copyKind (getChannel s s.ev.core s.ev.unit).desc) :
    exec .storageTimeout s = .next (failCopy s s.ev.core s.ev.unit (some 0)) := by
  have hc : (decide (2 ≤ (getChannel s s.ev.core s.ev.unit).state) && decide (2 < copyKind (getChannel s s.ev.core s.ev.unit).desc)) = true := by
    rw [decide_eq_true h, decide_eq_true (by omega)]
    rfl
  exact congrArg _ (if_pos hc)

/-! ### The matrix sequencer (R294, R298, R311) -/

theorem noteUpset_of_none (h : s.ev.extra = 0) (c : Nat) : noteUpset s c = s := by
  simp only [noteUpset, h, decide_true, Bool.true_or, if_true]

theorem cores_setBatches (s : State) (c team group : Nat) (b : Batches) (x : Nat) :
    (getCore (setBatches s c team group b) x).teams = (getCore s x).teams ∧ (getCore (setBatches s c team group b) x).acc = (getCore s x).acc := by
  unfold setBatches
  split
  · unfold setGroup
    refine ⟨getCore_setCore_congr Core.teams s ?_ x, getCore_setCore_congr Core.acc s ?_ x⟩
    · rfl
    · rfl
  · exact ⟨rfl, rfl⟩

theorem getTeam_congr {s t : State} {c : Nat} (h : (getCore t c).teams = (getCore s c).teams) (n : Nat) : getTeam t c n = getTeam s c n := by
  unfold getTeam
  rw [h]

/-- A team without the first operation of its queue. -/
def dequeued (s : State) (c team : Nat) : State := setTeam s c team { getTeam s c team with ops := (getTeam s c team).ops.drop 1 }

theorem popOp_eq (s : State) (c team : Nat) (op : EngineOp) :
    ∃ b l, popOp s c team op = pushDue (setBatches (dequeued s c team) op.core op.team op.group b) l := ⟨_, _, rfl⟩

theorem ops_popOp (s : State) (c team : Nat) (op : EngineOp) : (getTeam (popOp s c team op) c team).ops = (getTeam s c team).ops.drop 1 := by
  obtain ⟨b, l, h⟩ := popOp_eq s c team op
  have hteam : getTeam (popOp s c team op) c team = getTeam (dequeued s c team) c team := by
    rw [h]
    exact getTeam_congr (cores_setBatches ..).1 team
  rw [hteam, dequeued, getTeam_setTeam]

theorem acc_popOp (s : State) (c team : Nat) (op : EngineOp) : (getCore (popOp s c team op) c).acc = (getCore s c).acc := by
  obtain ⟨b, l, h⟩ := popOp_eq s c team op
  rw [h, getCore_pushDue, (cores_setBatches ..).2, dequeued, setTeam, getCore_setCore]

theorem lookup_filter {α : Type} (p : Nat → Bool) (m : FMap α) (n : Nat) (d : α) :
    lookup (m.filter (fun e => p e.1)) n d = if p n then lookup m n d else d := by
  induction m with
  | nil => simp [lookup]
  | cons e r ih =>
    obtain ⟨k, v⟩ := e
    by_cases hk : k = n
    · subst hk
      cases hp : p k with
      | true => simp [hp, lookup]
      | false => simp [hp, ih]
    · cases hp : p k with
      | true => simp [hp, lookup, hk, ih]
      | false => simp [hp, lookup, hk, ih]

/-- The accumulators of a slot cleared. -/
def clearedAcc (s : State) (c slot : Nat) : State :=
  endUpsets (setCore s c { getCore s c with acc := (getCore s c).acc.filter (fun e => !(e.1 % 256 / 128 == slot)) }) c (inBox slot 0 0 128 128)

theorem acc_clearedAcc (s : State) (c slot n : Nat) :
    lookup (getCore (clearedAcc s c slot) c).acc n 0 = if n % 256 / 128 = slot then 0 else lookup (getCore s c).acc n 0 := by
  have hacc : (getCore (clearedAcc s c slot) c).acc = (getCore s c).acc.filter (fun e => !(e.1 % 256 / 128 == slot)) := by
    unfold clearedAcc endUpsets
    rw [getCore_setCore, getCore_setCore]
  rw [hacc, lookup_filter (fun k => !(k % 256 / 128 == slot))]
  by_cases h : n % 256 / 128 = slot
  · simp [h]
  · simp [h]

theorem teams_clearedAcc (s : State) (c slot : Nat) : (getCore (clearedAcc s c slot) c).teams = (getCore s c).teams := by
  unfold clearedAcc endUpsets
  rw [getCore_setCore, getCore_setCore]

/-- The sequencer at the operation of a group. -/
def sequencing (s : State) (c : Nat) (op : EngineOp) : State := setCore s c { getCore s c with mseqGroup := op.group % 128 }

section
variable {op : EngineOp} {r : List EngineOp} (ho : (getTeam s s.ev.core s.ev.unit).ops = op :: r) (hx : s.ev.extra = 0)
include ho hx

theorem exec_matrixOpComplete_of_waiting (h : mayRun s s.ev.core s.ev.unit = false ∨ (getCore s s.ev.core).mseqHeld = true) :
    exec .matrixOpComplete s = .next s := by
  have hc : ((getCore s s.ev.core).mseqHeld || !mayRun s s.ev.core s.ev.unit || (getCore s s.ev.core).stopped.isSome) = true := by
    rcases h with h | h
    · rw [h, Bool.not_false, Bool.or_true, Bool.true_or]
    · rw [h, Bool.true_or, Bool.true_or]
  change execMatrixOpComplete s = _
  simp only [execMatrixOpComplete, noteUpset_of_none hx, ho, hc, if_true]

variable (hm : mayRun s s.ev.core s.ev.unit = true) (hh : (getCore s s.ev.core).mseqHeld = false) (hs : (getCore s s.ev.core).stopped = none)
include hm hh hs

theorem exec_matrixOpComplete_of_clear (hk : op.kind = 2) : exec .matrixOpComplete s
    = .next (popOp (clearedAcc (sequencing s s.ev.core op) s.ev.core (op.words.getD 0 0).toNat) s.ev.core s.ev.unit op) := by
  have hc : ((getCore s s.ev.core).mseqHeld || !mayRun s s.ev.core s.ev.unit || (getCore s s.ev.core).stopped.isSome) = false := by
    rw [hm, hh, hs]
    rfl
  change execMatrixOpComplete s = _
  simp only [execMatrixOpComplete, noteUpset_of_none hx, ho, hc, hk, Bool.false_eq_true, if_false]
  rfl

theorem exec_matrixOpComplete_of_multiply (hk : op.kind ≤ 1) (hp : opSpoiled (sequencing s s.ev.core op) s.ev.core s.ev.unit op = none) :
    exec .matrixOpComplete s
      = .next (popOp (runMatMul (sequencing s s.ev.core op) s.ev.core s.ev.unit op) s.ev.core s.ev.unit op) := by
  have hc : ((getCore s s.ev.core).mseqHeld || !mayRun s s.ev.core s.ev.unit || (getCore s s.ev.core).stopped.isSome) = false := by
    rw [hm, hh, hs]
    rfl
  have hcheck (t : State) : checkSpoiled (sequencing s s.ev.core op) t s.ev.core s.ev.unit op = t := by rw [checkSpoiled, hp]
  change execMatrixOpComplete s = _
  unfold sequencing at hcheck ⊢
  obtain hk | hk : op.kind = 0 ∨ op.kind = 1 := by omega
  · simp only [execMatrixOpComplete, noteUpset_of_none hx, ho, hc, hk, hcheck, Bool.false_eq_true, if_false]
  · simp only [execMatrixOpComplete, noteUpset_of_none hx, ho, hc, hk, hcheck, Bool.false_eq_true, if_false]

end

theorem exec_wbldPageFaultHold {op : EngineOp} {r : List EngineOp} (ho : (getTeam s s.ev.core s.ev.unit).ops = op :: r)
    (hh : (getCore s s.ev.core).mseqHeld = false) : exec .wbldPageFaultHold s
      = .next (unitRecord (setCore s s.ev.core { getCore s s.ev.core with mseqHeld := true, mseqGroup := op.group % 128 }) s.ev.core 2 0
        { cls := 7, code := s.ev.value, obj := s.ev.obj, off := s.ev.off, kind := s.ev.extra } false) := by
  change execWbldPageFaultHold s = _
  simp only [execWbldPageFaultHold, ho, hh, Bool.false_eq_true, if_false]

theorem exec_mseqAbort {n : Nat} {op : EngineOp} (h : wbldTeam (getCore s s.ev.core) = some (n, op)) : exec .mseqAbort s
    = .next (if (getCore s s.ev.core).mseqHeld
      then restartOps (popOp (failOp (setCore s s.ev.core { getCore s s.ev.core with mseqHeld := false }) op 0x06) s.ev.core n op) s.ev.core n
      else popOp (failOp (setCore s s.ev.core { getCore s s.ev.core with mseqHeld := false }) op 0x06) s.ev.core n op) := by
  change execMseqAbort s = _
  simp only [execMseqAbort, h]

theorem exec_mseqResume {n : Nat} {op : EngineOp} (h : wbldTeam (getCore s s.ev.core) = some (n, op))
    (hh : (getCore s s.ev.core).mseqHeld = true) : exec .mseqResume s
      = .next (restartOps (pushDue (setCore s s.ev.core { getCore s s.ev.core with mseqHeld := false })
        [⟨.matrixOpComplete, { core := s.ev.core, unit := n }⟩]) s.ev.core n) := by
  change execMseqResume s = _
  simp only [execMseqResume, h, hh, if_true]

end

/-- Settles O43: each step of a channel and of the sequencer by its equation. -/
theorem engineEvents : Obligations.EngineEvents := by
  unfold Obligations.EngineEvents
  intro s e ch k ops
  refine ⟨?_, fun h => ⟨fun t nan hp => ?_, fun t nan x hp => exec_copyWriteAck_of_stopped h hp⟩, fun h => ?_, fun h => ?_, fun h => ?_,
    fun h hk => ?_, fun op r ho hs hk hx hh hm => ?_, fun op r ho hk hx hp => ?_, fun op r ho hh => exec_wbldPageFaultHold ho hh,
    fun n op hw => ⟨exec_mseqAbort hw, fun hh => exec_mseqResume hw hh⟩⟩
  · intro u h hr
    have hx := exec_copyStart h hr
    exact ⟨fun hd => hx.trans (congrArg _ (startedCopy_of_data hd)), fun hk hf => hx.trans (congrArg _ (startedCopy_of_refused hk hf)),
      fun hk hf => hx.trans (congrArg _ (startedCopy_of_read hk hf))⟩
  · intro u done
    have hx := exec_copyWriteAck_of_moved h hp
    refine ⟨fun hd => hx.trans (congrArg _ (if_pos hd)), fun hd hk => hx.trans (congrArg _ ?_), fun hd hk => hx.trans (congrArg _ ?_)⟩
    · exact (if_neg hd).trans (if_neg (Nat.not_lt.2 (Nat.le_of_lt_succ hk)))
    · exact (if_neg hd).trans (if_pos hk)
  · refine ⟨_, _, exec_copyComplete h, exec_chstatAbort h, getChannel_endCopy .., ?_, fun hg => batch_endCopy hg _⟩
    rw [getChannel_endCopy, getChannel_unqueueCopy]
  · exact exec_copyPageFaultHold h
  · exact exec_chstatResume h
  · have hx := exec_driveCompletion h hk
    refine ⟨fun hf => hx.trans (congrArg _ (if_pos hf)), fun hf hv => hx.trans (congrArg _ (driveAnswered_of_status hf hv)),
      fun hf hv hk4 hl => hx.trans (congrArg _ (driveAnswered_of_written hf hv hk4 hl)), fun hf hv hk4 => ?_, exec_storageTimeout h hk⟩
    have hr := driveAnswered_of_read hf hv hk4
    exact ⟨fun h2 => hx.trans (congrArg _ (hr.trans (if_pos h2))), fun h2 => hx.trans (congrArg _ (hr.trans (if_neg h2)))⟩
  · refine ⟨_, exec_matrixOpComplete_of_clear ho hx hm hh hs hk, ?_, fun n => ?_⟩
    · rw [ops_popOp, getTeam_congr (s := s) ?_, show (getTeam s s.ev.core s.ev.unit).ops = op :: r from ho, List.drop_one, List.tail_cons]
      rw [teams_clearedAcc, sequencing, getCore_setCore]
    · rw [acc_popOp, acc_clearedAcc, sequencing, getCore_setCore]
  · intro u
    exact ⟨fun hm hh hs => exec_matrixOpComplete_of_multiply ho hx hm hh hs hk hp, fun h => exec_matrixOpComplete_of_waiting ho hx h⟩

end Sys2Proof.Machine

/-!
PROOFS. Commits, messages, teams and groups (O44).
-/

namespace Sys2Proof.Machine

/-! ### REGION_COMMIT (R142, R149) -/

/-- The state in which a commit is made: the event's group issues. -/
def committing (s : State) : State := { s with cur := { Issue.none with core := s.ev.core, slot := s.ev.unit } }

section
variable {s : State}

theorem exec_regionCommit_of_parked (h : commitParkedAt s s.ev.core s.ev.unit = true) : exec .regionCommit s = .next s := if_pos h

variable (h : commitParkedAt s s.ev.core s.ev.unit = false)
include h

theorem exec_regionCommit_of_lane (hl : s.ev.unit = Config.laneSlot) : exec .regionCommit s = .next (commitLane (committing s) s.ev.core) := by
  change execRegionCommit s = _
  simp only [execRegionCommit, h, Bool.false_eq_true, if_false, if_pos hl]
  rfl

theorem exec_regionCommit_of_ended {r : Region} {t : State} (hl : s.ev.unit ≠ Config.laneSlot) (hf : s.ev.flag = false)
    (hm : mayCommit (committing s) s.ev.core s.ev.unit = some r)
    (hh : hashMiss (committing s) (getGroup (committing s) s.ev.core s.ev.unit) r
      (regionHash (getGroup (committing s) s.ev.core s.ev.unit).stats.hash r) = .ok none)
    (ht : commitRegion (committing s) s.ev.core s.ev.unit r (regionHash (getGroup (committing s) s.ev.core s.ev.unit).stats.hash r) = .ok t) :
    exec .regionCommit s = .next t := by
  unfold committing at hm hh ht
  change execRegionCommit s = _
  simp only [execRegionCommit, h, Bool.false_eq_true, if_false, if_neg hl, hf, hm, hh, ite_self, ht]

theorem exec_regionCommit_of_waiting {t : State} (hl : s.ev.unit ≠ Config.laneSlot) (hf : s.ev.flag = true)
    (hw : waitsHolding (getGroup (committing s) s.ev.core s.ev.unit) = true) (hs : spanHeld (committing s) s.ev.core s.ev.unit = false)
    (hd : (getGroup (committing s) s.ev.core s.ev.unit).stats.stopped = false) (ht : commitSoFar (committing s) s.ev.core s.ev.unit = .ok t) :
    exec .regionCommit s = .next t := by
  unfold committing at hw hs hd ht
  change execRegionCommit s = _
  simp only [execRegionCommit, h, Bool.false_eq_true, if_false, if_neg hl, hf, if_true, hw, hs, hd, ht, Bool.not_true, Bool.or_self]

end

/-! ### Messages (R263) -/

section
variable {s : State}

/-- The meaning of a message's arrival where no earlier one of its sender is refused. -/
def messageTaken (s : State) : State :=
  let c := s.ev.core
  let m := messageOf s.ev
  let k := getCore s c
  match findReceive s c m with
  | some h => completeReceive s c h m
  | none =>
    match queueMessage k m with
    | some k => setCore s c k
    | none =>
      let t := setCore s c { k with refused := k.refused ++ [{ s.ev with flag := true }] }
      if s.ev.flag then t else unitRecord t c 5 0 { cls := 0xC, code := 0x01 } false

theorem exec_messageArrival (h : (getCore s s.ev.core).refused.any (fun x => x.unit == (messageOf s.ev).src) = false) :
    exec .messageArrival s = .next (messageTaken s) := by
  change execMessageArrival s = _
  simp only [execMessageArrival, h, Bool.false_eq_true, if_false]
  rfl

/-! ### Credit groups (R146) -/

theorem exec_creditEviction {a : Area} {t : State} (hr : (getGroup s s.ev.core s.ev.unit).resident = true)
    (hc : (getGroup s s.ev.core s.ev.unit).credit = true) (hs : savable s s.ev.core s.ev.unit = true)
    (ha : creditArea s (getGroup s s.ev.core s.ev.unit).launch ((getTeam s s.ev.core (getGroup s s.ev.core s.ev.unit).team).tl * 64
      + (getGroup s s.ev.core s.ev.unit).wg.toNat % 64) = some a) (ht : saveGroup s s.ev.core s.ev.unit a true = .ok t) :
    exec .creditEviction s = .next t := by
  change execCreditEviction s = _
  simp only [execCreditEviction, hr, hc, hs, ha, ht, Bool.not_true, Bool.false_and, Bool.or_self, Bool.false_eq_true, if_false]

theorem exec_creditReadmit {m : Nat} {a : Area} (hm : teamFor s s.ev.core s.ev.obj s.ev.value = some m)
    (ha : creditArea s s.ev.obj (s.ev.value * 64 + s.ev.unit) = some a)
    (hw : (getLaunch s s.ev.obj).away.any (fun x => x.credit && x.member == teamKey (getTeam s s.ev.core m) && x.g == s.ev.unit) = true)
    (hv : areaValid s (teamKey (getTeam s s.ev.core m)) a = true) (hr : groupRoom s s.ev.core a = true) :
    exec .creditReadmit s = .next (restoreGroup s s.ev.core m a).2 := by
  change execCreditReadmit s = _
  simp only [execCreditReadmit, hm, ha, hw, hv, hr, Bool.and_self, if_true]

/-! ### The split and the admission of teams (R50, R84, R145) -/

theorem exec_poolsplitWrite_of_taken (hv : splitValid (wordOf s.ev.value) = true) (ht : (getCore s s.ev.core).teams = []) :
    exec .poolsplitWrite s = .next (setSplit s s.ev.core (wordOf s.ev.value)) := by
  change execPoolsplitWrite s = _
  simp only [execPoolsplitWrite, hv, ht, List.isEmpty_nil, Bool.and_self, if_true]

theorem exec_poolsplitWrite_of_refused (h : splitValid (wordOf s.ev.value) = false ∨ (getCore s s.ev.core).teams ≠ []) :
    exec .poolsplitWrite s = .next (setDie s (dieOf s.ev.core) { getDie s (dieOf s.ev.core) with
      splitErrs := (getDie s (dieOf s.ev.core)).splitErrs + 1 }) := by
  have hc : (splitValid (wordOf s.ev.value) && (getCore s s.ev.core).teams.isEmpty) = false := by
    rcases h with h | h
    · rw [h, Bool.false_and]
    · rw [List.isEmpty_eq_false_iff.2 h, Bool.and_false]
  change execPoolsplitWrite s = _
  simp only [execPoolsplitWrite, hc, Bool.false_eq_true, if_false]

theorem exec_teamAdmission (hk : hasKey s.launches s.ev.obj = true)
    (ha : canAdmit s s.ev.core (getLaunch s s.ev.obj) (minGroups (getLaunch s s.ev.obj)) = true) :
    exec .teamAdmission s = .next (admitTeam s s.ev.core s.ev.obj s.ev.value (s.ev.len / 8) (s.ev.len % 8) s.ev.off) := by
  change execTeamAdmission s = _
  simp only [execTeamAdmission, hk, ha, Bool.and_self, if_true]

theorem memRead_memClear {m : Memory} {x n a : Nat} (h : x ≤ a) (hn : a < x + n) : memRead (memClear m x n) a = unlistedByte := by
  unfold memRead memClear
  rw [lookup_filter (fun k => !(decide (x ≤ k) && decide (k < x + n)))]
  simp [h, hn]

/-- What the placement of a team leaves on its core, for the team and the core that it takes. -/
theorem placeTeam_eq (s : State) (c launch tl row col leader : Nat) : ∃ (k : Core) (t : Team) (u : State),
    placeTeam s c launch tl row col leader = ((lowestFree k.teams 64).getD 0, setCore u c
        { zeroGrants k (getLaunch s launch).matrix with
          teams := insertKey (zeroGrants k (getLaunch s launch).matrix).teams ((lowestFree k.teams 64).getD 0) t
          scratch := memClear (zeroGrants k (getLaunch s launch).matrix).scratch t.scratch t.size
          badWords := wordsLeft (zeroGrants k (getLaunch s launch).matrix).badWords t.scratch t.size })
      ∧ t.launch = launch ∧ t.tl = tl ∧ t.weights = (getLaunch s launch).matrix.testBit 2 :=
  ⟨_, _, _, rfl, rfl, rfl, rfl⟩

theorem placeTeam_done (s : State) (c launch tl row col leader : Nat) :
    let r := placeTeam s c launch tl row col leader
    let t := getTeam r.2 c r.1
    t.launch = launch ∧ t.tl = tl ∧ (∀ a, t.scratch ≤ a → a < t.scratch + t.size → memRead (getCore r.2 c).scratch a = 0)
      ∧ (t.weights = true → (getCore r.2 c).weights = []) := by
  obtain ⟨k, t, u, h, hl, htl, hw⟩ := placeTeam_eq s c launch tl row col leader
  have hteam : getTeam (placeTeam s c launch tl row col leader).2 c (placeTeam s c launch tl row col leader).1 = t := by
    rw [h]
    simp [getTeam, lookup_insertKey_self]
  intro r t'
  have ht' : t' = t := hteam
  rw [ht']
  refine ⟨hl, htl, fun a ha hn => ?_, fun hweights => ?_⟩
  · change memRead (getCore (placeTeam s c launch tl row col leader).2 c).scratch a = 0
    rw [h, getCore_setCore]
    exact memRead_memClear ha hn
  · change (getCore (placeTeam s c launch tl row col leader).2 c).weights = []
    rw [h, getCore_setCore]
    exact if_pos (hw ▸ hweights)

/-! ### The start and the end of groups (R141, R142, R161, R251) -/

theorem exec_groupInstantiate {r : Role} (hr : find? (getLaunch s (getTeam s s.ev.core s.ev.unit).launch).roles s.ev.value = some r)
    (hk : hasKey (getCore s s.ev.core).teams s.ev.unit = true) (hw : wantsGroup s s.ev.core s.ev.unit s.ev.value r = true)
    (hc : creditRoom s s.ev.core (getLaunch s (getTeam s s.ev.core s.ev.unit).launch) r = true) (hd : ∀ x ∈ s.due, admits x.instr = false) :
    exec .groupInstantiate s = .next (startGroup s s.ev.core s.ev.unit s.ev.value true) := by
  have hdue : s.due.any (fun x => admits x.instr) = false := List.any_eq_false.2 fun x hx => by rw [hd x hx]; exact Bool.false_ne_true
  change execGroupInstantiate s = _
  simp only [execGroupInstantiate, hdue, hr, hk, hw, hc, Bool.false_eq_true, if_false, Bool.and_self, if_true]

theorem exec_groupInstantiate_of_admission {x : Due} (hx : x ∈ s.due) (ha : admits x.instr = true) :
    exec .groupInstantiate s = .next (pushDue s [⟨.groupInstantiate, s.ev⟩]) := by
  have hdue : s.due.any (fun x => admits x.instr) = true := List.any_eq_true.2 ⟨x, hx, ha⟩
  change execGroupInstantiate s = _
  simp only [execGroupInstantiate, hdue, if_true]

theorem cores_pushDue_if (s : State) (b : Bool) (l : List Due) : (if b then pushDue s l else s).cores = s.cores := by
  cases b <;> rfl

theorem cores_afterGroup (s : State) (launch : Nat) : (afterGroup s launch).cores = s.cores := by
  unfold afterGroup
  dsimp only
  rw [cores_pushDue_if, cores_pushDue_if, cores_pushDue_if]

theorem getGroup_congr_cores {s t : State} (h : t.cores = s.cores) (c x : Nat) : getGroup t c x = getGroup s c x := by
  unfold getGroup getCore
  rw [h]

theorem getGroup_closeTeam (s : State) (c team x : Nat) : getGroup (closeTeam s c team) c x = getGroup s c x := by
  unfold closeTeam
  split
  · rfl
  · simp only [endTeam, getGroup, getCore_setCore]

/-- A group that has ended has left its slot free. -/
theorem resident_endGroup (s : State) (c slot : Nat) (endCode : Nat) : (getGroup (endGroup s c slot endCode) c slot).resident = false := by
  unfold endGroup
  dsimp only
  split
  · rw [getGroup_closeTeam, getGroup_setGroup]
    rfl
  · rw [getGroup_congr_cores (cores_afterGroup _ _), getGroup_closeTeam, getGroup_setGroup]
    rfl

theorem exec_groupRetire (hm : mayRetire s s.ev.core s.ev.unit = true) : exec .groupRetire s = .next (endGroup s s.ev.core s.ev.unit 2) := by
  change execGroupRetire s = _
  simp only [execGroupRetire, hm, if_true]

theorem exec_groupEnd (hu : s.ev.unit < 128) (hm : mayEnd (getGroup s s.ev.core s.ev.unit) = true) :
    exec .groupEnd s = .next (endGroup s s.ev.core s.ev.unit 1) := by
  change execGroupEnd s = _
  simp only [execGroupEnd, if_neg (Nat.not_le.2 hu), hm, if_true]

end

/-- Settles O44: each event by the equation of its step. -/
theorem regionAndGroupEvents : Obligations.RegionAndGroupEvents := by
  unfold Obligations.RegionAndGroupEvents
  intro s e k c
  refine ⟨?_, ?_, fun h => exec_regionCommit_of_parked h, fun h hl => exec_regionCommit_of_lane h hl, ?_, ?_, ?_,
    fun hv ht => exec_poolsplitWrite_of_taken hv ht, fun h => ⟨_, exec_poolsplitWrite_of_refused h, ?_, rfl⟩,
    fun hk ha => exec_teamAdmission hk ha, ?_, fun r hr hk hw hc hd => exec_groupInstantiate hr hk hw hc hd,
    fun x hx ha => exec_groupInstantiate_of_admission hx ha, fun h => ⟨_, exec_groupRetire h, rfl, resident_endGroup ..⟩,
    fun hu hm => ⟨_, exec_groupEnd hu hm, rfl, resident_endGroup ..⟩⟩
  · intro r t hash h hl hf hm hh ht
    exact exec_regionCommit_of_ended h hl hf hm hh ht
  · intro t g h hl hf hw hs hd ht
    exact exec_regionCommit_of_waiting h hl hf hw hs hd ht
  · intro m h
    have hx := exec_messageArrival h
    refine ⟨fun r hr => hx.trans (congrArg _ ?_), fun x hr hq => hx.trans (congrArg _ ?_), fun hr hq => hx.trans (congrArg _ ?_)⟩
    · simp only [messageTaken, show findReceive s s.ev.core (messageOf s.ev) = _ from hr]
      rfl
    · simp only [messageTaken, show findReceive s s.ev.core (messageOf s.ev) = _ from hr,
        show queueMessage (getCore s s.ev.core) (messageOf s.ev) = _ from hq]
      rfl
    · simp only [messageTaken, show findReceive s s.ev.core (messageOf s.ev) = _ from hr,
        show queueMessage (getCore s s.ev.core) (messageOf s.ev) = _ from hq]
      rfl
  · intro a t hr hc hs g ha ht
    exact exec_creditEviction hr hc hs ha ht
  · intro m a hm ha key hw hv hr
    exact exec_creditReadmit hm ha hw hv hr
  · rw [getDie_setDie]
  · intro a n tl row col leader r t
    obtain ⟨hl, ht, hz, hw⟩ := placeTeam_done s n e.obj tl row col leader
    exact ⟨hl, ht, hz a, hw⟩

end Sys2Proof.Machine

/-!
PROOFS. Bundles, stopped cores and ordered reductions (O45).
-/

namespace Sys2Proof.Machine

/-! ### Bundles (R137, R144, R160, R392, R393) -/

section
variable {s : State}

theorem exec_placementBlockTimeout {t : Nat} (ht : (getBundle s s.ev.unit).since = some t) (hp : (getBundle s s.ev.unit).placed = false)
    (hr : (getBundle s s.ev.unit).retired = false) : exec .placementBlockTimeout s
      = .next (if t + 27000000 ≤ s.clock ∧ dependsMet s (getBundle s s.ev.unit) = some true
        then setBundle s s.ev.unit { getBundle s s.ev.unit with blocking := true } else s) := by
  change execPlacementBlockTimeout s = _
  simp only [execPlacementBlockTimeout, ht, hp, hr, Bool.not_false, true_and]

theorem exec_triggerSignal (hk : hasKey s.launches s.ev.unit = true) (ht : (getLaunch s s.ev.unit).trigger.isSome = true)
    (hs : (getLaunch s s.ev.unit).trigSent = false) (hg : gridTriggered s s.ev.unit = true) : exec .triggerSignal s
      = .next (launchSignal (setLaunch s s.ev.unit { getLaunch s s.ev.unit with trigSent := true }) (getLaunch s s.ev.unit)
        (getLaunch s s.ev.unit).trigger none true) := by
  change execTriggerSignal s = _
  simp only [execTriggerSignal, hk, ht, hs, hg, Bool.not_false, Bool.and_self, if_true]

theorem exec_bundleRetire (hk : hasKey s.bundles s.ev.unit = true) (hr : (getBundle s s.ev.unit).retired = false)
    (hp : (getBundle s s.ev.unit).placed = true) (hg : ∀ i ∈ (getBundle s s.ev.unit).launches, gridComplete s (getLaunch s i) = true) :
    exec .bundleRetire s
      = .next (forgetBundle (writeDones ((getBundle s s.ev.unit).launches.foldl closeLogs s) s.ev.unit) s.ev.unit false) := by
  have hall : (getBundle s s.ev.unit).launches.all (fun i => gridComplete s (getLaunch s i)) = true := List.all_eq_true.2 hg
  change execBundleRetire s = _
  simp only [execBundleRetire, hk, hr, hp, hall, Bool.not_true, Bool.or_self, Bool.false_eq_true, if_false]

/-- A forgotten bundle keeps its launches' names, and is over. -/
theorem getBundle_forgetBundle (s : State) (id : Nat) (aborted : Bool) : ∃ reason, getBundle (forgetBundle s id aborted) id
    = { getBundle s id with retired := true, aborted := aborted, reason := reason } := ⟨_, lookup_insertKey_self ..⟩

theorem hasKey_filter_eq_false {α : Type} {m : FMap α} {p : Nat → Bool} {n : Nat} (h : p n = false) :
    hasKey (m.filter (fun e => p e.1)) n = false := by
  unfold hasKey
  rw [List.any_eq_false]
  intro e he
  have hp := (List.mem_filter.1 he).2
  intro hn
  rw [beq_iff_eq.1 hn, h] at hp
  exact Bool.false_ne_true hp

theorem hasKey_forgetBundle {s : State} {id i : Nat} {aborted : Bool} (h : i ∈ (getBundle s id).launches) :
    hasKey (forgetBundle s id aborted).launches i = false :=
  hasKey_filter_eq_false (m := s.launches) (p := fun k => !(getBundle s id).launches.contains k)
    (by rw [Bool.not_eq_false', List.contains_iff_mem]; exact h)

/-- The bundle's launches have ended; what is left is to write their DONE signals. -/
theorem exec_bundleAbort (hk : hasKey s.bundles s.ev.obj = true) (hr : (getBundle s s.ev.obj).retired = false) :
    ∃ u, exec .bundleAbort s = .next (forgetBundle u s.ev.obj true) := by
  change ∃ u, execBundleAbort s = _
  simp only [execBundleAbort, hk, hr, Bool.not_true, Bool.or_self, Bool.false_eq_true, if_false]
  exact ⟨_, rfl⟩

/-! ### A stopped core (R345) -/

/-- The bundles with a team on a core. -/
def coreBundles (s : State) (c : Nat) : List Nat := ((getCore s c).teams.map (fun t => (getLaunch s t.2.launch).bundle)).eraseDups

/-- The state after the reset of a stopped core. -/
def coreRestarted (s : State) (c : Nat) : State :=
  let s := setSplit (resolveOthers s c) c 0x3448
  let s := setCore s c (freshCore (getCore s c))
  let d := getDie s (dieOf c)
  setDie s (dieOf c) { d with coreStops := d.coreStops.filter (fun x => x.1 != c) }

theorem exec_coreStop (h : (getCore s s.ev.core).stopped.isSome = true) : exec .coreStop s
    = .next (if (coreBundles s s.ev.core).any (fun i => hasKey s.bundles i && !(getBundle s i).retired)
      then dueFirst s ((coreBundles s s.ev.core).map (fun i => dueAbort i 0x08 0) ++ [⟨.coreStop, { core := s.ev.core }⟩])
      else coreRestarted s s.ev.core) := by
  have hn : (getCore s s.ev.core).stopped.isNone = false := by rw [← Option.not_isSome, h]; rfl
  change execCoreStop s = _
  simp only [execCoreStop, hn, Bool.false_eq_true, if_false]
  rfl

theorem getCore_coreRestarted (s : State) (c : Nat) : ∃ k, getCore (coreRestarted s c) c = freshCore k := ⟨_, lookup_insertKey_self ..⟩

theorem coreStops_coreRestarted (s : State) (c : Nat) : ∀ x ∈ (getDie (coreRestarted s c) (dieOf c)).coreStops, x.1 ≠ c := by
  intro x hx
  unfold coreRestarted at hx
  dsimp only at hx
  rw [getDie_setDie] at hx
  exact bne_iff_ne.1 (List.mem_filter.1 hx).2

/-! ### Ordered reductions (R278) -/

/-- The meaning of FRED_LOG_APPLY for the first entry of a launch's logs. -/
def fredApplied (s : State) (d lid : Nat) (x : FredEntry) (r : List FredEntry) (logs : FMap (List FredEntry)) : FredStep → State
  | .applied t => fredGo t d lid logs
  | .dropped => fredGo (recordStatus s lid 0x0A) d lid logs
  | .parked e => parkAt (setDie s d { getDie s d with fredState := 1, fredLid := lid, fredLeft := r.length + 1 }) (getLaunch s lid).part e x.off
      ⟨.fredLogApply, { die := d }⟩
  | .held code => unitRecord (setDie s d { getDie s d with fredState := 2, fredLid := lid, fredLeft := r.length + 1 }) (fwCore d) 4 0
      { cls := 7, code := code, obj := x.obj, off := x.off, kind := 2 } true

theorem exec_fredLogApply {lid n : Nat} {x : FredEntry} {r : List FredEntry} {m : FMap (List FredEntry)} (hd : (getDie s s.ev.die).fredState ≠ 2)
    (hl : fredNext s s.ev.die = some lid) (hg : (getLaunch s lid).logs = (n, x :: r) :: m) : exec .fredLogApply s
      = .next (fredApplied s s.ev.die lid x r (popLog ((n, x :: r) :: m)) (fredOne s (getLaunch s lid) x)) := by
  change execFredLogApply s = _
  simp only [execFredLogApply, if_neg hd, hl, hg]
  cases fredOne s (getLaunch s lid) x <;> rfl

theorem exec_fredctlAbort (h : (getDie s s.ev.die).fredState = 2) : exec .fredctlAbort s
    = .next (fredGo (recordStatus s (getDie s s.ev.die).fredLid 0x0A) s.ev.die (getDie s s.ev.die).fredLid []) := congrArg _ (if_pos h)

theorem exec_fredctlResume (h : (getDie s s.ev.die).fredState = 2) : exec .fredctlResume s
    = .next (dueFirst (setDie s s.ev.die { getDie s s.ev.die with fredState := 1 }) [⟨.fredLogApply, { die := s.ev.die }⟩]) :=
  congrArg _ (if_pos h)

end

/-- Settles O45: each event by the equation of its step. -/
theorem bundleEvents : Obligations.BundleEvents := by
  unfold Obligations.BundleEvents
  intro s e b d k
  refine ⟨rfl, rfl, fun t ht hp hr => ?_, fun hk ht hs hg => exec_triggerSignal hk ht hs hg, fun hk hr hp hg => ?_, fun t hk hr ht => ?_,
    ⟨_, rfl⟩, ?_, fun lid n x r m t hd hl hg => ?_, fun h => ⟨exec_fredctlAbort h, exec_fredctlResume h⟩⟩
  · have hx := exec_placementBlockTimeout ht hp hr
    refine ⟨fun h hm => hx.trans (congrArg _ (if_pos ⟨h, hm⟩)), fun h => hx.trans (congrArg _ (if_neg fun hc => ?_))⟩
    exact h.elim (Nat.not_lt.2 hc.1) (fun hn => hn hc.2)
  · obtain ⟨reason, hb⟩ := getBundle_forgetBundle (writeDones (b.launches.foldl closeLogs s) e.unit) e.unit false
    refine ⟨_, exec_bundleRetire hk hr hp hg, rfl, ?_, fun i hi => hasKey_forgetBundle ?_⟩
    · rw [hb]
    · rw [hb] at hi
      exact hi
  · obtain ⟨u, hu⟩ := exec_bundleAbort hk hr
    obtain ⟨reason, hb⟩ := getBundle_forgetBundle u e.obj true
    obtain rfl : forgetBundle u e.obj true = t := Host.Outcome.next.inj (hu.symm.trans ht)
    rw [hb]
    exact ⟨rfl, rfl⟩
  · intro ids h
    have hx := exec_coreStop h
    refine ⟨fun ⟨i, hi, hk, hr⟩ => hx.trans (congrArg _ (if_pos ?_)), fun hall => ⟨_, hx.trans (congrArg _ (if_neg ?_)), ?_, ?_,
      coreStops_coreRestarted s _⟩⟩
    · exact List.any_eq_true.2 ⟨i, hi, by rw [hk, hr]; rfl⟩
    · rw [Bool.not_eq_true, List.any_eq_false]
      intro i hi hc
      obtain ⟨hk, hr⟩ := Bool.and_eq_true_iff.1 hc
      rcases hall i hi with h | h
      · exact Bool.false_ne_true (h.symm.trans hk)
      · rw [h] at hr
        exact Bool.false_ne_true hr
    · obtain ⟨k, hk⟩ := getCore_coreRestarted s e.core
      rw [hk]
      rfl
    · obtain ⟨k, hk⟩ := getCore_coreRestarted s e.core
      rw [hk]
      rfl
  · have hx := exec_fredLogApply hd hl hg
    exact ⟨fun h => hx.trans (by rw [h]; rfl), fun h => hx.trans (by rw [h]; rfl), fun y h => hx.trans (by rw [h]; rfl),
      fun code h => hx.trans (by rw [h]; rfl)⟩

end Sys2Proof.Machine

/-!
PROOFS. The firmware core of a die and its packets (O46).
-/

namespace Sys2Proof.Machine

/-! ### Packets (R388) -/

theorem withPacket_of_here {s : State} {p : Packet} {n : Nat} (h : packetHere s s.ev.die s.ev.unit n = some p) (f : Packet → State) :
    withPacket s n f = .next (f p) := by
  unfold withPacket
  rw [h]

section
variable {s t : State} {p : Packet} {g : Signal}

/-- The meaning of SIGNAL_PACKET for a good signal field and a good packet. -/
theorem exec_signalPacket (h : packetHere s s.ev.die s.ev.unit 4 = some p) (hg : signalField s p 4 (some (bodyHeader 4)) = .ok g)
    (hb : signalBad p = false) :
    (updateSignal s p.ring.die p.ring.area.part g (signalEffect p g) = .ok t → exec .signalPacket s = .next (finishPacket t p))
    ∧ ∀ a b, updateSignal s p.ring.die p.ring.area.part g (signalEffect p g) = .error (.migrating a b) → exec .signalPacket s = .next s := by
  refine ⟨fun hu => ?_, fun a b hu => ?_⟩
  · refine (withPacket_of_here h _).trans ?_
    simp only [hg, hb, hu, Bool.false_eq_true, if_false]
  · refine (withPacket_of_here h _).trans ?_
    simp only [hg, hb, hu, Bool.false_eq_true, if_false]

theorem exec_waitPacket (h : packetHere s s.ev.die s.ev.unit 5 = some p) (hg : signalField s p 4 (some (bodyHeader 5)) = .ok g) :
    exec .waitPacket s = .next (testWait s p g) := by
  refine (withPacket_of_here h _).trans ?_
  simp only [hg]

theorem exec_waitSatisfied (h : packetHere s s.ev.die s.ev.unit 5 = some p) (hg : signalField s p 4 (some (bodyHeader 5)) = .ok g)
    (hw : (getFw (getDie s s.ev.die) s.ev.unit).waiting = true) : exec .waitSatisfied s = .next (testWait s p g) :=
  (if_pos hw).trans (exec_waitPacket h hg)

theorem exec_publishPacket {c : Cap} (h : packetHere s s.ev.die s.ev.unit 6 = some p) (hc : publishCap s p = .ok c)
    (hw : p.w 1 / 2 ^ 31 = 1 → batchUpTo (getStream s (p.w 1 % 256)).wmark.toNat (p.w 2) = true) :
    exec .publishPacket s = .next (finishPacket (publishObject s p.ring.area.part c.obj.toNat) p) := by
  have hgo : (decide (p.w 1 / 2 ^ 31 = 1) && !batchUpTo (getStream s (p.w 1 % 256)).wmark.toNat (p.w 2)) = false := by
    by_cases hp : p.w 1 / 2 ^ 31 = 1
    · rw [hw hp, Bool.not_true, Bool.and_false]
    · rw [decide_eq_false hp, Bool.false_and]
  refine (withPacket_of_here h _).trans ?_
  simp only [hc, hgo, Bool.false_eq_true, if_false]

theorem exec_timestampPacket {c : Cap} (h : packetHere s s.ev.die s.ev.unit 8 = some p)
    (hc : fieldCap s p 4 0x02 (some (bodyHeader 8)) = .ok c) (ha : p.w 6 % 8 = 0) (hl : p.w 6 + 8 ≤ capLen c)
    (hw : fwWrite s p.ring.area.part c (p.w 6) (leBytes 8 s.clock) = .ok t) : exec .timestampPacket s = .next (finishPacket t p) := by
  have hgo : (decide (p.w 6 % 8 ≠ 0) || decide (capLen c < p.w 6 + 8)) = false := by
    rw [decide_eq_false (not_not_intro ha), decide_eq_false (Nat.not_lt.2 hl)]
    rfl
  refine (withPacket_of_here h _).trans ?_
  simp only [hc, hgo, hw, Bool.false_eq_true, if_false]

theorem exec_abortPacket (h : packetHere s s.ev.die s.ev.unit 7 = some p) (hl : 3 ≤ p.words.length) (hm : p.w 1 ≤ 1) : exec .abortPacket s
    = .next (dueFirst (finishPacket s p) ((s.bundles.filter (fun b => !b.2.retired && (if p.w 1 = 1
      then bundleQueue s b.2 == (p.ring.area.part, p.ring.area.desc.id) else b.2.launches.contains (p.w 2)))).map
        (fun b => dueAbort b.1 0x07 0))) := by
  refine (withPacket_of_here h _).trans ?_
  simp only [if_neg (Nat.not_lt.2 hl), if_neg (Nat.not_lt.2 hm)]

/-- The state in which the firmware copy engine has a packet's copy. -/
def copyQueued (s : State) (p : Packet) (w : List Word) (a b : Cap) : State :=
  setChannel s (fwCore p.ring.die) fwChannel { Channel.idle with
    desc := w, src := a, dst := b, group := 127, state := 1, nvst := (getChannel s (fwCore p.ring.die) fwChannel).nvst }

theorem exec_copyPacket_of_ended (h : packetHere s s.ev.die s.ev.unit 3 = some p) (hl : 36 ≤ p.words.length) (hd : copyDone s p = .ok none)
    (hs : (getChannel s (fwCore p.ring.die) fwChannel).state = 0) (hc : (getFw (getDie s p.ring.die) p.ring.lane).copying = true) :
    exec .copyPacket s = .next (finishPacket s p) := by
  refine (withPacket_of_here h _).trans ?_
  simp only [if_neg (Nat.not_lt.2 hl), hd, hc, if_true, hs, ne_eq, not_true_eq_false, if_false]

theorem exec_copyPacket_of_free {done : Option Signal} {w : List Word} {a b : Cap} (h : packetHere s s.ev.die s.ev.unit 3 = some p)
    (hl : 36 ≤ p.words.length) (hd : copyDone s p = .ok done) (hs : (getChannel s (fwCore p.ring.die) fwChannel).state = 0)
    (hc : (getFw (getDie s p.ring.die) p.ring.lane).copying = false) (ho : copyOf s p = .ok (w, a, b))
    (hn : ∀ x ∈ (getDie s p.ring.die).lanes, x.2.copying = false) : exec .copyPacket s
      = .next (dueFirst (setLane (copyQueued s p w a b) p.ring.die p.ring.lane (fun x => { x with copying := true }))
        [⟨.copyStart, { core := fwCore p.ring.die, unit := fwChannel }⟩]) := by
  have hfree : (decide ((getChannel s (fwCore p.ring.die) fwChannel).state ≠ 0) || (getDie s p.ring.die).lanes.any (·.2.copying)) = false := by
    rw [decide_eq_false (not_not_intro hs), Bool.false_or]
    exact List.any_eq_false.2 fun x hx => by rw [hn x hx]; exact Bool.false_ne_true
  refine (withPacket_of_here h _).trans ?_
  simp only [if_neg (Nat.not_lt.2 hl), hd, hc, ho, hfree, Bool.false_eq_true, if_false]
  rfl

theorem exec_launchPacket {c : Chain} (h : packetHere s s.ev.die s.ev.unit 2 = some p)
    (hc : chainFrom s p.ring (p.ring.avail p.ring.head / 16 + 1) p.ring.head = some c) :
    (∀ ls, chainLaunches s c = .ok ls → exec .launchPacket s = .next (acceptChain s p.ring c ls))
      ∧ ∀ x, chainLaunches s c = .error x → exec .launchPacket s = .next (rejectChain s p.ring c x) := by
  refine ⟨fun ls hl => ?_, fun x hx => ?_⟩
  · refine (withPacket_of_here h _).trans ?_
    simp only [hc, hl]
  · refine (withPacket_of_here h _).trans ?_
    simp only [hc, hx]

/-! ### The step of the firmware core (R389) -/

/-- The meaning of FIRMWARE_STEP outside the safe state. -/
def firmwareStepped (s : State) : State :=
  let d := s.ev.die
  let k := getDie s d
  if s.ev.value = 2 then writeHeads s d
  else if k.booting || k.fallback then s
  else if s.ev.value = 1 then laneReject d s s.ev.unit
  else
    dueFirst (setDie s d { k with heartbeat := s.clock })
      ((sortBy (fun (x y : Nat × Due) => decide (x.1 ≤ y.1)) ((upTo 32).filterMap (laneStep s d))).map (·.2) ++ placeSteps d)

theorem exec_firmwareStep (h : s.boot.safe = false) : exec .firmwareStep s = .next (firmwareStepped s) := by
  change execFirmwareStep s = _
  simp only [execFirmwareStep, h, Bool.false_eq_true, if_false]
  rfl

theorem exec_firmwareStep_of_safe (h : s.boot.safe = true) : exec .firmwareStep s = .next s := by
  change execFirmwareStep s = _
  simp only [execFirmwareStep, h, if_true]

section
variable (hb : (getDie s s.ev.die).booting = false) (hf : (getDie s s.ev.die).fallback = false)
include hb hf

theorem firmwareStepped_of_reject (hv : s.ev.value = 1) : firmwareStepped s = laneReject s.ev.die s s.ev.unit := by
  have h2 : ¬ s.ev.value = 2 := by omega
  simp only [firmwareStepped, if_neg h2, if_pos hv, hb, hf, Bool.or_self, Bool.false_eq_true, if_false]

theorem firmwareStepped_of_begin (hv : s.ev.value = 0) : firmwareStepped s
    = dueFirst (setDie s s.ev.die { getDie s s.ev.die with heartbeat := s.clock })
      ((sortBy (fun (x y : Nat × Due) => decide (x.1 ≤ y.1)) ((upTo 32).filterMap (laneStep s s.ev.die))).map (·.2) ++ placeSteps s.ev.die) := by
  have h2 : ¬ s.ev.value = 2 := by omega
  have h1 : ¬ s.ev.value = 1 := by omega
  simp only [firmwareStepped, if_neg h2, if_neg h1, hb, hf, Bool.or_self, Bool.false_eq_true, if_false]

end

/-! ### Watchdog, fallback and reboot (R396) -/

/-- The firmware core of a die after its reset by the watchdog. -/
def watchdogReset (s : State) (d : Nat) : State :=
  let k := getDie s d
  let s := setDie s d { k with
    booting := true
    fallback := true
    lanes := k.lanes.map (fun x => (x.1, { x.2 with waiting := false, copying := false, next := none })) }
  setChannel s (fwCore d) fwChannel { getChannel s (fwCore d) fwChannel with state := 0 }

theorem exec_watchdogTimeout (hb : (getDie s s.ev.die).booting = false) (hh : (getDie s s.ev.die).heartbeat + 2700000 ≤ s.clock) :
    exec .watchdogTimeout s = .next (watchdogReset s s.ev.die) := by
  have hgo : ((getDie s s.ev.die).booting || decide (s.clock < (getDie s s.ev.die).heartbeat + 2700000)) = false := by
    rw [hb, decide_eq_false (Nat.not_lt.2 hh)]
    rfl
  change execWatchdogTimeout s = _
  simp only [execWatchdogTimeout, hgo, Bool.false_eq_true, if_false]
  rfl

theorem getDie_watchdogReset (s : State) (d : Nat) :
    (getDie (watchdogReset s d) d).booting = true ∧ (getDie (watchdogReset s d) d).fallback = true := by
  have h : getDie (watchdogReset s d) d = { getDie s d with
      booting := true, fallback := true
      lanes := (getDie s d).lanes.map (fun x => (x.1, { x.2 with waiting := false, copying := false, next := none })) } := getDie_setDie ..
  rw [h]
  exact ⟨rfl, rfl⟩

section
variable (hf : (getDie s s.ev.die).fallback = true) (hs : s.boot.safe = false)
include hf hs

theorem exec_fallbackTurn_of_idle (hh : headOf s s.ev.die s.ev.unit = none) :
    exec .fallbackTurn s = .next (dueFirst s (placeSteps s.ev.die)) := by
  change execFallbackTurn s = _
  simp only [execFallbackTurn, hf, hs, hh, Bool.not_true, Bool.or_self, Bool.false_eq_true, if_false]

theorem exec_fallbackTurn_of_packet {r : Ring} {h : Nat} {x : Nat × Due} (hh : headOf s s.ev.die s.ev.unit = some (r, h))
    (hb : headBad r r.head h = false) (ht : fallbackType (packetType h) = true) (hx : laneStep s s.ev.die s.ev.unit = some x) :
    exec .fallbackTurn s = .next (dueFirst s (x.2 :: placeSteps s.ev.die)) := by
  change execFallbackTurn s = _
  simp only [execFallbackTurn, hf, hs, hh, hb, ht, hx, Bool.not_true, Bool.or_self, Bool.false_eq_true, if_false]
  rfl

end

theorem exec_firmwareRebootDone (hb : (getDie s s.ev.die).booting = true) : exec .firmwareRebootDone s
    = .next (writeHeads ((upTo 32).foldl (skipDone s.ev.die)
      (setDie s s.ev.die { getDie s s.ev.die with booting := false, fallback := false, heartbeat := s.clock })) s.ev.die) := by
  change execFirmwareRebootDone s = _
  simp only [execFirmwareRebootDone, hb, Bool.not_true, Bool.false_eq_true, if_false]

end

/-- Settles O46: each packet and step by its equation. -/
theorem firmwareEvents : Obligations.FirmwareEvents := by
  unfold Obligations.FirmwareEvents
  intro s t p g e d here
  refine ⟨fun h => withPacket_of_here h _, fun h => withPacket_of_here h _, fun h hg hb => exec_signalPacket h hg hb,
    fun h hg => ⟨exec_waitPacket h hg, fun hw => exec_waitSatisfied h hg hw⟩, fun c h hc hw => exec_publishPacket h hc hw,
    fun c h hc ha hl hw => exec_timestampPacket h hc ha hl hw, fun h hl hm => exec_abortPacket h hl hm, ?_, fun c h hc => exec_launchPacket h hc,
    fun hs => ⟨fun hv => (exec_firmwareStep hs).trans (congrArg _ (if_pos hv)),
      fun hb hf hv => (exec_firmwareStep hs).trans (congrArg _ (firmwareStepped_of_reject hb hf hv)),
      fun hb hf hv => (exec_firmwareStep hs).trans (congrArg _ (firmwareStepped_of_begin hb hf hv))⟩, fun hs => exec_firmwareStep_of_safe hs,
    fun hb hh => ⟨_, exec_watchdogTimeout hb hh, getDie_watchdogReset s _⟩,
    fun r h x hf hs hh hb ht hx => exec_fallbackTurn_of_packet hf hs hh hb ht hx, fun hf hs hh => exec_fallbackTurn_of_idle hf hs hh,
    fun hb => exec_firmwareRebootDone hb⟩
  intro c ch done h hl hd hs
  refine ⟨fun hc hn => exec_copyPacket_of_ended h hl (hn ▸ hd) hs hc, fun w a b hc ho hn => ?_⟩
  exact exec_copyPacket_of_free h hl hd hs hc ho hn

end Sys2Proof.Machine

/-!
PROOFS. The memory system's own steps: requests, walks, shoot-downs, atomic units and upkeep (O48).
-/

namespace Sys2Proof.Machine

section
variable {s : State}

/-! ### Requests, replies and stores -/

/-- The state in which the home slice answers a request: a core of its own die has become a sharer of the line. -/
def sharedHere (s : State) (e : Event) (x : Desc) (l : Line) : State :=
  if homeDie x e.off == dieOf e.core && !e.flag && e.obj != 1
  then updateLine s (homeDie x e.off) (homeSlice e.obj e.off) { l with sharers := insertNat l.sharers e.core } else s

theorem exec_sliceLoadRequest_of_line {x : Desc} {t u : State} {l : Line} (hs : s.boot.safe = false) (he : s.ev.extra = 0)
    (hd : descOf s s.ev.core s.ev.obj = .ok (x, t)) (hl : homeLine t (getCore t s.ev.core).part x s.ev.off = .ok (l, u)) :
    exec .sliceLoadRequest s = .next (pushDue (sharedHere u s.ev x l) [replyStep (sharedHere u s.ev x l) s.ev x l]) := by
  change execSliceLoadRequest s = _
  simp only [execSliceLoadRequest, hs, he, hd, hl, Bool.false_eq_true, if_false, ne_eq, not_true_eq_false]
  rfl

theorem exec_sliceLoadRequest_of_safe (hs : s.boot.safe = true) : exec .sliceLoadRequest s = .next s := congrArg _ (if_pos hs)

section
variable {x : Desc} {t u : State} (hd : descOf s s.ev.core s.ev.obj = .ok (x, t))
include hd

theorem exec_guestSliceRequest_of_home (hh : homeDie x s.ev.off = dieOf s.ev.core) :
    exec .guestSliceRequest s = .next (pushDue t [⟨.sliceLoadRequest, { s.ev with flag := false }⟩]) := by
  change execGuestSliceRequest s = _
  simp only [execGuestSliceRequest, hd, hh, if_true]

section
variable (hh : homeDie x s.ev.off ≠ dieOf s.ev.core)
include hh

theorem exec_guestSliceRequest_of_miss
    (hp : probe t (dieOf s.ev.core) (homeSlice s.ev.obj s.ev.off) (getCore t s.ev.core).part x (s.ev.off / 128) = (none, u)) :
    exec .guestSliceRequest s = .next (pushDue u [⟨.sliceLoadRequest, { s.ev with flag := true }⟩]) := by
  change execGuestSliceRequest s = _
  simp only [execGuestSliceRequest, hd, hh, hp, if_false]

theorem exec_guestSliceRequest_of_hit {l : Line}
    (hp : probe t (dieOf s.ev.core) (homeSlice s.ev.obj s.ev.off) (getCore t s.ev.core).part x (s.ev.off / 128) = (some l, u)) :
    exec .guestSliceRequest s = .next (pushDue
      (updateLine u (dieOf s.ev.core) (homeSlice s.ev.obj s.ev.off) { l with sharers := insertNat l.sharers s.ev.core })
      [⟨.lineReply, { s.ev with bytes := lineBytes l, flag := false, aux := lineInfo u s.ev.core l }⟩]) := by
  change execGuestSliceRequest s = _
  simp only [execGuestSliceRequest, hd, hh, hp, if_false]

end
end

/-- The state once the request of a reply's tag counts as answered. -/
def answered (s : State) : State :=
  if s.ev.value = 0 then s else setCore s s.ev.core { getCore s s.ev.core with asked := eraseKey (getCore s s.ev.core).asked s.ev.value }

/-- A line is the one of the event's request. -/
def isAsked (e : Event) (p : Nat) (l : Line) : Bool := l.part == p && l.obj == e.obj && l.index == e.off / 128

/-- The guest line that a reply from another die makes. -/
def guestLine (e : Event) (p : Nat) : Line :=
  ⟨p, 0, e.obj, e.off / 128, e.aux.getD 3 0 == 1, true, e.aux.getD 4 0, e.aux.getD 1 0 == 1, false, false, false,
    BitVec.ofNat 8 (e.aux.getD 0 0), dropsOf (e.aux.drop 5), [e.core], false, if e.aux.getD 1 0 = 1 then [] else e.bytes⟩

section
variable {x : Desc} {t : State} (hd : descOf (answered s) s.ev.core s.ev.obj = .ok (x, t))
include hd

theorem exec_lineReply_of_sharer {l : Line} (hf : s.ev.flag = false)
    (hl : (getSlice t (dieOf s.ev.core) (homeSlice s.ev.obj s.ev.off)).lines.find?
      (fun l => isAsked s.ev (getCore t s.ev.core).part l && l.sharers.contains s.ev.core) = some l) :
    exec .lineReply s = .next (fillL1 t s.ev.core l) := by
  change execLineReply s = _
  simp only [answered, isAsked] at hd hl
  simp only [execLineReply, hd, hf, hl, Bool.not_false, if_true]

theorem exec_lineReply_of_guest {o : Option Line} {u : State} (hf : s.ev.flag = true) (hpool : s.ev.aux.getD 2 0 ≠ 1)
    (hh : homeDie x s.ev.off ≠ dieOf s.ev.core) (he : s.ev.aux.getD 4 0 = (getDie t (dieOf s.ev.core)).epoch)
    (hp : probe t (dieOf s.ev.core) (homeSlice s.ev.obj s.ev.off) (getCore t s.ev.core).part x (s.ev.off / 128) = (o, u))
    (hn : (getSlice u (dieOf s.ev.core) (homeSlice s.ev.obj s.ev.off)).lines.any (isAsked s.ev (getCore t s.ev.core).part) = false) :
    exec .lineReply s = .next (fillL1
      (insertLine u (dieOf s.ev.core) (homeSlice s.ev.obj s.ev.off) (guestLine s.ev (getCore t s.ev.core).part))
      s.ev.core (guestLine s.ev (getCore t s.ev.core).part)) := by
  have hgo : (decide (s.ev.aux.getD 2 0 = 1) || homeDie x s.ev.off == dieOf s.ev.core
      || s.ev.aux.getD 4 0 != (getDie t (dieOf s.ev.core)).epoch) = false := by
    rw [decide_eq_false hpool, beq_false_of_ne hh, he, bne_self_eq_false]
    rfl
  have hany : (getSlice u (dieOf s.ev.core) (homeSlice s.ev.obj s.ev.off)).lines.any (fun l =>
      l.part == (getCore t s.ev.core).part && l.obj == s.ev.obj && l.index == s.ev.off / 128) = false := hn
  change execLineReply s = _
  simp only [answered] at hd
  simp only [execLineReply, hd, hf, hgo, hp, hany, guestLine, Bool.not_true, Bool.false_eq_true, if_false, beq_iff_eq]

end

section
variable (hf : s.ev.flag = false)
include hf

theorem exec_sliceStore_of_applied (hk : hasKey (getCore s s.ev.core).outcomes s.ev.value = true) :
    exec .sliceStore s = .next (pushDue s [⟨.storeAck, s.ev⟩]) := by
  change execSliceStore s = _
  simp only [execSliceStore, hf, hk, Bool.false_eq_true, if_false, if_true]

theorem exec_sliceStore_of_write {x : Desc} {t u : State} (hk : hasKey (getCore s s.ev.core).outcomes s.ev.value = false)
    (hd : descOf s s.ev.core s.ev.obj = .ok (x, t))
    (hw : storeLineBy (storerOf t s.ev.core s.ev.unit) t (getCore s s.ev.core).part (some s.ev.core) x s.ev.off
      (s.ev.bytes.take (128 - s.ev.off % 128)) false = .ok u) :
    exec .sliceStore s = .next (pushDue (setCore u s.ev.core { getCore u s.ev.core with
      outcomes := insertKey (getCore u s.ev.core).outcomes s.ev.value 0 }) [⟨.storeAck, s.ev⟩]) := by
  change execSliceStore s = _
  simp only [execSliceStore, hf, hk, hd, hw, Bool.false_eq_true, if_false]

end

theorem invalL1_copy {s : State} {c obj idx : Nat} {l : L1Line} (hl : l ∈ (getCore (invalL1 s [c] obj idx) c).l1)
    (ho : l.obj = obj) (hi : l.index = idx) : l.valid = false ∧ l.pinned = true := by
  have hc : getCore (invalL1 s [c] obj idx) c = { getCore s c with
      l1 := ((getCore s c).l1.filter (fun l => !isL1 obj idx l || l.pinned)).map (fun l =>
        if isL1 obj idx l then { l with valid := false, data := [] } else l) } := getCore_setCore ..
  rw [hc] at hl
  obtain ⟨m, hm, hml⟩ := List.mem_map.1 hl
  have hkeep := (List.mem_filter.1 hm).2
  cases hmine : isL1 obj idx m with
  | true =>
    rw [hmine] at hml hkeep
    subst hml
    exact ⟨rfl, hkeep⟩
  | false =>
    rw [hmine] at hml
    subst hml
    have ho' : m.obj = obj := ho
    have hi' : m.index = idx := hi
    simp only [isL1, ho', hi', beq_self_eq_true, Bool.and_self, Bool.true_eq_false] at hmine

theorem exec_l1Invalidate : exec .l1Invalidate s = .next
    (dropSharer (invalL1 s [s.ev.core] s.ev.obj (s.ev.off / 128)) s.ev.core s.ev.obj (s.ev.off / 128)) := rfl

/-- The state once a store's acknowledgement has cleared its tag. -/
def acknowledged (s : State) : State :=
  setCore s s.ev.core { getCore s s.ev.core with outcomes := eraseKey (getCore s s.ev.core).outcomes s.ev.value,
                                                 asked := eraseKey (getCore s s.ev.core).asked s.ev.value }

theorem exec_storeAck_of_error {m : MemErr} (hd : descOf (acknowledged s) s.ev.core s.ev.obj = .error m) :
    exec .storeAck s = .next (acknowledged s) := by
  change execStoreAck s = _
  simp only [acknowledged] at hd ⊢
  simp only [execStoreAck, hd]

theorem exec_storeAck_of_desc {x : Desc} {u : State} (hd : descOf (acknowledged s) s.ev.core s.ev.obj = .ok (x, u)) :
    exec .storeAck s = .next (if s.ev.bytes.isEmpty then u
      else ackL1 u s.ev.core (getCore s s.ev.core).part x s.ev.off (s.ev.bytes.take (128 - s.ev.off % 128)) false) := by
  change execStoreAck s = _
  simp only [acknowledged] at hd
  simp only [execStoreAck, hd]

/-! ### Ports and walks -/

theorem exec_portWriteBack_of_dirty {l : Line} (hl : (getSlice s s.ev.die s.ev.unit).lines.find?
      (fun l => l.obj == s.ev.obj && l.index == s.ev.off / 128 && !l.guest && l.dirty) = some l) :
    exec .portWriteBack s = .next (writeBack (updateLine s s.ev.die s.ev.unit { l with dirty := false }) s.ev.die s.ev.unit l) := by
  change execPortWriteBack s = _
  simp only [execPortWriteBack, hl]

/-- A walk of the event's page is running at a slice. -/
def walking (s : State) (z : Slice) (e : Event) : Bool := z.walks.any (fun w => samePage s (getCore s e.core).part w e)

theorem askWalk_of_walking {z : Slice} {e : Event} (h : walking s z e = true) : askWalk s z e = { z with walks := z.walks.map (fun w =>
    if samePage s (getCore s e.core).part w e then { w with asking := w.asking ++ [e] } else w) } := if_pos h

theorem askWalk_of_free {z : Slice} {e : Event} (h : walking s z e = false) (hn : z.walks.length < 8) : askWalk s z e = { z with
    walks := z.walks ++ [⟨(getCore s e.core).part, e.obj, e.off, e.flag, mapgenOf s (getCore s e.core).part e.obj, false, [e]⟩] } :=
  (if_neg (Bool.eq_false_iff.1 h)).trans (if_neg (Nat.not_le.2 hn))

theorem askWalk_of_full {z : Slice} {e : Event} (h : walking s z e = false) (hn : 8 ≤ z.walks.length) :
    askWalk s z e = { z with missed := z.missed ++ [e] } := (if_neg (Bool.eq_false_iff.1 h)).trans (if_pos hn)

/-- The state once a walk has ended: the misses that waited for a walker go on. -/
def walkEnded (s : State) (w : Walk) : State :=
  setSlice s s.ev.die s.ev.unit ((getSlice s s.ev.die s.ev.unit).missed.foldl (askWalk s)
    { getSlice s s.ev.die s.ev.unit with walks := (getSlice s s.ev.die s.ev.unit).walks.filter (· != w), missed := [] })

section
variable {w : Walk} (hw : (getSlice s s.ev.die s.ev.unit).walks.find? (fun w => samePage s (getCore s s.ev.core).part w s.ev) = some w)
include hw

theorem exec_walkComplete_of_stale (hr : w.stale = true ∨ w.mapgen ≠ mapgenOf s (getCore s s.ev.core).part s.ev.obj) :
    exec .walkComplete s = .next (pushDue (setSlice s s.ev.die s.ev.unit { getSlice s s.ev.die s.ev.unit with
      walks := (getSlice s s.ev.die s.ev.unit).walks.map (fun x => if x == w then
        { x with stale := false, mapgen := mapgenOf s (getCore s s.ev.core).part s.ev.obj } else x) }) [⟨.walkComplete, s.ev⟩]) := by
  have hc : (w.stale || decide (w.mapgen ≠ mapgenOf s (getCore s s.ev.core).part s.ev.obj)) = true := by
    rwa [Bool.or_eq_true, decide_eq_true_iff]
  change execWalkComplete s = _
  simp only [execWalkComplete, hw, hc, if_true]

section
variable (hs : w.stale = false) (hm : w.mapgen = mapgenOf s (getCore s s.ev.core).part s.ev.obj)
include hs hm

theorem exec_walkComplete_of_none (hr : readEntry (walkEnded s w) (getCore s s.ev.core).part s.ev.obj = none) :
    exec .walkComplete s = .next (w.asking.foldl (answerWalk (.cap 0x09)) (walkEnded s w)) := by
  change execWalkComplete s = _
  simp only [walkEnded] at hr ⊢
  simp only [execWalkComplete, hw, hs, hm, hr, ne_eq, not_true_eq_false, decide_false, Bool.or_self, Bool.false_eq_true, if_false]

variable {x : Desc} (hr : readEntry (walkEnded s w) (getCore s s.ev.core).part s.ev.obj = some x)
include hr

theorem exec_walkComplete_of_mapped {a : Frame} {u : State}
    (ht : translate (walkEnded s w) s.ev.die s.ev.unit (getCore s s.ev.core).part x s.ev.flag s.ev.off = .ok (a, u)) :
    exec .walkComplete s = .next u := by
  change execWalkComplete s = _
  simp only [walkEnded] at hr ht
  simp only [execWalkComplete, hw, hs, hm, hr, ht, ne_eq, not_true_eq_false, decide_false, Bool.or_self, Bool.false_eq_true, if_false]

theorem exec_walkComplete_of_fault {m : MemErr}
    (ht : translate (walkEnded s w) s.ev.die s.ev.unit (getCore s s.ev.core).part x s.ev.flag s.ev.off = .error m) :
    exec .walkComplete s = .next (w.asking.foldl (answerWalk m) (walkEnded s w)) := by
  change execWalkComplete s = _
  simp only [walkEnded] at hr ht ⊢
  simp only [execWalkComplete, hw, hs, hm, hr, ht, ne_eq, not_true_eq_false, decide_false, Bool.or_self, Bool.false_eq_true, if_false]

end
end
/-! ### Shoot-downs -/

theorem exec_shootdownReceive_of_core (hf : s.ev.flag = true) : exec .shootdownReceive s
    = .next (pushDue (setCore s s.ev.unit (shootCore s.ev.obj (getCore s s.ev.unit))) [⟨.shootdownAck, { core := s.ev.core }⟩]) :=
  congrArg _ (if_pos hf)

theorem exec_shootdownReceive_of_slice {t : State}
    (ht : t = setSlice s s.ev.die s.ev.unit (shootSlice s.ev.value s.ev.obj (getSlice s s.ev.die s.ev.unit))) (hf : s.ev.flag = false) :
    exec .shootdownReceive s = .next (pushDue (setDie t s.ev.die (shootHub s.ev.value s.ev.obj (getDie t s.ev.die)))
      (released s.ev.value s.ev.obj (getSlice s s.ev.die s.ev.unit) ++ [⟨.shootdownAck, { core := s.ev.core }⟩])) := by
  subst ht
  exact congrArg _ (if_neg (Bool.eq_false_iff.1 hf))

/-! ### Atomic units -/

/-- The atomic request of an event. -/
def atomicOf (s : State) : AtomicReq :=
  ⟨s.ev.core, s.ev.aux.getD 0 0, s.ev.aux.getD 1 0, (getCore s s.ev.core).part, (getSlice s s.ev.die s.ev.unit).arrivals, s.ev.obj, s.ev.off,
    if s.ev.len = 8 then 8 else 4, s.ev.value, s.ev.extra, triples (s.ev.aux.drop 2), logsOps s s.ev.core (s.ev.aux.getD 0 0)⟩

/-- The state once a request has been counted at its slice. -/
def arrived (s : State) : State :=
  setSlice s s.ev.die s.ev.unit { getSlice s s.ev.die s.ev.unit with arrivals := (getSlice s s.ev.die s.ev.unit).arrivals + 1 }

/-- What the unit answers a request whose outcome it does not hold. -/
def atomicServed (s : State) : State :=
  match combineAt (getDie (arrived s) s.ev.die) (sliceStop s.ev.unit) (atomicOf s) with
  | some g => setDie (arrived s) s.ev.die g
  | none =>
    if (getSlice s s.ev.die s.ev.unit).granted.any (fun x => x.1 == s.ev.core) then
      pushDue (setSlice (arrived s) s.ev.die s.ev.unit { getSlice (arrived s) s.ev.die s.ev.unit with
        granted := (getSlice s s.ev.die s.ev.unit).granted.filter (fun x => x.1 != s.ev.core)
        queue := (getSlice s s.ev.die s.ev.unit).queue ++ [atomicOf s] })
        [⟨.atomicUnitRequest, { die := s.ev.die, unit := s.ev.unit, flag := true }⟩]
    else if !(getSlice s s.ev.die s.ev.unit).reserved.isEmpty
        || decide (64 ≤ (getSlice s s.ev.die s.ev.unit).queue.length + (getSlice s s.ev.die s.ev.unit).granted.length) then
      setSlice s s.ev.die s.ev.unit (grantNext s.clock { getSlice s s.ev.die s.ev.unit with
        reserved := insertNat (getSlice s s.ev.die s.ev.unit).reserved s.ev.core })
    else if !atomicWaits s s.ev.die s.ev.unit then applyAtomic (arrived s) (atomicOf s)
    else match mergeAt (getDie (arrived s) s.ev.die) (sliceStop s.ev.unit) (atomicOf s) none with
      | some g => pushDue (setDie (arrived s) s.ev.die g) [⟨.atomicUnitRequest, { die := s.ev.die, unit := s.ev.unit, flag := true }⟩]
      | none => pushDue (setSlice (arrived s) s.ev.die s.ev.unit { getSlice (arrived s) s.ev.die s.ev.unit with
          queue := (getSlice s s.ev.die s.ev.unit).queue ++ [atomicOf s] })
          [⟨.atomicUnitRequest, { die := s.ev.die, unit := s.ev.unit, flag := true }⟩]

section
variable (hf : s.ev.flag = false)
include hf

theorem exec_atomicUnitRequest_of_outcome (ht : s.ev.aux.getD 1 0 ≠ 0)
    (hk : hasKey (getCore s s.ev.core).outcomes (s.ev.aux.getD 1 0) = true) : exec .atomicUnitRequest s
      = .next (answerAtomic s (atomicOf s) (lookup (getCore s s.ev.core).outcomes (s.ev.aux.getD 1 0) 0)) := by
  have hc : (decide (s.ev.aux.getD 1 0 ≠ 0) && hasKey (getCore s s.ev.core).outcomes (s.ev.aux.getD 1 0)) = true := by
    rw [hk, decide_eq_true ht]
    rfl
  change execAtomicUnitRequest s = _
  simp only [execAtomicUnitRequest, hf, hc, Bool.false_eq_true, if_false, if_true]
  rfl

theorem exec_atomicUnitRequest_of_new (h : s.ev.aux.getD 1 0 = 0 ∨ hasKey (getCore s s.ev.core).outcomes (s.ev.aux.getD 1 0) = false) :
    exec .atomicUnitRequest s = .next (atomicServed s) := by
  have hc : (decide (s.ev.aux.getD 1 0 ≠ 0) && hasKey (getCore s s.ev.core).outcomes (s.ev.aux.getD 1 0)) = false := by
    rcases h with h | h
    · rw [decide_eq_false (not_not_intro h), Bool.false_and]
    · rw [h, Bool.and_false]
  change execAtomicUnitRequest s = _
  simp only [execAtomicUnitRequest, hf, hc, Bool.false_eq_true, if_false]
  rfl

end

theorem atomicServed_of_combine {g : Die} (h : combineAt (getDie (arrived s) s.ev.die) (sliceStop s.ev.unit) (atomicOf s) = some g) :
    atomicServed s = setDie (arrived s) s.ev.die g := by
  simp only [atomicServed, h]

section
variable (h : combineAt (getDie (arrived s) s.ev.die) (sliceStop s.ev.unit) (atomicOf s) = none)
include h

theorem atomicServed_of_granted (hg : (getSlice s s.ev.die s.ev.unit).granted.any (fun x => x.1 == s.ev.core) = true) :
    atomicServed s = pushDue (setSlice (arrived s) s.ev.die s.ev.unit { getSlice (arrived s) s.ev.die s.ev.unit with
        granted := (getSlice s s.ev.die s.ev.unit).granted.filter (fun x => x.1 != s.ev.core)
        queue := (getSlice s s.ev.die s.ev.unit).queue ++ [atomicOf s] })
        [⟨.atomicUnitRequest, { die := s.ev.die, unit := s.ev.unit, flag := true }⟩] := by
  simp only [atomicServed, h, hg, if_true]

section
variable (hg : (getSlice s s.ev.die s.ev.unit).granted.any (fun x => x.1 == s.ev.core) = false)
include hg

theorem atomicServed_of_idle (hr : (getSlice s s.ev.die s.ev.unit).reserved = [])
    (hn : (getSlice s s.ev.die s.ev.unit).queue.length + (getSlice s s.ev.die s.ev.unit).granted.length < 64)
    (hw : atomicWaits s s.ev.die s.ev.unit = false) : atomicServed s = applyAtomic (arrived s) (atomicOf s) := by
  have hroom : (!(getSlice s s.ev.die s.ev.unit).reserved.isEmpty
      || decide (64 ≤ (getSlice s s.ev.die s.ev.unit).queue.length + (getSlice s s.ev.die s.ev.unit).granted.length)) = false := by
    rw [hr, decide_eq_false (Nat.not_le.2 hn)]
    rfl
  simp only [atomicServed, h, hg, hroom, hw, Bool.false_eq_true, if_false, Bool.not_false, if_true]

theorem atomicServed_of_full (hr : (getSlice s s.ev.die s.ev.unit).reserved ≠ []
      ∨ 64 ≤ (getSlice s s.ev.die s.ev.unit).queue.length + (getSlice s s.ev.die s.ev.unit).granted.length) :
    atomicServed s = setSlice s s.ev.die s.ev.unit (grantNext s.clock { getSlice s s.ev.die s.ev.unit with
        reserved := insertNat (getSlice s s.ev.die s.ev.unit).reserved s.ev.core }) := by
  have hroom : (!(getSlice s s.ev.die s.ev.unit).reserved.isEmpty
      || decide (64 ≤ (getSlice s s.ev.die s.ev.unit).queue.length + (getSlice s s.ev.die s.ev.unit).granted.length)) = true := by
    rwa [Bool.or_eq_true, Bool.not_eq_true', List.isEmpty_eq_false_iff, decide_eq_true_iff]
  simp only [atomicServed, h, hg, hroom, Bool.false_eq_true, if_false, if_true]

end
end

theorem exec_atomicGrantLapse_of_none
    (h : (getSlice s s.ev.die s.ev.unit).granted.filter (fun x => decide (x.2 ≤ s.clock)) = []) : exec .atomicGrantLapse s = .next s := by
  change execAtomicGrantLapse s = _
  simp only [execAtomicGrantLapse, h, List.isEmpty_nil, if_true]

theorem exec_atomicGrantLapse_of_some {l : List (Nat × Nat)}
    (h : (getSlice s s.ev.die s.ev.unit).granted.filter (fun x => decide (x.2 ≤ s.clock)) = l) (hl : l ≠ []) :
    exec .atomicGrantLapse s = .next (setSlice s s.ev.die s.ev.unit (l.foldl (fun z _ => grantNext s.clock z)
      { getSlice s s.ev.die s.ev.unit with
        granted := (getSlice s s.ev.die s.ev.unit).granted.filter (fun x => !decide (x.2 ≤ s.clock)) })) := by
  change execAtomicGrantLapse s = _
  simp only [execAtomicGrantLapse, h, List.isEmpty_eq_false_iff.2 hl, Bool.false_eq_true, if_false]

/-! ### Time-outs and maintenance -/

theorem exec_requestRetryTimeout_of_answered (h : find? (getCore s s.ev.core).asked s.ev.extra = none) :
    exec .requestRetryTimeout s = .next s := by
  change execRequestRetryTimeout s = _
  simp only [execRequestRetryTimeout, h]

section
variable {a : Asked} (h : find? (getCore s s.ev.core).asked s.ev.extra = some a)
include h

theorem exec_requestRetryTimeout_of_early (hc : s.clock < a.since + askLimit a) : exec .requestRetryTimeout s = .next s := by
  change execRequestRetryTimeout s = _
  simp only [execRequestRetryTimeout, h, hc, if_true]

theorem exec_requestRetryTimeout_of_first (hc : a.since + askLimit a ≤ s.clock) (ht : a.tries = 0) : exec .requestRetryTimeout s
    = .next (pushDue (setCore s s.ev.core { getCore s s.ev.core with
        asked := insertKey (getCore s s.ev.core).asked s.ev.extra { a with tries := 1, since := s.clock } }) [a.again]) := by
  change execRequestRetryTimeout s = _
  simp only [execRequestRetryTimeout, h, Nat.not_lt.2 hc, ht, if_false, if_true]

theorem exec_requestRetryTimeout_of_second (hc : a.since + askLimit a ≤ s.clock) (ht : a.tries ≠ 0) : exec .requestRetryTimeout s
    = .next (askFails (setCore s s.ev.core { getCore s s.ev.core with asked := eraseKey (getCore s s.ev.core).asked s.ev.extra }) s.ev.core a) := by
  change execRequestRetryTimeout s = _
  simp only [execRequestRetryTimeout, h, Nat.not_lt.2 hc, ht, if_false]

end

theorem askFails_of_group (c : Nat) {a : Asked} (h : a.src = 0) : askFails s c a = pushDue s
    [⟨.trapTake, { core := c, unit := a.unit, value := 1, extra := 2, obj := a.obj, off := a.off, len := a.lane }⟩] := by
  simp only [askFails, h]

theorem askFails_of_channel (c : Nat) {a : Asked} (h : a.src = 1) : askFails s c a = stopCopy s c a.unit (.poison a.obj a.off 2) := by
  simp only [askFails, h]

theorem exec_hbmRowIdleClose_of_idle {row t : Nat} (h : find? (getDie s s.ev.die).rows s.ev.unit = some (row, t)) (ht : t + 2048 ≤ s.clock) :
    exec .hbmRowIdleClose s
      = .next (setDie s s.ev.die { getDie s s.ev.die with rows := eraseKey (getDie s s.ev.die).rows s.ev.unit }) := by
  change execHbmRowIdleClose s = _
  simp only [execHbmRowIdleClose, h, ht, if_true]

theorem exec_patrolScrub_of_line (hf : s.ev.flag = true) (hx : s.ev.extra = 0) (hv : s.ev.value < 2 ^ 34) :
    exec .patrolScrub s = .next { s with poison := insertNat s.poison s.ev.value } := by
  change execPatrolScrub s = _
  simp only [execPatrolScrub, hf, hx, hv, Bool.not_true, Bool.false_eq_true, if_false, if_true]

/-! ### The pool -/

theorem exec_backInvalidateSnoop_of_line {p : Partition} {r off : Nat} {u : State} {x : Desc} {l : Line} (hp : getPart s s.ev.unit = p)
    (hr : reverseEntry s s.ev.die s.ev.unit (s.ev.off / 2 ^ 16) = (r, u)) (ho : off = r % 2 ^ 28 * 2 ^ 16 + s.ev.off % 2 ^ 16)
    (hn : s.ev.off / 2 ^ 16 < p.prmlen.toNat % 2 ^ 28)
    (ht : tableOk s s.ev.unit (p.prmbase.toNat % 2 ^ 29 * 4096 + 8 * (s.ev.off / 2 ^ 16)) = true)
    (hx : readEntry u s.ev.unit (r / 2 ^ 32) = some x)
    (hl : (getSlice u (homeDie x off) (homeSlice (r / 2 ^ 32) off)).lines.find? (fun l =>
      l.part == s.ev.unit && l.obj == r / 2 ^ 32 && l.index == off / 128 && !l.guest && l.pool) = some l) :
    exec .backInvalidateSnoop s = .next (evictLine u (homeDie x off) (homeSlice (r / 2 ^ 32) off) l) := by
  subst hp ho
  have hgo : (decide ((getPart s s.ev.unit).prmlen.toNat % 2 ^ 28 ≤ s.ev.off / 2 ^ 16)
      || !tableOk s s.ev.unit ((getPart s s.ev.unit).prmbase.toNat % 2 ^ 29 * 4096 + 8 * (s.ev.off / 2 ^ 16))) = false := by
    rw [ht, decide_eq_false (Nat.not_le.2 hn)]
    rfl
  change execBackInvalidateSnoop s = _
  simp only [execBackInvalidateSnoop, hgo, hr, hx, hl, Bool.false_eq_true, if_false]

theorem exec_cxlPortDown_of_poison (hf : s.ev.flag = true) : exec .cxlPortDown s = .next (pushDue s
    [⟨.trapTake, { core := s.ev.core, unit := s.ev.unit, value := 1, extra := 3, obj := s.ev.obj, off := s.ev.off, len := s.ev.len }⟩]) :=
  congrArg _ (if_pos hf)

theorem exec_cxlPortDown_of_port (hf : s.ev.flag = false) (hv : s.ev.value < 16) :
    exec .cxlPortDown s = .next { s with linksDown := insertNat s.linksDown s.ev.value } := by
  change execCxlPortDown s = _
  simp only [execCxlPortDown, hf, hv, Bool.false_eq_true, if_false, if_true]

end

/-- Settles O48: each step by its equation. -/
theorem fabricEvents : Obligations.FabricEvents := by
  unfold Obligations.FabricEvents
  intro s e k z d
  refine ⟨fun x t l u hs he hd hl => exec_sliceLoadRequest_of_line hs he hd hl, exec_sliceLoadRequest_of_safe,
    fun x t u hd => ⟨exec_guestSliceRequest_of_home hd, exec_guestSliceRequest_of_miss hd,
      fun l hh => exec_guestSliceRequest_of_hit hd hh⟩, ?_, rfl,
    exec_sliceStore_of_applied, fun hf => congrArg _ (if_pos hf), fun x t u hf hk hd hw => exec_sliceStore_of_write hf hk hd hw,
    ⟨_, exec_l1Invalidate, fun l hl ho hi => invalL1_copy hl ho hi⟩, ⟨fun m => exec_storeAck_of_error, fun x u => exec_storeAck_of_desc⟩,
    fun l => exec_portWriteBack_of_dirty,
    ⟨fun hw => congrArg _ (congrArg _ (askWalk_of_walking hw)), fun hw hn => congrArg _ (congrArg _ (askWalk_of_free hw hn)),
      fun hw hn => congrArg _ (congrArg _ (askWalk_of_full hw hn))⟩,
    fun w hw => ⟨exec_walkComplete_of_stale hw, fun hs hm => ⟨exec_walkComplete_of_none hw hs hm, fun x hr =>
      ⟨fun a u => exec_walkComplete_of_mapped hw hs hm hr, fun m => exec_walkComplete_of_fault hw hs hm hr⟩⟩⟩,
    exec_shootdownReceive_of_core, exec_shootdownReceive_of_slice rfl, rfl, rfl,
    fun hf => ⟨exec_atomicUnitRequest_of_outcome hf, fun hnew => ?_⟩, ⟨exec_atomicGrantLapse_of_none, exec_atomicGrantLapse_of_some rfl⟩,
    exec_requestRetryTimeout_of_answered,
    fun a h => ⟨exec_requestRetryTimeout_of_early h, exec_requestRetryTimeout_of_first h,
      fun hc ht hsrc => (exec_requestRetryTimeout_of_second h hc ht).trans (congrArg _ (askFails_of_group _ hsrc)),
      fun hc ht hsrc => (exec_requestRetryTimeout_of_second h hc ht).trans (congrArg _ (askFails_of_channel _ hsrc))⟩,
    fun row t => exec_hbmRowIdleClose_of_idle, rfl, fun hf hx hv => ⟨_, exec_patrolScrub_of_line hf hx hv, fun n => mem_insertNat⟩,
    ?_, exec_cxlPortDown_of_poison, exec_cxlPortDown_of_port⟩
  · intro x t s0 y die info mine hd
    exact ⟨fun l => exec_lineReply_of_sharer hd, fun o u => exec_lineReply_of_guest hd⟩
  · have hx := exec_atomicUnitRequest_of_new hf hnew
    exact ⟨fun g hg => hx.trans (congrArg _ (atomicServed_of_combine hg)),
      fun hg hq => hx.trans (congrArg _ (atomicServed_of_granted hg hq)), fun hg hq =>
        ⟨fun hr hn hw => hx.trans (congrArg _ (atomicServed_of_idle hg hq hr hn hw)),
          fun hr => hx.trans (congrArg _ (atomicServed_of_full hg hq hr))⟩⟩
  · intro p r u off x l hn ht hx hl
    exact exec_backInvalidateSnoop_of_line rfl rfl rfl hn ht hx hl

end Sys2Proof.Machine

/-!
PROOFS. The spar loops, the die links and the IO hubs (O49).
-/

namespace Sys2Proof.Machine

section
variable {s : State}

/-! ### Flits and circuits -/

section
variable {f : Flit} (hd : s.ev.die < 8) (hf : s.ev.flag = false)
  (hfind : (getDie s s.ev.die).flits.find? (fun f => f.id == s.ev.unit) = some f)
include hd hf hfind

theorem exec_flitHop_of_flit :
    exec .flitHop s = .next (if s.ev.value = 1 then dropHeader s s.ev.die f else hopFlit s s.ev.die f) := by
  have hdies : ¬ Config.dies ≤ s.ev.die := Nat.not_le.2 hd
  change execFlitHop s = _
  simp only [execFlitHop, hdies, hf, hfind, Bool.false_eq_true, if_false]

end

theorem exec_injectionYield_of_waiting {f : Flit} (h : ((getDie s s.ev.die).flits ++ (getDie s s.ev.die).merges.filterMap (·.via)).find?
      (fun f => f.id == s.ev.unit && !f.onLoop && decide (f.since + 32 ≤ s.clock)) = some f) : exec .injectionYield s
    = .next (setDie s s.ev.die { getDie s s.ev.die with yields := insertNat (getDie s s.ev.die).yields (placeKey f) }) := by
  change execInjectionYield s = _
  simp only [execInjectionYield, h]

/-- The route of an event's circuit, and the stops on it. -/
def circuitRoute (e : Event) : Route := routeOf (circuitEnds e).1 (circuitEnds e).2
def circuitStops (e : Event) : List Nat := routeStops (circuitRoute e) 32 (circuitRoute e).pos

/-- The state with the event's circuit reserved in a phase. -/
def circuitAdded (s : State) (phase : Nat) : State :=
  setDie s (dieOf s.ev.core) { getDie s (dieOf s.ev.core) with
    circuits := (getDie s (dieOf s.ev.core)).circuits ++ [⟨circuitId s.ev, (circuitRoute s.ev).loop, phase, circuitStops s.ev,
      Nat.max 1 (Nat.min s.ev.len 65536), s.clock⟩] }

theorem exec_circuitSetup_of_new (h : ∀ y ∈ (getDie s (dieOf s.ev.core)).circuits, y.id ≠ circuitId s.ev) : exec .circuitSetup s
    = .next (if phaseFree (getDie s (dieOf s.ev.core)) (circuitRoute s.ev).loop 0 (circuitStops s.ev) then circuitAdded s 0
      else if phaseFree (getDie s (dieOf s.ev.core)) (circuitRoute s.ev).loop 1 (circuitStops s.ev) then circuitAdded s 1 else s) := by
  have hnew : ¬ (getDie s (dieOf s.ev.core)).circuits.any (fun c => c.id == circuitId s.ev) = true := fun hany => by
    obtain ⟨y, hy, hid⟩ := List.any_eq_true.1 hany
    exact h y hy (eq_of_beq hid)
  exact congrArg _ (if_neg hnew)

theorem mem_circuits_of_release {y : Circuit} : y ∈ (getDie s (dieOf s.ev.core)).circuits.filter (fun c => c.id != circuitId s.ev)
    ↔ y ∈ (getDie s (dieOf s.ev.core)).circuits ∧ y.id ≠ circuitId s.ev := by
  rw [List.mem_filter, bne_iff_ne]

theorem mem_circuits_of_timeout {l : List Circuit} {n clock : Nat} {y : Circuit} :
    y ∈ l.filter (fun c => !(c.id == n && decide (c.idle + 256 ≤ clock))) ↔ y ∈ l ∧ ¬ (y.id = n ∧ y.idle + 256 ≤ clock) := by
  rw [List.mem_filter, Bool.not_eq_true', ← Bool.not_eq_true, Bool.and_eq_true, beq_iff_eq, decide_eq_true_iff]

/-! ### Die links -/

theorem exec_dieLinkCrcRetry_of_none (h : 8 ≤ s.ev.die ∨ hasNeighbour s.ev.die s.ev.unit = false) : exec .dieLinkCrcRetry s = .next s := by
  have hgo : (decide (Config.dies ≤ s.ev.die) || !hasNeighbour s.ev.die s.ev.unit) = true := by
    rw [Bool.or_eq_true, decide_eq_true_iff, Bool.not_eq_true']
    exact h
  exact if_pos hgo

/-- The state once a repeated flit has been counted at its link. -/
def crcCounted (s : State) : State :=
  setDie s s.ev.die { getDie s s.ev.die with
    linkCrc := insertKey (getDie s s.ev.die).linkCrc s.ev.unit (Nat.min (lookup (getDie s s.ev.die).linkCrc s.ev.unit 0 + 1) 0xFFFF) }

theorem linkCrc_setDie_flits (s : State) (d x : Nat) (l : List Flit) :
    (getDie (setDie s d { getDie s d with flits := l }) x).linkCrc = (getDie s x).linkCrc := by
  by_cases h : x = d
  · rw [h, getDie_setDie]
  · rw [getDie_setDie_ne s h]

theorem exec_dieLinkCrcRetry_of_link (hd : s.ev.die < 8) (hn : hasNeighbour s.ev.die s.ev.unit = true) :
    ∃ t, exec .dieLinkCrcRetry s = .next t ∧ ∀ x, (getDie t x).linkCrc = (getDie (crcCounted s) x).linkCrc := by
  have hgo : (decide (Config.dies ≤ s.ev.die) || !hasNeighbour s.ev.die s.ev.unit) = false := by
    have hdies : ¬ Config.dies ≤ s.ev.die := Nat.not_le.2 hd
    rw [hn, decide_eq_false hdies]
    rfl
  have hx : exec .dieLinkCrcRetry s = execDieLinkCrcRetry s := rfl
  rw [hx]
  simp only [execDieLinkCrcRetry, hgo, Bool.false_eq_true, if_false]
  split
  · exact ⟨_, rfl, fun x => rfl⟩
  · exact ⟨_, rfl, fun x => linkCrc_setDie_flits (crcCounted s) _ x _⟩

/-! ### Streams -/

section
variable (ha : accepts s (getStream s (s.ev.unit % 256)) = true) (hl : s.linksDown.contains (linkOf (getStream s (s.ev.unit % 256))) = false)
include ha hl

theorem exec_externalWriteArrival_of_network {y : Desc} (hsrc : fieldNat (getStream s (s.ev.unit % 256)).cfg 25 2 = 0)
    (hy : remoteEntry s (hubDie (getStream s (s.ev.unit % 256))) s.ev.obj s.ev.extra 1 = some y) : exec .externalWriteArrival s
      = .next (takeWrite s (s.ev.unit % 256) (s.ev.value % 2 ^ 32, s.ev.obj, s.ev.off, s.ev.bytes)) := by
  change execExternalWriteArrival s = _
  simp only [execExternalWriteArrival, ha, hl, hsrc, hy, Bool.not_true, Bool.or_self, Bool.false_eq_true, if_false, if_true]

theorem exec_externalWriteArrival_of_window {w : Window} (hsrc : fieldNat (getStream s (s.ev.unit % 256)).cfg 25 2 ≠ 0)
    (hw : windowAt s s.ev.obj s.ev.off s.ev.bytes.length = some w) (hi : w.stream = s.ev.unit % 256) : exec .externalWriteArrival s
      = .next (takeWrite s (s.ev.unit % 256) (s.ev.value % 2 ^ 32, w.obj, w.base + s.ev.off, s.ev.bytes)) := by
  change execExternalWriteArrival s = _
  simp only [execExternalWriteArrival, ha, hl, hsrc, hw, hi, Bool.not_true, Bool.or_self, Bool.false_eq_true, if_false, if_true]

end

theorem exec_externalWriteApply_of_piece {p : Sent} {t : State}
    (hp : nextPiece (getStream s (s.ev.unit % 256)) s.ev.extra s.ev.flag = some p) (ho : p.obj ≠ 0)
    (ht : applyWrite s (fwPart s (hubDie (getStream s (s.ev.unit % 256)))) p.obj p.off p.bytes = .ok t) : exec .externalWriteApply s
      = .next (if p.state == .parked then pushDue (applied t (s.ev.unit % 256) p) (applySteps (s.ev.unit % 256)
          (getStream (applied t (s.ev.unit % 256) p) (s.ev.unit % 256)).released)
        else applied t (s.ev.unit % 256) p) := by
  change Host.Outcome.next (applyNext s (s.ev.unit % 256) s.ev.extra s.ev.flag) = _
  simp only [applyNext, hp, ho, ht, if_false]

theorem exec_doorbellWrite_of_accepts (ha : accepts s (getStream s (s.ev.obj % 256)) = true)
    (hl : s.linksDown.contains (linkOf (getStream s (s.ev.obj % 256))) = false) : exec .doorbellWrite s = .next (takeWrite s (s.ev.obj % 256)
      (s.ev.value % 2 ^ 32, 0, 32 * (s.ev.die % 8) + s.ev.unit % 32, leBytes 4 s.ev.extra)) := by
  change execDoorbellWrite s = _
  simp only [execDoorbellWrite, ha, hl, Bool.not_true, Bool.or_self, Bool.false_eq_true, if_false]

section
variable (hl : s.linksDown.contains (24 + s.ev.die) = false) (hf : s.ev.flag = false)
include hl hf

theorem exec_remoteAccessRequest_of_read {y : Desc} {bs : List Byte} {t : State} (hb : s.ev.bytes = [])
    (hy : remoteEntry s s.ev.die s.ev.obj s.ev.extra 0 = some y)
    (hr : readHome s (fwPart s s.ev.die) y s.ev.off s.ev.len = .ok (bs, t)) : exec .remoteAccessRequest s = .next t := by
  change execRemoteAccessRequest s = _
  simp only [execRemoteAccessRequest, hl, hf, hb, List.isEmpty_nil, hy, hr, Bool.false_eq_true, if_false, if_true]

theorem exec_remoteAccessRequest_of_write {y : Desc} (hb : s.ev.bytes ≠ [])
    (hy : remoteEntry s s.ev.die s.ev.obj s.ev.extra 1 = some y) :
    exec .remoteAccessRequest s = .next (pushDue s [⟨.externalWriteArrival, { s.ev with unit := s.ev.unit % 256 }⟩]) := by
  have he : s.ev.bytes.isEmpty = false := List.isEmpty_eq_false_iff.2 hb
  change execRemoteAccessRequest s = _
  simp only [execRemoteAccessRequest, hl, hf, he, hy, Bool.false_eq_true, if_false]

end

/-- What the ports still apply of a stream that is disabled. -/
def keptPieces (x : Stream) : List Sent := (x.released.filter (fun p => p.state != .failed)).map (fun p => { p with number := 2 ^ 32 })

/-- A stream as a configuration without EN leaves it, and as one that sets EN does. -/
def disabled (x : Stream) (cfg : Word) : Stream := { x with cfg := cfg &&& ~~~0x800000#32, buffered := [], released := keptPieces x }
def enabled (x : Stream) (cfg : Word) : Stream :=
  { x with cfg := cfg &&& ~~~0x800000#32, wmark := 0xFFFFFFFF, expected := 0, buffered := [] }

/-- STRCFG as STRCFG_ENABLE writes it. -/
def strcfgWritten (s : State) : Word :=
  if s.ev.flag then (getStream s (s.ev.unit % 256)).cfg &&& 0x7FFFFFFF
  else (wordOf s.ev.value &&& 0xFE4001FF) ||| ((getStream s (s.ev.unit % 256)).cfg &&& 0x800000)

/-- The state once STRCFG_ENABLE has taken its value. -/
def strcfgTaken (s : State) : State :=
  if !(strcfgWritten s).getLsbD 31 then
    pushDue (setStream s (s.ev.unit % 256) (disabled (getStream s (s.ev.unit % 256)) (strcfgWritten s)))
      (applySteps (s.ev.unit % 256) (keptPieces (getStream s (s.ev.unit % 256))))
  else setStream s (s.ev.unit % 256) (if !(getStream s (s.ev.unit % 256)).cfg.getLsbD 31 then
      enabled (getStream s (s.ev.unit % 256)) (strcfgWritten s)
    else { getStream s (s.ev.unit % 256) with cfg := strcfgWritten s })

theorem exec_strcfgEnable : exec .strcfgEnable s = .next (strcfgTaken s) := rfl

theorem strcfgWritten_en_of_flag (hf : s.ev.flag = true) : (strcfgWritten s).getLsbD 31 = false := by
  rw [strcfgWritten, if_pos hf, BitVec.getLsbD_and]
  exact Bool.and_false _

theorem strcfgWritten_en_of_value (hf : s.ev.flag = false) (hv : (wordOf s.ev.value).getLsbD 31 = true) :
    (strcfgWritten s).getLsbD 31 = true := by
  rw [strcfgWritten, if_neg (Bool.eq_false_iff.1 hf), BitVec.getLsbD_or, BitVec.getLsbD_and, hv]
  rfl

theorem heldMask_getLsbD (cfg : Word) :
    (cfg &&& ~~~0x800000#32).getLsbD 31 = cfg.getLsbD 31 ∧ (cfg &&& ~~~0x800000#32).getLsbD 23 = false := by
  rw [BitVec.getLsbD_and, BitVec.getLsbD_and]
  exact ⟨Bool.and_true _, Bool.and_false _⟩

theorem mem_keptPieces {x : Stream} {p : Sent} (h : p ∈ keptPieces x) :
    ∃ q ∈ x.released, q.state ≠ .failed ∧ p = { q with number := 2 ^ 32 } := by
  obtain ⟨q, hq, rfl⟩ := List.mem_map.1 h
  obtain ⟨hmem, hst⟩ := List.mem_filter.1 hq
  exact ⟨q, hmem, bne_iff_ne.1 hst, rfl⟩

theorem getStream_strcfgTaken_of_flag (hf : s.ev.flag = true) :
    getStream (strcfgTaken s) (s.ev.unit % 256) = disabled (getStream s (s.ev.unit % 256)) (strcfgWritten s) := by
  rw [strcfgTaken, strcfgWritten_en_of_flag hf]
  exact getStream_setStream ..

theorem getStream_strcfgTaken_of_enable (hf : s.ev.flag = false) (hv : (wordOf s.ev.value).getLsbD 31 = true)
    (hx : (getStream s (s.ev.unit % 256)).cfg.getLsbD 31 = false) :
    getStream (strcfgTaken s) (s.ev.unit % 256) = enabled (getStream s (s.ev.unit % 256)) (strcfgWritten s) := by
  rw [strcfgTaken, strcfgWritten_en_of_value hf hv, hx]
  exact getStream_setStream ..

theorem exec_strcfgResume_of_held (h : held (getStream s (s.ev.unit % 256)) = true) {y : Stream}
    (hy : y = releaseWrites s 1024 { setHeld (getStream s (s.ev.unit % 256)) false with
      released := (getStream s (s.ev.unit % 256)).released.map (fun p => if p.state == .failed then { p with state := .sent } else p) }) :
    exec .strcfgResume s = .next (pushDue (setStream s (s.ev.unit % 256) y) (applySteps (s.ev.unit % 256) y.released)) := by
  subst hy
  change execStrcfgResume s = _
  simp only [execStrcfgResume, h, Bool.not_true, Bool.false_eq_true, if_false]

theorem exec_deviceDmaRead_of_window {w : Window} {y : Desc} {bs : List Byte} {t : State}
    (hw : windowAt s s.ev.unit s.ev.off s.ev.len = some w) (hy : readEntry s w.part w.obj = some y)
    (hr : readHome s w.part y (w.base + s.ev.off) s.ev.len = .ok (bs, t)) : exec .deviceDmaRead s = .next t := by
  change execDeviceDmaRead s = _
  simp only [execDeviceDmaRead, hw, hy, hr]

end

/-- Settles O49: each step by its equation. -/
theorem loopAndHubEvents : Obligations.LoopAndHubEvents := by
  unfold Obligations.LoopAndHubEvents
  intro s e d c i x
  refine ⟨fun f hd hf hfind => ⟨fun hv => (exec_flitHop_of_flit hd hf hfind).trans (congrArg _ (if_neg hv)),
      fun hv => (exec_flitHop_of_flit hd hf hfind).trans (congrArg _ (if_pos hv))⟩,
    fun f => exec_injectionYield_of_waiting, ?_, ⟨_, rfl, fun y => ?_⟩, ⟨_, rfl, fun y => ?_⟩, exec_dieLinkCrcRetry_of_none, fun hd hn => ?_,
    fun ha hl => ⟨fun y => exec_externalWriteArrival_of_network ha hl, fun w => exec_externalWriteArrival_of_window ha hl⟩,
    fun p t hp ho ht => exec_externalWriteApply_of_piece hp ho ht, exec_doorbellWrite_of_accepts,
    fun y bs t hl hf hb hy hr => exec_remoteAccessRequest_of_read hl hf hb hy hr,
    fun y hl hf hb hy => exec_remoteAccessRequest_of_write hl hf hb hy, ?_, fun h => exec_strcfgResume_of_held h rfl,
    fun w y bs t => exec_deviceDmaRead_of_window⟩
  · intro r stops add hnew
    exact ⟨fun h0 => (exec_circuitSetup_of_new hnew).trans (congrArg _ (if_pos h0)), fun h0 h1 =>
      (exec_circuitSetup_of_new hnew).trans (congrArg _ ((if_neg (Bool.eq_false_iff.1 h0)).trans (if_pos h1)))⟩
  · rw [getDie_setDie]
    exact mem_circuits_of_release
  · rw [getDie_setDie]
    exact mem_circuits_of_timeout
  · obtain ⟨t, hx, ht⟩ := exec_dieLinkCrcRetry_of_link hd hn
    refine ⟨t, hx, ?_⟩
    rw [ht, crcCounted, getDie_setDie, lookup_insertKey_self]
  · refine ⟨_, exec_strcfgEnable, fun hf => ?_, fun hf hv hx => ?_⟩
    · rw [getStream_strcfgTaken_of_flag hf]
      exact ⟨(heldMask_getLsbD _).1.trans (strcfgWritten_en_of_flag hf), rfl, (heldMask_getLsbD _).2, fun p => mem_keptPieces⟩
    · rw [getStream_strcfgTaken_of_enable hf hv hx]
      exact ⟨rfl, rfl, (heldMask_getLsbD _).1.trans (strcfgWritten_en_of_value hf hv), (heldMask_getLsbD _).2⟩

end Sys2Proof.Machine

/-!
PROOFS. What the memory path leaves as it is: the boot record, the partitions and the partition of every core.
-/

namespace Sys2Proof.Machine

/-! ### What the memory path keeps -/

/-- A partition without the use of its pin quotas, which the memory system counts. -/
def Partition.unpinned (p : Partition) : Partition := { p with pinuse := [] }

/-- The boot record, the partitions and the partition of every core stay, whatever slices, caches and memories do. -/
structure MemKept (s t : State) : Prop where
  boot  : t.boot = s.boot
  parts : ∀ p, (getPart t p).unpinned = (getPart s p).unpinned
  owner : ∀ c, (getCore t c).part = (getCore s c).part

theorem MemKept.refl (s : State) : MemKept s s := ⟨rfl, fun _ => rfl, fun _ => rfl⟩

theorem MemKept.trans {s t u : State} (a : MemKept s t) (b : MemKept t u) : MemKept s u :=
  ⟨b.boot.trans a.boot, fun p => (b.parts p).trans (a.parts p), fun c => (b.owner c).trans (a.owner c)⟩

theorem memKept_of_eq {s t : State} (hb : t.boot = s.boot) (hp : t.partitions = s.partitions) (hc : t.cores = s.cores) : MemKept s t :=
  ⟨hb, fun p => by simp only [getPart, hp], fun c => by simp only [getCore, hc]⟩

theorem memKept_setDie (s : State) (d : Nat) (k : Die) : MemKept s (setDie s d k) := memKept_of_eq rfl rfl rfl

theorem memKept_setSlice (s : State) (d z : Nat) (k : Slice) : MemKept s (setSlice s d z k) := memKept_of_eq rfl rfl rfl

theorem memKept_setCore (s : State) (c : Nat) {k : Core} (h : k.part = (getCore s c).part) : MemKept s (setCore s c k) :=
  ⟨rfl, fun _ => rfl, getCore_setCore_congr Core.part s h⟩

theorem getPart_setPart_congr {α : Type} (f : Partition → α) (s : State) {n : Nat} {k : Partition} (h : f k = f (getPart s n)) (x : Nat) :
    f (getPart (setPart s n k) x) = f (getPart s x) := by
  by_cases hx : x = n
  · rw [hx, getPart_setPart, h]
  · exact congrArg f (lookup_insertKey_ne s.partitions hx ..)

theorem memKept_setPart (s : State) (n : Nat) {k : Partition} (h : k.unpinned = (getPart s n).unpinned) : MemKept s (setPart s n k) :=
  ⟨rfl, getPart_setPart_congr Partition.unpinned s h, fun _ => rfl⟩

theorem memKept_foldl {α : Type} {f : State → α → State} (h : ∀ s a, MemKept s (f s a)) (l : List α) (s : State) :
    MemKept s (l.foldl f s) := by
  induction l generalizing s with
  | nil => exact .refl s
  | cons a r ih => exact (h s a).trans (ih _)

/-! ### Tables and frames -/

theorem memKept_touchRow (s : State) (a : Nat) : MemKept s (touchRow s a) := memKept_setDie ..

theorem memKept_tablePut (s : State) (a : Nat) (bs : List Byte) : MemKept s (tablePut s a bs) := by
  unfold tablePut
  dsimp only
  split
  · exact memKept_setSlice ..
  · exact memKept_of_eq rfl rfl rfl

theorem memKept_setEntryBit {s t : State} {entry source bit e : Nat} (h : setEntryBit s entry source bit = some (e, t)) : MemKept s t := by
  unfold setEntryBit at h
  dsimp only at h
  split at h
  · cases h
    exact .refl _
  · split at h
    · cases h
      exact memKept_tablePut ..
    · cases h

theorem memKept_portFrame {s t : State} {d z p id off : Nat} {shadow : Bool} {f : Frame} (h : portFrame s d z p id shadow off = .ok (f, t)) :
    MemKept s t := by
  unfold portFrame at h
  dsimp only at h
  split at h
  · cases h
    exact memKept_setSlice ..
  · split at h
    · cases h
    · cases h
    · split at h
      · cases h
      · split at h
        · split at h <;> cases h
        · split at h
          · cases h
          · split at h
            · cases h
              exact .refl _
            · next hset =>
              cases h
              exact (memKept_setEntryBit hset).trans (memKept_setSlice ..)

theorem memKept_setBitmap (s : State) (f : Frame) (on : Bool) : MemKept s (setBitmap s f on) := by
  unfold setBitmap
  dsimp only
  split
  · exact .refl s
  · split
    · exact .refl s
    · exact memKept_tablePut ..

theorem memKept_writeFrame (s : State) (f : Frame) (bytes : List Byte) (tags : BitVec 8) (zero bad : Bool) :
    MemKept s (writeFrame s f bytes tags zero bad) := by
  unfold writeFrame
  dsimp only
  split
  · exact memKept_setBitmap ..
  · split
    · refine MemKept.trans ?_ (memKept_setBitmap ..)
      exact memKept_of_eq rfl rfl rfl
    · refine MemKept.trans ?_ (memKept_setBitmap ..)
      exact memKept_of_eq rfl rfl rfl

theorem memKept_markDirty (s : State) (d z : Nat) (f : Frame) : MemKept s (markDirty s d z f) := by
  unfold markDirty
  dsimp only
  split
  · exact .refl s
  · split
    · next hset => exact (memKept_setEntryBit hset).trans (memKept_setSlice ..)
    · exact memKept_setSlice ..

/-! ### Caches and slices -/

theorem memKept_dropL1 (s : State) (l : List Nat) (obj idx : Nat) : MemKept s (dropL1 s l obj idx) :=
  memKept_foldl (fun s c => by exact memKept_setCore s c rfl) l s

theorem memKept_invalL1 (s : State) (l : List Nat) (obj idx : Nat) : MemKept s (invalL1 s l obj idx) :=
  memKept_foldl (fun s c => by exact memKept_setCore s c rfl) l s

theorem memKept_returnQuota (s : State) (l : Line) : MemKept s (returnQuota s l) := by
  unfold returnQuota
  dsimp only
  split
  · exact memKept_setPart _ _ rfl
  · exact .refl s

theorem memKept_homeFrame {s t : State} {d z : Nat} {l : Line} {f : Frame} (h : homeFrame s d z l = some (f, t)) : MemKept s t := by
  unfold homeFrame at h
  dsimp only at h
  split at h
  · cases h
    exact .refl _
  · split at h
    · next hport =>
      cases h
      exact memKept_portFrame hport
    · split at h
      · split at h
        · cases h
          exact .refl _
        · cases h
      · cases h

theorem memKept_writeHome (s : State) (d z : Nat) (l : Line) : MemKept s (writeHome s d z l) := by
  unfold writeHome
  split
  · exact .refl s
  · split
    · exact .refl s
    · next hframe =>
      refine (memKept_homeFrame hframe).trans ?_
      split
      · exact memKept_of_eq rfl rfl rfl
      · exact (memKept_writeFrame ..).trans (memKept_markDirty ..)

theorem memKept_removeLine (s : State) (d z : Nat) (l : Line) : MemKept s (removeLine s d z l) := by
  have hcopies : MemKept s (if l.guest then invalL1 s l.sharers l.obj l.index
      else dropL1 s (l.sharers ++ (if l.pinned then pinners s d l.obj l.index else [])) l.obj l.index) := by
    split
    · exact memKept_invalL1 ..
    · exact memKept_dropL1 ..
  exact (hcopies.trans (memKept_returnQuota ..)).trans (memKept_setSlice ..)

theorem memKept_unzeroTable (s : State) (a : Nat) : MemKept s (unzeroTable s a) := by
  unfold unzeroTable
  dsimp only
  split
  · exact .refl s
  · split
    · exact .refl s
    · refine MemKept.trans ?_ (memKept_setSlice ..)
      split
      · exact memKept_setSlice ..
      · split
        · exact ((memKept_setSlice ..).trans (memKept_removeLine ..)).trans (memKept_writeHome ..)
        · exact memKept_setSlice ..

theorem memKept_tableWrite (s : State) (a : Nat) (bs : List Byte) : MemKept s (tableWrite s a bs) :=
  (memKept_unzeroTable s a).trans (memKept_tablePut ..)

theorem memKept_writeBack (s : State) (d z : Nat) (l : Line) : MemKept s (writeBack s d z l) := by
  unfold writeBack
  split
  · split
    · next hframe =>
      refine ((memKept_homeFrame hframe).trans ?_).trans (memKept_writeHome ..)
      split
      · split
        · exact memKept_unzeroTable ..
        · exact .refl _
      · exact .refl _
    · exact .refl s
  · exact memKept_writeHome ..

theorem memKept_evictLine (s : State) (d z : Nat) (l : Line) : MemKept s (evictLine s d z l) :=
  (memKept_removeLine s d z l).trans (memKept_writeBack ..)

/-- A slice makes room: the first of some lines that is not pinned is evicted. -/
def evictFirst (s : State) (d z : Nat) (lines : List Line) : State :=
  match lines.find? (fun m => !m.pinned) with
  | some v => evictLine s d z v
  | none => s

theorem memKept_evictFirst (s : State) (d z : Nat) (lines : List Line) : MemKept s (evictFirst s d z lines) := by
  unfold evictFirst
  split
  · exact memKept_evictLine ..
  · exact .refl s

theorem memKept_insertLine (s : State) (d z : Nat) (l : Line) : MemKept s (insertLine s d z l) := by
  have hroom : ∀ (u : State) (c : Prop) [Decidable c] (lines : List Line),
      MemKept u (if c then evictFirst u d z lines else u) := fun u c _ lines => by
    split
    · exact memKept_evictFirst ..
    · exact .refl u
  exact (hroom s _ _).trans ((hroom _ _ _).trans (memKept_setSlice ..))

theorem memKept_updateLine (s : State) (d z : Nat) (l : Line) : MemKept s (updateLine s d z l) := memKept_setSlice ..

theorem memKept_putLine (s : State) (d z : Nat) (old new : Line) : MemKept s (putLine s d z old new) := by
  unfold putLine
  split
  · exact (memKept_removeLine ..).trans (memKept_insertLine ..)
  · exact memKept_updateLine ..

theorem memKept_probe {s t : State} {d z p idx : Nat} {e : Desc} {o : Option Line} (h : probe s d z p e idx = (o, t)) : MemKept s t := by
  unfold probe at h
  split at h
  · cases h
    exact .refl s
  · split at h
    · cases h
      exact memKept_removeLine ..
    · cases h
      exact memKept_setSlice ..

/-! ### Demand misses, reads and writes at the home -/

theorem memKept_touchTable {s t : State} {p a : Nat} (h : touchTable s p a = .ok t) : MemKept s t := by
  unfold touchTable at h
  dsimp only at h
  split at h
  · cases h
  · split at h
    · cases h
      exact memKept_setSlice ..
    · split at h
      · cases h
      · cases h
        exact (memKept_touchRow ..).trans (memKept_insertLine ..)

theorem memKept_touchTables {l : List Nat} {s t : State} {p : Nat} (h : touchTables s p l = .ok t) : MemKept s t := by
  induction l generalizing s with
  | nil =>
    cases h
    exact .refl _
  | cons a r ih =>
    unfold touchTables at h
    split at h
    · cases h
    · next ha => exact (memKept_touchTable ha).trans (ih h)

theorem memKept_translate {s t : State} {d z p off : Nat} {e : Desc} {shadow : Bool} {f : Frame}
    (h : translate s d z p e shadow off = .ok (f, t)) : MemKept s t := by
  unfold translate at h
  split at h
  · split at h
    · cases h
      exact .refl s
    · cases h
  · split at h
    · exact memKept_portFrame h
    · split at h
      · cases h
      · next ht => exact (memKept_touchTables ht).trans (memKept_portFrame h)

theorem memKept_touchBitmap {s t : State} {p : Nat} {f : Frame} (h : touchBitmap s p f = .ok t) : MemKept s t := by
  unfold touchBitmap at h
  split at h
  · cases h
    exact .refl s
  · exact memKept_touchTable h

theorem memKept_homeLine {s t : State} {p off : Nat} {e : Desc} {l : Line} (h : homeLine s p e off = .ok (l, t)) : MemKept s t := by
  unfold homeLine at h
  dsimp only at h
  split at h
  · cases h
  · split at h
    · next hp =>
      split at h
      · cases h
      · cases h
        exact memKept_probe hp
    · next hp =>
      split at h
      · cases h
      · next ht =>
        split at h
        · cases h
        · next hb =>
          split at h
          · cases h
          · split at h
            · cases h
            · cases h
              refine ((memKept_probe hp).trans ((memKept_translate ht).trans (memKept_touchBitmap hb))).trans
                (MemKept.trans ?_ (memKept_insertLine ..))
              split
              · exact .refl _
              · exact memKept_touchRow ..

/-- A fold whose steps each keep what the memory path keeps keeps it, where it succeeds. -/
theorem memKept_foldl_except {α β : Type} {st : β → State} {f : Except MemErr β → α → Except MemErr β}
    (he : ∀ x a, f (.error x) a = .error x)
    (hf : ∀ b a c, f (.ok b) a = .ok c → MemKept (st b) (st c)) {l : List α} {b c : β} (h : l.foldl f (.ok b) = .ok c) :
    MemKept (st b) (st c) := by
  have herr : ∀ (r : List α) x, r.foldl f (.error x) = .error x := fun r x => by
    induction r with
    | nil => rfl
    | cons a r ih => rw [List.foldl_cons, he, ih]
  induction l generalizing b with
  | nil =>
    cases h
    exact .refl _
  | cons a r ih =>
    rw [List.foldl_cons] at h
    cases ha : f (.ok b) a with
    | error x =>
      rw [ha, herr] at h
      cases h
    | ok d =>
      rw [ha] at h
      exact (hf b a d ha).trans (ih h)

theorem memKept_readHome {s t : State} {p off n : Nat} {e : Desc} {bs : List Byte} (h : readHome s p e off n = .ok (bs, t)) : MemKept s t := by
  refine memKept_foldl_except (st := Prod.snd) (fun _ _ => rfl) (fun b pc c hc => ?_) h
  dsimp only at hc
  split at hc
  · cases hc
  · next hl =>
    cases hc
    exact memKept_homeLine hl

theorem memKept_storeLineBy {by_ : Nat × Nat × Nat} {s t : State} {p off : Nat} {e : Desc} {bs : List Byte} {tag : Bool}
    (h : storeLineBy by_ s p none e off bs tag = .ok t) : MemKept s t := by
  unfold storeLineBy at h
  dsimp only at h
  split at h
  · cases h
  · next hl =>
    cases h
    refine MemKept.trans ?_ ((memKept_invalL1 ..).trans (memKept_putLine ..))
    split at hl
    · split at hl
      · cases hl
        exact .refl s
      · exact memKept_homeLine hl
    · exact memKept_homeLine hl

theorem memKept_writeLineBy {by_ : Nat × Nat × Nat} {s t : State} {p off : Nat} {e : Desc} {bs : List Byte} {tag : Bool}
    (h : writeLineBy by_ s p none e off bs tag = .ok t) : MemKept s t := by
  unfold writeLineBy at h
  cases hs : storeLineBy by_ s p none e off bs tag with
  | error x =>
    rw [hs] at h
    cases h
  | ok u =>
    rw [hs] at h
    cases h
    exact memKept_storeLineBy hs

theorem memKept_writeObject {s t : State} {p off : Nat} {e : Desc} {bs : List Byte} {tag : Bool}
    (h : writeObject s p none e off bs tag = .ok t) : MemKept s t :=
  memKept_foldl_except (st := id) (fun _ _ => rfl) (fun _ _ _ hc => memKept_writeLineBy hc) h

/-! ### Packets that the hardware appends -/

theorem memKept_pretranslate {s t : State} {p off : Nat} {e : Desc} (h : pretranslate s p e off = .ok t) : MemKept s t := by
  unfold pretranslate at h
  split at h
  · cases h
  · split at h
    · next hp =>
      cases h
      exact memKept_probe hp
    · next hp =>
      split at h
      · cases h
      · next ht =>
        cases h
        exact (memKept_probe hp).trans (memKept_translate ht)

theorem memKept_checkPieces {a : Area} {l : List Piece} {s t : State} (h : checkPieces a s l = .ok t) : MemKept s t := by
  induction l generalizing s with
  | nil =>
    cases h
    exact .refl _
  | cons p r ih =>
    unfold checkPieces at h
    split at h
    · cases h
    · next hp => exact (memKept_pretranslate hp).trans (ih h)

theorem memKept_writeArea {a : Area} {l : List Piece} {s t : State} (h : writeArea a s l = .ok t) : MemKept s t := by
  induction l generalizing s with
  | nil =>
    cases h
    exact .refl _
  | cons p r ih =>
    unfold writeArea at h
    split at h
    · cases h
    · next hp => exact (memKept_writeObject hp).trans (ih h)

theorem memKept_savePieces {a : Area} {l : List Piece} {s t : State} (h : savePieces a s l = .ok t) : MemKept s t := by
  unfold savePieces at h
  split at h
  · cases h
  · next hc => exact (memKept_checkPieces hc).trans (memKept_writeArea h)

theorem memKept_appendPacket {s t : State} {p v : Nat} {e : Desc} {bs : List Byte} {tags : List Nat}
    (h : appendPacket s p e bs tags = .ok (some (v, t))) : MemKept s t := by
  unfold appendPacket at h
  split at h
  · cases h
  · next hr =>
    refine (memKept_readHome hr).trans ?_
    extract_lets at h
    split at h
    · cases h
      exact .refl _
    · split at h
      · cases h
        exact .refl _
      · split at h
        · cases h
        · split at h
          · cases h
          · next hs =>
            cases h
            exact memKept_savePieces hs

end Sys2Proof.Machine

/-!
PROOFS. Boot, partitions and the management path (O47).
-/

namespace Sys2Proof.Machine

section
variable {s : State}

theorem not_atStage_eq_false {n : Nat} (h : s.boot.stage = n) (hs : s.boot.safe = false) : ¬ (!atStage s n) = true := by
  rw [atStage, h, hs, beq_self_eq_true]
  exact Bool.noConfusion

/-! ### The boot stages -/

theorem imageCode_eq_zero_iff {found version : Nat} :
    imageCode s found version = 0 ↔ found ≠ 1 ∧ found ≠ 2 ∧ s.boot.fuses.rollback ≤ version := by
  unfold imageCode
  split
  · omega
  · split <;> omega

theorem imageCode_of_old {found version : Nat} (h1 : found ≠ 1) (h2 : found ≠ 2) (hv : version < s.boot.fuses.rollback) :
    imageCode s found version = 3 :=
  (if_neg (not_or.2 ⟨h1, h2⟩)).trans (if_pos hv)

/-- The state once the firmware images have been checked. -/
def imagesChecked (s : State) : State :=
  if imageCode s s.ev.value s.ev.off = 0 then { s with boot := { s.boot with stage := 2, slot := 0, version := s.ev.off } }
  else if imageCode s s.ev.extra s.ev.len = 0 then { s with boot := { s.boot with stage := 2, slot := 1, version := s.ev.len } }
  else bootFail { s with boot := { s.boot with stage := 2 } } (imageCode s s.ev.extra s.ev.len) 0 []

theorem exec_bootImageCheck (h : s.boot.stage = 1) (hs : s.boot.safe = false) : exec .bootImageCheck s = .next (imagesChecked s) :=
  congrArg _ (if_neg (not_atStage_eq_false h hs))

theorem imagesChecked_of_first (h : imageCode s s.ev.value s.ev.off = 0) :
    imagesChecked s = { s with boot := { s.boot with stage := 2, slot := 0, version := s.ev.off } } := if_pos h

section
variable (h : imageCode s s.ev.value s.ev.off ≠ 0)
include h

theorem imagesChecked_of_second (h2 : imageCode s s.ev.extra s.ev.len = 0) :
    imagesChecked s = { s with boot := { s.boot with stage := 2, slot := 1, version := s.ev.len } } := (if_neg h).trans (if_pos h2)

theorem imagesChecked_of_none (h2 : imageCode s s.ev.extra s.ev.len ≠ 0) :
    imagesChecked s = bootFail { s with boot := { s.boot with stage := 2 } } (imageCode s s.ev.extra s.ev.len) 0 [] :=
  (if_neg h).trans (if_neg h2)

end

theorem stage_imagesChecked (s : State) : (imagesChecked s).boot.stage = 2 := by
  by_cases h : imageCode s s.ev.value s.ev.off = 0
  · rw [imagesChecked_of_first h]
  · by_cases h2 : imageCode s s.ev.extra s.ev.len = 0
    · rw [imagesChecked_of_second h h2]
    · rw [imagesChecked_of_none h h2]
      rfl

/-- The state once the self-test has run. -/
def selfTested (s : State) : State :=
  if 0x10 ≤ s.ev.value ∧ s.ev.value ≤ 0x14 then
    bootFail { s with boot := { s.boot with stage := 3 } } s.ev.value (s.ev.unit % 256) (pairsOf s.ev.aux)
  else { s with boot := { s.boot with stage := 3 } }

theorem exec_bootSelfTest (h : s.boot.stage = 2) (hs : s.boot.safe = false) : exec .bootSelfTest s = .next (selfTested s) :=
  congrArg _ (if_neg (not_atStage_eq_false h hs))

theorem selfTested_of_failure (h1 : 0x10 ≤ s.ev.value) (h2 : s.ev.value ≤ 0x14) :
    selfTested s = bootFail { s with boot := { s.boot with stage := 3 } } s.ev.value (s.ev.unit % 256) (pairsOf s.ev.aux) :=
  if_pos ⟨h1, h2⟩

theorem selfTested_of_success (h : s.ev.value < 0x10 ∨ 0x14 < s.ev.value) :
    selfTested s = { s with boot := { s.boot with stage := 3 } } := if_neg (by omega)

theorem stage_selfTested (s : State) : (selfTested s).boot.stage = 3 := by
  by_cases h : 0x10 ≤ s.ev.value ∧ s.ev.value ≤ 0x14
  · rw [selfTested_of_failure h.1 h.2]
    rfl
  · rw [selfTested_of_success (by omega)]

theorem exec_bootFirmwareLoad (h : s.boot.stage = 3) (hs : s.boot.safe = false) :
    exec .bootFirmwareLoad s = .next { s with boot := measure { s.boot with stage := 4 } 1 s.ev.bytes } :=
  congrArg _ (if_pos (by rw [atStage, h, hs]; rfl))

theorem lookup_measure (b : Boot) (i : Nat) (bs : List Byte) : lookup (measure b i bs).measures i 0 = leNat (bs.take 32) :=
  lookup_insertKey_self ..

/-- The state once the kernel image has been loaded. -/
def kernelLoaded (s : State) : State :=
  if s.ev.value = 0x20 ∨ s.ev.value = 0x21 then bootFail { s with boot := { s.boot with stage := 5 } } s.ev.value 0 []
  else { s with boot := measure { s.boot with stage := 5 } 2 s.ev.bytes }

theorem exec_bootKernelLoad (h : s.boot.stage = 4) (hs : s.boot.safe = false) : exec .bootKernelLoad s = .next (kernelLoaded s) :=
  congrArg _ (if_neg (not_atStage_eq_false h hs))

theorem kernelLoaded_of_failure (h : s.ev.value = 0x20 ∨ s.ev.value = 0x21) :
    kernelLoaded s = bootFail { s with boot := { s.boot with stage := 5 } } s.ev.value 0 [] := if_pos h

theorem kernelLoaded_of_success (h1 : s.ev.value ≠ 0x20) (h2 : s.ev.value ≠ 0x21) :
    kernelLoaded s = { s with boot := measure { s.boot with stage := 5 } 2 s.ev.bytes } := if_neg (not_or.2 ⟨h1, h2⟩)

theorem stage_kernelLoaded (s : State) : (kernelLoaded s).boot.stage = 5 := by
  by_cases h : s.ev.value = 0x20 ∨ s.ev.value = 0x21
  · rw [kernelLoaded_of_failure h]
    rfl
  · rw [kernelLoaded_of_success (fun hv => h (.inl hv)) fun hv => h (.inr hv)]
    rfl

/-! ### Partitions -/

/-- The cores of a plan, given to its partition. -/
def coresGiven (s : State) (n : Nat) (cs : List Nat) : State :=
  cs.foldl (fun s c => setCore s c { getCore s c with part := n, descs := [], icache := [] }) s

theorem coresGiven_frame (s : State) (n : Nat) (cs : List Nat) :
    (coresGiven s n cs).boot = s.boot ∧ (coresGiven s n cs).partitions = s.partitions := by
  unfold coresGiven
  induction cs generalizing s with
  | nil => exact ⟨rfl, rfl⟩
  | cons c r ih => exact ih _

theorem part_coresGiven (s : State) (n : Nat) (cs : List Nat) {c : Nat} (h : c ∈ cs ∨ (getCore s c).part = n) :
    (getCore (coresGiven s n cs) c).part = n := by
  unfold coresGiven
  induction cs generalizing s with
  | nil => exact h.resolve_left List.not_mem_nil
  | cons x r ih =>
    refine ih _ ?_
    by_cases hx : c = x
    · rw [hx, getCore_setCore]
      exact .inr rfl
    · rw [getCore_setCore_ne s hx]
      exact h.imp_left fun hm => (List.mem_cons.1 hm).resolve_left hx

/-- The partition that a plan makes. -/
def Plan.made (x : Plan) : Partition :=
  { Partition.reset with
    exist := true, cores := x.cores, ranges := x.ranges, tenants := [x.tenant], ports := x.ports
    otbase := x.otbase &&& 0x1FFFFFFF, otlen := x.otlen }

/-- The state in which a plan's partition exists and has its cores, before its table is written. -/
def planned (s : State) (x : Plan) : State :=
  coresGiven { setPart s x.unit x.made with boot := { s.boot with keys := insertNat s.boot.keys x.unit } } x.unit x.cores

theorem memKept_createPart (s : State) (x : Plan) : MemKept (planned s x) (createPart s x) := by
  unfold createPart
  dsimp only
  split
  · exact memKept_of_eq rfl rfl rfl
  · refine MemKept.trans ?_ (memKept_tableWrite ..)
    exact memKept_of_eq rfl rfl rfl

theorem boot_createPart (s : State) (x : Plan) : (createPart s x).boot = { s.boot with keys := insertNat s.boot.keys x.unit } :=
  (memKept_createPart s x).boot.trans (coresGiven_frame ..).1

theorem getPart_createPart (s : State) (x : Plan) : (getPart (createPart s x) x.unit).unpinned = x.made.unpinned := by
  rw [(memKept_createPart s x).parts, planned, getPart, (coresGiven_frame ..).2]
  exact congrArg Partition.unpinned (getPart_setPart s x.unit x.made)

theorem part_createPart (s : State) (x : Plan) {c : Nat} (h : c ∈ x.cores) : (getCore (createPart s x) c).part = x.unit :=
  ((memKept_createPart s x).owner c).trans (part_coresGiven _ _ _ (.inl h))

theorem creatable_of_free {n : Nat} {cs : List Nat} (hn : n < 8) (he : (getPart s n).exist = false) (hcs : cs ≠ [])
    (hidle : coresIdle s cs = true) (hfree : ∀ p ∈ s.partitions, p.2.exist = true → ∀ c ∈ p.2.cores, c ∉ cs) :
    creatable s n cs = true := by
  have hany : s.partitions.any (fun p => p.2.exist && p.2.cores.any cs.contains) = false := by
    refine List.any_eq_false.2 fun p hp hmeet => ?_
    obtain ⟨hexist, hcores⟩ := Bool.and_eq_true_iff.1 hmeet
    obtain ⟨c, hc, hin⟩ := List.any_eq_true.1 hcores
    exact hfree p hp hexist c hc (List.contains_iff_mem.1 hin)
  rw [creatable, decide_eq_true hn, he, List.isEmpty_eq_false_iff.2 hcs, hidle, hany]
  rfl

/-- The plan of a PARTITION_CREATE event. -/
def eventPlan (e : Event) : Plan :=
  ⟨e.unit, (upTo (Config.dies * Config.coresPerDie)).filter e.value.testBit, rangesOf e.bytes, e.core, (upTo 32).filter e.off.testBit,
    wordOf e.obj, wordOf e.len, [], []⟩

theorem exec_partitionCreate (h : s.boot.stage = 6) (hs : s.boot.safe = false) (hc : creatable s s.ev.unit (eventPlan s.ev).cores = true) :
    exec .partitionCreate s = .next (createPart s (eventPlan s.ev)) := by
  have hgo : (!atStage s 6 || !creatable s s.ev.unit (eventPlan s.ev).cores) = false := by
    rw [hc, atStage, h, hs]
    rfl
  exact congrArg _ (if_neg (Bool.eq_false_iff.1 hgo))

theorem exec_partitionDestroy {t : State} (he : (getPart s s.ev.unit).exist = true)
    (hidle : coresIdle s (getPart s s.ev.unit).cores = true)
    (ht : t = eraseKeys ((getPart s s.ev.unit).ranges.foldl (fun s r => zeroHbm s r.1 r.2) (evictPart
      (shootDown { s with windows := s.windows.filter (fun w => w.part != s.ev.unit) } s.ev.unit 0) s.ev.unit)) s.ev.unit) :
    exec .partitionDestroy s = .next { t with
      partitions := eraseKey t.partitions s.ev.unit, boot := { t.boot with keys := t.boot.keys.filter (· != s.ev.unit) } } := by
  subst ht
  have hgo : (!(getPart s s.ev.unit).exist || !coresIdle s (getPart s s.ev.unit).cores) = false := by
    rw [he, hidle]
    rfl
  exact congrArg _ (if_neg (Bool.eq_false_iff.1 hgo))

/-! ### The start of the partitions and cores -/

/-- The fuses, and the version of the image that has booted, stay. -/
def FusesKept (s t : State) : Prop := t.boot.fuses = s.boot.fuses ∧ t.boot.version = s.boot.version

theorem FusesKept.refl (s : State) : FusesKept s s := ⟨rfl, rfl⟩

theorem FusesKept.trans {s t u : State} (a : FusesKept s t) (b : FusesKept t u) : FusesKept s u :=
  ⟨b.1.trans a.1, b.2.trans a.2⟩

theorem MemKept.fuses {s t : State} (h : MemKept s t) : FusesKept s t := ⟨congrArg Boot.fuses h.boot, congrArg Boot.version h.boot⟩

theorem fusesKept_foldl {α : Type} {f : State → α → State} (h : ∀ s a, FusesKept s (f s a)) (l : List α) (s : State) :
    FusesKept s (l.foldl f s) := by
  induction l generalizing s with
  | nil => exact .refl s
  | cons a r ih => exact (h s a).trans (ih _)

theorem fusesKept_createPart (s : State) (x : Plan) : FusesKept s (createPart s x) := by
  rw [FusesKept, boot_createPart]
  exact ⟨rfl, rfl⟩

/-- A packet of the kernel is appended to its ring. -/
def submitPacket (n : Nat) (s : State) (k : Nat × List Byte × List Nat) : State :=
  match readEntry s n k.1 with
  | none => s
  | some d => match appendPacket s n d k.2.1 k.2.2 with
    | .ok (some (_, s)) => s
    | _ => s

theorem memKept_submitPacket (n : Nat) (s : State) (k : Nat × List Byte × List Nat) : MemKept s (submitPacket n s k) := by
  unfold submitPacket
  split
  · exact .refl s
  · split
    · next h => exact memKept_appendPacket h
    · exact .refl s

theorem fusesKept_startPart (s : State) (x : Plan) : FusesKept s (startPart s x) := by
  have hstart : FusesKept s (x.packets.foldl (submitPacket x.unit)
      (x.entries.foldl (fun s e => tableWrite s (entryAddr s x.unit e.1) (e.2.take 64)) (createPart s x))) :=
    ((fusesKept_createPart s x).trans (memKept_foldl (fun _ _ => memKept_tableWrite ..) _ _).fuses).trans
      (memKept_foldl (memKept_submitPacket x.unit) _ _).fuses
  unfold startPart
  split
  · exact .refl s
  · exact hstart

/-- A core runs, with its supervisor lane in place. -/
def Released (s : State) (c : Nat) : Prop := (getCore s c).running = true ∧ (getGroup s c Config.laneSlot).resident = true

theorem released_releaseCore (s : State) (c : Nat) : Released (releaseCore s c) c := by
  rw [Released, getGroup, releaseCore, getCore_setCore]
  refine ⟨rfl, ?_⟩
  rw [lookup_insertKey_self]
  rfl

theorem released_foldl_releaseCore (l : List Nat) {s : State} {c : Nat} (h : c ∈ l ∨ Released s c) : Released (l.foldl releaseCore s) c := by
  induction l generalizing s with
  | nil => exact h.resolve_left List.not_mem_nil
  | cons x r ih =>
    refine ih ?_
    by_cases hx : c = x
    · rw [hx]
      exact .inr (released_releaseCore s x)
    · refine h.imp (fun hm => (List.mem_cons.1 hm).resolve_left hx) fun hr => ?_
      rw [Released, getGroup, releaseCore, getCore_setCore_ne s hx]
      exact hr

theorem Released.of_cores {s t : State} {c : Nat} (h : Released s c) (he : t.cores = s.cores) : Released t c := by
  rw [Released, getGroup, getCore, he]
  exact h

/-- The state in which every planned partition has started and every core is released. -/
def partsStarted (s : State) : State :=
  (upTo (Config.dies * Config.coresPerDie)).foldl releaseCore (s.boot.plans.foldl startPart s)

theorem fusesKept_releaseCore (s : State) (c : Nat) : FusesKept s (releaseCore s c) := ⟨rfl, rfl⟩

theorem fusesKept_partsStarted (s : State) : FusesKept s (partsStarted s) := by
  unfold partsStarted
  generalize upTo (Config.dies * Config.coresPerDie) = l
  exact (fusesKept_foldl fusesKept_startPart _ s).trans (fusesKept_foldl fusesKept_releaseCore l _)

theorem released_partsStarted (s : State) {c : Nat} (h : c < 320) : Released (partsStarted s) c := by
  have hc : c ∈ upTo (Config.dies * Config.coresPerDie) := (mem_upTo _ c).2 h
  unfold partsStarted
  generalize upTo (Config.dies * Config.coresPerDie) = l at hc ⊢
  exact released_foldl_releaseCore l (.inl hc)

theorem exec_bootPartitionStart (h : s.boot.stage = 5) (hs : s.boot.safe = false) : exec .bootPartitionStart s
    = .next { partsStarted s with boot := { (partsStarted s).boot with
        stage := 6, code := 0, ready := true
        fuses := { (partsStarted s).boot.fuses with
          rollback := Nat.max (partsStarted s).boot.fuses.rollback (partsStarted s).boot.version } } } := by
  change execBootPartitionStart s = _
  unfold execBootPartitionStart partsStarted
  generalize upTo (Config.dies * Config.coresPerDie) = l
  exact congrArg _ (if_neg (not_atStage_eq_false h hs))

/-! ### The management path -/

theorem exec_statusQuery_of_report (h : s.ev.len ≠ 0) :
    exec .statusQuery s = .next { s with boot := { s.boot with report := testReport s.boot } } := congrArg _ (if_pos h)

section
variable (h : s.ev.len = 0)
include h

theorem exec_statusQuery_of_status (ho : s.ev.off = 0) :
    exec .statusQuery s = .next { s with boot := { s.boot with answer := bootst s.boot } } := by
  change execStatusQuery s = _
  simp only [execStatusQuery, h, ho, ne_eq, not_true_eq_false, if_false, if_true]

theorem exec_statusQuery_of_link (ho : 0x100 ≤ s.ev.off) (hf : s.ev.flag = false) : exec .statusQuery s
    = .next { s with boot := { s.boot with answer := wordOf (linkErr (getDie s s.ev.die) ((s.ev.off - 0x100) / 4)) } } := by
  have h0 : s.ev.off ≠ 0 := by omega
  change execStatusQuery s = _
  simp only [execStatusQuery, h, h0, Nat.not_lt.2 ho, hf, ne_eq, not_true_eq_false, if_false, Bool.not_false, if_true]

end

theorem length_leBytes (n v : Nat) : (leBytes n v).length = n := by
  induction n generalizing v with
  | zero => rfl
  | succ n ih => rw [leBytes, List.length_cons, ih]

/-- What stands in an attestation report behind its version, tenant and nonce. -/
def attestationTail (s : State) : List Byte :=
  let m := fun (i : Nat) => leBytes 32 (lookup s.boot.measures i (if i = 0 then Config.freeSignature 0 [0] else 0))
  let body := leBytes 4 0x00010019 ++ leBytes 4 s.ev.unit ++ (upTo 32).map (fun i => s.ev.bytes.getD i 0)
    ++ m 0 ++ freeBytes 0 32 (3 :: m 1 ++ leBytes 4 s.boot.slot) ++ m 2 ++ freeBytes 0 32 (4 :: mapBytes s) ++ fuseBytes s.boot.fuses
    ++ leBytes 4 chain.length ++ leBytes 4 0x100
  m 0 ++ freeBytes 0 32 (3 :: m 1 ++ leBytes 4 s.boot.slot) ++ m 2 ++ freeBytes 0 32 (4 :: mapBytes s) ++ fuseBytes s.boot.fuses
    ++ leBytes 4 chain.length ++ leBytes 4 0x100 ++ freeBytes s.free 64 (body ++ chain) ++ chain

theorem exec_attestationRequest (hs : s.boot.safe = false) : ∃ t, exec .attestationRequest s = .next t
    ∧ t.boot.report = leBytes 4 0x00010019 ++ (leBytes 4 s.ev.unit ++ ((upTo 32).map (fun i => s.ev.bytes.getD i 0) ++ attestationTail s)) := by
  refine ⟨_, congrArg Host.Outcome.next (if_neg (Bool.eq_false_iff.1 hs)), ?_⟩
  dsimp only
  simp only [attestationTail, List.append_assoc]

/-- The places of version, tenant and nonce in a report. -/
theorem report_fields {v u n r : List Byte} (hv : v.length = 4) (hu : u.length = 4) {i : Nat} (hi : i < n.length) :
    (v ++ (u ++ (n ++ r))).take 4 = v ∧ ((v ++ (u ++ (n ++ r))).drop 4).take 4 = u
      ∧ (v ++ (u ++ (n ++ r))).getD (8 + i) 0 = n.getD i 0 := by
  refine ⟨List.take_left' hv, ?_, ?_⟩
  · rw [List.drop_left' hv, List.take_left' hu]
  · rw [List.getD_eq_getElem?_getD, List.getElem?_append_right (by omega), hv, List.getElem?_append_right (by omega), hu,
      List.getElem?_append_left (by omega), show 8 + i - 4 - 4 = i by omega, List.getD_eq_getElem?_getD]

theorem created_fields {p : Partition} {x : Plan} (h : p.unpinned = x.made.unpinned) :
    p.exist = true ∧ p.cores = x.cores ∧ p.tenants = [x.tenant] ∧ p.otbase = x.otbase &&& 0x1FFFFFFF ∧ p.otlen = x.otlen
      ∧ p.ports = x.ports :=
  ⟨(congrArg Partition.exist h :), (congrArg Partition.cores h :), (congrArg Partition.tenants h :), (congrArg Partition.otbase h :),
    (congrArg Partition.otlen h :), (congrArg Partition.ports h :)⟩

theorem bootPartitionStart_done (h : s.boot.stage = 5) (hs : s.boot.safe = false) : ∃ t, exec .bootPartitionStart s = .next t
    ∧ t.boot.stage = 6 ∧ t.boot.ready = true ∧ t.boot.fuses.rollback = Nat.max s.boot.fuses.rollback s.boot.version
    ∧ ∀ c < 320, Released t c := by
  obtain ⟨hfuses, hversion⟩ := fusesKept_partsStarted s
  have hx := exec_bootPartitionStart h hs
  have hreleased : ∀ c < 320, Released (partsStarted s) c := fun c hc => released_partsStarted s hc
  rw [hfuses, hversion] at hx
  generalize partsStarted s = u at hx hreleased
  exact ⟨_, hx, rfl, rfl, rfl, fun c hc => (hreleased c hc).of_cores rfl⟩

theorem exec_externalLinkDown (h : s.ev.unit ∈ allLinks) :
    exec .externalLinkDown s = .next { s with linksDown := insertNat s.linksDown s.ev.unit } :=
  congrArg _ (if_pos (List.contains_iff_mem.2 h))

end

/-- Settles O47: each step by its equation; the boot record comes through the partitions' start by what the memory path keeps. -/
theorem bootEvents : Obligations.BootEvents := by
  unfold Obligations.BootEvents
  intro s e
  refine ⟨⟨_, _, rfl, rfl, rfl, rfl⟩,
    fun h hs => ⟨_, exec_bootImageCheck h hs, stage_imagesChecked s, fun h1 => ?_, fun h1 h2 => ?_, fun h1 h2 => ?_⟩,
    fun found version => ⟨imageCode_eq_zero_iff, imageCode_of_old⟩,
    fun h hs => ⟨_, exec_bootSelfTest h hs, stage_selfTested s, fun h1 h2 => ?_, fun h1 => ?_⟩,
    fun h hs => ⟨_, exec_bootFirmwareLoad h hs, rfl, lookup_measure ..⟩,
    fun h hs => ⟨_, exec_bootKernelLoad h hs, stage_kernelLoaded s, fun h1 => ?_, fun h1 h2 => ?_⟩,
    bootPartitionStart_done, ?_, ?_, exec_statusQuery_of_report,
    fun h ho => ⟨_, exec_statusQuery_of_status h ho, rfl, rfl⟩, fun h ho hf => ⟨_, exec_statusQuery_of_link h ho hf, rfl, rfl⟩, fun hs => ?_,
    rfl, fun h => congrArg _ (if_neg (Bool.eq_false_iff.1 h)), fun h => congrArg _ (if_pos h), fun h => congrArg _ (if_pos h),
    fun h => ⟨_, exec_externalLinkDown h, fun n => mem_insertNat⟩⟩
  · rw [imagesChecked_of_first h1]
    exact ⟨rfl, rfl, hs⟩
  · rw [imagesChecked_of_second h1 h2]
    exact ⟨rfl, rfl, hs⟩
  · rw [imagesChecked_of_none h1 h2]
    exact ⟨rfl, rfl, rfl⟩
  · rw [selfTested_of_failure h1 h2]
    exact ⟨rfl, rfl, rfl, rfl⟩
  · rw [selfTested_of_success h1]
  · rw [kernelLoaded_of_failure h1]
    exact ⟨rfl, rfl⟩
  · rw [kernelLoaded_of_success h1 h2]
    exact ⟨hs, lookup_measure ..⟩
  · intro cs h hs hn he hcs hidle hfree
    obtain ⟨hexist, hcores, htenants, hotbase, hotlen, hports⟩ := created_fields (getPart_createPart s (eventPlan s.ev))
    exact ⟨_, exec_partitionCreate h hs (creatable_of_free hn he hcs hidle hfree), hexist, hcores, htenants, hotbase, hotlen, hports,
      fun c => part_createPart s (eventPlan s.ev)⟩
  · intro p t he hidle
    exact exec_partitionDestroy he hidle rfl
  · obtain ⟨t, hx, hreport⟩ := exec_attestationRequest hs
    have hfields := fun (i : Nat) (hi : i < 32) => report_fields (r := attestationTail s) (length_leBytes 4 0x00010019)
      (length_leBytes 4 s.ev.unit) (n := (upTo 32).map (fun i => s.ev.bytes.getD i 0)) (i := i) hi
    rw [← hreport] at hfields
    exact ⟨t, hx, (hfields 0 (by omega)).1, (hfields 0 (by omega)).2.1, fun i hi => (hfields i hi).2.2.trans (getD_map_upTo _ 32 i 0 hi)⟩

end Sys2Proof.Machine
